-- ==== Sys2Proof/Word.lean ====
section
/-! DEFINITION. The word types of the Farficor part and their plainest arithmetic (00_scope.md, R5, R6, Notation). -/

namespace Sys2Proof

/-- A scalar register or a 64-bit memory word. -/
abbrev Word := BitVec 64

/-- One lane of a vector register, or a scratchpad word. -/
abbrev Half := BitVec 32

/-- The smallest addressable unit of memory. -/
abbrev Byte := BitVec 8

/-- One bit for each of the 96 lanes of a group: EM, K and the live mask (R168). -/
abbrev Mask := BitVec 96

/-- One 32-bit value for each of the 96 lanes (R171). -/
abbrev Lanes := Vector Half 96

/-- The field `[hi:lo]` of `w`, as a natural number (00_scope.md, Notation). -/
def bits {n : Nat} (w : BitVec n) (hi lo : Nat) : Nat := (w.toNat >>> lo) % 2 ^ (hi + 1 - lo)

/-- The single bit `[i]` of `w`. -/
def bit {n : Nat} (w : BitVec n) (i : Nat) : Bool := w.getLsbD i

/-- The field `[hi:lo]` of `w` replaced by the low bits of `v`. -/
def setBits {n : Nat} (w : BitVec n) (hi lo v : Nat) : BitVec n :=
  let m := BitVec.ofNat n ((2 ^ (hi + 1 - lo) - 1) <<< lo)
  (w &&& ~~~m) ||| (BitVec.ofNat n (v <<< lo) &&& m)

/-- A value placed with its lowest bit at `lo`. -/
def field (lo v : Nat) : Word := BitVec.ofNat 64 (v <<< lo)

/-- One bit as a number. -/
def b2n (b : Bool) : Nat := if b then 1 else 0

/-- Two's complement reading of the low `n` bits of `v`. -/
def signedOf (n v : Nat) : Int :=
  let u := v % 2 ^ n
  if 2 * u < 2 ^ n then (u : Int) else (u : Int) - 2 ^ n

/-- The low `n` bits of the two's complement of `z`. -/
def ofInt (n : Nat) (z : Int) : BitVec n := BitVec.ofInt n z

/-- `z` held within `lo..hi`. -/
def clampInt (lo hi z : Int) : Int := if z < lo then lo else if hi < z then hi else z

/-- A count raised by one that stops at its largest value (the "saturating" counters). -/
def satInc {n : Nat} (w : BitVec n) : BitVec n := if w.toNat + 1 < 2 ^ n then w + 1 else w

end Sys2Proof
end

