-- ==== Sys2Proof/Machine/Float.lean ====
section
/-! DEFINITION. Binary floating point of 12_number_formats.md: layouts (R225), arithmetic with one rounding of the exact
result (R226), the overflow and underflow conditions (R227), for FP64, FP32, FP16 and BF16. -/

namespace Sys2Proof.Machine

/-- A binary format: exponent bits and fraction bits (R225). -/
structure FFmt where
  eb : Nat
  fb : Nat
  deriving DecidableEq, Repr

def fp64 : FFmt := ⟨11, 52⟩
def fp32 : FFmt := ⟨8, 23⟩
def fp16 : FFmt := ⟨5, 10⟩
def bf16 : FFmt := ⟨8, 7⟩

/-- The four rounding modes (R226). -/
inductive RMode
  | rne | rz | rup | rdn
  deriving DecidableEq, Repr

def RMode.ofCode : Nat → RMode
  | 1 => .rz
  | 2 => .rup
  | 3 => .rdn
  | _ => .rne

/-- A value of a binary format: NaN, an infinity, or (−1)^neg · m · 2^e. -/
inductive FVal
  | nan
  | inf (neg : Bool)
  | fin (neg : Bool) (m : Nat) (e : Int)
  deriving DecidableEq, Repr

/-- A delivered bit pattern with the overflow and underflow conditions of R227. -/
structure FRes where
  val : Nat
  of  : Bool
  uf  : Bool
  deriving DecidableEq, Repr

namespace FFmt

def width (f : FFmt) : Nat := f.eb + f.fb + 1
def bias (f : FFmt) : Nat := 2 ^ (f.eb - 1) - 1
def expMax (f : FFmt) : Nat := 2 ^ f.eb - 1
/-- The exponent of the last place of a subnormal. -/
def qmin (f : FFmt) : Int := 1 - (f.bias : Int) - f.fb
def canonNaN (f : FFmt) : Nat := (f.expMax <<< f.fb) + 2 ^ (f.fb - 1)
def signBit (f : FFmt) (neg : Bool) : Nat := if neg then 2 ^ (f.width - 1) else 0
def infBits (f : FFmt) (neg : Bool) : Nat := f.signBit neg + (f.expMax <<< f.fb)
def maxBits (f : FFmt) (neg : Bool) : Nat := f.signBit neg + (f.expMax <<< f.fb) - 1
def zeroBits (f : FFmt) (neg : Bool) : Nat := f.signBit neg

/-- The value of a bit pattern (R225). -/
def decode (f : FFmt) (v : Nat) : FVal :=
  let neg := (v >>> (f.width - 1)) % 2 == 1
  let e := (v >>> f.fb) % 2 ^ f.eb
  let fr := v % 2 ^ f.fb
  if e == f.expMax then (if fr == 0 then .inf neg else .nan)
  else if e == 0 then .fin neg fr f.qmin
  else .fin neg (2 ^ f.fb + fr) (f.qmin + (e : Int) - 1)

end FFmt

/-- Bits needed to write `n`. -/
def bitLen (n : Nat) : Nat := if n = 0 then 0 else n.log2 + 1

/-- `m / 2^s` rounded to an integer in `rm`, and whether bits were lost. -/
def roundShift (rm : RMode) (neg : Bool) (m s : Nat) : Nat × Bool :=
  let q := m >>> s
  let r := m % 2 ^ s
  let up :=
    match rm with
    | .rne => decide (2 ^ s < 2 * r) || (2 * r == 2 ^ s && q % 2 == 1 && r != 0)
    | .rz => false
    | .rup => !neg && r != 0
    | .rdn => neg && r != 0
  (if up then q + 1 else q, r != 0)

/-- The dyadic `m · 2^e` rounded to a multiple of `2^q`: the multiplier and whether it is inexact. -/
def roundAt (rm : RMode) (neg : Bool) (m : Nat) (e q : Int) : Nat × Bool :=
  if q ≤ e then (m <<< (e - q).toNat, false) else roundShift rm neg m (q - e).toNat

/-- The value delivered on overflow in `rm`: an infinity or the largest finite magnitude (R227). -/
def FFmt.overflow (f : FFmt) (rm : RMode) (neg : Bool) : Nat :=
  match rm with
  | .rne => f.infBits neg
  | .rz => f.maxBits neg
  | .rup => if neg then f.maxBits neg else f.infBits neg
  | .rdn => if neg then f.infBits neg else f.maxBits neg

/-- (−1)^neg · m · 2^e rounded once into the format (R226), with OF and UF of R227. -/
def FFmt.round (f : FFmt) (rm : RMode) (neg : Bool) (m : Nat) (e : Int) : FRes :=
  if m = 0 then ⟨f.zeroBits neg, false, false⟩
  else
    let top := e + bitLen m
    let q := max (top - (f.fb + 1)) f.qmin
    let (r, inexact) := roundAt rm neg m e q
    let tiny := decide (top ≤ f.qmin + f.fb)
    if decide (f.qmin + f.fb + f.expMax - 1 < q + bitLen r) then ⟨f.overflow rm neg, true, false⟩
    else if r < 2 ^ f.fb then ⟨f.signBit neg + r, false, tiny && inexact⟩
    else
      let eb := (q - f.qmin).toNat + 1
      -- a carry out of the fraction lands in the exponent field
      ⟨f.signBit neg + ((eb - 1) <<< f.fb) + r, false, tiny && inexact⟩

/-- SAT (R293): an infinity from finite operands becomes the largest finite magnitude, and OF is set. -/
def FRes.saturate (f : FFmt) (sat finiteOps : Bool) (r : FRes) : FRes :=
  if sat && finiteOps && (r.val == f.infBits false || r.val == f.infBits true) then
    ⟨f.maxBits (r.val == f.infBits true), true, r.uf⟩
  else r

def FVal.isFin : FVal → Bool
  | .fin .. => true
  | _ => false

def FVal.isNaN : FVal → Bool
  | .nan => true
  | _ => false

def FVal.neg? : FVal → Bool
  | .nan => false
  | .inf n => n
  | .fin n _ _ => n

/-- The sign of a zero sum (R226). -/
def zeroSumSign (rm : RMode) (n1 n2 : Bool) : Bool := if n1 == n2 then n1 else rm == .rdn

/-- Signed multiplier of a dyadic aligned to exponent `e0`. -/
def alignInt (neg : Bool) (m : Nat) (e e0 : Int) : Int :=
  let v : Int := ((m <<< (e - e0).toNat : Nat) : Int)
  if neg then -v else v

/-- The exact sum of two values as a value (R226). -/
def FVal.add (rm : RMode) : FVal → FVal → FVal
  | .nan, _ => .nan
  | _, .nan => .nan
  | .inf a, .inf b => if a == b then .inf a else .nan
  | .inf a, .fin .. => .inf a
  | .fin .., .inf b => .inf b
  | .fin n1 m1 e1, .fin n2 m2 e2 =>
    let e0 := min e1 e2
    let z := alignInt n1 m1 e1 e0 + alignInt n2 m2 e2 e0
    if z = 0 then .fin (if m1 = 0 && m2 = 0 then zeroSumSign rm n1 n2 else rm == .rdn) 0 e0
    else .fin (decide (z < 0)) z.natAbs e0

/-- The exact product of two values (R226). -/
def FVal.mul : FVal → FVal → FVal
  | .nan, _ => .nan
  | _, .nan => .nan
  | .inf a, .inf b => .inf (a != b)
  | .inf a, .fin n m _ => if m = 0 then .nan else .inf (a != n)
  | .fin n m _, .inf b => if m = 0 then .nan else .inf (n != b)
  | .fin n1 m1 e1, .fin n2 m2 e2 => .fin (n1 != n2) (m1 * m2) (e1 + e2)

/-- An exact value rounded into a format. -/
def FFmt.ofVal (f : FFmt) (rm : RMode) : FVal → FRes
  | .nan => ⟨f.canonNaN, false, false⟩
  | .inf n => ⟨f.infBits n, false, false⟩
  | .fin n m e => f.round rm n m e

namespace FFmt

def addOp (f : FFmt) (rm : RMode) (sat : Bool) (a b : Nat) : FRes :=
  let x := f.decode a; let y := f.decode b
  (f.ofVal rm (x.add rm y)).saturate f sat (x.isFin && y.isFin)

/-- The sign bit of a pattern flipped; NaN stays NaN. -/
def negate (f : FFmt) (a : Nat) : Nat := a ^^^ 2 ^ (f.width - 1)

def absolute (f : FFmt) (a : Nat) : Nat := a % 2 ^ (f.width - 1)

def subOp (f : FFmt) (rm : RMode) (sat : Bool) (a b : Nat) : FRes := f.addOp rm sat a (f.negate b)

def mulOp (f : FFmt) (rm : RMode) (sat : Bool) (a b : Nat) : FRes :=
  let x := f.decode a; let y := f.decode b
  (f.ofVal rm (x.mul y)).saturate f sat (x.isFin && y.isFin)

/-- A·B + C with one rounding (R293). -/
def fmaOp (f : FFmt) (rm : RMode) (sat : Bool) (a b c : Nat) : FRes :=
  let x := f.decode a; let y := f.decode b; let z := f.decode c
  (f.ofVal rm ((x.mul y).add rm z)).saturate f sat (x.isFin && y.isFin && z.isFin)

end FFmt

/-- Order of two values that are not NaN, −0 equal to +0: `none` when either is NaN. -/
def FVal.cmp : FVal → FVal → Option Ordering
  | .nan, _ => none
  | _, .nan => none
  | .inf a, .inf b => some (if a == b then .eq else if a then .lt else .gt)
  | .inf a, .fin .. => some (if a then .lt else .gt)
  | .fin .., .inf b => some (if b then .gt else .lt)
  | .fin n1 m1 e1, .fin n2 m2 e2 =>
    let e0 := min e1 e2
    some (compare (alignInt n1 m1 e1 e0) (alignInt n2 m2 e2 e0))

namespace FFmt

/-- The smaller (`big = false`) or larger operand, −0 below +0; a NaN gives way to the other operand (R294). -/
def minMax (f : FFmt) (big : Bool) (a b : Nat) : Nat :=
  let x := f.decode a; let y := f.decode b
  match x.cmp y with
  | none => if x.isNaN && y.isNaN then f.canonNaN else if x.isNaN then b else a
  | some .lt => if big then b else a
  | some .gt => if big then a else b
  | some .eq => if (x.neg? == big) then b else a

/-- The FP32-style class mask of R296, exactly one bit set. -/
def classMask (f : FFmt) (v : Nat) : Nat :=
  let neg := (v >>> (f.width - 1)) % 2 == 1
  let e := (v >>> f.fb) % 2 ^ f.eb
  let fr := v % 2 ^ f.fb
  let i :=
    if e == f.expMax then
      if fr == 0 then (if neg then 0 else 7) else if (fr >>> (f.fb - 1)) % 2 == 0 then 8 else 9
    else if e == 0 then
      if fr == 0 then (if neg then 3 else 4) else if neg then 2 else 5
    else if neg then 1 else 6
  2 ^ i

end FFmt

/-- Integer square root by binary digits, from the highest of `k` digits down. -/
def isqrtGo (n : Nat) : Nat → Nat → Nat
  | 0, r => r
  | k + 1, r =>
    let t := r + 2 ^ k
    isqrtGo n k (if t * t ≤ n then t else r)

def isqrt (n : Nat) : Nat := isqrtGo n (bitLen n / 2 + 1) 0

/-- A quotient or root truncated to an integer, with the lost part kept as a last sticky bit. -/
def sticky (q : Nat) (lost : Bool) : Nat := 2 * q + b2n lost

namespace FFmt

/-- A / B rounded once (R299 FDIV, FRCP). -/
def divOp (f : FFmt) (rm : RMode) (sat : Bool) (a b : Nat) : FRes :=
  let x := f.decode a; let y := f.decode b
  let r : FRes :=
    match x, y with
    | .nan, _ => ⟨f.canonNaN, false, false⟩
    | _, .nan => ⟨f.canonNaN, false, false⟩
    | .inf _, .inf _ => ⟨f.canonNaN, false, false⟩
    | .inf p, .fin q _ _ => ⟨f.infBits (p != q), false, false⟩
    | .fin p _ _, .inf q => ⟨f.zeroBits (p != q), false, false⟩
    | .fin p m1 e1, .fin q m2 e2 =>
      if m2 = 0 then
        if m1 = 0 then ⟨f.canonNaN, false, false⟩ else ⟨f.infBits (p != q), false, false⟩
      else
        let k := f.fb + 4 + bitLen m2
        let n := m1 <<< k
        f.round rm (p != q) (sticky (n / m2) (n % m2 != 0)) (e1 - e2 - k - 1)
  r.saturate f sat (x.isFin && y.isFin)

/-- The square root rounded once (R299 FSQRT). -/
def sqrtOp (f : FFmt) (rm : RMode) (sat : Bool) (a : Nat) : FRes :=
  let x := f.decode a
  let r : FRes :=
    match x with
    | .nan => ⟨f.canonNaN, false, false⟩
    | .inf n => if n then ⟨f.canonNaN, false, false⟩ else ⟨f.infBits false, false, false⟩
    | .fin n m e =>
      if m = 0 then ⟨f.zeroBits n, false, false⟩
      else if n then ⟨f.canonNaN, false, false⟩
      else
        let k := 2 * (f.fb + 4) + (if (e - 2 * (f.fb + 4 : Nat)) % 2 = 0 then 0 else 1)
        let w := m <<< k
        let s := isqrt w
        f.round rm false (sticky s (s * s != w)) ((e - k) / 2 - 1)
  r.saturate f sat x.isFin

/-- 1 / √A rounded once to nearest even (R299 FRSQ). -/
def rsqrtOp (f : FFmt) (sat : Bool) (a : Nat) : FRes :=
  let x := f.decode a
  let r : FRes :=
    match x with
    | .nan => ⟨f.canonNaN, false, false⟩
    | .inf n => if n then ⟨f.canonNaN, false, false⟩ else ⟨f.zeroBits false, false, false⟩
    | .fin n m e =>
      if m = 0 then ⟨f.infBits n, false, false⟩
      else if n then ⟨f.canonNaN, false, false⟩
      else
        -- 1/√(m·2^e) = √(2^(2k)/m') · 2^(−k − e'/2), with e' even
        let odd := if e % 2 = 0 then 0 else 1
        let m' := m <<< odd
        let k := f.fb + 4 + bitLen m'
        let w := 2 ^ (2 * k)
        let s := isqrt (w / m')
        f.round .rne false (sticky s (s * s * m' != w)) (-(k : Int) - (e - odd) / 2 - 1)
  r.saturate f sat x.isFin

/-- Conversion into `g` of a pattern of `f`, rounded once, with SAT of R238. -/
def convert (f g : FFmt) (rm : RMode) (sat : Bool) (a : Nat) : FRes :=
  let x := f.decode a
  (g.ofVal rm x).saturate g sat x.isFin

/-- A signed integer rounded once into the format. -/
def ofIntVal (f : FFmt) (rm : RMode) (sat : Bool) (z : Int) : FRes :=
  (f.round rm (decide (z < 0)) z.natAbs 0).saturate f sat true

end FFmt

/-- A finite value rounded to an integer in `rm` (R303). -/
def FVal.toIntRounded (rm : RMode) : FVal → Int
  | .fin n m e =>
    let (r, _) := roundAt rm n m e 0
    if n then -(r : Int) else (r : Int)
  | _ => 0

end Sys2Proof.Machine
end

