-- ==== Sys2Proof/Machine/Trans.lean ====
section
/-! DEFINITION. The transcendental functions of R299 and R300: each delivers the exact value of its function rounded once.
The exact value is approached in fixed point with many more bits than a rounding decision of FP32 needs (log 14). -/

namespace Sys2Proof.Machine

/-! Fixed point: an integer `x` at precision `p` stands for `x / 2^p`. -/

/-- Fixed-point product, rounded down. -/
def fxMul (p : Nat) (a b : Int) : Int := (a * b) >>> p

/-- Fixed-point quotient, rounded down; `b` is positive. -/
def fxDiv (p : Nat) (a b : Int) : Int := (a * 2 ^ p) / b

/-- The sum of `t/1 + t·x/k + t·x²/(k(k+1)) + …`, `n` terms. -/
def expSeries (p : Nat) (x : Int) : Nat → Nat → Int → Int
  | 0, _, _ => 0
  | n + 1, k, t => t + expSeries p x n (k + 1) (fxMul p t x / (k : Int))

/-- The sum of `t/k + t·y/(k+2) + t·y²/(k+4) + …`, `n` terms: atanh for `y = t²`, atan for `y = −t²`. -/
def oddSeries (p : Nat) (y : Int) : Nat → Nat → Int → Int
  | 0, _, _ => 0
  | n + 1, k, t => t / (k : Int) + oddSeries p y n (k + 2) (fxMul p t y)

/-- The sum of `t − t·y/(k(k+1)) + …`, `n` terms: sine from `k = 2`, cosine from `k = 1`. -/
def trigSeries (p : Nat) (y : Int) : Nat → Nat → Int → Int
  | 0, _, _ => 0
  | n + 1, k, t => t + trigSeries p y n (k + 2) (-(fxMul p t y / ((k * (k + 1) : Nat) : Int)))

/-- Series terms enough for precision `p`. -/
def termsFor (p : Nat) : Nat := p / 3 + 12

/-- 2·atanh(t) for |t| at most 1/3. -/
def fxAtanh2 (p : Nat) (t : Int) : Int := 2 * oddSeries p (fxMul p t t) (termsFor p) 1 t

/-- ln 2. -/
def fxLn2 (p : Nat) : Int := fxAtanh2 p (2 ^ p / 3)

/-- π / 2, from π/4 = 4·atan(1/5) − atan(1/239). -/
def fxHalfPi (p : Nat) : Int :=
  let q := p + 16
  let a (d : Int) : Int := oddSeries q (-(2 ^ q / (d * d))) (termsFor q) 1 (2 ^ q / d)
  (2 * (4 * a 5 - a 239)) >>> 16

/-- e^x as a mantissa in [1, 2) and a binary exponent. -/
def fxExpParts (p : Nat) (x : Int) : Int × Int :=
  let l := fxLn2 p
  let n := x / l
  (expSeries p (x - n * l) (termsFor p) 1 (2 ^ p), n)

/-- e^x. -/
def fxExp (p : Nat) (x : Int) : Int :=
  let (m, n) := fxExpParts p x
  if 0 ≤ n then m <<< n.toNat else if n < -(4 * p : Int) then 0 else m >>> (-n).toNat

/-- ln v for positive `v`. -/
def fxLn (p : Nat) (v : Int) : Int :=
  let k : Int := (bitLen v.toNat : Int) - 1 - p
  -- v = mant · 2^k with mant in [1, 2)
  let mant : Int := if 0 ≤ k then v >>> k.toNat else v <<< (-k).toNat
  fxAtanh2 p (fxDiv p (mant - 2 ^ p) (mant + 2 ^ p)) + k * fxLn2 p

/-- sin and cos of a reduced argument of magnitude at most π/4. -/
def fxSinCos (p : Nat) (x : Int) : Int × Int :=
  let y := fxMul p x x
  (trigSeries p y (termsFor p) 2 x, trigSeries p y (termsFor p) 1 (2 ^ p))

/-- Working precision of the FP32 functions. -/
def transP : Nat := 320

/-- An irrational fixed-point value rounded once to FP32 in RNE. -/
def roundFx (p : Nat) (v : Int) : FRes := fp32.round .rne (decide (v < 0)) (sticky v.natAbs true) (-(p : Int) - 1)

/-- A value just below `m · 2^e` in magnitude, rounded in RNE. -/
def roundBelow (neg : Bool) (m : Nat) (e : Int) : FRes := fp32.round .rne neg ((m <<< 64) - 1) (e - 64)

def fpNaN : FRes := ⟨fp32.canonNaN, false, false⟩
def fpOne (neg : Bool) : FRes := fp32.round .rne neg 1 0

/-- FEXP2: 2^A (R299). -/
def exp2Op (sat : Bool) (a : Nat) : FRes :=
  match fp32.decode a with
  | .nan => fpNaN
  | .inf n => if n then ⟨0, false, false⟩ else ⟨fp32.infBits false, false, false⟩
  | .fin neg m e =>
    if m = 0 then fpOne false
    else
      let r :=
        if 9 ≤ bitLen m + e then (if neg then fp32.round .rne false 3 (-1000) else fp32.round .rne false 3 1000)
        else
          let x := alignInt neg m e (-160)         -- A · 2^160, exact
          let n := x / 2 ^ 160
          let f := x - n * 2 ^ 160
          if f = 0 then fp32.round .rne false 1 n
          else
            let v := expSeries transP (fxMul transP (f * 2 ^ (transP - 160)) (fxLn2 transP)) (termsFor transP) 1 (2 ^ transP)
            fp32.round .rne false (sticky v.toNat true) (n - transP - 1)
      r.saturate fp32 sat true

/-- FLOG2: log2 A (R299). -/
def log2Op (sat : Bool) (a : Nat) : FRes :=
  match fp32.decode a with
  | .nan => fpNaN
  | .inf n => if n then fpNaN else ⟨fp32.infBits false, false, false⟩
  | .fin neg m e =>
    if m = 0 then (⟨fp32.infBits true, false, false⟩ : FRes).saturate fp32 sat true
    else if neg then fpNaN
    else
      let k : Nat := bitLen m - 1
      if m = 2 ^ k then fp32.ofIntVal .rne sat (e + k)
      else
        let t := fxDiv transP ((m : Int) - 2 ^ k) ((m : Int) + 2 ^ k)
        let v := fxDiv transP (fxAtanh2 transP t) (fxLn2 transP) + (e + k) * 2 ^ transP
        roundFx transP v

/-- The quadrant and the reduced argument of `m · 2^e` modulo π/2; the reduction is exact to far below the last place. -/
def trigReduce (m : Nat) (e : Int) : Int × Int :=
  let q := transP + 160
  let x := alignInt false m e (-(q : Int))
  let h := fxHalfPi q
  let k := (2 * x + h) / (2 * h)
  (k, (x - k * h) >>> 160)

/-- FSIN (`cos = false`) and FCOS: A in radians (R299). -/
def trigOp (cos : Bool) (a : Nat) : FRes :=
  match fp32.decode a with
  | .nan => fpNaN
  | .inf _ => fpNaN
  | .fin neg m e =>
    if m = 0 then (if cos then fpOne false else ⟨fp32.zeroBits neg, false, false⟩)
    else if bitLen m + e < -40 then (if cos then fpOne false else roundBelow neg m e)
    else
      let (k, r) := trigReduce m e
      let (s, c) := fxSinCos transP r
      let j := (k + (if cos then 1 else 0)) % 4
      let v := if j = 0 then s else if j = 1 then c else if j = 2 then -s else -c
      roundFx transP (if neg && !cos then -v else v)

/-- FTANH (R299). -/
def tanhOp (a : Nat) : FRes :=
  match fp32.decode a with
  | .nan => fpNaN
  | .inf n => fpOne n
  | .fin neg m e =>
    if m = 0 then ⟨fp32.zeroBits neg, false, false⟩
    else if bitLen m + e < -40 then roundBelow neg m e
    else if 10 * 2 ^ 160 ≤ alignInt false m e (-160) then fpOne neg
    else
      let x := alignInt false m e (-(transP : Int))
      let t := fxExp transP (-2 * x)
      let v := fxDiv transP (2 ^ transP - t) (2 ^ transP + t)
      roundFx transP (if neg then -v else v)

end Sys2Proof.Machine
end

