-- ==== Sys2Proof/Machine/LevelIndex.lean ====
section
/-! DEFINITION. The symmetric level-index formats LI32 and LI16 (R231 to R233): arithmetic, order and conversion.

A real value is worked on through its natural logarithm: a pattern with X = level + fraction stands for e^(±φ(X − 1)),
plus for R = 1 and minus for R = 0. From X = 5.5 upwards φ(X − 1) exceeds e^181, so in a sum of two different magnitudes
the larger one is the nearest pattern; below that everything is fixed-point arithmetic (log 14). -/

namespace Sys2Proof.Machine

/-- Working precision of the level-index unit. -/
def liP : Nat := 640

/-- A decoded level-index pattern: zero, NaR, or a real value with its sign, R and X · 2^27. -/
inductive LVal
  | zero
  | nar
  | real (neg : Bool) (r : Bool) (x : Nat)
  deriving DecidableEq, Repr

/-- One in X units. -/
def liOne : Nat := 2 ^ 27

/-- The largest X of LI32 and, times 2^16, of LI16. -/
def liMaxX : Nat := 8 * liOne - 1

/-- The value of an LI32 pattern (R232). -/
def liDecode (v : Nat) : LVal :=
  let neg := (v >>> 31) % 2 == 1
  let r := (v >>> 30) % 2 == 1
  let x := v % 2 ^ 30
  if x < liOne then (if v = 0 then .zero else .nar)
  else .real neg (r || x == liOne) x

/-- The pattern of a value; ±1.0 is written with R = 1 (R232). -/
def liEncode : LVal → Nat
  | .zero => 0
  | .nar => 2 ^ 31
  | .real neg r x => (b2n neg <<< 31) + (b2n (r || x == liOne) <<< 30) + x

/-- The LI32 pattern of an LI16 pattern (exact) and back, the latter for values already rounded to 11 fraction bits. -/
def li16To32 (v : Nat) : Nat := (v % 2 ^ 16) <<< 16
def li32To16 (v : Nat) : Nat := v >>> 16

/-- The level field of a pattern, zero and NaR counting as level 0 (R233). -/
def liLevel (v : Nat) : Nat := (v >>> 27) % 8

/-- φ of X for X · 2^27 below 5.5, in fixed point. -/
def phiFx : Nat → Nat → Int
  | 0, x => (x : Int) * 2 ^ (liP - 27)
  | n + 1, x => if x < liOne then (x : Int) * 2 ^ (liP - 27) else fxExp liP (phiFx n (x - liOne))

def phi (x : Nat) : Int := phiFx 8 x

/-- The inverse of φ in fixed point, for a non-negative value: level counted up by `n`. -/
def psiFx : Nat → Int → Int
  | 0, v => v
  | n + 1, v => if v < 2 ^ liP then v else 2 ^ liP + psiFx n (fxLn liP v)

/-- An X in fixed point rounded to the nearest multiple of 2^−fb, ties to even, in units of 2^−27. -/
def roundX (fb : Nat) (v : Int) : Nat :=
  ((roundShift .rne false v.toNat (liP - fb)).1) <<< (27 - fb)

/-- The largest X with `fb` fraction bits. -/
def maxX (fb : Nat) : Nat := 8 * liOne - 2 ^ (27 - fb)

/-- The pattern nearest to e^L with sign `neg`, L in fixed point, saturating (R233). -/
def liOfLog (fb : Nat) (neg : Bool) (l : Int) : LVal :=
  let x := roundX fb (2 ^ liP + psiFx 8 l.natAbs)
  .real neg (decide (0 ≤ l) || x == liOne) (min x (maxX fb))

/-- From this X on, a sum of two different magnitudes is the larger one. -/
def liBig : Nat := 5 * liOne + 2 ^ 26

/-- The logarithm of a magnitude below the big range. -/
def liLog (r : Bool) (x : Nat) : Int := if r then phi (x - liOne) else -(phi (x - liOne))

/-- Order key of a magnitude: rises with the magnitude. -/
def liMagKey (r : Bool) (x : Nat) : Int := if r then (x : Int) - liOne else (liOne : Int) - x

/-- ln(1 + e^−d) or ln(1 − e^−d) for d > 0. -/
def logOnePlus (minus : Bool) (d : Int) : Int :=
  let t := fxExp liP (-d)
  fxLn liP (if minus then 2 ^ liP - t else 2 ^ liP + t)

/-- The exact sum of two real magnitudes with signs, rounded (R233): (r1, x1) is the larger magnitude. -/
def liAddMag (n1 r1 : Bool) (x1 : Nat) (n2 r2 : Bool) (x2 : Nat) : LVal :=
  if (r1, x1) = (r2, x2) then
    if n1 != n2 then .zero
    else if liBig ≤ x1 then .real n1 r1 x1
    else liOfLog 27 n1 (liLog r1 x1 + fxLn2 liP)
  else if liBig ≤ x1 || liBig ≤ x2 then .real n1 r1 x1
  else
    let d := liLog r1 x1 - liLog r2 x2
    liOfLog 27 n1 (liLog r1 x1 + logOnePlus (n1 != n2) d)

/-- The sum of two values (R306). -/
def LVal.add : LVal → LVal → LVal
  | .nar, _ => .nar
  | _, .nar => .nar
  | .zero, b => b
  | a, .zero => a
  | .real n1 r1 x1, .real n2 r2 x2 =>
    if liMagKey r2 x2 ≤ liMagKey r1 x1 then liAddMag n1 r1 x1 n2 r2 x2 else liAddMag n2 r2 x2 n1 r1 x1

def LVal.neg : LVal → LVal
  | .real n r x => .real (!n) r x
  | v => v

/-- The reciprocal flips R (R232). -/
def LVal.recip : LVal → LVal
  | .real n r x => .real n (!r || x == liOne) x
  | _ => .nar

/-- The magnitude e^(±φ(y1) ± φ(y2)) for y1 ≥ y2, y = X − 1, rounded to a pattern. -/
def liMulMag (neg : Bool) (r1 : Bool) (y1 : Nat) (r2 : Bool) (y2 : Nat) : LVal :=
  if r1 != r2 && y1 == y2 then .real neg true liOne
  else if y1 < liBig - liOne then
    let l := (if r1 then phi y1 else -(phi y1)) + (if r2 then phi y2 else -(phi y2))
    liOfLog 27 neg l
  else if liBig ≤ y1 then .real neg r1 (y1 + liOne)
  else
    -- ln|L| = φ(y1 − 1) + ln(1 ± e^(φ(y2 − 1) − φ(y1 − 1)))
    let a := phi (y1 - liOne)
    let k := if y2 < liOne then a else a + logOnePlus (r1 != r2) (a - phi (y2 - liOne))
    let k := if r1 == r2 && y1 == y2 then a + fxLn2 liP else k
    .real neg r1 (min (roundX 27 (2 * 2 ^ liP + psiFx 8 k)) liMaxX)

/-- The product of two values (R306, R389). -/
def LVal.mul : LVal → LVal → LVal
  | .nar, _ => .nar
  | _, .nar => .nar
  | .zero, _ => .zero
  | _, .zero => .zero
  | .real n1 r1 x1, .real n2 r2 x2 =>
    if x1 = liOne then .real (n1 != n2) r2 x2
    else if x2 = liOne then .real (n1 != n2) r1 x1
    else if x2 ≤ x1 then liMulMag (n1 != n2) r1 (x1 - liOne) r2 (x2 - liOne)
    else liMulMag (n1 != n2) r2 (x2 - liOne) r1 (x1 - liOne)

/-- The quotient of two values; division by zero is NaR (R306). -/
def LVal.div (a b : LVal) : LVal :=
  match b with
  | .zero => .nar
  | .nar => .nar
  | .real .. => a.mul b.recip

/-- A delivered level-index pattern and the LX condition of R233. -/
structure LRes where
  val : Nat
  lx  : Bool
  deriving DecidableEq, Repr

inductive LOp
  | add | sub | mul | div
  deriving DecidableEq, Repr

/-- LIADD, LISUB, LIMUL, LIDIV on LI32 patterns (R306). LX is set when the result's level field differs from the larger
level field of the operands, except for zero, NaR and saturated results; a result equal to the largest or smallest
magnitude always has level 7, as its larger operand has, unless it is an operand's exact image. -/
def liArith (op : LOp) (a b : Nat) : LRes :=
  let x := liDecode a; let y := liDecode b
  let r :=
    match op with
    | .add => x.add y
    | .sub => x.add y.neg
    | .mul => x.mul y
    | .div => x.div y
  let v := liEncode r
  match r with
  | .real .. => ⟨v, liLevel v != max (liLevel a) (liLevel b)⟩
  | _ => ⟨v, false⟩

/-- Source modifiers act on the sign bit only, and leave zero and NaR unchanged (R306). -/
def liModify (abs neg : Bool) (v : Nat) : Nat :=
  match liDecode v with
  | .real n r x => liEncode (.real ((n && !abs) != neg) r x)
  | _ => v

/-- Order key of R233: NaR below every real value, real values by value. -/
def liKey : LVal → Int
  | .nar => -(2 ^ 60)
  | .zero => 0
  | .real n r x => let k := liMagKey r x + 2 ^ 40; if n then -k else k

def liCmp (a b : Nat) : Ordering := compare (liKey (liDecode a)) (liKey (liDecode b))

/-- LICVT from an IEEE value to a level-index pattern with `fb` fraction bits, as an LI32 pattern (R233, R308). -/
def liOfFloat (fb : Nat) : FVal → Nat
  | .nan => liEncode .nar
  | .inf _ => liEncode .nar
  | .fin n m e =>
    if m = 0 then 0
    else
      let k := bitLen m - 1
      -- ln m + e·ln 2, with m scaled into [1, 2)
      let mant : Int := ((m <<< (liP - k) : Nat) : Int)
      let l := fxAtanh2 liP (fxDiv liP (mant - 2 ^ liP) (mant + 2 ^ liP)) + (e + k) * fxLn2 liP
      liEncode (liOfLog fb n l)

/-- LICVT between LI32 and LI16: the nearest X with 11 fraction bits, saturating (R308). -/
def liTo16 (v : Nat) : Nat :=
  match liDecode v with
  | .real n r x =>
    let x' := min (((roundShift .rne false x 16).1) <<< 16) (maxX 11)
    li32To16 (liEncode (.real n r x'))
  | w => li32To16 (liEncode w)

/-- LICVT from LI32 to an IEEE format, rounded once in `rm`; beyond the range ±∞ with OF (R233, R308). -/
def liToFloat (f : FFmt) (rm : RMode) (v : Nat) : FRes :=
  match liDecode v with
  | .zero => ⟨0, false, false⟩
  | .nar => ⟨f.canonNaN, false, false⟩
  | .real n r x =>
    if x = liOne then f.round rm n 1 0
    else
      let res :=
        if 5 * liOne ≤ x then f.round rm n 3 (if r then 100000 else -100000)
        else
          let (m, e) := fxExpParts liP (liLog r x)
          f.round rm n (sticky m.toNat true) (e - liP - 1)
      if res.of then ⟨f.infBits n, true, false⟩ else res

end Sys2Proof.Machine
end

