-- ==== Sys2Proof/Syntax.lean ====
section
/-! DEFINITION. The syntax of everything one step of the part can be: the 174 instruction words (13_isa_encoding.md, R243 to
R257), the 13 engine commands (18_isa_engines_system.md, R361 to R375) and the operations and events of the other agents,
one constructor for each row of the opcode table. -/

namespace Sys2Proof

/-! ### Operand fields and formats -/

/-- The value of an 8-bit operand field (R246). -/
inductive Opd
  /-- Register n of the field's file, 0x00..0x3F. -/
  | reg (n : BitVec 6)
  /-- Latch l(k+1), 0x40..0x47. -/
  | latch (k : BitVec 3)
  /-- The lane's index, 0x48. -/
  | laneIdx
  /-- Inline integer 0..63, 0x80..0xBF. -/
  | pos (n : BitVec 6)
  /-- Inline integer n − 16, 0xC0..0xCF. -/
  | neg (n : BitVec 4)
  /-- FP constant k of R249, 0xD0..0xDF. -/
  | fpc (k : BitVec 4)
  /-- 0xFF. -/
  | absent
  /-- A reserved value, 0x49..0x7F and 0xE0..0xFE: illegal operand. -/
  | rsvd (v : BitVec 8)
  deriving DecidableEq, Repr

/-- The fields an instruction word has whatever its format (R243), but the opcode. -/
structure Ctl where
  /-- Cache hint. -/
  ch : BitVec 2
  /-- Write suppress. -/
  ws : Bool
  /-- Stall count. -/
  st : BitVec 3
  /-- Guard A: bit 3 negates, bits 2..0 select the predicate. -/
  ga : BitVec 4
  /-- Guard B. -/
  gb : BitVec 4
  deriving DecidableEq, Repr

/-- Format RR (R244). E is kept as bits, since most instructions use it as a modifier (R253). -/
structure RR where
  ctl : Ctl
  d : Opd
  a : Opd
  b : Opd
  c : Opd
  e : BitVec 8
  deriving DecidableEq, Repr

/-- Format I16. -/
structure I16 where
  ctl : Ctl
  d : Opd
  a : Opd
  b : Opd
  imm : BitVec 16
  deriving DecidableEq, Repr

/-- Format I24. -/
structure I24 where
  ctl : Ctl
  d : Opd
  a : Opd
  imm : BitVec 24
  deriving DecidableEq, Repr

/-- Format I32. -/
structure I32 where
  ctl : Ctl
  d : Opd
  imm : BitVec 32
  deriving DecidableEq, Repr

/-- The size codes of group 0x7 (R257, R317). -/
inductive Size
  | u8 | s8 | u16 | s16 | b32 | b64 | b128
  deriving DecidableEq, Repr

/-! ### Engine commands (18_isa_engines_system.md) -/

/-- Bits that word 0 of every matrix and copy command carries: the engine context and STAT (R361). -/
structure CmdCtl where
  ectx : Bool
  stat : Bool
  deriving DecidableEq, Repr

/-- MXACC (R366). -/
structure Mxacc where
  ctl : CmdCtl
  tile : BitVec 3
  sla : BitVec 3
  slb : BitVec 3
  ra : BitVec 2
  rb : BitVec 2
  mm1 : BitVec 6
  nm1 : BitVec 6
  km1 : BitVec 4
  sbi : BitVec 32
  deriving DecidableEq, Repr

/-- MXZERO (R365). -/
structure Mxzero where
  ctl : CmdCtl
  tile : BitVec 3
  ity : Bool
  deriving DecidableEq, Repr

/-- MXDRAIN (R367). -/
structure Mxdrain where
  ctl : CmdCtl
  tile : BitVec 3
  slo : BitVec 3
  dst : BitVec 2
  ro : BitVec 2
  mm1 : BitVec 6
  nm1 : BitVec 6
  rstr : BitVec 18
  clr : Bool
  addr : BitVec 64
  deriving DecidableEq, Repr

/-- MXDADD (R368). -/
structure Mxdadd where
  ctl : CmdCtl
  tile : BitVec 3
  tt : BitVec 3
  tcx : Bool
  tcore : BitVec 10
  mm1 : BitVec 6
  nm1 : BitVec 6
  deriving DecidableEq, Repr

/-- MXRING (R362). -/
structure Mxring where
  ctl : CmdCtl
  ring : BitVec 2
  nsm1 : BitVec 6
  szm1 : BitVec 10
  base : BitVec 64
  deriving DecidableEq, Repr

/-- MXARM (R369). -/
structure Mxarm where
  ctl : CmdCtl
  tile : BitVec 3
  ordr : Bool
  ncm1 : BitVec 6
  deriving DecidableEq, Repr

/-- CPY (R371): address fields hold bits [50:2]. -/
structure Cpy where
  ctl : CmdCtl
  ssp : BitVec 2
  src : BitVec 49
  dsp : BitVec 2
  dsta : BitVec 49
  len : BitVec 16
  deriving DecidableEq, Repr

/-- CPYG (R371). -/
structure Cpyg where
  ctl : CmdCtl
  esz : BitVec 4
  nim1 : BitVec 12
  idx : BitVec 16
  dstw : BitVec 16
  base : BitVec 49
  deriving DecidableEq, Repr

/-- CPYS (R371): VA[50:6] of the two stencil records. -/
structure Cpys where
  ctl : CmdCtl
  sstn : BitVec 45
  dstn : BitVec 45
  deriving DecidableEq, Repr

/-- CPFILL (R371). -/
structure Cpfill where
  ctl : CmdCtl
  dsp : BitVec 2
  dsta : BitVec 49
  len : BitVec 16
  pat : BitVec 32
  deriving DecidableEq, Repr

/-- NSEND and NPOST (R374). -/
structure NetCmd where
  conn : BitVec 12
  len : BitVec 22
  va : BitVec 64
  deriving DecidableEq, Repr

/-- XTASK (R375). -/
structure Xtask where
  conn : BitVec 12
  path : Bool
  dec : BitVec 3
  va : BitVec 64
  deriving DecidableEq, Repr

/-! ### What events bring from outside the part -/

/-- What the sensors of one island show at a telemetry refresh (R12): millivolts, units of 10 mA, units of 0.125 °C. -/
structure IslandSample where
  curr : BitVec 16
  temp : BitVec 12
  deriving DecidableEq, Repr

/-- What one health object measured in a 1 ms window (R21). -/
structure HealthSample where
  eyeh : BitVec 16
  eyev : BitVec 16
  fecc : BitVec 32
  retry : BitVec 32
  deriving DecidableEq, Repr

/-- A Kalren frame (R26): addresses, tag priority, EtherType, the 128-bit header, and for transport frames IV, sealed
payload and GCM tag. The FCS is not held: whether it was good comes with the receiving event. -/
structure Frame where
  dst : BitVec 48
  src : BitVec 48
  pcp : BitVec 3
  etype : BitVec 16
  hdr : BitVec 128
  iv : BitVec 64
  payload : List Byte
  tag : BitVec 128
  deriving DecidableEq, Repr

/-- A kernel image as the mailbox receives it (R62). -/
structure Image where
  header : List Word
  launch : List Word
  code : List Word
  ed25519 : List Byte
  mldsa : List Byte
  deriving DecidableEq, Repr

/-- What an event acts on and what it brings: the numbers its row names (a port, an island, a connection, a core and slot, a
context, a message), a word written to a register, and the data that comes from outside the part. -/
structure Ev where
  a : Nat
  b : Nat
  c : Nat
  w : Word
  flag : Bool
  frame : Frame
  bytes : List Byte
  words : List Word
  image : Image
  islands : List IslandSample
  health : List HealthSample
  deriving DecidableEq, Repr

/-- An event that brings nothing. -/
def Ev.none : Ev :=
  ⟨0, 0, 0, 0, false, ⟨0, 0, 0, 0, 0, 0, [], 0⟩, [], [], ⟨[], [], [], [], []⟩, [], []⟩

/-! ### One step -/

/-- Everything one step can be: one constructor for each row of the opcode table. Instruction words and engine commands carry
their fields; an operation or event of another agent acts on what the agenda gave it (State.ev). -/
inductive Instr
  /-- ADD (R262). -/
  | add (w : RR)
  /-- SUB (R262). -/
  | sub (w : RR)
  /-- MUL (R262). -/
  | mul (w : RR)
  /-- MULH (R262). -/
  | mulh (w : RR)
  /-- MULHU (R262). -/
  | mulhu (w : RR)
  /-- DIV (R263). -/
  | div (w : RR)
  /-- DIVU (R263). -/
  | divu (w : RR)
  /-- REM (R263). -/
  | rem (w : RR)
  /-- REMU (R263). -/
  | remu (w : RR)
  /-- AND (R262). -/
  | and (w : RR)
  /-- OR (R262). -/
  | or (w : RR)
  /-- XOR (R262). -/
  | xor (w : RR)
  /-- ANDN (R262). -/
  | andn (w : RR)
  /-- ORN (R262). -/
  | orn (w : RR)
  /-- SHL (R262). -/
  | shl (w : RR)
  /-- SHR (R262). -/
  | shr (w : RR)
  /-- SRA (R262). -/
  | sra (w : RR)
  /-- ROR (R262). -/
  | ror (w : RR)
  /-- MIN (R262). -/
  | min (w : RR)
  /-- MAX (R262). -/
  | max (w : RR)
  /-- MINU (R262). -/
  | minu (w : RR)
  /-- MAXU (R262). -/
  | maxu (w : RR)
  /-- CLZ (R264). -/
  | clz (w : RR)
  /-- CTZ (R264). -/
  | ctz (w : RR)
  /-- POPC (R264). -/
  | popc (w : RR)
  /-- BFX (R264). -/
  | bfx (w : RR)
  /-- BFXU (R264). -/
  | bfxu (w : RR)
  /-- BFI (R264). -/
  | bfi (w : RR)
  /-- SEL (R265). -/
  | sel (w : RR)
  /-- CMP (R265). -/
  | cmp (w : RR)
  /-- MOV (R266). -/
  | mov (w : RR)
  /-- LDK (R266). -/
  | ldk (w : I32)
  /-- LDKH (R266). -/
  | ldkh (w : I32)
  /-- MOVSR (R267). -/
  | movsr (w : I16)
  /-- MOVSW (R267). -/
  | movsw (w : I16)
  /-- PLOG (R268). -/
  | plog (w : RR)
  /-- KMOV (R269). -/
  | kmov (w : RR)
  /-- KSET (R270). -/
  | kset (w : RR)
  /-- BR (R272). -/
  | br (w : I24)
  /-- BRC (R272). -/
  | brc (w : I24)
  /-- CALL (R272). -/
  | call (w : I24)
  /-- RET (R274). -/
  | ret (w : RR)
  /-- JTAB (R273). -/
  | jtab (w : RR)
  /-- JTABV (R274). -/
  | jtabv (w : RR)
  /-- SPLIT (R275). -/
  | split (w : I24)
  /-- ELSE (R276). -/
  | elseM (w : I24)
  /-- JOIN (R277). -/
  | join (w : RR)
  /-- LOOPM (R278). -/
  | loopm (w : I24)
  /-- BANY (R279). -/
  | bany (w : I24)
  /-- BALL (R279). -/
  | ball (w : I24)
  /-- BNONE (R279). -/
  | bnone (w : I24)
  /-- MSTR (R281). -/
  | mstr (w : RR)
  /-- MSTW (R281). -/
  | mstw (w : RR)
  /-- EXIT (R282). -/
  | exit (w : RR)
  /-- EXITL (R283). -/
  | exitl (w : RR)
  /-- VADD (R287). -/
  | vadd (w : RR)
  /-- VSUB (R287). -/
  | vsub (w : RR)
  /-- VMUL (R287). -/
  | vmul (w : RR)
  /-- VMULH (R287). -/
  | vmulh (w : RR)
  /-- VMAD (R287). -/
  | vmad (w : RR)
  /-- VAND (R287). -/
  | vand (w : RR)
  /-- VOR (R287). -/
  | vor (w : RR)
  /-- VXOR (R287). -/
  | vxor (w : RR)
  /-- VANDN (R287). -/
  | vandn (w : RR)
  /-- VSHL (R287). -/
  | vshl (w : RR)
  /-- VSHR (R287). -/
  | vshr (w : RR)
  /-- VSRA (R287). -/
  | vsra (w : RR)
  /-- VMIN (R287). -/
  | vmin (w : RR)
  /-- VMAX (R287). -/
  | vmax (w : RR)
  /-- VMINU (R287). -/
  | vminu (w : RR)
  /-- VMAXU (R287). -/
  | vmaxu (w : RR)
  /-- VABS (R287). -/
  | vabs (w : RR)
  /-- VCLZ (R287). -/
  | vclz (w : RR)
  /-- VPOPC (R287). -/
  | vpopc (w : RR)
  /-- VBFX (R288). -/
  | vbfx (w : RR)
  /-- VBFI (R288). -/
  | vbfi (w : RR)
  /-- VSEL (R289). -/
  | vsel (w : RR)
  /-- VCMP (R290). -/
  | vcmp (w : RR)
  /-- VMOV (R289). -/
  | vmov (w : RR)
  /-- VMOVS (R291). -/
  | vmovs (w : RR)
  /-- VADDP (R292). -/
  | vaddp (w : RR)
  /-- FADD (R293). -/
  | fadd (w : RR)
  /-- FSUB (R293). -/
  | fsub (w : RR)
  /-- FMUL (R293). -/
  | fmul (w : RR)
  /-- FFMA (R293). -/
  | ffma (w : RR)
  /-- FMIN (R294). -/
  | fmin (w : RR)
  /-- FMAX (R294). -/
  | fmax (w : RR)
  /-- FCMP (R295). -/
  | fcmp (w : RR)
  /-- FCLASS (R296). -/
  | fclass (w : RR)
  /-- HADD2 (R297). -/
  | hadd2 (w : RR)
  /-- HMUL2 (R297). -/
  | hmul2 (w : RR)
  /-- HFMA2 (R297). -/
  | hfma2 (w : RR)
  /-- DADD (R298). -/
  | dadd (w : RR)
  /-- DMUL (R298). -/
  | dmul (w : RR)
  /-- DFMA (R298). -/
  | dfma (w : RR)
  /-- FRCP (R299). -/
  | frcp (w : RR)
  /-- FRSQ (R299). -/
  | frsq (w : RR)
  /-- FSQRT (R299). -/
  | fsqrt (w : RR)
  /-- FDIV (R299). -/
  | fdiv (w : RR)
  /-- FEXP2 (R299). -/
  | fexp2 (w : RR)
  /-- FLOG2 (R299). -/
  | flog2 (w : RR)
  /-- FSIN (R299). -/
  | fsin (w : RR)
  /-- FCOS (R299). -/
  | fcos (w : RR)
  /-- FTANH (R299). -/
  | ftanh (w : RR)
  /-- CVT (R302). -/
  | cvt (w : RR)
  /-- CVTI (R303). -/
  | cvti (w : RR)
  /-- QDEC (R304). -/
  | qdec (w : RR)
  /-- QENC (R305). -/
  | qenc (w : RR)
  /-- LIADD (R306). -/
  | liadd (w : RR)
  /-- LISUB (R306). -/
  | lisub (w : RR)
  /-- LIMUL (R306). -/
  | limul (w : RR)
  /-- LIDIV (R306). -/
  | lidiv (w : RR)
  /-- LICMP (R307). -/
  | licmp (w : RR)
  /-- LICVT (R308). -/
  | licvt (w : RR)
  /-- VPERM (R310). -/
  | vperm (w : RR)
  /-- VBCAST (R310). -/
  | vbcast (w : RR)
  /-- VSHFL (R311). -/
  | vshfl (w : RR)
  /-- VREDS (R312). -/
  | vreds (w : RR)
  /-- VSCAN (R313). -/
  | vscan (w : RR)
  /-- VBALLOT (R314). -/
  | vballot (w : RR)
  /-- SLD (R321). -/
  | sld (z : Size) (w : I16)
  /-- SST (R321). -/
  | sst (z : Size) (w : I16)
  /-- VLD (R321). -/
  | vld (z : Size) (w : I16)
  /-- VST (R321). -/
  | vst (z : Size) (w : I16)
  /-- VLDB (R321). -/
  | vldb (z : Size) (w : I16)
  /-- VSTB (R321). -/
  | vstb (z : Size) (w : I16)
  /-- VPF (R322). -/
  | vpf (w : I16)
  /-- PLD (R324). -/
  | pld (w : I16)
  /-- PST (R324). -/
  | pst (w : I16)
  /-- PLDF (R324). -/
  | pldf (w : I16)
  /-- PLDE (R324). -/
  | plde (w : I16)
  /-- PSTE (R324). -/
  | pste (w : I16)
  /-- PSTF (R324). -/
  | pstf (w : I16)
  /-- PFE (R324). -/
  | pfe (w : I16)
  /-- PTAG (R324). -/
  | ptag (w : I16)
  /-- LSL (R326). -/
  | lsl (w : I16)
  /-- LSS (R326). -/
  | lss (w : I16)
  /-- CLD (R324). -/
  | cld (w : I16)
  /-- CST (R324). -/
  | cst (w : I16)
  /-- CLDE (R324). -/
  | clde (w : I16)
  /-- CSTE (R324). -/
  | cste (w : I16)
  /-- XLD (R324). -/
  | xld (w : I16)
  /-- XST (R324). -/
  | xst (w : I16)
  /-- VATOM (R328). -/
  | vatom (w : RR)
  /-- VCAS (R328). -/
  | vcas (w : RR)
  /-- VRED (R328). -/
  | vred (w : RR)
  /-- SATOM (R329). -/
  | satom (w : RR)
  /-- SCAS (R329). -/
  | scas (w : RR)
  /-- SYNA (R332). -/
  | syna (w : RR)
  /-- SYNW (R333). -/
  | synw (w : RR)
  /-- FENCE (R334). -/
  | fence (w : RR)
  /-- RWB (R336). -/
  | rwb (w : RR)
  /-- RINV (R336). -/
  | rinv (w : RR)
  /-- RWBI (R336). -/
  | rwbi (w : RR)
  /-- LOCK (R337). -/
  | lock (w : RR)
  /-- UNLOCK (R337). -/
  | unlock (w : RR)
  /-- TLWAIT (R338). -/
  | tlwait (w : RR)
  /-- WAITC (R339). -/
  | waitc (w : RR)
  /-- AREG (R341). -/
  | areg (w : RR)
  /-- ACMT (R350). -/
  | acmt (w : RR)
  /-- AABT (R354). -/
  | aabt (w : RR)
  /-- QPUT (R357). -/
  | qput (w : RR)
  /-- QGET (R360). -/
  | qget (w : RR)
  /-- QTRY (R360). -/
  | qtry (w : RR)
  /-- SWEEP (R378). -/
  | sweep (w : RR)
  /-- ENQT (R149). -/
  | enqt (w : RR)
  /-- YIELD (R139). -/
  | yield (w : I16)
  /-- PHASE (R132). -/
  | phase (w : I24)
  /-- SPAWN (R383). -/
  | spawn (w : I24)
  /-- TRAP (R384). -/
  | trap (w : I16)
  /-- RESUME (R113). -/
  | resume (w : RR)
  /-- NOP (R385). -/
  | nop (w : RR)
  /-- SYSR (R386). -/
  | sysr (w : I16)
  /-- SYSW (R386). -/
  | sysw (w : I16)
  /-- MXACC (R366). -/
  | mxacc (c : Mxacc)
  /-- MXZERO (R365). -/
  | mxzero (c : Mxzero)
  /-- MXDRAIN (R367). -/
  | mxdrain (c : Mxdrain)
  /-- MXDADD (R368). -/
  | mxdadd (c : Mxdadd)
  /-- MXRING (R362). -/
  | mxring (c : Mxring)
  /-- MXARM (R369). -/
  | mxarm (c : Mxarm)
  /-- CPY (R372). -/
  | cpy (c : Cpy)
  /-- CPYG (R372). -/
  | cpyg (c : Cpyg)
  /-- CPYS (R372). -/
  | cpys (c : Cpys)
  /-- CPFILL (R372). -/
  | cpfill (c : Cpfill)
  /-- NSEND (R374). -/
  | nsend (c : NetCmd)
  /-- NPOST (R374). -/
  | npost (c : NetCmd)
  /-- XTASK (R375). -/
  | xtask (c : Xtask)
  /-- ENTRY_OUT_OF_RANGE (R8). -/
  | entryOutOfRange
  /-- ENTRY_BACK_IN_RANGE (R8). -/
  | entryBackInRange
  /-- EXCURSION_TIMEOUT (R8). -/
  | excursionTimeout
  /-- ENTRY_STABLE_TIMEOUT (R8). -/
  | entryStableTimeout
  /-- COLD_START (R9). -/
  | coldStart
  /-- TELEMETRY_REFRESH (R12). -/
  | telemetryRefresh
  /-- PYRANO_STEP_DOWN (R18). -/
  | pyranoStepDown
  /-- CLOCK_WINDOW (R16). -/
  | clockWindow
  /-- REGULATOR_FAULT (R12). -/
  | regulatorFault
  /-- ISLAND_RELEASE (R16). -/
  | islandRelease
  /-- HEALTH_WINDOW (R22). -/
  | healthWindow
  /-- LANE_DOWN (R23). -/
  | laneDown
  /-- LANE_RETRAIN (R23). -/
  | laneRetrain
  /-- FRAME_RECEIVE (R28). -/
  | frameReceive
  /-- CREDIT_ACK_FRAME (R27). -/
  | creditAckFrame
  /-- RETRY_REQUEST (R28). -/
  | retryRequest
  /-- LACK_TIMER (R27). -/
  | lackTimer
  /-- DATA_PACKET_RECEIVE (R41). -/
  | dataPacketReceive
  /-- DATAF_PACKET_RECEIVE (R41). -/
  | datafPacketReceive
  /-- ACK_RECEIVE (R37). -/
  | ackReceive
  /-- NAK_RECEIVE (R40). -/
  | nakReceive
  /-- NOBUF_RECEIVE (R37). -/
  | nobufReceive
  /-- RTO_EXPIRY (R37). -/
  | rtoExpiry
  /-- NOBUF_BACKOFF_EXPIRY (R37). -/
  | nobufBackoffExpiry
  /-- MESSAGE_ABANDON (R42). -/
  | messageAbandon
  /-- KEY_WRITE (R31). -/
  | keyWrite
  /-- CONN_ENABLE (R31). -/
  | connEnable
  /-- CONN_DISABLE (R31). -/
  | connDisable
  /-- HEAD_READ_SHARED (R50). -/
  | headReadShared
  /-- HEAD_READ_EXCLUSIVE (R50). -/
  | headReadExclusive
  /-- HEAD_EVICTION_REPORT (R50). -/
  | headEvictionReport
  /-- BIRSP_RECEIVE (R52). -/
  | birspReceive
  /-- SNOOP_TIMEOUT (R52). -/
  | snoopTimeout
  /-- BISNP_RECEIVE (R53). -/
  | bisnpReceive
  /-- LEASE_CUT_COMPLETE (R53). -/
  | leaseCutComplete
  /-- HOST_TAKE_HALF (R56). -/
  | hostTakeHalf
  /-- HOST_RELEASE_HALF (R56). -/
  | hostReleaseHalf
  /-- DC_ADD_EXTENT (R59). -/
  | dcAddExtent
  /-- ZERO_FILL_DONE (R59). -/
  | zeroFillDone
  /-- DC_RELEASE_EXTENT (R60). -/
  | dcReleaseExtent
  /-- RELEASE_DRAIN_DONE (R60). -/
  | releaseDrainDone
  /-- IMAGE_REGISTER (R62). -/
  | imageRegister
  /-- IMAGE_UNREGISTER (R63). -/
  | imageUnregister
  /-- MAILBOX_DOORBELL (R65). -/
  | mailboxDoorbell
  /-- TASK_PACKET_INTAKE (R66). -/
  | taskPacketIntake
  /-- TASK_RESULT_RECEIVE (R375). -/
  | taskResultReceive
  /-- XTASK_TIMEOUT (R375). -/
  | xtaskTimeout
  /-- HDM_REQUEST_TIMEOUT (R118). -/
  | hdmRequestTimeout
  /-- HDM_RANGE_LOSS (R119). -/
  | hdmRangeLoss
  /-- LOSTD_CLEAR (R119). -/
  | lostdClear
  /-- PAGE_WALK_COMPLETE (R76). -/
  | pageWalkComplete
  /-- MMU_INVALIDATE (R79). -/
  | mmuInvalidate
  /-- INVALIDATION_COMPLETE (R79). -/
  | invalidationComplete
  /-- PGRESP (R79). -/
  | pgresp
  /-- SKIM_REQUEST (R79). -/
  | skimRequest
  /-- HOT_PAGE_CANDIDATE (R88). -/
  | hotPageCandidate
  /-- HOT_PAGE_DECAY (R88). -/
  | hotPageDecay
  /-- SKIM_COPY_DONE (R85). -/
  | skimCopyDone
  /-- SKIM_HOLD_DONE (R85). -/
  | skimHoldDone
  /-- DOORBELL_KICK (R91). -/
  | doorbellKick
  /-- QOP_DISABLE (R95). -/
  | qopDisable
  /-- QOP_ENABLE (R95). -/
  | qopEnable
  /-- QOP_CLEAR_ERROR (R95). -/
  | qopClearError
  /-- QUANTUM_BOUNDARY (R94). -/
  | quantumBoundary
  /-- SLOT_RESTORE_DONE (R93). -/
  | slotRestoreDone
  /-- SLOT_SAVE_DONE (R93). -/
  | slotSaveDone
  /-- CMD_NOP (R96). -/
  | cmdNop
  /-- LAUNCH (R99). -/
  | launch
  /-- WAITV (R96). -/
  | waitv
  /-- WAITV_REREAD (R96). -/
  | waitvReread
  /-- SIGNAL (R96). -/
  | signal
  /-- CLUSTER_PLACE (R126). -/
  | clusterPlace
  /-- INTERRUPT_TIMER (R103). -/
  | interruptTimer
  /-- ERHEAD_WRITE (R104). -/
  | erheadWrite
  /-- VCLR (R117). -/
  | vclr
  /-- PREQ (R140). -/
  | preq
  /-- RESM (R140). -/
  | resm
  /-- SLICE_END (R140). -/
  | sliceEnd
  /-- WAITING_BUDGET_EXCEEDED (R143). -/
  | waitingBudgetExceeded
  /-- RECORD_PICK (R137). -/
  | recordPick
  /-- CLAUSE_START (R164). -/
  | clauseStart
  /-- LOAD_RETURN (R320). -/
  | loadReturn
  /-- HOME_RENEWAL (R198). -/
  | homeRenewal
  /-- HOME_UPGRADE (R199). -/
  | homeUpgrade
  /-- HOME_READ_EXCLUSIVE (R199). -/
  | homeReadExclusive
  /-- HOME_ACK (R203). -/
  | homeAck
  /-- HOME_WRITEBACK (R203). -/
  | homeWriteback
  /-- FORWARD_ANSWER (R203). -/
  | forwardAnswer
  /-- L1_FORWARD_RECEIVE (R203). -/
  | l1ForwardReceive
  /-- L1_GRANT_RECEIVE (R199). -/
  | l1GrantReceive
  /-- REFUSAL_BACKOFF_RESEND (R204). -/
  | refusalBackoffResend
  /-- ENGINE_CONTEXT_SWITCH (R364). -/
  | engineContextSwitch
  /-- QUEUE_BRING_IN (R153). -/
  | queueBringIn
  /-- AGE_LIMIT_EXPIRY (R154). -/
  | ageLimitExpiry
  /-- FIRING_ROUND_START (R155). -/
  | firingRoundStart
  /-- EXPERT_FIRING (R156). -/
  | expertFiring
  /-- RING_REFILL (R151). -/
  | ringRefill
  /-- MXDADD_CONTRIBUTION (R368). -/
  | mxdaddContribution
  /-- WATCHDOG_EXPIRY (R138). -/
  | watchdogExpiry
  /-- REGISTER_WRITE (R9). -/
  | registerWrite
  /-- FAR_ATOMIC_ARRIVAL (R205). -/
  | farAtomicArrival
  /-- INSTRUCTION_CACHE_FILL (R164). -/
  | instructionCacheFill
  /-- TARGET_ACKNOWLEDGEMENT (R215). -/
  | targetAcknowledgement
  deriving DecidableEq, Repr

end Sys2Proof
end

