-- ==== Sys2Proof/WellFormed.lean ====
section
/-! DEFINITION. Which instruction words are well formed: the opcode map with the file of every field (13_isa_encoding.md, R257),
the values a field may hold (R246, R247, R400), and the modifier and immediate bits each instruction admits (R251 to R253).
A word that fails one of these raises illegal operand when it issues (R258). -/

namespace Sys2Proof

/-- The files of R247; the queue registers are told apart by direction (R177). -/
inductive File
  | s | v | c | t | p | qpush | qpop
  deriving DecidableEq, Repr

/-- The register values a file has. -/
def File.has (f : File) (n : Nat) : Bool :=
  match f with
  | .s | .v => n < 64
  | .c | .p => n < 8
  /- tl7 may not be named (R179, R338). -/
  | .t => n < 7
  | .qpush => n = 0 || n = 2 || n = 4 || n = 8
  | .qpop => n = 1 || n = 3 || n = 5 || n = 7

/-- What a field that names a register of a file admits besides. -/
structure Fld where
  file : File
  /-- The register number is a multiple of this; a pair field is 2 (R247). -/
  align : Nat := 1
  /-- Registers one operand covers when that is not `align`. -/
  span : Nat := 0
  /-- Only registers (R400). -/
  regOnly : Bool := false
  /-- No latch (JTABV, R400). -/
  noLatch : Bool := false
  /-- FP constants (R248). -/
  fp : Bool := false
  /-- 0xFF has a meaning (R270, R316, R326). -/
  absent : Bool := false
  top : Nat := 63

/-- Registers the operand covers. -/
def Fld.count (f : Fld) : Nat := if f.span = 0 then f.align else f.span

/-- The use an opcode makes of a field. -/
inductive FieldSpec
  | unused
  | dst (f : Fld)
  | src (f : Fld)
  /-- Inline integer 0..7 (R382). -/
  | small

/-- What an instruction leaves for the latches (R174). -/
inductive LatchKind
  | none | s | v
  deriving DecidableEq, Repr

/-- The operand fields by format (R244). -/
inductive Body
  | rr (w : RR)
  | i16 (w : I16)
  | i24 (w : I24)
  | i32 (w : I32)
  deriving DecidableEq, Repr

def Body.ctl : Body → Ctl
  | .rr w => w.ctl
  | .i16 w => w.ctl
  | .i24 w => w.ctl
  | .i32 w => w.ctl

def Body.d : Body → Opd
  | .rr w => w.d
  | .i16 w => w.d
  | .i24 w => w.d
  | .i32 w => w.d

/-- The A field, absent where the format has none. -/
def Body.a : Body → Opd
  | .rr w => w.a
  | .i16 w => w.a
  | .i24 w => w.a
  | .i32 _ => .absent

def Body.b : Body → Opd
  | .rr w => w.b
  | .i16 w => w.b
  | _ => .absent

def Body.c : Body → Opd
  | .rr w => w.c
  | _ => .absent

/-- The immediate as a number; E counts as none. -/
def Body.imm : Body → Nat
  | .rr _ => 0
  | .i16 w => w.imm.toNat
  | .i24 w => w.imm.toNat
  | .i32 w => w.imm.toNat

/-- The operand field value `b` (R246). -/
def Opd.ofByte (b : BitVec 8) : Opd :=
  let n := b.toNat
  if n < 0x40 then .reg (BitVec.ofNat 6 n)
  else if n < 0x48 then .latch (BitVec.ofNat 3 n)
  else if n = 0x48 then .laneIdx
  else if n < 0x80 then .rsvd b
  else if n < 0xC0 then .pos (BitVec.ofNat 6 n)
  else if n < 0xD0 then .neg (BitVec.ofNat 4 n)
  else if n < 0xE0 then .fpc (BitVec.ofNat 4 n)
  else if n = 0xFF then .absent
  else .rsvd b

/-- The byte of an operand field value (R246). -/
def Opd.toByte : Opd → BitVec 8
  | .reg n => BitVec.ofNat 8 n.toNat
  | .latch k => BitVec.ofNat 8 (0x40 + k.toNat)
  | .laneIdx => 0x48
  | .pos n => BitVec.ofNat 8 (0x80 + n.toNat)
  | .neg n => BitVec.ofNat 8 (0xC0 + n.toNat)
  | .fpc k => BitVec.ofNat 8 (0xD0 + k.toNat)
  | .absent => 0xFF
  | .rsvd v => v

/-- Does the field use allow the operand? `ws` is the write-suppress bit (R252). -/
def FieldSpec.ok (ws : Bool) : FieldSpec → Opd → Bool
  | .unused, o => o = .absent
  | .dst f, o =>
    if ws then o = .absent
    else match o with
      | .reg n => f.file.has n.toNat && n.toNat % f.align = 0 && n.toNat ≤ f.top
      | _ => false
  | .src f, o =>
    match o with
    | .reg n => f.file.has n.toNat && n.toNat % f.align = 0 && n.toNat ≤ f.top
    | .latch _ => !f.regOnly && !f.noLatch
    | .laneIdx => !f.regOnly && f.file = .v
    | .pos _ | .neg _ => !f.regOnly
    | .fpc _ => !f.regOnly && f.fp
    | .absent => f.absent
    | .rsvd _ => false
  | .small, o =>
    match o with
    | .pos n => n.toNat ≤ 7
    | _ => false

/-! ### Modifiers (R253), as conditions on the operand fields -/

/-- An E field the opcode does not use holds 0xFF. -/
def eNone (w : RR) : Bool := w.e = 0xFF
def eZero (w : RR) : Bool := w.e = 0
/-- Integer forms that allow SAT. -/
def eSat (w : RR) : Bool := w.e = 0 || w.e = 4
/-- FADD and the like: every bit of the arithmetic modifier but [7]. -/
def eArith (w : RR) : Bool := !bit w.e 7
/-- Source modifiers only: FMIN, FMAX, level-index arithmetic (R294, R306). -/
def eMods (w : RR) : Bool := !bit w.e 7 && bits w.e 2 0 = 0
/-- FRCP, FSQRT: A's modifiers, SAT and RM (R299). -/
def eUnary (w : RR) : Bool := bits w.e 7 5 = 0
/-- The other one-operand transcendental forms: RNE only (R299). -/
def eUnaryNe (w : RR) : Bool := bits w.e 7 5 = 0 && bits w.e 1 0 = 0
def eCmpInt (w : RR) : Bool := bits w.e 7 5 = 0 && bits w.e 4 3 ≤ 1 && bits w.e 2 0 ≤ 5
def eCmpFp (w : RR) : Bool := bits w.e 7 3 = 0
def eCmpLi (w : RR) : Bool := bits w.e 7 3 = 0 && bits w.e 2 0 ≤ 5
def eAny (_ : RR) : Bool := true
/-- KSET (R270): A holds 0xFF exactly when SRCK = 1. -/
def eKset (w : RR) : Bool :=
  bits w.e 7 5 = 0 && bits w.e 2 0 ≤ 4 && (bit w.e 3 == decide (w.a = .absent))
def eVbfx (w : RR) : Bool := bits w.e 7 1 = 0
/-- WS = 1 does not go with a high half written (R301). -/
def eCvt (w : RR) : Bool := !(w.ctl.ws && bit w.e 7)
/-- QDEC takes no source half (R304), QENC writes no high half (R305). -/
def eQdec (w : RR) : Bool := !bit w.e 6 && eCvt w
def eQenc (w : RR) : Bool := !bit w.e 7
def eVshfl (w : RR) : Bool := bits w.e 7 5 = 0 && bits w.e 4 2 ≤ 6
/-- VREDS and VSCAN (R312): FP constants only in the FP32 type (R248). -/
def eReduce (w : RR) : Bool :=
  (bits w.e 4 3 = 0 || (bits w.e 4 3 = 1 && bits w.e 2 0 ≤ 2)) &&
  (match w.a with
   | .fpc _ => bits w.e 4 3 = 1
   | _ => true)
def eVreds (w : RR) : Bool := bits w.e 7 5 = 0 && eReduce w
def eVscan (w : RR) : Bool := bits w.e 7 6 = 0 && eReduce w
/-- The atomic modifier (R327): pairs of a vector W64 form are even. -/
def pairOk : Opd → Bool
  | .reg n => n.toNat % 2 = 0
  | _ => true
def eAtomBits (w : RR) : Bool := bits w.e 2 0 = 0
/-- An FP constant only in an operand whose format is floating (R248). -/
def eAtomFp (w : RR) : Bool :=
  match w.c with
  | .fpc _ => decide (9 ≤ bits w.e 7 4)
  | _ => true
def eSatom (w : RR) : Bool := eAtomBits w && bits w.e 7 4 ≤ 0xB && eAtomFp w
def eVatom (w : RR) : Bool := eSatom w && (!bit w.e 3 || (pairOk w.d && pairOk w.c))
def eVred (w : RR) : Bool := eVatom w && bits w.e 7 4 ≠ 8
def eScas (w : RR) : Bool := eAtomBits w && bits w.e 7 4 = 0
def eVcas (w : RR) : Bool := eScas w && (!bit w.e 3 || (pairOk w.d && pairOk w.c))
/-- ORD and SCOPE of R331: ORD 00b requires SCOPE 000b. -/
def ordOk (e : BitVec 8) : Bool := bits e 5 3 ≤ 4 && (bits e 7 6 ≠ 0 || bits e 5 3 = 0)
def eSyna (w : RR) : Bool := ordOk w.e
def eSynw (w : RR) : Bool := ordOk w.e && bits w.e 2 0 ≤ 5
def eFence (w : RR) : Bool := bits w.e 7 6 ≠ 0 && bits w.e 5 3 ≤ 4 && bits w.e 2 0 = 0
def eAreg (w : RR) : Bool := ordOk w.e && bits w.e 2 0 = 0
def eSweep (w : RR) : Bool := w.e.toNat ≤ 0x0A

/-! ### Special-register numbers (R267, R386) and immediates with reserved bits -/

def immMovsr (n : Nat) : Bool := n ≤ 0x27
/-- sr.gsf alone is writable (R267). -/
def immMovsw (n : Nat) : Bool := n = 0x0C
def immSysr (n : Nat) : Bool := n ≤ 0x27 || (0x100 ≤ n && n ≤ 0x106) || (0x108 ≤ n && n ≤ 0x10F)
def immSysw (n : Nat) : Bool := n = 0x0C || n = 0x100
def immYield (n : Nat) : Bool := n < 0x80

/-! ### The opcode map -/

/-- The size code z (R257). -/
def Size.code : Size → Nat
  | .u8 => 0
  | .s8 => 1
  | .u16 => 2
  | .s16 => 3
  | .b32 => 4
  | .b64 => 5
  | .b128 => 6

/-- The access width w in bytes, as a power of two (R317). -/
def Size.log : Size → Nat
  | .u8 | .s8 => 0
  | .u16 | .s16 => 1
  | .b32 => 2
  | .b64 => 3
  | .b128 => 4

/-- The D field of a group 0x7 form (R257, R317): which registers it may name. -/
def Size.fld (z : Size) (f : File) : Fld :=
  match z with
  | .b64 => { file := f, align := 2, span := if f = .s then 1 else 2 }
  | .b128 => { file := f, align := 4, span := if f = .s then 2 else 4, regOnly := true }
  | _ => { file := f }

/-- A row of the opcode map. -/
structure OpInfo where
  maj : Nat
  min : Nat
  body : Body
  d : FieldSpec := .unused
  a : FieldSpec := .unused
  b : FieldSpec := .unused
  c : FieldSpec := .unused
  /-- E as an operand (R264, R288). -/
  eOpd : Option Fld := none
  eOk : RR → Bool := eNone
  immOk : Nat → Bool := fun _ => true
  /-- Honours CH (R251). -/
  ch : Bool := false
  /-- Admits WS = 1 (R252). -/
  ws : Bool := false
  latch : LatchKind := .none
  /-- In-flight path raised (R180). -/
  path : Option Nat := none

/-- Is the row well formed with the fields it holds (R258)? -/
def OpInfo.ok (o : OpInfo) : Bool :=
  let ctl := o.body.ctl
  (o.ch || ctl.ch = 0) && (o.ws || !ctl.ws) && o.d.ok ctl.ws o.body.d &&
  (match o.body with
   | .rr w =>
     o.a.ok false w.a && o.b.ok false w.b && o.c.ok false w.c &&
     (match o.eOpd with
      | some f => (FieldSpec.src f).ok false (Opd.ofByte w.e)
      | none => o.eOk w)
   | .i16 w => o.a.ok false w.a && o.b.ok false w.b && o.immOk w.imm.toNat
   | .i24 w => o.a.ok false w.a
   | .i32 _ => true)

/-- The row of an instruction word; none for engine commands and events. -/
def Instr.info : Instr → Option OpInfo
  | .add w => some
    { maj := 0x0, min := 0x00, body := .rr w, d := .dst { file := .s }, a := .src { file := .s }, b := .src { file := .s }, eOk := eSat, ws := true, latch := .s }
  | .sub w => some
    { maj := 0x0, min := 0x01, body := .rr w, d := .dst { file := .s }, a := .src { file := .s }, b := .src { file := .s }, eOk := eSat, ws := true, latch := .s }
  | .mul w => some
    { maj := 0x0, min := 0x02, body := .rr w, d := .dst { file := .s }, a := .src { file := .s }, b := .src { file := .s }, eOk := eZero, ws := true, latch := .s }
  | .mulh w => some
    { maj := 0x0, min := 0x03, body := .rr w, d := .dst { file := .s }, a := .src { file := .s }, b := .src { file := .s }, eOk := eZero, ws := true, latch := .s }
  | .mulhu w => some
    { maj := 0x0, min := 0x04, body := .rr w, d := .dst { file := .s }, a := .src { file := .s }, b := .src { file := .s }, eOk := eZero, ws := true, latch := .s }
  | .div w => some
    { maj := 0x0, min := 0x05, body := .rr w, d := .dst { file := .s }, a := .src { file := .s }, b := .src { file := .s }, eOk := eZero, ws := true, latch := .s }
  | .divu w => some
    { maj := 0x0, min := 0x06, body := .rr w, d := .dst { file := .s }, a := .src { file := .s }, b := .src { file := .s }, eOk := eZero, ws := true, latch := .s }
  | .rem w => some
    { maj := 0x0, min := 0x07, body := .rr w, d := .dst { file := .s }, a := .src { file := .s }, b := .src { file := .s }, eOk := eZero, ws := true, latch := .s }
  | .remu w => some
    { maj := 0x0, min := 0x08, body := .rr w, d := .dst { file := .s }, a := .src { file := .s }, b := .src { file := .s }, eOk := eZero, ws := true, latch := .s }
  | .and w => some
    { maj := 0x0, min := 0x09, body := .rr w, d := .dst { file := .s }, a := .src { file := .s }, b := .src { file := .s }, eOk := eZero, ws := true, latch := .s }
  | .or w => some
    { maj := 0x0, min := 0x0A, body := .rr w, d := .dst { file := .s }, a := .src { file := .s }, b := .src { file := .s }, eOk := eZero, ws := true, latch := .s }
  | .xor w => some
    { maj := 0x0, min := 0x0B, body := .rr w, d := .dst { file := .s }, a := .src { file := .s }, b := .src { file := .s }, eOk := eZero, ws := true, latch := .s }
  | .andn w => some
    { maj := 0x0, min := 0x0C, body := .rr w, d := .dst { file := .s }, a := .src { file := .s }, b := .src { file := .s }, eOk := eZero, ws := true, latch := .s }
  | .orn w => some
    { maj := 0x0, min := 0x0D, body := .rr w, d := .dst { file := .s }, a := .src { file := .s }, b := .src { file := .s }, eOk := eZero, ws := true, latch := .s }
  | .shl w => some
    { maj := 0x0, min := 0x0E, body := .rr w, d := .dst { file := .s }, a := .src { file := .s }, b := .src { file := .s }, eOk := eZero, ws := true, latch := .s }
  | .shr w => some
    { maj := 0x0, min := 0x0F, body := .rr w, d := .dst { file := .s }, a := .src { file := .s }, b := .src { file := .s }, eOk := eZero, ws := true, latch := .s }
  | .sra w => some
    { maj := 0x0, min := 0x10, body := .rr w, d := .dst { file := .s }, a := .src { file := .s }, b := .src { file := .s }, eOk := eZero, ws := true, latch := .s }
  | .ror w => some
    { maj := 0x0, min := 0x11, body := .rr w, d := .dst { file := .s }, a := .src { file := .s }, b := .src { file := .s }, eOk := eZero, ws := true, latch := .s }
  | .min w => some
    { maj := 0x0, min := 0x12, body := .rr w, d := .dst { file := .s }, a := .src { file := .s }, b := .src { file := .s }, eOk := eZero, ws := true, latch := .s }
  | .max w => some
    { maj := 0x0, min := 0x13, body := .rr w, d := .dst { file := .s }, a := .src { file := .s }, b := .src { file := .s }, eOk := eZero, ws := true, latch := .s }
  | .minu w => some
    { maj := 0x0, min := 0x14, body := .rr w, d := .dst { file := .s }, a := .src { file := .s }, b := .src { file := .s }, eOk := eZero, ws := true, latch := .s }
  | .maxu w => some
    { maj := 0x0, min := 0x15, body := .rr w, d := .dst { file := .s }, a := .src { file := .s }, b := .src { file := .s }, eOk := eZero, ws := true, latch := .s }
  | .clz w => some
    { maj := 0x0, min := 0x16, body := .rr w, d := .dst { file := .s }, a := .src { file := .s }, ws := true, latch := .s }
  | .ctz w => some
    { maj := 0x0, min := 0x17, body := .rr w, d := .dst { file := .s }, a := .src { file := .s }, ws := true, latch := .s }
  | .popc w => some
    { maj := 0x0, min := 0x18, body := .rr w, d := .dst { file := .s }, a := .src { file := .s }, ws := true, latch := .s }
  | .bfx w => some
    { maj := 0x0, min := 0x19, body := .rr w, d := .dst { file := .s }, a := .src { file := .s }, b := .src { file := .s }, c := .src { file := .s }, ws := true, latch := .s }
  | .bfxu w => some
    { maj := 0x0, min := 0x1A, body := .rr w, d := .dst { file := .s }, a := .src { file := .s }, b := .src { file := .s }, c := .src { file := .s }, ws := true, latch := .s }
  | .bfi w => some
    { maj := 0x0, min := 0x1B, body := .rr w, d := .dst { file := .s }, a := .src { file := .s }, b := .src { file := .s }, c := .src { file := .s }, eOpd := some { file := .s }, ws := true, latch := .s }
  | .sel w => some
    { maj := 0x0, min := 0x1C, body := .rr w, d := .dst { file := .s }, a := .src { file := .s }, b := .src { file := .s }, c := .src { file := .c, regOnly := true }, ws := true, latch := .s }
  | .cmp w => some
    { maj := 0x0, min := 0x1D, body := .rr w, d := .dst { file := .c, regOnly := true }, a := .src { file := .s }, b := .src { file := .s }, eOk := eCmpInt, latch := .s }
  | .mov w => some
    { maj := 0x1, min := 0x00, body := .rr w, d := .dst { file := .s }, a := .src { file := .s }, ws := true, latch := .s }
  | .ldk w => some
    { maj := 0x1, min := 0x01, body := .i32 w, d := .dst { file := .s }, ws := true, latch := .s }
  | .ldkh w => some
    { maj := 0x1, min := 0x02, body := .i32 w, d := .dst { file := .s }, latch := .s }
  | .movsr w => some
    { maj := 0x1, min := 0x03, body := .i16 w, d := .dst { file := .s }, immOk := immMovsr, ws := true, latch := .s }
  | .movsw w => some
    { maj := 0x1, min := 0x04, body := .i16 w, a := .src { file := .s }, immOk := immMovsw }
  | .plog w => some
    { maj := 0x1, min := 0x05, body := .rr w, d := .dst { file := .c, regOnly := true }, a := .src { file := .c, regOnly := true }, b := .src { file := .c, regOnly := true }, c := .src { file := .c, regOnly := true }, eOk := eAny, latch := .s }
  | .kmov w => some
    { maj := 0x1, min := 0x06, body := .rr w, d := .dst { file := .s, align := 2 }, ws := true, latch := .s }
  | .kset w => some
    { maj := 0x1, min := 0x07, body := .rr w, a := .src { file := .s, align := 2, absent := true }, eOk := eKset }
  | .br w => some
    { maj := 0x2, min := 0x00, body := .i24 w }
  | .brc w => some
    { maj := 0x2, min := 0x01, body := .i24 w, a := .src { file := .s } }
  | .call w => some
    { maj := 0x2, min := 0x02, body := .i24 w }
  | .ret w => some
    { maj := 0x2, min := 0x03, body := .rr w, a := .src { file := .s } }
  | .jtab w => some
    { maj := 0x2, min := 0x04, body := .rr w, a := .src { file := .s } }
  | .jtabv w => some
    { maj := 0x2, min := 0x05, body := .rr w, a := .src { file := .v, noLatch := true } }
  | .split w => some
    { maj := 0x2, min := 0x06, body := .i24 w }
  | .elseM w => some
    { maj := 0x2, min := 0x07, body := .i24 w }
  | .join w => some
    { maj := 0x2, min := 0x08, body := .rr w }
  | .loopm w => some
    { maj := 0x2, min := 0x09, body := .i24 w }
  | .bany w => some
    { maj := 0x2, min := 0x0A, body := .i24 w }
  | .ball w => some
    { maj := 0x2, min := 0x0B, body := .i24 w }
  | .bnone w => some
    { maj := 0x2, min := 0x0C, body := .i24 w }
  | .mstr w => some
    { maj := 0x2, min := 0x0D, body := .rr w, d := .dst { file := .s, align := 2 }, a := .src { file := .s }, latch := .s }
  | .mstw w => some
    { maj := 0x2, min := 0x0E, body := .rr w, a := .src { file := .s, align := 2, regOnly := true }, b := .src { file := .s } }
  | .exit w => some
    { maj := 0x2, min := 0x0F, body := .rr w }
  | .exitl w => some
    { maj := 0x2, min := 0x10, body := .rr w }
  | .vadd w => some
    { maj := 0x3, min := 0x00, body := .rr w, d := .dst { file := .v }, a := .src { file := .v }, b := .src { file := .v }, eOk := eSat, ws := true, latch := .v }
  | .vsub w => some
    { maj := 0x3, min := 0x01, body := .rr w, d := .dst { file := .v }, a := .src { file := .v }, b := .src { file := .v }, eOk := eSat, ws := true, latch := .v }
  | .vmul w => some
    { maj := 0x3, min := 0x02, body := .rr w, d := .dst { file := .v }, a := .src { file := .v }, b := .src { file := .v }, eOk := eSat, ws := true, latch := .v }
  | .vmulh w => some
    { maj := 0x3, min := 0x03, body := .rr w, d := .dst { file := .v }, a := .src { file := .v }, b := .src { file := .v }, eOk := eZero, ws := true, latch := .v }
  | .vmad w => some
    { maj := 0x3, min := 0x04, body := .rr w, d := .dst { file := .v }, a := .src { file := .v }, b := .src { file := .v }, c := .src { file := .v }, eOk := eSat, ws := true, latch := .v }
  | .vand w => some
    { maj := 0x3, min := 0x05, body := .rr w, d := .dst { file := .v }, a := .src { file := .v }, b := .src { file := .v }, eOk := eZero, ws := true, latch := .v }
  | .vor w => some
    { maj := 0x3, min := 0x06, body := .rr w, d := .dst { file := .v }, a := .src { file := .v }, b := .src { file := .v }, eOk := eZero, ws := true, latch := .v }
  | .vxor w => some
    { maj := 0x3, min := 0x07, body := .rr w, d := .dst { file := .v }, a := .src { file := .v }, b := .src { file := .v }, eOk := eZero, ws := true, latch := .v }
  | .vandn w => some
    { maj := 0x3, min := 0x08, body := .rr w, d := .dst { file := .v }, a := .src { file := .v }, b := .src { file := .v }, eOk := eZero, ws := true, latch := .v }
  | .vshl w => some
    { maj := 0x3, min := 0x09, body := .rr w, d := .dst { file := .v }, a := .src { file := .v }, b := .src { file := .v }, eOk := eZero, ws := true, latch := .v }
  | .vshr w => some
    { maj := 0x3, min := 0x0A, body := .rr w, d := .dst { file := .v }, a := .src { file := .v }, b := .src { file := .v }, eOk := eZero, ws := true, latch := .v }
  | .vsra w => some
    { maj := 0x3, min := 0x0B, body := .rr w, d := .dst { file := .v }, a := .src { file := .v }, b := .src { file := .v }, eOk := eZero, ws := true, latch := .v }
  | .vmin w => some
    { maj := 0x3, min := 0x0C, body := .rr w, d := .dst { file := .v }, a := .src { file := .v }, b := .src { file := .v }, eOk := eZero, ws := true, latch := .v }
  | .vmax w => some
    { maj := 0x3, min := 0x0D, body := .rr w, d := .dst { file := .v }, a := .src { file := .v }, b := .src { file := .v }, eOk := eZero, ws := true, latch := .v }
  | .vminu w => some
    { maj := 0x3, min := 0x0E, body := .rr w, d := .dst { file := .v }, a := .src { file := .v }, b := .src { file := .v }, eOk := eZero, ws := true, latch := .v }
  | .vmaxu w => some
    { maj := 0x3, min := 0x0F, body := .rr w, d := .dst { file := .v }, a := .src { file := .v }, b := .src { file := .v }, eOk := eZero, ws := true, latch := .v }
  | .vabs w => some
    { maj := 0x3, min := 0x10, body := .rr w, d := .dst { file := .v }, a := .src { file := .v }, eOk := eSat, ws := true, latch := .v }
  | .vclz w => some
    { maj := 0x3, min := 0x11, body := .rr w, d := .dst { file := .v }, a := .src { file := .v }, eOk := eZero, ws := true, latch := .v }
  | .vpopc w => some
    { maj := 0x3, min := 0x12, body := .rr w, d := .dst { file := .v }, a := .src { file := .v }, eOk := eZero, ws := true, latch := .v }
  | .vbfx w => some
    { maj := 0x3, min := 0x13, body := .rr w, d := .dst { file := .v }, a := .src { file := .v }, b := .src { file := .v }, c := .src { file := .v }, eOk := eVbfx, ws := true, latch := .v }
  | .vbfi w => some
    { maj := 0x3, min := 0x14, body := .rr w, d := .dst { file := .v }, a := .src { file := .v }, b := .src { file := .v }, c := .src { file := .v }, eOpd := some { file := .v }, ws := true, latch := .v }
  | .vsel w => some
    { maj := 0x3, min := 0x15, body := .rr w, d := .dst { file := .v }, a := .src { file := .v }, b := .src { file := .v }, ws := true, latch := .v }
  | .vcmp w => some
    { maj := 0x3, min := 0x16, body := .rr w, a := .src { file := .v }, b := .src { file := .v }, eOk := eCmpInt, latch := .v }
  | .vmov w => some
    { maj := 0x3, min := 0x17, body := .rr w, d := .dst { file := .v }, a := .src { file := .v, fp := true }, ws := true, latch := .v }
  | .vmovs w => some
    { maj := 0x3, min := 0x18, body := .rr w, d := .dst { file := .s }, a := .src { file := .v }, b := .src { file := .s }, ws := true, latch := .s }
  | .vaddp w => some
    { maj := 0x3, min := 0x19, body := .rr w, d := .dst { file := .v, align := 2 }, a := .src { file := .v, align := 2 }, b := .src { file := .v, align := 2 }, eOk := eSat, ws := true, latch := .v }
  | .fadd w => some
    { maj := 0x4, min := 0x00, body := .rr w, d := .dst { file := .v }, a := .src { file := .v, fp := true }, b := .src { file := .v, fp := true }, eOk := eArith, ws := true, latch := .v }
  | .fsub w => some
    { maj := 0x4, min := 0x01, body := .rr w, d := .dst { file := .v }, a := .src { file := .v, fp := true }, b := .src { file := .v, fp := true }, eOk := eArith, ws := true, latch := .v }
  | .fmul w => some
    { maj := 0x4, min := 0x02, body := .rr w, d := .dst { file := .v }, a := .src { file := .v, fp := true }, b := .src { file := .v, fp := true }, eOk := eArith, ws := true, latch := .v }
  | .ffma w => some
    { maj := 0x4, min := 0x03, body := .rr w, d := .dst { file := .v }, a := .src { file := .v, fp := true }, b := .src { file := .v, fp := true }, c := .src { file := .v, fp := true }, eOk := eArith, ws := true, latch := .v }
  | .fmin w => some
    { maj := 0x4, min := 0x04, body := .rr w, d := .dst { file := .v }, a := .src { file := .v, fp := true }, b := .src { file := .v, fp := true }, eOk := eMods, ws := true, latch := .v }
  | .fmax w => some
    { maj := 0x4, min := 0x05, body := .rr w, d := .dst { file := .v }, a := .src { file := .v, fp := true }, b := .src { file := .v, fp := true }, eOk := eMods, ws := true, latch := .v }
  | .fcmp w => some
    { maj := 0x4, min := 0x06, body := .rr w, a := .src { file := .v, fp := true }, b := .src { file := .v, fp := true }, eOk := eCmpFp, latch := .v }
  | .fclass w => some
    { maj := 0x4, min := 0x07, body := .rr w, d := .dst { file := .v }, a := .src { file := .v, fp := true }, ws := true, latch := .v }
  | .hadd2 w => some
    { maj := 0x4, min := 0x08, body := .rr w, d := .dst { file := .v }, a := .src { file := .v, fp := true }, b := .src { file := .v, fp := true }, eOk := eArith, ws := true, latch := .v }
  | .hmul2 w => some
    { maj := 0x4, min := 0x09, body := .rr w, d := .dst { file := .v }, a := .src { file := .v, fp := true }, b := .src { file := .v, fp := true }, eOk := eArith, ws := true, latch := .v }
  | .hfma2 w => some
    { maj := 0x4, min := 0x0A, body := .rr w, d := .dst { file := .v }, a := .src { file := .v, fp := true }, b := .src { file := .v, fp := true }, c := .src { file := .v, fp := true }, eOk := eArith, ws := true, latch := .v }
  | .dadd w => some
    { maj := 0x4, min := 0x0B, body := .rr w, d := .dst { file := .v, align := 2 }, a := .src { file := .v, align := 2, fp := true }, b := .src { file := .v, align := 2, fp := true }, eOk := eArith, ws := true, latch := .v }
  | .dmul w => some
    { maj := 0x4, min := 0x0C, body := .rr w, d := .dst { file := .v, align := 2 }, a := .src { file := .v, align := 2, fp := true }, b := .src { file := .v, align := 2, fp := true }, eOk := eArith, ws := true, latch := .v }
  | .dfma w => some
    { maj := 0x4, min := 0x0D, body := .rr w, d := .dst { file := .v, align := 2 }, a := .src { file := .v, align := 2, fp := true }, b := .src { file := .v, align := 2, fp := true }, c := .src { file := .v, align := 2, fp := true }, eOk := eArith, ws := true, latch := .v }
  | .frcp w => some
    { maj := 0x5, min := 0x00, body := .rr w, d := .dst { file := .v }, a := .src { file := .v, fp := true }, eOk := eUnary, ws := true, latch := .v }
  | .frsq w => some
    { maj := 0x5, min := 0x01, body := .rr w, d := .dst { file := .v }, a := .src { file := .v, fp := true }, eOk := eUnaryNe, ws := true, latch := .v }
  | .fsqrt w => some
    { maj := 0x5, min := 0x02, body := .rr w, d := .dst { file := .v }, a := .src { file := .v, fp := true }, eOk := eUnary, ws := true, latch := .v }
  | .fdiv w => some
    { maj := 0x5, min := 0x03, body := .rr w, d := .dst { file := .v }, a := .src { file := .v, fp := true }, b := .src { file := .v, fp := true }, eOk := eArith, ws := true, latch := .v }
  | .fexp2 w => some
    { maj := 0x5, min := 0x04, body := .rr w, d := .dst { file := .v }, a := .src { file := .v, fp := true }, eOk := eUnaryNe, ws := true, latch := .v }
  | .flog2 w => some
    { maj := 0x5, min := 0x05, body := .rr w, d := .dst { file := .v }, a := .src { file := .v, fp := true }, eOk := eUnaryNe, ws := true, latch := .v }
  | .fsin w => some
    { maj := 0x5, min := 0x06, body := .rr w, d := .dst { file := .v }, a := .src { file := .v, fp := true }, eOk := eUnaryNe, ws := true, latch := .v }
  | .fcos w => some
    { maj := 0x5, min := 0x07, body := .rr w, d := .dst { file := .v }, a := .src { file := .v, fp := true }, eOk := eUnaryNe, ws := true, latch := .v }
  | .ftanh w => some
    { maj := 0x5, min := 0x08, body := .rr w, d := .dst { file := .v }, a := .src { file := .v, fp := true }, eOk := eUnaryNe, ws := true, latch := .v }
  | .cvt w => some
    { maj := 0x5, min := 0x09, body := .rr w, d := .dst { file := .v }, a := .src { file := .v, fp := true }, eOk := eCvt, ws := true, latch := .v }
  | .cvti w => some
    { maj := 0x5, min := 0x0A, body := .rr w, d := .dst { file := .v }, a := .src { file := .v, fp := true }, eOk := eCvt, ws := true, latch := .v }
  | .qdec w => some
    { maj := 0x5, min := 0x0B, body := .rr w, d := .dst { file := .v }, a := .src { file := .v }, b := .src { file := .v }, eOk := eQdec, ws := true, latch := .v }
  | .qenc w => some
    { maj := 0x5, min := 0x0C, body := .rr w, d := .dst { file := .v }, a := .src { file := .v, fp := true }, eOk := eQenc, ws := true, latch := .v }
  | .liadd w => some
    { maj := 0x5, min := 0x0D, body := .rr w, d := .dst { file := .v }, a := .src { file := .v, fp := true }, b := .src { file := .v, fp := true }, eOk := eMods, ws := true, latch := .v }
  | .lisub w => some
    { maj := 0x5, min := 0x0E, body := .rr w, d := .dst { file := .v }, a := .src { file := .v, fp := true }, b := .src { file := .v, fp := true }, eOk := eMods, ws := true, latch := .v }
  | .limul w => some
    { maj := 0x5, min := 0x0F, body := .rr w, d := .dst { file := .v }, a := .src { file := .v, fp := true }, b := .src { file := .v, fp := true }, eOk := eMods, ws := true, latch := .v }
  | .lidiv w => some
    { maj := 0x5, min := 0x10, body := .rr w, d := .dst { file := .v }, a := .src { file := .v, fp := true }, b := .src { file := .v, fp := true }, eOk := eMods, ws := true, latch := .v }
  | .licmp w => some
    { maj := 0x5, min := 0x11, body := .rr w, a := .src { file := .v, fp := true }, b := .src { file := .v, fp := true }, eOk := eCmpLi, latch := .v }
  | .licvt w => some
    { maj := 0x5, min := 0x12, body := .rr w, d := .dst { file := .v }, a := .src { file := .v, fp := true }, eOk := eCvt, ws := true, latch := .v }
  | .vperm w => some
    { maj := 0x6, min := 0x00, body := .rr w, d := .dst { file := .v }, a := .src { file := .v }, b := .src { file := .v }, ws := true, latch := .v }
  | .vbcast w => some
    { maj := 0x6, min := 0x01, body := .rr w, d := .dst { file := .v }, a := .src { file := .v }, b := .src { file := .s }, ws := true, latch := .v }
  | .vshfl w => some
    { maj := 0x6, min := 0x02, body := .rr w, d := .dst { file := .v }, a := .src { file := .v }, b := .src { file := .v }, eOk := eVshfl, ws := true, latch := .v }
  | .vreds w => some
    { maj := 0x6, min := 0x03, body := .rr w, d := .dst { file := .s }, a := .src { file := .v, fp := true }, eOk := eVreds, ws := true, latch := .s }
  | .vscan w => some
    { maj := 0x6, min := 0x04, body := .rr w, d := .dst { file := .v }, a := .src { file := .v, fp := true }, eOk := eVscan, ws := true, latch := .v }
  | .vballot w => some
    { maj := 0x6, min := 0x05, body := .rr w, d := .dst { file := .s, align := 2 }, a := .src { file := .v }, ws := true, latch := .s }
  | .sld z w => some
    { maj := 0x7, min := 0x00 + z.code, body := .i16 w, d := .dst (z.fld .s), a := .src { file := .s, absent := true }, b := .src { file := .s, absent := true }, ch := true, latch := .s, path := some 0 }
  | .sst z w => some
    { maj := 0x7, min := 0x08 + z.code, body := .i16 w, d := .src (z.fld .s), a := .src { file := .s, absent := true }, b := .src { file := .s, absent := true }, ch := true, path := some 1 }
  | .vld z w => some
    { maj := 0x7, min := 0x10 + z.code, body := .i16 w, d := .dst (z.fld .v), a := .src { file := .s, absent := true }, b := .src { file := .v, absent := true }, ch := true, latch := .v, path := some 0 }
  | .vst z w => some
    { maj := 0x7, min := 0x18 + z.code, body := .i16 w, d := .src (z.fld .v), a := .src { file := .s, absent := true }, b := .src { file := .v, absent := true }, ch := true, path := some 1 }
  | .vldb z w => some
    { maj := 0x7, min := 0x20 + z.code, body := .i16 w, d := .dst (z.fld .v), a := .src { file := .s, absent := true }, b := .src { file := .v, absent := true }, ch := true, latch := .v, path := some 0 }
  | .vstb z w => some
    { maj := 0x7, min := 0x28 + z.code, body := .i16 w, d := .src (z.fld .v), a := .src { file := .s, absent := true }, b := .src { file := .v, absent := true }, ch := true, path := some 1 }
  | .vpf w => some
    { maj := 0x7, min := 0x30, body := .i16 w, a := .src { file := .s, absent := true }, b := .src { file := .v, absent := true }, ch := true, path := some 0 }
  | .pld w => some
    { maj := 0x8, min := 0x00, body := .i16 w, d := .dst { file := .v }, a := .src { file := .s, absent := true }, b := .src { file := .v, absent := true }, latch := .v, path := some 2 }
  | .pst w => some
    { maj := 0x8, min := 0x01, body := .i16 w, d := .src { file := .v }, a := .src { file := .s, absent := true }, b := .src { file := .v, absent := true }, path := some 2 }
  | .pldf w => some
    { maj := 0x8, min := 0x02, body := .i16 w, d := .dst { file := .v }, a := .src { file := .s, absent := true }, b := .src { file := .v, absent := true }, latch := .v, path := some 2 }
  | .plde w => some
    { maj := 0x8, min := 0x03, body := .i16 w, d := .dst { file := .v }, a := .src { file := .s, absent := true }, b := .src { file := .v, absent := true }, latch := .v, path := some 2 }
  | .pste w => some
    { maj := 0x8, min := 0x04, body := .i16 w, d := .src { file := .v }, a := .src { file := .s, absent := true }, b := .src { file := .v, absent := true }, path := some 2 }
  | .pstf w => some
    { maj := 0x8, min := 0x05, body := .i16 w, d := .src { file := .v }, a := .src { file := .s, absent := true }, b := .src { file := .v, absent := true }, path := some 2 }
  | .pfe w => some
    { maj := 0x8, min := 0x06, body := .i16 w, a := .src { file := .s, absent := true }, b := .src { file := .v, absent := true }, path := some 2 }
  | .ptag w => some
    { maj := 0x8, min := 0x07, body := .i16 w, d := .dst { file := .v }, a := .src { file := .s, absent := true }, b := .src { file := .v, absent := true }, latch := .v, path := some 2 }
  | .lsl w => some
    { maj := 0x8, min := 0x08, body := .i16 w, d := .dst { file := .v }, b := .src { file := .v, absent := true }, latch := .v, path := some 2 }
  | .lss w => some
    { maj := 0x8, min := 0x09, body := .i16 w, d := .src { file := .v }, b := .src { file := .v, absent := true }, path := some 2 }
  | .cld w => some
    { maj := 0x8, min := 0x0A, body := .i16 w, d := .dst { file := .v }, a := .src { file := .s, absent := true }, b := .src { file := .v, absent := true }, latch := .v, path := some 3 }
  | .cst w => some
    { maj := 0x8, min := 0x0B, body := .i16 w, d := .src { file := .v }, a := .src { file := .s, absent := true }, b := .src { file := .v, absent := true }, path := some 3 }
  | .clde w => some
    { maj := 0x8, min := 0x0C, body := .i16 w, d := .dst { file := .v }, a := .src { file := .s, absent := true }, b := .src { file := .v, absent := true }, latch := .v, path := some 3 }
  | .cste w => some
    { maj := 0x8, min := 0x0D, body := .i16 w, d := .src { file := .v }, a := .src { file := .s, absent := true }, b := .src { file := .v, absent := true }, path := some 3 }
  | .xld w => some
    { maj := 0x8, min := 0x0E, body := .i16 w, d := .dst { file := .v }, a := .src { file := .s, absent := true }, b := .src { file := .v, absent := true }, latch := .v, path := some 4 }
  | .xst w => some
    { maj := 0x8, min := 0x0F, body := .i16 w, d := .src { file := .v }, a := .src { file := .s, absent := true }, b := .src { file := .v, absent := true }, path := some 4 }
  | .vatom w => some
    { maj := 0x9, min := 0x00, body := .rr w, d := .dst { file := .v }, a := .src { file := .s, absent := true }, b := .src { file := .v, absent := true }, c := .src { file := .v, fp := true }, eOk := eVatom, ch := true, latch := .v, path := some 5 }
  | .vcas w => some
    { maj := 0x9, min := 0x01, body := .rr w, d := .dst { file := .v }, a := .src { file := .s, absent := true }, b := .src { file := .v, absent := true }, c := .src { file := .v }, eOk := eVcas, ch := true, latch := .v, path := some 5 }
  | .vred w => some
    { maj := 0x9, min := 0x02, body := .rr w, a := .src { file := .s, absent := true }, b := .src { file := .v, absent := true }, c := .src { file := .v, fp := true }, eOk := eVred, ch := true, path := some 5 }
  | .satom w => some
    { maj := 0x9, min := 0x03, body := .rr w, d := .dst { file := .s }, a := .src { file := .s, absent := true }, b := .src { file := .s, absent := true }, c := .src { file := .s, fp := true }, eOk := eSatom, ch := true, latch := .s, path := some 5 }
  | .scas w => some
    { maj := 0x9, min := 0x04, body := .rr w, d := .dst { file := .s }, a := .src { file := .s, absent := true }, b := .src { file := .s, absent := true }, c := .src { file := .s }, eOk := eScas, ch := true, latch := .s, path := some 5 }
  | .syna w => some
    { maj := 0x9, min := 0x05, body := .rr w, d := .dst { file := .s }, a := .src { file := .s }, c := .src { file := .s }, eOk := eSyna, latch := .s, path := some 6 }
  | .synw w => some
    { maj := 0x9, min := 0x06, body := .rr w, d := .dst { file := .s }, a := .src { file := .s }, c := .src { file := .s }, eOk := eSynw, latch := .s, path := some 6 }
  | .fence w => some
    { maj := 0xA, min := 0x00, body := .rr w, eOk := eFence }
  | .rwb w => some
    { maj := 0xA, min := 0x01, body := .rr w, a := .src { file := .s }, b := .src { file := .s }, ch := true, path := some 1 }
  | .rinv w => some
    { maj := 0xA, min := 0x02, body := .rr w, a := .src { file := .s }, b := .src { file := .s }, ch := true, path := some 0 }
  | .rwbi w => some
    { maj := 0xA, min := 0x03, body := .rr w, a := .src { file := .s }, b := .src { file := .s }, ch := true, path := some 1 }
  | .lock w => some
    { maj := 0xA, min := 0x04, body := .rr w, d := .dst { file := .s }, a := .src { file := .s }, ch := true, latch := .s, path := some 5 }
  | .unlock w => some
    { maj := 0xA, min := 0x05, body := .rr w, d := .dst { file := .s }, a := .src { file := .s }, ch := true, latch := .s, path := some 5 }
  | .tlwait w => some
    { maj := 0xA, min := 0x06, body := .rr w, a := .src { file := .t, regOnly := true }, b := .src { file := .s } }
  | .waitc w => some
    { maj := 0xA, min := 0x07, body := .rr w, a := .src { file := .p, regOnly := true }, b := .src { file := .s } }
  | .areg w => some
    { maj := 0xB, min := 0x00, body := .rr w, a := .src { file := .s }, eOk := eAreg }
  | .acmt w => some
    { maj := 0xB, min := 0x01, body := .rr w, path := some 7 }
  | .aabt w => some
    { maj := 0xB, min := 0x02, body := .rr w }
  | .qput w => some
    { maj := 0xC, min := 0x00, body := .rr w, d := .dst { file := .qpush, regOnly := true }, a := .src { file := .s } }
  | .qget w => some
    { maj := 0xC, min := 0x01, body := .rr w, d := .dst { file := .s }, a := .src { file := .qpop, regOnly := true }, latch := .s }
  | .qtry w => some
    { maj := 0xC, min := 0x02, body := .rr w, d := .dst { file := .s }, a := .src { file := .qpop, regOnly := true }, c := .dst { file := .c, regOnly := true }, latch := .s }
  | .sweep w => some
    { maj := 0xC, min := 0x03, body := .rr w, d := .dst { file := .s }, a := .src { file := .s }, b := .src { file := .s, fp := true }, c := .src { file := .s, fp := true }, eOk := eSweep, ch := true, latch := .s }
  | .enqt w => some
    { maj := 0xC, min := 0x04, body := .rr w, a := .src { file := .v, align := 8, regOnly := true, span := 8, top := 56 }, b := .src { file := .v } }
  | .yield w => some
    { maj := 0xD, min := 0x00, body := .i16 w, immOk := immYield }
  | .phase w => some
    { maj := 0xD, min := 0x01, body := .i24 w, d := .small, a := .src { file := .s } }
  | .spawn w => some
    { maj := 0xD, min := 0x02, body := .i24 w, d := .src { file := .s, regOnly := true, span := 4, top := 60 }, a := .src { file := .s } }
  | .trap w => some
    { maj := 0xD, min := 0x03, body := .i16 w }
  | .resume w => some
    { maj := 0xD, min := 0x04, body := .rr w }
  | .nop w => some
    { maj := 0xD, min := 0x05, body := .rr w }
  | .sysr w => some
    { maj := 0xD, min := 0x06, body := .i16 w, d := .dst { file := .s }, immOk := immSysr, latch := .s }
  | .sysw w => some
    { maj := 0xD, min := 0x07, body := .i16 w, a := .src { file := .s }, immOk := immSysw }
  | .entryOutOfRange => none
  | .entryBackInRange => none
  | .excursionTimeout => none
  | .entryStableTimeout => none
  | .coldStart => none
  | .telemetryRefresh => none
  | .pyranoStepDown => none
  | .clockWindow => none
  | .regulatorFault => none
  | .islandRelease => none
  | .healthWindow => none
  | .laneDown => none
  | .laneRetrain => none
  | .frameReceive => none
  | .creditAckFrame => none
  | .retryRequest => none
  | .lackTimer => none
  | .dataPacketReceive => none
  | .datafPacketReceive => none
  | .ackReceive => none
  | .nakReceive => none
  | .nobufReceive => none
  | .rtoExpiry => none
  | .nobufBackoffExpiry => none
  | .messageAbandon => none
  | .keyWrite => none
  | .connEnable => none
  | .connDisable => none
  | .headReadShared => none
  | .headReadExclusive => none
  | .headEvictionReport => none
  | .birspReceive => none
  | .snoopTimeout => none
  | .bisnpReceive => none
  | .leaseCutComplete => none
  | .hostTakeHalf => none
  | .hostReleaseHalf => none
  | .dcAddExtent => none
  | .zeroFillDone => none
  | .dcReleaseExtent => none
  | .releaseDrainDone => none
  | .imageRegister => none
  | .imageUnregister => none
  | .mailboxDoorbell => none
  | .taskPacketIntake => none
  | .taskResultReceive => none
  | .xtaskTimeout => none
  | .hdmRequestTimeout => none
  | .hdmRangeLoss => none
  | .lostdClear => none
  | .pageWalkComplete => none
  | .mmuInvalidate => none
  | .invalidationComplete => none
  | .pgresp => none
  | .skimRequest => none
  | .hotPageCandidate => none
  | .hotPageDecay => none
  | .skimCopyDone => none
  | .skimHoldDone => none
  | .doorbellKick => none
  | .qopDisable => none
  | .qopEnable => none
  | .qopClearError => none
  | .quantumBoundary => none
  | .slotRestoreDone => none
  | .slotSaveDone => none
  | .cmdNop => none
  | .launch => none
  | .waitv => none
  | .waitvReread => none
  | .signal => none
  | .clusterPlace => none
  | .interruptTimer => none
  | .erheadWrite => none
  | .vclr => none
  | .preq => none
  | .resm => none
  | .sliceEnd => none
  | .waitingBudgetExceeded => none
  | .recordPick => none
  | .clauseStart => none
  | .loadReturn => none
  | .homeRenewal => none
  | .homeUpgrade => none
  | .homeReadExclusive => none
  | .homeAck => none
  | .homeWriteback => none
  | .forwardAnswer => none
  | .l1ForwardReceive => none
  | .l1GrantReceive => none
  | .refusalBackoffResend => none
  | .engineContextSwitch => none
  | .queueBringIn => none
  | .ageLimitExpiry => none
  | .firingRoundStart => none
  | .expertFiring => none
  | .ringRefill => none
  | .mxacc _ => none
  | .mxzero _ => none
  | .mxdrain _ => none
  | .mxdadd _ => none
  | .mxdaddContribution => none
  | .mxring _ => none
  | .mxarm _ => none
  | .cpy _ => none
  | .cpyg _ => none
  | .cpys _ => none
  | .cpfill _ => none
  | .nsend _ => none
  | .npost _ => none
  | .xtask _ => none
  | .watchdogExpiry => none
  | .registerWrite => none
  | .farAtomicArrival => none
  | .instructionCacheFill => none
  | .targetAcknowledgement => none

/-- Well-formedness: every check of R258 that reads the word alone. Commands and events have none. -/
def Instr.wf (i : Instr) : Bool :=
  match i.info with
  | some o => o.ok
  | none => true

end Sys2Proof
end

