-- ==== Sys2Proof/Decode.lean ====
section
/-! DEFINITION. Reading and writing instruction words (13_isa_encoding.md, R243, R244, R257) and engine commands
(18_isa_engines_system.md, R361 to R375), and the bits of a clause header (R254). -/

namespace Sys2Proof

/-! ### Fields -/

/-- `len` bits of `n` from bit `lo`. -/
def cut (n lo len : Nat) : Nat := n / 2 ^ lo % 2 ^ len

/-- The control bits [53:40] (R243). -/
def ctlOf (n : Nat) : Ctl where
  ch := BitVec.ofNat 2 (cut n 52 2)
  ws := cut n 51 1 = 1
  st := BitVec.ofNat 3 (cut n 48 3)
  ga := BitVec.ofNat 4 (cut n 44 4)
  gb := BitVec.ofNat 4 (cut n 40 4)

/-- The operand field of eight bits from `lo`. -/
def opdOf (n lo : Nat) : Opd := Opd.ofByte (BitVec.ofNat 8 (cut n lo 8))

def rrOf (n : Nat) : RR where
  ctl := ctlOf n
  d := opdOf n 32
  a := opdOf n 24
  b := opdOf n 16
  c := opdOf n 8
  e := BitVec.ofNat 8 (cut n 0 8)

def i16Of (n : Nat) : I16 where
  ctl := ctlOf n
  d := opdOf n 32
  a := opdOf n 24
  b := opdOf n 16
  imm := BitVec.ofNat 16 (cut n 0 16)

def i24Of (n : Nat) : I24 where
  ctl := ctlOf n
  d := opdOf n 32
  a := opdOf n 24
  imm := BitVec.ofNat 24 (cut n 0 24)

def i32Of (n : Nat) : I32 where
  ctl := ctlOf n
  d := opdOf n 32
  imm := BitVec.ofNat 32 (cut n 0 32)

/-! ### Decoding words -/

/-- Group 0x0 of the opcode map (R257). -/
def decodeGroup0 (n min : Nat) : Option Instr :=
  match min with
  | 0x00 => some (.add (rrOf n))
  | 0x01 => some (.sub (rrOf n))
  | 0x02 => some (.mul (rrOf n))
  | 0x03 => some (.mulh (rrOf n))
  | 0x04 => some (.mulhu (rrOf n))
  | 0x05 => some (.div (rrOf n))
  | 0x06 => some (.divu (rrOf n))
  | 0x07 => some (.rem (rrOf n))
  | 0x08 => some (.remu (rrOf n))
  | 0x09 => some (.and (rrOf n))
  | 0x0A => some (.or (rrOf n))
  | 0x0B => some (.xor (rrOf n))
  | 0x0C => some (.andn (rrOf n))
  | 0x0D => some (.orn (rrOf n))
  | 0x0E => some (.shl (rrOf n))
  | 0x0F => some (.shr (rrOf n))
  | 0x10 => some (.sra (rrOf n))
  | 0x11 => some (.ror (rrOf n))
  | 0x12 => some (.min (rrOf n))
  | 0x13 => some (.max (rrOf n))
  | 0x14 => some (.minu (rrOf n))
  | 0x15 => some (.maxu (rrOf n))
  | 0x16 => some (.clz (rrOf n))
  | 0x17 => some (.ctz (rrOf n))
  | 0x18 => some (.popc (rrOf n))
  | 0x19 => some (.bfx (rrOf n))
  | 0x1A => some (.bfxu (rrOf n))
  | 0x1B => some (.bfi (rrOf n))
  | 0x1C => some (.sel (rrOf n))
  | 0x1D => some (.cmp (rrOf n))
  | _ => none

/-- Group 0x1 of the opcode map (R257). -/
def decodeGroup1 (n min : Nat) : Option Instr :=
  match min with
  | 0x00 => some (.mov (rrOf n))
  | 0x01 => some (.ldk (i32Of n))
  | 0x02 => some (.ldkh (i32Of n))
  | 0x03 => some (.movsr (i16Of n))
  | 0x04 => some (.movsw (i16Of n))
  | 0x05 => some (.plog (rrOf n))
  | 0x06 => some (.kmov (rrOf n))
  | 0x07 => some (.kset (rrOf n))
  | _ => none

/-- Group 0x2 of the opcode map (R257). -/
def decodeGroup2 (n min : Nat) : Option Instr :=
  match min with
  | 0x00 => some (.br (i24Of n))
  | 0x01 => some (.brc (i24Of n))
  | 0x02 => some (.call (i24Of n))
  | 0x03 => some (.ret (rrOf n))
  | 0x04 => some (.jtab (rrOf n))
  | 0x05 => some (.jtabv (rrOf n))
  | 0x06 => some (.split (i24Of n))
  | 0x07 => some (.elseM (i24Of n))
  | 0x08 => some (.join (rrOf n))
  | 0x09 => some (.loopm (i24Of n))
  | 0x0A => some (.bany (i24Of n))
  | 0x0B => some (.ball (i24Of n))
  | 0x0C => some (.bnone (i24Of n))
  | 0x0D => some (.mstr (rrOf n))
  | 0x0E => some (.mstw (rrOf n))
  | 0x0F => some (.exit (rrOf n))
  | 0x10 => some (.exitl (rrOf n))
  | _ => none

/-- Group 0x3 of the opcode map (R257). -/
def decodeGroup3 (n min : Nat) : Option Instr :=
  match min with
  | 0x00 => some (.vadd (rrOf n))
  | 0x01 => some (.vsub (rrOf n))
  | 0x02 => some (.vmul (rrOf n))
  | 0x03 => some (.vmulh (rrOf n))
  | 0x04 => some (.vmad (rrOf n))
  | 0x05 => some (.vand (rrOf n))
  | 0x06 => some (.vor (rrOf n))
  | 0x07 => some (.vxor (rrOf n))
  | 0x08 => some (.vandn (rrOf n))
  | 0x09 => some (.vshl (rrOf n))
  | 0x0A => some (.vshr (rrOf n))
  | 0x0B => some (.vsra (rrOf n))
  | 0x0C => some (.vmin (rrOf n))
  | 0x0D => some (.vmax (rrOf n))
  | 0x0E => some (.vminu (rrOf n))
  | 0x0F => some (.vmaxu (rrOf n))
  | 0x10 => some (.vabs (rrOf n))
  | 0x11 => some (.vclz (rrOf n))
  | 0x12 => some (.vpopc (rrOf n))
  | 0x13 => some (.vbfx (rrOf n))
  | 0x14 => some (.vbfi (rrOf n))
  | 0x15 => some (.vsel (rrOf n))
  | 0x16 => some (.vcmp (rrOf n))
  | 0x17 => some (.vmov (rrOf n))
  | 0x18 => some (.vmovs (rrOf n))
  | 0x19 => some (.vaddp (rrOf n))
  | _ => none

/-- Group 0x4 of the opcode map (R257). -/
def decodeGroup4 (n min : Nat) : Option Instr :=
  match min with
  | 0x00 => some (.fadd (rrOf n))
  | 0x01 => some (.fsub (rrOf n))
  | 0x02 => some (.fmul (rrOf n))
  | 0x03 => some (.ffma (rrOf n))
  | 0x04 => some (.fmin (rrOf n))
  | 0x05 => some (.fmax (rrOf n))
  | 0x06 => some (.fcmp (rrOf n))
  | 0x07 => some (.fclass (rrOf n))
  | 0x08 => some (.hadd2 (rrOf n))
  | 0x09 => some (.hmul2 (rrOf n))
  | 0x0A => some (.hfma2 (rrOf n))
  | 0x0B => some (.dadd (rrOf n))
  | 0x0C => some (.dmul (rrOf n))
  | 0x0D => some (.dfma (rrOf n))
  | _ => none

/-- Group 0x5 of the opcode map (R257). -/
def decodeGroup5 (n min : Nat) : Option Instr :=
  match min with
  | 0x00 => some (.frcp (rrOf n))
  | 0x01 => some (.frsq (rrOf n))
  | 0x02 => some (.fsqrt (rrOf n))
  | 0x03 => some (.fdiv (rrOf n))
  | 0x04 => some (.fexp2 (rrOf n))
  | 0x05 => some (.flog2 (rrOf n))
  | 0x06 => some (.fsin (rrOf n))
  | 0x07 => some (.fcos (rrOf n))
  | 0x08 => some (.ftanh (rrOf n))
  | 0x09 => some (.cvt (rrOf n))
  | 0x0A => some (.cvti (rrOf n))
  | 0x0B => some (.qdec (rrOf n))
  | 0x0C => some (.qenc (rrOf n))
  | 0x0D => some (.liadd (rrOf n))
  | 0x0E => some (.lisub (rrOf n))
  | 0x0F => some (.limul (rrOf n))
  | 0x10 => some (.lidiv (rrOf n))
  | 0x11 => some (.licmp (rrOf n))
  | 0x12 => some (.licvt (rrOf n))
  | _ => none

/-- Group 0x6 of the opcode map (R257). -/
def decodeGroup6 (n min : Nat) : Option Instr :=
  match min with
  | 0x00 => some (.vperm (rrOf n))
  | 0x01 => some (.vbcast (rrOf n))
  | 0x02 => some (.vshfl (rrOf n))
  | 0x03 => some (.vreds (rrOf n))
  | 0x04 => some (.vscan (rrOf n))
  | 0x05 => some (.vballot (rrOf n))
  | _ => none

/-- Group 0x7 of the opcode map (R257). -/
def decodeGroup7 (n min : Nat) : Option Instr :=
  match min with
  | 0x00 => some (.sld .u8 (i16Of n))
  | 0x01 => some (.sld .s8 (i16Of n))
  | 0x02 => some (.sld .u16 (i16Of n))
  | 0x03 => some (.sld .s16 (i16Of n))
  | 0x04 => some (.sld .b32 (i16Of n))
  | 0x05 => some (.sld .b64 (i16Of n))
  | 0x06 => some (.sld .b128 (i16Of n))
  | 0x08 => some (.sst .u8 (i16Of n))
  | 0x09 => some (.sst .s8 (i16Of n))
  | 0x0A => some (.sst .u16 (i16Of n))
  | 0x0B => some (.sst .s16 (i16Of n))
  | 0x0C => some (.sst .b32 (i16Of n))
  | 0x0D => some (.sst .b64 (i16Of n))
  | 0x0E => some (.sst .b128 (i16Of n))
  | 0x10 => some (.vld .u8 (i16Of n))
  | 0x11 => some (.vld .s8 (i16Of n))
  | 0x12 => some (.vld .u16 (i16Of n))
  | 0x13 => some (.vld .s16 (i16Of n))
  | 0x14 => some (.vld .b32 (i16Of n))
  | 0x15 => some (.vld .b64 (i16Of n))
  | 0x16 => some (.vld .b128 (i16Of n))
  | 0x18 => some (.vst .u8 (i16Of n))
  | 0x19 => some (.vst .s8 (i16Of n))
  | 0x1A => some (.vst .u16 (i16Of n))
  | 0x1B => some (.vst .s16 (i16Of n))
  | 0x1C => some (.vst .b32 (i16Of n))
  | 0x1D => some (.vst .b64 (i16Of n))
  | 0x1E => some (.vst .b128 (i16Of n))
  | 0x20 => some (.vldb .u8 (i16Of n))
  | 0x21 => some (.vldb .s8 (i16Of n))
  | 0x22 => some (.vldb .u16 (i16Of n))
  | 0x23 => some (.vldb .s16 (i16Of n))
  | 0x24 => some (.vldb .b32 (i16Of n))
  | 0x25 => some (.vldb .b64 (i16Of n))
  | 0x26 => some (.vldb .b128 (i16Of n))
  | 0x28 => some (.vstb .u8 (i16Of n))
  | 0x29 => some (.vstb .s8 (i16Of n))
  | 0x2A => some (.vstb .u16 (i16Of n))
  | 0x2B => some (.vstb .s16 (i16Of n))
  | 0x2C => some (.vstb .b32 (i16Of n))
  | 0x2D => some (.vstb .b64 (i16Of n))
  | 0x2E => some (.vstb .b128 (i16Of n))
  | 0x30 => some (.vpf (i16Of n))
  | _ => none

/-- Group 0x8 of the opcode map (R257). -/
def decodeGroup8 (n min : Nat) : Option Instr :=
  match min with
  | 0x00 => some (.pld (i16Of n))
  | 0x01 => some (.pst (i16Of n))
  | 0x02 => some (.pldf (i16Of n))
  | 0x03 => some (.plde (i16Of n))
  | 0x04 => some (.pste (i16Of n))
  | 0x05 => some (.pstf (i16Of n))
  | 0x06 => some (.pfe (i16Of n))
  | 0x07 => some (.ptag (i16Of n))
  | 0x08 => some (.lsl (i16Of n))
  | 0x09 => some (.lss (i16Of n))
  | 0x0A => some (.cld (i16Of n))
  | 0x0B => some (.cst (i16Of n))
  | 0x0C => some (.clde (i16Of n))
  | 0x0D => some (.cste (i16Of n))
  | 0x0E => some (.xld (i16Of n))
  | 0x0F => some (.xst (i16Of n))
  | _ => none

/-- Group 0x9 of the opcode map (R257). -/
def decodeGroup9 (n min : Nat) : Option Instr :=
  match min with
  | 0x00 => some (.vatom (rrOf n))
  | 0x01 => some (.vcas (rrOf n))
  | 0x02 => some (.vred (rrOf n))
  | 0x03 => some (.satom (rrOf n))
  | 0x04 => some (.scas (rrOf n))
  | 0x05 => some (.syna (rrOf n))
  | 0x06 => some (.synw (rrOf n))
  | _ => none

/-- Group 0xA of the opcode map (R257). -/
def decodeGroupA (n min : Nat) : Option Instr :=
  match min with
  | 0x00 => some (.fence (rrOf n))
  | 0x01 => some (.rwb (rrOf n))
  | 0x02 => some (.rinv (rrOf n))
  | 0x03 => some (.rwbi (rrOf n))
  | 0x04 => some (.lock (rrOf n))
  | 0x05 => some (.unlock (rrOf n))
  | 0x06 => some (.tlwait (rrOf n))
  | 0x07 => some (.waitc (rrOf n))
  | _ => none

/-- Group 0xB of the opcode map (R257). -/
def decodeGroupB (n min : Nat) : Option Instr :=
  match min with
  | 0x00 => some (.areg (rrOf n))
  | 0x01 => some (.acmt (rrOf n))
  | 0x02 => some (.aabt (rrOf n))
  | _ => none

/-- Group 0xC of the opcode map (R257). -/
def decodeGroupC (n min : Nat) : Option Instr :=
  match min with
  | 0x00 => some (.qput (rrOf n))
  | 0x01 => some (.qget (rrOf n))
  | 0x02 => some (.qtry (rrOf n))
  | 0x03 => some (.sweep (rrOf n))
  | 0x04 => some (.enqt (rrOf n))
  | _ => none

/-- Group 0xD of the opcode map (R257). -/
def decodeGroupD (n min : Nat) : Option Instr :=
  match min with
  | 0x00 => some (.yield (i16Of n))
  | 0x01 => some (.phase (i24Of n))
  | 0x02 => some (.spawn (i24Of n))
  | 0x03 => some (.trap (i16Of n))
  | 0x04 => some (.resume (rrOf n))
  | 0x05 => some (.nop (rrOf n))
  | 0x06 => some (.sysr (i16Of n))
  | 0x07 => some (.sysw (i16Of n))
  | _ => none

/-- Why a word is no instruction (R258). -/
inductive Reject
  /-- OPMAJ = 0xF: illegal clause, found at clause entry. -/
  | header
  /-- OPMAJ = 0xE, or an unused minor opcode: illegal instruction, found at issue. -/
  | opcode
  deriving DecidableEq, Repr

/-- The instruction the opcode of `n` names, with its fields. -/
def decodeOp (n maj min : Nat) : Option Instr :=
  match maj with
  | 0x0 => decodeGroup0 n min
  | 0x1 => decodeGroup1 n min
  | 0x2 => decodeGroup2 n min
  | 0x3 => decodeGroup3 n min
  | 0x4 => decodeGroup4 n min
  | 0x5 => decodeGroup5 n min
  | 0x6 => decodeGroup6 n min
  | 0x7 => decodeGroup7 n min
  | 0x8 => decodeGroup8 n min
  | 0x9 => decodeGroup9 n min
  | 0xA => decodeGroupA n min
  | 0xB => decodeGroupB n min
  | 0xC => decodeGroupC n min
  | 0xD => decodeGroupD n min
  | _ => none

/-- The instruction of a 64-bit word. -/
def decode (w : Word) : Except Reject Instr :=
  let n := w.toNat
  if cut n 60 4 = 15 then .error .header
  else
    match decodeOp n (cut n 60 4) (cut n 54 6) with
    | some i => .ok i
    | none => .error .opcode

/-! ### Encoding words -/

def ctlBits (c : Ctl) : Nat :=
  c.ch.toNat * 2 ^ 52 + b2n c.ws * 2 ^ 51 + c.st.toNat * 2 ^ 48 + c.ga.toNat * 2 ^ 44 + c.gb.toNat * 2 ^ 40

/-- Bits [53:0] of a word. -/
def Body.toNat : Body → Nat
  | .rr w => ctlBits w.ctl + w.d.toByte.toNat * 2 ^ 32 + w.a.toByte.toNat * 2 ^ 24 + w.b.toByte.toNat * 2 ^ 16 +
      w.c.toByte.toNat * 2 ^ 8 + w.e.toNat
  | .i16 w => ctlBits w.ctl + w.d.toByte.toNat * 2 ^ 32 + w.a.toByte.toNat * 2 ^ 24 + w.b.toByte.toNat * 2 ^ 16 +
      w.imm.toNat
  | .i24 w => ctlBits w.ctl + w.d.toByte.toNat * 2 ^ 32 + w.a.toByte.toNat * 2 ^ 24 + w.imm.toNat
  | .i32 w => ctlBits w.ctl + w.d.toByte.toNat * 2 ^ 32 + w.imm.toNat

def OpInfo.word (o : OpInfo) : Word := BitVec.ofNat 64 (o.maj * 2 ^ 60 + o.min * 2 ^ 54 + o.body.toNat)

/-! ### Engine commands -/

/-- [55] CTX and [54] STAT (R361). -/
def cmdCtlOf (n : Nat) : CmdCtl := ⟨cut n 55 1 = 1, cut n 54 1 = 1⟩

/-- LENH·2^13 + LENL (R371). -/
def copyLen (n0 n1 : Nat) : BitVec 16 := BitVec.ofNat 16 (cut n0 49 3 * 2 ^ 13 + cut n1 0 13)

/-- The command of words 0 and 1; none where a bit its layout leaves undefined is nonzero or OPC is no command's (R358, R361). -/
def decodeCmd (w0 w1 : Word) : Option Instr :=
  let n := w0.toNat
  let m := w1.toNat
  let k := cmdCtlOf n
  match cut n 56 8 with
  | 0x01 => if cut n 0 25 = 0 ∧ cut m 32 32 = 0 then
      some (.mxacc ⟨k, BitVec.ofNat 3 (cut n 51 3), BitVec.ofNat 3 (cut n 48 3), BitVec.ofNat 3 (cut n 45 3),
        BitVec.ofNat 2 (cut n 43 2), BitVec.ofNat 2 (cut n 41 2), BitVec.ofNat 6 (cut n 35 6), BitVec.ofNat 6 (cut n 29 6),
        BitVec.ofNat 4 (cut n 25 4), BitVec.ofNat 32 (cut m 0 32)⟩) else none
  | 0x02 => if cut n 0 50 = 0 ∧ m = 0 then
      some (.mxzero ⟨k, BitVec.ofNat 3 (cut n 51 3), cut n 50 1 = 1⟩) else none
  | 0x03 => if cut n 1 13 = 0 then
      some (.mxdrain ⟨k, BitVec.ofNat 3 (cut n 51 3), BitVec.ofNat 3 (cut n 48 3), BitVec.ofNat 2 (cut n 46 2),
        BitVec.ofNat 2 (cut n 44 2), BitVec.ofNat 6 (cut n 38 6), BitVec.ofNat 6 (cut n 32 6), BitVec.ofNat 18 (cut n 14 18),
        cut n 0 1 = 1, w1⟩) else none
  | 0x04 => if cut n 0 25 = 0 ∧ m = 0 then
      some (.mxdadd ⟨k, BitVec.ofNat 3 (cut n 51 3), BitVec.ofNat 3 (cut n 48 3), cut n 47 1 = 1, BitVec.ofNat 10 (cut n 37 10),
        BitVec.ofNat 6 (cut n 31 6), BitVec.ofNat 6 (cut n 25 6)⟩) else none
  | 0x05 => if cut n 0 36 = 0 then
      some (.mxring ⟨k, BitVec.ofNat 2 (cut n 52 2), BitVec.ofNat 6 (cut n 46 6), BitVec.ofNat 10 (cut n 36 10), w1⟩) else none
  | 0x06 => if cut n 0 44 = 0 ∧ m = 0 then
      some (.mxarm ⟨k, BitVec.ofNat 3 (cut n 51 3), cut n 50 1 = 1, BitVec.ofNat 6 (cut n 44 6)⟩) else none
  | 0x10 => some (.cpy ⟨k, BitVec.ofNat 2 (cut n 52 2), BitVec.ofNat 49 (cut n 0 49), BitVec.ofNat 2 (cut m 62 2),
        BitVec.ofNat 49 (cut m 13 49), copyLen n m⟩)
  | 0x11 => if cut n 0 6 = 0 ∧ cut m 49 15 = 0 then
      some (.cpyg ⟨k, BitVec.ofNat 4 (cut n 50 4), BitVec.ofNat 12 (cut n 38 12), BitVec.ofNat 16 (cut n 22 16),
        BitVec.ofNat 16 (cut n 6 16), BitVec.ofNat 49 (cut m 0 49)⟩) else none
  | 0x12 => if cut n 45 9 = 0 ∧ cut m 45 19 = 0 then
      some (.cpys ⟨k, BitVec.ofNat 45 (cut n 0 45), BitVec.ofNat 45 (cut m 0 45)⟩) else none
  | 0x13 => if cut m 13 19 = 0 then
      some (.cpfill ⟨k, BitVec.ofNat 2 (cut n 52 2), BitVec.ofNat 49 (cut n 0 49), copyLen n m, BitVec.ofNat 32 (cut m 32 32)⟩)
      else none
  | 0x20 => if cut n 54 2 = 0 ∧ cut n 0 20 = 0 then
      some (.nsend ⟨BitVec.ofNat 12 (cut n 42 12), BitVec.ofNat 22 (cut n 20 22), w1⟩) else none
  | 0x21 => if cut n 54 2 = 0 ∧ cut n 0 20 = 0 then
      some (.npost ⟨BitVec.ofNat 12 (cut n 42 12), BitVec.ofNat 22 (cut n 20 22), w1⟩) else none
  | 0x30 => if cut n 54 2 = 0 ∧ cut n 0 38 = 0 then
      some (.xtask ⟨BitVec.ofNat 12 (cut n 42 12), cut n 41 1 = 1, BitVec.ofNat 3 (cut n 38 3), w1⟩) else none
  | _ => none

/-- Word 0 of a matrix or copy command below its fields. -/
def cmdHead (opc : Nat) (k : CmdCtl) : Nat := opc * 2 ^ 56 + b2n k.ectx * 2 ^ 55 + b2n k.stat * 2 ^ 54

/-- Words 0 and 1 of a command; none for what is no command. -/
def encodeCmd : Instr → Option (Nat × Nat)
  | .mxacc c => some (cmdHead 0x01 c.ctl + c.tile.toNat * 2 ^ 51 + c.sla.toNat * 2 ^ 48 + c.slb.toNat * 2 ^ 45 +
      c.ra.toNat * 2 ^ 43 + c.rb.toNat * 2 ^ 41 + c.mm1.toNat * 2 ^ 35 + c.nm1.toNat * 2 ^ 29 + c.km1.toNat * 2 ^ 25,
      c.sbi.toNat)
  | .mxzero c => some (cmdHead 0x02 c.ctl + c.tile.toNat * 2 ^ 51 + b2n c.ity * 2 ^ 50, 0)
  | .mxdrain c => some (cmdHead 0x03 c.ctl + c.tile.toNat * 2 ^ 51 + c.slo.toNat * 2 ^ 48 + c.dst.toNat * 2 ^ 46 +
      c.ro.toNat * 2 ^ 44 + c.mm1.toNat * 2 ^ 38 + c.nm1.toNat * 2 ^ 32 + c.rstr.toNat * 2 ^ 14 + b2n c.clr, c.addr.toNat)
  | .mxdadd c => some (cmdHead 0x04 c.ctl + c.tile.toNat * 2 ^ 51 + c.tt.toNat * 2 ^ 48 + b2n c.tcx * 2 ^ 47 +
      c.tcore.toNat * 2 ^ 37 + c.mm1.toNat * 2 ^ 31 + c.nm1.toNat * 2 ^ 25, 0)
  | .mxring c => some (cmdHead 0x05 c.ctl + c.ring.toNat * 2 ^ 52 + c.nsm1.toNat * 2 ^ 46 + c.szm1.toNat * 2 ^ 36,
      c.base.toNat)
  | .mxarm c => some (cmdHead 0x06 c.ctl + c.tile.toNat * 2 ^ 51 + b2n c.ordr * 2 ^ 50 + c.ncm1.toNat * 2 ^ 44, 0)
  | .cpy c => some (cmdHead 0x10 c.ctl + c.ssp.toNat * 2 ^ 52 + c.len.toNat / 2 ^ 13 * 2 ^ 49 + c.src.toNat,
      c.dsp.toNat * 2 ^ 62 + c.dsta.toNat * 2 ^ 13 + c.len.toNat % 2 ^ 13)
  | .cpyg c => some (cmdHead 0x11 c.ctl + c.esz.toNat * 2 ^ 50 + c.nim1.toNat * 2 ^ 38 + c.idx.toNat * 2 ^ 22 +
      c.dstw.toNat * 2 ^ 6, c.base.toNat)
  | .cpys c => some (cmdHead 0x12 c.ctl + c.sstn.toNat, c.dstn.toNat)
  | .cpfill c => some (cmdHead 0x13 c.ctl + c.dsp.toNat * 2 ^ 52 + c.len.toNat / 2 ^ 13 * 2 ^ 49 + c.dsta.toNat,
      c.pat.toNat * 2 ^ 32 + c.len.toNat % 2 ^ 13)
  | .nsend c => some (0x20 * 2 ^ 56 + c.conn.toNat * 2 ^ 42 + c.len.toNat * 2 ^ 20, c.va.toNat)
  | .npost c => some (0x21 * 2 ^ 56 + c.conn.toNat * 2 ^ 42 + c.len.toNat * 2 ^ 20, c.va.toNat)
  | .xtask c => some (0x30 * 2 ^ 56 + c.conn.toNat * 2 ^ 42 + b2n c.path * 2 ^ 41 + c.dec.toNat * 2 ^ 38, c.va.toNat)
  | _ => none

/-- The words of an instruction or command, first word first; an event has none. -/
def encode (i : Instr) : List Word :=
  match i.info with
  | some o => [o.word]
  | none =>
    match encodeCmd i with
    | some (w0, w1) => [BitVec.ofNat 64 w0, BitVec.ofNat 64 w1]
    | none => []

/-! ### Clause headers (R254) -/

def Header.tag (w : Word) : Nat := bits w 63 60
def Header.cls (w : Word) : Nat := bits w 59 56
/-- Instructions − 1. -/
def Header.count (w : Word) : Nat := bits w 55 52
/-- Bit p: path p must be zero. -/
def Header.wait (w : Word) : Nat := bits w 51 44

/-- A word that is a header with nothing reserved (R254, R258). -/
def Header.ok (w : Word) : Bool := Header.tag w = 15 && Header.cls w ≤ 6 && bits w 43 16 = 0

/-- The header of a clause of class `cls` with `n` instructions and the wait mask `wt`. -/
def Header.mk (cls n wt : Nat) : Word := BitVec.ofNat 64 (15 * 2 ^ 60 + cls * 2 ^ 56 + (n - 1) * 2 ^ 52 + wt * 2 ^ 44)

/-- Does the class allow the major group (R255)? -/
def classAdmits (cls maj : Nat) : Bool :=
  maj = 0 || maj = 1 ||
  (match cls with
   | 0 => maj = 2
   | 1 => maj = 3 || maj = 4 || maj = 6
   | 2 => maj = 3 || maj = 5
   | 3 => maj = 7 || maj = 8
   | 4 => maj = 9 || maj = 0xA || maj = 0xB
   | 5 => maj = 0xC
   | 6 => maj = 0xD
   | _ => false)

/-- The class a clause of one instruction of group `maj` may have. -/
def classOf (maj : Nat) : Nat :=
  match maj with
  | 3 | 4 | 6 => 1
  | 5 => 2
  | 7 | 8 => 3
  | 9 | 0xA | 0xB => 4
  | 0xC => 5
  | 0xD => 6
  | _ => 0

/-- Is the opcode a control transfer (R256)? -/
def isTransfer (maj min : Nat) : Bool :=
  maj = 2 && (min ≤ 7 || (9 ≤ min && min ≤ 0xC) || min = 0xF)

/-! ### The host's words -/

/-- What the decoder reads from the word, or the pair of words, whose bits are `w` (bit 0 the least significant bit of the first
word). A row of at most 64 bits is an instruction word, a longer one an engine command. -/
def decodeTableWord (nbits w : Nat) : Option Instr :=
  if nbits ≤ 64 then
    match decode (BitVec.ofNat 64 w) with
    | .ok i => some i
    | .error _ => none
  else decodeCmd (BitVec.ofNat 64 w) (BitVec.ofNat 64 (w / 2 ^ 64))

end Sys2Proof
end

