-- ==== Sys2Proof/Config.lean ====
section
/-! DEFINITION. What one part fixes and the spec leaves open: constants and functions without a body, so that nothing can be
proved of their values. Each is named in the assumption log. -/

namespace Sys2Proof

/-- The -L fitting (R1); otherwise -H (log 3). -/
opaque Config.fittingL : Bool

/-- STEPPING of the identity register (R2, log 3). -/
opaque Config.stepping : BitVec 8

/-- Bytes of media installed on an -L part beyond the first 128 MiB, which every -L part has (R69, log 3). -/
opaque Config.mediaMore : Nat

/-- Bytes of media installed on an -L part. -/
def Config.mediaBytes : Nat := 2 ^ 27 + Config.mediaMore

/-- Blocks of 128 MiB that an -L part never offers as dynamic capacity (R69, log 3). -/
opaque Config.runtimeBlock : Nat → Bool

/-- The HDM decoder of a second-tier address (R69, log 3). -/
opaque Config.hdmDecoder : Nat → BitVec 3

/-- Reset values of PLIM, FMAX and FMIN by island (R13), and the rated maximum of an island whose clock an attached standard sets (R20, log 6). -/
opaque Config.plimReset : Nat → BitVec 16
opaque Config.fmaxReset : Nat → BitVec 12
opaque Config.fminReset : Nat → BitVec 12
opaque Config.ratedMax : Nat → Nat

/-- The supply voltage, in mV, that an island's controller sets for a frequency (R13, log 6). -/
opaque Config.supplyFor : Nat → Nat → BitVec 16

/-- Whether this fitting leaves an island unused (R11, log 3); core islands are used on both (R5). -/
opaque Config.unusedIsland : Nat → Bool

/-- The lowest step of an island whose clock an attached standard sets (R20, log 6). -/
opaque Config.lowestStep : Nat → Nat

/-- Power of an island in units of 10 µW and its temperature in units of 0.125 °C at a frequency in MHz with some of every ten clock
windows stopped: island, power now, temperature now, frequency now; frequency, windows stopped (R13, R16, log 6). -/
opaque Config.powerAt : Nat → Nat → Int → Nat → Nat → Nat → Nat
opaque Config.tempAt : Nat → Nat → Int → Nat → Nat → Nat → Int

/-- Public keys of the Uliolmou slots (R62, log 8). -/
opaque Config.keySlot : BitVec 4 → List Byte

/-- Cryptographic functions of R32, R62 and R64, named by their standards only (log 8): of GCM, byte i of the key stream (key, nonce)
and the tag (key, nonce, additional data, ciphertext); SHA-384; and the two signature checks (key, message, signature). -/
opaque Config.gcmStream : BitVec 256 → BitVec 96 → Nat → Byte
opaque Config.gcmTag : BitVec 256 → BitVec 96 → List Byte → List Byte → BitVec 128
opaque Config.sha384 : List Byte → BitVec 384
opaque Config.ed25519Ok : List Byte → BitVec 384 → List Byte → Bool
opaque Config.mldsaOk : List Byte → BitVec 384 → List Byte → Bool

/-- The block coding of a surface (R83, log 15): decoded bytes of a coded block and its metadata byte, none where the coding does not
check; coded bytes and metadata of a block. -/
opaque Config.decodeBlock : BitVec 16384 → Byte → Option (BitVec 16384)
opaque Config.codeBlock : BitVec 16384 → BitVec 16384 × Byte

/-- Whether an access of a context to a page uses the old ROOT and TEN while it may use either (R75, log 4). -/
opaque Config.useStale : Nat → BitVec 12 → Nat → Bool

/-- Free values, applied to State.freeCtr (log 4). -/
opaque Config.freeBit : Nat → Bool
opaque Config.freeWord : Nat → BitVec 64

end Sys2Proof
end

