-- ==== Sys2Proof/Machine/Tab.lean ====
section
/-! DEFINITION. Sparse tables in one canonical form, and the memory built from one: addresses strictly rising, no entry equal to
what an unlisted address reads as. -/

/-- `a` placed before the first element it may precede. -/
def List.placeBy {α : Type} (le : α → α → Bool) (a : α) : List α → List α
  | [] => [a]
  | b :: r => if le a b then a :: b :: r else b :: List.placeBy le a r

/-- The list in the order `le`; elements that may stand either way keep their order. -/
def List.sortBy {α : Type} (le : α → α → Bool) : List α → List α
  | [] => []
  | a :: r => List.placeBy le a (List.sortBy le r)

namespace Sys2Proof.Machine

/-- A sparse table: keys strictly rising, no entry holding the default. -/
abbrev Tab (α : Type) := List (Nat × α)

/-- What the table holds at `k`, `d` where nothing is listed. -/
def Tab.get {α : Type} (d : α) : Tab α → Nat → α
  | [], _ => d
  | (j, v) :: r, k => if j = k then v else Tab.get d r k

/-- The table without its entry at `k`. -/
def Tab.drop {α : Type} : Tab α → Nat → Tab α
  | [], _ => []
  | (j, v) :: r, k => if j = k then Tab.drop r k else (j, v) :: Tab.drop r k

/-- `v` placed before the first larger key. -/
def Tab.ins {α : Type} (k : Nat) (v : α) : Tab α → Tab α
  | [] => [(k, v)]
  | (j, x) :: r => if k < j then (k, v) :: (j, x) :: r else (j, x) :: Tab.ins k v r

/-- The table with `v` at `k`; the default is not listed. -/
def Tab.set {α : Type} [DecidableEq α] (d : α) (t : Tab α) (k : Nat) (v : α) : Tab α :=
  if v = d then Tab.drop t k else Tab.ins k v (Tab.drop t k)

/-- The canonical form: keys strictly rising and no default listed. -/
def Tab.wf {α : Type} [DecidableEq α] (d : α) : Tab α → Bool
  | [] => true
  | [(_, v)] => decide (v ≠ d)
  | (j, v) :: (k, w) :: r => decide (v ≠ d) && decide (j < k) && Tab.wf d ((k, w) :: r)

/-- Main memory by 52-bit physical address (R69): what the media and the second tier hold. -/
abbrev Memory := List Host.Cell

/-- What a byte that nothing has written reads as (DESIGN CHOICE, log 9). -/
def Memory.unlisted : Byte := 0

def Memory.read (m : Memory) (a : Nat) : Byte := Tab.get Memory.unlisted m a

def Memory.write (m : Memory) (a : Nat) (b : Byte) : Memory := Tab.set Memory.unlisted m a b

/-- The canonical form of memory. -/
def Memory.wf (m : Memory) : Bool := Tab.wf Memory.unlisted m

/-- `n` bytes from `a`, lowest address first, as a little-endian number. -/
def Memory.readLE (m : Memory) (a : Nat) : Nat → Nat
  | 0 => 0
  | n + 1 => (m.read a).toNat + 256 * Memory.readLE m (a + 1) n

/-- `n` bytes of the number `v` written from `a`, little-endian; bit i of `mask` says whether byte i is written. -/
def Memory.writeLE (m : Memory) (a : Nat) : Nat → Nat → Nat → Memory
  | 0, _, _ => m
  | n + 1, v, mask =>
    let m' := if mask % 2 = 1 then m.write a (BitVec.ofNat 8 v) else m
    Memory.writeLE m' (a + 1) n (v / 256) (mask / 2)

end Sys2Proof.Machine
end

