-- ==== Sys2Proof/Machine/Group.lean ====
section
/-! DEFINITION. What one group owns (09_core_execution.md, R163 to R181), the accesses it has in flight, and its atomic region
(17_isa_atomic_regions.md, R340 to R347). -/

namespace Sys2Proof.Machine

/-- What a latch holds (R174): nothing (the instruction writes no register), the result of a scalar instruction, one or two
words per lane, or the result of load `id` that has not returned. -/
inductive LatchV
  | none
  | s (w : Word)
  | v (lo hi : Lanes)
  | pend (id : Nat)
  deriving DecidableEq, Repr

/-- A fault record (R112). -/
structure FRec where
  addr : Word
  kind : BitVec 8
  size : BitVec 3
  wr : Bool
  at' : Bool
  sub : BitVec 4
  dec : BitVec 4
  deriving DecidableEq, Repr

/-- Memory types of a leaf (R81). -/
inductive MType
  | wb | sm | uc | wc
  deriving DecidableEq, Repr

/-- What an access does at its target. -/
inductive AccOp
  /-- Load of 2^size bytes, sign-extended when `signed`. -/
  | load (signed : Bool)
  | store
  /-- Read-modify-write of R327: FN, and whether a value is returned. -/
  | atom (fn : BitVec 4) (ret : Bool)
  | cas
  /-- VPF (R322). -/
  | prefetch
  /-- RWB, RINV, RWBI: one entry for each line (R336). -/
  | writeback | invalidate | writebackInv
  | lock | unlock
  /-- A scratchpad-level access; its values are in its lanes once performed. -/
  | spad
  /-- SYNA or SYNW (R331). -/
  | syn
  /-- ACMT in progress (R350). -/
  | commit
  deriving DecidableEq, Repr

/-- Where the result of an access goes. -/
inductive Dst
  | none
  /-- Scalar registers from `r`, `n` of them. -/
  | s (r : BitVec 6) (n : Nat)
  /-- Vector registers from `r`, `n` of them; `k`: K is written too (VCAS). -/
  | v (r : BitVec 6) (n : Nat) (k : Bool)
  deriving DecidableEq, Repr

/-- One lane of an access, 96 for a scalar one. -/
structure LaneAcc where
  lane : BitVec 7
  va : Word
  pa : Nat
  mt : MType
  data : BitVec 128
  cmp : Word
  res : BitVec 128
  done : Bool
  fault : Option FRec
  /-- CO of the leaf (R72): its second-tier requests are coherent. -/
  co : Bool
  deriving DecidableEq, Repr

/-- An access in flight (R180). -/
structure Access where
  id : Nat
  path : BitVec 3
  op : AccOp
  hint : BitVec 2
  size : BitVec 3
  lanes : List LaneAcc
  dst : Dst
  pc : Word
  cpos : BitVec 4
  /-- Every lane has been performed at its target. -/
  performed : Bool
  /-- Acknowledgements of targets outside the L2 still awaited (R215). -/
  acks : Nat
  /-- Written to its destination and waiting only for earlier accesses of its path to be counted. -/
  retired : Bool
  /-- Latched when issued after viral entry (R116). -/
  dropped : Bool
  /-- A load of an open region: its words are tracked when it returns (R343). -/
  region : Bool
  /-- The timebase at its issue (R118). -/
  since : Word
  deriving DecidableEq, Repr

/-- The tag of one lane of a register or latch in a region (R342): tracked word j plus a constant, or opaque of a set. -/
inductive RTag
  | plain
  | word (j : BitVec 2) (c : Half)
  | opaq (m : BitVec 4)
  deriving DecidableEq, Repr

/-- A tracked word (R343): address, physical address, value. -/
structure Tracked where
  va : Word
  pa : Nat
  val : Half
  deriving DecidableEq, Repr

/-- A recorded compare (R345). `fmt` 0 signed, 1 unsigned, 2 FP32, 3 LI32. -/
structure Constraint where
  j : BitVec 2
  c : Half
  rel : BitVec 3
  fmt : BitVec 2
  p : Half
  outcome : Bool
  deriving DecidableEq, Repr

/-- One entry of a write set (R346): `n` words, each with value and tag. -/
structure WEntry where
  va : Word
  pa : Nat
  two : Bool
  lo : Half
  tlo : RTag
  hi : Half
  thi : RTag
  deriving DecidableEq, Repr

/-- What the commit engine keeps for one lane of a region (R340). -/
structure RLane where
  lane : BitVec 7
  tags : Tab RTag
  reads : List Tracked
  cons : List Constraint
  ctl : BitVec 4
  writes : List WEntry
  failed : Bool
  ckpt : List (BitVec 6 × Half)
  /-- Tags of the latches of the clause, newest first; a pair has two. -/
  latches : List (RTag × RTag)
  deriving DecidableEq, Repr

/-- An open region (R340, R341). -/
structure Region where
  lanes : Mask
  state : List RLane
  depth0 : Nat
  count : Nat
  long : Bool
  ord : BitVec 2
  scope : BitVec 3
  /-- ACMT in progress: the next lane to commit, K so far, the timestamp of the lane before, and fault records met. -/
  committing : Bool
  /-- The stamp at which ACMT began (R53). -/
  since : Nat
  nextLane : Nat
  kSoFar : Mask
  lastTs : BitVec 48
  recs : List (BitVec 7 × FRec)
  /-- Lines the commit engine holds for the lane being committed (R351). -/
  held : List Nat
  deriving DecidableEq, Repr

/-- A group's write-combining buffer (R81, R219). -/
structure WcBuf where
  line : Nat
  data : BitVec 1024
  mask : BitVec 128
  /-- The accesses whose stores it holds. -/
  ids : List Nat
  deriving DecidableEq, Repr

/-- The operation a blocked group performs when its wait ends without the group issuing again. -/
inductive Pend
  /-- The instruction is executed again (R141). -/
  | retry
  /-- A full/empty access with its lanes (R192): tag awaited full, tag set, reads, writes. -/
  | fe (form : BitVec 4) (acc : Access)
  /-- SYNW (R333). -/
  | synw (addr : BitVec 32) (rel : BitVec 3) (val : Half) (ord : BitVec 2) (scope : BitVec 3) (acc : Access)
  /-- QGET (R360). -/
  | qget (q : BitVec 4) (d : BitVec 8)
  /-- ENQT goes on with lane `next`, having accepted the lanes of `k` (R149). -/
  | enqt (next : Nat) (k : Mask)
  deriving DecidableEq, Repr

/-- What a blocked group waits for (R143, R144). WKIND 0..5 are charged; 15 stands for the waits that are not: a page
request, a skim hold, a hold of issue, an atomic region. -/
structure Wait where
  kind : BitVec 4
  obj : Word
  expect : Word
  lane : BitVec 8
  stamp : Nat
  pend : Pend
  deriving DecidableEq, Repr

/-- Where a group is in its life. -/
inductive Life
  /-- No group in the slot. -/
  | none
  /-- Holds its slot. -/
  | running
  /-- EXIT executed; the slot is held until its counters are zero (R282). -/
  | draining
  /-- Saved whole by pre-emption (R141). -/
  | saved
  deriving DecidableEq, Repr

/-- A late fault waiting for the accesses issued after it (R402). -/
structure Late where
  /-- The access. -/
  id : Nat
  pc : Word
  cpos : BitVec 4
  recs : List (BitVec 7 × FRec)
  deriving DecidableEq, Repr

/-- One group. -/
structure Group where
  core : BitVec 10
  slot : BitVec 3
  ctx : BitVec 12
  life : Life
  /-- Key of its launch; 0 where there is none. -/
  launch : Nat
  /-- Key of its team. -/
  team : Nat
  /-- sr.group, sr.team, sr.cluster.x, .y, .z (R127). -/
  idx : BitVec 4
  teamPos : BitVec 8
  cx : BitVec 16
  cy : BitVec 16
  cz : BitVec 16
  place : Option (BitVec 5)
  /-- sr.mswin, sr.spbase, and the bytes of the team reservation; the lane-slice band. -/
  mswin : BitVec 18
  spbase : BitVec 18
  spbytes : BitVec 19
  slices : BitVec 18
  slicew : BitVec 8
  /-- s0..s63; what s60..s62 show is EM (R168). -/
  sregs : Vector Word 64
  /-- c0..c6. -/
  preds : BitVec 7
  k : Mask
  em : Mask
  live : Mask
  vregs : Vector Lanes 64
  /-- VA of the header of the current clause; of the next one when not in a clause. -/
  pc : Word
  cpos : BitVec 4
  inClause : Bool
  hdr : Word
  latches : List LatchV
  /-- Hardware entries 0..7 of the mask stack, newest first; the rest is in the window (R173). -/
  mstack : List (BitVec 128)
  msdep : BitVec 8
  /-- AOV NQ UF OF LX of sr.gsf (R234), bit 4 to bit 0. -/
  gsf : BitVec 5
  dline : BitVec 13
  tlown : Vector Word 8
  /-- Pending word 0 of q0, q2, q4, q8 (R357). -/
  half : List (BitVec 4 × Word)
  /-- Accesses in flight, oldest first. -/
  inflight : List Access
  pts : BitVec 48
  wc : Option WcBuf
  region : Option Region
  wait : Option Wait
  hmode : Bool
  /-- The kind of the trap being handled (R114). -/
  hkind : BitVec 8
  /-- The latches that the latch image of its trap frame holds, newest first (R112, log 17): the data of a load that returns while the
  handler runs goes here. -/
  image : List LatchV
  /-- Asynchronous traps due (R109): viral entry, waiting budget, queue spill. -/
  dueViral : Bool
  dueBudget : Bool
  dueSpill : Bool
  /-- Lanes whose token found its backing ring full, with the handle (R152). -/
  spills : List (BitVec 7 × BitVec 16)
  late : Option Late
  /-- Batch slot (R158): address, words in all, words popped. -/
  batch : Option (Word × Nat × Nat)
  /-- Stamp of its last clause start (R164). -/
  lastStart : Nat
  /-- A YIELD or PHASE of this clause that takes effect at its end (R139): successor, carry set, join counter, phase. -/
  endSwitch : Option (Word × BitVec 3 × Word × Bool)
  /-- The block of a SWEEP under way, as one number: read once, when it starts (R376). -/
  sweep : Option Nat
  deriving DecidableEq, Repr

end Sys2Proof.Machine
end

