-- ==== Sys2Proof/Machine/Part.lean ====
section
/-! DEFINITION. The state of the part outside its groups: power and health (01), Kalren (02), CXL, extents, images and tasks (03),
translation (04), queues and launches (05), scheduling (07), expert queues (08), the on-chip memories and coherence (10, 11) and
the engines (18). Registers of the management space are held in one table, State.mgmt. -/

namespace Sys2Proof.Machine

/-! ### Power, islands, health (01) -/

/-- The entry stage (R8): whether the feed is in range, whether an excursion or the stable time is being timed. -/
structure Entry where
  inRange : Bool
  pwrbad : Bool
  timedOut : Bool
  held : Bool
  deriving DecidableEq, Repr

/-- One clock island beyond its registers (R13, R16, R18). -/
structure Island where
  mhz : BitVec 12
  /-- Supply in mV, as its controller has set it (R13). -/
  supply : BitVec 16
  cycles : Word
  /-- Thousandths of the cycle under way (R15). -/
  part : Nat
  held : Bool
  tripped : Bool
  regFault : Bool
  /-- Clock windows of the last ten that were stopped, newest in bit 0. -/
  windows : BitVec 10
  stopped : Bool
  /-- The frequency Pyrano steps down to and has not yet applied; 0 for none (R18). -/
  stepTo : Nat
  deriving DecidableEq, Repr

/-! ### Kalren (02) -/

/-- The link layer of a port (R27 to R29). -/
structure Port where
  lseq : BitVec 12
  lack : BitVec 12
  discarding : Bool
  retries : Nat
  replay : List Frame
  /-- Frames that wait for credits or for room in the replay buffer: their connection, and the frame before it is sealed. -/
  waiting : List (Nat × Frame)
  /-- Credits the peer has left for us, VC 0..3. -/
  credits : Vector Nat 4
  /-- Credits of the peer that we have not yet returned. -/
  owed : Vector Nat 4
  /-- Retry requests in this health window (R28). -/
  window : Nat
  /-- Retry requests sent in a row without LACK advancing, and the lanes still to train (R28). -/
  asked : Nat
  retraining : BitVec 4
  deriving DecidableEq, Repr

/-- The command of the network engine or the expander intake a message belongs to (R44). -/
structure CmdRef where
  core : BitVec 10
  ctx : BitVec 12
  tl : BitVec 3
  num : Word
  deriving DecidableEq, Repr

/-- One packet of a message in flight (R37). -/
structure Packet where
  pidx : Nat
  sent : Nat
  acked : Bool
  nobuf : Bool
  backoff : Nat
  /-- Timebase at its last transmission, or at the NOBUF that answered it. -/
  last : Word
  /-- Its last answer was NOBUF. -/
  refused : Bool
  /-- Its frame waits at a port. -/
  queued : Bool
  deriving DecidableEq, Repr

/-- A message sent and not finally acknowledged (R35); `fixed` holds the bytes of messages of the part itself (R67). -/
structure TxMsg where
  msn : BitVec 16
  va : Word
  len : Nat
  fixed : Option (List Byte)
  cmd : Option CmdRef
  /-- The serial of the task packet it is, 0 for none. -/
  serial : Word
  packets : List Packet
  deriving DecidableEq, Repr

/-- A posted buffer (R38). -/
structure Posted where
  va : Word
  len : Nat
  cmd : Option CmdRef
  deriving DecidableEq, Repr

/-- A message being received (R39, R41, R42). -/
structure RxMsg where
  msn : BitVec 16
  buf : Posted
  got : List Nat
  count : Nat
  total : Option Nat
  final : Option (Nat × List Byte)
  placed : Nat
  trunc : Bool
  faulted : Bool
  /-- The bytes, where the buffer is the part's own: of the intake (R65), of a task result (R375). -/
  own : Option (List Byte)
  /-- Timebase at its last packet. -/
  last : Word
  /-- Highest timestamp of its placements (R217). -/
  ts : BitVec 48
  deriving DecidableEq, Repr

/-- A message that is complete (R43, R45). -/
structure RxDone where
  msn : BitVec 16
  status : BitVec 4
  bytes : Nat
  ts : BitVec 48
  own : Bool
  deriving DecidableEq, Repr

/-- A task packet sent whose result is awaited (R375): serial, RTAG, packet buffer, when it was sent, mailbox slot on PATH 1. -/
structure Await where
  serial : Word
  rtag : Word
  va : Word
  cmd : CmdRef
  start : Word
  slot : Option (BitVec 3 × BitVec 6)
  deriving DecidableEq, Repr

/-- What a connection keeps beside its control block (R30 to R45). -/
structure Conn where
  keyed : Bool
  tx : List TxMsg
  waitTx : List TxMsg
  rr : Nat
  posted : List Posted
  rx : List RxMsg
  done : List RxDone
  /-- Ordered mode: next expected packet. -/
  nextPidx : Nat
  /-- Last SERIAL the intake accepted (R66), and the next task serial to send (R375). -/
  lastSerial : Word
  serial : Word
  awaiting : List Await
  /-- Ordered mode: the highest timestamp of its placements (R222). -/
  ts : BitVec 48
  deriving DecidableEq, Repr

/-! ### CXL, extents, images and tasks (03) -/

/-- State of a page in the snoop filter (R50). -/
inductive FState
  | i | s | e
  deriving DecidableEq, Repr

/-- Who waits on a page (R78): a group, an engine stream, or the queue hardware. -/
inductive Waiter
  | group (core : BitVec 10) (slot : BitVec 3)
  | engine (core : BitVec 10) (ctx : BitVec 12) (tl : BitVec 3)
  | queue (ctx : BitVec 12) (qh : BitVec 16)
  /-- The task intake, for argument words (R392). -/
  | intake
  /-- The part's own accesses to physical addresses: tables, indices, frames (R71, R203). -/
  | part
  deriving DecidableEq, Repr

/-- A requester at a home (R204): an access of a group, or one that waits where it stands. -/
inductive Asker
  | acc (core : BitVec 10) (slot : BitVec 3) (id : Nat)
  | now (who : Waiter)
  deriving DecidableEq, Repr

/-- A request at the filter (R50, R52): of a head, or of a requester of the part; address; exclusive; the 64 bytes of a write. -/
structure FReq where
  head : Option (BitVec 6)
  who : Option Waiter
  pa : Nat
  excl : Bool
  data : Option (List Byte)
  deriving DecidableEq, Repr

/-- What the part sends toward heads or its host (output). -/
inductive HeadMsg
  /-- One message of a page snoop (R51) of a head, for four lines of 64 bytes: invalidate, else data. -/
  | snoop (head page block : Nat) (inv : Bool)
  /-- A read or write of a head served: the 64 bytes of a read. -/
  | data (head pa : Nat) (bytes : List Byte)
  | done (head pa : Nat)
  /-- The standard memory-error response, with the extent-gone cause or not (R59, R60). -/
  | error (head pa : Nat) (gone : Bool)
  /-- BIConflict (R52). -/
  | conflict (head pa : Nat)
  /-- A data snoop of the host for a half of a line, for a write or not (R56). -/
  | half (pa : Nat) (wr : Bool)
  /-- The answer to a message of a page snoop received (R51, R53). -/
  | answer (page block : Nat)
  /-- To the fabric manager: an extent is live, or has been released, or its command is refused (R58 to R60). -/
  | added (extent : Nat)
  | released (extent : Nat)
  | refused
  deriving DecidableEq, Repr

/-- A half of a line that the host has taken (R56): being taken, while earlier accesses complete; its own; snooped, for a write or not;
answered and kept by the host. -/
inductive HalfSt
  | taking
  | own
  | asked (wr : Bool)
  | shared
  deriving DecidableEq, Repr

/-- One entry of the page snoop filter (R50, R52). -/
structure Filter where
  st : FState
  vec : BitVec 64
  /-- Heads whose answers are awaited since `since`, what the entry becomes, and the request it is for. -/
  await : BitVec 64
  since : Word
  nextSt : FState
  nextVec : BitVec 64
  pending : Option FReq
  waiting : List FReq
  /-- Messages that the awaited heads have answered, by head (R51). -/
  got : Tab (BitVec 128)
  /-- The requester of the part whose turn it is, and whether to write: its access comes before the requests that wait (R52). -/
  turn : Option (Waiter × Bool)
  /-- When it was last used (R50). -/
  stamp : Nat
  deriving DecidableEq, Repr

/-- A page under a lease cut (R53): the stamp at step 1, the messages of the snoop received, and whether it has been answered. -/
structure Cut where
  page : Nat
  since : Nat
  asked : BitVec 128
  done : Bool
  deriving DecidableEq, Repr

/-- A registered kernel (R62, R63). -/
structure Kernel where
  khash : BitVec 384
  launch : List Word
  code : List Word
  unregistered : Bool
  deriving DecidableEq, Repr

/-- A task admitted by the intake (R66, R67). -/
structure Task where
  conn : Nat
  cxlio : Bool
  rtag : Word
  serial : Word
  ctx : BitVec 12
  /-- Its entry in the table of registered kernels. -/
  kernel : Nat
  /-- Key of its launch. -/
  launch : Nat
  deriving DecidableEq, Repr

/-- A task result or packet handed to a CXL.io path (output). -/
structure IoOut where
  dest : Nat
  slot : Nat
  words : List Word
  deriving DecidableEq, Repr

/-! ### Translation and skim (04) -/

/-- A cached translation (R76): context, page, level 0 top, 1 middle, 2 bottom, the leaf. -/
structure TlbEntry where
  ctx : BitVec 12
  page : Nat
  level : Nat
  leaf : Word
  deriving DecidableEq, Repr

/-- A table entry in the walk cache (R76): the context, the level whose entry it is, the index bits down to it, the entry. -/
structure TableEntry where
  ctx : BitVec 12
  level : Nat
  page : Nat
  entry : Word
  deriving DecidableEq, Repr

/-- A walk in progress (R76), with what its accesses need. -/
structure Walk where
  ctx : BitVec 12
  page : Nat
  wr : Bool
  fx : Bool
  waiters : List Waiter
  deriving DecidableEq, Repr

/-- An outstanding page request (R78). -/
structure PageReq where
  prid : BitVec 12
  ctx : BitVec 12
  page : Nat
  wr : Bool
  fx : Bool
  perm : Bool
  waiters : List Waiter
  deriving DecidableEq, Repr

/-- State of a skim (R85). -/
inductive SkimSt
  | copy | hold
  deriving DecidableEq, Repr

/-- A skim in progress (R85). -/
structure Skim where
  ctx : BitVec 12
  page : Nat
  st : SkimSt
  src : Nat
  dst : Nat
  leaf : Word
  filter : BitVec 256
  retry : BitVec 8
  requested : Bool
  /-- The stamp at which its HOLD began. -/
  since : Nat
  deriving DecidableEq, Repr

/-! ### Queues, launches, records (05, 07) -/

inductive SlotSt
  | free | restoring | active | saving
  deriving DecidableEq, Repr

/-- One of the 64 command-queue slots (R92, R93). -/
structure QSlot where
  st : SlotSt
  ctx : BitVec 12
  qh : BitVec 16
  epri : BitVec 8
  rdix : BitVec 32
  wrix : BitVec 32
  cseq : BitVec 48
  /-- The record at RDIX − 1 is a WAITV, or has BAR set, and still waits. -/
  hwait : Bool
  /-- Timebase when it became ACTIVE. -/
  mappedAt : Word
  /-- Kicks that came while the slot was SAVING. -/
  held : List Word
  /-- The queue to restore once this save is done (R94 step 4). -/
  nextQ : Option (BitVec 12 × BitVec 16)
  deriving DecidableEq, Repr

/-- A pending queue (R94). -/
structure PendQ where
  ctx : BitVec 12
  qh : BitVec 16
  epri : BitVec 8
  stamp : Nat
  deriving DecidableEq, Repr

/-- A launch admitted (R98, R145): its record, its command, and how far it has come. -/
structure Launch where
  ctx : BitVec 12
  words : List Word
  csets : List (Word × Word)
  lseq : BitVec 48
  lqh : BitVec 16
  cmpl : Bool
  /-- VA of the launch record, matched against LREC (R136). -/
  recVa : Word
  nextCluster : Nat
  groups : Nat
  fkind : BitVec 8
  ntrap : BitVec 16
  charge : Nat
  /-- STATUS of a launch that is ending (R114). -/
  ending : Option (BitVec 8)
  finished : Bool
  /-- It was started for an intake task. -/
  task : Bool
  stamp : Nat
  deriving DecidableEq, Repr

/-- A placed team (R123 to R127). -/
structure Team where
  key : Nat
  launch : Nat
  cluster : Nat
  core : BitVec 10
  pos : Nat
  x0 : Nat
  y0 : Nat
  w : Nat
  h : Nat
  sect : Nat
  /-- Its carve (R188): start and bytes. -/
  base : Nat
  bytes : Nat
  places : List Nat
  reserved : List Nat
  alive : Nat
  deriving DecidableEq, Repr

/-- A record place in use (R129): whose it is, when it became ready in cycles of its core, the counter it waits on. -/
structure RecPlace where
  core : BitVec 10
  place : BitVec 5
  launch : Nat
  team : Nat
  idx : BitVec 4
  csi : BitVec 3
  smask : Word
  vmask : Word
  ready : Option Word
  jca : Word
  /-- Released at `.dev` by a round (R133): acquire at start. -/
  acquire : Bool
  /-- Task group: its carve and its batch slot. -/
  carve : Option (Nat × Nat)
  batch : Option (Word × Nat × Nat)
  pts : BitVec 48
  tlown : Vector Word 8
  due : BitVec 3
  spills : List (BitVec 7 × BitVec 16)
  stamp : Nat
  /-- A group that has not started yet (R128). -/
  fresh : Bool
  deriving DecidableEq, Repr

/-- A task-queue record waiting or ready, the time in cycles of island 127 (R135, R136). -/
structure TaskRec where
  ctx : BitVec 12
  qh : BitVec 16
  index : BitVec 32
  ready : Option Word
  jca : Word
  stamp : Nat
  deriving DecidableEq, Repr

/-- A resident task queue (R136): its entry, with indices, and the BASE. -/
structure TaskQ where
  ctx : BitVec 12
  qh : BitVec 16
  base : Word
  logsz : Nat
  lrec : Word
  rdix : BitVec 32
  wrix : BitVec 32
  deriving DecidableEq, Repr

/-! ### Expert queues (08) -/

/-- A resident token (R148, R151): record words and enqueue time. -/
structure Token where
  words : Vector Word 4
  time : Word
  deriving DecidableEq, Repr

/-- A resident expert queue (R146). -/
structure ExpertQ where
  ctx : BitVec 12
  qh : BitVec 16
  entry : Vector Word 8
  tokens : List Token
  rrdix : BitVec 32
  rwrix : BitVec 32
  fired : BitVec 32
  /-- When its newest token was accepted (R387); none where it has accepted none since it became resident. -/
  lastAt : Option Word
  deriving DecidableEq, Repr

/-! ### Core, engines (09, 18) -/

/-- A core scratchpad word (R187, R192, R105). -/
structure SpWord where
  data : Half
  full : Bool
  poison : Bool
  deriving DecidableEq, Repr

/-- The word the scratchpads hold where nothing has been written (log 12). -/
def SpWord.fresh : SpWord := ⟨0, true, false⟩

inductive L1St
  | s | e | m
  deriving DecidableEq, Repr

/-- A line of an L1 (R194, R197): physical line number, or an aperture line by context and address. -/
structure L1Line where
  line : Nat
  st : L1St
  wts : BitVec 48
  rts : BitVec 48
  data : BitVec 1024
  valid : BitVec 4
  dirty : BitVec 128
  poison : BitVec 4
  /-- Brought by a request without coherence, of a leaf with CO = 0 (R218). -/
  nc : Bool
  deriving DecidableEq, Repr

/-- A line of the instruction cache (R164): context, VA div 128, its sixteen words. -/
structure ILine where
  ctx : BitVec 12
  line : Nat
  words : Vector Word 16
  deriving DecidableEq, Repr

/-- An engine command (R358): number, words, and who pushed it. -/
structure Cmd where
  num : Word
  w0 : Word
  w1 : Word
  core : BitVec 10
  slot : BitVec 3
  ctx : BitVec 12
  launch : Nat
  spbase : BitVec 18
  spbytes : BitVec 19
  cluster : Nat
  team : Nat
  /-- The engine has begun it. -/
  started : Bool
  /-- When it was accepted (R44, R358). -/
  stamp : Nat
  deriving DecidableEq, Repr

/-- A word of a pop queue, and what popping it acquires (R217). -/
structure PopWord where
  word : Word
  ts : BitVec 48
  deriving DecidableEq, Repr

/-- An operand ring (R362). -/
structure Ring where
  nsm1 : BitVec 6
  szm1 : BitVec 10
  base : Nat
  take : BitVec 6
  deriving DecidableEq, Repr

/-- A ring slot that an MXACC waits for (R193, R363). -/
structure RingWait where
  /-- The stamp since which it waits for the header. -/
  since : Nat
  ring : Nat
  /-- Bytes of the slot that it reads. -/
  bytes : Nat
  deriving DecidableEq, Repr

/-- The progress of an engine context inside its current command (R363, R366, R367, R369, R372, R373). -/
structure Progress where
  /-- Units done: words of a copy, rows of a drain, elements of a stencil copy. -/
  pos : Nat
  /-- MXACC: the A slot has been taken. -/
  tookA : Bool
  want : Option RingWait
  /-- MXARM has reserved its staging tiles; MXDADD has sent its contribution. -/
  begun : Bool
  flags : BitVec 4
  ts : BitVec 48
  /-- Data of the A slot taken, as one number, and whether a word of it was poisoned. -/
  slotA : Nat
  poisonA : Bool
  /-- MXACC: the B slot has been taken, and its data. -/
  tookB : Bool
  slotB : Nat
  poisonB : Bool
  /-- CPYG: the index of the element under way. -/
  index : Option Half
  deriving DecidableEq, Repr

/-- An accumulator tile (R364, R241, R369): elements at 64·r + n. -/
structure Tile where
  int : Bool
  data : Tab Half
  /-- Superblock scales recorded, by column. -/
  scales : Tab (Option Half)
  /-- 0 nothing accumulated, 1 QN4 contributions, 2 others (R241). -/
  mix : BitVec 2
  poison : Bool
  armed : Bool
  ordered : Bool
  want : Nat
  got : Nat
  deriving DecidableEq, Repr

/-- What the engines keep for one context on one core (R176 to R179, R362). -/
structure CoreCtx where
  q0 : List Cmd
  q1 : List PopWord
  q2 : List Cmd
  q3 : List PopWord
  q4 : List Cmd
  q5 : List PopWord
  q8 : List Cmd
  tl : Vector Word 8
  accepted : Vector Word 8
  /-- Commands finished ahead of an earlier one, by timeline. -/
  finished : List (Nat × Word)
  /-- Highest timestamp of the writes of the commands of each timeline (R217). -/
  tlts : Vector (BitVec 48) 8
  /-- Flags of commands completed, by timeline, not yet ORed into sr.gsf (R235). -/
  tlflags : List (Nat × Word × BitVec 4)
  /-- Rings 0..3 of engine context 0, then of 1. -/
  rings : Vector Ring 8
  /-- Progress of the head command of streams tl0..tl3. -/
  prog : Vector Progress 4
  /-- The tiles while another software context has the engine (R364). -/
  saved : Option (Vector Tile 8)
  deriving DecidableEq, Repr

/-- A contribution sent by an MXDADD (R368), waiting at its target or staged there. -/
structure Contribution where
  source : Nat
  core : BitVec 10
  ectx : Bool
  tile : BitVec 3
  poison : Bool
  int : Bool
  m : Nat
  n : Nat
  /-- Elements of the source tile; each counts as acc · S / 256 of its column (R242). -/
  elems : Tab Half
  scales : Tab (Option Half)
  num : Word
  stamp : Nat
  tcx : Bool
  ctx : BitVec 12
  deriving DecidableEq, Repr

/-- One core (09, 10). -/
structure Core where
  /-- The slot that holds the issue port. -/
  holder : Option (BitVec 3)
  /-- Cycles that the port has spent on issuing: the model's own count (R165). -/
  spent : Nat
  icache : List ILine
  spad : Tab SpWord
  l1 : List L1Line
  /-- Release clock of `.team` (R215). -/
  clock : BitVec 48
  hiPts : BitVec 48
  ctxs : Tab CoreCtx
  tiles : Vector Tile 8
  /-- Software context whose data the tiles hold; none while no command has run. -/
  owner : Option (BitVec 12)
  arriving : List Contribution
  staged : List Contribution
  staging : Nat
  /-- The core TLB, most recent first (R76). -/
  tlb : List TlbEntry
  deriving DecidableEq, Repr

/-! ### Coherence (10) -/

/-- A line of the L2 (R195, R196). -/
structure L2Line where
  line : Nat
  data : BitVec 1024
  dirty : BitVec 128
  poison : BitVec 4
  /-- Contexts that have locked the line (R196). -/
  locks : List (BitVec 12)
  /-- Brought by a request without coherence (R218). -/
  nc : Bool
  deriving DecidableEq, Repr

inductive HomeSt
  | i
  | e (o : BitVec 10)
  | up (o : BitVec 10)
  | rx (o : BitVec 10)
  | fw (o : BitVec 10) (owner : BitVec 10)
  deriving DecidableEq, Repr

/-- A requester that a home has refused and not served (R204): the time of its first refusal, how often, and the end of its back-off. -/
structure Refused where
  who : Asker
  since : Word
  n : Nat
  due : Word
  deriving DecidableEq, Repr

/-- What a home slice keeps for a line (R197, R204). -/
structure Home where
  st : HomeSt
  wts : BitVec 48
  rts : BitVec 48
  /-- RSV(o). -/
  rsv : Option Asker
  refusals : BitVec 8
  /-- The request being served was refused at least once (R204). -/
  serving : Bool
  /-- Requesters refused and not served. -/
  refused : List Refused
  deriving DecidableEq, Repr

/-- What a message of the mesh is (R198 to R205). -/
inductive MsgKind
  | renewal
  | upgrade (wts : BitVec 48)
  | readEx
  | ack
  | writeback (data : BitVec 1024) (dirty : BitVec 128) (poison : BitVec 4) (wts rts : BitVec 48)
  | forward (owner : BitVec 10)
  | answerData (data : BitVec 1024) (poison : BitVec 4) (wts rts : BitVec 48)
  | answerGone
  /-- Exclusive, with data or without. -/
  | grant (data : Option (BitVec 1024)) (poison : BitVec 4) (wts rts : BitVec 48)
  /-- Lanes performed at the home: far atomics, WB accesses that bypass the L1, and UC accesses (R194, R205, R219). -/
  | far
  /-- Bytes written at the home through a mask: of SM lines written back, which take rts + 1, and of a write-combining buffer (`wc`), whose
  group takes its timestamp; the accesses that wait for it (R218, R219). -/
  | merge (data : BitVec 1024) (mask : BitVec 128) (poison : BitVec 4) (ids : List Nat) (wc : Bool)
  /-- A request refused and waiting out its back-off. -/
  | refusedReq (orig : BitVec 2) (wts : BitVec 48)
  deriving DecidableEq, Repr

/-- A message under way, oldest first in State.coh.msgs. -/
structure Msg where
  kind : MsgKind
  line : Nat
  /-- The sectors a renewal or a far request is for (R194). -/
  sectors : BitVec 4
  core : BitVec 10
  slot : BitVec 3
  /-- The access it serves; 0 for none. -/
  acc : Nat
  refusals : Nat
  /-- When the back-off ends, in cycles. -/
  due : Word
  /-- Bytes of a copy brought without coherence (R218). -/
  nc : Bool
  deriving DecidableEq, Repr

/-- A synchronisation variable (R207, R208). -/
structure SynVar where
  val : Half
  wts : BitVec 48
  rts : BitVec 48
  deriving DecidableEq, Repr

/-- An acknowledgement of a target outside the L2 that is awaited (R215, R336): the write that is performed with it, by line, data, mask and
poison, whether its bytes are at the home already (RWB, an SM store performed there), and the lanes of a UC store that are then done. -/
structure TargetAck where
  id : Nat
  core : BitVec 10
  slot : BitVec 3
  accs : List Nat
  write : Option (Nat × BitVec 1024 × BitVec 128 × BitVec 4)
  home : Bool
  lanes : List (BitVec 7 × Word)
  deriving DecidableEq, Repr

/-- What kept an access of a turn from its place, so that the turn has not happened (R16, R203): nothing; an island that does not run; a home
that refuses an access to some bytes, or an agent outside that has to answer first. -/
inductive Shut
  | no
  | stopped
  | busy (pa n : Nat) (wr : Bool)
  deriving DecidableEq, Repr

end Sys2Proof.Machine
end

