-- ==== Sys2Proof/Machine/State.lean ====
section
/-! DEFINITION. The state of the whole part, the reasons a step can stop, and the state after reset. -/

namespace Sys2Proof.Machine

/-- Where an uncorrectable error is detected, or the poison indication of a CXL.mem response received (R105): a 32-byte sector by its number,
or a word of a core scratchpad. -/
inductive ErrorAt
  | memory (sector : Nat)
  | l2 (sector : Nat)
  | l1 (core : BitVec 10) (sector : Nat)
  | xspad (sector : Nat)
  | spad (core : BitVec 10) (word : Nat)
  deriving DecidableEq, Repr

/-- Which agent moves next (log 2): an event, the issue port of a core, the head command of an engine, or time. -/
inductive Turn
  | event (i : Instr) (ev : Ev)
  | port (core : BitVec 10)
  /-- Push queue q0, q2, q4 or q8 of a context on a core; `e` is the engine context, of q4 the receive side. -/
  | engine (core : BitVec 10) (ctx : BitVec 12) (q : Nat) (e : Bool) (units : Nat)
  /-- The timebase advances by `ns`, and every running island's clock with it. -/
  | elapse (ns : Nat)
  /-- Data is found to be wrong (R105). -/
  | error (x : ErrorAt)
  /-- The expander answers requests to a page of the second tier with the extent-gone cause, or no longer (R60). -/
  | gone (page : Nat) (on : Bool)
  /-- A context is torn down (R16, R100, R196). -/
  | teardown (ctx : BitVec 12)
  deriving DecidableEq, Repr

/-- The engine whose head command an engine-command constructor performs. -/
structure Eng where
  core : BitVec 10
  ctx : BitVec 12
  /-- Words, rows or elements to do in this turn; 0 sets no bound (log 2). -/
  units : Nat
  deriving DecidableEq, Repr

/-- Power, islands, health (01). -/
structure Pkg where
  entry : Entry
  islands : Tab Island
  /-- Control words written and applied at the next telemetry refresh, by offset (R19). -/
  pending : Tab (Option Word)
  /-- Health objects whose degrading condition held at the last window (R22). -/
  degraded : List Nat
  deriving DecidableEq, Repr

/-- Kalren (02). -/
structure Net where
  ports : Tab Port
  conns : Tab Conn
  /-- Transport frames received by the link layer of a port and not processed. -/
  inbox : List (Nat × Frame)
  /-- Frames handed to a port's wire (output), newest last. -/
  wire : List (Nat × Frame)
  holdSlots : Nat
  deriving DecidableEq, Repr

/-- CXL, extents, images, tasks (03). -/
structure Cxl where
  filter : Tab Filter
  /-- Messages to heads and to the host (output). -/
  headOut : List HeadMsg
  lostHeads : List Nat
  /-- Pages under a lease cut by a snoop received (R53). -/
  cuts : List Cut
  /-- Pages of the second tier whose extent the expander has reported gone (R60). -/
  gone : List Nat
  /-- Halves of lines that the host has taken, by PA div 64 (R56). -/
  halves : Tab (Option HalfSt)
  /-- The table of registered kernels, 0..1,023 (R62). -/
  kernels : Tab (Option Kernel)
  /-- The mailbox slots of the heads' register windows, 64 for each head (R65). -/
  slots : Tab (List Word)
  /-- Packets at the intake: connection, by CXL.io, words. -/
  packets : List (Nat × Bool × List Word)
  /-- An admitted task whose argument area is still being written, and its argument words (R66, R392). -/
  starting : Option (Task × List Word)
  tasks : List Task
  /-- Task results received over Kalren and not processed: connection, words. -/
  results : List (Nat × List Word)
  /-- Mailbox slots of expanders in use, by decoder (R375). -/
  mailbox : List (BitVec 3 × BitVec 6)
  ioOut : List IoOut
  /-- Answers of the image mailbox (output). -/
  mailboxStatus : List Nat
  deriving DecidableEq, Repr

/-- Translation and skim (04). -/
structure Mmu where
  /-- The TLBs of the sections, most recent first, and the walk cache (R76). -/
  sects : Tab (List TlbEntry)
  tables : List TableEntry
  /-- Walks in arrival order: the walkers have the first 64. -/
  walks : List Walk
  reqs : List PageReq
  /-- Pages answered unresolvable, for the accesses that waited on them (R78). -/
  verdicts : List (Waiter × BitVec 12 × Nat)
  /-- The invalidation in progress: context, all, first page, pages. -/
  inval : Option (BitVec 12 × Bool × Nat × Nat)
  /-- Word +0 of a translation block before a write to ROOT or TEN, until the context is invalidated whole (R75). -/
  stale : Tab (Option Word)
  skims : List Skim
  /-- Counts of the hot-page tracker, by 2^36 times the context plus the page; pages whose count has reached HOTT; L2 misses (R88). -/
  hot : Tab Nat
  hotPages : List (BitVec 12 × Nat)
  misses : Nat
  /-- The page last translated to a frame of the second tier, by frame: context and page (R88). -/
  lastUse : Tab (Option (BitVec 12 × Nat))
  /-- The timebase at which the counts were last halved (R88). -/
  decayAt : Word
  deriving DecidableEq, Repr

/-- Command queues and event rings (05). -/
structure Que where
  slots : Tab QSlot
  pending : List PendQ
  /-- Event-ring entries held while a ring is full, by context. -/
  held : List (BitVec 12 × List Word)
  /-- Entries since the last interrupt and the time of the oldest, by context. -/
  since : Tab (Nat × Word)
  /-- Interrupts signalled (output): context, vector, head. -/
  interrupts : List (Nat × Nat × Nat)
  /-- Queues whose waiting WAITV has started (R96, R104). -/
  begun : List (BitVec 12 × BitVec 16)
  deriving DecidableEq, Repr

/-- Scheduling (07) and expert queues (08). -/
structure Sch where
  launches : Tab Launch
  teams : List Team
  places : List RecPlace
  tasks : List TaskRec
  taskQs : List TaskQ
  experts : List ExpertQ
  /-- Batch slots in use, number and address, by 2^16 times the context plus the handle of their expert queue (R159). -/
  batches : Tab (List (Nat × Word))
  /-- Firing unit: members still to fire in this round, and queues whose head token has been found to reach its age. -/
  round : List (BitVec 12 × BitVec 16)
  eligible : List (BitVec 12 × BitVec 16)
  /-- Release clocks of placed clusters, by launch and cluster, and of the part (R215). -/
  cluClocks : Tab (BitVec 48)
  partClock : BitVec 48
  /-- Contexts being pre-empted (R140). -/
  stopping : List (BitVec 12)
  /-- Contexts that firmware, not the host, pre-empted, and launches whose budget was exceeded: their groups trap when the context next
  runs (R140, R143). -/
  byFirmware : List (BitVec 12)
  overBudget : List Nat
  /-- The timebase at which a context's slice began (R140, R143). -/
  sliceAt : Tab Word
  /-- Groups saved whole (R141). -/
  saved : List Group
  /-- By viral context: the consuming group and the timebase at entry (R116). -/
  viralAt : Tab (Option (BitVec 10 × BitVec 3 × Word))
  deriving DecidableEq, Repr

/-- L2, homes, messages, chip scratchpad, synchronisation engine (10). -/
structure Coh where
  l2 : List L2Line
  homes : Tab Home
  /-- The highest timestamp each slice has issued (R202). -/
  sliceTs : Tab (BitVec 48)
  msgs : List Msg
  acks : List TargetAck
  xspad : Tab Half
  xpoison : List Nat
  sync : Tab SynVar
  resident : List Nat
  syncHi : BitVec 48
  /-- The model's own: what keeps the turn at hand from happening; `no` between steps (log 77). -/
  shut : Shut
  deriving DecidableEq, Repr

/-- The whole part. -/
structure State where
  /-- The group at the port whose instruction exec runs. -/
  cur : Group
  /-- Every other group. -/
  parked : List Group
  agenda : List Turn
  /-- What the event being performed acts on. -/
  ev : Ev
  eng : Eng
  /-- The model's own counters: of free values taken (log 4), of stamps given (log 2). -/
  freeCtr : Nat
  seqCtr : Nat
  timebase : Word
  /-- The registers of the management space that differ from their reset value, by offset. -/
  mgmt : Tab Word
  pkg : Pkg
  net : Net
  cxl : Cxl
  mmu : Mmu
  que : Que
  sch : Sch
  coh : Coh
  cores : Tab Core
  mem : Memory
  /-- Poisoned 32-byte sectors of memory, by PA div 32, ascending (R105). -/
  poison : List Nat
  deriving DecidableEq, Repr

/-- Why a step can stop with a fault: there is no reason. No instruction, command or event of this spec stops the part: a
fault of an instruction is a trap, which enters the handler (R112) or ends the launch (R114), and the part runs on. -/
inductive Fault
  deriving DecidableEq, Repr

/-- Why the machine refuses. -/
inductive Refusal
  /-- Raised by exec for an instruction that has no meaning yet. Safe. -/
  | notModelled (mnemonic : String)
  deriving DecidableEq, Repr

/-- An empty slot; the port of core 0 shows one after reset (log 11). -/
def Group.blank : Group where
  core := 0
  slot := 0
  ctx := 0
  life := .none
  launch := 0
  team := 0
  idx := 0
  teamPos := 0
  cx := 0
  cy := 0
  cz := 0
  place := none
  mswin := 0
  spbase := 0
  spbytes := 0
  slices := 0
  slicew := 0
  sregs := Vector.replicate 64 0
  preds := 0
  k := 0
  em := 0
  live := 0
  vregs := Vector.replicate 64 (Vector.replicate 96 0)
  pc := 0
  cpos := 0
  inClause := false
  hdr := 0
  latches := []
  mstack := []
  msdep := 0
  gsf := 0
  dline := 256
  tlown := Vector.replicate 8 0
  half := []
  inflight := []
  pts := 0
  wc := none
  region := none
  wait := none
  hmode := false
  hkind := 0
  image := []
  dueViral := false
  dueBudget := false
  dueSpill := false
  spills := []
  late := none
  sweep := none
  batch := none
  lastStart := 0
  endSwitch := none

/-- A queue slot that maps nothing (R92). -/
def QSlot.idle : QSlot :=
  ⟨.free, 0, 0, 0, 0, 0, 0, false, 0, [], none⟩

/-- A port after reset (R25, R27 to R29; LACK: log 7). -/
def Port.idle : Port :=
  ⟨0, 0xFFF, false, 0, [], [], Vector.replicate 4 256, Vector.replicate 4 0, 0, 0, 0⟩

/-- A connection after reset (R30, R31, R375). -/
def Conn.idle : Conn :=
  ⟨false, [], [], 0, [], [], [], 0, 0, 1, [], 0⟩

/-- Island n after reset (R13; frequency: log 6; the management island runs at 1,000 MHz, R20). -/
def Island.idle (n : Nat) : Island :=
  let mhz := if n = 126 then 1000 else 2000
  ⟨BitVec.ofNat 12 mhz, Config.supplyFor n mhz, 0, 0, false, false, false, 0, false, 0⟩

/-- A page with no filter entry (R50). -/
def Filter.idle : Filter := ⟨.i, 0, 0, 0, .i, 0, none, [], [], none, 0⟩

/-- An FP32 tile of zeros (R365). -/
def Tile.zero (int : Bool) : Tile := ⟨int, [], [], 0, false, false, false, 0, 0⟩

def Progress.fresh : Progress := ⟨0, false, none, false, 0, 0, 0, false, false, 0, false, none⟩

/-- The engines of a context that has used none (R179, R365). -/
def CoreCtx.idle : CoreCtx :=
  ⟨[], [], [], [], [], [], [], Vector.replicate 8 0, Vector.replicate 8 0, [], Vector.replicate 8 0, [],
   Vector.replicate 8 ⟨0, 0, 0, 0⟩, Vector.replicate 4 Progress.fresh, none⟩

/-- A core that nothing has used. -/
def Core.idle : Core :=
  ⟨none, 0, [], [], [], 0, 0, [], Vector.replicate 8 (Tile.zero false), none, [], [], 16, []⟩

/-- A home line that no L1 holds (R197). -/
def Home.idle : Home := ⟨.i, 0, 0, none, 0, false, []⟩

def SynVar.fresh : SynVar := ⟨0, 0, 0⟩

def Launch.none : Launch :=
  ⟨0, [], [], 0, 0, false, 0, 0, 0, 0, 0, 0, .none, false, false, 0⟩

/-- The machine right after reset: registers at the values the spec gives, memory with nothing listed, and no group started.
The port of core 0 shows slot 0, which is empty; its registers are those log 11 names. -/
def State.reset : State where
  cur := Group.blank
  parked := []
  agenda := []
  ev := Ev.none
  eng := ⟨0, 0, 0⟩
  freeCtr := 0
  seqCtr := 1
  timebase := 0
  mgmt := []
  pkg := { entry := ⟨true, false, false, false⟩, islands := [], pending := [], degraded := [] }
  net := { ports := [], conns := [], inbox := [], wire := [], holdSlots := 128 }
  cxl := { filter := [], headOut := [], lostHeads := [], cuts := [], gone := [], halves := [], kernels := [], slots := [], packets := [], starting := none, tasks := [],
           results := [], mailbox := [], ioOut := [], mailboxStatus := [] }
  mmu := { sects := [], tables := [], walks := [], reqs := [], verdicts := [], inval := none, stale := [], skims := [], hot := [], hotPages := [], misses := 0, lastUse := [], decayAt := 0 }
  que := { slots := [], pending := [], held := [], since := [], interrupts := [], begun := [] }
  sch := { launches := [], teams := [], places := [], tasks := [], taskQs := [], experts := [], batches := [], round := [], eligible := [],
           cluClocks := [], partClock := 0, stopping := [], byFirmware := [], overBudget := [], sliceAt := [], saved := [], viralAt := [] }
  coh := { l2 := [], homes := [], sliceTs := [], msgs := [], acks := [], xspad := [], xpoison := [], sync := [], resident := [], syncHi := 0, shut := .no }
  cores := []
  mem := []
  poison := []

end Sys2Proof.Machine
end

