-- ==== Sys2Proof/Machine/Regs.lean ====
section
/-! DEFINITION. The registers of the management space by offset: reset values, fields read and written by hardware, stamps and
free values; and groups found and changed. -/

namespace Sys2Proof.Machine

/-! ### Offsets -/

def Reg.mstat : Nat := 0x10
def Reg.telemetry (n : Nat) : Nat := 0x10000 + 8 * n
def Reg.islandCtl (n : Nat) : Nat := 0x20000 + 8 * n
def Reg.pycfg : Nat := 0x30000
def Reg.health (k w : Nat) : Nat := 0x40000 + 16 * k + w
def Reg.threshold (k w : Nat) : Nat := 0x50000 + 16 * k + w
def Reg.conn (c w : Nat) : Nat := 0x60000 + 64 * c + w
def Reg.netcfg : Nat := 0xA0000
def Reg.port (p : Nat) : Nat := 0xA0100 + 8 * p
def Reg.extent (x w : Nat) : Nat := 0xB0000 + 16 * x + w
def Reg.trans (c w : Nat) : Nat := 0x100000 + 64 * c + w
def Reg.mmu (w : Nat) : Nat := 0x140000 + w
def Reg.queue (c w : Nat) : Nat := 0x180000 + 64 * c + w
def Reg.schcfg : Nat := 0x1C1000
def Reg.contain (c w : Nat) : Nat := 0x2000000 + 64 * c + w
def Reg.lostd : Nat := 0x2040000
def Reg.prabase : Nat := 0x2200000
def Reg.sched (c w : Nat) : Nat := 0x2210000 + 64 * c + w
def Reg.cohcfg : Nat := 0x2400000
def Reg.lquota (c : Nat) : Nat := 0x2410000 + 8 * c
def Reg.sync (c : Nat) : Nat := 0x2420000 + 8 * c
def Reg.xsgrant (c : Nat) : Nat := 0x2430000 + 8 * c

/-- The identity register (R2). -/
def ident : Word :=
  field 48 0x4757 ||| field 32 0x9600 ||| field 24 (if Config.fittingL then 0x4C else 0x48) |||
    field 16 Config.stepping.toNat ||| field 12 (if Config.fittingL then 1 else 0) ||| 0x300

/-- The records of the host lanes, which read zero on an -L part (R21). -/
def absentLane (k : Nat) : Bool := Config.fittingL && 200 ≤ k && k < 216

/-- The value a management register holds at reset: zero but where the spec gives another (R2, R13, R17, R21, R25, R75, R79, R89,
R92, R122, R201). -/
def regReset (o : Nat) : Word :=
  if 0x20000 ≤ o ∧ o < 0x20400 then
    let n := (o - 0x20000) / 8
    field 48 (Config.plimReset n).toNat ||| field 40 0x69 ||| field 28 (Config.fmaxReset n).toNat |||
      field 16 (Config.fminReset n).toNat
  else if o = 0x30000 then field 16 600 ||| field 8 1 ||| 0xCD
  else if 0x50000 ≤ o ∧ o < 0x50E00 then
    if absentLane ((o - 0x50000) / 16) then 0
    else if o % 16 = 0 then field 48 0x64 ||| field 32 0xF ||| 0x10000 else field 32 0x100
  else if o = 0xA0000 then field 48 0x89F1 ||| field 32 8 ||| field 24 0x10
  else if 0x100000 ≤ o ∧ o < 0x140000 then (if o % 64 = 16 then field 56 4 else 0)
  else if o = 0x140030 then field 48 0x40
  else if 0x180000 ≤ o ∧ o < 0x1C0000 then
    (if o % 64 = 16 then field 59 6 else if o % 64 = 32 then field 56 1 else 0)
  else if o = 0x1C1000 then field 48 0x64
  else if 0x2210000 ≤ o ∧ o < 0x2250000 then
    (if o % 64 = 0 then 0xF else if o % 64 = 8 then field 16 0x10 else 0)
  else if o = 0x2400000 then field 56 0x20 ||| field 48 0x10
  else if o = 0 then ident
  else 0

/-! ### Access by hardware -/

def State.reg (s : State) (o : Nat) : Word := Tab.get (regReset o) s.mgmt o

def State.setReg (s : State) (o : Nat) (w : Word) : State := { s with mgmt := Tab.set (regReset o) s.mgmt o w }

def State.regBits (s : State) (o hi lo : Nat) : Nat := bits (s.reg o) hi lo

def State.setRegBits (s : State) (o hi lo v : Nat) : State := s.setReg o (setBits (s.reg o) hi lo v)

/-- A saturating counter in bits [hi:lo] of a register raised by one. -/
def State.countReg (s : State) (o hi lo : Nat) : State :=
  let v := s.regBits o hi lo
  if v + 1 < 2 ^ (hi + 1 - lo) then s.setRegBits o hi lo (v + 1) else s

/-! ### Stamps, free values, time -/

/-- A fresh stamp: later ones are larger (log 2). -/
def State.stamp (s : State) : State × Nat := ({ s with seqCtr := s.seqCtr + 1 }, s.seqCtr)

/-- A free Bool (log 4). -/
def State.free (s : State) : State × Bool := ({ s with freeCtr := s.freeCtr + 1 }, Config.freeBit s.freeCtr)

def State.core (s : State) (c : BitVec 10) : Core := Tab.get Core.idle s.cores c.toNat

def State.setCore (s : State) (c : BitVec 10) (x : Core) : State := { s with cores := Tab.set Core.idle s.cores c.toNat x }

def State.coreCtx (s : State) (c : BitVec 10) (x : BitVec 12) : CoreCtx := Tab.get CoreCtx.idle (s.core c).ctxs x.toNat

def State.setCoreCtx (s : State) (c : BitVec 10) (x : BitVec 12) (k : CoreCtx) : State :=
  let r := s.core c
  s.setCore c { r with ctxs := Tab.set CoreCtx.idle r.ctxs x.toNat k }

/-- The island of a core (R11). -/
def islandOf (c : BitVec 10) : Nat := c.toNat / 8

def State.island (s : State) (n : Nat) : Island := Tab.get (Island.idle n) s.pkg.islands n

def State.setIsland (s : State) (n : Nat) (x : Island) : State :=
  { s with pkg := { s.pkg with islands := Tab.set (Island.idle n) s.pkg.islands n x } }

/-- Cycles that the issue port of a core has spent (R165, R166, R173); time itself passes in turns of its own (log 2). -/
def State.tick (s : State) (c : BitVec 10) (n : Nat) : State :=
  let r := s.core c
  s.setCore c { r with spent := r.spent + n }

/-- The island's clock runs: it is not held in reset, and its window is not stopped (R8, R12, R16). -/
def State.islandRuns (s : State) (n : Nat) : Bool :=
  let i := s.island n
  !s.pkg.entry.held && !i.held && !i.stopped

/-- `ns` of time on an island's clock (R15, R16): the thousandths of a cycle counted with those of the cycle under way. -/
def State.islandParts (s : State) (n ns : Nat) : Nat :=
  let i := s.island n
  if s.islandRuns n then i.part + ns * i.mhz.toNat else i.part

/-- The whole cycles that pass in `ns`. -/
def State.islandCycles (s : State) (n ns : Nat) : Nat := s.islandParts n ns / 1000

/-- Cycles of the clock of the group's core (R267). -/
def State.clock (s : State) (c : BitVec 10) : Word := (s.island (islandOf c)).cycles

/-- Cycles of island 127, where the synchronisation engine and the firing unit are (R11). -/
def State.clock127 (s : State) : Word := (s.island 127).cycles

/-- A 48-bit serial number later than another (R202). -/
def later48 (a b : BitVec 48) : Bool := let d := (a - b).toNat; 1 ≤ d && d < 2 ^ 47

def max48 (a b : BitVec 48) : BitVec 48 := if later48 b a then b else a

/-! ### Fields of one context's registers -/

def State.viral (s : State) (c : BitVec 12) : Bool := s.regBits (Reg.contain c.toNat 8) 63 63 = 1

def State.suspended (s : State) (c : BitVec 12) : Bool := s.regBits (Reg.sched c.toNat 24) 61 61 = 1

/-- LEASE (R201): 0 acts as 1. -/
def State.lease (s : State) : BitVec 48 :=
  let l := s.regBits Reg.cohcfg 63 56
  BitVec.ofNat 48 (if l = 0 then 1 else l)

/-! ### Groups -/

def State.setCur (s : State) (g : Group) : State := { s with cur := g }

/-- Is this the group of the slot? -/
def Group.at (g : Group) (core : BitVec 10) (slot : BitVec 3) : Bool := g.core = core && g.slot = slot && g.life ≠ .none

/-- The group in a slot. -/
def State.group? (s : State) (core : BitVec 10) (slot : BitVec 3) : Option Group :=
  if s.cur.at core slot then some s.cur else s.parked.find? fun g => g.at core slot

/-- The group in a slot changed. -/
def State.modGroup (s : State) (core : BitVec 10) (slot : BitVec 3) (f : Group → Group) : State :=
  if s.cur.at core slot then { s with cur := f s.cur }
  else { s with parked := s.parked.map fun g => if g.at core slot then f g else g }

/-- Every group changed. -/
def State.modGroups (s : State) (f : Group → Group) : State := { s with cur := f s.cur, parked := s.parked.map f }

def State.groups (s : State) : List Group := (s.cur :: s.parked).filter fun g => g.life ≠ .none

/-- The group of a slot brought to the port. -/
def State.bring (s : State) (core : BitVec 10) (slot : BitVec 3) : State :=
  if s.cur.at core slot then s
  else
    match s.parked.find? fun g => g.at core slot with
    | some g => { s with cur := g, parked := s.cur :: s.parked.filter fun x => !x.at core slot }
    | none => s

/-- The port of the core is let go by the group (R164). -/
def State.letGo (s : State) (core : BitVec 10) (slot : BitVec 3) : State :=
  let r := s.core core
  if r.holder = some slot then s.setCore core { r with holder := none } else s

end Sys2Proof.Machine
end

