-- ==== Sys2Proof/Machine/Mem.lean ====
section
/-! DEFINITION. Memory behind the home slices: the physical map (R69), lines with bytes, masks and poison (R105, R106), the L2
(R195, R196), homes and recalls (R197, R198, R203), and the reads and writes that the part itself performs at a home. -/

namespace Sys2Proof.Machine

/-! ### Lines -/

/-- Bytes of a line: byte i is bits 8i..8i + 7. -/
abbrev LineData := BitVec 1024

/-- A byte mask widened to bits. -/
def spread : Nat → Nat → Nat
  | 0, _ => 0
  | n + 1, m => (if m % 2 = 1 then 255 else 0) + 256 * spread n (m / 2)

/-- `new` where the mask says, `old` elsewhere. -/
def mergeLine (old new : LineData) (mask : BitVec 128) : LineData :=
  let m := BitVec.ofNat 1024 (spread 128 mask.toNat)
  (new &&& m) ||| (old &&& ~~~m)

/-- The mask of `n` bytes from `lo`. -/
def byteMask (lo n : Nat) : BitVec 128 := BitVec.ofNat 128 ((2 ^ n - 1) * 2 ^ lo)

/-- Poison of the four sectors after a write through `mask` of data poisoned by `p` (R106): a sector written whole takes the data's
poison, one written in part keeps its own and takes the data's. -/
def mergePoison (old p : BitVec 4) (mask : BitVec 128) : BitVec 4 :=
  let f (i : Nat) : Bool :=
    let m := bits mask (32 * i + 31) (32 * i)
    if m = 2 ^ 32 - 1 then bit p i else if m = 0 then bit old i else bit old i || bit p i
  BitVec.ofNat 4 (b2n (f 0) + 2 * b2n (f 1) + 4 * b2n (f 2) + 8 * b2n (f 3))

/-- The sectors that `n` bytes from `lo` touch. -/
def sectorMask (lo n : Nat) : BitVec 4 :=
  let f (i : Nat) : Bool := lo < 32 * i + 32 && 32 * i < lo + n
  BitVec.ofNat 4 (b2n (f 0) + 2 * b2n (f 1) + 4 * b2n (f 2) + 8 * b2n (f 3))

/-- XOR of the 6-bit chunks of `n`, `k` of them (R70). -/
def fold6 : Nat → Nat → Nat
  | 0, _ => 0
  | k + 1, n => (n % 64) ^^^ fold6 k (n / 64)

/-- XOR of the 8-bit chunks. -/
def fold8 : Nat → Nat → Nat
  | 0, _ => 0
  | k + 1, n => (n % 256) ^^^ fold8 k (n / 256)

/-- The home slice of a line (R70). -/
def homeSlice (line : Nat) : Nat := fold6 8 line

/-- The memory channel of a line (R70): of 256 on -H, of 96 on -L. It carries the line's bytes, which State.mem holds. -/
def memChannel (line : Nat) : Nat := if Config.fittingL then line / 2 % 96 else fold8 6 (line / 2)

/-! ### The physical map (R69) -/

/-- Second tier: CXL HDM space. -/
def secondTier (pa : Nat) : Bool := 2 ^ 48 ≤ pa && !Config.fittingL

/-- Is the address populated on the fitting? -/
def populated (pa : Nat) : Bool :=
  pa < 2 ^ 52 &&
  (if Config.fittingL then pa < Config.mediaBytes && pa < 0x30000000000 else pa < 0x6000000000 || 2 ^ 48 ≤ pa)

/-- HDM decoder d of a lost range (R118, R119). -/
def State.lost (s : State) (pa : Nat) : Bool :=
  secondTier pa && bit (s.reg Reg.lostd) (Config.hdmDecoder pa).toNat

/-! ### Islands an access needs (R11, R16) -/

/-- The islands of CXL. The spec does not say which lanes each supplies: CXL pauses while either does (DESIGN CHOICE, log 33). -/
def cxlIslands : List Nat := [124, 125]

/-- The L2 island of a line (R11). -/
def homeIsland (line : Nat) : Nat := 96 + homeSlice line / 4

/-- The islands between a home and the media of a line: of its memory attach port, or of CXL (R11, R69, R70). -/
def mediaIslands (line : Nat) : List Nat :=
  if secondTier (128 * line) then cxlIslands
  else [112 + memChannel line / (if Config.fittingL then 12 else 32)]

/-- The turn at hand cannot happen now; the first reason is kept. -/
def State.shutBy (s : State) (x : Shut) : State :=
  { s with coh := { s.coh with shut := if s.coh.shut = .no then x else s.coh.shut } }

/-- An access that needs an island whose clock does not run waits with its turn (R8, R16). -/
def State.needRun (s : State) (n : Nat) : State := if s.islandRuns n then s else s.shutBy .stopped

def State.needMedia (s : State) (line : Nat) : State := (mediaIslands line).foldl State.needRun s

/-! ### Media -/

def State.memLine (s : State) (line : Nat) : LineData := BitVec.ofNat 1024 (s.mem.readLE (128 * line) 128)

def State.memPoison (s : State) (line : Nat) : BitVec 4 :=
  let f (i : Nat) : Bool := (4 * line + i) ∈ s.poison
  BitVec.ofNat 4 (b2n (f 0) + 2 * b2n (f 1) + 4 * b2n (f 2) + 8 * b2n (f 3))

/-- A sorted list without repeats, with `x` in or out. -/
def putSector (x : Nat) (b : Bool) : List Nat → List Nat
  | [] => if b then [x] else []
  | y :: r =>
    if x < y then (if b then x :: y :: r else y :: r)
    else if x = y then (if b then y :: r else r)
    else y :: putSector x b r

/-- Bytes of a line written to its channel or target through a mask; the line's poison afterwards is `q`. -/
def State.memPut (s : State) (line : Nat) (data : LineData) (mask : BitVec 128) (q : BitVec 4) : State :=
  let f (i : Nat) (l : List Nat) : List Nat := putSector (4 * line + i) (bit q i) l
  { s with mem := s.mem.writeLE (128 * line) 128 data.toNat mask.toNat, poison := f 0 (f 1 (f 2 (f 3 s.poison))) }

/-- Bytes of a line written to its channel or target through a mask, with their poison. -/
def State.memWrite (s : State) (line : Nat) (data : LineData) (mask : BitVec 128) (p : BitVec 4) : State :=
  s.memPut line data mask (mergePoison (s.memPoison line) p mask)

/-! ### Homes and the L2 -/

/-- A timestamp more than 2^44 ticks behind another (R202). -/
def farBehind (a hi : BitVec 48) : Bool := let d := (hi - a).toNat; 2 ^ 44 < d && d < 2 ^ 47

/-- What the home keeps for a line. One whose wts lies far behind the slice's timestamps has wts and rts raised (R202). -/
def State.home (s : State) (line : Nat) : Home :=
  let h := Tab.get Home.idle s.coh.homes line
  let hi := Tab.get 0 s.coh.sliceTs (homeSlice line)
  if farBehind h.wts hi then { h with wts := hi - BitVec.ofNat 48 (2 ^ 44), rts := max48 h.rts (hi - BitVec.ofNat 48 (2 ^ 44)) } else h

def State.setHome (s : State) (line : Nat) (h : Home) : State :=
  { s with coh := { s.coh with homes := Tab.set Home.idle s.coh.homes line h } }

def State.l2? (s : State) (line : Nat) : Option L2Line := s.coh.l2.find? fun l => l.line = line

def State.setL2 (s : State) (l : List L2Line) : State := { s with coh := { s.coh with l2 := l } }

/-- The line changed where it stands; recency unchanged. -/
def State.updL2 (s : State) (line : Nat) (f : L2Line → L2Line) : State :=
  s.setL2 (s.coh.l2.map fun l => if l.line = line then f l else l)

/-- The line taken out. -/
def State.dropL2 (s : State) (line : Nat) : State := s.setL2 (s.coh.l2.filter fun l => l.line ≠ line)

/-- The line moved to the front, most recently used. -/
def State.touchL2 (s : State) (line : Nat) : State :=
  match s.l2? line with
  | some l => s.setL2 (l :: s.coh.l2.filter fun x => x.line ≠ line)
  | none => s

/-- Two lines of one set of one slice (R195). -/
def sameSet (a b : Nat) : Bool := homeSlice a = homeSlice b && a % 768 = b % 768

def State.l1? (s : State) (c : BitVec 10) (line : Nat) : Option L1Line := (s.core c).l1.find? fun l => l.line = line

def State.dropL1 (s : State) (c : BitVec 10) (line : Nat) : State :=
  let r := s.core c
  s.setCore c { r with l1 := r.l1.filter fun l => l.line ≠ line }

/-- A message taken out of the mesh. -/
def State.dropMsg (s : State) (i : Nat) : State := { s with coh := { s.coh with msgs := s.coh.msgs.eraseIdx i } }

def State.send (s : State) (m : Msg) : State := { s with coh := { s.coh with msgs := s.coh.msgs ++ [m] } }

/-- The home copy of a line as it stands. -/
def State.homeData (s : State) (line : Nat) : LineData × BitVec 4 :=
  match s.l2? line with
  | some l => (l.data, l.poison)
  | none => (s.memLine line, s.memPoison line)

/-- Bytes of a line that are at its home and still to be acknowledged by the target are there from now on: the writes `p`, in their order. -/
def State.reachTarget (s : State) (line : Nat) (p : TargetAck → Bool) : State :=
  let mine (x : TargetAck) : Bool := x.home && (x.write.any fun w => decide (w.1 = line)) && p x
  let s' := (s.coh.acks.filter mine).foldl (fun s x => match x.write with
    | some (l, d, m, q) => s.memWrite l d m q
    | none => s) s
  { s' with coh := { s'.coh with acks := s'.coh.acks.map fun x => if mine x then { x with write := none } else x } }

/-- Data written into the L2 copy, or to the channel where the L2 has none (R203). -/
def State.putHome (s : State) (line : Nat) (data : LineData) (mask : BitVec 128) (p : BitVec 4) : State :=
  match s.l2? line with
  | some _ => s.updL2 line fun l =>
      { l with data := mergeLine l.data data mask, dirty := l.dirty ||| mask, poison := mergePoison l.poison p mask }
  | none => (s.needMedia line).memWrite line data mask p

/-- The bytes of `mask` take those of `data` at the home, and the line's poison becomes `q`. -/
def State.setHomeData (s : State) (line : Nat) (data : LineData) (mask : BitVec 128) (q : BitVec 4) : State :=
  match s.l2? line with
  | some _ => s.updL2 line fun l => { l with data := mergeLine l.data data mask, dirty := l.dirty ||| mask, poison := q }
  | none => (s.needMedia line).memPut line data mask q

/-- What a write-back carries, taken in at the home (R203): data, wts and local rts. -/
def State.takeWriteback (s : State) (line : Nat) (data : LineData) (mask : BitVec 128) (p : BitVec 4)
    (wts rts : BitVec 48) : State :=
  let s := s.putHome line data mask p
  let h := s.home line
  s.setHome line { h with wts := wts, rts := max48 h.rts rts }

/-- The first message of a line and core whose kind satisfies `p`. -/
def State.findMsg (s : State) (line : Nat) (core : BitVec 10) (p : MsgKind → Bool) : Option Nat :=
  s.coh.msgs.findIdx? fun m => m.line = line && m.core = core && p m.kind

def MsgKind.isWriteback : MsgKind → Bool
  | .writeback .. => true
  | _ => false

def MsgKind.isAnswer : MsgKind → Bool
  | .forward _ | .answerData .. | .answerGone => true
  | _ => false

def MsgKind.isGrant : MsgKind → Bool
  | .grant .. => true
  | _ => false

/-- The copy of the line's owner, whose clock has to run (R16), or the write-back it has already sent, taken in; the home becomes I. -/
def State.takeOwner (s : State) (line : Nat) (o : BitVec 10) : State :=
  let s :=
    match s.l1? o line with
    | some l => ((s.needRun (islandOf o)).dropL1 o line).takeWriteback line l.data (BitVec.allOnes 128) l.poison l.wts l.rts
    | none =>
      match s.findMsg line o MsgKind.isWriteback with
      | some i =>
        match (s.coh.msgs[i]?).map Msg.kind with
        | some (.writeback d m p w r) => (s.dropMsg i).takeWriteback line d m p w r
        | _ => s
      | none => s
  s.setHome line { s.home line with st := .i }

/-- A line that its owner must write back before the home serves another request (R198): afterwards the home is I and holds the newest
data. A home in a transient state refuses (R203). -/
def State.recall (s : State) (line : Nat) : State :=
  let s := s.needRun (homeIsland line)
  match (s.home line).st with
  | .i => s
  | .e o => s.takeOwner line o
  | _ => s.shutBy (.busy (128 * line) 128 false)

/-- The newest data of a line, wherever it is: at the home, with its owner, in a message between them, or on its way to the target. -/
def State.freshLine (s : State) (line : Nat) : LineData × BitVec 4 :=
  let s := match (s.home line).st with
   | .i => s
   | .e o => s.takeOwner line o
   | .up o | .rx o => if (s.findMsg line o (· == MsgKind.ack)).isSome then s.takeOwner line o else s
   | .fw o q =>
     match (s.findMsg line o MsgKind.isAnswer).bind fun i => (s.coh.msgs[i]?).map Msg.kind with
     | some (.answerData d p w r) => s.takeWriteback line d (BitVec.allOnes 128) p w r
     | _ => s.takeOwner line q
  (if (s.l2? line).isSome then s else s.reachTarget line fun _ => true).homeData line

/-- The stable states of a home line; the others await a message (R197). -/
def HomeSt.stable : HomeSt → Bool
  | .i | .e _ => true
  | _ => false

/-- A commit engine holds the line for a lane (R351). -/
def State.commitHolds (s : State) (line : Nat) : Bool :=
  s.groups.any fun g => match g.region with
    | some r => decide (line ∈ r.held)
    | none => false

/-- Room made in the set of a line (R195): the least recently used way goes that is not locked and that no commit engine holds; a line an L1 holds E is recalled first,
dirty bytes go to the channel. A transaction under way at the line's home goes on there. -/
def State.evictL2 (s : State) (line : Nat) : State :=
  let ways := s.coh.l2.filter fun l => sameSet l.line line
  if ways.length < 16 then s
  else
    match ways.reverse.find? fun l => l.locks.isEmpty && !s.commitHolds l.line with
    | none => s
    | some v =>
      let s := if (s.home v.line).st.stable then s.recall v.line else s
      match s.l2? v.line with
      | none => s
      | some l => (((s.needMedia l.line).reachTarget l.line fun _ => true).memWrite l.line l.data l.dirty l.poison).dropL2 l.line

/-- A translation used: a 32 KiB leaf of the second tier, no aperture, is the last of its frame (R88). -/
def State.noteUse (s : State) (c : BitVec 12) (page : Nat) (leaf : Word) : State :=
  let frame := bits leaf 51 15
  if !secondTier (frame * 2 ^ 15) || bit leaf 6 then s
  else { s with mmu := { s.mmu with lastUse := Tab.set none s.mmu.lastUse frame (some (c, page)) } }

/-- The page of a context with SKEN = 1 that was last translated to the frame of an address (R88). -/
def State.hotPageOf (s : State) (pa : Nat) : Option (BitVec 12 × Nat) :=
  (Tab.get none s.mmu.lastUse (pa / 2 ^ 15)).filter fun x => bit (s.reg (Reg.trans x.1.toNat 0)) 1

/-- An L2 miss: one in 64 is sampled, and counts for its page in a table of 4,096 (R88). -/
def State.sampleMiss (s : State) (pa : Nat) : State :=
  let n := s.mmu.misses + 1
  let s := { s with mmu := { s.mmu with misses := n } }
  if n % 64 ≠ 0 || !secondTier pa then s
  else
    match s.hotPageOf pa with
    | none => s
    | some (c, p) =>
      let key := c.toNat * 2 ^ 36 + p
      let v := Tab.get 0 s.mmu.hot key + 1
      if v = 1 && 4096 ≤ s.mmu.hot.length then s
      else
        { s with mmu := { s.mmu with
            hot := Tab.set 0 s.mmu.hot key v
            hotPages := if v = max 1 (s.regBits (Reg.mmu 0x30) 63 48) then s.mmu.hotPages ++ [(c, p)] else s.mmu.hotPages } }

/-- The line as the media have it. -/
def L2Line.refetched (l : L2Line) (d : LineData) (p : BitVec 4) : L2Line := { l with data := d, dirty := 0, poison := p, nc := false }

/-- The line brought into the L2 and made most recent (R194, R195); `nc`: by a request without coherence (R218). A coherent request does not
use a copy that was brought without coherence: its dirty bytes are written, and it is fetched again (R53, R55). -/
def State.fillL2As (s : State) (line : Nat) (nc : Bool) : State :=
  let s := s.needRun (homeIsland line)
  match s.l2? line with
  | some l =>
    if l.nc && !nc then
      let s := ((s.needMedia line).reachTarget line fun _ => true).memWrite line l.data l.dirty l.poison
      (s.updL2 line fun l => l.refetched (s.memLine line) (s.memPoison line)).touchL2 line
    else s.touchL2 line
  | none =>
    let s := (((s.needMedia line).reachTarget line fun _ => true).evictL2 line).sampleMiss (128 * line)
    s.setL2 (⟨line, s.memLine line, 0, s.memPoison line, [], nc⟩ :: s.coh.l2)

def State.fillL2 (s : State) (line : Nat) : State := s.fillL2As line false

/-! ### Requests at a home (R203, R204) -/

def Asker.core : Asker → Nat
  | .acc c _ _ | .now (.group c _) | .now (.engine c _ _) => c.toNat
  | .now _ => 1024

def Asker.slot : Asker → Nat
  | .acc _ l _ | .now (.group _ l) => l.toNat
  | .now _ => 8

/-- The refused requester that is reserved: the earliest first refusal, then the lower core, then the lower slot (R204). -/
def earliestRefused (l : List Refused) : Option Asker :=
  let better (x y : Refused) : Bool :=
    x.since < y.since || (x.since = y.since && (x.who.core < y.who.core || (x.who.core = y.who.core && x.who.slot < y.who.slot)))
  (l.foldl (fun a x => match a with
    | none => some x
    | some y => if better x y then some x else some y) none).map Refused.who

/-- The clock that counts a requester's back-off: of its core, or of island 127 where it has none (log 77). -/
def State.askClock (s : State) (a : Asker) : Word := if a.core < 1024 then s.clock (BitVec.ofNat 10 a.core) else s.clock127

/-- Cycles of back-off after refusal `n` of a request (R204). -/
def backoffCycles (n : Nat) : Word := BitVec.ofNat 64 (min (16 * 2 ^ (n - 1)) 4096)

/-- May the home serve this requester now: the line stable, and not reserved for another (R203, R204)? -/
def Home.openTo (h : Home) (a : Asker) : Bool :=
  h.st.stable && (match h.rsv with
    | none => true
    | some r => r = a)

/-- Refusal of a requester recorded: its first, or one more; its next attempt follows the back-off. -/
def Home.recordRefusal (h : Home) (a : Asker) (time clock : Word) : List Refused :=
  if h.refused.any fun r => r.who = a then
    h.refused.map fun r => if r.who = a then { r with n := r.n + 1, due := clock + backoffCycles (r.n + 1) } else r
  else h.refused ++ [⟨a, time, 1, clock + backoffCycles 1⟩]

/-- A refusal counted at the line, which is reserved when the count reaches STARV (R204). -/
def State.countRefusal (s : State) (line : Nat) (a : Asker) : State :=
  let h := s.home line
  let refused := h.recordRefusal a s.timebase (s.askClock a)
  let n := h.refusals.toNat + 1
  s.setHome line { h with
    refusals := BitVec.ofNat 8 (min n 255), refused := refused
    rsv := if h.rsv.isNone && bits (s.reg Reg.cohcfg) 55 48 ≤ n then earliestRefused refused else h.rsv }

/-- The reservation of the requester served is cleared (R204). -/
def State.clearRsv (s : State) (line : Nat) (a : Asker) : State :=
  let h := s.home line
  s.setHome line { h with rsv := if h.rsv = some a then none else h.rsv, refused := h.refused.filter fun r => r.who ≠ a }

/-- The transaction of a request is complete; if it was refused at least once the count is reset (R204). -/
def State.completeAt (s : State) (line : Nat) (refusedOnce : Bool) : State :=
  if refusedOnce then s.setHome line { s.home line with refusals := 0 } else s

/-- A requester refused before still waits out its back-off (R204). -/
def State.backsOff (s : State) (line : Nat) (a : Asker) : Bool :=
  (s.home line).refused.any fun r => r.who = a && decide ((s.askClock a).toNat < r.due.toNat)

/-- The home does not serve an access that a requester makes where it stands: a commit engine holds the line, its back-off is not over, or the
home refuses it. -/
def State.homeCloses (s : State) (line : Nat) (who : Waiter) : Bool :=
  s.commitHolds line || s.backsOff line (.now who) || !(s.home line).openTo (.now who)

/-- What such an access leaves at the home that does not serve it: a refusal, unless it is only held or waits (R204). -/
def State.refuseNow (s : State) (line : Nat) (who : Waiter) : State :=
  if s.commitHolds line || s.backsOff line (.now who) then s else s.countRefusal line (.now who)

/-- Such an access served: it has no reservation left, and if it was refused the count is reset. -/
def State.servedNow (s : State) (line : Nat) (who : Waiter) : State :=
  let once := (s.home line).refused.any fun r => r.who = .now who
  (s.clearRsv line (.now who)).completeAt line once

/-- A requester that is gone is reserved nowhere. -/
def State.forgetAsker (s : State) (a : Asker) : State :=
  { s with coh := { s.coh with homes := s.coh.homes.map fun (x : Nat × Home) =>
      (x.1, { x.2 with rsv := if x.2.rsv = some a then none else x.2.rsv, refused := x.2.refused.filter fun r => r.who ≠ a }) } }

/-- The line ready at its home for an access performed there: recalled, and in the L2. -/
def State.atHome (s : State) (line : Nat) : State := (s.recall line).fillL2 line

/-- The slice of a line has issued a timestamp (R202). -/
def State.issueTs (s : State) (line : Nat) (ts : BitVec 48) : State :=
  let k := homeSlice line
  { s with coh := { s.coh with sliceTs := Tab.set 0 s.coh.sliceTs k (max48 (Tab.get 0 s.coh.sliceTs k) ts) } }

/-- A timestamp issued by the home: wts takes it, and rts is never below it (log 16). -/
def State.stampHome (s : State) (line : Nat) (ts : BitVec 48) : State :=
  let h := s.home line
  (s.setHome line { h with wts := ts, rts := max48 h.rts ts }).issueTs line ts

/-- A read at the home by a requester at `pts` (R198): rts := max(rts, pts + LEASE, wts + LEASE). -/
def State.leaseHome (s : State) (line : Nat) (pts : BitVec 48) : State :=
  let h := s.home line
  let rts := max48 h.rts (max48 (pts + s.lease) (h.wts + s.lease))
  (s.setHome line { h with rts := rts }).issueTs line rts

/-- The home's rts raised, so that a store there comes no earlier than `ts`. -/
def State.raiseRts (s : State) (line : Nat) (ts : BitVec 48) : State :=
  let h := s.home line
  if ts = 0 then s else s.setHome line { h with rts := max48 h.rts (ts - 1) }

/-- A filter bit of every skim that copies the page of a line written (R85). -/
def State.markSkim (s : State) (line : Nat) : State :=
  { s with mmu := { s.mmu with skims := s.mmu.skims.map fun k =>
      if k.src / 2 ^ 15 = line / 256 then { k with filter := k.filter ||| BitVec.ofNat 256 (2 ^ (line % 256)) } else k } }

/-- A store performed at the home slice at ts := rts + 1 (R208): bytes, mask, poison; `nc` by a request without coherence. -/
def State.writeHomeAs (s : State) (line : Nat) (nc : Bool) (data : LineData) (mask : BitVec 128) (p : BitVec 4) : State × BitVec 48 :=
  let s := (s.recall line).fillL2As line nc
  let ts := (s.home line).rts + 1
  let s := s.putHome line data mask p
  ((s.stampHome line ts).markSkim line, ts)

def State.writeHome (s : State) (line : Nat) (data : LineData) (mask : BitVec 128) (p : BitVec 4) : State × BitVec 48 :=
  s.writeHomeAs line false data mask p

/-- Bytes written by a mask at a target of the second tier, where the part may hold the line too, at ts := rts + 1 (R218, R219): any E copy is
recalled first. -/
def State.writeTarget (s : State) (line : Nat) (data : LineData) (mask : BitVec 128) (p : BitVec 4) : State × BitVec 48 :=
  let s := ((s.recall line).needMedia line).reachTarget line fun _ => true
  let s := s.updL2 line fun l => { l with data := mergeLine l.data data mask, poison := mergePoison l.poison p mask }
  let ts := (s.home line).rts + 1
  (((s.memWrite line data mask p).stampHome line ts).markSkim line, ts)

/-! ### Accesses by the type of a leaf (R81) -/

/-- UC and WC are not cached. -/
def MType.uncached : MType → Bool
  | .uc | .wc => true
  | _ => false

/-- A line at its home, or at its target, ready to be read as the type of its leaf says. -/
def State.readyAs (s : State) (mt : MType) (co : Bool) (line : Nat) : State :=
  let s := s.recall line
  if mt.uncached then (if (s.l2? line).isSome then s else (s.needMedia line).reachTarget line fun _ => true)
  else s.fillL2As line (secondTier (128 * line) && !co)

/-- Its newest data then. -/
def State.readAs (s : State) (mt : MType) (co : Bool) (line : Nat) : State × LineData × BitVec 4 :=
  let s := s.readyAs mt co line
  let (d, p) := s.homeData line
  (s, d, p)

/-- A write of the part as the type of the leaf says: at the home, or for what is not WB on the second tier at the target (R81, R208, R219); the
timestamp. -/
def State.writeAs (s : State) (mt : MType) (co : Bool) (line : Nat) (data : LineData) (mask : BitVec 128) (p : BitVec 4) :
    State × BitVec 48 :=
  if mt ≠ .wb && secondTier (128 * line) then s.writeTarget line data mask p
  else if mt.uncached then
    let s := s.recall line
    let ts := (s.home line).rts + 1
    (((s.putHome line data mask p).stampHome line ts).markSkim line, ts)
  else s.writeHomeAs line (secondTier (128 * line) && !co) data mask p

end Sys2Proof.Machine
end

