-- ==== Sys2Proof/Machine/Outside.lean ====
section
/-! DEFINITION. What agents outside the part hold (03_cxl_expander_tasks.md): the page snoop filter of an -L part (R50, R52) as local cores
meet it, and the halves of lines that the host of an -H part has taken (R56). -/

namespace Sys2Proof.Machine

def State.filter (s : State) (page : Nat) : Filter := Tab.get Filter.idle s.cxl.filter page

def State.setFilter (s : State) (page : Nat) (f : Filter) : State :=
  { s with cxl := { s.cxl with filter := Tab.set Filter.idle s.cxl.filter page f } }

def State.headSend (s : State) (m : HeadMsg) : State := { s with cxl := { s.cxl with headOut := s.cxl.headOut ++ [m] } }

/-- Heads of a vector, ascending. -/
def headsOf (v : BitVec 64) : List Nat := (List.range 64).filter fun i => bit v i

def headBit (h : Nat) : BitVec 64 := BitVec.ofNat 64 (2 ^ h)

/-- An entry that records nothing is free (R50). -/
def Filter.empty (f : Filter) : Bool := f.vec = 0 && f.await = 0 && f.waiting.isEmpty && f.turn.isNone && f.pending.isNone

/-- The table without entries that record nothing. -/
def State.dropEmpty (s : State) : State := { s with cxl := { s.cxl with filter := s.cxl.filter.filter fun x => !x.2.empty } }

/-! ### The snoop filter as the part's own requesters meet it (R50, R52) -/

/-- A page snoop of the heads of `v`, 128 messages each (R51); the entry is transient until they have answered. -/
def State.snoopHeads (s : State) (page : Nat) (v : BitVec 64) (inv : Bool) (f : Filter) : State :=
  let s := (headsOf v).foldl (fun s h =>
    (List.range 128).foldl (fun s b => s.headSend (.snoop h page b inv)) s) s
  s.setFilter page { f with await := v, since := s.timebase, got := [] }

/-- The state of an entry lets the part read, or write, without a snoop. -/
def FState.allows : FState → Bool → Bool
  | .i, _ => true
  | .s, wr => !wr
  | .e, _ => false

/-- An access of `who` waits at the filter: the entry is transient, it is another's turn, or snoops have to be sent first. -/
def Filter.holds (f : Filter) (who : Waiter) (wr : Bool) : Bool :=
  f.await ≠ 0 ||
  (match f.turn with
   | some (w, x) => !(w = who && (x || !wr))
   | none => !f.waiting.isEmpty) ||
  !f.st.allows wr

/-- A request of the part at a stable entry whose turn it is: its snoops, or the turn to make its access. An access to a physical address has no
turn of its own: it finds the entry as the snoops have left it (log 77). -/
def State.startLocal (s : State) (who : Waiter) (r : FReq) : State :=
  let page := r.pa / 2 ^ 15
  let f := s.filter page
  if f.st.allows r.excl then s.setFilter page { f with turn := if who = .part then none else some (who, r.excl) }
  else if r.excl then s.snoopHeads page f.vec true { f with nextSt := .i, nextVec := 0, pending := some r }
  else s.snoopHeads page f.vec false { f with nextSt := .s, nextVec := f.vec, pending := some r }

/-- The request of an access that the filter holds, made once; a requester has one at a page, and a write takes in its read. -/
def State.askFilter (s : State) (who : Waiter) (pa : Nat) (wr : Bool) : State :=
  let page := pa / 2 ^ 15
  let f := s.filter page
  let r : FReq := ⟨none, some who, pa, wr, none⟩
  if !f.holds who wr then s
  else if f.pending.any (fun x => x.who = some who && (x.excl || !wr)) || f.turn = some (who, true) then s
  else if f.waiting.any fun x => x.who = some who then
    s.setFilter page { f with waiting := f.waiting.map fun x => if x.who = some who then { x with excl := x.excl || wr } else x }
  else
    let f := { f with turn := match f.turn with
      | some (w, x) => if w = who then none else some (w, x)
      | none => none }
    if f.await = 0 && f.waiting.isEmpty && f.turn.isNone then (s.setFilter page f).startLocal who r
    else if f.waiting.length < 32 then s.setFilter page { f with waiting := f.waiting ++ [r] }
    else s

/-- The access whose turn it was has been performed. -/
def State.passFilter (s : State) (who : Waiter) (pa : Nat) (wr : Bool) : State :=
  let page := pa / 2 ^ 15
  let f := s.filter page
  match f.turn with
  | some (w, x) =>
    if w = who && (wr || !x) then
      let f := { f with turn := none }
      s.setFilter page (if f.empty then Filter.idle else f)
    else s
  | none => s

/-! ### Halves of lines (R56) -/

def State.half (s : State) (pa : Nat) : Option HalfSt := Tab.get none s.cxl.halves (pa / 64)

def State.setHalf (s : State) (pa : Nat) (h : Option HalfSt) : State :=
  { s with cxl := { s.cxl with halves := Tab.set none s.cxl.halves (pa / 64) h } }

/-- The line is split: the host has taken a half of it. -/
def State.split (s : State) (line : Nat) : Bool := (s.half (128 * line)).isSome || (s.half (128 * line + 64)).isSome

/-- The host has to be asked for a half before it is read, or written. -/
def HalfSt.holds : HalfSt → Bool → Bool
  | .taking, _ => false
  | .own, _ | .asked _, _ => true
  | .shared, wr => wr

/-- The halves that `n` bytes at `pa`, within one line, touch. -/
def halvesOf (pa n : Nat) : List Nat := if 64 < pa % 64 + n then [pa, pa + 64] else [pa]

def State.halfHolds (s : State) (pa n : Nat) (wr : Bool) : Bool :=
  (halvesOf pa n).any fun p => (s.half p).any fun h => h.holds wr

/-- The host is taking a half: earlier accesses complete, new ones wait. -/
def State.halfTaking (s : State) (pa n : Nat) : Bool := (halvesOf pa n).any fun p => s.half p = some .taking

/-- A data snoop to the host for each half that has to be asked for. -/
def State.askHalves (s : State) (pa n : Nat) (wr : Bool) : State :=
  (halvesOf pa n).foldl (fun s p =>
    match s.half p with
    | some .own => (s.setHalf p (some (.asked wr))).headSend (.half (p / 64 * 64) wr)
    | some .shared => if wr then (s.setHalf p (some (.asked wr))).headSend (.half (p / 64 * 64) wr) else s
    | _ => s) s

/-! ### Both -/

/-- An access of the part, about to be performed, has to wait for an agent outside (R50, R56). -/
def State.outsideHolds (s : State) (who : Waiter) (pa n : Nat) (wr : Bool) : Bool :=
  s.halfHolds pa n wr || (s.filter (pa / 2 ^ 15)).holds who wr

/-- The snoops that such an access sends. -/
def State.askOutside (s : State) (who : Waiter) (pa n : Nat) (wr : Bool) : State :=
  (s.askHalves pa n wr).askFilter who pa wr

/-! ### Pages held (R53, R54, R56, R85) -/

/-- A page whose accesses are held at its homes from a stamp at or before `since` on: a skim in HOLD (R85), or a lease cut (R54), which
an access without coherence does not meet (R218). -/
def State.pageHeld (s : State) (pa : Nat) (co : Bool) (since : Nat) : Bool :=
  s.mmu.skims.any (fun k => k.st = .hold && k.src / 2 ^ 15 = pa / 2 ^ 15 && k.since ≤ since) ||
  (co && s.cxl.cuts.any fun k => !k.done && k.page = pa / 2 ^ 15 && k.since ≤ since)

/-- A new access to `n` bytes waits where it is issued: its page is held, or its half is being taken. -/
def State.mustWait (s : State) (pa n : Nat) (co : Bool) : Bool := s.pageHeld pa co s.seqCtr || s.halfTaking pa n

/-- A new access that is performed at once waits: so is it held, or an agent outside has to answer first, or the home serves another. -/
def State.heldNow (s : State) (who : Waiter) (pa n : Nat) (wr co : Bool) : Bool :=
  s.mustWait pa n co || s.outsideHolds who pa n wr || s.homeCloses (pa / 128) who

/-- What such an access does while it waits: it asks outside, or is refused. -/
def State.askNow (s : State) (who : Waiter) (pa n : Nat) (wr co : Bool) : State :=
  if s.mustWait pa n co then s
  else if s.outsideHolds who pa n wr then s.askOutside who pa n wr
  else if s.homeCloses (pa / 128) who then s.refuseNow (pa / 128) who
  else s

/-- Such an access goes on. -/
def State.passNow (s : State) (who : Waiter) (pa : Nat) (wr : Bool) : State :=
  (s.servedNow (pa / 128) who).passFilter who pa wr

/-! ### The part's own reads and writes -/

/-- The line of `n` bytes ready at its home for an access of the part itself, which waits as any other does (R54, R56, R203, R204): the turn then
has not happened. -/
def State.partHome (s : State) (pa n : Nat) (wr : Bool) : State :=
  if s.heldNow .part pa n wr true then s.shutBy (.busy pa n wr) else (s.passNow .part pa wr).atHome (pa / 128)

/-- The outcome `t` of a turn taken in `s`: the turn has not happened if an access of it found no way (R16), or has to wait; it asks outside, or
is refused, which counts at the home (R203, R204). -/
def State.orHeld (s t : State) : State :=
  match t.coh.shut with
  | .no => t
  | .stopped => s
  | .busy pa n wr => s.askNow .part pa n wr true

/-- The same for an access that an agent outside makes, or one of a skim or a cut itself: only the home may refuse it (R203). -/
def State.outHome (s : State) (line : Nat) : State :=
  if s.homeCloses line .part then s.shutBy (.busy (128 * line) 128 false) else (s.servedNow line .part).atHome line

/-- `n` bytes at `pa`, within one line, as the home has them, and whether they are poisoned. -/
def State.readPa (s : State) (pa n : Nat) : State × Nat × Bool :=
  let line := pa / 128
  let s := s.partHome pa n false
  let (d, p) := s.homeData line
  (s, bits d (8 * (pa % 128) + 8 * n - 1) (8 * (pa % 128)), (p &&& sectorMask (pa % 128) n) ≠ 0)

/-- The 64-bit word at `pa`. -/
def State.readWord (s : State) (pa : Nat) : State × Word :=
  let (s, v, _) := s.readPa pa 8
  (s, BitVec.ofNat 64 v)

/-- `n` words from `pa`. -/
def State.readWords (s : State) (pa : Nat) : Nat → State × List Word
  | 0 => (s, [])
  | n + 1 =>
    let (s, w) := s.readWord pa
    let (s, r) := State.readWords s (pa + 8) n
    (s, w :: r)

/-- `n` bytes of `v` written at `pa`, within one line. -/
def State.writePa (s : State) (pa n v : Nat) : State :=
  let lo := pa % 128
  ((s.partHome pa n true).writeHome (pa / 128) (BitVec.ofNat 1024 (v * 2 ^ (8 * lo))) (byteMask lo n) 0).1

/-- A read and a write of 64 bytes and of a word by such an agent. -/
def State.readOut (s : State) (pa n : Nat) : State × Nat :=
  let s := s.outHome (pa / 128)
  (s, bits (s.homeData (pa / 128)).1 (8 * (pa % 128) + 8 * n - 1) (8 * (pa % 128)))

def State.writeOut (s : State) (pa n v : Nat) : State :=
  let lo := pa % 128
  ((s.outHome (pa / 128)).writeHome (pa / 128) (BitVec.ofNat 1024 (v * 2 ^ (8 * lo))) (byteMask lo n) 0).1

def State.writeWord (s : State) (pa : Nat) (w : Word) : State := s.writePa pa 8 w.toNat

def State.writeWords (s : State) (pa : Nat) : List Word → State
  | [] => s
  | w :: r => State.writeWords (s.writeWord pa w) (pa + 8) r

end Sys2Proof.Machine
end

