-- ==== Sys2Proof/Machine/Rings.lean ====
section
/-! DEFINITION. Event rings and interrupts (05_queues_launch_completion.md, R100 to R104). -/

namespace Sys2Proof.Machine

/-- 2^ERLOG entries; a value outside 6..20 acts as 6 (R89). -/
def State.ringSize (s : State) (c : BitVec 12) : Nat :=
  let l := s.regBits (Reg.queue c.toNat 16) 63 59
  2 ^ (if 6 ≤ l ∧ l ≤ 20 then l else 6)

def State.ringHead (s : State) (c : BitVec 12) : BitVec 32 := BitVec.ofNat 32 (s.regBits (Reg.queue c.toNat 24) 63 32)

def State.ringTail (s : State) (c : BitVec 12) : BitVec 32 := BitVec.ofNat 32 (s.regBits (Reg.queue c.toNat 24) 31 0)

/-- Full: ERTAIL − ERHEAD equals the size (R104). -/
def State.ringFull (s : State) (c : BitVec 12) : Bool := (s.ringTail c - s.ringHead c).toNat = s.ringSize c

/-- The interrupt on IVEC, which resets both triggers (R103). -/
def State.interrupt (s : State) (c : BitVec 12) : State :=
  let w := s.reg (Reg.queue c.toNat 32)
  { s with que := { s.que with
      interrupts := s.que.interrupts ++ [(c.toNat, bits w 39 29, bits w 28 23)]
      since := Tab.set (0, 0) s.que.since c.toNat (0, 0) } }

/-- Whether the entries written since the last interrupt raise one now (R103). -/
def State.considerInterrupt (s : State) (c : BitVec 12) : State :=
  let w := s.reg (Reg.queue c.toNat 32)
  let icnt := bits w 63 56
  let (n, t) := Tab.get (0, 0) s.que.since c.toNat
  if (icnt ≠ 0 ∧ icnt ≤ n) ∨ (icnt = 0 ∧ bits w 55 40 = 0) ∨
      (bits w 55 40 ≠ 0 ∧ n ≠ 0 ∧ 1000 * bits w 55 40 ≤ (s.timebase - t).toNat) then s.interrupt c
  else s

/-- The ring is full: OVF, and an interrupt at once, whatever the triggers (R104). -/
def State.ringOverflow (s : State) (c : BitVec 12) : State := (s.setRegBits (Reg.queue c.toNat 32) 0 0 1).interrupt c

/-- Where the next entry goes. -/
def State.ringEntryPa (s : State) (c : BitVec 12) : Nat :=
  bits (s.reg (Reg.queue c.toNat 16)) 51 6 * 64 + 32 * ((s.ringTail c).toNat % s.ringSize c)

/-- The line of the next entry cannot be written now: the hardware between keeps an entry until it can (R16, R54, R203; log 77). -/
def State.ringBlocked (s : State) (c : BitVec 12) : Bool :=
  let a := s.ringEntryPa c
  s.heldNow .part a 32 true true || !s.islandRuns (homeIsland (a / 128)) ||
    ((s.l2? (a / 128)).isNone && !(mediaIslands (a / 128)).all s.islandRuns)

/-- An entry written at ERTAIL (R102); one that fills the ring overflows it (R104). -/
def State.writeEntry (s : State) (c : BitVec 12) (e : List Word) : State :=
  let tail := s.ringTail c
  let s := s.writeWords (s.ringEntryPa c) e
  let s := s.setRegBits (Reg.queue c.toNat 24) 31 0 (tail + 1).toNat
  let (n, t) := Tab.get (0, 0) s.que.since c.toNat
  let s := { s with que := { s.que with
    since := Tab.set (0, 0) s.que.since c.toNat (n + 1, if n = 0 then s.timebase else t) } }
  if s.ringFull c then s.ringOverflow c else s.considerInterrupt c

/-- An event-ring entry posted: written, or held in order while the ring is full (R104). A ring found full whose OVF is not set overflows
again. -/
def State.postEntry (s : State) (c : BitVec 12) (e : List Word) : State :=
  if s.ringFull c || s.ringBlocked c || s.que.held.any (fun h => h.1 = c) then
    let s := if s.ringFull c && s.regBits (Reg.queue c.toNat 32) 0 0 = 0 then s.ringOverflow c else s
    { s with que := { s.que with held := s.que.held ++ [(c, e)] } }
  else s.writeEntry c e

/-- Held entries of a context written while there is room (R104). -/
def State.drainHeld (s : State) (c : BitVec 12) : Nat → State
  | 0 => s
  | n + 1 =>
    if s.ringFull c || s.ringBlocked c then s
    else
      match s.que.held.find? (fun h => h.1 = c) with
      | none => s
      | some h =>
        let s := { s with que := { s.que with held := s.que.held.erase h } }
        State.drainHeld (s.writeEntry c h.2) c n

/-- Entries held for want of their line, not of room, go on; one that waits outside asks there. -/
def State.settleRings (s : State) : State :=
  (s.que.held.map Prod.fst).eraseDups.foldl (fun s c =>
    if s.ringFull c then s
    else if s.ringBlocked c then s.askNow .part (s.ringEntryPa c) 32 true true
    else s.drainHeld c s.que.held.length) s

/-- A completion record (R100): KIND 0 for a command, 1 for a network send. -/
def State.postCompletion (s : State) (c : BitVec 12) (kind seq qh status fkind ntrap chk : Nat) : State :=
  s.postEntry c
    [s.timebase, field 16 seq ||| field 0 qh,
     field 63 (b2n (s.viral c)) ||| field 40 fkind ||| field 24 ntrap ||| field 0 chk,
     field 56 1 ||| field 48 status ||| field 36 c.toNat ||| field 32 kind]

/-- A link event to context 0 (R101). -/
def State.postLink (s : State) (lkind obj dec retry : Nat) (snap : Word) : State :=
  s.postEntry 0
    [s.timebase, field 56 lkind ||| field 32 obj ||| field 24 dec ||| field 8 (min retry 0xFFFF), snap, field 56 4]

end Sys2Proof.Machine
end

