-- ==== Sys2Proof/Machine/Mmu.lean ====
section
/-! DEFINITION. Translation (04_memory_translation.md, R69 to R80): page tables, cached translations, page requests, surfaces and
their aperture (R82 to R84), extents (R59, R60) and the registered-code window (R392). -/

namespace Sys2Proof.Machine

/-- What an access does to the page it translates. -/
inductive AccKind
  | load | store | atomic | fetch | engine
  deriving DecidableEq, Repr

def AccKind.writes : AccKind → Bool
  | .store | .atomic | .engine => true
  | _ => false

/-- Bits [63:51] all equal bit [50] (R71). -/
def canonical (va : Word) : Bool := bits va 63 50 = 0 || bits va 63 50 = 0x3FFF

/-- The newest 64-bit word at `pa`, and whether it is poisoned. -/
def State.peek (s : State) (pa : Nat) : Word × Bool :=
  let (d, p) := s.freshLine (pa / 128)
  (BitVec.ofNat 64 (bits d (8 * (pa % 128) + 63) (8 * (pa % 128))), (p &&& sectorMask (pa % 128) 8) ≠ 0)

/-! ### Page-table entries (R72, R73) -/

def Pte.v (e : Word) : Bool := bit e 0
def Pte.lf (e : Word) : Bool := bit e 1
def Pte.d (e : Word) : Bool := bit e 2
def Pte.w (e : Word) : Bool := bit e 3
def Pte.x (e : Word) : Bool := bit e 4
def Pte.co (e : Word) : Bool := bit e 5
def Pte.si (e : Word) : Bool := bit e 6
def Pte.pp (e : Word) : Bool := bit e 7
def Pte.mtCode (e : Word) : Nat := bits e 10 8
/-- PFN as the physical address it encodes. -/
def Pte.pfn (e : Word) : Nat := bits e 51 15 * 2 ^ 15
def Pte.swi (e : Word) : Nat := bits e 63 52

def Pte.mt (e : Word) : MType :=
  match Pte.mtCode e with
  | 0 => .wb
  | 1 => .sm
  | 2 => .uc
  | _ => .wc

/-- Low address bits of a page at level 0 (512 GiB), 1 (128 MiB), 2 (32 KiB). -/
def pageBits (level : Nat) : Nat :=
  match level with
  | 0 => 39
  | 1 => 27
  | _ => 15

/-- A malformed entry at a level (R73). -/
def Pte.malformed (e : Word) (level : Nat) : Bool :=
  Pte.v e &&
  (if Pte.lf e then
    bits e 14 11 ≠ 0 || 4 ≤ Pte.mtCode e || Pte.pfn e % 2 ^ pageBits level ≠ 0 ||
    (secondTier (Pte.pfn e) && Pte.mtCode e = 0 && !Pte.co e) || (Pte.si e && Pte.mtCode e ≠ 1)
   else level = 2 || bits e 63 52 ≠ 0 || bits e 14 2 ≠ 0)

/-- What a walk finds. -/
inductive WalkRes
  | leaf (level : Nat) (e : Word) (at' : Nat)
  | absent
  | bad (kind : BitVec 8) (sub : BitVec 4) (dec : BitVec 4)
  deriving DecidableEq, Repr

/-- VA[50:0] as a number. -/
def va51 (va : Word) : Nat := bits va 50 0

/-- The entry of an address at a level that the walk cache holds (R76). -/
def State.cached? (s : State) (c : BitVec 12) (va : Word) (level : Nat) : Option TableEntry :=
  s.mmu.tables.find? fun t => t.ctx = c && t.level = level && t.page = va51 va / 2 ^ pageBits level

/-- The entry of an address at a level, of the table whose entry is at `a`: from the walk cache where that holds it, else as memory has
it, and whether it is poisoned (R76). -/
def State.entryAt (s : State) (c : BitVec 12) (va : Word) (level a : Nat) : Word × Bool :=
  match s.cached? c va level with
  | some t => (t.entry, false)
  | none => s.peek a

/-- Memory that cannot be read: of a range that is lost (R119), or of an extent that has gone (R60); kind and DEC. -/
def State.unreachable (s : State) (pa : Nat) : Option (BitVec 8 × BitVec 4) :=
  if decide (pa / 2 ^ 15 ∈ s.cxl.gone) then some (5, 0)
  else if s.lost pa then some (6, BitVec.ofNat 4 (Config.hdmDecoder pa).toNat)
  else none

/-- The fault of reading the entry of an address at a level. -/
def State.entryFault (s : State) (c : BitVec 12) (va : Word) (level a : Nat) : Option (BitVec 8 × BitVec 4 × BitVec 4) :=
  if !populated a then some (2, 2, 0)
  else if (s.cached? c va level).isSome then none
  else (s.unreachable a).map fun x => (x.1, 0, x.2)

/-- Where the entry of `va` of a level stands in the table at `tbl`. -/
def entryPa (va : Word) (tbl level : Nat) : Nat := tbl + 8 * bits va (pageBits level + 11) (pageBits level)

/-- What the walk of `va` from the table at `tbl` finds, on `n` more levels. -/
def State.walkFrom (s : State) (c : BitVec 12) (va : Word) (tbl : Nat) : Nat → WalkRes
  | 0 => .bad 2 1 0
  | n + 1 =>
    let level := 2 - n
    let a := entryPa va tbl level
    match s.entryFault c va level a with
    | some (kind, sub, dec) => .bad kind sub dec
    | none =>
      let (e, p) := s.entryAt c va level a
      if p then .bad 4 0 0
      else if !Pte.v e then .absent
      else if Pte.malformed e level then .bad 2 1 0
      else if Pte.lf e then .leaf level e a
      else State.walkFrom s c va (Pte.pfn e) n

/-- A non-leaf entry put into the walk cache of 512 entries (R76), least recently used out first (log 10). -/
def State.cacheTable (s : State) (t : TableEntry) : State :=
  { s with mmu := { s.mmu with tables :=
      (t :: s.mmu.tables.filter fun x => !(x.ctx = t.ctx && x.level = t.level && x.page = t.page)).take 512 } }

/-- The reads of that walk: each entry that the walk cache does not hold is read through the L2 as a WB read, and the entries of tables
are kept in the walk cache (R71, R76). -/
def State.readTables (s : State) (c : BitVec 12) (va : Word) (tbl : Nat) : Nat → State
  | 0 => s
  | n + 1 =>
    let level := 2 - n
    let a := entryPa va tbl level
    if (s.entryFault c va level a).isSome then s
    else
      let page := va51 va / 2 ^ pageBits level
      let (e, p) := s.entryAt c va level a
      let s := if (s.cached? c va level).isSome then s else s.partHome a 8 false
      if p || !Pte.v e || Pte.malformed e level || Pte.lf e then s
      else State.readTables (s.cacheTable ⟨c, level, page, e⟩) c va (Pte.pfn e) n

/-- The 32 KiB page of an address. -/
def pageOf (va : Word) : Nat := va51 va / 2 ^ 15

/-- ROOT and TEN as an access finds them: from a write to them to the invalidation of the whole context either value, by a free choice
(R75). -/
def State.transWord (s : State) (c : BitVec 12) (va : Word) : Word :=
  match Tab.get none s.mmu.stale c.toNat with
  | some old => if Config.useStale s.freeCtr c (pageOf va) then old else s.reg (Reg.trans c.toNat 0)
  | none => s.reg (Reg.trans c.toNat 0)

/-- Translation enabled. -/
def State.ten (s : State) (c : BitVec 12) (va : Word) : Bool := bit (s.transWord c va) 0

/-- The top table of a context (R75). -/
def State.rootOf (s : State) (c : BitVec 12) (va : Word) : Nat := bits (s.transWord c va) 51 15 * 2 ^ 15

/-- The walk of a context's tables (R71, R75). -/
def State.walk (s : State) (c : BitVec 12) (va : Word) : WalkRes := s.walkFrom c va (s.rootOf c va) 3

/-- The same walk with its reads made. -/
def State.walkReads (s : State) (c : BitVec 12) (va : Word) : State := s.readTables c va (s.rootOf c va) 3

/-! ### Cached translations (R76) -/

/-- The core whose TLBs a requester uses; the queue hardware and the task intake have none, and walk. -/
def Waiter.core? : Waiter → Option (BitVec 10)
  | .group c _ | .engine c _ _ => some c
  | _ => none

/-- The section of a core: sixteen by twelve cores (R5). -/
def sectionOf (c : BitVec 10) : Nat := c.toNat / 192

def TlbEntry.covers (t : TlbEntry) (c : BitVec 12) (va : Word) : Bool := t.ctx = c && t.page = va51 va / 2 ^ pageBits t.level

/-- The set of a section TLB in which an entry sits: VA[22:15], VA[34:27] or VA[46:39] by its size. -/
def TlbEntry.set (t : TlbEntry) : Nat := t.page % 256

def State.sect (s : State) (n : Nat) : List TlbEntry := Tab.get [] s.mmu.sects n

/-- The cached translation of an address, in the core TLB of the requester or in the TLB of its section. -/
def State.tlb? (s : State) (who : Waiter) (c : BitVec 12) (va : Word) : Option TlbEntry :=
  match who.core? with
  | none => none
  | some k =>
    match (s.core k).tlb.find? fun t => t.covers c va with
    | some t => some t
    | none => (s.sect (sectionOf k)).find? fun t => t.covers c va

/-- An entry put into a TLB, most recent first, without another of the same page. -/
def addEntry (t : TlbEntry) (l : List TlbEntry) : List TlbEntry :=
  t :: l.filter fun x => !(x.ctx = t.ctx && x.level = t.level && x.page = t.page)

/-- The eight most recent entries of a set, the others as they are. -/
def trimSet (k : Nat) : List TlbEntry → Nat → List TlbEntry
  | [], _ => []
  | t :: r, n =>
    if t.set = k then (match n with
      | 0 => trimSet k r 0
      | n + 1 => t :: trimSet k r n)
    else t :: trimSet k r n

/-- An entry becomes the most recent of the core TLB and of the section TLB of the requester; the least recently used goes, by R76 from
a set of the section TLB (of the core TLB: log 10). -/
def State.useEntry (s : State) (who : Waiter) (t : TlbEntry) : State :=
  let s := if t.level = 2 then s.noteUse t.ctx t.page t.leaf else s
  match who.core? with
  | none => s
  | some k =>
    let r := s.core k
    let s := s.setCore k { r with tlb := (addEntry t r.tlb).take 64 }
    let n := sectionOf k
    { s with mmu := { s.mmu with sects := Tab.set [] s.mmu.sects n (trimSet t.set (addEntry t (s.sect n)) 8) } }

def State.fillTlb (s : State) (who : Waiter) (c : BitVec 12) (va : Word) (level : Nat) (e : Word) : State :=
  s.useEntry who ⟨c, va51 va / 2 ^ pageBits level, level, e⟩

/-- A translation used: its entry is the most recent. One found in the core TLB leaves the section TLB as it is. -/
def State.touchTlb (s : State) (who : Waiter) (c : BitVec 12) (va : Word) : State :=
  match who.core? with
  | none => s
  | some k =>
    let r := s.core k
    match r.tlb.find? fun t => t.covers c va with
    | some t => (s.setCore k { r with tlb := addEntry t r.tlb }).noteUse t.ctx (if t.level = 2 then t.page else 0) (if t.level = 2 then t.leaf else 0)
    | none =>
      match s.tlb? who c va with
      | some t => s.useEntry who t
      | none => s

/-- The leaf of an address as a requester finds it: cached, or for one without a TLB as the walk finds it, while one of the 64 walkers is
free (R76). -/
def State.leafOf (s : State) (who : Waiter) (c : BitVec 12) (va : Word) : Option (Nat × Word) :=
  match s.tlb? who c va with
  | some t => some (t.level, t.leaf)
  | none =>
    if who.core?.isSome || 64 ≤ s.mmu.walks.length then none
    else
      match s.walk c va with
      | .leaf level e _ => some (level, e)
      | _ => none

/-! ### Extents (R58 to R60, R69) -/

/-- The extent that covers an address and is not free: its STATE and owner. -/
def State.extentOf (s : State) (pa : Nat) : Option (Nat × BitVec 12) :=
  (s.mgmt.find? fun (o, w) =>
    0xB0000 ≤ o && o < 0xC0000 && o % 16 = 0 && bits w 1 0 ≠ 0 &&
    bits w 63 27 ≤ pa / 2 ^ 27 && pa / 2 ^ 27 < bits w 63 27 + bits w 26 14).map
    fun (_, w) => (bits w 1 0, BitVec.ofNat 12 (bits w 13 2))

/-- Whether the media at `pa` may be reached by the context: nothing, or the kind and SUB of the fault. -/
def State.extentFault (s : State) (c : BitVec 12) (pa : Nat) : Option (BitVec 8 × BitVec 4) :=
  if !Config.fittingL then none
  else
    match s.extentOf pa with
    | some (2, o) => if o = c then none else some (2, 6)
    | some (3, _) => some (5, 0)
    | _ => if Config.runtimeBlock (pa / 2 ^ 27) && c = 0 then none else some (2, 6)

/-! ### Surfaces (R82, R84) -/

/-- A surface record: base, size, metadata, aperture, coded; or the kind, SUB and DEC of the fault of using it. -/
def State.surface (s : State) (c : BitVec 12) (idx : Nat) : Except (BitVec 8 × BitVec 4 × BitVec 4) (Word × Nat × Word × Word × Bool) :=
  let r := s.reg (Reg.trans c.toNat 8)
  if bits r 63 52 ≤ idx then .error (2, 5, 0)
  else
    let a := bits r 51 6 * 64 + 64 * idx
    if !populated a then .error (2, 2, 0)
    else if (s.unreachable a).isSome then .error (((s.unreachable a).getD (6, 0)).1, 0, ((s.unreachable a).getD (6, 0)).2)
    else if (s.peek a).2 || (s.peek (a + 32)).2 then .error (4, 0, 0)
    else
      let base := (s.peek a).1
      let size := (s.peek (a + 8)).1
      let md := (s.peek (a + 16)).1
      let ap := (s.peek (a + 24)).1
      let f := (s.peek (a + 32)).1
      if !bit f 63 || bits f 61 0 ≠ 0 || base.toNat % 2048 ≠ 0 || size.toNat % 2048 ≠ 0 || 2 ^ 48 < size.toNat ||
          md.toNat % 64 ≠ 0 || ap.toNat % 32768 ≠ 0 || !canonical base || !canonical md || !canonical ap ||
          (s.peek (a + 40)).1 ≠ 0 || (s.peek (a + 48)).1 ≠ 0 || (s.peek (a + 56)).1 ≠ 0 then .error (2, 5, 0)
      else .ok (base, size.toNat, md, ap, bit f 62)

/-! ### Translating an access (R318 checks 2 to 4) -/

/-- The outcome for one access. -/
inductive Xlat
  /-- Physical address, type and CO of the leaf. Addresses from 2^52 up stand for the registered-code window, from 2^53 up for
  aperture lines. -/
  | ok (pa : Nat) (mt : MType) (co : Bool)
  | bad (kind : BitVec 8) (sub : BitVec 4) (dec : BitVec 4)
  /-- Waits on a page request for an address accessed so (R78); permission or V = 0. -/
  | page (va : Word) (k : AccKind) (perm : Bool)
  /-- Waits for the walk of an address accessed so to end (R76), or for what holds it. -/
  | walk (va : Word) (k : AccKind)
  deriving DecidableEq, Repr

/-- The registered-code window (R392). -/
def codeWindow : Nat := 0x3F00000000000

def inCodeWindow (va : Word) : Bool := codeWindow ≤ va.toNat && va.toNat < codeWindow + 2 ^ 34

/-- The words of the image that a window address lies in. -/
def State.codeAt (s : State) (off : Nat) : Option Word :=
  match Tab.get none s.cxl.kernels (off / 2 ^ 24) with
  | some k => k.code[off % 2 ^ 24 / 8]?
  | none => none

/-- The leaf applied to the address (R318 checks 2 to 4, R69, R81); an extent that an expander has reported gone is gone for every access
(R60). -/
def State.checkLeaf (s : State) (c : BitVec 12) (va : Word) (k : AccKind) (level : Nat) (e : Word) : Xlat :=
  let pa := Pte.pfn e + va51 va % 2 ^ pageBits level
  let mt := Pte.mt e
  if !populated pa then .bad 2 2 0
  else if k = .atomic && (mt = .uc || mt = .wc) then .bad 2 3 0
  else
    match s.extentFault c pa with
    | some (2, sub) => .bad 2 sub 0
    | ext =>
      if k.writes && !Pte.w e then .page va k true
      else if k = .fetch && !Pte.x e then .page va k true
      else
        match ext with
        | some (kd, sub) => .bad kd sub 0
        | none =>
          if decide (pa / 2 ^ 15 ∈ s.cxl.gone) then .bad 5 0 0
          else if s.lost pa then .bad 6 0 (BitVec.ofNat 4 (Config.hdmDecoder pa).toNat) else .ok pa mt (Pte.co e)

/-- An address of the registered-code window (R392): read where the image has a word, never written. -/
def State.translateCode (s : State) (va : Word) (k : AccKind) : Xlat :=
  if k.writes then .bad 2 3 0
  else
    match s.codeAt (va.toNat - codeWindow) with
    | some _ => .ok (2 ^ 52 + (va.toNat - codeWindow)) .wb false
    | none => .bad 2 7 0

/-- A translation that is no aperture. -/
def State.translatePlain (s : State) (who : Waiter) (c : BitVec 12) (va : Word) (k : AccKind) : Xlat :=
  if inCodeWindow va then s.translateCode va k
  else
    match s.leafOf who c va with
    | some (level, e) => s.checkLeaf c va k level e
    | none =>
      match s.walk c va with
      | .bad kd sub dec => .bad kd sub dec
      | _ => .walk va k

/-- An aperture leaf (R84): the surface, the bounds, and the surface's own mapping of the block and of its metadata byte. -/
def State.translateAperture (s : State) (who : Waiter) (c : BitVec 12) (va : Word) (k : AccKind) (e : Word) : Xlat :=
  if k.writes then .bad 2 4 0
  else if k = .fetch && !Pte.x e then .page va k true
  else
    match s.surface c (Pte.swi e) with
    | .error (kd, sub, dec) => .bad kd sub dec
    | .ok (base, size, md, ap, cmp) =>
      if !cmp || va.toNat < ap.toNat || size ≤ va.toNat - ap.toNat then .bad 2 4 0
      else
        let n := (va.toNat - ap.toNat) / 2048
        match s.translatePlain who c (base + BitVec.ofNat 64 (2048 * n)) .load, s.translatePlain who c (md + BitVec.ofNat 64 n) .load with
        | .ok .., .ok .. => .ok (2 ^ 53 + c.toNat * 2 ^ 51 + va51 va) .sm false
        | .ok .., x => x
        | x, _ => x

/-- One address of a context translated for an access (R318 checks 2 to 4). -/
def State.translate (s : State) (who : Waiter) (c : BitVec 12) (va : Word) (k : AccKind) : Xlat :=
  if !canonical va then .bad 2 0 0
  else if !s.ten c va then .bad 2 8 0
  else if inCodeWindow va then s.translateCode va k
  else
    match s.leafOf who c va with
    | some (level, e) => if Pte.si e then s.translateAperture who c va k e else s.checkLeaf c va k level e
    | none =>
      match s.walk c va with
      | .bad kd sub dec => .bad kd sub dec
      | _ => .walk va k

/-- The last of `n` bytes of the registered-code window has no word of the image under it (R392). -/
def State.pastCode (s : State) (pa n : Nat) : Bool :=
  2 ^ 52 ≤ pa && decide (pa < 2 ^ 53) && (s.codeAt (pa - 2 ^ 52 + (n - 1))).isNone

/-- `n` bytes translated for an access, of which the first is at `va`. -/
def State.translateN (s : State) (who : Waiter) (c : BitVec 12) (va : Word) (n : Nat) (k : AccKind) : Xlat :=
  match s.translate who c va k with
  | .ok pa mt co => if s.pastCode pa n then .bad 2 7 0 else .ok pa mt co
  | x => x

/-! ### Walks and page requests (R76, R78) -/

/-- A miss joins the walk of its page, or starts one. -/
def State.joinWalk (s : State) (who : Waiter) (c : BitVec 12) (va : Word) (wr fx : Bool) : State :=
  let p := pageOf va
  if s.mmu.walks.any fun w => w.ctx = c && w.page = p then
    { s with mmu := { s.mmu with walks := s.mmu.walks.map fun w =>
        if w.ctx = c && w.page = p then
          { w with wr := w.wr || wr, fx := w.fx || fx, waiters := if who ∈ w.waiters then w.waiters else w.waiters ++ [who] } else w } }
  else { s with mmu := { s.mmu with walks := s.mmu.walks ++ [⟨c, p, wr, fx, [who]⟩] } }

/-- The lowest PRID not outstanding (R78). -/
def State.freePrid (s : State) : Option Nat :=
  (List.range (min 4096 (s.mmu.reqs.length + 1))).find? fun i => s.mmu.reqs.all fun r => r.prid.toNat ≠ i

/-- Sign extension of VA[50:0]. -/
def vaOf (n : Nat) : Word := ofInt 64 (signedOf 51 n)

/-- One page request per context and page, posted to the event ring; another access joins it (R78). With every id in use none is
posted, and the access asks again. -/
def State.pageRequest (s : State) (who : List Waiter) (c : BitVec 12) (va : Word) (wr fx perm : Bool) : State :=
  let p := pageOf va
  let add (l : List Waiter) : List Waiter := l ++ who.filter fun x => !(x ∈ l)
  if s.mmu.reqs.any fun r => r.ctx = c && r.page = p then
    { s with mmu := { s.mmu with reqs := s.mmu.reqs.map fun r =>
        if r.ctx = c && r.page = p then { r with waiters := add r.waiters } else r } }
  else
    match s.freePrid with
    | none => s
    | some id =>
      let s := { s with mmu := { s.mmu with
        reqs := s.mmu.reqs ++ [(⟨BitVec.ofNat 12 id, c, p, wr, fx, perm, add []⟩ : PageReq)] } }
      s.postEntry c
        [vaOf (p * 2 ^ 15),
         field 52 c.toNat ||| field 40 id ||| field 39 (b2n wr) ||| field 38 (b2n fx) ||| field 37 (b2n perm),
         s.timebase, field 56 2]

/-- A waiter whose page request is not answered: it goes on only once the host has written PGRESP (R78). -/
def State.awaits (s : State) (who : Waiter) : Bool := s.mmu.reqs.any fun r => decide (who ∈ r.waiters)

/-- A walk of the page is in progress, or the 64 walkers are busy: an access that is not a group's joins it (R76). -/
def State.walkBusy (s : State) (c : BitVec 12) (va : Word) : Bool :=
  decide (64 ≤ s.mmu.walks.length) || s.mmu.walks.any fun w => w.ctx = c && w.page = pageOf va

/-- The walk of an access that is not a group's, taken in the step of the access (log 10), while a walker is free. -/
def State.walkNow (s : State) (who : Waiter) (c : BitVec 12) (va : Word) : State :=
  if !canonical va || inCodeWindow va || !s.ten c va then s
  else
    match s.tlb? who c va with
    | some _ => s.touchTlb who c va
    | none =>
      if s.walkBusy c va then s
      else
        let r := s.walk c va
        let s := s.walkReads c va
        match r with
        | .leaf level e _ => s.fillTlb who c va level e
        | _ => s

/-- Was the page answered unresolvable for this waiter (R78)? -/
def State.unresolvable (s : State) (who : Waiter) (c : BitVec 12) (va : Word) : Bool :=
  s.mmu.verdicts.any fun v => v.1 = who && v.2.1 = c && v.2.2 = pageOf va

/-- The verdicts of a waiter, used up. -/
def State.clearVerdicts (s : State) (who : Waiter) : State :=
  { s with mmu := { s.mmu with verdicts := s.mmu.verdicts.filter fun v => v.1 ≠ who } }

/-- A request of a waiter that is gone leaves the filter. -/
def Filter.forget (f : Filter) (who : Waiter) : Filter :=
  { f with
    waiting := f.waiting.filter fun x => x.who ≠ some who
    turn := match f.turn with
      | some (w, x) => if w = who then none else some (w, x)
      | none => none }

/-- A waiter that is gone waits on nothing. -/
def State.forgetWaiter (s : State) (who : Waiter) : State :=
  let s := s.forgetAsker (.now who)
  { s with
    cxl := { s.cxl with filter := s.cxl.filter.map fun (x : Nat × Filter) => (x.1, x.2.forget who) }
    mmu := { s.mmu with
      verdicts := s.mmu.verdicts.filter fun v => v.1 ≠ who
      walks := s.mmu.walks.map fun (w : Walk) => { w with waiters := w.waiters.filter fun x => x ≠ who }
      reqs := s.mmu.reqs.map fun (r : PageReq) => { r with waiters := r.waiters.filter fun x => x ≠ who } } }

/-! ### Accesses of the part through a context's translation (R403, R208) -/

/-! ### Lines that are no memory: the code window and apertures (R84, R392) -/

/-- `n` bytes of a line from offset `lo`. -/
def lineBytes (d : LineData) (lo n : Nat) : Nat := bits d (8 * lo + 8 * n - 1) (8 * lo)

/-- A line of the registered-code window. -/
def State.codeLine (s : State) (line : Nat) : LineData :=
  BitVec.ofNat 1024 ((List.range 16).foldl (fun a i =>
    a + (match s.codeAt (128 * line % 2 ^ 52 + 8 * i) with
      | some w => w.toNat
      | none => 0) * 2 ^ (64 * i)) 0)

/-- Where an address that has been translated goes: its leaf, cached or walked to. -/
def State.leafNow (s : State) (who : Waiter) (c : BitVec 12) (va : Word) : Option (Nat × Word) :=
  match s.leafOf who c va with
  | some x => some x
  | none =>
    match s.walk c va with
    | .leaf level e _ => some (level, e)
    | _ => none

/-- D set in the leaf by an atomic OR at the home, before the first write through it (R74). -/
def State.markDirty (s : State) (who : Waiter) (c : BitVec 12) (va : Word) : State :=
  match s.leafNow who c va with
  | some (_, t) =>
    if Pte.d t || Pte.si t then s
    else
      match s.walk c va with
      | .leaf level e a => (s.writeWord a (e ||| 4)).fillTlb who c va level (e ||| 4)
      | _ => s
  | none => s

/-- Where one byte that an aperture reads lies, with type and CO of its leaf; from 2^52 up in the code window. -/
def State.pieceAt (s : State) (who : Waiter) (c : BitVec 12) (va : Word) : Option (Nat × MType × Bool) :=
  if inCodeWindow va then some (2 ^ 52 + (va.toNat - codeWindow), .wb, false)
  else (s.leafNow who c va).map fun x => (Pte.pfn x.2 + va51 va % 2 ^ pageBits x.1, Pte.mt x.2, Pte.co x.2)

/-- What the aperture line of a context reads (R84): the sixteen lines of its block, where its metadata byte is, and its offset in the block. -/
structure Aperture where
  lines : List (Nat × MType × Bool)
  md : Nat × MType × Bool
  off : Nat
  deriving Repr

def State.aperture (s : State) (who : Waiter) (line : Nat) : Option Aperture :=
  let c := BitVec.ofNat 12 ((128 * line - 2 ^ 53) / 2 ^ 51)
  let va := vaOf (128 * line % 2 ^ 51)
  (s.leafNow who c va).bind fun x =>
    match s.surface c (Pte.swi x.2) with
    | .error _ => none
    | .ok (base, _, md, ap, _) =>
      let off := va.toNat - ap.toNat
      let lines := (List.range 16).filterMap fun i => s.pieceAt who c (base + BitVec.ofNat 64 (off / 2048 * 2048 + 128 * i))
      if lines.length = 16 then (s.pieceAt who c (md + BitVec.ofNat 64 (off / 2048))).map fun m => ⟨lines, m, off % 2048⟩ else none

/-- Its pieces of memory, with how many bytes each has. -/
def Aperture.pieces (a : Aperture) : List (Nat × Nat × Bool) :=
  ((a.lines.map fun (x : Nat × MType × Bool) => (x.1, 128, x.2.2)) ++ [(a.md.1, 1, a.md.2.2)]).filter fun (x : Nat × Nat × Bool) => decide (x.1 < 2 ^ 52)

/-- The piece that keeps an aperture access waiting, as it would any other access (R54, R56, R84). -/
def State.apertureHeld (s : State) (who : Waiter) (line : Nat) : Option (Nat × Nat × Bool) :=
  (s.aperture who line).bind fun a => a.pieces.find? fun (x : Nat × Nat × Bool) => s.heldNow who x.1 x.2.1 false x.2.2

/-- A line read for an aperture as its leaf says. -/
def State.pieceLine (s : State) (who : Waiter) (x : Nat × MType × Bool) : State × LineData × BitVec 4 :=
  if 2 ^ 52 ≤ x.1 then (s, s.codeLine (x.1 / 128), 0) else (s.passNow who x.1 false).readAs x.2.1 x.2.2 (x.1 / 128)

/-- Lines one after another, as one number, and whether some byte is poisoned. -/
def State.pieceLines (s : State) (who : Waiter) : List (Nat × MType × Bool) → State × Nat × Bool
  | [] => (s, 0, false)
  | x :: r =>
    let (s, d, p) := s.pieceLine who x
    let (s, v, q) := State.pieceLines s who r
    (s, d.toNat + 2 ^ 1024 * v, p ≠ 0 || q)

/-- The decoded line of an aperture address, and its poison (R83, R84). -/
def State.apertureLine (s : State) (who : Waiter) (line : Nat) : State × LineData × BitVec 4 :=
  match s.aperture who line with
  | none => (s, 0, 15)
  | some a =>
    let (s, blk, p) := s.pieceLines who a.lines
    let (s, m, q) := s.pieceLine who a.md
    match Config.decodeBlock (BitVec.ofNat 16384 blk) (BitVec.ofNat 8 (lineBytes m (a.md.1 % 128) 1)) with
    | some d =>
      if p || (q &&& sectorMask (a.md.1 % 128) 1) ≠ 0 then (s, 0, 15) else (s, BitVec.ofNat 1024 (d.toNat / 2 ^ (8 * a.off)), 0)
    | none => (s, 0, 15)

/-- A line of the window or of an aperture. -/
def State.windowLine (s : State) (who : Waiter) (line : Nat) : State × LineData × BitVec 4 :=
  if 2 ^ 53 ≤ 128 * line then s.apertureLine who line else (s, s.codeLine line, 0)

/-- An access of `n` bytes, about to be performed where `pa` stands, has to wait; one of the code window never has. -/
def State.heldAt (s : State) (who : Waiter) (pa n : Nat) (wr co : Bool) : Bool :=
  if 2 ^ 53 ≤ pa then (s.apertureHeld who (pa / 128)).isSome else pa < 2 ^ 52 && s.heldNow who pa n wr co

/-- What it does while it waits. -/
def State.askAt (s : State) (who : Waiter) (pa n : Nat) (wr co : Bool) : State :=
  if 2 ^ 53 ≤ pa then
    match s.apertureHeld who (pa / 128) with
    | some x => s.askNow who x.1 x.2.1 false x.2.2
    | none => s
  else if 2 ^ 52 ≤ pa then s
  else s.askNow who pa n wr co

/-- An access that cannot go on waits for a walk, a page or what holds it; the waiter is put on the request. `n` bytes. -/
def State.awaitPage (s : State) (who : Waiter) (c : BitVec 12) (va : Word) (k : AccKind) (n : Nat) : State :=
  match s.translate who c va k with
  | .walk v j =>
    let joins := match who with
      | .group .. => true
      | _ => s.walkBusy c v
    if s.mmu.reqs.any fun r => r.ctx = c && r.page = pageOf v && decide (who ∈ r.waiters) then s
    else if joins then s.joinWalk who c v j.writes (j = .fetch)
    else
      match s.walk c v with
      | .leaf .. => s.walkNow who c v
      | _ => s.pageRequest [who] c v j.writes (j = .fetch) false
  | .page v j perm => s.pageRequest [who] c v j.writes (j = .fetch) perm
  | .ok pa _ co => s.askAt who pa n k.writes co
  | _ => s

/-- The same for an access that got no further than `x`. -/
def State.awaitX (s : State) (who : Waiter) (c : BitVec 12) (x : Xlat) (n : Nat) : State :=
  match x with
  | .walk va k | .page va k _ => s.awaitPage who c va k n
  | _ => s

/-- The page that such an access waits for has been answered unresolvable. -/
def State.unresolvableX (s : State) (who : Waiter) (c : BitVec 12) (x : Xlat) : Bool :=
  match x with
  | .walk va _ | .page va _ _ => s.unresolvable who c va
  | _ => false

/-- An access of the part within one line: what it waits for or why it faults, or where it goes. -/
def State.reach (s : State) (who : Waiter) (c : BitVec 12) (va : Word) (n : Nat) (k : AccKind) : Except Xlat (Nat × MType × Bool) :=
  if s.awaits who then .error (.walk va k)
  else
    match s.translateN who c va n k with
    | .ok pa mt co => if s.heldAt who pa n k.writes co then .error (.walk va k) else .ok (pa, mt, co)
    | x => .error x

/-- `n` bytes at a virtual address within one line: the bytes, or why not. -/
def State.readVa (s : State) (who : Waiter) (c : BitVec 12) (va : Word) (n : Nat) : Except Xlat (State × Nat) :=
  let s := s.walkNow who c va
  match s.reach who c va n .load with
  | .ok (pa, mt, co) =>
    let (s, d, p) := if 2 ^ 52 ≤ pa then s.windowLine who (pa / 128) else (s.passNow who pa false).readAs mt co (pa / 128)
    if (p &&& sectorMask (pa % 128) n) ≠ 0 then .error (.bad 4 0 0) else .ok (s, lineBytes d (pa % 128) n)
  | .error x => .error x

def State.readVaWords (s : State) (who : Waiter) (c : BitVec 12) (va : Word) : Nat → Except Xlat (State × List Word)
  | 0 => .ok (s, [])
  | n + 1 =>
    match s.readVa who c va 8 with
    | .error x => .error x
    | .ok (s, v) =>
      match State.readVaWords s who c (va + 8) n with
      | .error x => .error x
      | .ok (s, r) => .ok (s, BitVec.ofNat 64 v :: r)

/-- A write to the second tier or to the host, which a viral context drops and counts (R115). LASTDROP is the target address, and the spec does not say
whether the virtual or the physical one: here it is the virtual address of a store, an atomic or an engine write, as its access has it (DEDUCED,
log 26; WC buffers and cached lines, which have none, give the physical one). -/
def State.dropWrite (s : State) (c : BitVec 12) (target : Word) : State :=
  (s.countReg (Reg.contain c.toNat 8) 31 0).setReg (Reg.contain c.toNat 16) target

/-- `n` bytes of `v` written at a virtual address within one line as an engine write (R208), with poison; the timestamp. -/
def State.writeVa (s : State) (who : Waiter) (c : BitVec 12) (va : Word) (n v : Nat) (p : Bool) : Except Xlat (State × BitVec 48) :=
  let s := s.walkNow who c va
  match s.reach who c va n .engine with
  | .ok (pa, mt, co) =>
    if secondTier pa && s.viral c then .ok (s.dropWrite c va, 0)
    else
      let s := (s.passNow who pa true).markDirty who c va
      let lo := pa % 128
      .ok (s.writeAs mt co (pa / 128) (BitVec.ofNat 1024 (v * 2 ^ (8 * lo))) (byteMask lo n) (if p then 15 else 0))
  | .error x => .error x

def State.writeVaWords (s : State) (who : Waiter) (c : BitVec 12) (va : Word) : List Word → Except Xlat State
  | [] => .ok s
  | w :: r =>
    match s.writeVa who c va 8 w.toNat false with
    | .error x => .error x
    | .ok (s, _) => State.writeVaWords s who c (va + 8) r

end Sys2Proof.Machine
end

