-- ==== Sys2Proof/Machine/Launch.lean ====
section
/-! DEFINITION. Launches and groups as the scheduler sees them: the fields of a launch record (R98),
releasing what a group held (R123, R135, R159, R282), and the end of a launch (R67, R100, R114, R145). -/

namespace Sys2Proof.Machine

/-! ### The launch record (R98) -/

def Launch.word (l : Launch) (i : Nat) : Word := l.words.getD i 0
def Launch.entry (l : Launch) : Word := l.word 0
def Launch.argb (l : Launch) : Word := l.word 1
def Launch.gx (l : Launch) : Nat := bits (l.word 2) 63 48
def Launch.gy (l : Launch) : Nat := bits (l.word 2) 47 32
def Launch.gz (l : Launch) : Nat := bits (l.word 2) 31 16
def Launch.cw (l : Launch) : Nat := bits (l.word 3) 63 60 + 1
def Launch.chh (l : Launch) : Nat := bits (l.word 3) 59 56 + 1
def Launch.team (l : Launch) : Nat := bits (l.word 3) 55 53 + 1
def Launch.nlane (l : Launch) : Nat := bits (l.word 3) 52 46
def Launch.slicew (l : Launch) : Nat := bits (l.word 3) 45 38
def Launch.pcls (l : Launch) : Nat := bits (l.word 3) 37 36
def Launch.msd (l : Launch) : Nat := bits (l.word 3) 35 28
/-- Mdepth: MSD, or 32 where it is 0 (R173). -/
def Launch.mdepth (l : Launch) : Nat := if l.msd = 0 then 32 else l.msd
def Launch.ymax (l : Launch) : Nat := bits (l.word 3) 27 24
def Launch.spres (l : Launch) : Nat := bits (l.word 3) 23 12
def Launch.wbud (l : Launch) : Nat := bits (l.word 4) 63 32
def Launch.dtlen (l : Launch) : Nat := bits (l.word 4) 31 16
def Launch.csetn (l : Launch) : Nat := bits (l.word 4) 15 12
def Launch.dtb (l : Launch) : Word := l.word 5
def Launch.traph (l : Launch) : Word := l.word 6
def Launch.csetb (l : Launch) : Word := l.word 7
/-- Words +0 and +8 of format slot n. -/
def Launch.fslot (l : Launch) (n : Nat) : Word × Word := (l.word (16 + 2 * n), l.word (17 + 2 * n))
def Launch.cset (l : Launch) (n : Nat) : Word × Word := l.csets.getD n (0, 0)

/-- Scratchpad bytes of a group's spill window, of its slices, and the need of a core (R99 check 5). -/
def Launch.window (l : Launch) : Nat := 16 * (l.mdepth - 8)
def Launch.slices (l : Launch) : Nat := l.nlane * 4 * l.slicew
def Launch.need (l : Launch) : Nat := l.team * l.slices + l.team * l.window + 64 * l.spres

def State.launch (s : State) (k : Nat) : Launch := Tab.get Launch.none s.sch.launches k

def State.setLaunch (s : State) (k : Nat) (l : Launch) : State :=
  { s with sch := { s.sch with launches := Tab.set Launch.none s.sch.launches k l } }

/-! ### Queue-table entries (R90) -/

def State.qentry (s : State) (c : BitVec 12) (h : BitVec 16) : Nat :=
  bits (s.reg (Reg.queue c.toNat 0)) 51 6 * 64 + 64 * h.toNat

/-- Word i of an entry, as it stands. -/
def State.qword (s : State) (c : BitVec 12) (h : BitVec 16) (i : Nat) : Word := (s.peek (s.qentry c h + 8 * i)).1

def State.setQword (s : State) (c : BitVec 12) (h : BitVec 16) (i : Nat) (w : Word) : State :=
  s.writeWord (s.qentry c h + 8 * i) w

def Qw.type (w : Word) : Nat := if bits w 63 60 < 4 then bits w 63 60 else 0
def Qw.en (w : Word) : Bool := bit w 59
def Qw.err (w : Word) : Bool := bit w 58
def Qw.bpri (w : Word) : Nat := bits w 57 54

/-- ERR of an entry set, in the table and in a resident expert queue. -/
def State.setErr (s : State) (c : BitVec 12) (h : BitVec 16) : State :=
  let s := s.setQword c h 0 (s.qword c h 0 ||| field 58 1)
  { s with sch := { s.sch with experts := s.sch.experts.map fun (x : ExpertQ) =>
    if x.ctx = c && x.qh = h then { x with entry := x.entry.set 0 (x.entry[0] ||| field 58 1) } else x } }

/-! ### Releasing what a group held -/

/-- Batch slots of an expert queue in use: number and address. -/
def State.batches (s : State) (c : BitVec 12) (h : Nat) : List (Nat × Word) := Tab.get [] s.sch.batches (c.toNat * 2 ^ 16 + h)

def State.setBatches (s : State) (c : BitVec 12) (h : Nat) (l : List (Nat × Word)) : State :=
  { s with sch := { s.sch with batches := Tab.set [] s.sch.batches (c.toNat * 2 ^ 16 + h) l } }

/-- A batch slot freed (R159); a queue that is not resident shows it in its entry (R146). -/
def State.freeBatch (s : State) (c : BitVec 12) (va : Word) : State :=
  (s.sch.batches.filter fun x => x.1 / 2 ^ 16 = c.toNat && x.2.any fun y => y.2 = va).foldl (fun s x =>
    let h := x.1 % 2 ^ 16
    let l := x.2.filter fun y => y.2 ≠ va
    let s := s.setBatches c h l
    if s.sch.experts.any fun q => q.ctx = c && q.qh.toNat = h then s
    else s.setQword c (BitVec.ofNat 16 h) 5 (setBits (s.qword c (BitVec.ofNat 16 h) 5) 54 48 l.length)) s

/-- A task group of the team runs, is saved, or waits as a record. -/
def State.teamTasks (s : State) (key : Nat) : Bool :=
  (s.groups ++ s.sch.saved).any (fun g => g.idx = 8 && g.team = key) || s.sch.places.any fun p => p.idx = 8 && p.team = key

/-- A team has one group fewer; with the last, its carve, places and slots are free (R123). What its task groups read of it stays until the
launch is over (R135). -/
def State.teamLess (s : State) (key : Nat) : State :=
  let f (t : Team) : Option Team :=
    if t.key ≠ key then some t
    else if 1 < t.alive then some { t with alive := t.alive - 1 }
    else if s.teamTasks key then some { t with alive := 0, base := 0, bytes := 0, places := [], reserved := [] }
    else none
  { s with sch := { s.sch with teams := s.sch.teams.filterMap f } }

/-! ### The end of a launch -/

/-- STATUS of a launch that ends (R114, R145): `kind` is the fault that ended it, 0xFF the teardown of R16. -/
def endStatus (viral : Bool) : Option (BitVec 8) → Nat
  | none => if viral then 6 else 0
  | some 0xFF => 7
  | some k => if k = 0x16 then 5 else if viral then 6 else if k = 5 || k = 6 then 8 else 4

/-- A task result as the intake sends it: over the task's Kalren connection, or into the head's ring (R67). One for a lost head is discarded
(R120). -/
def State.sendResult (s : State) (t : Task) (status : Nat) : State :=
  let ws := [t.rtag, t.serial, field 60 status, s.timebase]
  let head := if t.cxlio then t.conn - 3968 else s.regBits (Reg.conn t.conn 0) 13 8
  if decide (head ∈ s.cxl.lostHeads) then s
  else if t.cxlio then { s with cxl := { s.cxl with ioOut := s.cxl.ioOut ++ [⟨t.conn - 3968, 0, ws⟩] } }
  else
    let k := Tab.get Conn.idle s.net.conns t.conn
    let bytes := ws.flatMap fun w => (List.range 8).map fun i => BitVec.ofNat 8 (w.toNat / 256 ^ i)
    let k := { k with waitTx := k.waitTx ++ [⟨0, 0, 32, some bytes, none, 0, []⟩] }
    { s with net := { s.net with conns := Tab.set Conn.idle s.net.conns t.conn k } }

/-- Unregistered kernels that no admitted task uses leave the table (R63). -/
def State.freeKernels (s : State) : State :=
  { s with cxl := { s.cxl with kernels := s.cxl.kernels.filter fun x =>
    match x.2 with
    | some k => !k.unregistered || s.cxl.tasks.any (fun t => t.kernel = x.1) || s.cxl.starting.any (fun t => t.1.kernel = x.1)
    | none => false } }

/-- STATUS of a task launch (R68, R392): 7 wherever its context is viral. The spec names none for a launch ended by a teardown or with its
island (STATUS 7 of a command): 7 here too (DESIGN CHOICE, log 73). -/
def taskStatus (viral : Bool) (st : Nat) : Nat := if viral || st = 7 then 7 else if st = 0 then 0 else if st = 8 then 8 else 9

/-- The launch is over: its completion record, or its task result; with it its command is complete (R95, R100, R392). -/
def State.finishLaunch (s : State) (k : Nat) : State :=
  let l := s.launch k
  if l.finished then s
  else
    let st := endStatus (s.viral l.ctx) l.ending
    let s := s.setLaunch k { l with finished := true }
    let s := { s with sch := { s.sch with teams := s.sch.teams.filter fun t => t.launch ≠ k } }
    if l.task then
      match s.cxl.tasks.find? fun t => t.launch = k with
      | some t =>
        (s.sendResult t (taskStatus (s.viral l.ctx) st)) |> fun s => { s with cxl := { s.cxl with tasks := s.cxl.tasks.erase t } } |> State.freeKernels
      | none => s
    else if l.cmpl || st ≠ 0 then s.postCompletion l.ctx 0 l.lseq.toNat l.lqh.toNat st l.fkind.toNat l.ntrap.toNat 0
    else s

/-- Clusters of the grid still to place. -/
def Launch.unplaced (l : Launch) : Bool := l.nextCluster < l.gx * l.gy * l.gz

/-- A launch completes when no group of it is left, none waits in a place, and none is still to be placed (R145). -/
def State.checkLaunch (s : State) (k : Nat) : State :=
  let l := s.launch k
  if !l.finished && l.groups = 0 && (l.ending.isSome || !l.unplaced) && k ≠ 0 then s.finishLaunch k else s

/-- One group of the launch fewer. -/
def State.launchLess (s : State) (k : Nat) : State :=
  let l := s.launch k
  (s.setLaunch k { l with groups := l.groups - 1 }).checkLaunch k

/-- What a group held is released: its batch slot, its share of the team, its part of the launch (R123, R135, R159). -/
def State.releaseGroup (s : State) (g : Group) : State :=
  let s :=
    match g.batch with
    | some (va, _, _) => s.freeBatch g.ctx va
    | none => s
  let s := if g.idx = 8 then s else s.teamLess g.team
  s.launchLess g.launch

/-- The group of a slot is gone: slot, place, carve and batch slot are released (R123, R135, R159, R282). -/
def State.removeGroup (s : State) (core : BitVec 10) (slot : BitVec 3) : State :=
  match s.group? core slot with
  | none => s
  | some g =>
    let s := (s.letGo core slot).forgetWaiter (.group core slot)
    let s := s.modGroup core slot fun g => { Group.blank with core := g.core, slot := g.slot }
    s.releaseGroup g

/-- Phase and continuation records of a launch that ends are discarded (R114), with the batch slots of batch records. -/
def State.discardRecords (s : State) (k : Nat) : State :=
  let mine := s.sch.places.filter fun p => p.launch = k
  let s := { s with sch := { s.sch with places := s.sch.places.filter fun p => p.launch ≠ k } }
  mine.foldl (fun s p =>
    let s :=
      match p.batch with
      | some (va, _, _) => s.freeBatch (s.launch k).ctx va
      | none => s
    let s := if p.idx = 8 then s else s.teamLess p.team
    s.launchLess k) s

/-- EndLaunch of R114: its groups stop at their next clause boundary and its records are discarded. -/
def State.endLaunch (s : State) (k : Nat) (kind : BitVec 8) : State :=
  let l := s.launch k
  if l.ending.isSome || l.finished then s
  else ((s.setLaunch k { l with ending := some kind }).discardRecords k).checkLaunch k

/-- Is the launch ending, so that a group of it stops at a clause boundary? -/
def State.stopping (s : State) (g : Group) : Bool := (s.launch g.launch).ending.isSome

end Sys2Proof.Machine
end

