-- ==== Sys2Proof/Machine/Ops.lean ====
section
/-! DEFINITION. The named operations every meaning is made of: registers of a group (R168 to R171), latches (R174, R175), guards
(R250), holds and waits (R164, R180), how an instruction issues and retires (R165, R166, R258), taking a trap (R112, R390) and
returning from one (R113). -/

namespace Sys2Proof.Machine

/-! ### Registers of a group -/

/-- A scalar register: s60, s61 and s62 show EM (R168). -/
def Group.sread (g : Group) (n : BitVec 6) : Word :=
  if n = 60 then BitVec.ofNat 64 (bits g.em 31 0)
  else if n = 61 then BitVec.ofNat 64 (bits g.em 63 32)
  else if n = 62 then BitVec.ofNat 64 (bits g.em 95 64)
  else g.sregs[n.toNat]'(n.isLt)

/-- A write to EM: lanes that are not live stay 0 (R169). -/
def Group.setEm (g : Group) (m : Mask) : Group := { g with em := m &&& g.live }

/-- A write to a scalar register; s60..s62 write EM (R168, R169). -/
def Group.swrite (g : Group) (n : BitVec 6) (w : Word) : Group :=
  if n = 60 then g.setEm (setBits g.em 31 0 (bits w 31 0))
  else if n = 61 then g.setEm (setBits g.em 63 32 (bits w 31 0))
  else if n = 62 then g.setEm (setBits g.em 95 64 (bits w 31 0))
  else { g with sregs := g.sregs.set n.toNat w (n.isLt) }

/-- Predicate c0..c7; c7 is always true (R168). -/
def Group.pred (g : Group) (n : Nat) : Bool := n = 7 || bit g.preds n

/-- A write to a predicate; one to c7 is ignored. -/
def Group.setPred (g : Group) (n : Nat) (b : Bool) : Group :=
  if n < 7 then { g with preds := setBits g.preds n n (b2n b) } else g

def Group.vread (g : Group) (n : BitVec 6) : Lanes := g.vregs[n.toNat]'(n.isLt)

/-- The lanes of `m` written, the others kept (R170). -/
def mergeLanes (m : Mask) (new old : Lanes) : Lanes := Vector.ofFn fun i : Fin 96 => if bit m i then new[i] else old[i]

/-- A vector register written in the active lanes. -/
def Group.vwrite (g : Group) (n : BitVec 6) (x : Lanes) : Group :=
  { g with vregs := g.vregs.set n.toNat (mergeLanes g.em x (g.vread n)) (n.isLt) }

/-- K written whole: lanes that are not active receive 0 (R170). -/
def Group.setK (g : Group) (m : Mask) : Group := { g with k := m &&& g.em }

/-- Flags raised in sr.gsf: AOV, NQ, UF, OF, LX (R234, R235). -/
def Group.raise (g : Group) (f : BitVec 5) : Group := { g with gsf := g.gsf ||| f }

/-- Beats that issue: those with an active lane (R165). -/
def Group.beats (g : Group) : Nat :=
  b2n (bits g.em 31 0 ≠ 0) + b2n (bits g.em 63 32 ≠ 0) + b2n (bits g.em 95 64 ≠ 0)

/-- The in-flight counter of a path (R180). -/
def Group.counter (g : Group) (p : Nat) : Nat := (g.inflight.filter fun a => a.path.toNat = p).length

/-! ### Guards and latches -/

def guardTrue (g : Group) (x : BitVec 4) : Bool := (g.pred (bits x 2 0)) != (bit x 3)

/-- Both guards are true (R250). -/
def Group.guards (g : Group) (c : Ctl) : Bool := guardTrue g c.ga && guardTrue g c.gb

/-- Latch l(k + 1): the result of the instruction k + 1 positions back (R174). -/
def Group.latch (g : Group) (k : BitVec 3) : LatchV := g.latches.getD k.toNat .none

/-- The latch of a guarded-off instruction: 0, where the instruction has one (R174). -/
def latchZero : LatchKind → LatchV
  | .none => .none
  | .s => .s 0
  | .v => .v (Vector.replicate 96 0) (Vector.replicate 96 0)

/-- The source fields of an opcode with what they hold. -/
def opSources (o : OpInfo) : List (Fld × Opd) :=
  let f (s : FieldSpec) (x : Opd) : List (Fld × Opd) :=
    match s with
    | .src y => [(y, x)]
    | _ => []
  f o.d o.body.d ++ f o.a o.body.a ++ f o.b o.body.b ++ f o.c o.body.c ++
  (match o.eOpd, o.body with
   | some y, .rr w => [(y, Opd.ofByte w.e)]
   | _, _ => [])

/-- A latch named by a source that holds nothing (R174). -/
def opUnderrun (o : OpInfo) (g : Group) : Bool :=
  (opSources o).any fun (_, x) =>
    match x with
    | .latch k => g.latch k = .none
    | _ => false

/-- A vector latch named as a scalar source (R171). -/
def opVectorLatch (o : OpInfo) (g : Group) : Bool :=
  (opSources o).any fun (f, x) =>
    match x with
    | .latch k => f.file = .s && (match g.latch k with
        | .v .. => true
        | .pend id => g.inflight.any fun a => a.id = id && (match a.dst with | .v .. => true | _ => false)
        | _ => false)
    | _ => false

/-! ### Interlocks (R167) -/

/-- Registers a load will still write overlap `n` registers from `r` of the file. -/
def Dst.hits (d : Dst) (f : File) (r n : Nat) : Bool :=
  match d, f with
  | .s q m, .s => r < q.toNat + m && q.toNat < r + n
  | .v q m _, .v => r < q.toNat + m && q.toNat < r + n
  | _, _ => false

/-- A pending load writes a register that instructions read without naming it: EM, s59, s63 or K. -/
def Dst.implicit : Dst → Bool
  | .s q m => 59 < q.toNat + m
  | .v _ _ k => k
  | .none => false

/-- The instruction touches a register that a load is still writing, or a latch whose load has not returned. -/
def opHazard (o : OpInfo) (g : Group) : Bool :=
  let regs : List (Fld × Opd) := (opSources o) ++ (match o.d with | .dst f => [(f, o.body.d)] | _ => []) ++
    (match o.c with | .dst f => [(f, o.body.c)] | _ => [])
  g.inflight.any (fun a => !a.retired &&
    (a.dst.implicit || regs.any fun (f, x) =>
      match x with
      | .reg n => a.dst.hits f.file n.toNat f.count
      | .latch k => g.latch k = .pend a.id
      | _ => false))

/-! ### Retiring -/

/-- The next clause in sequence (R254). -/
def Group.nextHeader (g : Group) : Word := g.pc + BitVec.ofNat 64 (8 * (Header.count g.hdr + 2))

/-- The group at a clause boundary with `pc` next; latches are emptied (R175). -/
def Group.boundary (g : Group) (pc : Word) : Group :=
  { g with pc := pc, cpos := 0, inClause := false, latches := [], wait := none
           region := g.region.map fun r => { r with state := r.state.map fun l => { l with latches := [] } } }

/-- Past an instruction inside the clause: position and latches, those of a region with a plain tag. -/
def Group.past (g : Group) (lat : LatchV) : Group :=
  { g with cpos := g.cpos + 1, latches := lat :: g.latches, wait := none
           region := g.region.map fun r =>
             { r with state := r.state.map fun l => { l with latches := (.plain, .plain) :: l.latches } } }

/-- The deadline counter (R138), unless paused. -/
def Group.countDown (g : Group) : Group := if g.hmode then g else { g with dline := if g.dline = 0 then 0 else g.dline - 1 }

/-- The instruction count of an open region (R347). -/
def Group.countRegion (g : Group) : Group :=
  if g.hmode then g
  else { g with region := g.region.map fun r => { r with count := r.count + 1, long := r.long || 64 ≤ r.count } }

/-- Cycles of the port: issue cost and stall count (R165, R166). -/
def State.spend (s : State) (cost : Nat) (c : Ctl) : State := s.tick s.cur.core (cost + c.st.toNat)

/-- The instruction at the port is done, and leaves `lat` for the latches. At the clause's end the port is let go (R164). -/
def State.advance (s : State) (lat : LatchV) : State :=
  let g := s.cur
  if g.cpos.toNat = Header.count g.hdr then
    (s.letGo g.core g.slot).setCur (g.boundary g.nextHeader)
  else s.setCur (g.past lat)

/-- An instruction of the ordinary kind retires: counted, its cycles spent, the next one up. -/
def State.retire (s : State) (c : Ctl) (cost : Nat) (lat : LatchV) : State :=
  ((s.setCur s.cur.countDown.countRegion).spend cost c).advance lat

/-- A taken transfer (R271): the next clause begins at the target. -/
def State.jump (s : State) (c : Ctl) (target : Word) : State :=
  let s := (s.setCur s.cur.countDown.countRegion).spend 1 c
  let g := s.cur
  (s.letGo g.core g.slot).setCur (g.boundary target)

/-- The group waits at its instruction; the time it first waited is kept. -/
def State.waitAt (s : State) (kind : BitVec 4) (obj expect : Word) (lane : BitVec 8) (pend : Pend) : State :=
  let g := s.cur
  let (s, n) := s.stamp
  let st := match g.wait with
    | some w => w.stamp
    | none => n
  s.setCur { g with wait := some ⟨kind, obj, expect, lane, st, pend⟩ }

/-- The group is blocked at its instruction and the port passes on (R164). -/
def State.block (s : State) (kind : BitVec 4) (obj expect : Word) (lane : BitVec 8) (pend : Pend) : State :=
  (s.letGo s.cur.core s.cur.slot).waitAt kind obj expect lane pend

/-- Issue is held, without charge: the group keeps the port and tries its instruction again (R164, R167, R177, R180). -/
def State.hold (s : State) : State := s.waitAt 15 0 0 0xFF .retry

/-- The group is blocked on a page, or on what holds one, without charge (R78, R87). -/
def State.pause (s : State) : State := s.block 15 0 0 0xFF .retry

/-! ### Accesses that end (R180) -/

/-- Nothing more is awaited of the access. -/
def Access.finished (a : Access) : Bool := a.retired || (a.performed && a.acks = 0 && a.dst = .none)

/-- Finished accesses leave, but none before an earlier one of its path (R180). -/
def settleFrom (stuck : List Nat) : List Access → List Access
  | [] => []
  | a :: r =>
    if a.finished && !(a.path.toNat ∈ stuck) then settleFrom stuck r
    else a :: settleFrom (a.path.toNat :: stuck) r

/-- Counters lowered; a group that has executed EXIT is gone once none is left (R282). -/
def State.settle (s : State) (core : BitVec 10) (slot : BitVec 3) : State :=
  let s := s.modGroup core slot fun g => { g with inflight := settleFrom [] g.inflight }
  match s.group? core slot with
  | some g => if g.life = .draining && g.inflight.isEmpty && g.late.isNone then s.removeGroup core slot else s
  | none => s

/-- One access in flight changed. -/
def State.modAccess (s : State) (core : BitVec 10) (slot : BitVec 3) (id : Nat) (f : Access → Access) : State :=
  s.modGroup core slot fun g => { g with inflight := g.inflight.map fun a => if a.id = id then f a else a }

/-- The group's clock raised to a timestamp (R197); the core keeps the highest (R202). -/
def State.raisePts (s : State) (core : BitVec 10) (slot : BitVec 3) (t : BitVec 48) : State :=
  let s := s.modGroup core slot fun g => { g with pts := max48 g.pts t }
  let r := s.core core
  s.setCore core { r with hiPts := max48 r.hiPts t }

/-- A write of the group issued now is dropped if its target is outbound (R116): always for the consuming group and later than 32
cycles after entry; in between either, by a free value. -/
def State.dropsNow (s : State) (g : Group) : State × Bool :=
  if !s.viral g.ctx then (s, false)
  else
    match Tab.get none s.sch.viralAt g.ctx.toNat with
    | some (c, l, t) =>
      if (c = g.core && l = g.slot) || 16 < (s.timebase - t).toNat then (s, true) else s.free
    | none => (s, true)

/-- A write that a target outside the L2 performs and acknowledges, awaited by the accesses it serves (R215): line, data, mask and poison; whether
the bytes are at the home already; the lanes that are done with the acknowledgement. -/
def State.awaitAck (s : State) (core : BitVec 10) (slot : BitVec 3) (accs : List Nat) (line : Nat) (data : LineData) (mask : BitVec 128)
    (p : BitVec 4) (home : Bool) (lanes : List (BitVec 7 × Word)) : State :=
  let (s, n) := s.stamp
  let s := { s with coh := { s.coh with acks := s.coh.acks ++ [(⟨n, core, slot, accs, some (line, data, mask, p), home, lanes⟩ : TargetAck)] } }
  accs.foldl (fun s i => s.modAccess core slot i fun a => { a with acks := a.acks + 1 }) s

/-! ### Write-combining buffer (R81, R219) -/

/-- A store of the group waits for bytes that are still to be written: in its buffer, in a message to the home, or at a target. -/
def State.storeHeld (s : State) (g : Group) (id : Nat) : Bool :=
  g.wc.any (fun b => decide (id ∈ b.ids)) ||
  s.coh.msgs.any (fun m => m.core = g.core && m.slot = g.slot && (match m.kind with
    | .merge _ _ _ ids _ => decide (id ∈ ids)
    | _ => false)) ||
  s.coh.acks.any fun x => x.core = g.core && x.slot = g.slot && x.write.isSome && decide (id ∈ x.accs)

/-- An operation on a range of lines (R336). -/
def Access.range (a : Access) : Bool := a.op = .writeback || a.op = .invalidate || a.op = .writebackInv

/-- An access all of whose lanes are done is performed once none of its bytes is held; a range operation once its targets have
acknowledged too (R218, R336). -/
def State.concludeStore (s : State) (core : BitVec 10) (slot : BitVec 3) (id : Nat) : State :=
  match s.group? core slot with
  | none => s
  | some g =>
    if s.storeHeld g id then s
    else s.modAccess core slot id fun a => { a with
      performed := a.performed || (a.lanes.all (fun l => l.done) && (a.acks = 0 || !a.range)) }

/-- The group's buffer sent as one write with a byte mask: to the line's home, or to a target of the second tier. -/
def State.sendWc (s : State) (core : BitVec 10) (slot : BitVec 3) : State :=
  match s.group? core slot with
  | none => s
  | some g =>
    match g.wc with
    | none => s
    | some b =>
      let s := s.modGroup core slot fun g => { g with wc := none }
      if secondTier (128 * b.line) then s.awaitAck core slot b.ids b.line b.data b.mask 0 false []
      else
        let (s, n) := s.stamp
        s.send ⟨.merge b.data b.mask 0 b.ids true, b.line, 15, core, slot, n, 0, 0, false⟩

/-- A group that reaches a clause boundary of a launch that ends, or that has executed EXIT, leaves once its counters are zero
(R114, R282). Its write-combining buffer is sent, since nothing later would send it (R81). -/
def State.leave (s : State) (core : BitVec 10) (slot : BitVec 3) : State :=
  let s := (s.letGo core slot).sendWc core slot
  match s.group? core slot with
  | some g =>
    if g.inflight.isEmpty then s.removeGroup core slot
    else s.modGroup core slot fun g => { g with life := .draining, inClause := false, latches := [], wait := none }
  | none => s

/-! ### Taking a trap (R109 to R114, R390) -/

/-- Trap classes (R108), coded as in the frame. -/
inductive TrapClass
  | lane | group | async
  deriving DecidableEq, Repr

def TrapClass.code : TrapClass → Nat
  | .lane => 1
  | .group => 2
  | .async => 3

/-- The frame of slot g on core n (R111); TFEN says whether there is one. -/
def State.frameAddr (s : State) (g : Group) : Word :=
  field 14 (bits (s.reg (Reg.contain g.ctx.toNat 0)) 63 14) + BitVec.ofNat 64 (16384 * (8 * g.core.toNat + g.slot.toNat))

def State.tfen (s : State) (c : BitVec 12) : Bool := s.regBits (Reg.contain c.toNat 0) 0 0 = 1

/-- The two words of a fault record (R112). -/
def FRec.words (r : FRec) : List Word :=
  [r.addr, field 56 r.kind.toNat ||| field 53 r.size.toNat ||| field 52 (b2n r.wr) ||| field 51 (b2n r.at') |||
    field 47 r.sub.toNat ||| field 43 r.dec.toNat]

/-- The records of a frame by lane, 96 the scalar one; zeros where a lane took no fault (R390). -/
def recWords (recs : List (BitVec 7 × FRec)) : List Word :=
  (List.range 97).flatMap fun i =>
    match recs.find? fun r => r.1.toNat = i with
    | some r => r.2.words
    | none => [0, 0]

/-- The 96 words of a latch, and the word that says what it is: nothing, a scalar result, one of a vector instruction, or a load that
has not returned (log 17). -/
def LatchV.words : LatchV → List Word
  | .s w => w :: List.replicate 95 0
  | .v lo hi => (List.finRange 96).map fun i => hi[i] ++ lo[i]
  | _ => List.replicate 96 0

def LatchV.code : LatchV → Word
  | .none => 0
  | .s _ => 1
  | .v .. => 2
  | .pend _ => 3

/-- The latch image, 8 KiB: the eight newest latches, what each is, and how many the clause has (log 17). -/
def imageWords (l : List LatchV) : List Word :=
  let x := (List.range 8).map fun j => l.getD j .none
  (x.flatMap LatchV.words) ++ x.map LatchV.code ++ [BitVec.ofNat 64 l.length] ++ List.replicate 247 0

/-- A latch as its words in an image make it; `pend` is what has become of a load that had not returned. -/
def latchOf (ws : List Word) (code : Word) (pend : LatchV) : LatchV :=
  match code.toNat with
  | 0 => .none
  | 1 => .s (ws.getD 0 0)
  | 2 => .v (Vector.ofFn fun i : Fin 96 => (ws.getD i.val 0).extractLsb' 0 32)
      (Vector.ofFn fun i : Fin 96 => (ws.getD i.val 0).extractLsb' 32 32)
  | _ => pend

/-- The latch of the instruction at position `p`, from an image; one the image does not hold reads 0 (R402). -/
def imageLatch (ws : List Word) (pends : List LatchV) (p : Nat) : LatchV :=
  let n := (ws.getD 776 0).toNat
  let j := n - 1 - p
  if n ≤ p || 8 ≤ j then .s 0 else latchOf ((ws.drop (96 * j)).take 96) (ws.getD (768 + j) 0) (pends.getD j (.s 0))

/-- Words +0x000..+0x2FFF of a frame (R112, R390). -/
def frameWords (g : Group) (time pc : Word) (cpos cls : Nat) (kind : BitVec 8) (recs : List (BitVec 7 × FRec)) : List Word :=
  [pc, field 60 cpos ||| field 58 cls ||| field 50 kind.toNat ||| field 42 g.msdep.toNat ||| field 35 recs.length,
   BitVec.ofNat 64 (bits g.k 63 0), BitVec.ofNat 64 (bits g.k 95 64), BitVec.ofNat 64 g.preds.toNat, time] ++
  List.replicate 10 0 ++
  ((List.range 16).map fun i => g.sread (BitVec.ofNat 6 (48 + i))) ++
  ((List.range 8).flatMap fun i =>
    let e : BitVec 128 := g.mstack.getD i 0
    [BitVec.ofNat 64 (bits e 63 0), BitVec.ofNat 64 (bits e 127 64)]) ++
  List.replicate 16 0 ++ recWords recs ++ List.replicate 254 0 ++ imageWords g.latches

/-- Sixteen words as a line. -/
def lineOfWords : List Word → Nat
  | [] => 0
  | w :: r => w.toNat + 2 ^ 64 * lineOfWords r

/-- A line of a trap frame or save area written at a virtual address (R208): the state after and the timestamp; or how far it went and why it
stopped. One that lies in the second tier is an outbound write of its context (log 78), which a viral context drops (R112, R115). -/
def State.writeLine (s : State) (who : Waiter) (c : BitVec 12) (va : Word) (v : Nat) : Except (State × Xlat) (State × BitVec 48) :=
  let s := s.walkNow who c va
  match s.translate who c va .engine with
  | .ok pa mt co =>
    if secondTier pa && s.viral c then .ok (s.dropWrite c va, 0)
    else if s.heldNow who pa 128 true co then .ok (s.shutBy (.busy pa 128 true), 0)
    else .ok (((s.passNow who pa true).markDirty who c va).writeAs mt co (pa / 128) (BitVec.ofNat 1024 v) (BitVec.allOnes 128) 0)
  | x => .error (s, x)

/-- Whole lines written at a virtual address, one line of sixteen words at a time; the highest timestamp. -/
def State.writeLines (s : State) (who : Waiter) (c : BitVec 12) (va : Word) (ws : List Word) (ts : BitVec 48) :
    Nat → Except (State × Xlat) (State × BitVec 48)
  | 0 => .ok (s, ts)
  | n + 1 =>
    match s.writeLine who c va (lineOfWords (ws.take 16)) with
    | .error x => .error x
    | .ok (s, t) => State.writeLines s who c (va + 128) (ws.drop 16) (max48 ts t) n

/-- ACMT is under way: its access, once it has raised `sr.ifc.ar`. -/
def Group.commitId (g : Group) : Option Nat := (g.inflight.find? fun a => a.op = .commit).map fun a => a.id

/-- Every failed bit of an open region set (R348, R349). -/
def Group.failRegion (g : Group) : Group :=
  { g with region := g.region.map fun r => { r with state := r.state.map fun l => { l with failed := true } } }

/-- A trap counted in its launch: FKIND the first kind, NTRAP every trap (R114). -/
def State.countTrap (s : State) (kind : BitVec 8) : State :=
  let l := s.launch s.cur.launch
  s.setLaunch s.cur.launch { l with fkind := if l.fkind = 0 then kind else l.fkind, ntrap := satInc l.ntrap }

/-- The launch ends, and the group at the port with it (R114). -/
def State.endByTrap (s : State) (kind : BitVec 8) : State :=
  let g := s.cur
  (s.endLaunch g.launch kind).leave g.core g.slot

/-- Lanes with a record of nonzero KIND. -/
def recMask (recs : List (BitVec 7 × FRec)) : Mask :=
  recs.foldl (fun m r => if r.2.kind = 0 then m else m ||| BitVec.ofNat 96 (2 ^ r.1.toNat)) 0

/-- A poison consumption: counted, and the first one makes the context viral (R115, R116). -/
def State.consumePoison (s : State) (c : BitVec 12) (core : BitVec 10) (slot : BitVec 3) : State :=
  let s := s.countReg (Reg.contain c.toNat 24) 63 32
  if s.viral c then s
  else
    let s := s.setRegBits (Reg.contain c.toNat 8) 63 63 1
    let s := { s with sch := { s.sch with
      viralAt := Tab.set none s.sch.viralAt c.toNat (some (core, slot, s.timebase))
      places := s.sch.places.map fun (p : RecPlace) =>
        if (s.launch p.launch).ctx = c then { p with due := p.due ||| 1 } else p
      saved := s.sch.saved.map fun (g : Group) => if g.ctx = c then { g with dueViral := true } else g } }
    s.modGroups fun g =>
      if g.ctx = c && g.life ≠ Life.none && !(g.core = core && g.slot = slot) then { g with dueViral := true } else g

/-- What translation stopped at, if it is a poisoned table entry, is consumed (R107). -/
def State.consumeWalk (s : State) (g : Group) (x : Xlat) : State :=
  match x with
  | .bad kind _ _ => if kind = 4 then s.consumePoison g.ctx g.core g.slot else s
  | _ => s

/-- The waiter that a group is. -/
def Group.waiter (g : Group) : Waiter := .group g.core g.slot

/-- The frame of the group at the port lies in a page whose accesses are held (R53, R85, R50): trap entry waits. -/
def State.frameHeld (s : State) (g : Group) : Bool :=
  let f := s.frameAddr g
  match s.translate g.waiter g.ctx f .engine with
  | .ok pa _ co => s.mustWait pa 128 co || (s.filter (pa / 2 ^ 15)).holds g.waiter true
  | .walk .. => (s.leafNow g.waiter g.ctx f).isSome && decide (64 ≤ s.mmu.walks.length)
  | _ => false

/-- A trap of the group ends its launch at once (R112). -/
def State.trapEnds (s : State) (g : Group) (kind : BitVec 8) : Bool :=
  (s.launch g.launch).traph = 0 || !s.tfen g.ctx || g.hmode || kind = 0x16

/-- A load has not returned to a register that the frame holds: s48..s63 with EM, or K (R112, R167). -/
def Group.frameLoads (g : Group) : Bool :=
  g.inflight.any fun a => !a.retired && (a.dst.hits .s 48 16 || (match a.dst with
    | .v _ _ k => k
    | _ => false))

/-- A trap of the group cannot be taken yet. -/
def State.trapWaits (s : State) (g : Group) (kind : BitVec 8) : Bool := !s.trapEnds g kind && (s.frameHeld g || g.frameLoads)

/-- Trap entry (R112) of the group at the port, at the clause `pc` and position `cpos`. `recs` holds the fault records of nonzero
KIND. -/
def State.trapAt (s0 : State) (pc : Word) (cpos : BitVec 4) (cls : TrapClass) (kind : BitVec 8)
    (recs : List (BitVec 7 × FRec)) : State :=
  let s := s0.countTrap kind
  let s := (s.setCur s.cur.failRegion).sendWc s.cur.core s.cur.slot
  let g := s.cur
  if s.trapEnds g kind then s.endByTrap kind
  else if s.frameHeld g || g.frameLoads then (s0.awaitPage g.waiter g.ctx (s.frameAddr g) .engine 128).pause
  else
    let f := s.frameAddr g
    match s.writeLines g.waiter g.ctx f (frameWords g s.timebase pc cpos.toNat cls.code kind recs) 0 96 with
    | .error (s, x) => (s.consumeWalk g x).endByTrap kind
    | .ok (s, ts) =>
      let s := s.raisePts g.core g.slot ts
      let g := s.cur
      let g := { g.swrite 48 f with image := g.latches.take 8, hmode := true, hkind := kind, sweep := none }
      let g := if cls = .lane then g.setEm (recMask recs) else g
      let s := s.passFilter g.waiter (match s.translate g.waiter g.ctx f .engine with
        | .ok pa _ _ => pa
        | _ => 0) true
      (s.letGo g.core g.slot).setCur (g.boundary (s.launch g.launch).traph)

/-- A trap at the instruction at the port. -/
def State.trap (s : State) (cls : TrapClass) (kind : BitVec 8) (recs : List (BitVec 7 × FRec)) : State :=
  s.trapAt s.cur.pc s.cur.cpos cls kind recs

def State.illegalInstruction (s : State) : State := s.trap .group 0x10 []
def State.illegalOperand (s : State) : State := s.trap .group 0x11 []

/-! ### Issue (R258) -/

/-- Instructions that raise atomic-region misuse inside a region (R348). -/
def regionForbids (o : OpInfo) : Bool :=
  (o.maj = 0xB && o.min = 0) ||
  (o.maj = 7 && (o.min < 0x10 || (o.min < 0x30 && o.min % 8 ≠ 4 && o.min % 8 ≠ 5))) ||
  o.maj = 8 || o.maj = 9 || o.maj = 0xA || o.maj = 0xC ||
  (o.maj = 2 && (o.min = 0xF || o.min = 0x10)) ||
  (o.maj = 0xD && o.min ≠ 5 && o.min ≠ 6)

/-- YIELD and PHASE, which neither count nor are stopped by the deadline (R138). -/
def isYieldOrPhase (o : OpInfo) : Bool := o.maj = 0xD && o.min ≤ 1

/-- How an instruction word issues: the deadline (R138), the checks of R258 in their order, the guards (R250), the interlocks
(R167), and then its own effect. `bad`: an operand check of its own fails, which depends on the launch's slots or carry sets. -/
def issueChecked (i : Instr) (s : State) (bad : Bool) (body : State → State) : State :=
  match i.info with
  | none => s
  | some o =>
    let g := s.cur
    if g.dline = 0 && !g.hmode && !isYieldOrPhase o then s.trap .group 0x16 []
    else if !o.ok || opVectorLatch o g || bad then s.illegalOperand
    else if !g.guards o.body.ctl then
      if isYieldOrPhase o then ((s.setCur s.cur.countRegion).spend 1 o.body.ctl).advance .none
      else s.retire o.body.ctl 1 (latchZero o.latch)
    else if opUnderrun o g then s.trap .group 0x13 []
    else if g.region.isSome && !g.hmode && regionForbids o then s.trap .group 0x17 []
    else if opHazard o g then s.hold
    else body s

/-- An instruction whose operand checks are those of its word alone. -/
def issue (i : Instr) (s : State) (body : State → State) : State := issueChecked i s false body

/-! ### Returning from a trap (R113) -/

/-- Little-endian words of 128-bit mask-stack entries. -/
def entriesOf : List Word → List (BitVec 128)
  | lo :: hi :: r => (BitVec.ofNat 128 (lo.toNat + 2 ^ 64 * hi.toNat)) :: entriesOf r
  | _ => []

/-- The group as the frame's words +0x000..+0x17F and its latch image make it: PC, CPOS, K, c0..c6, s48..s63 with EM, the mask stack
and the latches before CPOS. Handler mode is left. -/
def Group.resumeFrom (g : Group) (ws img : List Word) : Group :=
  let w (i : Nat) : Word := ws.getD i 0
  let depth := bits (w 1) 49 42
  let lats := ((List.range (bits (w 1) 63 60)).map (imageLatch img g.image)).reverse
  let g := { g with
    k := BitVec.ofNat 96 ((w 2).toNat + 2 ^ 64 * bits (w 3) 31 0)
    preds := BitVec.ofNat 7 (w 4).toNat
    mstack := (entriesOf ((ws.drop 32).take 16)).take (min depth 8)
    msdep := BitVec.ofNat 8 depth
    hmode := false, image := [], wait := none }
  let g := (List.range 16).foldl (fun g i => g.swrite (BitVec.ofNat 6 (48 + i)) (w (16 + i))) g
  { g with pc := w 0, cpos := BitVec.ofNat 4 (bits (w 1) 63 60), latches := lats }

end Sys2Proof.Machine
end

