-- ==== Sys2Proof/Machine/Operands.lean ====
section
/-! DEFINITION. Operand forms: what a source field supplies in every file and element format (R171, R246 to R249), and how results
reach their destination and the latches (R170, R174, R252). -/

namespace Sys2Proof.Machine

/-- A vector operand of 64 bits per lane: a register pair (R171). -/
abbrev Lanes64 := Vector Word 96

/-! ### Constants (R248, R249) -/

/-- An inline integer, 0..63 or −16..−1. -/
def inlineInt : Opd → Int
  | .pos n => n.toNat
  | .neg n => (n.toNat : Int) - 16
  | _ => 0

/-- The FP constants of R249 to FP64 precision; each rounds into every format the instructions have as its exact value does. -/
def fpConst (k : BitVec 4) : Nat :=
  [0x0, 0x3FF0000000000000, 0x4000000000000000, 0x4010000000000000, 0x3FE0000000000000, 0x3FD0000000000000,
   0xBFF0000000000000, 0xC000000000000000, 0xBFE0000000000000, 0x400921FB54442D18, 0x3FD45F306DC9C883,
   0x3FE62E42FEFA39EF, 0x3FF71547652B82FE, 0x401921FB54442D18, 0x3FC45F306DC9C883, 0x4005BF0A8B145769].getD k.toNat 0

/-- An FP constant in a binary format. -/
def fpConstIn (f : FFmt) (k : BitVec 4) : Nat := (fp64.convert f .rne false (fpConst k)).val

/-- An FP constant in LI32, or in LI16 with `fb` 11. -/
def liConstIn (fb : Nat) (k : BitVec 4) : Nat := liOfFloat fb (fp64.decode (fpConst k))

/-! ### Scalar sources -/

/-- What a field of file s supplies (R246, R248). -/
def Group.srcS (g : Group) : Opd → Word
  | .reg n => g.sread n
  | .latch k =>
    match g.latch k with
    | .s w => w
    | _ => 0
  | .fpc k => BitVec.ofNat 64 (fpConstIn fp32 k)
  | o => ofInt 64 (inlineInt o)

/-- A scalar pair as 128 bits; a latch or an inline value supplies the low half alone (R270). -/
def Group.srcS2 (g : Group) : Opd → Word × Word
  | .reg n => (g.sread n, g.sread (n + 1))
  | o => (g.srcS o, 0)

/-- A predicate named by a field of file c. -/
def Group.srcC (g : Group) : Opd → Bool
  | .reg n => g.pred n.toNat
  | _ => false

/-! ### Vector sources -/

def splat (h : Half) : Lanes := Vector.replicate 96 h

/-- The lane's index in every lane (R171). -/
def laneIndex : Lanes := Vector.ofFn fun i : Fin 96 => BitVec.ofNat 32 i.val

/-- What a 32-bit field of file v supplies; `k` gives an FP constant and `n` an inline integer in the operand's format. -/
def Group.srcWith (g : Group) (k : BitVec 4 → Nat) (n : Int → Nat) : Opd → Lanes
  | .reg r => g.vread r
  | .latch j =>
    match g.latch j with
    | .v lo _ => lo
    | .s w => splat (BitVec.ofNat 32 w.toNat)
    | _ => splat 0
  | .laneIdx => laneIndex
  | .fpc j => splat (BitVec.ofNat 32 (k j))
  | o => splat (BitVec.ofNat 32 (n (inlineInt o)))

/-- An integer or raw operand; an FP constant gives its FP32 pattern (VMOV). -/
def Group.srcV (g : Group) (o : Opd) : Lanes := g.srcWith (fpConstIn fp32) (fun z => (ofInt 32 z).toNat) o

/-- An FP32 operand. -/
def Group.srcF (g : Group) (o : Opd) : Lanes :=
  g.srcWith (fpConstIn fp32) (fun z => (fp32.ofIntVal .rne false z).val) o

/-- A half-pair operand: a constant applies to both halves. -/
def Group.srcH (g : Group) (o : Opd) : Lanes :=
  let two (v : Nat) : Nat := v + 2 ^ 16 * v
  g.srcWith (fun k => two (fpConstIn fp16 k)) (fun z => two (fp16.ofIntVal .rne false z).val) o

/-- An LI32 operand. -/
def Group.srcL (g : Group) (o : Opd) : Lanes :=
  g.srcWith (liConstIn 27) (fun z => liOfFloat 27 (.fin (decide (z < 0)) z.natAbs 0)) o

/-- A 64-bit operand of file v; an inline value or a scalar latch supplies all 64 bits (R247). -/
def Group.src64With (g : Group) (k : BitVec 4 → Nat) (n : Int → Nat) : Opd → Lanes64
  | .reg r =>
    let lo := g.vread r; let hi := g.vread (r + 1)
    Vector.ofFn fun i : Fin 96 => hi[i] ++ lo[i]
  | .latch j =>
    match g.latch j with
    | .v lo hi => Vector.ofFn fun i : Fin 96 => hi[i] ++ lo[i]
    | .s w => Vector.replicate 96 w
    | _ => Vector.replicate 96 0
  | .laneIdx => Vector.ofFn fun i : Fin 96 => BitVec.ofNat 64 i.val
  | .fpc j => Vector.replicate 96 (BitVec.ofNat 64 (k j))
  | o => Vector.replicate 96 (BitVec.ofNat 64 (n (inlineInt o)))

/-- A 64-bit integer operand. -/
def Group.srcP (g : Group) (o : Opd) : Lanes64 := g.src64With (fun _ => 0) (fun z => (ofInt 64 z).toNat) o

/-- An FP64 operand. -/
def Group.srcD (g : Group) (o : Opd) : Lanes64 :=
  g.src64With (fpConstIn fp64) (fun z => (fp64.ofIntVal .rne false z).val) o

/-! ### Results -/

/-- A scalar result in its destination; with WS the field is absent and nothing is written (R252). -/
def Group.putS (g : Group) (d : Opd) (w : Word) : Group :=
  match d with
  | .reg n => g.swrite n w
  | _ => g

/-- A vector result in the active lanes of its destination (R170). -/
def Group.putV (g : Group) (d : Opd) (x : Lanes) : Group :=
  match d with
  | .reg n => g.vwrite n x
  | _ => g

/-- A result of 64 bits per lane in a register pair. -/
def Group.putP (g : Group) (d : Opd) (lo hi : Lanes) : Group :=
  match d with
  | .reg n => (g.vwrite n lo).vwrite (n + 1) hi
  | _ => g

/-- The lanes of `m`, 0 elsewhere: a latch (R174). -/
def latchLanes (m : Mask) (x : Lanes) : Lanes := Vector.ofFn fun i : Fin 96 => if bit m i then x[i] else 0

def noLanes : Lanes := splat 0

/-- Issue cycles of a vector instruction: a beat each, at least one (R165). -/
def Group.cost (g : Group) : Nat := max 1 g.beats

/-- A scalar instruction done with result `w` (R165, R174). -/
def State.doneS (s : State) (c : Ctl) (d : Opd) (w : Word) : State :=
  (s.setCur (s.cur.putS d w)).retire c 1 (.s w)

/-- A vector instruction done with one result per lane and the flags `f`. -/
def State.doneV (s : State) (c : Ctl) (d : Opd) (x : Lanes) (f : BitVec 5 := 0) : State :=
  let g := s.cur
  (s.setCur ((g.putV d x).raise f)).retire c g.cost (.v (latchLanes g.em x) noLanes)

/-- A vector instruction done with 64 bits per lane. -/
def State.doneP (s : State) (c : Ctl) (d : Opd) (x : Lanes64) (f : BitVec 5 := 0) : State :=
  let g := s.cur
  let lo : Lanes := x.map fun w => w.extractLsb' 0 32
  let hi : Lanes := x.map fun w => w.extractLsb' 32 32
  (s.setCur ((g.putP d lo hi).raise f)).retire c g.cost (.v (latchLanes g.em lo) (latchLanes g.em hi))

/-- A vector compare done: K written, 1 or 0 in the latch (R170, R174). -/
def State.doneK (s : State) (c : Ctl) (m : Mask) : State :=
  let g := s.cur
  let x : Lanes := Vector.ofFn fun i : Fin 96 => BitVec.ofNat 32 (b2n (bit m i))
  (s.setCur (g.setK m)).retire c g.cost (.v (latchLanes g.em x) noLanes)

/-- An instruction that writes no register is done in one cycle. -/
def State.doneN (s : State) (c : Ctl) : State := s.retire c 1 .none

/-- The active lanes, ascending (R170). -/
def Group.activeLanes (g : Group) : List (Fin 96) := (List.finRange 96).filter fun (i : Fin 96) => bit g.em i

/-- A mask from a function of the lane. -/
def maskOf (f : Fin 96 → Bool) : Mask :=
  (List.finRange 96).foldl (fun m i => if f i then m ||| BitVec.ofNat 96 (2 ^ i.val) else m) 0

end Sys2Proof.Machine
end

