-- ==== Sys2Proof/Machine/Flags.lean ====
section
/-! DEFINITION. Conditions and flags: the relations of R253 on integers, binary floating point and level-index values, and the
flags of sr.gsf that the lanes of an instruction raise (R234, R235). -/

namespace Sys2Proof.Machine

/-! ### Relations (R253) -/

/-- REL 0..5 on an order. -/
def relHolds (rel : Nat) (o : Ordering) : Bool :=
  match rel with
  | 0 => o == .eq
  | 1 => o != .eq
  | 2 => o == .lt
  | 3 => o != .gt
  | 4 => o == .gt
  | 5 => o != .lt
  | _ => false

/-- Integers of `n` bits compared under TY: 0 signed, 1 unsigned. -/
def cmpInt {n : Nat} (ty : Nat) (a b : BitVec n) : Ordering :=
  if ty = 1 then compare a.toNat b.toNat else compare a.toInt b.toInt

/-- All eight relations of the floating forms (R295): with a NaN only ne and unordered hold. -/
def relFloat (rel : Nat) (a b : FVal) : Bool :=
  match a.cmp b with
  | none => rel == 1 || rel == 6
  | some o => if rel = 6 then false else if rel = 7 then true else relHolds rel o

/-! ### Flags of sr.gsf (R234): AOV, NQ, UF, OF, LX are bits 4 to 0 -/

def gsfLX : BitVec 5 := 1
def gsfOF : BitVec 5 := 2
def gsfUF : BitVec 5 := 4
def gsfNQ : BitVec 5 := 8
def gsfAOV : BitVec 5 := 16

/-- Flags of one rounded result (R227). -/
def FRes.flags (r : FRes) : BitVec 5 := (if r.of then gsfOF else 0) ||| (if r.uf then gsfUF else 0)

/-- The flags of the active lanes together (R235). -/
def laneFlags (m : Mask) (f : Fin 96 → BitVec 5) : BitVec 5 :=
  (List.finRange 96).foldl (fun a (i : Fin 96) => if bit m i then a ||| f i else a) 0

/-- An integer result clamped to `n` signed bits, with OF (R262, R285). -/
def clampRes (n : Nat) (z : Int) : BitVec n × BitVec 5 :=
  let lo : Int := -(2 ^ (n - 1)); let hi : Int := 2 ^ (n - 1) - 1
  (ofInt n (clampInt lo hi z), if z < lo ∨ hi < z then gsfOF else 0)

end Sys2Proof.Machine
end

