-- ==== Sys2Proof/Machine/Access.lean ====
section
/-! DEFINITION. Memory accesses of a group: effective addresses (R316), the checks of a lane (R318), issue with its counter
(R180), and how a lane is performed at the L1, at its home or at its target (R194, R198, R199, R205, R218, R219). -/

namespace Sys2Proof.Machine

/-! ### Effective addresses (R316) -/

def scalarEa (g : Group) (a b : Opd) (imm : Word) : Word :=
  (if a = .absent then 0 else g.srcS a) + (if b = .absent then 0 else g.srcS b) + imm

/-- SignExtend64 of the immediate of an I16 form. -/
def immWord (w : I16) : Word := w.imm.signExtend 64

def vectorEa (g : Group) (a b : Opd) (imm : Word) (i : Fin 96) : Word :=
  (if a = .absent then 0 else g.srcS a) + (if b = .absent then 0 else (g.srcV b)[i].signExtend 64) + imm

/-- VLDB and VSTB: the offset is scaled by the element, and is the lane's index where B is absent. -/
def scaledEa (g : Group) (a b : Opd) (imm : Word) (bytes : Nat) (i : Fin 96) : Word :=
  (if a = .absent then 0 else g.srcS a) +
    BitVec.ofNat 64 (bytes * (if b = .absent then i.val else (g.srcV b)[i].toNat)) + imm

/-! ### Accesses that stop -/

/-- What becomes of an access of the part that went no further than `x`: a fault, or a wait (R78, R403). -/
inductive Stall
  | fault (s : State) (kind : BitVec 8) (sub dec : BitVec 4)
  | wait (s : State)
  deriving Repr

/-- An access of `n` bytes from `va`, made for `who`, that did not go through. A poisoned table entry on its way is consumed (R107). -/
def State.stall (s : State) (who : Waiter) (c : BitVec 12) (va : Word) (x : Xlat) (n : Nat) : Stall :=
  match x with
  | .bad kd sub dec =>
    .fault (if s.walk c va = .bad 4 0 0 || s.walk c (va + BitVec.ofNat 64 (n - 1)) = .bad 4 0 0 then s.consumePoison c 1023 0 else s) kd sub dec
  | .ok .. => .fault s 2 0 0
  | x => if s.unresolvableX who c x then .fault (s.clearVerdicts who) 3 0 0 else .wait (s.awaitX who c x n)

/-! ### The checks of one lane (R318, 1 to 4) -/

inductive LaneCheck
  | ok (pa : Nat) (mt : MType) (co : Bool)
  | bad (r : FRec)
  | wait
  deriving DecidableEq, Repr

def State.checkLane (s : State) (ea : Word) (log : Nat) (k : AccKind) (wr at' : Bool) : LaneCheck :=
  let g := s.cur
  let rc (kd : BitVec 8) (sub dec : BitVec 4) : FRec := ⟨ea, kd, BitVec.ofNat 3 log, wr, at', sub, dec⟩
  if ea.toNat % 2 ^ log ≠ 0 then .bad (rc 1 0 0)
  else if s.awaits g.waiter then .wait
  else
    match s.translateN g.waiter g.ctx ea (2 ^ log) k with
    | .ok pa mt co => if pa < 2 ^ 52 && s.mustWait pa (2 ^ log) co then .wait else .ok pa mt co
    | .bad kd sub dec => .bad (rc kd sub dec)
    | x => if s.unresolvableX g.waiter g.ctx x then .bad (rc 3 0 0) else .wait

/-- What follows when an address of the group at the port faults in translation: the reads of its walk are made, and a poisoned table
entry is consumed (R71, R107). -/
def State.walkFault (s : State) (va : Word) (kind : BitVec 8) : State :=
  let g := s.cur
  let s := if !canonical va || !s.ten g.ctx va || (s.tlb? g.waiter g.ctx va).isSome then s else s.walkReads g.ctx va
  if kind = 4 then s.consumePoison g.ctx g.core g.slot else s

/-! ### Lines of an L1 (R194) -/

def State.modL1 (s : State) (c : BitVec 10) (line : Nat) (f : L1Line → L1Line) : State :=
  let r := s.core c
  s.setCore c { r with l1 := r.l1.map fun l => if l.line = line then f l else l }

/-- The line becomes most recent. -/
def State.touchL1 (s : State) (c : BitVec 10) (line : Nat) : State :=
  let r := s.core c
  match r.l1.find? fun l => l.line = line with
  | some l => s.setCore c { r with l1 := l :: r.l1.filter fun x => x.line ≠ line }
  | none => s

/-- Bytes of an SM line sent to their home to be performed there as a store at rts + 1, for the accesses that wait for it (R218). -/
def State.sendMerge (s : State) (core : BitVec 10) (slot : BitVec 3) (l : L1Line) (ids : List Nat) : State :=
  if l.dirty = 0 then s
  else
    let (s, n) := s.stamp
    s.send ⟨.merge l.data l.dirty l.poison ids false, l.line, 15, core, slot, n, 0, 0, l.nc⟩

/-- The line leaves the L1: an E line is written back to its home by a message (R203), so are the dirty bytes of an M line; an S line is
dropped. -/
def State.evictL1 (s : State) (core : BitVec 10) (slot : BitVec 3) (line : Nat) : State :=
  match s.l1? core line with
  | none => s
  | some l =>
    let s := s.dropL1 core line
    match l.st with
    | .s => s
    | .e => s.send ⟨.writeback l.data (BitVec.allOnes 128) l.poison l.wts l.rts, line, 15, core, slot, 0, 0, 0, l.nc⟩
    | .m => s.sendMerge core slot l []

/-- A commit engine of the core holds the line for a lane (R351). -/
def State.commitHoldsAt (s : State) (core : BitVec 10) (line : Nat) : Bool :=
  s.groups.any fun g => g.core = core && g.region.any fun r => decide (line ∈ r.held)

/-- A line placed in its set of 8 ways; the least recent way goes that no commit engine holds, and without one the line stays out (R351). With the
stream hint it is placed as least recent. -/
def State.installL1 (s : State) (core : BitVec 10) (slot : BitVec 3) (hint : BitVec 2) (l : L1Line) : State :=
  let s := s.dropL1 core l.line
  let set := (s.core core).l1.filter fun x => x.line % 64 = l.line % 64
  let put (s : State) : State :=
    let r := s.core core
    s.setCore core { r with l1 := if hint = 1 then r.l1 ++ [l] else l :: r.l1 }
  if set.length < 8 then put s
  else
    match set.reverse.find? fun v => !s.commitHoldsAt core v.line with
    | some v => put (s.evictL1 core slot v.line)
    | none => s

/-- A resident line of another memory type is written back and dropped first (R220). -/
def State.matchType (s : State) (core : BitVec 10) (slot : BitVec 3) (line : Nat) (sm : Bool) : State :=
  match s.l1? core line with
  | some l => if (l.st = .m) != sm then s.evictL1 core slot line else s
  | none => s

/-! ### Lines outside the lease protocol -/

/-- The bytes of some sectors of a line. -/
def sectorBytes (v : BitVec 4) : BitVec 128 :=
  (List.range 4).foldl (fun m i => if bit v i then m ||| byteMask (32 * i) 32 else m) 0

/-- Sectors of an SM line, or of a window or aperture line, that a request has brought, put into the L1: they join those of a copy there, which
keeps its bytes (R194). -/
def State.installPlain (s : State) (core : BitVec 10) (slot : BitVec 3) (hint : BitVec 2) (line : Nat) (sectors : BitVec 4) (nc : Bool)
    (d : LineData) (p : BitVec 4) : State :=
  s.installL1 core slot hint (match s.l1? core line with
    | some x => { x with
        data := mergeLine d x.data (sectorBytes x.valid), valid := x.valid ||| sectors
        poison := (x.poison &&& x.valid) ||| (p &&& sectors &&& ~~~x.valid) }
    | none => ⟨line, .m, 0, 0, d, sectors, 0, p &&& sectors, nc⟩)

/-- A merge performed at its home: as a store at rts + 1, or for a write-combining buffer at the group's timestamp (R218, R219); SM bytes of
a second-tier line go on to the target, whose acknowledgement the accesses await. -/
def State.performMerge (s : State) (m : Msg) : State :=
  match m.kind with
  | .merge data mask p ids wc =>
    let s := if wc then s.recall m.line else (s.recall m.line).fillL2As m.line (m.nc && secondTier (128 * m.line))
    let h := s.home m.line
    let pts := match s.group? m.core m.slot with
      | some g => g.pts
      | none => 0
    let ts := if wc then max48 pts (h.rts + 1) else h.rts + 1
    let s := ((s.putHome m.line data mask p).stampHome m.line ts).markSkim m.line
    if wc then s.raisePts m.core m.slot ts
    else if secondTier (128 * m.line) then
      if ids.isEmpty then ((s.needMedia m.line).reachTarget m.line fun _ => true).memWrite m.line data mask p
      else s.awaitAck m.core m.slot ids m.line data mask p true []
    else s
  | _ => s

/-- The merges of a core for a line that are under way, performed now, in their order. -/
def State.flushMerges (s : State) (mine : Msg → Bool) : State :=
  let p (m : Msg) : Bool := mine m && (match m.kind with
    | .merge .. => true
    | _ => false)
  let l := s.coh.msgs.filter p
  let s := { s with coh := { s.coh with msgs := s.coh.msgs.filter fun m => !p m } }
  let s := l.foldl (fun s m => s.performMerge m) s
  l.foldl (fun s m => match m.kind with
    | .merge _ _ _ ids _ => (ids.foldl (fun s i => s.concludeStore m.core m.slot i) s).settle m.core m.slot
    | _ => s) s

/-- A line for the L1, outside the lease protocol: a window or aperture line, or the home's copy, any E copy recalled, after the core's own
bytes under way to it; `nc` without coherence (R218). -/
def State.plainLine (s : State) (who : Waiter) (line : Nat) (nc : Bool) : State × LineData × BitVec 4 :=
  if 2 ^ 52 ≤ 128 * line then s.windowLine who line
  else
    let s := s.flushMerges fun m => m.line = line && who.core? = some m.core
    let s := (s.recall line).fillL2As line (nc && secondTier (128 * line))
    let (d, p) := s.homeData line
    (s, d, p)

/-! ### One lane performed -/

/-- The number `v` placed at byte offset `lo` of a line. -/
def placeBytes (lo v : Nat) : LineData := BitVec.ofNat 1024 (v * 2 ^ (8 * lo))

/-- Bytes of one lane: a 16-byte access is performed as two halves (R209). -/
def Access.width (a : Access) : Nat := min 8 (2 ^ a.size.toNat)

/-- The address of the whole access of a lane. -/
def Access.lead (a : Access) (l : LaneAcc) : Word := if a.size = 4 then BitVec.ofNat 64 (l.va.toNat / 16 * 16) else l.va

/-- The record of a poisoned access: the first byte of the lowest poisoned sector it touched (R112). -/
def poisonRec (l : LaneAcc) (log : Nat) (wr at' : Bool) (p : BitVec 4) : FRec :=
  let lo := l.va.toNat % 128
  let t := p &&& sectorMask lo (2 ^ log)
  let k := if bit t 0 then 0 else if bit t 1 then 1 else if bit t 2 then 2 else 3
  ⟨BitVec.ofNat 64 (l.va.toNat - lo + 32 * k), 4, BitVec.ofNat 3 log, wr, at', 0, 0⟩

/-- The new memory value of an atomic (R327), `n` bytes wide. -/
def atomOp (fn : BitVec 4) (n m c : Nat) : Nat :=
  let w := 8 * n
  let f := if n = 8 then fp64 else fp32
  match fn.toNat with
  | 0 => (m + c) % 2 ^ w
  | 1 => if signedOf w m ≤ signedOf w c then m else c
  | 2 => if signedOf w m ≤ signedOf w c then c else m
  | 3 => min m c
  | 4 => max m c
  | 5 => m &&& c
  | 6 => m ||| c
  | 7 => m ^^^ c
  | 8 => c
  | 9 => (f.addOp .rne false m c).val
  | 10 => f.minMax false m c
  | 11 => f.minMax true m c
  | _ => m

/-- What an access writes at a lane that reads `m`: nothing, or the new value. -/
def Access.newValue (a : Access) (l : LaneAcc) (m : Nat) : Option Nat :=
  let n := a.width
  match a.op with
  | .store => some (l.data.toNat % 2 ^ (8 * n))
  | .atom fn _ => some (atomOp fn n m (l.data.toNat % 2 ^ (8 * n)))
  | .cas => if m = l.cmp.toNat % 2 ^ (8 * n) then some (l.data.toNat % 2 ^ (8 * n)) else none
  | _ => none

def Access.writes (a : Access) : Bool :=
  match a.op with
  | .store | .atom .. | .cas => true
  | _ => false

def Access.reads (a : Access) : Bool :=
  match a.op with
  | .load _ | .atom .. | .cas => true
  | _ => false

def Access.atomic (a : Access) : Bool :=
  match a.op with
  | .atom .. | .cas => true
  | _ => false

/-- The bytes of a line that the lanes of a store write together; of other accesses those of the lane alone (R106, R194). -/
def Access.coalesced (a : Access) (l : LaneAcc) : BitVec 128 :=
  if a.op = .store then
    a.lanes.foldl (fun m x => if x.pa / 128 = l.pa / 128 then m ||| byteMask (x.pa % 128) a.width else m) (byteMask (l.pa % 128) a.width)
  else byteMask (l.pa % 128) a.width

/-- Poison of a line after a lane's write: its sector is clean if the coalesced request covers it (R106). -/
def Access.poisonAfter (a : Access) (l : LaneAcc) (p : BitVec 4) : BitVec 4 :=
  let k := l.pa % 128 / 32
  if bits (a.coalesced l) (32 * k + 31) (32 * k) = 2 ^ 32 - 1 then p &&& ~~~(BitVec.ofNat 4 (2 ^ k)) else p

/-- The lane applied to the bytes of its line: the line after, the bytes written, poison after, the value read; or the poison record. -/
def Access.apply (a : Access) (l : LaneAcc) (d : LineData) (p : BitVec 4) :
    Except FRec (LineData × BitVec 128 × BitVec 4 × Nat) :=
  let n := a.width
  let lo := l.pa % 128
  if a.reads && (p &&& sectorMask lo n) ≠ 0 then .error (poisonRec l a.size.toNat a.writes a.atomic p)
  else
    let m := lineBytes d lo n
    match a.newValue l m with
    | none => .ok (d, 0, p, m)
    | some v =>
      let mask := byteMask lo n
      .ok (mergeLine d (placeBytes lo v) mask, mask, a.poisonAfter l p, m)

/-- The lane is done with the value it read. -/
def LaneAcc.finish (l : LaneAcc) (v : Nat) : LaneAcc := { l with done := true, res := BitVec.ofNat 128 v }

/-- The lane of an access changed. -/
def State.putLane (s : State) (core : BitVec 10) (slot : BitVec 3) (id : Nat) (l : LaneAcc) : State :=
  s.modAccess core slot id fun a => { a with lanes := a.lanes.map fun x => if x.lane = l.lane && x.va = l.va then l else x }

/-- A write of this lane is dropped (R115): its target is second tier and the access was issued in a viral context. -/
def Access.drops (a : Access) (l : LaneAcc) : Bool := a.dropped && secondTier l.pa && l.pa < 2 ^ 52

/-- The requester that an access is at a home. -/
def Group.asker (g : Group) (id : Nat) : Asker := .acc g.core g.slot id

/-- The bytes of a line that the group's write-combining stores have given it and that are not yet where the line is (R219). -/
def State.ownBytes (s : State) (g : Group) (line : Nat) (d : LineData) : LineData :=
  let d := s.coh.acks.foldl (fun d x => match x.write with
    | some (k, w, m, _) => if k = line && !x.home && x.core = g.core && x.slot = g.slot then mergeLine d w m else d
    | none => d) d
  let d := s.coh.msgs.foldl (fun d m => match m.kind with
    | .merge w k _ _ true => if m.line = line && m.core = g.core && m.slot = g.slot then mergeLine d w k else d
    | _ => d) d
  match g.wc with
  | some b => if b.line = line then mergeLine d b.data b.mask else d
  | none => d

/-- A lane performed on its home line. WB (R194, R198, R205): a load as a renewal reads, a store or an atomic at max(pts, rts + 1). UC and
WC (R219): at such a timestamp too. SM (R81, R218): the home's copy, a store at rts + 1; second-tier bytes go on to the target. -/
def State.performHome (s : State) (g : Group) (a : Access) (l : LaneAcc) : State × LaneAcc :=
  let line := l.pa / 128
  let s := s.recall line
  let uc := l.mt = .uc || l.mt = .wc
  let s := if uc then s else s.fillL2As line (secondTier l.pa && !l.co)
  let (d, p) := s.homeData line
  let h := s.home line
  match a.apply l (if l.mt = .wc then s.ownBytes g line d else d) p with
  | .error r => (s.consumePoison g.ctx g.core g.slot, { l with fault := some r })
  | .ok (d', mask, p', v) =>
    if a.drops l && a.writes then (s.dropWrite g.ctx l.va, l.finish v)
    else if l.mt = .sm && !a.atomic then
      if !a.writes then (s, l.finish v)
      else
        let s := ((s.setHomeData line d' mask p').stampHome line (h.rts + 1)).markSkim line
        if !secondTier l.pa then (s, l.finish v)
        else if a.id = 0 then (((s.needMedia line).reachTarget line fun _ => true).memPut line d' mask p', l.finish v)
        else (s.awaitAck g.core g.slot [a.id] line d' mask p' true [(l.lane, l.va)], l)
    else if a.writes || uc then
      let ts := max48 g.pts (h.rts + 1)
      let s := if mask = 0 then s else (s.setHomeData line d' mask p').markSkim line
      ((s.stampHome line ts).raisePts g.core g.slot ts, l.finish v)
    else
      let s := s.leaseHome line g.pts
      (s.raisePts g.core g.slot h.wts, l.finish v)

/-- Recency of an L1 line at a hit: the stream hint leaves it as it is (log 72), and the keep-in-L2 hint touches the L2's line (R194). -/
def State.touchHit (s : State) (core : BitVec 10) (line : Nat) (hint : BitVec 2) : State :=
  let s := if hint = 1 then s else s.touchL1 core line
  if hint = 2 then s.touchL2 line else s

/-- A lane performed on a line that the group's L1 holds E (R198, R199, R205 near). A write waits for agents outside (R50), unless they have
let it pass before (`free`). -/
def State.performOwned (s : State) (g : Group) (a : Access) (l : LaneAcc) (x : L1Line) (free : Bool := false) : State × LaneAcc :=
  let line := l.pa / 128
  match a.apply l x.data x.poison with
  | .error r => (s.consumePoison g.ctx g.core g.slot, { l with fault := some r })
  | .ok (d, mask, p, v) =>
    let s := s.touchHit g.core line a.hint
    if a.drops l && a.writes then (s.dropWrite g.ctx l.va, l.finish v)
    else if a.writes then
      if !free && s.outsideHolds g.waiter l.pa a.width true then (s.askOutside g.waiter l.pa a.width true, l)
      else
        let ts := max48 g.pts (x.rts + 1)
        let s := s.modL1 g.core line fun y =>
          { y with data := d, dirty := y.dirty ||| mask, poison := p, wts := ts, rts := ts }
        let s := if mask = 0 then s else s.markSkim line
        ((s.passFilter g.waiter l.pa true).raisePts g.core g.slot ts, l.finish v)
    else
      let s := s.modL1 g.core line fun y => { y with rts := max48 y.rts g.pts }
      (s.raisePts g.core g.slot x.wts, l.finish v)

/-- A message of this access for these sectors of a line is under way. -/
def State.asked (s : State) (g : Group) (id line : Nat) (sectors : BitVec 4) : Bool :=
  s.coh.msgs.any fun m => m.acc = id && m.line = line && m.core = g.core && m.slot = g.slot && m.sectors &&& sectors ≠ 0

/-- A request sent once: for one sector, or for the whole line (15). -/
def State.ask (s : State) (g : Group) (id line : Nat) (sectors : BitVec 4) (k : MsgKind) : State :=
  if s.asked g id line sectors then s else s.send ⟨k, line, sectors, g.core, g.slot, id, 0, 0, false⟩

/-- The sector of a lane. -/
def LaneAcc.sector (l : LaneAcc) : BitVec 4 := BitVec.ofNat 4 (2 ^ (l.pa % 128 / 32))

/-- WB (R198, R199, R205): a hit is performed; a miss sends its request to the home, one for each sector a load or a far access touches. -/
def State.performWb (s : State) (g : Group) (a : Access) (l : LaneAcc) : State × LaneAcc :=
  let line := l.pa / 128
  let s := s.matchType g.core g.slot line false
  if a.hint = 3 || s.split line then (s.ask g a.id line l.sector .far, l)
  else
    match s.l1? g.core line with
    | some x =>
      if x.st = .e then s.performOwned g a l x
      else if a.op = .store then (s.ask g a.id line 15 (.upgrade x.wts), l)
      else if a.atomic then (s.ask g a.id line l.sector .far, l)
      else if bit x.valid (l.pa % 128 / 32) && !later48 g.pts x.rts then
        match a.apply l x.data x.poison with
        | .error r => (s.consumePoison g.ctx g.core g.slot, { l with fault := some r })
        | .ok (_, _, _, v) => ((s.touchHit g.core line a.hint).raisePts g.core g.slot x.wts, l.finish v)
      else (s.ask g a.id line l.sector .renewal, l)
    | none =>
      if a.op = .store then (s.ask g a.id line 15 .readEx, l)
      else if a.atomic then (s.ask g a.id line l.sector .far, l)
      else (s.ask g a.id line l.sector .renewal, l)

/-- A lane performed on an SM line, or a window or aperture line, of the L1, which holds the bytes `d`, or on bytes just read. -/
def State.applySm (s : State) (g : Group) (a : Access) (l : LaneAcc) (d : LineData) (p : BitVec 4) : State × LaneAcc :=
  let line := l.pa / 128
  match a.apply l d p with
  | .error r => (s.consumePoison g.ctx g.core g.slot, { l with fault := some r })
  | .ok (d, mask, p, v) =>
    if a.drops l && a.writes then (s.dropWrite g.ctx l.va, l.finish v)
    else
      let s := if a.writes then
          (s.modL1 g.core line fun y => { y with data := d, dirty := y.dirty ||| mask, poison := p }).markSkim line
        else s
      (s, l.finish v)

/-- The L1's copy of a line, where it has the sector of the lane. -/
def State.smHit (s : State) (g : Group) (l : LaneAcc) : Option L1Line :=
  (s.l1? g.core (l.pa / 128)).filter fun x => bit x.valid (l.pa % 128 / 32)

/-- A lane on the code window or an aperture: a hit, or the sector read now; past the L1 nothing is kept (R84, R194, R392). It waits where an access
to what the aperture reads would wait (R54). -/
def State.performWindow (s : State) (g : Group) (a : Access) (l : LaneAcc) : State × LaneAcc :=
  let line := l.pa / 128
  match if a.hint = 3 then none else s.smHit g l with
  | some x => (s.touchHit g.core line a.hint).applySm g a l x.data x.poison
  | none =>
    if s.heldAt g.waiter l.pa 1 false false then (s.askAt g.waiter l.pa 1 false false, l)
    else
      let (s, d, p) := s.windowLine g.waiter line
      let s := if a.hint = 3 then s else s.installPlain g.core g.slot a.hint line l.sector false d p
      s.applySm g a l d p

/-- SM (R81, R194, R218): loads and stores in the L1, which asks the home for the sectors it lacks; atomics and what bypasses the L1 at the
home. -/
def State.performSm (s : State) (g : Group) (a : Access) (l : LaneAcc) : State × LaneAcc :=
  let line := l.pa / 128
  if a.atomic || a.hint = 3 || s.split line then
    ((if a.hint = 3 || s.split line then s.evictL1 g.core g.slot line else s).ask g a.id line l.sector .far, l)
  else
    let s := s.matchType g.core g.slot line true
    match s.smHit g l with
    | some x => (s.touchHit g.core line a.hint).applySm g a l x.data x.poison
    | none => (s.ask g a.id line l.sector .renewal, l)

/-- The lanes of a UC store that go to the second tier in one request with this one: of its sector, not sent yet (R194). -/
def Access.sectorLanes (a : Access) (l : LaneAcc) : List LaneAcc :=
  a.lanes.filter fun x => x.pa / 32 = l.pa / 32 && !x.done && x.fault.isNone

/-- Their bytes, the highest lane's where two write one (R319), and the mask. -/
def Access.sectorWrite (a : Access) (l : List LaneAcc) : LineData × BitVec 128 :=
  (l.sortBy fun x y => x.lane ≤ y.lane).foldl (fun (d : LineData × BitVec 128) x =>
    let m := byteMask (x.pa % 128) a.width
    (mergeLine d.1 (placeBytes (x.pa % 128) (x.data.toNat % 2 ^ (8 * a.width))) m, d.2 ||| m)) (0, 0)

/-- A UC lane, or a WC load (R81, R219): a line that the L1 holds goes first, and the bytes of its core under way to the home (R213, R220); then to
the home of the first tier, or to the target, whose acknowledgement performs a store. -/
def State.performUc (s : State) (g : Group) (a : Access) (l : LaneAcc) : State × LaneAcc :=
  let line := l.pa / 128
  let s := s.evictL1 g.core g.slot line
  if !secondTier l.pa then (s.ask g a.id line l.sector .far, l)
  else if a.writes then
    if a.drops l then (s.dropWrite g.ctx l.va, l.finish 0)
    else
      let ls := a.sectorLanes l
      let (d, mask) := a.sectorWrite ls
      (s.awaitAck g.core g.slot [a.id] line d mask 0 false (ls.map fun x => (x.lane, x.va)), l)
  else
    let s := (s.flushMerges fun m => m.line = line && m.core = g.core).readyAs .uc true line
    let (d, p) := s.homeData line
    match a.apply l (if l.mt = .wc then s.ownBytes g line d else d) p with
    | .error r => (s.consumePoison g.ctx g.core g.slot, { l with fault := some r })
    | .ok (_, _, _, v) => (s.raisePts g.core g.slot (s.home line).wts, l.finish v)

/-- A WC store joins the group's buffer, which is sent first when it holds another line (R81, R219). -/
def State.performWc (s : State) (g : Group) (a : Access) (l : LaneAcc) : State × LaneAcc :=
  let line := l.pa / 128
  let lo := l.pa % 128
  let s := s.evictL1 g.core g.slot line
  if a.drops l then (s.dropWrite g.ctx l.va, l.finish 0)
  else
    let s :=
      match g.wc with
      | some b => if b.line = line then s else s.sendWc g.core g.slot
      | none => s
    let s := s.modGroup g.core g.slot fun g =>
      let b : WcBuf := match g.wc with
        | some b => b
        | none => ⟨line, 0, 0, []⟩
      let mask := byteMask lo a.width
      { g with wc := some { b with
          data := mergeLine b.data (placeBytes lo (l.data.toNat % 2 ^ (8 * a.width))) mask
          mask := b.mask ||| mask
          ids := if a.id ∈ b.ids then b.ids else b.ids ++ [a.id] } }
    (s, l.finish 0)

/-- The lane is in a request to a target that is not acknowledged. -/
def State.laneSent (s : State) (g : Group) (id : Nat) (l : LaneAcc) : Bool :=
  s.coh.acks.any fun x => x.core = g.core && x.slot = g.slot && decide (id ∈ x.accs) && decide ((l.lane, l.va) ∈ x.lanes)

/-- One lane of an access taken as far as it goes now. -/
def State.performLane (s : State) (core : BitVec 10) (slot : BitVec 3) (id : Nat) (l : LaneAcc) : State :=
  match s.group? core slot with
  | none => s
  | some g =>
    match g.inflight.find? fun a => a.id = id with
    | none => s
    | some a =>
      if l.done || l.fault.isSome || s.laneSent g id l then s
      else
        let (s, l) :=
          if 2 ^ 52 ≤ l.pa then s.performWindow g a l
          else
            match l.mt with
            | .wb => s.performWb g a l
            | .sm => s.performSm g a l
            | .uc => s.performUc g a l
            | .wc => if a.writes then s.performWc g a l else s.performUc g a l
        s.putLane core slot id l

/-- Lane records, lowest lane first, one for each lane. -/
def laneRecords (l : List LaneAcc) : List (BitVec 7 × FRec) :=
  (List.range 97).filterMap fun i =>
    (l.find? fun x => x.lane.toNat = i && x.fault.isSome).bind fun x => x.fault.map fun r => (x.lane, r)

/-- An access all of whose lanes have been taken: performed, or a late fault of the group (R402); a store held in the buffer is
performed when the buffer is sent. -/
def State.concludeAccess (s : State) (core : BitVec 10) (slot : BitVec 3) (id : Nat) : State :=
  match s.group? core slot with
  | none => s
  | some g =>
    match g.inflight.find? fun a => a.id = id with
    | none => s
    | some a =>
      if !a.lanes.all (fun l => l.done || l.fault.isSome) then s
      else if a.lanes.any fun l => l.fault.isSome then
        s.modGroup core slot fun g => { g with
          inflight := g.inflight.filter fun x => x.id ≠ id
          late := match g.late with
            | some x => some x
            | none => some ⟨a.id, a.pc, a.cpos, laneRecords a.lanes⟩ }
      else s.concludeStore core slot id

/-- A load, store or atomic with lanes still to be performed; a store held in the write-combining buffer has none. -/
def Access.open (a : Access) : Bool :=
  !a.performed && !(a.lanes.all fun l => l.done) &&
  (match a.op with
   | .load _ | .store | .atom .. | .cas => true
   | _ => false)

/-- Accesses that the group's memory unit takes through the L1 or to a home, one after another in program order: an access goes as
far as it can, and the next follows once it is performed, or its stores are in the write-combining buffer (R200, R212, log 18). -/
def State.pump (s : State) (core : BitVec 10) (slot : BitVec 3) : Nat → State
  | 0 => s
  | n + 1 =>
    match s.group? core slot with
    | none => s
    | some g =>
      match g.inflight.find? Access.open with
      | none => s
      | some a =>
        let s := a.lanes.foldl (fun s l => s.performLane core slot a.id l) s
        let s := s.concludeAccess core slot a.id
        match s.group? core slot with
        | none => s
        | some g' =>
          if g'.inflight.any fun x => x.id = a.id && !(x.lanes.all fun l => l.done) then s
          else State.pump (s.settle core slot) core slot n

/-- Accesses that can go on do so; the buffer of a group that has executed EXIT is sent at once (R81, R282). -/
def State.proceed (s : State) (core : BitVec 10) (slot : BitVec 3) : State :=
  let s := (s.pump core slot 256).settle core slot
  match s.group? core slot with
  | some g => if g.life = .draining && g.wc.isSome then s.sendWc core slot else s
  | none => s

/-! ### Issue of an access -/

/-- What an instruction asks of memory: one item for each lane, 96 for a scalar form: lane, address, data, comparand. -/
structure Req where
  path : BitVec 3
  op : AccOp
  kind : AccKind
  hint : BitVec 2
  size : BitVec 3
  dst : Dst
  lanes : List (BitVec 7 × Word × BitVec 128 × Word)
  deriving DecidableEq, Repr

def Req.writes (r : Req) : Bool := r.kind.writes

/-- The lanes of faulting accesses trap, lowest lane first in the header (R109, R110). -/
def State.trapLanes (s : State) (recs : List (BitVec 7 × FRec)) : State :=
  match recs with
  | [] => s
  | (_, r) :: _ => (s.clearVerdicts (.group s.cur.core s.cur.slot)).trap .lane r.kind recs

/-- A lane of an access; one of 16 bytes is two halves (R209). -/
def laneParts (size : BitVec 3) (lane : BitVec 7) (va : Word) (pa : Nat) (mt : MType) (co : Bool) (data : BitVec 128) (cmp : Word) :
    List LaneAcc :=
  if size = 4 then
    [⟨lane, va, pa, mt, data.extractLsb' 0 64 |>.setWidth 128, cmp, 0, false, none, co⟩,
     ⟨lane, va + 8, pa + 8, mt, data.extractLsb' 64 64 |>.setWidth 128, cmp, 0, false, none, co⟩]
  else [⟨lane, va, pa, mt, data, cmp, 0, false, none, co⟩]

/-- The coalescer takes the lanes in ascending order of the sectors they touch (R194). -/
def sectorOrder (l : List LaneAcc) : List LaneAcc := l.sortBy fun a b => a.va.toNat / 32 ≤ b.va.toNat / 32

/-- An access checked lane by lane, and issued: it faults, waits for pages, is held by its counter, or enters the group's accesses
in flight and the instruction retires (R110, R180, R318, R320). Whether a write is dropped is settled here, at its issue. Of R116's first two sentences,
which meet in a store that the consuming group issued after the consuming load and before its data returned, the model follows the first: a write
issued before entry is performed (DEDUCED, log 79). -/
def State.issueAccess (s : State) (c : Ctl) (cost : Nat) (r : Req) (zero : LatchV) (region : Bool := false) :
    State :=
  let g := s.cur
  let who : Waiter := .group g.core g.slot
  let chk := r.lanes.map fun x => (x, s.checkLane x.2.1 r.size.toNat r.kind r.writes (r.kind = .atomic))
  let bad := chk.filterMap fun (x, k) => match k with
    | .bad f => some (x.1, f)
    | _ => none
  if bad ≠ [] then (bad.foldl (fun s x => s.walkFault x.2.addr x.2.kind) s).trapLanes bad
  else if chk.any fun (_, k) => k = .wait then
    let s := chk.foldl (fun s (x, k) => if k = .wait then s.awaitPage who g.ctx x.2.1 r.kind (2 ^ r.size.toNat) else s) s
    s.pause
  else if r.lanes.isEmpty then s.retire c cost zero
  else if 63 ≤ g.counter r.path.toNat then s.hold
  else
    let s := s.clearVerdicts who
    let s := if r.writes then r.lanes.foldl (fun s x => s.markDirty who g.ctx x.2.1) s else s
    let (s, id) := s.stamp
    let (s, drop) := if r.writes then s.dropsNow s.cur else (s, false)
    let s := r.lanes.foldl (fun s x => s.touchTlb who g.ctx x.2.1) s
    let lanes := sectorOrder (chk.flatMap fun (x, k) => match k with
      | .ok pa mt co => laneParts r.size x.1 x.2.1 pa mt co x.2.2.1 x.2.2.2
      | _ => [])
    let a : Access := ⟨id, r.path, r.op, r.hint, r.size, lanes, r.dst, g.pc, g.cpos, false, 0, false, drop, region, s.timebase⟩
    let s := s.setCur { s.cur with inflight := s.cur.inflight ++ [a] }
    let s := s.retire c cost (if zero = .none then .none else .pend id)
    s.proceed g.core g.slot

/-! ### Accesses that an instruction performs in its own step (JTAB, RESUME, SWEEP and the like; log 19) -/

/-- What keeps an access from its home (R50, R54, R56, R203) is met, unless it has been let pass before (`free`). -/
def State.atHomeNow (s : State) (g : Group) (a : Access) (l : LaneAcc) (free : Bool) (f : State → State × LaneAcc) : State × LaneAcc :=
  if !free && s.heldNow g.waiter l.pa a.width a.writes l.co then (s.askNow g.waiter l.pa a.width a.writes l.co, l)
  else f (s.passNow g.waiter l.pa a.writes)

/-- Sectors of a second-tier line that a coalesced request has written whole are clean, in memory and in the L2 (R106). -/
def State.clearSectors (s : State) (line : Nat) (mask : BitVec 128) : State :=
  let q (p : BitVec 4) : BitVec 4 := mergePoison p 0 mask
  (s.updL2 line fun l => { l with poison := q l.poison }).memPut line 0 0 (q (s.memPoison line))

/-- A WB lane performed at once: on a hit as any other access, else at its home; a load brings the line as a renewal does. It is not done
where an agent outside or the home makes it wait. -/
def State.wbNow (s : State) (g : Group) (a : Access) (l : LaneAcc) (free : Bool) : State × LaneAcc :=
  let line := l.pa / 128
  let s := s.matchType g.core g.slot line false
  let home (s : State) : State × LaneAcc :=
    s.atHomeNow g a l free fun s =>
      let (s, x) := (s.flushMerges fun m => m.line = line && m.core = g.core).performHome g a l
      if a.writes || a.hint = 3 || s.split line || x.fault.isSome then (s, x)
      else
        let h := s.home line
        let (d, p) := s.homeData line
        (s.installL1 g.core g.slot a.hint ⟨line, .s, h.wts, h.rts, d, l.sector, 0, p, false⟩, x)
  match s.l1? g.core line with
  | some x =>
    if a.hint = 3 || s.split line then home s
    else if x.st = .e then s.performOwned g a l x free
    else if !a.writes && bit x.valid (l.pa % 128 / 32) && !later48 g.pts x.rts then s.performWb g a l
    else home s
  | none => home s

/-- An SM lane performed at once: on a hit, else the sector is brought as the home has it; a line that is split is left at the home (R56). -/
def State.smNow (s : State) (g : Group) (a : Access) (l : LaneAcc) (free : Bool) : State × LaneAcc :=
  let line := l.pa / 128
  let s := s.matchType g.core g.slot line true
  match s.smHit g l with
  | some x => (s.touchHit g.core line a.hint).applySm g a l x.data x.poison
  | none =>
    s.atHomeNow g a l free fun s =>
      if s.split line then s.performHome g a l
      else
        let (s, d, p) := s.plainLine g.waiter line (!l.co)
        (s.installPlain g.core g.slot a.hint line l.sector (secondTier l.pa && !l.co) d p).applySm g a l d p

/-- One lane of an access that a group performs at once, with the lanes it is coalesced with and a cache hint; it is not done where it has
to wait. -/
def State.laneOf (s : State) (g : Group) (op : AccOp) (hint : BitVec 2) (log : BitVec 3) (l : LaneAcc) (peers : List LaneAcc)
    (free : Bool) : State × LaneAcc :=
  let a : Access := ⟨0, 0, op, hint, log, l :: peers, .none, g.pc, g.cpos, false, 0, false, decide (s.viral g.ctx), false, s.timebase⟩
  if 2 ^ 52 ≤ l.pa then s.performWindow g a l
  else if l.mt = .wb then s.wbNow g a l free
  else if l.mt = .sm && hint ≠ 3 then s.smNow g a l free
  else if l.mt = .wc && a.writes then s.performWc g a l
  else
    (s.evictL1 g.core g.slot (l.pa / 128)).atHomeNow g a l free fun s =>
    let s := s.flushMerges fun m => m.line = l.pa / 128 && m.core = g.core
    if secondTier l.pa && l.mt = .uc && a.writes then
      if a.drops l then (s.dropWrite g.ctx l.va, l.finish 0)
      else
        let (s, ts) := s.writeTarget (l.pa / 128) (placeBytes (l.pa % 128) (l.data.toNat % 2 ^ (8 * a.width))) (byteMask (l.pa % 128) a.width) 0
        ((s.clearSectors (l.pa / 128) (a.coalesced l)).raisePts g.core g.slot ts, l.finish 0)
    else s.performHome g a l

inductive Touch
  | ok (s : State) (ws : List Word)
  | fault (s : State) (r : FRec)
  | wait (s : State)
  deriving Repr

/-- A lane of an access made at once. -/
def laneNow (va : Word) (pa : Nat) (mt : MType) (co : Bool) (data : BitVec 128) : LaneAcc := ⟨96, va, pa, mt, data, 0, 0, false, none, co⟩

/-- `n` 64-bit words read one after another as scalar accesses of the group at the port, with a cache hint. -/
def State.touchWordsAs (hint : BitVec 2) (s : State) (va : Word) (k : AccKind) : Nat → Touch
  | 0 => .ok s []
  | n + 1 =>
    match s.checkLane va 3 k false false with
    | .bad f => .fault (s.walkFault f.addr f.kind) f
    | .wait => .wait (s.awaitPage s.cur.waiter s.cur.ctx va k 8)
    | .ok pa mt co =>
      let (s, l) := (s.touchTlb s.cur.waiter s.cur.ctx va).laneOf s.cur (.load false) hint 3 (laneNow va pa mt co 0) [] false
      match l.fault with
      | some r => .fault s r
      | none =>
        if !l.done then .wait s
        else
          match State.touchWordsAs hint s (va + 8) k n with
          | .ok s ws => .ok s (l.res.extractLsb' 0 64 :: ws)
          | x => x

def State.touchWords (s : State) (va : Word) (k : AccKind) (n : Nat) : Touch := State.touchWordsAs 0 s va k n

/-- The group has loads, stores or atomics that are not performed: what it performs in the step of an instruction waits for them, which
keeps its program order (R200, R213). -/
def Group.behind (g : Group) : Bool := g.inflight.any Access.open

/-- A read of words and what follows it: earlier accesses are awaited, a fault traps with record 96, a page is waited for. -/
def State.withWordsAs (hint : BitVec 2) (s : State) (va : Word) (k : AccKind) (n : Nat) (f : State → List Word → State) : State :=
  if s.cur.behind then s.hold
  else
    match State.touchWordsAs hint s va k n with
    | .ok s ws => f (s.clearVerdicts s.cur.waiter) ws
    | .wait s => s.pause
    | .fault s r => s.trapLanes [(96, r)]

def State.withWords (s : State) (va : Word) (k : AccKind) (n : Nat) (f : State → List Word → State) : State := State.withWordsAs 0 s va k n f

end Sys2Proof.Machine
end

