-- ==== Sys2Proof/Machine/Tags.lean ====
section
/-! DEFINITION. What an atomic region tracks of the vector instructions (17_isa_atomic_regions.md, R342, R344, R345, R347): tags of
registers and latches, constraints, and the loss of tracking. -/

namespace Sys2Proof.Machine

/-- The dependence set of a tag (R342). -/
def RTag.deps : RTag → BitVec 4
  | .plain => 0
  | .word j _ => BitVec.ofNat 4 (2 ^ j.toNat)
  | .opaq m => m

/-- A tag that depends on a set, in a way that is not tracked. -/
def opaqueOf (m : BitVec 4) : RTag := if m = 0 then .plain else .opaq m

def RLane.regTag (l : RLane) (n : Nat) : RTag := Tab.get .plain l.tags n

def RLane.setTag (l : RLane) (n : Nat) (t : RTag) : RLane := { l with tags := Tab.set .plain l.tags n t }

/-- The tag of a vector source field; of a pair, opaque in the union of both halves (R342). -/
def RLane.srcTag (l : RLane) (pair : Bool) : Opd → RTag
  | .reg n => if pair then opaqueOf ((l.regTag n.toNat).deps ||| (l.regTag (n.toNat + 1)).deps) else l.regTag n.toNat
  | .latch k =>
    let p := l.latches.getD k.toNat (.plain, .plain)
    if pair then opaqueOf (p.1.deps ||| p.2.deps) else p.1
  | _ => .plain

/-- A compare with the tracked value put on the left. -/
def swapRel (rel : Nat) : Nat :=
  match rel with
  | 2 => 4
  | 3 => 5
  | 4 => 2
  | 5 => 3
  | r => r

/-- What a vector instruction does to the tags of one lane (R344). -/
inductive TagRule
  /-- VMOV: the tag of A. -/
  | move
  /-- VADD and VSUB without saturation. -/
  | add
  | sub
  /-- VSEL. -/
  | sel
  /-- A compare: format 0 signed, 1 unsigned, 2 FP32, 3 LI32, and its relation. -/
  | cmp (fmt : BitVec 2) (rel : Nat)
  /-- Every other one: `dst` registers from D; `pairA`, A is a pair; `old`, D is read too. -/
  | other (dst : Nat) (pairA old : Bool)
  deriving DecidableEq, Repr

/-- A constraint recorded; beyond eight the lane loses tracking (R345, R347). -/
def RLane.constrain (l : RLane) (k : Constraint) : RLane :=
  if 8 ≤ l.cons.length then { l with failed := true } else { l with cons := l.cons ++ [k] }

def RLane.control (l : RLane) (m : BitVec 4) : RLane := { l with ctl := l.ctl ||| m }

/-- VADD and VSUB: a tracked word plus or minus a plain value. -/
def sumTag (minus : Bool) (ta tb : RTag) (va vb : Half) : RTag :=
  match ta, tb with
  | .plain, .plain => .plain
  | .word j c, .plain => .word j (if minus then c - vb else c + vb)
  | .plain, .word j c => if minus then opaqueOf (RTag.word j c).deps else .word j (c + va)
  | a, b => opaqueOf (a.deps ||| b.deps)

/-- The tag of the result, from the lane's tags before the instruction; `kb` is the lane's K bit before it. -/
def RLane.resultTag (l : RLane) (r : TagRule) (d a b c e : Opd) (va vb : Half) (kb : Bool) : RTag :=
  let ta := l.srcTag false a
  let tb := l.srcTag false b
  match r with
  | .move => ta
  | .add => sumTag false ta tb va vb
  | .sub => sumTag true ta tb va vb
  | .sel => if ta = .plain && tb = .plain then .plain else if kb then ta else tb
  | .cmp .. => .plain
  | .other n pairA old =>
    opaqueOf ((l.srcTag pairA a).deps ||| (l.srcTag pairA b).deps ||| (l.srcTag pairA c).deps ||| (l.srcTag false e).deps |||
      (if old then l.srcTag (n = 2) d else .plain).deps)

/-- Registers of the result. -/
def TagRule.regs : TagRule → Nat
  | .cmp .. => 0
  | .other n _ _ => n
  | _ => 1

/-- What a compare leaves: a constraint or control dependences; `kb` is the K bit the lane received. -/
def RLane.compare (l0 l : RLane) (r : TagRule) (a b : Opd) (va vb : Half) (kb : Bool) : RLane :=
  match r with
  | .cmp fmt rel =>
    match l0.srcTag false a, l0.srcTag false b with
    | .plain, .plain => l
    | .word j k, .plain => l.constrain ⟨j, k, BitVec.ofNat 3 rel, fmt, vb, kb⟩
    | .plain, .word j k => l.constrain ⟨j, k, BitVec.ofNat 3 (swapRel rel), fmt, va, kb⟩
    | x, y => l.control (x.deps ||| y.deps)
  | _ => l

/-- The region's lanes changed. -/
def Group.modRegion (g : Group) (f : RLane → RLane) : Group :=
  { g with region := g.region.map fun r => { r with state := r.state.map f } }

/-- Every lane of the region loses tracking. -/
def Group.loseTracking (g : Group) : Group := g.modRegion fun l => { l with failed := true }

/-- The first latch carries a tag for each half. -/
def RLane.tagLatch (l : RLane) (lo hi : RTag) : RLane :=
  match l.latches with
  | _ :: r => { l with latches := (lo, hi) :: r }
  | [] => l

/-- Tags after an instruction of groups 0x3 to 0x5 that `g0` has executed: active lanes of the region (R344). Source tags are those of
before; the instruction's own latch stands first afterwards, unless its clause is over. -/
def State.track (s : State) (g0 : Group) (r : TagRule) (w : RR) (e : Opd) (va vb : Lanes) : State :=
  match g0.region, s.cur.region with
  | some r0, some r1 =>
    if s.cur.hmode then s
    else
      let f (l0 l : RLane) : RLane :=
        if !bit g0.em l.lane.toNat then l
        else
          let i : Fin 96 := Fin.ofNat 96 l.lane.toNat
          let t := l0.resultTag r w.d w.a w.b w.c e va[i] vb[i] (bit g0.k l.lane.toNat)
          let l := l0.compare l r w.a w.b va[i] vb[i] (bit s.cur.k l.lane.toNat)
          let l := l.tagLatch t t
          match w.d with
          | .reg k => (List.range r.regs).foldl (fun l j => l.setTag (k.toNat + j) t) l
          | _ => l
      s.setCur { s.cur with region := some { r1 with state := List.zipWith f r0.state r1.state } }
  | _, _ => s

/-- A group 0x6 instruction or VMOVS that has read lanes `rd` of A, and B in its active lanes: a value that is not plain makes every lane
lose tracking; else a vector result in D is plain (R344). -/
def State.trackCross (s : State) (g0 : Group) (rd : Fin 96 → Bool) (d a b : Opd) : State :=
  match g0.region with
  | some r0 =>
    if s.cur.hmode then s
    else if r0.state.any fun l =>
        (rd (Fin.ofNat 96 l.lane.toNat) && l.srcTag false a ≠ .plain) || (bit g0.em l.lane.toNat && l.srcTag false b ≠ .plain) then
      s.setCur s.cur.loseTracking
    else
      match d with
      | .reg k => s.setCur (s.cur.modRegion fun l => if bit g0.em l.lane.toNat then l.setTag k.toNat .plain else l)
      | _ => s
  | none => s

end Sys2Proof.Machine
end

