-- ==== Sys2Proof/Machine/Global.lean ====
section
/-! DEFINITION. Global memory, group 0x7 (16_isa_memory_sync.md, R316 to R322), with the loads and stores of an atomic region
(17_isa_atomic_regions.md, R343, R346), and what a returning load writes (R320). -/

namespace Sys2Proof.Machine

/-! ### Destinations and data (R317) -/

def Size.signed : Size → Bool
  | .s8 | .s16 => true
  | _ => false

/-- The registers a load of this size fills. -/
def scalarDst (z : Size) : Opd → Dst
  | .reg n => .s n (if z = .b128 then 2 else 1)
  | _ => .none

def vectorDst (z : Size) : Opd → Dst
  | .reg n => .v n (match z with
    | .b64 => 2
    | .b128 => 4
    | _ => 1) false
  | _ => .none

def scalarData (g : Group) (z : Size) (d : Opd) : BitVec 128 :=
  if z = .b128 then let (lo, hi) := g.srcS2 d; hi ++ lo else BitVec.ofNat 128 (g.srcS d).toNat

def vectorData (g : Group) (z : Size) (d : Opd) (i : Fin 96) : BitVec 128 :=
  match z, d with
  | .b128, .reg n => (g.vread (n + 3))[i] ++ (g.vread (n + 2))[i] ++ (g.vread (n + 1))[i] ++ (g.vread n)[i]
  | .b64, d => BitVec.ofNat 128 (g.srcP d)[i].toNat
  | _, d => BitVec.ofNat 128 (g.srcV d)[i].toNat

def zeroV : LatchV := .v noLanes noLanes

/-! ### Loads and stores outside a region (R321) -/

def lane7 (i : Fin 96) : BitVec 7 := BitVec.ofNat 7 i.val

/-- A scalar load or store, record 96. -/
def scalarMem (s : State) (z : Size) (w : I16) (op : AccOp) (k : AccKind) (path : BitVec 3) : State :=
  let g := s.cur
  let st := op = .store
  s.issueAccess w.ctl 1
    ⟨path, op, k, w.ctl.ch, BitVec.ofNat 3 z.log, if st then .none else scalarDst z w.d,
      [(96, scalarEa g w.a w.b (immWord w), if st then scalarData g z w.d else 0, 0)]⟩
    (if st then .none else .s 0)

/-- A vector load or store; `ea` gives each lane's address. -/
def vectorMem (s : State) (z : Size) (w : I16) (op : AccOp) (k : AccKind) (path : BitVec 3) (ea : Fin 96 → Word)
    (region : Bool := false) : State :=
  let g := s.cur
  let st := op = .store
  s.issueAccess w.ctl g.cost
    ⟨path, op, k, w.ctl.ch, BitVec.ofNat 3 z.log, if st then .none else vectorDst z w.d,
      g.activeLanes.map fun i => (lane7 i, ea i, if st then vectorData g z w.d i else 0, 0)⟩
    (if st then .none else zeroV) region

/-! ### Inside a region -/

/-- Dependence sets of the vector offset join the control dependences of the active lanes (R343, R346). -/
def State.offsetControl (s : State) (b : Opd) : State :=
  s.setCur (s.cur.modRegion fun l => if bit s.cur.em l.lane.toNat then l.control (l.srcTag false b).deps else l)

/-- Two ranges of bytes overlap. -/
def overlaps (a n b m : Nat) : Bool := a < b + m && b < a + n

/-- A store recorded in a lane's write set (R346, R347). -/
def RLane.record (l : RLane) (e : WEntry) : RLane :=
  let n (x : WEntry) : Nat := if x.two then 8 else 4
  if l.failed then l
  else if l.writes.any fun x => x.va = e.va && x.two = e.two then
    { l with writes := l.writes.map fun x => if x.va = e.va && x.two = e.two then e else x }
  else if l.writes.any fun x => overlaps x.va.toNat (n x) e.va.toNat (n e) then { l with failed := true }
  else if 8 ≤ l.writes.length then { l with failed := true }
  else { l with writes := l.writes ++ [e] }

/-- The tags of the data of a region store: of the registers, or of a latch, which read as a pair is opaque in the union of both words (R342). -/
def RLane.dataTags (l : RLane) (two : Bool) (d : Opd) : RTag × RTag :=
  match d with
  | .reg n => (l.regTag n.toNat, l.regTag (n.toNat + 1))
  | .latch _ => (l.srcTag two d, l.srcTag two d)
  | _ => (.plain, .plain)

/-- VST and VSTB in a region: checked as usual, and recorded instead of performed (R346). A load of the region that has not returned
holds it. -/
def regionStore (s : State) (z : Size) (w : I16) (ea : Fin 96 → Word) : State :=
  let g := s.cur
  let chk := g.activeLanes.map fun i => (i, s.checkLane (ea i) z.log .store true false)
  let bad := chk.filterMap fun (i, k) => match k with
    | .bad f => some (lane7 i, f)
    | _ => none
  if g.inflight.any fun a => a.region && !a.retired then s.hold
  else if bad ≠ [] then (bad.foldl (fun s x => s.walkFault x.2.addr x.2.kind) s).trapLanes bad
  else if chk.any fun (_, k) => k = .wait then
    (chk.foldl (fun s (i, k) => if k = .wait then s.awaitPage g.waiter g.ctx (ea i) .store (2 ^ z.log) else s) s).pause
  else
    let s := (s.clearVerdicts g.waiter).offsetControl w.b
    let two := z = .b64
    let s := s.setCur (s.cur.modRegion fun l =>
      match chk.find? fun (i, _) => i.val = l.lane.toNat with
      | some (i, .ok pa mt _) =>
        if mt ≠ .wb then { l with failed := true }
        else
          let d := vectorData g z w.d i
          let (t, u) := l.dataTags two w.d
          l.record ⟨ea i, pa, two, d.extractLsb' 0 32, t, d.extractLsb' 32 32, if two then u else .plain⟩
      | _ => l)
    s.retire w.ctl g.cost .none

/-- VLD and VLDB in a region: an ordinary load, tracked when it returns (R343). -/
def regionLoad (s : State) (z : Size) (w : I16) (ea : Fin 96 → Word) : State :=
  (s.offsetControl w.b) |> fun s => vectorMem s z w (.load false) .load 0 ea true

/-- Is the group's instruction a region instruction? -/
def Group.inRegion (g : Group) : Bool := g.region.isSome && !g.hmode

/-! ### The instructions -/

/-- SLD (R321). -/
def execSld (z : Size) (w : I16) (s : State) : Host.Outcome State Fault Refusal :=
  .next (issue (.sld z w) s fun s => scalarMem s z w (.load (Size.signed z)) .load 0)

/-- SST. -/
def execSst (z : Size) (w : I16) (s : State) : Host.Outcome State Fault Refusal :=
  .next (issue (.sst z w) s fun s => scalarMem s z w .store .store 1)

/-- VLD. -/
def execVld (z : Size) (w : I16) (s : State) : Host.Outcome State Fault Refusal :=
  .next (issue (.vld z w) s fun s =>
    let ea := vectorEa s.cur w.a w.b (immWord w)
    if s.cur.inRegion then regionLoad s z w ea else vectorMem s z w (.load (Size.signed z)) .load 0 ea)

/-- VST. -/
def execVst (z : Size) (w : I16) (s : State) : Host.Outcome State Fault Refusal :=
  .next (issue (.vst z w) s fun s =>
    let ea := vectorEa s.cur w.a w.b (immWord w)
    if s.cur.inRegion then regionStore s z w ea else vectorMem s z w .store .store 1 ea)

/-- VLDB: the offset is scaled by the element (R316). -/
def execVldb (z : Size) (w : I16) (s : State) : Host.Outcome State Fault Refusal :=
  .next (issue (.vldb z w) s fun s =>
    let ea := scaledEa s.cur w.a w.b (immWord w) (2 ^ z.log)
    if s.cur.inRegion then regionLoad s z w ea else vectorMem s z w (.load (Size.signed z)) .load 0 ea)

/-- VSTB. -/
def execVstb (z : Size) (w : I16) (s : State) : Host.Outcome State Fault Refusal :=
  .next (issue (.vstb z w) s fun s =>
    let ea := scaledEa s.cur w.a w.b (immWord w) (2 ^ z.log)
    if s.cur.inRegion then regionStore s z w ea else vectorMem s z w .store .store 1 ea)

/-- One lane of VPF: a line of the code window or an aperture is put into the L1 where nothing holds it; any other line is asked for whole, unless
the L1 has all of it; with the keep-in-L2 hint only the L2 takes the line, and with bypass-L1 no L1 does (R194, R322). -/
def State.prefetchLane (s : State) (g : Group) (id : Nat) (hint : BitVec 2) (l : LaneAcc) : State :=
  let line := l.pa / 128
  let fin (s : State) : State := s.putLane g.core g.slot id { l with done := true }
  if 2 ^ 52 ≤ l.pa then
    if 2 ≤ hint.toNat || (s.l1? g.core line).any (fun x => x.valid = 15) || s.heldAt g.waiter l.pa 1 false false then fin s
    else
      let (s, d, p) := s.windowLine g.waiter line
      fin (s.installPlain g.core g.slot hint line 15 false d p)
  else
    let s := s.matchType g.core g.slot line (l.mt = .sm)
    if hint.toNat < 2 && (s.l1? g.core line).any (fun x => x.valid = 15 && (x.st ≠ .s || !later48 g.pts x.rts)) then fin s
    else s.ask g id line 15 .renewal

/-- VPF (R322): lines filled without an effect on any value; lanes that fail a check are dropped. -/
def execVpf (w : I16) (s : State) : Host.Outcome State Fault Refusal :=
  .next (issue (.vpf w) s fun s =>
    let g := s.cur
    let ea := vectorEa g w.a w.b (immWord w)
    let s := g.activeLanes.foldl (fun s i => s.walkNow g.waiter g.ctx (ea i)) s
    let ok := g.activeLanes.filterMap fun i => match s.checkLane (ea i) 0 .load false false with
      | .ok pa mt co => if mt = .wb || mt = .sm then some (⟨lane7 i, ea i, pa, mt, 0, 0, 0, false, none, co⟩ : LaneAcc) else none
      | _ => none
    if g.activeLanes.isEmpty then s.retire w.ctl g.cost .none
    else if 63 ≤ g.counter 0 then s.hold
    else
      let (s, id) := s.stamp
      let lanes := sectorOrder ok
      let a : Access := ⟨id, 0, .prefetch, w.ctl.ch, 0, lanes, .none, g.pc, g.cpos, lanes.isEmpty, 0, false, false, false, s.timebase⟩
      let s := s.setCur { s.cur with inflight := s.cur.inflight ++ [a] }
      let s := s.retire w.ctl g.cost .none
      let s := lanes.foldl (fun s l => s.prefetchLane g id w.ctl.ch l) s
      (s.concludeAccess g.core g.slot id).settle g.core g.slot)

/-! ### A load returns (R320) -/

/-- A value of 2^`log` bytes widened to `n` bits. -/
def widen (n log : Nat) (sgn : Bool) (v : Nat) : Nat := if sgn then (ofInt n (signedOf (8 * 2 ^ log) v)).toNat else v

def Access.isSigned (a : Access) : Bool := a.op = .load true

/-- Register k of the result of one lane; of 16 bytes, of the half that has it. -/
def Access.laneWord (a : Access) (l : LaneAcc) (k : Nat) : Half :=
  if a.size.toNat < 2 then BitVec.ofNat 32 (widen 32 a.size.toNat a.isSigned (l.res.toNat % 2 ^ (8 * 2 ^ a.size.toNat)))
  else l.res.extractLsb' (32 * (k % 2)) 32

/-- The lanes that have 32-bit word k of a result: all, or of 16 bytes the halves it lies in (R209). -/
def Access.parts (a : Access) (k : Nat) : List LaneAcc :=
  if a.size = 4 then a.lanes.filter fun l => l.va.toNat / 8 % 2 = k / 2 else a.lanes

/-- Register k of a vector result, over the lanes of the access. -/
def Access.laneRow (a : Access) (k : Nat) : Lanes :=
  (a.parts k).foldl (fun (x : Lanes) l => if h : l.lane.toNat < 96 then x.set l.lane.toNat (a.laneWord l k) h else x) noLanes

def Access.laneMask (a : Access) : Mask := a.lanes.foldl (fun m l => m ||| BitVec.ofNat 96 (2 ^ l.lane.toNat)) 0

/-- The result of a scalar access, 64-bit word k. -/
def Access.scalarWord (a : Access) (k : Nat) : Word :=
  match a.parts (2 * k) with
  | l :: _ =>
    if a.size.toNat < 3 then BitVec.ofNat 64 (widen 64 a.size.toNat a.isSigned (l.res.toNat % 2 ^ (8 * 2 ^ a.size.toNat)))
    else l.res.extractLsb' 0 64
  | [] => 0

/-- The latch a load leaves. -/
def Access.latchV (a : Access) : LatchV :=
  match a.dst with
  | .s .. => .s (a.scalarWord 0)
  | .v _ n _ => .v (a.laneRow 0) (if n = 1 then noLanes else a.laneRow 1)
  | .none => .none

/-- The destinations of an access written, in the lanes it was issued for, and its latch filled (R317, R320, R328). -/
def Group.deliver (g : Group) (a : Access) : Group :=
  let g :=
    match a.dst with
    | .s r n => (List.range n).foldl (fun (g : Group) k => g.swrite (r + BitVec.ofNat 6 k) (a.scalarWord k)) g
    | .v r n _ =>
      (List.range n).foldl (fun (g : Group) k =>
        let q := r + BitVec.ofNat 6 k
        { g with vregs := g.vregs.set q.toNat (mergeLanes a.laneMask (a.laneRow k) (g.vread q)) (q.isLt) }) g
    | .none => g
  let g :=
    match a.dst with
    | .v _ _ true =>
      { g with k := a.lanes.foldl (fun (m : Mask) (l : LaneAcc) =>
          if l.res.toNat % 2 ^ (8 * 2 ^ a.size.toNat) = l.cmp.toNat % 2 ^ (8 * 2 ^ a.size.toNat) then
            m ||| BitVec.ofNat 96 (2 ^ l.lane.toNat) else m) 0 }
    | _ => g
  { g with latches := g.latches.map fun x => if x = LatchV.pend a.id then a.latchV else x
           image := g.image.map fun x => if x = LatchV.pend a.id then a.latchV else x }

/-! ### Tracking a region load that returns (R343) -/

/-- One word of a lane: its value and tag, and the lane with the word tracked. -/
def RLane.loadWord (l : RLane) (va : Word) (pa : Nat) (val : Half) : RLane × Half × RTag :=
  match l.writes.findSome? fun e =>
      if e.va = va then some (e.lo, e.tlo) else if e.two && e.va + 4 = va then some (e.hi, e.thi) else none with
  | some (v, t) => (l, v, t)
  | none =>
    match l.reads.findIdx? fun r => r.va = va with
    | some j => (l, (l.reads.getD j ⟨0, 0, 0⟩).val, .word (BitVec.ofNat 2 j) 0)
    | none =>
      if 4 ≤ l.reads.length then ({ l with failed := true }, val, .opaq 15)
      else ({ l with reads := l.reads ++ [⟨va, pa, val⟩] }, val, .word (BitVec.ofNat 2 l.reads.length) 0)

/-- A region lane with its part of a returned access; the access's lane with the values that count. Through a leaf that is not WB the lane loses
tracking, and what it loads is plain. -/
def RLane.loadReturn (l : RLane) (a : Access) (x : LaneAcc) (pos : Nat) : RLane × LaneAcc :=
  let r := match a.dst with
    | .v r _ _ => r.toNat
    | _ => 0
  let put (l : RLane) (t0 t1 : RTag) : RLane :=
    let l := l.setTag r t0
    let l := if a.size = 3 then l.setTag (r + 1) t1 else l
    { l with latches := if pos < l.latches.length then l.latches.set pos (t0, t1) else l.latches }
  if x.mt ≠ .wb then (put { l with failed := true } .plain .plain, x)
  else
    let (l, v0, t0) := l.loadWord x.va x.pa (x.res.extractLsb' 0 32)
    let (l, v1, t1) := if a.size = 3 then l.loadWord (x.va + 4) (x.pa + 4) (x.res.extractLsb' 32 32) else (l, 0, .plain)
    (put l t0 t1, { x with res := BitVec.ofNat 128 (v0.toNat + 2 ^ 32 * v1.toNat) })

/-- The region's lanes and the access after a region load returns. -/
def Group.trackLoad (g : Group) (a : Access) : Group × Access :=
  match g.region with
  | none => (g, a)
  | some r =>
    if !a.region then (g, a)
    else
      let pos := (g.latches.findIdx? fun x => x = .pend a.id).getD g.latches.length
      let step (l : RLane) : RLane × Option LaneAcc :=
        match a.lanes.find? fun x => x.lane = l.lane with
        | some x => let (l, y) := l.loadReturn a x pos; (l, some y)
        | none => (l, none)
      let out := r.state.map step
      let lanes := a.lanes.map fun x =>
        (out.findSome? fun p => match p.2 with
          | some y => if y.lane = x.lane then some y else none
          | none => none).getD x
      ({ g with region := some { r with state := out.map fun p => p.1 } }, { a with lanes := lanes })

/-- The return of an access whose lanes are all performed: destinations, latch, tags, and its counter (R180, R320). -/
def State.returnLoad (s : State) (core : BitVec 10) (slot : BitVec 3) (id : Nat) : State :=
  match s.group? core slot with
  | none => s
  | some g =>
    match g.inflight.find? fun a => a.id = id && a.performed && !a.retired && a.dst ≠ .none with
    | none => s
    | some a =>
      let s := s.modGroup core slot fun g =>
        let (g, a) := g.trackLoad a
        let g := g.deliver a
        { g with inflight := g.inflight.map fun x => if x.id = id then { x with retired := true } else x }
      s.settle core slot

/-- LOAD_RETURN (R320): core `ev.a`, slot `ev.b`, access `ev.c`. -/
def execLoadReturn (s : State) : Host.Outcome State Fault Refusal :=
  .next (s.returnLoad (BitVec.ofNat 10 s.ev.a) (BitVec.ofNat 3 s.ev.b) s.ev.c)

end Sys2Proof.Machine
end

