-- ==== Sys2Proof/Machine/Atomic.lean ====
section
/-! DEFINITION. Atomics of group 0x9 (16_isa_memory_sync.md, R327 to R330). -/

namespace Sys2Proof.Machine

def atomFn (w : RR) : BitVec 4 := BitVec.ofNat 4 (bits w.e 7 4)
def atom64 (w : RR) : Bool := bit w.e 3

/-- The operation has a floating operand. -/
def atomFloat (w : RR) : Bool := 9 ≤ bits w.e 7 4

/-- Operand C of a vector form, in the operation's format (R248, R328). -/
def atomLane (g : Group) (w : RR) (o : Opd) (fp : Bool) (i : Fin 96) : Word :=
  if atom64 w then (if fp then (g.srcD o)[i] else (g.srcP o)[i])
  else BitVec.ofNat 64 (if fp then (g.srcF o)[i].toNat else (g.srcV o)[i].toNat)

/-- Operand C of a scalar form (R329). -/
def atomScalar (g : Group) (w : RR) : Word :=
  let f := if atom64 w then fp64 else fp32
  match w.c with
  | .fpc k => BitVec.ofNat 64 (fpConstIn f k)
  | .pos _ | .neg _ =>
    if atomFloat w then BitVec.ofNat 64 (f.ofIntVal .rne false (inlineInt w.c)).val else g.srcS w.c
  | o => g.srcS o

/-- A register pair of a W64 form that a load is still to write (R167). -/
def atomPending (g : Group) (w : RR) : Bool :=
  atom64 w && [w.d, w.c].any fun o => match o with
    | .reg n => g.inflight.any fun a => !a.retired && a.dst.hits .v n.toNat 2
    | _ => false

/-- A vector atomic (R328). -/
def vectorAtom (s : State) (w : RR) (op : AccOp) (dst : Dst) (cmp : Fin 96 → Word) : State :=
  let g := s.cur
  if atomPending g w then s.hold
  else
    s.issueAccess w.ctl g.cost
      ⟨5, op, .atomic, w.ctl.ch, if atom64 w then 3 else 2, dst,
        g.activeLanes.map fun i =>
          (lane7 i, vectorEa g w.a w.b 0 i, BitVec.ofNat 128 (atomLane g w w.c (atomFloat w) i).toNat, cmp i)⟩
      (if dst = .none then .none else zeroV)

def atomDst (w : RR) (k : Bool) : Dst :=
  match w.d with
  | .reg n => .v n (if atom64 w then 2 else 1) k
  | _ => .none

/-- A scalar atomic (R329). -/
def scalarAtom (s : State) (w : RR) (op : AccOp) (cmp : Word) : State :=
  let g := s.cur
  let dst : Dst := match w.d with
    | .reg n => .s n 1
    | _ => .none
  s.issueAccess w.ctl 1
    ⟨5, op, .atomic, w.ctl.ch, if atom64 w then 3 else 2, dst,
      [(96, scalarEa g w.a w.b 0, BitVec.ofNat 128 (atomScalar g w).toNat, cmp)]⟩ (.s 0)

/-- VATOM. -/
def execVatom (w : RR) (s : State) : Host.Outcome State Fault Refusal :=
  .next (issue (.vatom w) s fun s => vectorAtom s w (.atom (atomFn w) true) (atomDst w false) fun _ => 0)

/-- VRED returns nothing. -/
def execVred (w : RR) (s : State) : Host.Outcome State Fault Refusal :=
  .next (issue (.vred w) s fun s => vectorAtom s w (.atom (atomFn w) false) .none fun _ => 0)

/-- VCAS compares with D, and writes K; under EM = 0 K := 0 (R170). -/
def execVcas (w : RR) (s : State) : Host.Outcome State Fault Refusal :=
  .next (issue (.vcas w) s fun s =>
    let g := s.cur
    let s := if g.em = 0 then s.setCur (g.setK 0) else s
    vectorAtom s w .cas (atomDst w true) (atomLane g w w.d false))

/-- SATOM. -/
def execSatom (w : RR) (s : State) : Host.Outcome State Fault Refusal :=
  .next (issue (.satom w) s fun s => scalarAtom s w (.atom (atomFn w) true) 0)

/-- SCAS compares with S[D]. -/
def execScas (w : RR) (s : State) : Host.Outcome State Fault Refusal :=
  .next (issue (.scas w) s fun s => scalarAtom s w .cas (s.cur.srcS w.d))

end Sys2Proof.Machine
end

