-- ==== Sys2Proof/Machine/Scalar.lean ====
section
/-! DEFINITION. Scalar integer instructions, group 0x0 (14_isa_scalar_control.md, R261 to R265). -/

namespace Sys2Proof.Machine

/-- A scalar instruction of two sources (R261, R262). -/
def scalar2 (i : Instr) (w : RR) (s : State) (f : Word → Word → Word) : State :=
  issue i s fun s => s.doneS w.ctl w.d (f (s.cur.srcS w.a) (s.cur.srcS w.b))

/-- ADD and SUB: `z` is the exact s result (R262). With SAT it is clamped and OF is set. -/
def scalarSum (i : Instr) (w : RR) (s : State) (f : Int → Int → Int) : State :=
  issue i s fun s =>
    let z := f (s.cur.srcS w.a).toInt (s.cur.srcS w.b).toInt
    if bit w.e 2 then
      let r := clampRes 64 z
      (s.setCur (s.cur.raise r.2)).doneS w.ctl w.d r.1
    else s.doneS w.ctl w.d (ofInt 64 z)

/-- A scalar instruction of one source. -/
def scalar1 (i : Instr) (w : RR) (s : State) (f : Word → Word) : State :=
  issue i s fun s => s.doneS w.ctl w.d (f (s.cur.srcS w.a))

/-- ADD, with SAT clamped and OF (R262). -/
def execAdd (w : RR) (s : State) : Host.Outcome State Fault Refusal :=
  .next (scalarSum (.add w) w s fun a b => a + b)

/-- SUB, as ADD. -/
def execSub (w : RR) (s : State) : Host.Outcome State Fault Refusal :=
  .next (scalarSum (.sub w) w s fun a b => a - b)

/-- MUL. -/
def execMul (w : RR) (s : State) : Host.Outcome State Fault Refusal :=
  .next (scalar2 (.mul w) w s fun a b => a * b)

/-- MULH. -/
def execMulh (w : RR) (s : State) : Host.Outcome State Fault Refusal :=
  .next (scalar2 (.mulh w) w s fun a b => ofInt 64 ((a.toInt * b.toInt) / 2 ^ 64))

/-- MULHU. -/
def execMulhu (w : RR) (s : State) : Host.Outcome State Fault Refusal :=
  .next (scalar2 (.mulhu w) w s fun a b => BitVec.ofNat 64 (a.toNat * b.toNat / 2 ^ 64))

/-- DIV: toward zero; by zero all ones (R263). -/
def execDiv (w : RR) (s : State) : Host.Outcome State Fault Refusal :=
  .next (scalar2 (.div w) w s fun a b => if b = 0 then BitVec.allOnes 64 else ofInt 64 (a.toInt.tdiv b.toInt))

/-- DIVU (R263). -/
def execDivu (w : RR) (s : State) : Host.Outcome State Fault Refusal :=
  .next (scalar2 (.divu w) w s fun a b => if b = 0 then BitVec.allOnes 64 else BitVec.ofNat 64 (a.toNat / b.toNat))

/-- REM: the sign is that of A; by zero A (R263). -/
def execRem (w : RR) (s : State) : Host.Outcome State Fault Refusal :=
  .next (scalar2 (.rem w) w s fun a b => if b = 0 then a else ofInt 64 (a.toInt.tmod b.toInt))

/-- REMU (R263). -/
def execRemu (w : RR) (s : State) : Host.Outcome State Fault Refusal :=
  .next (scalar2 (.remu w) w s fun a b => if b = 0 then a else BitVec.ofNat 64 (a.toNat % b.toNat))

/-- AND. -/
def execAnd (w : RR) (s : State) : Host.Outcome State Fault Refusal :=
  .next (scalar2 (.and w) w s fun a b => a &&& b)

/-- OR. -/
def execOr (w : RR) (s : State) : Host.Outcome State Fault Refusal :=
  .next (scalar2 (.or w) w s fun a b => a ||| b)

/-- XOR. -/
def execXor (w : RR) (s : State) : Host.Outcome State Fault Refusal :=
  .next (scalar2 (.xor w) w s fun a b => a ^^^ b)

/-- ANDN. -/
def execAndn (w : RR) (s : State) : Host.Outcome State Fault Refusal :=
  .next (scalar2 (.andn w) w s fun a b => a &&& ~~~b)

/-- ORN. -/
def execOrn (w : RR) (s : State) : Host.Outcome State Fault Refusal :=
  .next (scalar2 (.orn w) w s fun a b => a ||| ~~~b)

/-- SHL by B[5:0]. -/
def execShl (w : RR) (s : State) : Host.Outcome State Fault Refusal :=
  .next (scalar2 (.shl w) w s fun a b => a <<< bits b 5 0)

/-- SHR. -/
def execShr (w : RR) (s : State) : Host.Outcome State Fault Refusal :=
  .next (scalar2 (.shr w) w s fun a b => a >>> bits b 5 0)

/-- SRA. -/
def execSra (w : RR) (s : State) : Host.Outcome State Fault Refusal :=
  .next (scalar2 (.sra w) w s fun a b => a.sshiftRight (bits b 5 0))

/-- ROR. -/
def execRor (w : RR) (s : State) : Host.Outcome State Fault Refusal :=
  .next (scalar2 (.ror w) w s fun a b => a.rotateRight (bits b 5 0))

/-- MIN. -/
def execMin (w : RR) (s : State) : Host.Outcome State Fault Refusal :=
  .next (scalar2 (.min w) w s fun a b => if a.toInt ≤ b.toInt then a else b)

/-- MAX. -/
def execMax (w : RR) (s : State) : Host.Outcome State Fault Refusal :=
  .next (scalar2 (.max w) w s fun a b => if a.toInt ≤ b.toInt then b else a)

/-- MINU. -/
def execMinu (w : RR) (s : State) : Host.Outcome State Fault Refusal :=
  .next (scalar2 (.minu w) w s fun a b => if a.toNat ≤ b.toNat then a else b)

/-- MAXU. -/
def execMaxu (w : RR) (s : State) : Host.Outcome State Fault Refusal :=
  .next (scalar2 (.maxu w) w s fun a b => if a.toNat ≤ b.toNat then b else a)

/-- Leading zeros of `n` bits; all of them for 0. -/
def leadZeros (n v : Nat) : Nat := if v = 0 then n else n - 1 - v.log2

/-- Trailing zeros; `n` for 0. -/
def trailZeros : Nat → Nat → Nat
  | 0, _ => 0
  | n + 1, v => if v % 2 = 1 then 0 else 1 + trailZeros n (v / 2)

/-- One bits among the low `n`. -/
def popCount : Nat → Nat → Nat
  | 0, _ => 0
  | n + 1, v => v % 2 + popCount n (v / 2)

/-- CLZ (R264). -/
def execClz (w : RR) (s : State) : Host.Outcome State Fault Refusal :=
  .next (scalar1 (.clz w) w s fun a => BitVec.ofNat 64 (leadZeros 64 a.toNat))

/-- CTZ (R264). -/
def execCtz (w : RR) (s : State) : Host.Outcome State Fault Refusal :=
  .next (scalar1 (.ctz w) w s fun a => BitVec.ofNat 64 (trailZeros 64 a.toNat))

/-- POPC (R264). -/
def execPopc (w : RR) (s : State) : Host.Outcome State Fault Refusal :=
  .next (scalar1 (.popc w) w s fun a => BitVec.ofNat 64 (popCount 64 a.toNat))

/-- The field of `len` bits at `pos`, sign- or zero-extended, of an `n`-bit value (R264, R288). -/
def fieldOf (n : Nat) (sgn : Bool) (v pos len : Nat) : Nat :=
  let f := v / 2 ^ pos % 2 ^ len
  if sgn then (if len = 0 then 0 else (ofInt n (signedOf len f)).toNat) else f

/-- `v` with its field of `len` bits at `pos` replaced by the low bits of `x`. -/
def insertField (v pos len x : Nat) : Nat :=
  v - (v / 2 ^ pos % 2 ^ len) * 2 ^ pos + (x % 2 ^ len) * 2 ^ pos

/-- BFX (R264). -/
def execBfx (w : RR) (s : State) : Host.Outcome State Fault Refusal :=
  .next (issue (.bfx w) s fun s =>
    let pos := bits (s.cur.srcS w.b) 5 0
    let len := min (bits (s.cur.srcS w.c) 6 0) (64 - pos)
    s.doneS w.ctl w.d (BitVec.ofNat 64 (fieldOf 64 true (s.cur.srcS w.a).toNat pos len)))

/-- BFXU (R264). -/
def execBfxu (w : RR) (s : State) : Host.Outcome State Fault Refusal :=
  .next (issue (.bfxu w) s fun s =>
    let pos := bits (s.cur.srcS w.b) 5 0
    let len := min (bits (s.cur.srcS w.c) 6 0) (64 - pos)
    s.doneS w.ctl w.d (BitVec.ofNat 64 (fieldOf 64 false (s.cur.srcS w.a).toNat pos len)))

/-- BFI: its E is a scalar source (R264). -/
def execBfi (w : RR) (s : State) : Host.Outcome State Fault Refusal :=
  .next (issue (.bfi w) s fun s =>
    let pos := bits (s.cur.srcS w.c) 5 0
    let len := min (bits (s.cur.srcS (Opd.ofByte w.e)) 6 0) (64 - pos)
    s.doneS w.ctl w.d (BitVec.ofNat 64 (insertField (s.cur.srcS w.a).toNat pos len (s.cur.srcS w.b).toNat)))

/-- SEL (R265). -/
def execSel (w : RR) (s : State) : Host.Outcome State Fault Refusal :=
  .next (issue (.sel w) s fun s =>
    s.doneS w.ctl w.d (if s.cur.srcC w.c then s.cur.srcS w.a else s.cur.srcS w.b))

/-- A predicate written, its value in the latch (R265). -/
def State.doneC (s : State) (c : Ctl) (d : Opd) (b : Bool) : State :=
  let g :=
    match d with
    | .reg n => s.cur.setPred n.toNat b
    | _ => s.cur
  (s.setCur g).retire c 1 (.s (BitVec.ofNat 64 (b2n b)))

/-- CMP (R265). -/
def execCmp (w : RR) (s : State) : Host.Outcome State Fault Refusal :=
  .next (issue (.cmp w) s fun s =>
    s.doneC w.ctl w.d (relHolds (bits w.e 2 0) (cmpInt (bits w.e 4 3) (s.cur.srcS w.a) (s.cur.srcS w.b))))

end Sys2Proof.Machine
end

