-- ==== Sys2Proof/Machine/VectorInt.lean ====
section
/-! DEFINITION. Vector integer instructions, group 0x3 (15_isa_vector.md, R285 to R292). -/

namespace Sys2Proof.Machine

/-- A result per lane. -/
def lanes (f : Fin 96 → Half) : Lanes := Vector.ofFn f

/-- A vector instruction of two integer sources, lane by lane (R285, R287). -/
def vector2 (i : Instr) (w : RR) (s : State) (r : TagRule) (f : Half → Half → Half) : State :=
  issue i s fun s =>
    let a := s.cur.srcV w.a
    let b := s.cur.srcV w.b
    (s.doneV w.ctl w.d (lanes fun i => f a[i] b[i])).track s.cur r w .absent a b

/-- A vector instruction of one integer source. -/
def vector1 (i : Instr) (w : RR) (s : State) (r : TagRule) (f : Half → Half) : State :=
  issue i s fun s =>
    let a := s.cur.srcV w.a
    (s.doneV w.ctl w.d (lanes fun i => f a[i])).track s.cur r w .absent a noLanes

/-- A form that admits `.sat`: `z` is the exact s value, clamped with OF when E[2] is set, else taken modulo 2^32. -/
def vectorSat (i : Instr) (w : RR) (s : State) (r : TagRule) (f : Int → Int → Int → Int) : State :=
  issue i s fun s =>
    let a := s.cur.srcV w.a
    let b := s.cur.srcV w.b
    let c := s.cur.srcV w.c
    let z (i : Fin 96) : Int := f a[i].toInt b[i].toInt (c)[i].toInt
    if bit w.e 2 then
      (s.doneV w.ctl w.d (lanes fun i => (clampRes 32 (z i)).1) (laneFlags s.cur.em fun i => (clampRes 32 (z i)).2)).track
        s.cur (.other 1 false false) w .absent a b
    else (s.doneV w.ctl w.d (lanes fun i => ofInt 32 (z i))).track s.cur r w .absent a b

/-- VADD (R287). -/
def execVadd (w : RR) (s : State) : Host.Outcome State Fault Refusal :=
  .next (vectorSat (.vadd w) w s .add fun a b _ => a + b)

/-- VSUB. -/
def execVsub (w : RR) (s : State) : Host.Outcome State Fault Refusal :=
  .next (vectorSat (.vsub w) w s .sub fun a b _ => a - b)

/-- VMUL. -/
def execVmul (w : RR) (s : State) : Host.Outcome State Fault Refusal :=
  .next (vectorSat (.vmul w) w s (.other 1 false false) fun a b _ => a * b)

/-- VMULH. -/
def execVmulh (w : RR) (s : State) : Host.Outcome State Fault Refusal :=
  .next (vector2 (.vmulh w) w s (.other 1 false false) fun a b => ofInt 32 ((a.toInt * b.toInt) / 2 ^ 32))

/-- VMAD. -/
def execVmad (w : RR) (s : State) : Host.Outcome State Fault Refusal :=
  .next (vectorSat (.vmad w) w s (.other 1 false false) fun a b c => a * b + c)

/-- VAND. -/
def execVand (w : RR) (s : State) : Host.Outcome State Fault Refusal :=
  .next (vector2 (.vand w) w s (.other 1 false false) fun a b => a &&& b)

/-- VOR. -/
def execVor (w : RR) (s : State) : Host.Outcome State Fault Refusal :=
  .next (vector2 (.vor w) w s (.other 1 false false) fun a b => a ||| b)

/-- VXOR. -/
def execVxor (w : RR) (s : State) : Host.Outcome State Fault Refusal :=
  .next (vector2 (.vxor w) w s (.other 1 false false) fun a b => a ^^^ b)

/-- VANDN. -/
def execVandn (w : RR) (s : State) : Host.Outcome State Fault Refusal :=
  .next (vector2 (.vandn w) w s (.other 1 false false) fun a b => a &&& ~~~b)

/-- VSHL. -/
def execVshl (w : RR) (s : State) : Host.Outcome State Fault Refusal :=
  .next (vector2 (.vshl w) w s (.other 1 false false) fun a b => a <<< bits b 4 0)

/-- VSHR. -/
def execVshr (w : RR) (s : State) : Host.Outcome State Fault Refusal :=
  .next (vector2 (.vshr w) w s (.other 1 false false) fun a b => a >>> bits b 4 0)

/-- VSRA. -/
def execVsra (w : RR) (s : State) : Host.Outcome State Fault Refusal :=
  .next (vector2 (.vsra w) w s (.other 1 false false) fun a b => a.sshiftRight (bits b 4 0))

/-- VMIN. -/
def execVmin (w : RR) (s : State) : Host.Outcome State Fault Refusal :=
  .next (vector2 (.vmin w) w s (.other 1 false false) fun a b => if a.toInt ≤ b.toInt then a else b)

/-- VMAX. -/
def execVmax (w : RR) (s : State) : Host.Outcome State Fault Refusal :=
  .next (vector2 (.vmax w) w s (.other 1 false false) fun a b => if a.toInt ≤ b.toInt then b else a)

/-- VMINU. -/
def execVminu (w : RR) (s : State) : Host.Outcome State Fault Refusal :=
  .next (vector2 (.vminu w) w s (.other 1 false false) fun a b => if a.toNat ≤ b.toNat then a else b)

/-- VMAXU. -/
def execVmaxu (w : RR) (s : State) : Host.Outcome State Fault Refusal :=
  .next (vector2 (.vmaxu w) w s (.other 1 false false) fun a b => if a.toNat ≤ b.toNat then b else a)

/-- VABS: |−2^31| wraps, or clamps under SAT. -/
def execVabs (w : RR) (s : State) : Host.Outcome State Fault Refusal :=
  .next (vectorSat (.vabs w) w s (.other 1 false false) fun a _ _ => if a < 0 then -a else a)

/-- VCLZ. -/
def execVclz (w : RR) (s : State) : Host.Outcome State Fault Refusal :=
  .next (vector1 (.vclz w) w s (.other 1 false false) fun a => BitVec.ofNat 32 (leadZeros 32 a.toNat))

/-- VPOPC. -/
def execVpopc (w : RR) (s : State) : Host.Outcome State Fault Refusal :=
  .next (vector1 (.vpopc w) w s (.other 1 false false) fun a => BitVec.ofNat 32 (popCount 32 a.toNat))

/-- VBFX (R288). -/
def execVbfx (w : RR) (s : State) : Host.Outcome State Fault Refusal :=
  .next (issue (.vbfx w) s fun s =>
    let a := s.cur.srcV w.a
    let b := s.cur.srcV w.b
    let c := s.cur.srcV w.c
    (s.doneV w.ctl w.d (lanes fun i =>
      let pos := bits b[i] 4 0
      BitVec.ofNat 32 (fieldOf 32 (!bit w.e 0) a[i].toNat pos (min (bits (c)[i] 5 0) (32 - pos))))).track
        s.cur (.other 1 false false) w .absent a b)

/-- VBFI: its E is a vector source (R288). -/
def execVbfi (w : RR) (s : State) : Host.Outcome State Fault Refusal :=
  .next (issue (.vbfi w) s fun s =>
    let a := s.cur.srcV w.a
    let b := s.cur.srcV w.b
    let c := s.cur.srcV w.c
    let e := s.cur.srcV (Opd.ofByte w.e)
    (s.doneV w.ctl w.d (lanes fun i =>
      let pos := bits (c)[i] 4 0
      BitVec.ofNat 32 (insertField a[i].toNat pos (min (bits e[i] 5 0) (32 - pos)) b[i].toNat))).track
        s.cur (.other 1 false false) w (Opd.ofByte w.e) a b)

/-- VSEL (R289). -/
def execVsel (w : RR) (s : State) : Host.Outcome State Fault Refusal :=
  .next (issue (.vsel w) s fun s =>
    let a := s.cur.srcV w.a
    let b := s.cur.srcV w.b
    (s.doneV w.ctl w.d (lanes fun i => if bit s.cur.k i then a[i] else b[i])).track s.cur .sel w .absent a b)

/-- VCMP (R290). -/
def execVcmp (w : RR) (s : State) : Host.Outcome State Fault Refusal :=
  .next (issue (.vcmp w) s fun s =>
    let a := s.cur.srcV w.a
    let b := s.cur.srcV w.b
    let m := maskOf fun i => relHolds (bits w.e 2 0) (cmpInt (bits w.e 4 3) a[i] b[i])
    (s.doneK w.ctl m).track s.cur (.cmp (BitVec.ofNat 2 (bits w.e 4 3)) (bits w.e 2 0)) w .absent a b)

/-- VMOV moves raw bits (R289). -/
def execVmov (w : RR) (s : State) : Host.Outcome State Fault Refusal :=
  .next (vector1 (.vmov w) w s .move fun a => a)

/-- A source lane read across lanes (R309): 0 where there is no such lane or it is not live. -/
def Group.crossRead (g : Group) (x : Lanes) (j : Nat) : Half :=
  if h : j < 96 then (if bit g.live j then x[j] else 0) else 0

/-- VMOVS (R291): one issue cycle whatever EM holds. -/
def execVmovs (w : RR) (s : State) : Host.Outcome State Fault Refusal :=
  .next (issue (.vmovs w) s fun s =>
    let j := (s.cur.srcS w.b).toNat
    (s.doneS w.ctl w.d (BitVec.ofNat 64 (s.cur.crossRead (s.cur.srcV w.a) j).toNat)).trackCross s.cur
      (fun i => i.val = j && bit s.cur.live j) .absent w.a .absent)

/-- VADDP (R292). -/
def execVaddp (w : RR) (s : State) : Host.Outcome State Fault Refusal :=
  .next (issue (.vaddp w) s fun s =>
    let a := s.cur.srcP w.a
    let b := s.cur.srcP w.b
    let z (i : Fin 96) : Int := a[i].toInt + b[i].toInt
    (if bit w.e 2 then
      s.doneP w.ctl w.d (Vector.ofFn fun i => (clampRes 64 (z i)).1) (laneFlags s.cur.em fun i => (clampRes 64 (z i)).2)
    else s.doneP w.ctl w.d (Vector.ofFn fun i => ofInt 64 (z i))).track s.cur (.other 2 true false) w .absent noLanes noLanes)

end Sys2Proof.Machine
end

