-- ==== Sys2Proof/Machine/VectorFloat.lean ====
section
/-! DEFINITION. Floating-point instructions, group 0x4, and the transcendental forms of group 0x5 (15_isa_vector.md, R293 to R300). -/

namespace Sys2Proof.Machine

/-- AA, NA, AB and NB (R253): a pattern of the format with its sign changed. -/
def FFmt.modify (f : FFmt) (abs neg : Bool) (v : Nat) : Nat :=
  let u := if abs then f.absolute v else v
  if neg then f.negate u else u

def modA (f : FFmt) (e : BitVec 8) (v : Nat) : Nat := f.modify (bit e 4) (bit e 3) v
def modB (f : FFmt) (e : BitVec 8) (v : Nat) : Nat := f.modify (bit e 6) (bit e 5) v
def rmOf (e : BitVec 8) : RMode := RMode.ofCode (bits e 1 0)

/-- An FP32 instruction of three operands, lane by lane, with flags (R285, R293). -/
def float3 (i : Instr) (w : RR) (s : State) (f : Nat → Nat → Nat → FRes) : State :=
  issue i s fun s =>
    let a := s.cur.srcF w.a
    let b := s.cur.srcF w.b
    let c := s.cur.srcF w.c
    let r (i : Fin 96) : FRes := f (modA fp32 w.e a[i].toNat) (modB fp32 w.e b[i].toNat) (c)[i].toNat
    (s.doneV w.ctl w.d (lanes fun i => BitVec.ofNat 32 (r i).val) (laneFlags s.cur.em fun i => (r i).flags)).track
      s.cur (.other 1 false false) w .absent noLanes noLanes

/-- The two halves of a half-pair form (R297). -/
def half3 (i : Instr) (w : RR) (s : State) (f : Nat → Nat → Nat → FRes) : State :=
  issue i s fun s =>
    let a := s.cur.srcH w.a
    let b := s.cur.srcH w.b
    let c := s.cur.srcH w.c
    let r (i : Fin 96) (lo : Nat) : FRes :=
      f (modA fp16 w.e (bits a[i] (lo + 15) lo)) (modB fp16 w.e (bits b[i] (lo + 15) lo)) (bits (c)[i] (lo + 15) lo)
    (s.doneV w.ctl w.d (lanes fun i => BitVec.ofNat 32 ((r i 0).val + 2 ^ 16 * (r i 16).val))
      (laneFlags s.cur.em fun i => (r i 0).flags ||| (r i 16).flags)).track s.cur (.other 1 false false) w .absent noLanes noLanes

/-- A D form on even pairs (R298). -/
def double3 (i : Instr) (w : RR) (s : State) (f : Nat → Nat → Nat → FRes) : State :=
  issue i s fun s =>
    let a := s.cur.srcD w.a
    let b := s.cur.srcD w.b
    let c := s.cur.srcD w.c
    let r (i : Fin 96) : FRes := f (modA fp64 w.e a[i].toNat) (modB fp64 w.e b[i].toNat) (c)[i].toNat
    (s.doneP w.ctl w.d (Vector.ofFn fun i => BitVec.ofNat 64 (r i).val) (laneFlags s.cur.em fun i => (r i).flags)).track
      s.cur (.other 2 true false) w .absent noLanes noLanes

/-- FADD. -/
def execFadd (w : RR) (s : State) : Host.Outcome State Fault Refusal :=
  .next (float3 (.fadd w) w s fun a b _ => fp32.addOp (rmOf w.e) (bit w.e 2) a b)

/-- HADD2. -/
def execHadd2 (w : RR) (s : State) : Host.Outcome State Fault Refusal :=
  .next (half3 (.hadd2 w) w s fun a b _ => fp16.addOp (rmOf w.e) (bit w.e 2) a b)

/-- DADD. -/
def execDadd (w : RR) (s : State) : Host.Outcome State Fault Refusal :=
  .next (double3 (.dadd w) w s fun a b _ => fp64.addOp (rmOf w.e) (bit w.e 2) a b)

/-- FSUB. -/
def execFsub (w : RR) (s : State) : Host.Outcome State Fault Refusal :=
  .next (float3 (.fsub w) w s fun a b _ => fp32.subOp (rmOf w.e) (bit w.e 2) a b)

/-- FMUL. -/
def execFmul (w : RR) (s : State) : Host.Outcome State Fault Refusal :=
  .next (float3 (.fmul w) w s fun a b _ => fp32.mulOp (rmOf w.e) (bit w.e 2) a b)

/-- HMUL2. -/
def execHmul2 (w : RR) (s : State) : Host.Outcome State Fault Refusal :=
  .next (half3 (.hmul2 w) w s fun a b _ => fp16.mulOp (rmOf w.e) (bit w.e 2) a b)

/-- DMUL. -/
def execDmul (w : RR) (s : State) : Host.Outcome State Fault Refusal :=
  .next (double3 (.dmul w) w s fun a b _ => fp64.mulOp (rmOf w.e) (bit w.e 2) a b)

/-- FFMA. -/
def execFfma (w : RR) (s : State) : Host.Outcome State Fault Refusal :=
  .next (float3 (.ffma w) w s fun a b c => fp32.fmaOp (rmOf w.e) (bit w.e 2) a b c)

/-- HFMA2. -/
def execHfma2 (w : RR) (s : State) : Host.Outcome State Fault Refusal :=
  .next (half3 (.hfma2 w) w s fun a b c => fp16.fmaOp (rmOf w.e) (bit w.e 2) a b c)

/-- DFMA. -/
def execDfma (w : RR) (s : State) : Host.Outcome State Fault Refusal :=
  .next (double3 (.dfma w) w s fun a b c => fp64.fmaOp (rmOf w.e) (bit w.e 2) a b c)

/-- FMIN (R294). -/
def execFmin (w : RR) (s : State) : Host.Outcome State Fault Refusal :=
  .next (float3 (.fmin w) w s fun a b _ => ⟨fp32.minMax false a b, false, false⟩)

/-- FMAX (R294). -/
def execFmax (w : RR) (s : State) : Host.Outcome State Fault Refusal :=
  .next (float3 (.fmax w) w s fun a b _ => ⟨fp32.minMax true a b, false, false⟩)

/-- FCMP (R295). -/
def execFcmp (w : RR) (s : State) : Host.Outcome State Fault Refusal :=
  .next (issue (.fcmp w) s fun s =>
    let a := s.cur.srcF w.a
    let b := s.cur.srcF w.b
    let m := maskOf fun i => relFloat (bits w.e 2 0) (fp32.decode a[i].toNat) (fp32.decode b[i].toNat)
    (s.doneK w.ctl m).track s.cur (.cmp 2 (bits w.e 2 0)) w .absent a b)

/-- FCLASS (R296). -/
def execFclass (w : RR) (s : State) : Host.Outcome State Fault Refusal :=
  .next (issue (.fclass w) s fun s =>
    let a := s.cur.srcF w.a
    (s.doneV w.ctl w.d (lanes fun i => BitVec.ofNat 32 (fp32.classMask a[i].toNat))).track
      s.cur (.other 1 false false) w .absent noLanes noLanes)

/-! ### Transcendental forms (R299) -/

/-- FRCP. -/
def execFrcp (w : RR) (s : State) : Host.Outcome State Fault Refusal :=
  .next (float3 (.frcp w) w s fun a _ _ => fp32.divOp (rmOf w.e) (bit w.e 2) (fp32.round .rne false 1 0).val a)

/-- FRSQ. -/
def execFrsq (w : RR) (s : State) : Host.Outcome State Fault Refusal :=
  .next (float3 (.frsq w) w s fun a _ _ => fp32.rsqrtOp (bit w.e 2) a)

/-- FSQRT. -/
def execFsqrt (w : RR) (s : State) : Host.Outcome State Fault Refusal :=
  .next (float3 (.fsqrt w) w s fun a _ _ => fp32.sqrtOp (rmOf w.e) (bit w.e 2) a)

/-- FDIV. -/
def execFdiv (w : RR) (s : State) : Host.Outcome State Fault Refusal :=
  .next (float3 (.fdiv w) w s fun a b _ => fp32.divOp (rmOf w.e) (bit w.e 2) a b)

/-- FEXP2. -/
def execFexp2 (w : RR) (s : State) : Host.Outcome State Fault Refusal :=
  .next (float3 (.fexp2 w) w s fun a _ _ => exp2Op (bit w.e 2) a)

/-- FLOG2. -/
def execFlog2 (w : RR) (s : State) : Host.Outcome State Fault Refusal :=
  .next (float3 (.flog2 w) w s fun a _ _ => log2Op (bit w.e 2) a)

/-- FSIN. -/
def execFsin (w : RR) (s : State) : Host.Outcome State Fault Refusal :=
  .next (float3 (.fsin w) w s fun a _ _ => trigOp false a)

/-- FCOS. -/
def execFcos (w : RR) (s : State) : Host.Outcome State Fault Refusal :=
  .next (float3 (.fcos w) w s fun a _ _ => trigOp true a)

/-- FTANH. -/
def execFtanh (w : RR) (s : State) : Host.Outcome State Fault Refusal :=
  .next (float3 (.ftanh w) w s fun a _ _ => tanhOp a)

end Sys2Proof.Machine
end

