-- ==== Sys2Proof/Machine/Convert.lean ====
section
/-! DEFINITION. Format slots (12_number_formats.md, R236 to R238), conversions and level-index arithmetic of group 0x5
(15_isa_vector.md, R301 to R308). -/

namespace Sys2Proof.Machine

/-! ### Format slots -/

/-- A format slot record (R236). -/
structure Slot where
  efmt : Nat
  blklog : Nat
  scf : Nat
  cbid : Nat
  rm : Nat
  sat : Bool
  sub4 : Bool
  rsvd : Nat
  sbp : Word
  deriving DecidableEq, Repr

def Slot.ofWords (w : Word × Word) : Slot :=
  ⟨bits w.1 63 56, bits w.1 55 52, bits w.1 51 48, bits w.1 47 44, bits w.1 43 41, bit w.1 40, bit w.1 39, bits w.1 38 0, w.2⟩

/-- R237. -/
def Slot.malformed (f : Slot) : Bool :=
  f.efmt = 0 || 0xA < f.efmt || 4 ≤ f.rm || f.rsvd ≠ 0 ||
  (if f.efmt = 7 then f.blklog ≠ 6 || f.scf ≠ 1 || f.cbid ≠ 1 || !canonical f.sbp || f.sbp.toNat % 4 ≠ 0
   else f.blklog ≠ 0 || f.scf ≠ 0 || f.cbid ≠ 0 || f.sbp ≠ 0)

def State.slotOf (s : State) (launch n : Nat) : Slot := Slot.ofWords ((s.launch launch).fslot n)

/-- The binary format of an EFMT code. -/
def floatFmt (efmt : Nat) : Option FFmt :=
  match efmt with
  | 1 => some fp64
  | 2 => some fp32
  | 3 => some fp16
  | 4 => some bf16
  | _ => none

def isFloat (efmt : Nat) : Bool := 1 ≤ efmt && efmt ≤ 4
def isLi (efmt : Nat) : Bool := efmt = 8 || efmt = 9
def is16 (efmt : Nat) : Bool := efmt = 3 || efmt = 4 || efmt = 8
def Slot.rmode (f : Slot) : RMode := RMode.ofCode f.rm

/-! ### Source and destination of a conversion (R301) -/

/-- The operand of a conversion in the slot's format, one number per lane. -/
def Group.srcSlot (g : Group) (efmt : Nat) (high : Bool) (o : Opd) (i : Fin 96) : Nat :=
  match o with
  | .fpc k =>
    match floatFmt efmt with
    | some f => fpConstIn f k
    | none => if efmt = 8 then li32To16 (liConstIn 11 k) else liConstIn 27 k
  | .pos _ | .neg _ =>
    let z := inlineInt o
    match floatFmt efmt with
    | some f => (f.ofIntVal .rne false z).val
    | none =>
      if efmt = 8 then li32To16 (liOfFloat 11 (.fin (decide (z < 0)) z.natAbs 0))
      else if efmt = 9 then liOfFloat 27 (.fin (decide (z < 0)) z.natAbs 0)
      else (ofInt 32 z).toNat
  | o =>
    if efmt = 1 then (g.srcP o)[i].toNat
    else
      let v := (g.srcV o)[i].toNat
      if is16 efmt then (if high then v / 2 ^ 16 else v % 2 ^ 16) else v

/-- The code names a format. A slot whose code names none asks nothing of its operand before the guards: it is malformed, which is found after them
(R237, R258). -/
def isFormat (efmt : Nat) : Bool := 1 ≤ efmt && efmt ≤ 0xA

/-- An operand that a slot of this format cannot take: an odd register for FP64, an FP constant for an integer, a half of what has none. -/
def badSource (efmt : Nat) (x6 : Bool) (o : Opd) : Bool :=
  isFormat efmt &&
  match o with
  | .fpc _ => !isFloat efmt && !isLi efmt
  | .pos _ | .neg _ => false
  | .reg n => (efmt = 1 && n.toNat % 2 = 1) || (x6 && !is16 efmt)
  | _ => x6 && !is16 efmt

def badDest (efmt : Nat) (x7 : Bool) (o : Opd) : Bool :=
  isFormat efmt && ((x7 && !is16 efmt) ||
  (match o with
   | .reg n => efmt = 1 && n.toNat % 2 = 1
   | _ => false))

/-- A load is still to write the second register of a pair that a slot makes of an operand (R167). -/
def pairPending (g : Group) (efmt : Nat) (o : Opd) : Bool :=
  match o with
  | .reg n => efmt = 1 && g.inflight.any fun a => !a.retired && a.dst.hits .v n.toNat 2
  | _ => false

/-- The results of a conversion delivered in the destination format (R301): a pair, a half that keeps the other, or a register. -/
def State.doneSlot (s : State) (w : RR) (efmt srcFmt : Nat) (v : Fin 96 → Nat) (f : BitVec 5) : State :=
  let g := s.cur
  let pairA := srcFmt = 1
  if efmt = 1 then
    (s.doneP w.ctl w.d (Vector.ofFn fun i => BitVec.ofNat 64 (v i)) f).track g (.other 2 pairA false) w .absent noLanes noLanes
  else if is16 efmt then
    let old := g.srcV w.d
    let x : Lanes := lanes fun i =>
      if bit w.e 7 then setBits old[i] 31 16 (v i) else setBits old[i] 15 0 (v i)
    (s.doneV w.ctl w.d x f).track g (.other 1 pairA true) w .absent noLanes noLanes
  else (s.doneV w.ctl w.d (lanes fun i => BitVec.ofNat 32 (v i)) f).track g (.other 1 pairA false) w .absent noLanes noLanes

/-- A conversion (R301): the checks on its operands and slots, then `conv` on each lane's source. -/
def convert1 (i : Instr) (w : RR) (s : State) (accept : Slot → Slot → Bool)
    (conv : Slot → Slot → Nat → Nat × BitVec 5) : State :=
  let d := s.slotOf s.cur.launch (bits w.e 2 0)
  let a := s.slotOf s.cur.launch (bits w.e 5 3)
  let taken := !(d.malformed || a.malformed || !accept d a)
  issueChecked i s (badSource a.efmt (bit w.e 6) w.a || badDest d.efmt (bit w.e 7) w.d) fun s =>
    let g := s.cur
    if !taken then s.illegalOperand
    else if pairPending g a.efmt w.a || pairPending g d.efmt w.d then s.hold
    else
      let r (i : Fin 96) : Nat × BitVec 5 := conv d a (g.srcSlot a.efmt (bit w.e 6) w.a i)
      s.doneSlot w d.efmt a.efmt (fun i => (r i).1) (laneFlags g.em fun i => (r i).2)

/-- A rounded result with its flags. -/
def FRes.both (r : FRes) : Nat × BitVec 5 := (r.val, r.flags)

/-- CVT between binary formats (R302). -/
def cvtValue (d a : Slot) (v : Nat) : Nat × BitVec 5 :=
  match floatFmt a.efmt, floatFmt d.efmt with
  | some f, some g => (f.convert g d.rmode d.sat v).both
  | _, _ => (0, 0)

/-- CVT (R302). -/
def execCvt (w : RR) (s : State) : Host.Outcome State Fault Refusal :=
  .next (convert1 (.cvt w) w s (fun d a => isFloat d.efmt && isFloat a.efmt) cvtValue)

/-- A floating value to INT32 (R303). -/
def toInt32 (d : Slot) (x : FVal) : Nat × BitVec 5 :=
  match x with
  | .nan => (0, 0)
  | .inf n => if n then (2 ^ 31, gsfOF) else (2 ^ 31 - 1, gsfOF)
  | x =>
    let z := x.toIntRounded d.rmode
    if d.sat then let r := clampRes 32 z; (r.1.toNat, r.2) else ((ofInt 32 z).toNat, 0)

/-- CVTI (R303). -/
def cvtiValue (d a : Slot) (v : Nat) : Nat × BitVec 5 :=
  match floatFmt a.efmt, floatFmt d.efmt with
  | some f, _ => toInt32 d (f.decode v)
  | none, some g => (g.ofIntVal d.rmode d.sat (signedOf 32 v)).both
  | none, none => (0, 0)

/-- CVTI (R303). -/
def execCvti (w : RR) (s : State) : Host.Outcome State Fault Refusal :=
  .next (convert1 (.cvti w) w s
    (fun d a => (d.efmt = 0xA && isFloat a.efmt) || (isFloat d.efmt && a.efmt = 0xA)) cvtiValue)

/-! ### Quantised elements (R224, R228, R229) -/

/-- q[c] = 128·Q[c] (R229). -/
def qn4 (c : Nat) : Int :=
  [-128, -92, -68, -52, -36, -24, -12, 0, 10, 20, 32, 44, 56, 72, 92, 128].getD c 0

/-- An INT4S code with the substitute of SUB4, and NQ (R228). -/
def int4s (sub4 : Bool) (c : Nat) : Int × BitVec 5 :=
  if c = 8 then (if sub4 then -7 else 0, gsfNQ) else (signedOf 4 c, 0)

/-- QDEC of an element (R304). -/
def qdecValue (d a : Slot) (x b : Nat) : Nat × BitVec 5 :=
  let code := x / 2 ^ (4 * (b % 8)) % 16
  match floatFmt d.efmt with
  | none => (0, 0)
  | some f =>
    if a.efmt = 5 then (f.ofIntVal d.rmode d.sat (signedOf 8 (x / 2 ^ (8 * (b % 4))))).both
    else if a.efmt = 6 then
      let (z, nq) := int4s a.sub4 code
      let r := f.ofIntVal d.rmode d.sat z
      (r.val, r.flags ||| nq)
    else
      let z := qn4 code * ((b / 256 % 256 : Nat) + 1 : Int)
      ((f.round d.rmode (decide (z < 0)) z.natAbs (-15)).saturate f d.sat true).both

/-- QDEC (R304). -/
def execQdec (w : RR) (s : State) : Host.Outcome State Fault Refusal :=
  let d := s.slotOf s.cur.launch (bits w.e 2 0)
  let a := s.slotOf s.cur.launch (bits w.e 5 3)
  let taken := !(d.malformed || a.malformed || !(5 ≤ a.efmt && a.efmt ≤ 7 && 2 ≤ d.efmt && d.efmt ≤ 4))
  .next (issueChecked (.qdec w) s (badDest d.efmt (bit w.e 7) w.d) fun s =>
    let g := s.cur
    if !taken then s.illegalOperand
    else
      let x := g.srcV w.a
      let b := g.srcV w.b
      let r (i : Fin 96) : Nat × BitVec 5 := qdecValue d a x[i].toNat b[i].toNat
      s.doneSlot w d.efmt a.efmt (fun i => (r i).1) (laneFlags g.em fun i => (r i).2))

/-- An integer clamped to `lo..hi`, with OF. -/
def clampCode (lo hi z : Int) : Int × BitVec 5 := (clampInt lo hi z, if z < lo ∨ hi < z then gsfOF else 0)

/-- The QN4 code nearest to a finite value; a tie goes to the smaller |Q| (R305). -/
def nearestQn4 (n : Bool) (m : Nat) (e : Int) : Nat :=
  let e0 := min e (-7)
  let a := alignInt n m e e0
  let dist (c : Nat) : Nat := (a - alignInt (decide (qn4 c < 0)) (qn4 c).natAbs (-7) e0).natAbs
  (List.range 16).foldl (fun best c =>
    if dist c < dist best || (dist c = dist best && (qn4 c).natAbs < (qn4 best).natAbs) then c else best) 7

/-- QENC of a value (R305). -/
def qencValue (d : Slot) (x : FVal) : Nat × BitVec 5 :=
  if d.efmt = 7 then
    match x with
    | .nan => (7, 0)
    | .inf n => (if n then 0 else 15, gsfOF)
    | .fin n m e =>
      if m = 0 then (7, 0)
      else if 2 ^ 160 < (alignInt false m e (-160)) then (if n then 0 else 15, gsfOF)
      else (nearestQn4 n m e, 0)
  else
    let lo : Int := if d.efmt = 5 then -128 else -7
    let hi : Int := if d.efmt = 5 then 127 else 7
    let width : Nat := if d.efmt = 5 then 8 else 4
    match x with
    | .nan => (0, 0)
    | .inf n => ((ofInt width (if n then lo else hi)).toNat, gsfOF)
    | x =>
      let z := x.toIntRounded d.rmode
      if d.sat || d.efmt = 6 then let r := clampCode lo hi z; ((ofInt width r.1).toNat, r.2)
      else ((ofInt width z).toNat, 0)

/-- QENC (R305). -/
def execQenc (w : RR) (s : State) : Host.Outcome State Fault Refusal :=
  .next (convert1 (.qenc w) w s (fun d a => 5 ≤ d.efmt && d.efmt ≤ 7 && 2 ≤ a.efmt && a.efmt ≤ 4)
    fun d a v =>
      match floatFmt a.efmt with
      | some f => qencValue d (f.decode v)
      | none => (0, 0))

/-! ### Level-index (R306 to R308) -/

/-- A level-index arithmetic form (R306). -/
def level2 (i : Instr) (w : RR) (s : State) (op : LOp) : State :=
  issue i s fun s =>
    let a := s.cur.srcL w.a
    let b := s.cur.srcL w.b
    let r (i : Fin 96) : LRes :=
      liArith op (liModify (bit w.e 4) (bit w.e 3) a[i].toNat) (liModify (bit w.e 6) (bit w.e 5) b[i].toNat)
    (s.doneV w.ctl w.d (lanes fun i => BitVec.ofNat 32 (r i).val)
      (laneFlags s.cur.em fun i => if (r i).lx then gsfLX else 0)).track s.cur (.other 1 false false) w .absent noLanes noLanes

/-- LIADD. -/
def execLiadd (w : RR) (s : State) : Host.Outcome State Fault Refusal :=
  .next (level2 (.liadd w) w s .add)

/-- LISUB. -/
def execLisub (w : RR) (s : State) : Host.Outcome State Fault Refusal :=
  .next (level2 (.lisub w) w s .sub)

/-- LIMUL. -/
def execLimul (w : RR) (s : State) : Host.Outcome State Fault Refusal :=
  .next (level2 (.limul w) w s .mul)

/-- LIDIV. -/
def execLidiv (w : RR) (s : State) : Host.Outcome State Fault Refusal :=
  .next (level2 (.lidiv w) w s .div)

/-- LICMP (R307). -/
def execLicmp (w : RR) (s : State) : Host.Outcome State Fault Refusal :=
  .next (issue (.licmp w) s fun s =>
    let a := s.cur.srcL w.a
    let b := s.cur.srcL w.b
    let m := maskOf fun i => relHolds (bits w.e 2 0) (liCmp a[i].toNat b[i].toNat)
    (s.doneK w.ctl m).track s.cur (.cmp 3 (bits w.e 2 0)) w .absent a b)

/-- LICVT of a value (R308). -/
def licvtValue (d a : Slot) (v : Nat) : Nat × BitVec 5 :=
  if isLi a.efmt then
    let x := if a.efmt = 8 then li16To32 v else v
    match floatFmt d.efmt with
    | some f => (liToFloat f d.rmode x).both
    | none => (if d.efmt = 8 then liTo16 x else liEncode (liDecode x), 0)
  else
    match floatFmt a.efmt with
    | some f => (if d.efmt = 8 then li32To16 (liOfFloat 11 (f.decode v)) else liOfFloat 27 (f.decode v), 0)
    | none => (0, 0)

/-- LICVT (R308). -/
def execLicvt (w : RR) (s : State) : Host.Outcome State Fault Refusal :=
  .next (convert1 (.licvt w) w s
    (fun d a => (isLi d.efmt && (isLi a.efmt || isFloat a.efmt)) || (isLi a.efmt && isFloat d.efmt)) licvtValue)

end Sys2Proof.Machine
end

