-- ==== Sys2Proof/Machine/Sync.lean ====
section
/-! DEFINITION. Release clocks and fences (11_memory_model.md, R215, R216), the synchronisation engine (R207, R208, R331 to R333), range
operations, locks and waits (16_isa_memory_sync.md, R334 to R339). -/

namespace Sys2Proof.Machine

/-! ### Release and acquire (R215) -/

/-- Key of a placed cluster's clock. -/
def clusterKey (launch cluster : Nat) : Nat := launch * 2 ^ 48 + cluster

def State.clusterOf (s : State) (g : Group) : Nat :=
  match s.sch.teams.find? fun t => t.key = g.team with
  | some t => clusterKey g.launch t.cluster
  | none => clusterKey g.launch 0

def State.raiseCore (s : State) (c : BitVec 10) (t : BitVec 48) : State :=
  let r := s.core c
  s.setCore c { r with clock := max48 r.clock t }

/-- The clock of a scope, and every narrower one, raised to the group's pts. SCOPE 0 grp, 1 team, 2 clu, 3 dev, 4 sys. -/
def State.raiseClocks (s : State) (g : Group) (scope : Nat) : State :=
  if scope = 0 then s
  else
    let s := s.raiseCore g.core g.pts
    let s :=
      if scope < 2 then s
      else
        let k := s.clusterOf g
        { s with sch := { s.sch with
          cluClocks := Tab.set 0 s.sch.cluClocks k (max48 (Tab.get 0 s.sch.cluClocks k) g.pts) } }
    if scope < 3 then s else { s with sch := { s.sch with partClock := max48 s.sch.partClock g.pts } }

/-- The clock of a scope and those of every narrower one, the latest of them: an acquire is one at the narrower scopes too (R212). -/
def State.clockOf (s : State) (g : Group) (scope : Nat) : BitVec 48 :=
  let core := (s.core g.core).clock
  let clu := max48 core (Tab.get 0 s.sch.cluClocks (s.clusterOf g))
  match scope with
  | 0 => g.pts
  | 1 => core
  | 2 => clu
  | _ => max48 clu s.sch.partClock

/-- The group at the port acquires at a scope. -/
def State.acquire (s : State) (scope : Nat) : State :=
  let g := s.cur
  s.raisePts g.core g.slot (max48 g.pts (s.clockOf g scope))

/-- What a release waits for: every earlier access performed, and at `.sys` acknowledged too; not the ACMT that is one itself. -/
def Group.released (g : Group) (scope : Nat) : Bool :=
  g.inflight.all fun a => a.op = .commit || (a.performed && (scope ≠ 4 || a.acks = 0))

/-- Loads or atomics of the group are not performed: an acquire waits for them (R213, cells (LD, FA) and (AT, FA)). -/
def Group.readsOpen (g : Group) : Bool := g.inflight.any fun a => a.open && a.reads

/-- A release of the group at the port, and what follows it: the write-combining buffer is sent, and the instruction is held, without
charge, until the waits are over. -/
def State.withRelease (s : State) (scope : Nat) (f : State → State) : State :=
  let s := s.sendWc s.cur.core s.cur.slot
  if s.cur.released scope then f (s.raiseClocks s.cur scope) else s.hold

/-- FENCE (R334). -/
def execFence (w : RR) (s : State) : Host.Outcome State Fault Refusal :=
  .next (issue (.fence w) s fun s =>
    let scope := bits w.e 5 3
    let acq (s : State) : State := if bit w.e 6 then s.acquire scope else s
    if bit w.e 6 && s.cur.readsOpen then (s.sendWc s.cur.core s.cur.slot).hold
    else
    if bit w.e 7 then s.withRelease scope fun s => (acq s).doneN w.ctl
    else (acq (s.sendWc s.cur.core s.cur.slot)).doneN w.ctl)

/-! ### Results without a memory target -/

/-- An access that is performed in the step it issues, whose lanes hold their results; its destination is written when it returns
(R180, R320). -/
def State.issueDone (s : State) (c : Ctl) (cost : Nat) (a : Access) : State :=
  let (s, id) := s.stamp
  let a := { a with id := id, performed := true, pc := s.cur.pc, cpos := s.cur.cpos }
  let s := s.setCur { s.cur with inflight := s.cur.inflight ++ [a] }
  let s := s.retire c cost (if a.dst = .none then .none else .pend id)
  s.settle s.cur.core s.cur.slot

/-- A scalar access with one result of 2^`log` bytes. -/
def doneAccess (path : BitVec 3) (op : AccOp) (log : BitVec 3) (dst : Dst) (res : Word) : Access :=
  ⟨0, path, op, 0, log, [⟨96, 0, 0, .wb, 0, 0, BitVec.ofNat 128 res.toNat, true, none, false⟩], dst, 0, 0, true, 0, false, false, false, 0⟩

def scalarReg : Opd → Dst
  | .reg n => .s n 1
  | _ => .none

/-- The wait of the group at the port was satisfied by another agent: what it carries. -/
def Group.satisfied (g : Group) : Option Access :=
  match g.wait with
  | some w => if w.kind = 14 then (match w.pend with
      | .fe _ a => some a
      | .synw _ _ _ _ _ a => some a
      | _ => none) else none
  | none => none

/-! ### The synchronisation engine (R207, R208) -/

def synKey (c : BitVec 12) (addr : Nat) : Nat := c.toNat * 2 ^ 32 + addr

/-- Where the overflow area holds a variable. -/
def State.synOver (s : State) (key : Nat) : Nat :=
  s.regBits (Reg.sync (key / 2 ^ 32)) 51 32 * 2 ^ 32 + key % 2 ^ 32

/-- The variable is COUNT or ARM of the join counter at an address (R131). -/
def ofCounter (c : BitVec 12) (addr key : Nat) : Bool := key = synKey c addr || key = synKey c (addr + 4)

/-- A group waits on the variable with SYNW, or a record waits on the join counter that it is the COUNT or the ARM of (R131). -/
def State.synAwaited (s : State) (key : Nat) : Bool :=
  s.groups.any (fun g => match g.wait with
    | some w => (match w.pend with
      | .synw a .. => synKey g.ctx a.toNat = key && w.kind = 3
      | _ => false)
    | none => false) ||
  s.sch.places.any (fun p => p.ready.isNone && ofCounter (s.launch p.launch).ctx p.jca.toNat key) ||
  s.sch.tasks.any (fun t => t.ready.isNone && ofCounter t.ctx t.jca.toNat key)

/-- The variable resident in the engine: read from the overflow area if need be, and one that nothing waits on evicted to it when the
3 MiB are full. -/
def State.synIn (s : State) (key : Nat) : State :=
  if key ∈ s.coh.resident then s
  else
    let s :=
      if s.coh.resident.length < 131072 then s
      else
        match s.coh.resident.reverse.find? fun k => !s.synAwaited k with
        | none => s
        | some k =>
          let v := Tab.get SynVar.fresh s.coh.sync k
          let s := s.writePa (s.synOver k) 4 v.val.toNat
          { s with coh := { s.coh with resident := s.coh.resident.erase k, sync := Tab.set SynVar.fresh s.coh.sync k SynVar.fresh } }
    let (s, v, _) := s.readPa (s.synOver key) 4
    let x : SynVar := ⟨BitVec.ofNat 32 v, s.coh.syncHi, s.coh.syncHi⟩
    { s with coh := { s.coh with resident := key :: s.coh.resident, sync := Tab.set SynVar.fresh s.coh.sync key x } }

def State.syn (s : State) (key : Nat) : SynVar := Tab.get SynVar.fresh s.coh.sync key

def State.setSyn (s : State) (key : Nat) (v : SynVar) : State :=
  { s with coh := { s.coh with
    sync := Tab.set SynVar.fresh s.coh.sync key v, syncHi := max48 s.coh.syncHi (max48 v.wts v.rts) } }

/-- A waiting SYNW that the value satisfies (R333): it reads, and its group is ready. -/
def State.synServe (s : State) (key : Nat) (core : BitVec 10) (slot : BitVec 3) : State :=
  match s.group? core slot with
  | none => s
  | some g =>
    match g.wait with
    | none => s
    | some w =>
      match w.pend with
      | .synw a rel c ord scope acc =>
        if w.kind = 3 && synKey g.ctx a.toNat = key && relHolds rel.toNat (compare (s.syn key).val.toNat c.toNat) then
          let v := s.syn key
          let pts := max48 g.pts v.wts
          let s := (s.setSyn key { v with rts := max48 v.rts pts }).raisePts core slot pts
          let acc := { acc with lanes := acc.lanes.map fun l => { l with res := BitVec.ofNat 128 v.val.toNat } }
          s.modGroup core slot fun g => { g with wait := some { w with kind := 14, pend := .synw a rel c ord scope acc } }
        else s
      | _ => s

/-- Blocked groups in the order in which they first waited. -/
def State.waiters (s : State) : List (BitVec 10 × BitVec 3) :=
  let l := s.groups.filterMap fun g => g.wait.map fun w => (w.stamp, g.core, g.slot)
  (l.sortBy fun a b => a.1 ≤ b.1).map fun x => x.2

/-- Every SYNW that waits on the variable is tested after a change (R333). -/
def State.synWake (s : State) (key : Nat) : State := s.waiters.foldl (fun s p => s.synServe key p.1 p.2) s

/-- The end of a round of a join counter (R132): COUNT takes ARM, and every record waiting on it is ready. -/
def State.endRound (s : State) (c : BitVec 12) (addr : Nat) : State :=
  let s := s.synIn (synKey c (addr + 4))
  let arm := (s.syn (synKey c (addr + 4))).val
  let v := s.syn (synKey c addr)
  let s := s.setSyn (synKey c addr) { v with val := arm }
  { s with sch := { s.sch with
    places := s.sch.places.map fun p =>
      if p.ready.isNone && (s.launch p.launch).ctx = c && p.jca.toNat = addr then
        { p with ready := some (s.clock p.core), acquire := true } else p
    tasks := s.sch.tasks.map fun t =>
      if t.ready.isNone && t.ctx = c && t.jca.toNat = addr then { t with ready := some s.clock127 } else t } }

def State.joinWaits (s : State) (c : BitVec 12) (addr : Nat) : Bool :=
  s.sch.places.any (fun p => p.ready.isNone && (s.launch p.launch).ctx = c && p.jca.toNat = addr) ||
  s.sch.tasks.any (fun t => t.ready.isNone && t.ctx = c && t.jca.toNat = addr)

/-- The new value of SYNA (R332). -/
def synOp (fn : Nat) (v c : Half) : Half :=
  match fn with
  | 0 => v + c
  | 1 => v - c
  | 2 => c
  | 3 => v &&& c
  | 4 => v ||| c
  | 5 => if v.toNat ≤ c.toNat then c else v
  | 6 => if v.toNat ≤ c.toNat then 0 else v - c
  | _ => v

/-- The fault of a synchronisation address (R207, R331). -/
def State.synFault (s : State) (addr : Word) (wr : Bool) : Option FRec :=
  let r (k : BitVec 8) (sub : BitVec 4) : FRec := ⟨addr, k, 2, wr, true, sub, 0⟩
  if addr.toNat % 4 ≠ 0 then some (r 1 0)
  else if 2 ^ 32 ≤ addr.toNat || s.regBits (Reg.sync s.cur.ctx.toNat) 0 0 = 0 then some (r 2 2)
  else none

/-- Counter, ordering and faults of SYNA and SYNW, and then their effect. They are performed at once, so earlier loads, stores and atomics
of the group come first (R200, R208, R213), and the engine's island has to run (R11). -/
def State.withSyn (s : State) (w : RR) (wr : Bool) (f : State → State) : State :=
  match s.synFault (s.cur.srcS w.a) wr with
  | some r => s.trapLanes [(96, r)]
  | none =>
    if 63 ≤ s.cur.counter 6 || s.cur.behind || !s.islandRuns 127 then s.hold
    else if bit w.e 7 then s.withRelease (bits w.e 5 3) f
    else f s

/-- SYNA (R332). -/
def execSyna (w : RR) (s : State) : Host.Outcome State Fault Refusal :=
  .next (issue (.syna w) s fun s =>
    let addr := (s.cur.srcS w.a).toNat
    let c : Half := (s.cur.srcS w.c).extractLsb' 0 32
    s.withSyn w true fun s =>
      let g := s.cur
      let key := synKey g.ctx addr
      let s := s.synIn key
      let v := s.syn key
      let ts := max48 g.pts (v.rts + 1)
      let x := synOp (bits w.e 2 0) v.val c
      let s := (s.setSyn key ⟨x, ts, ts⟩).raisePts g.core g.slot ts
      let s := if x = 0 && s.joinWaits g.ctx addr then s.endRound g.ctx addr else s
      let s := s.synWake key
      let s := if bit w.e 6 then s.acquire (bits w.e 5 3) else s
      s.issueDone w.ctl 1 (doneAccess 6 .syn 2 (scalarReg w.d) (BitVec.ofNat 64 v.val.toNat)))

/-- SYNW (R333). -/
def execSynw (w : RR) (s : State) : Host.Outcome State Fault Refusal :=
  .next (issue (.synw w) s fun s =>
    let acq (s : State) : State := if bit w.e 6 then s.acquire (bits w.e 5 3) else s
    match s.cur.satisfied with
    | some a => (acq s).issueDone w.ctl 1 a
    | none =>
      let addr := s.cur.srcS w.a
      let c : Half := (s.cur.srcS w.c).extractLsb' 0 32
      s.withSyn w false fun s =>
        let g := s.cur
        let key := synKey g.ctx addr.toNat
        let s := s.synIn key
        let v := s.syn key
        let a := doneAccess 6 .syn 2 (scalarReg w.d) (BitVec.ofNat 64 v.val.toNat)
        if relHolds (bits w.e 2 0) (compare v.val.toNat c.toNat) then
          let pts := max48 g.pts v.wts
          let s := (s.setSyn key { v with rts := max48 v.rts pts }).raisePts g.core g.slot pts
          (acq s).issueDone w.ctl 1 a
        else
          s.block 3 addr (BitVec.ofNat 64 c.toNat) 0xFF
            (.synw (BitVec.ofNat 32 addr.toNat) (BitVec.ofNat 3 (bits w.e 2 0)) c (BitVec.ofNat 2 (bits w.e 7 6))
              (BitVec.ofNat 3 (bits w.e 5 3)) a))

/-! ### Range operations (R218, R336) -/

/-- Dirty bytes that the L2 holds of a second-tier line go to the target, whose acknowledgement the access awaits. -/
def State.flushTarget (s : State) (core : BitVec 10) (slot : BitVec 3) (acc line : Nat) : State :=
  match s.l2? line with
  | none => s
  | some l =>
    if !secondTier (128 * line) || l.dirty = 0 then s
    else (s.updL2 line fun x => { x with dirty := 0 }).awaitAck core slot [acc] line l.data l.dirty l.poison true []

/-- RWB of one line: dirty bytes of M are sent to the home and cleared, the data of E goes to its home; both stay (R218, R336). Bytes of the core
that are under way to the home, or from it to the target, arrive first. What the L2 holds dirty of the second tier goes on to the target. -/
def State.rwbLine (s : State) (core : BitVec 10) (slot : BitVec 3) (acc line : Nat) : State :=
  let s := (s.flushMerges fun m => m.line = line && m.core = core).reachTarget line fun _ => true
  let s :=
    match s.l1? core line with
    | none => s
    | some l =>
      match l.st with
      | .s => s
      | .e => ((s.needRun (homeIsland line)).takeWriteback line l.data (BitVec.allOnes 128) l.poison l.wts l.rts).modL1 core line fun x =>
          { x with dirty := 0 }
      | .m => (s.sendMerge core slot l [acc]).modL1 core line fun x => { x with dirty := 0 }
  s.flushTarget core slot acc line

/-- Locks of a line released, with the quota (R196). -/
def State.unlockAll (s : State) (line : Nat) : State :=
  match s.l2? line with
  | none => s
  | some l =>
    let s := l.locks.foldl (fun s c =>
      let o := Reg.lquota c.toNat
      s.setRegBits o 47 32 (s.regBits o 47 32 - 1)) s
    s.updL2 line fun l => { l with locks := [] }

/-- The L2's copy of a second-tier line dropped; dirty bytes are written first, locks are released. -/
def State.flushL2 (s : State) (line : Nat) : State :=
  match s.l2? line with
  | none => s
  | some l =>
    ((((s.unlockAll line).needMedia line).reachTarget line fun _ => !(l.dirty = 0)).memWrite line l.data l.dirty l.poison).dropL2 line

/-- RINV of one line: M and S are dropped, E is written back; a second-tier line leaves the L2 too, what it holds dirty goes to the target. -/
def State.rinvLine (s : State) (core : BitVec 10) (slot : BitVec 3) (acc line : Nat) : State :=
  let s :=
    match s.l1? core line with
    | none => s
    | some l => if l.st = .e then s.recall line else s.dropL1 core line
  if secondTier (128 * line) && 128 * line < 2 ^ 52 then ((s.recall line).flushTarget core slot acc line).flushL2 line else s

/-- A range operation over `n` lines from the line of `va`. Lines that no leaf maps, or a UC leaf does, are passed over. -/
def State.rangeLines (s : State) (wb inv : Bool) (acc : Nat) (va : Word) : Nat → State
  | 0 => s
  | n + 1 =>
    let g := s.cur
    let s := s.walkNow g.waiter g.ctx va
    let s :=
      match s.translate g.waiter g.ctx va .load with
      | .ok pa mt _ =>
        let line := pa / 128
        match mt with
        | .uc => s
        | .wc => (match s.cur.wc with
            | some b => if b.line = line then s.sendWc g.core g.slot else s
            | none => s)
        | _ =>
          let s := if wb then s.rwbLine g.core g.slot acc line else s
          if inv then s.rinvLine g.core g.slot acc line else s
      | _ => s
    State.rangeLines s wb inv acc (va + 128) n

/-- A page of the range is held (R54, R85). `n` pages. -/
def State.rangeHeld (s : State) (va : Word) : Nat → Bool
  | 0 => false
  | n + 1 =>
    (match s.leafNow s.cur.waiter s.cur.ctx va with
     | some (level, e) => s.mustWait (Pte.pfn e + va51 va % 2 ^ pageBits level) 1 (Pte.co e)
     | none => false) || State.rangeHeld s (va + 0x8000) n

/-- RWB, RINV and RWBI (R336). Earlier global accesses of the group are performed first, which the S cells ask for (R213). -/
def State.rangeOp (s : State) (w : RR) (path : BitVec 3) (op : AccOp) (wb inv : Bool) : State :=
  let a := s.cur.srcS w.a
  let n := (s.cur.srcS w.b).toNat
  if n = 0 then s.doneN w.ctl
  else if !canonical a || !canonical (a + BitVec.ofNat 64 (n - 1)) || 2 ^ 64 < a.toNat + n then
    s.trapLanes [(96, ⟨a, 2, 0, wb, false, 0, 0⟩)]
  else if 63 ≤ s.cur.counter path.toNat then s.hold
  else if s.cur.behind then s.hold
  else if (s.mmu.skims ≠ [] || s.cxl.cuts ≠ []) && s.rangeHeld a ((a.toNat % 0x8000 + n) / 0x8000 + 1) then s.pause
  else
    let (s, id) := s.stamp
    let g := s.cur
    let x : Access := ⟨id, path, op, w.ctl.ch, 0, [], .none, g.pc, g.cpos, false, 0, false, false, false, s.timebase⟩
    let s := s.setCur { g with inflight := g.inflight ++ [x] }
    let first := a.toNat / 128
    let s := s.rangeLines wb inv id (BitVec.ofNat 64 (128 * first)) ((a.toNat + n - 1) / 128 - first + 1)
    ((s.doneN w.ctl).concludeStore g.core g.slot id).settle g.core g.slot

/-- RWB. -/
def execRwb (w : RR) (s : State) : Host.Outcome State Fault Refusal :=
  .next (issue (.rwb w) s fun s => s.rangeOp w 1 .writeback true false)

/-- RINV. -/
def execRinv (w : RR) (s : State) : Host.Outcome State Fault Refusal :=
  .next (issue (.rinv w) s fun s => s.rangeOp w 0 .invalidate false true)

/-- RWBI. -/
def execRwbi (w : RR) (s : State) : Host.Outcome State Fault Refusal :=
  .next (issue (.rwbi w) s fun s => s.rangeOp w 1 .writebackInv true true)

/-! ### Locks (R196, R337) -/

/-- Ways of the line's set that hold a lock. -/
def State.lockedWays (s : State) (line : Nat) : Nat :=
  (s.coh.l2.filter fun l => sameSet l.line line && !l.locks.isEmpty).length

/-- LOCK of a line by a context: the state after and the status. -/
def State.lockLine (s : State) (c : BitVec 12) (pa : Nat) (mt : MType) (co : Bool) : State × Word :=
  let line := pa / 128
  if mt = .uc || mt = .wc || 2 ^ 52 ≤ pa || s.pageHeld pa co s.seqCtr then (s, 3)
  else
    let s := s.fillL2As line (secondTier pa && !co)
    match s.l2? line with
    | none => (s, 3)
    | some l =>
      let o := Reg.lquota c.toNat
      let w := s.reg o
      if c ∈ l.locks then (s, 0)
      else if bits w 63 48 ≤ bits w 47 32 then (s, 1)
      else if l.locks.isEmpty && 12 ≤ s.lockedWays line then (s, 2)
      else
        ((s.setRegBits o 47 32 (bits w 47 32 + 1)).updL2 line fun l => { l with locks := l.locks ++ [c] }, 0)

/-- A context's lock of a line released, with its quota (R196). -/
def State.releaseLock (s : State) (c : BitVec 12) (line : Nat) : State :=
  match s.l2? line with
  | none => s
  | some l =>
    if c ∈ l.locks then
      let o := Reg.lquota c.toNat
      (s.setRegBits o 47 32 (s.regBits o 47 32 - 1)).updL2 line fun l => { l with locks := l.locks.erase c }
    else s

/-- UNLOCK of a line by a context. Its access makes the line the most recent of the L2, as every touch does. -/
def State.unlockLine (s : State) (c : BitVec 12) (pa : Nat) : State := (s.touchL2 (pa / 128)).releaseLock c (pa / 128)

/-- The translation of a lock, as for a 1-byte scalar access on record 96, and then its effect. The access allocates nothing in an L1, so of
its cache hint only the touch of the L2's line is left (R194, R337). -/
def State.withLock (s : State) (w : RR) (op : AccOp) (f : State → Nat → MType → Bool → State × Word) : State :=
  let g := s.cur
  let va := g.srcS w.a
  match if s.awaits g.waiter then .walk va .load else s.translate g.waiter g.ctx va .load with
  | .ok pa mt co =>
    if 63 ≤ g.counter 5 then s.hold
    else
      let (s, r) := f ((s.clearVerdicts g.waiter).touchTlb g.waiter g.ctx va) pa mt co
      s.issueDone w.ctl 1 { doneAccess 5 op 3 (scalarReg w.d) r with hint := w.ctl.ch }
  | .bad kd sub dec => (s.walkFault va kd).trapLanes [(96, ⟨va, kd, 0, false, false, sub, dec⟩)]
  | x =>
    if s.unresolvableX g.waiter g.ctx x then s.trapLanes [(96, ⟨va, 3, 0, false, false, 0, 0⟩)]
    else (s.awaitPage g.waiter g.ctx va .load 1).pause

/-- LOCK. -/
def execLock (w : RR) (s : State) : Host.Outcome State Fault Refusal :=
  .next (issue (.lock w) s fun s => s.withLock w .lock fun s pa mt co => s.lockLine s.cur.ctx pa mt co)

/-- UNLOCK always writes 0. -/
def execUnlock (w : RR) (s : State) : Host.Outcome State Fault Refusal :=
  .next (issue (.unlock w) s fun s => s.withLock w .unlock fun s pa _ _ => (s.unlockLine s.cur.ctx pa, 0))

/-! ### Waits (R338, R339) -/

/-- What a TW that covers commands up to `n` on a timeline acquires: their writes and their flags (R217, R235). -/
def State.coverTimeline (s : State) (t : Nat) (n : Word) : State :=
  let g := s.cur
  let k := s.coreCtx g.core g.ctx
  let s := s.raisePts g.core g.slot (k.tlts.toList.getD t 0)
  let f := k.tlflags.foldl (fun (a : BitVec 5) x =>
    if x.1 = t && x.2.1.toNat ≤ n.toNat then a ||| BitVec.ofNat 5 (2 * x.2.2.toNat) else a) 0
  s.setCur (s.cur.raise f)

/-- TLWAIT (R338). -/
def execTlwait (w : RR) (s : State) : Host.Outcome State Fault Refusal :=
  .next (issue (.tlwait w) s fun s =>
    let t := match w.a with
      | .reg n => n.toNat
      | _ => 7
    let n := s.cur.srcS w.b
    if n.toNat ≤ ((s.coreCtx s.cur.core s.cur.ctx).tl.toList.getD t 0).toNat then (s.coverTimeline t n).doneN w.ctl
    else s.block 1 (BitVec.ofNat 64 t) n 0xFF .retry)

/-- WAITC (R339); on path gs the write-combining buffer is sent (R219). -/
def execWaitc (w : RR) (s : State) : Host.Outcome State Fault Refusal :=
  .next (issue (.waitc w) s fun s =>
    let p := match w.a with
      | .reg n => n.toNat
      | _ => 0
    let n := s.cur.srcS w.b
    let s := if p = 1 then s.sendWc s.cur.core s.cur.slot else s
    if s.cur.counter p ≤ n.toNat then s.doneN w.ctl
    else s.block 2 (BitVec.ofNat 64 p) n 0xFF .retry)

end Sys2Proof.Machine
end

