-- ==== Sys2Proof/Machine/Scratch.lean ====
section
/-! DEFINITION. The scratchpad levels, group 0x8 (16_isa_memory_sync.md, R323 to R326), and the full/empty tags
(10_onchip_memory_coherence.md, R186 to R193). An access that does not wait is performed in the step it issues; one that waits is
performed by the pass over the waiting accesses that follows a change of a tag (R193). -/

namespace Sys2Proof.Machine

/-! ### Words by core -/

/-- Words of a core scratchpad: 192 KiB (R5). -/
def spWords : Nat := 49152

def State.sp (s : State) (c : BitVec 10) (i : Nat) : SpWord := Tab.get SpWord.fresh (s.core c).spad i

def State.putSp (s : State) (c : BitVec 10) (i : Nat) (w : SpWord) : State :=
  let r := s.core c
  s.setCore c { r with spad := Tab.set SpWord.fresh r.spad i w }

/-- What a form does with its words (R192, R324): the tag it waits for, whether it reads or writes, the tag it leaves. -/
structure FeForm where
  await : Option Bool
  reads : Bool
  writes : Bool
  leaves : Option Bool
  tag : Bool := false

/-- The form of a minor code of group 0x8. -/
def feForm (min : BitVec 4) : FeForm :=
  match min.toNat with
  | 0 => ⟨none, true, false, none, false⟩
  | 1 => ⟨none, false, true, none, false⟩
  | 2 => ⟨some true, true, false, some true, false⟩
  | 3 => ⟨some true, true, false, some false, false⟩
  | 4 => ⟨some false, false, true, some true, false⟩
  | 5 => ⟨none, false, true, some true, false⟩
  | 6 => ⟨none, false, false, some false, false⟩
  | 7 => ⟨none, false, false, none, true⟩
  | 8 => ⟨none, true, false, none, false⟩
  | 9 => ⟨none, false, true, none, false⟩
  | 10 => ⟨some true, true, false, some true, false⟩
  | 11 => ⟨none, false, true, none, false⟩
  | 12 => ⟨some true, true, false, some false, false⟩
  | 13 => ⟨some false, false, true, some true, false⟩
  | 14 => ⟨none, true, false, none, false⟩
  | _ => ⟨none, false, true, none, false⟩

/-! ### Reachable addresses (R188, R190, R323) -/

/-- A lane's word: core and word index, kept in one number. -/
def spPlace (c : BitVec 10) (byte : Nat) : Nat := c.toNat * 2 ^ 20 + byte / 4

def placeCore (p : Nat) : BitVec 10 := BitVec.ofNat 10 (p / 2 ^ 20)
def placeWord (p : Nat) : Nat := p % 2 ^ 20

/-- Bytes of a group's spill window. -/
def State.windowBytes (s : State) (g : Group) : Nat := 16 * ((s.launch g.launch).mdepth - 8)

/-- A core scratchpad address of the group, or none (R188); the window only for PLD and PTAG. -/
def State.spReach (s : State) (g : Group) (window : Bool) (ea : Word) : Option Nat :=
  let a := ea.toNat
  if g.spbase.toNat ≤ a && a < g.spbase.toNat + g.spbytes.toNat then some (spPlace g.core a)
  else if window && g.mswin.toNat ≤ a && a < g.mswin.toNat + s.windowBytes g then some (spPlace g.core a)
  else none

/-- The team of the group's cluster at cluster-relative (x, y). -/
def State.teamAt (s : State) (g : Group) (x y : Nat) : Option Team :=
  match s.sch.teams.find? fun t => t.key = g.team with
  | none => none
  | some me =>
    if me.w ≤ x || me.h ≤ y then none
    else s.sch.teams.find? fun t => 0 < t.alive && t.launch = me.launch && t.cluster = me.cluster && t.pos = x + me.w * y

/-- A cluster address of the group, or none (R190). -/
def State.clusterReach (s : State) (g : Group) (ea : Word) : Option Nat :=
  if 2 ^ 26 ≤ ea.toNat then none
  else
    let off := bits ea 17 0
    match s.teamAt g (bits ea 21 18) (bits ea 25 22) with
    | some t => if off < 64 * (s.launch g.launch).spres then some (spPlace t.core (t.base + off)) else none
    | none => none

/-- A chip-scratchpad address granted to the context, or none (R191). -/
def State.chipReach (s : State) (g : Group) (ea : Word) : Option Nat :=
  if 2 ^ 26 ≤ ea.toNat then none
  else if bit (s.reg (Reg.xsgrant g.ctx.toNat)) (bits ea 25 20) then some (ea.toNat / 4) else none

/-- Each active lane's place, or its fault (R323). -/
def scratchLanes (g : Group) (wr : Bool) (ea : Fin 96 → Word) (reach : Word → Option Nat) :
    List (Fin 96 × Except FRec Nat) :=
  g.activeLanes.map fun i =>
    let a := ea i
    if a.toNat % 4 ≠ 0 then (i, .error ⟨a, 1, 2, wr, false, 0, 0⟩)
    else
      match reach a with
      | some p => (i, .ok p)
      | none => (i, .error ⟨a, 2, 2, wr, false, 2, 0⟩)

def laneFaults (l : List (Fin 96 × Except FRec Nat)) : List (BitVec 7 × FRec) :=
  l.filterMap fun (i, k) => match k with
    | .error f => some (lane7 i, f)
    | .ok _ => none

/-- The lanes of a scratchpad access; `pa` holds the place. -/
def scratchAccs (l : List (Fin 96 × Except FRec Nat)) (ea : Fin 96 → Word) (data : Fin 96 → Half) : List LaneAcc :=
  l.filterMap fun (i, k) => match k with
    | .ok p => some ⟨lane7 i, ea i, p, .wb, BitVec.ofNat 128 (data i).toNat, 0, 0, false, none, false⟩
    | .error _ => none

/-! ### The indivisible step over an instruction's words (R192, R193, R325) -/

/-- Do all the words allow the form's step? The lowest lane that must wait otherwise. -/
def State.feBlocked (s : State) (f : FeForm) (a : Access) : Option LaneAcc :=
  match f.await with
  | none => none
  | some full => a.lanes.find? fun l => (s.sp (placeCore l.pa) (placeWord l.pa)).full ≠ full

/-- The step of every lane: reads of the words as they are, writes in ascending lane order, tags. A read of a poisoned word faults
instead, and then nothing changes (R107, R193). -/
def State.fePerform (s : State) (f : FeForm) (a : Access) : State × Access :=
  let word (l : LaneAcc) : SpWord := s.sp (placeCore l.pa) (placeWord l.pa)
  if f.reads && a.lanes.any fun l => (word l).poison then
    (s, { a with lanes := a.lanes.map fun l =>
        if (word l).poison then { l with fault := some ⟨l.va, 4, 2, false, false, 0, 0⟩ } else l })
  else
    let lanes := a.lanes.map fun l =>
      { l with
        done := true
        res := if f.tag then BitVec.ofNat 128 (b2n (word l).full) else BitVec.ofNat 128 (word l).data.toNat }
    let s := a.lanes.foldl (fun s l =>
      let w := s.sp (placeCore l.pa) (placeWord l.pa)
      let w := if f.writes then { w with data := l.data.extractLsb' 0 32, poison := false } else w
      let w := match f.leaves with
        | some t => { w with full := t }
        | none => w
      s.putSp (placeCore l.pa) (placeWord l.pa) w) s
    (s, { a with lanes := lanes, performed := true })

/-- One waiting access tested, and performed if every word allows it; whether a tag may have changed. -/
def State.feServe (s : State) (core : BitVec 10) (slot : BitVec 3) : State × Bool :=
  match s.group? core slot with
  | none => (s, false)
  | some g =>
    match g.wait with
    | none => (s, false)
    | some w =>
      match w.pend with
      | .fe form a =>
        if w.kind ≠ 0 then (s, false)
        else
          match s.feBlocked (feForm form) a with
          | some _ => (s, false)
          | none =>
            let (s, a) := s.fePerform (feForm form) a
            (s.modGroup core slot fun g => { g with wait := some { w with kind := 14, pend := .fe form a } }, true)
      | _ => (s, false)

/-! ### Ring slots (R193, R362, R363) -/

/-- One element of a vector of eight. -/
def put8 {α : Type} (v : Vector α 8) (i : Nat) (x : α) : Vector α 8 := if h : i < 8 then v.set i x h else v

def CoreCtx.progress (k : CoreCtx) (tl : Nat) : Progress := k.prog.toList.getD tl Progress.fresh

def CoreCtx.setProgress (k : CoreCtx) (tl : Nat) (p : Progress) : CoreCtx :=
  { k with prog := if h : tl < 4 then k.prog.set tl p h else k.prog }

/-- The progress of a stream changed. -/
def State.modProgress (s : State) (core : BitVec 10) (ctx : BitVec 12) (tl : Nat) (f : Progress → Progress) : State :=
  let k := s.coreCtx core ctx
  s.setCoreCtx core ctx (k.setProgress tl (f (k.progress tl)))

def CoreCtx.ring (k : CoreCtx) (i : Nat) : Ring := k.rings.toList.getD i ⟨0, 0, 0, 0⟩

/-- Bytes of a slot, and the byte address of slot i. -/
def Ring.slotBytes (r : Ring) : Nat := 64 * (r.szm1.toNat + 1)
def Ring.slot (r : Ring) (i : Nat) : Nat := r.base + i * r.slotBytes
def Ring.header (r : Ring) : Nat := r.slot r.take.toNat / 4

/-- The next slot. -/
def Ring.next (r : Ring) : Ring := { r with take := if r.take = r.nsm1 then 0 else r.take + 1 }

def State.putRing (s : State) (core : BitVec 10) (ctx : BitVec 12) (i : Nat) (r : Ring) : State :=
  let k := s.coreCtx core ctx
  s.setCoreCtx core ctx { k with rings := put8 k.rings i r }

/-- A header's tag set. -/
def State.setTag (s : State) (c : BitVec 10) (w : Nat) (full : Bool) : State := s.putSp c w { s.sp c w with full := full }

/-- `n` bytes of a core scratchpad from byte `a`, as one number, and whether a word of them is poisoned. -/
def State.spBytes (s : State) (c : BitVec 10) (a n : Nat) : Nat × Bool :=
  let w0 := a / 4
  let cnt := (a + n + 3) / 4 - w0
  let v := (List.range cnt).foldr (fun i v => (s.sp c (w0 + i)).data.toNat + 2 ^ 32 * v) 0
  (v / 2 ^ (8 * (a % 4)) % 2 ^ (8 * n), (List.range cnt).any fun i => (s.sp c (w0 + i)).poison)

/-- The slot taken, with its data (R363): header empty, index on. It acquires at `.team` for the reads of the slot (R216). -/
def State.takeSlot (s : State) (core : BitVec 10) (ctx : BitVec 12) (tl i bytes : Nat) : State :=
  let r := (s.coreCtx core ctx).ring i
  let (v, p) := s.spBytes core (r.slot r.take.toNat + 64) bytes
  ((s.setTag core r.header false).putRing core ctx i r.next).modProgress core ctx tl fun q =>
    if q.tookA then { q with want := none, tookB := true, slotB := v, poisonB := p }
    else { q with want := none, tookA := true, slotA := v, poisonA := p }

/-- The slot that an engine waits for, taken if its header is full. -/
def State.engServe (s : State) (core : BitVec 10) (ctx : BitVec 12) (tl : Nat) : State × Bool :=
  let k := s.coreCtx core ctx
  match (k.progress tl).want with
  | none => (s, false)
  | some t => if s.suspended ctx || !(s.sp core (k.ring t.ring).header).full then (s, false) else (s.takeSlot core ctx tl t.ring t.bytes, true)

/-- What waits on tags, in the order in which it first waited: groups, and matrix engine streams. -/
def State.tagWaiters (s : State) : List Waiter :=
  let l : List (Nat × Waiter) := s.groups.filterMap fun g => g.wait.map fun w => (w.stamp, .group g.core g.slot)
  let m : List (Nat × Waiter) := s.cores.flatMap fun (x : Nat × Core) => x.2.ctxs.flatMap fun (y : Nat × CoreCtx) =>
    (List.range 2).filterMap fun t => (y.2.progress t).want.map fun w =>
      (w.since, .engine (BitVec.ofNat 10 x.1) (BitVec.ofNat 12 y.1) (BitVec.ofNat 3 t))
  ((l ++ m).sortBy fun a b => a.1 ≤ b.1).map fun x => x.2

def State.tagServe (s : State) : Waiter → State × Bool
  | .group c slot => s.feServe c slot
  | .engine c ctx tl => s.engServe c ctx tl.toNat
  | _ => (s, false)

/-- Passes over the waiting accesses, in the order in which they first waited, until one changes nothing (R193). -/
def State.fePasses (s : State) : Nat → State
  | 0 => s
  | n + 1 =>
    let r := s.tagWaiters.foldl (fun (x : State × Bool) w => let y := x.1.tagServe w; (y.1, x.2 || y.2)) (s, false)
    if r.2 then State.fePasses r.1 n else r.1

def State.feWake (s : State) : State := s.fePasses (s.tagWaiters.length + 1)

/-! ### The instructions -/

/-- The poisoned lanes of a scratchpad load trap (R107, R324). -/
def State.trapPoison (s : State) (a : Access) : State :=
  let recs := a.lanes.filterMap fun l => l.fault.map fun r => (l.lane, r)
  let g := s.cur
  (s.consumePoison g.ctx g.core g.slot).trapLanes recs

/-- A scratchpad access performed: it traps on poison, or issues with its results; tags that changed are looked at. `after` is the acquire
that follows (R216). -/
def State.finishScratch (s : State) (w : I16) (f : FeForm) (a : Access) (after : State → State) : State :=
  if a.lanes.any fun l => l.fault.isSome then s.trapPoison a
  else
    let s := (after s).issueDone w.ctl s.cur.cost a
    if f.leaves.isSome then s.feWake else s

/-- A form of core or cluster scratchpad (R323 to R325). `rel` and `acq` are the scopes it fences at (R216), 0 for none; before an acquire
earlier loads and atomics are performed. PFE, whose one
effect is on the tag, counts as a write in a fault record (log 23). -/
def scratch (s : State) (w : I16) (min : BitVec 4) (path : BitVec 3) (reach : Word → Option Nat) (rel acq : Nat) : State :=
  let g := s.cur
  let f := feForm min
  let after (s : State) : State := if acq = 0 then s else s.acquire acq
  match g.satisfied with
  | some a => s.finishScratch w { f with leaves := none } a after
  | none =>
    let ea := vectorEa g w.a w.b (immWord w)
    let l := scratchLanes g (f.writes || min = 6) ea reach
    let dst : Dst := if f.reads || f.tag then vectorDst .b32 w.d else .none
    if g.em = 0 then s.retire w.ctl g.cost (if dst = .none then .none else zeroV)
    else if laneFaults l ≠ [] then s.trapLanes (laneFaults l)
    else if 63 ≤ g.counter path.toNat || (acq ≠ 0 && g.readsOpen) then s.hold
    else
      let a : Access := ⟨0, path, .spad, 0, 2, scratchAccs l ea (fun i => (g.srcV w.d)[i]), dst, 0, 0, false, 0, false, false, false, s.timebase⟩
      let go (s : State) : State :=
        match s.feBlocked f a with
        | some x =>
          s.block 0 (BitVec.ofNat 64 (4 * placeWord x.pa)) (BitVec.ofNat 64 (b2n (f.await = some true)))
            (BitVec.ofNat 8 x.lane.toNat) (.fe min a)
        | none =>
          let (s, a) := s.fePerform f a
          s.finishScratch w f a after
      if rel = 0 then go s else s.withRelease rel go

/-- PLD may read the group's own spill window (R324). -/
def execPld (w : I16) (s : State) : Host.Outcome State Fault Refusal :=
  .next (issue (.pld w) s fun s => scratch s w 0 2 (s.spReach s.cur true) 0 0)

/-- PST leaves the tag (R324). -/
def execPst (w : I16) (s : State) : Host.Outcome State Fault Refusal :=
  .next (issue (.pst w) s fun s => scratch s w 1 2 (s.spReach s.cur false) 0 0)

/-- PLDF waits for full and leaves full; it acquires at .team (R324). -/
def execPldf (w : I16) (s : State) : Host.Outcome State Fault Refusal :=
  .next (issue (.pldf w) s fun s => scratch s w 2 2 (s.spReach s.cur false) 0 1)

/-- PLDE waits for full and leaves empty; it acquires at .team (R324). -/
def execPlde (w : I16) (s : State) : Host.Outcome State Fault Refusal :=
  .next (issue (.plde w) s fun s => scratch s w 3 2 (s.spReach s.cur false) 0 1)

/-- PSTE releases at .team, waits for empty and leaves full (R324). -/
def execPste (w : I16) (s : State) : Host.Outcome State Fault Refusal :=
  .next (issue (.pste w) s fun s => scratch s w 4 2 (s.spReach s.cur false) 1 0)

/-- PSTF releases at .team and leaves full (R324). -/
def execPstf (w : I16) (s : State) : Host.Outcome State Fault Refusal :=
  .next (issue (.pstf w) s fun s => scratch s w 5 2 (s.spReach s.cur false) 1 0)

/-- PFE empties (R324). -/
def execPfe (w : I16) (s : State) : Host.Outcome State Fault Refusal :=
  .next (issue (.pfe w) s fun s => scratch s w 6 2 (s.spReach s.cur false) 0 0)

/-- PTAG reads the tag (R324). -/
def execPtag (w : I16) (s : State) : Host.Outcome State Fault Refusal :=
  .next (issue (.ptag w) s fun s => scratch s w 7 2 (s.spReach s.cur true) 0 0)

/-- CLD waits for full and leaves full, without an acquire (R324). -/
def execCld (w : I16) (s : State) : Host.Outcome State Fault Refusal :=
  .next (issue (.cld w) s fun s => scratch s w 10 3 (s.clusterReach s.cur) 0 0)

/-- CST leaves the tag (R324). -/
def execCst (w : I16) (s : State) : Host.Outcome State Fault Refusal :=
  .next (issue (.cst w) s fun s => scratch s w 11 3 (s.clusterReach s.cur) 0 0)

/-- CLDE acquires at .clu (R324). -/
def execClde (w : I16) (s : State) : Host.Outcome State Fault Refusal :=
  .next (issue (.clde w) s fun s => scratch s w 12 3 (s.clusterReach s.cur) 0 2)

/-- CSTE releases at .clu (R324). -/
def execCste (w : I16) (s : State) : Host.Outcome State Fault Refusal :=
  .next (issue (.cste w) s fun s => scratch s w 13 3 (s.clusterReach s.cur) 2 0)

/-! ### Lane slices (R189, R326) -/

/-- The place of word j of a lane in its group's band. -/
def State.slicePlace (s : State) (g : Group) (i : Fin 96) (j : Nat) : Nat :=
  spPlace g.core (g.slices.toNat + 4 * (j * (s.launch g.launch).nlane + i.val))

/-- The word index of a lane (R326). -/
def sliceIndex (g : Group) (w : I16) (i : Fin 96) : Int :=
  (if w.b = .absent then 0 else ((g.srcV w.b)[i].toNat : Int)) + w.imm.toInt

/-- LSL and LSS. -/
def laneSlice (s : State) (w : I16) (min : BitVec 4) : State :=
  let g := s.cur
  let f := feForm min
  let l := g.activeLanes.map fun i =>
    let j := sliceIndex g w i
    if j < 0 ∨ (g.slicew.toNat : Int) ≤ j then (i, Except.error (⟨ofInt 64 j, 2, 2, f.writes, false, 2, 0⟩ : FRec))
    else (i, .ok (s.slicePlace g i j.toNat))
  let dst : Dst := if f.reads then vectorDst .b32 w.d else .none
  if g.em = 0 then s.retire w.ctl g.cost (if dst = .none then .none else zeroV)
  else if laneFaults l ≠ [] then s.trapLanes (laneFaults l)
  else if 63 ≤ g.counter 2 then s.hold
  else
    let a : Access := ⟨0, 2, .spad, 0, 2, scratchAccs l (fun i => ofInt 64 (sliceIndex g w i)) (fun i => (g.srcV w.d)[i]), dst,
      0, 0, false, 0, false, false, false, s.timebase⟩
    let (s, a) := s.fePerform f a
    s.finishScratch w f a id

/-- LSL. -/
def execLsl (w : I16) (s : State) : Host.Outcome State Fault Refusal :=
  .next (issue (.lsl w) s fun s => laneSlice s w 8)

/-- LSS. -/
def execLss (w : I16) (s : State) : Host.Outcome State Fault Refusal :=
  .next (issue (.lss w) s fun s => laneSlice s w 9)

/-! ### Chip scratchpad (R191) -/

def State.xword (s : State) (i : Nat) : Half := Tab.get 0 s.coh.xspad i

/-- A word stored; the poison of its sector goes when one access writes the whole sector (R106). -/
def State.setXword (s : State) (i : Nat) (h : Half) : State :=
  { s with coh := { s.coh with xspad := Tab.set 0 s.coh.xspad i h } }

/-- The islands of the slices beside which words of the chip scratchpad lie run (R11, R16). -/
def State.chipRuns (s : State) (l : List LaneAcc) : Bool := l.all fun x => s.islandRuns (96 + x.pa / 2 ^ 20)

/-- XLD and XST. -/
def chip (s : State) (w : I16) (wr : Bool) : State :=
  let g := s.cur
  let ea := vectorEa g w.a w.b (immWord w)
  let l := scratchLanes g wr ea (s.chipReach g)
  let dst : Dst := if wr then .none else vectorDst .b32 w.d
  if g.em = 0 then s.retire w.ctl g.cost (if wr then .none else zeroV)
  else if laneFaults l ≠ [] then s.trapLanes (laneFaults l)
  else if 63 ≤ g.counter 4 || !s.chipRuns (scratchAccs l ea fun i => (g.srcV w.d)[i]) then s.hold
  else
    let a : Access := ⟨0, 4, .spad, 0, 2, scratchAccs l ea (fun i => (g.srcV w.d)[i]), dst, 0, 0, false, 0, false, false, false, s.timebase⟩
    if wr then
      let s := a.lanes.foldl (fun s x => s.setXword x.pa (x.data.extractLsb' 0 32)) s
      -- a sector all of whose eight words are written loses its poison
      let whole (k : Nat) : Bool := (List.range 8).all fun j => a.lanes.any fun x => x.pa = 8 * k + j
      let s := { s with coh := { s.coh with xpoison := s.coh.xpoison.filter fun k => !whole k } }
      s.issueDone w.ctl g.cost { a with lanes := a.lanes.map fun x => { x with done := true } }
    else
      let a := { a with lanes := a.lanes.map fun x =>
        if x.pa / 8 ∈ s.coh.xpoison then { x with fault := some ⟨BitVec.ofNat 64 (x.va.toNat / 32 * 32), 4, 2, false, false, 0, 0⟩ }
        else { x with done := true, res := BitVec.ofNat 128 (s.xword x.pa).toNat } }
      if a.lanes.any fun x => x.fault.isSome then s.trapPoison a else s.issueDone w.ctl g.cost a

/-- XLD. -/
def execXld (w : I16) (s : State) : Host.Outcome State Fault Refusal :=
  .next (issue (.xld w) s fun s => chip s w false)

/-- XST. -/
def execXst (w : I16) (s : State) : Host.Outcome State Fault Refusal :=
  .next (issue (.xst w) s fun s => chip s w true)

end Sys2Proof.Machine
end

