-- ==== Sys2Proof/Machine/Engine.lean ====
section
/-! DEFINITION. What the engines share (R177 to R179, R217, R357 to R361): streams of commands, completion and timelines, status words and
pop queues, and an engine's reads and writes of memory and scratchpads (R106, R208, R373). -/

namespace Sys2Proof.Machine

/-! ### Streams (R358) -/

/-- The timeline a command pushed to register q is numbered on. -/
def timelineOf (q : Nat) (w0 : Word) : Nat :=
  if q = 0 then b2n (bit w0 55)
  else if q = 2 then 2 + b2n (bit w0 55)
  else if q = 4 then (if bits w0 63 56 = 0x21 then 5 else 4)
  else 6

def CoreCtx.queue (k : CoreCtx) (q : Nat) : List Cmd :=
  if q = 0 then k.q0 else if q = 2 then k.q2 else if q = 4 then k.q4 else k.q8

def CoreCtx.setQueue (k : CoreCtx) (q : Nat) (l : List Cmd) : CoreCtx :=
  if q = 0 then { k with q0 := l } else if q = 2 then { k with q2 := l }
  else if q = 4 then { k with q4 := l } else { k with q8 := l }

/-- The register that feeds the timeline. -/
def queueOf (tl : Nat) : Nat := if tl ≤ 1 then 0 else if tl ≤ 3 then 2 else if tl ≤ 5 then 4 else 8

/-- The oldest command of a timeline still in its queue. -/
def CoreCtx.head (k : CoreCtx) (tl : Nat) : Option Cmd :=
  (k.queue (queueOf tl)).find? fun c => timelineOf (queueOf tl) c.w0 = tl

/-- That command taken out. -/
def CoreCtx.take (k : CoreCtx) (tl : Nat) : CoreCtx :=
  match k.head tl with
  | some c => k.setQueue (queueOf tl) ((k.queue (queueOf tl)).erase c)
  | none => k

/-- Commands of the register not yet begun (R177). -/
def CoreCtx.depth (k : CoreCtx) (q : Nat) : Nat := ((k.queue q).filter fun c => !c.started).length

/-! ### Completion (R179) -/

/-- The timeline advances over commands that are complete, in number order. -/
def CoreCtx.sweepTl (k : CoreCtx) (tl : Nat) : Nat → CoreCtx
  | 0 => k
  | n + 1 =>
    let next := k.tl.toList.getD tl 0 + 1
    if k.finished.any fun f => f = (tl, next) then
      CoreCtx.sweepTl { k with tl := put8 k.tl tl next, finished := k.finished.erase (tl, next) } tl n
    else k

/-- A command is complete: its number, its flags and the timestamp of its writes (R217, R235). -/
def CoreCtx.complete (k : CoreCtx) (tl : Nat) (num : Word) (flags : BitVec 4) (ts : BitVec 48) : CoreCtx :=
  let k := { k with
    finished := k.finished ++ [(tl, num)]
    tlts := put8 k.tlts tl (max48 (k.tlts.toList.getD tl 0) ts)
    tlflags := if flags = 0 then k.tlflags else k.tlflags ++ [(tl, num, flags)] }
  k.sweepTl tl (k.finished.length)

/-- OF, UF, NQ, AOV of the flags of sr.gsf that a command raises. -/
def cmdFlags (f : BitVec 5) : BitVec 4 := BitVec.ofNat 4 (f.toNat / 2)

/-- A matrix or copy status word (R359). Flags: OF is bit 0 of the four. -/
def statusWord (num : Word) (status : Nat) (f : BitVec 4) (ectx : Bool) (opc det : Nat) : Word :=
  field 32 (bits num 31 0) ||| field 28 status ||| field 27 (b2n (bit f 0)) ||| field 26 (b2n (bit f 1)) |||
    field 25 (b2n (bit f 2)) ||| field 24 (b2n (bit f 3)) ||| field 23 (b2n ectx) ||| field 8 opc ||| field 0 det

/-- A word for the pop queue of a register. -/
def CoreCtx.pushPop (k : CoreCtx) (q : Nat) (w : PopWord) : CoreCtx :=
  if q = 1 then { k with q1 := k.q1 ++ [w] } else if q = 3 then { k with q3 := k.q3 ++ [w] } else { k with q5 := k.q5 ++ [w] }

/-- The head command of a matrix or copy stream completes: status word, timeline, and the stream is ready for the next (R358, R359). -/
def State.finishCmd (s : State) (core : BitVec 10) (ctx : BitVec 12) (tl : Nat) (status det : Nat) (f : BitVec 4) : State :=
  let k := s.coreCtx core ctx
  match k.head tl with
  | none => s
  | some c =>
    let p := k.progress tl
    let f := f ||| p.flags
    let k := ((k.take tl).complete tl c.num f p.ts).setProgress tl Progress.fresh
    let k := if bit c.w0 54 || status ≠ 0 then
        k.pushPop (queueOf tl + 1) ⟨statusWord c.num status f (bit c.w0 55) (bits c.w0 63 56) det, p.ts⟩ else k
    s.setCoreCtx core ctx k

/-- Statuses of R359. -/
def stOk : Nat := 0
def stBadcmd : Nat := 1
def stFault : Nat := 2
def stRefused : Nat := 3
def stPoison : Nat := 4

/-! ### An engine's memory accesses -/

/-- Whose access it is: the stream of a context on a core, or a group of the core (SWEEP). -/
structure EngWho where
  core : BitVec 10
  ctx : BitVec 12
  tl : Nat
  grp : Option (BitVec 3) := none
  /-- The cache hint of a SWEEP (R378). -/
  hint : BitVec 2 := 0
  /-- Every access of the set it belongs to has been checked and let pass. -/
  free : Bool := false
  deriving DecidableEq, Repr

def EngWho.waiter (e : EngWho) : Waiter :=
  match e.grp with
  | some slot => .group e.core slot
  | none => .engine e.core e.ctx (BitVec.ofNat 3 e.tl)

/-- How an access of an engine goes. -/
inductive EngAcc
  /-- Done: the state after, the bytes read, and whether some are poisoned. -/
  | ok (s : State) (v : Nat) (poison : Bool)
  | fault (s : State) (r : FRec)
  /-- It waits on a page or a hold (R78, R87). -/
  | wait (s : State)
  deriving Repr

/-- The viral entry of a context whose poison an engine has consumed: no group of its own consumed it (R107, R115). -/
def State.engConsume (s : State) (ctx : BitVec 12) : State := s.consumePoison ctx 1023 0

/-- The L1 of a group's core serves the access without its home: an E line, a lease that covers a load, or an SM line. -/
def State.l1Serves (s : State) (g : Group) (pa : Nat) (mt : MType) (wr : Bool) : Bool :=
  match s.l1? g.core (pa / 128) with
  | some x =>
    (mt = .wb && (x.st = .e || (x.st = .s && !wr && bit x.valid (pa % 128 / 32) && !later48 g.pts x.rts))) ||
      (mt = .sm && x.st = .m && bit x.valid (pa % 128 / 32)) || (mt = .wc && wr)
  | none => mt = .wc && wr

/-- An access of `n` bytes that is about to be made has to wait (R50, R54, R56, R85, R203). -/
def State.engHeld (s : State) (e : EngWho) (pa n : Nat) (mt : MType) (wr co : Bool) : Bool :=
  match e.grp with
  | none => s.heldAt e.waiter pa n wr co
  | some slot =>
    match s.group? e.core slot with
    | some g =>
      if 2 ^ 52 ≤ pa then (e.hint = 3 || (s.smHit g (laneNow 0 pa mt co 0)).isNone) && s.heldAt e.waiter pa n wr co
      else if (e.hint ≠ 3 || (mt = .wc && wr)) && s.l1Serves g pa mt wr then s.mustWait pa n co || (wr && mt = .wb && s.outsideHolds e.waiter pa n true)
      else s.heldNow e.waiter pa n wr co
    | none => false

/-- A translation for `n` bytes of an engine's access, and what holds it. -/
def State.engXlat (s : State) (e : EngWho) (va : Word) (n : Nat) (k : AccKind) : State × LaneCheck :=
  let s := s.walkNow e.waiter e.ctx va
  if s.awaits e.waiter then (s, .wait)
  else
    match s.translateN e.waiter e.ctx va n k with
    | .ok pa mt co =>
      if !e.free && s.engHeld e pa n mt k.writes co then (s.awaitPage e.waiter e.ctx va k n, .wait)
      else (s, .ok pa mt co)
    | .bad kd sub dec =>
      let s := if kd ≠ 4 then s else
        match e.grp with
        | some slot => s.consumePoison e.ctx e.core slot
        | none => s.engConsume e.ctx
      (s, .bad ⟨va, kd, BitVec.ofNat 3 (Nat.log2 n), k.writes, false, sub, dec⟩)
    | x =>
      if s.unresolvableX e.waiter e.ctx x then
        (s.clearVerdicts e.waiter, .bad ⟨va, 3, BitVec.ofNat 3 (Nat.log2 n), k.writes, false, 0, 0⟩)
      else (s.awaitPage e.waiter e.ctx va k n, .wait)

/-- The group of a SWEEP makes the access itself (R378), coalesced with the others of its beat. -/
def State.grpAccess (s : State) (slot : BitVec 3) (e : EngWho) (op : AccOp) (log : Nat) (l : LaneAcc) (peers : List LaneAcc) : EngAcc :=
  match s.group? e.core slot with
  | none => .ok s 0 false
  | some g =>
    let (s, l) := s.laneOf g op e.hint (BitVec.ofNat 3 log) l peers e.free
    match l.fault with
    | some r => .fault s r
    | none => if l.done then .ok s l.res.toNat false else .wait s

/-- `n` bytes at a virtual address, within one line. -/
def State.engLoad (s : State) (e : EngWho) (va : Word) (n : Nat) : EngAcc :=
  match s.engXlat e va n .load with
  | (s, .ok pa mt co) =>
    match e.grp with
    | some slot => s.grpAccess slot e (.load false) (Nat.log2 n) (laneNow va pa mt co 0) []
    | none =>
      let line := pa / 128
      let (s, d, p) := if 2 ^ 52 ≤ pa then s.windowLine e.waiter line else (s.passNow e.waiter pa false).readAs mt co line
      .ok s (lineBytes d (pa % 128) n) ((p &&& sectorMask (pa % 128) n) ≠ 0)
  | (s, .bad r) => .fault s r
  | (s, .wait) => .wait s

/-- Bytes of a line written by an engine as one store (R208), with the poison of its sectors; dropped if outbound in a viral context (R115). `va` is
where the first of them goes, `pa` where that lies. -/
def State.engPut (s : State) (e : EngWho) (va : Word) (pa : Nat) (mt : MType) (co : Bool) (data : LineData) (mask : BitVec 128)
    (poison : BitVec 4) : EngAcc :=
  let s := (s.markDirty e.waiter e.ctx va).passNow e.waiter pa true
  if secondTier pa && s.viral e.ctx then .ok (s.dropWrite e.ctx va) 0 false
  else
    let (s, ts) := s.writeAs mt co (pa / 128) data mask poison
    .ok (s.modProgress e.core e.ctx e.tl fun p => { p with ts := max48 p.ts ts }) 0 false

/-- Bytes of a line chosen by a mask, all within the `n` bytes from `va`. -/
def State.engStoreMask (s : State) (e : EngWho) (va : Word) (n : Nat) (data : LineData) (mask : BitVec 128) (poison : BitVec 4) : EngAcc :=
  match s.engXlat e va n .engine with
  | (s, .ok pa mt co) => s.engPut e va pa mt co data mask poison
  | (s, .bad r) => .fault s r
  | (s, .wait) => .wait s

/-- `n` bytes of `v` written at a virtual address, within one line. A group's store is coalesced with `peers`. -/
def State.engStoreAs (s : State) (e : EngWho) (va : Word) (n v : Nat) (poison : BitVec 4) (peers : List LaneAcc) : EngAcc :=
  match s.engXlat e va n (if e.grp.isSome then .store else .engine) with
  | (s, .ok pa mt co) =>
    match e.grp with
    | some slot => (s.markDirty e.waiter e.ctx va).grpAccess slot e .store (Nat.log2 n) (laneNow va pa mt co (BitVec.ofNat 128 v)) peers
    | none => s.engPut e va pa mt co (placeBytes (pa % 128) v) (byteMask (pa % 128) n) poison
  | (s, .bad r) => .fault s r
  | (s, .wait) => .wait s

def State.engStore (s : State) (e : EngWho) (va : Word) (n v : Nat) (poison : Bool) : EngAcc :=
  s.engStoreAs e va n v (if poison then 15 else 0) []

/-- A range of bytes written line by line; `fuel` bounds the lines. -/
def State.engStoreRange (s : State) (e : EngWho) (va : Word) (n v : Nat) (poison : Bool) : Nat → EngAcc
  | 0 => .ok s 0 false
  | fuel + 1 =>
    if n = 0 then .ok s 0 false
    else
      let m := min n (128 - va.toNat % 128)
      match s.engStore e va m (v % 2 ^ (8 * m)) poison with
      | .ok s _ _ => State.engStoreRange s e (va + BitVec.ofNat 64 m) (n - m) (v / 2 ^ (8 * m)) poison fuel
      | x => x

/-! ### Scratchpad bytes -/

/-- `n` bytes of `v` written from byte `a`; tags stay, a word written whole takes the data's poison, one written in part keeps its own
too (R106). Past the end of the scratchpad there is no word. -/
def State.putSpBytes (s : State) (c : BitVec 10) (a n v : Nat) (poison : Bool) : State :=
  let w0 := a / 4
  let cnt := (a + n + 3) / 4 - w0
  let all := v * 2 ^ (8 * (a % 4))
  (List.range cnt).foldl (fun s i =>
    if spWords ≤ w0 + i then s else
    let lo := if i = 0 then a % 4 else 0
    let hi := min 4 (a + n - 4 * (w0 + i))
    let old := s.sp c (w0 + i)
    let d := setBits old.data (8 * hi - 1) (8 * lo) (all / 2 ^ (32 * i + 8 * lo))
    s.putSp c (w0 + i) { old with data := d, poison := poison || (old.poison && !(lo = 0 && hi = 4)) }) s

/-- The range lies in the team reservation of the group that pushed the command (R188). -/
def Cmd.inTeam (c : Cmd) (a n : Nat) : Bool := c.spbase.toNat ≤ a && a + n ≤ c.spbase.toNat + c.spbytes.toNat

end Sys2Proof.Machine
end

