-- ==== Sys2Proof/Machine/Matrix.lean ====
section
/-! DEFINITION. The matrix engine: operand rings, tiles and its commands (18_isa_engines_system.md, R362 to R369), with the arithmetic of
R239 to R242. A command meaning acts on the head command of its stream of the engine State.eng names; with no command there, nothing
happens (log 20). -/

namespace Sys2Proof.Machine

/-! ### The stream at work -/

/-- A command of a matrix or copy stream: who it is for, the queued command, and then its effect. The engine of a context that is
pre-empted stands still (R140). -/
def State.onStream (s : State) (q : Nat) (k : CmdCtl) (f : State → EngWho → Cmd → State) : State :=
  let tl := q + b2n k.ectx
  let e : EngWho := { core := s.eng.core, ctx := s.eng.ctx, tl := tl }
  if s.suspended e.ctx then s
  else
    match (s.coreCtx e.core e.ctx).head tl with
    | none => s
    | some c =>
      let cc := s.coreCtx e.core e.ctx
      let s := s.setCoreCtx e.core e.ctx
        (cc.setQueue q ((cc.queue q).map fun x => if x = c then { x with started := true } else x))
      f s e { c with started := true }

def State.done (s : State) (e : EngWho) (status det : Nat) (f : BitVec 5 := 0) : State :=
  s.finishCmd e.core e.ctx e.tl status det (cmdFlags f)

def State.badCmd (s : State) (e : EngWho) : State := s.done e stBadcmd 0

/-! ### Tiles (R364, R365, R241) -/

/-- The superblock scale of a column that has recorded none: 256 (R241). -/
def scaleNone : Half := 0x43800000

def Core.tile (r : Core) (t : BitVec 3) : Tile := r.tiles.toList.getD t.toNat (Tile.zero false)

def State.setTile (s : State) (c : BitVec 10) (t : BitVec 3) (x : Tile) : State :=
  let r := s.core c
  s.setCore c { r with tiles := put8 r.tiles t.toNat x }

/-- Element (r, n), as bits. -/
def Tile.at' (x : Tile) (r n : Nat) : Half := Tab.get 0 x.data (64 * r + n)

def Tile.put (x : Tile) (r n : Nat) (v : Half) : Tile := { x with data := Tab.set 0 x.data (64 * r + n) v }

def Tile.scale (x : Tile) (n : Nat) : Half := (Tab.get none x.scales n).getD scaleNone

/-- Zero, unpoisoned, no scales; the arming stays (R364, R365). -/
def Tile.clear (x : Tile) (int : Bool) : Tile := { x with int := int, data := [], scales := [], mix := 0, poison := false }

/-! ### One engine, several software contexts (R141, R364) -/

/-- Where the engine area of a core begins (R141). -/
def State.engArea (s : State) (core : BitVec 10) (ctx : BitVec 12) : Nat :=
  bits (s.reg (Reg.sched ctx.toNat 0)) 51 16 * 2 ^ 16 + 0x18000000 + 262144 * core.toNat

/-- `n` lines of the save area whose contents are opaque: free values (R141, log 4). -/
def State.saveOpaque (s : State) (a : Nat) : Nat → State
  | 0 => s
  | n + 1 =>
    let d := (List.range 16).foldr (fun j v => (Config.freeWord (s.freeCtr + j)).toNat + 2 ^ 64 * v) 0
    State.saveOpaque ({ s with freeCtr := s.freeCtr + 16 }.writePa a 128 d) (a + 128) n

/-- The words of a tile, row by row, written to the save area in lines. -/
def State.saveTile (s : State) (a : Nat) (x : Tile) : State :=
  (List.range 128).foldl (fun s i =>
    let d := (List.range 32).foldr (fun j v => (x.at' (i / 2) (32 * (i % 2) + j)).toNat + 2 ^ 32 * v) 0
    s.writePa (a + 128 * i) 128 d) s

/-- Element values read back from the save area. -/
def State.loadTile (s : State) (a : Nat) (x : Tile) : State × Tile :=
  (List.range 128).foldl (fun (z : State × Tile) i =>
    let (s, v, _) := z.1.readPa (a + 128 * i) 128
    (s, (List.range 32).foldl (fun (t : Tile) j =>
      t.put (i / 2) (32 * (i % 2) + j) (BitVec.ofNat 32 (v / 2 ^ (32 * j)))) z.2)) (s, x)

/-- The tiles of the context that has the engine, saved with its matrix engine state: values to memory, the rest kept with its engine state. -/
def State.saveTiles (s : State) (core : BitVec 10) : State :=
  let r := s.core core
  match r.owner with
  | none => s
  | some ctx =>
    let s := (List.range 8).foldl (fun s i => s.saveTile (s.engArea core ctx + 16384 * i) (r.tile (BitVec.ofNat 3 i))) s
    let s := s.saveOpaque (s.engArea core ctx + 0x20000) 32
    let s := s.setCore core { s.core core with owner := none, tiles := Vector.replicate 8 (Tile.zero false) }
    s.setCoreCtx core ctx { s.coreCtx core ctx with saved := some r.tiles }

/-- The tiles of a context loaded into the engine. -/
def State.loadTiles (s : State) (core : BitVec 10) (ctx : BitVec 12) : State :=
  match (s.coreCtx core ctx).saved with
  | none => s.setCore core { s.core core with owner := some ctx, tiles := Vector.replicate 8 (Tile.zero false) }
  | some v =>
    let s := s.setCoreCtx core ctx { s.coreCtx core ctx with saved := none }
    let s := s.setCore core { s.core core with owner := some ctx, tiles := v }
    (List.range 8).foldl (fun s i =>
      let t := BitVec.ofNat 3 i
      let (s, x) := s.loadTile (s.engArea core ctx + 16384 * i) { (s.core core).tile t with data := [] }
      s.setTile core t x) s

/-- The matrix engine of a core serves one software context at a time (R364); a core that has served none takes the first. -/
def State.serves (s : State) (c : BitVec 10) (ctx : BitVec 12) : Bool :=
  match (s.core c).owner with
  | none => true
  | some x => x = ctx

/-- The engine of a core for a context that it serves: where it has no context, the tiles of this one are loaded (R140, R364). -/
def State.engage (s : State) (c : BitVec 10) (ctx : BitVec 12) : State :=
  match (s.core c).owner with
  | none => s.loadTiles c ctx
  | some _ => s

/-- A matrix command once the core's engine serves its context. -/
def State.onMatrix (s : State) (k : CmdCtl) (f : State → EngWho → Cmd → State) : State :=
  if s.serves s.eng.core s.eng.ctx then
    s.onStream 0 k fun s e c => f (s.engage e.core e.ctx) e c
  else s

/-! ### Rings (R362, R363) -/

def ringIndex (k : CmdCtl) (r : BitVec 2) : Nat := 4 * b2n k.ectx + r.toNat

/-- MXRING (R362). -/
def execMxring (c : Mxring) (s : State) : Host.Outcome State Fault Refusal :=
  .next (s.onMatrix c.ctl fun s e q =>
    let r : Ring := ⟨c.nsm1, c.szm1, c.base.toNat, 0⟩
    let n := c.nsm1.toNat + 1
    if c.base.toNat % 64 ≠ 0 || !q.inTeam c.base.toNat (n * r.slotBytes) then s.badCmd e
    else
      let s := (List.range n).foldl (fun s j => s.setTag e.core (r.slot j / 4) false) s
      ((s.putRing e.core e.ctx (ringIndex c.ctl c.ring) r).done e stOk 0).feWake)

/-- MXZERO (R365). -/
def execMxzero (c : Mxzero) (s : State) : Host.Outcome State Fault Refusal :=
  .next (s.onMatrix c.ctl fun s e _ =>
    (s.setTile e.core c.tile (((s.core e.core).tile c.tile).clear c.ity)).done e stOk 0)

/-! ### MXACC (R239 to R241, R366) -/

/-- Bits of an element of a format. -/
def elemBits (efmt : Nat) : Nat :=
  match efmt with
  | 1 => 64
  | 2 | 9 | 10 => 32
  | 3 | 4 | 8 => 16
  | 5 => 8
  | _ => 4

/-- Element i of an array of a format, in bytes held as one number (R224). -/
def elemOf (efmt v i : Nat) : Nat := v / 2 ^ (elemBits efmt * i) % 2 ^ elemBits efmt

/-- The pairs of R239. -/
def pairOk (a b : Nat) : Bool := (a = 4 && (b = 4 || b = 7)) || (a = 5 && (b = 5 || b = 6))

/-- An exact value of the engine: BF16, or QN4 with its scale code, by 2^−7 (R230). -/
def mxValue (efmt code u : Nat) : FVal :=
  if efmt = 7 then
    let z := qn4 code * (u + 1)
    .fin (decide (z < 0)) z.natAbs (-7)
  else bf16.decode code

/-- One chunk's exact sum rounded once into the accumulator. -/
def chunkFloat (acc : Half) (ps : List FVal) : Half × BitVec 5 :=
  let s := match ps with
    | [] => FVal.fin false 0 0
    | p :: r => r.foldl (FVal.add .rne) p
  let r := fp32.ofVal .rne ((fp32.decode acc.toNat).add .rne s)
  (BitVec.ofNat 32 r.val, r.flags)

/-- One chunk added to an INT32 accumulator. -/
def chunkInt (acc : Half) (z : Int) : Half × BitVec 5 :=
  let t := acc.toInt + z
  (ofInt 32 t, if t < -(2 ^ 31) ∨ 2 ^ 31 ≤ t then gsfAOV else 0)

/-- Bytes of the operands: rows or columns of K elements. -/
def operandBytes (efmt rows k : Nat) : Nat :=
  if efmt = 7 then 32 * k + rows * (k / 64) else (rows * k * elemBits efmt + 7) / 8

/-- The element of an integer pair, and NQ. -/
def mxInt (efmt : Nat) (sub4 : Bool) (code : Nat) : Int × BitVec 5 :=
  if efmt = 6 then int4s sub4 code else (signedOf 8 code, 0)

/-- Element (r, n) after all the chunks of one command, with flags. -/
def mxElem (fa fb : Slot) (a b k r n : Nat) (acc : Half) : Half × BitVec 5 :=
  (List.range (k / 16)).foldl (fun (x : Half × BitVec 5) j =>
    let ks := (List.range 16).map fun i => 16 * j + i
    let ea (i : Nat) : Nat := elemOf fa.efmt a (r * k + i)
    let eb (i : Nat) : Nat := elemOf fb.efmt b (n * k + i)
    if fa.efmt = 4 then
      let u (i : Nat) : Nat := b / 2 ^ (8 * (32 * k + n * (k / 64) + i / 64)) % 256
      let (v, f) := chunkFloat x.1 (ks.map fun i => (mxValue 4 (ea i) 0).mul (mxValue fb.efmt (eb i) (u i)))
      (v, x.2 ||| f)
    else
      let (v, f) := chunkInt x.1 (ks.foldl (fun z i => z + signedOf 8 (ea i) * (mxInt fb.efmt fb.sub4 (eb i)).1) 0)
      (v, x.2 ||| f ||| ks.foldl (fun f i => f ||| (mxInt fb.efmt fb.sub4 (eb i)).2) 0)) (acc, 0)

/-- The product accumulated over M × N. -/
def Tile.accumulate (x : Tile) (fa fb : Slot) (a b m n k : Nat) : Tile × BitVec 5 :=
  (List.range m).foldl (fun y r =>
    (List.range n).foldl (fun (y : Tile × BitVec 5) j =>
      let (v, f) := mxElem fa fb a b k r j (y.1.at' r j)
      (y.1.put r j v, y.2 ||| f)) y) (x, 0)

/-- Superblock scales of columns 0..N − 1, read one after another. -/
inductive Scales
  | ok (s : State) (v : List Half) (poison : Bool)
  | fault (s : State) (kind : BitVec 8)
  | wait (s : State)
  deriving Repr

def State.readScales (s : State) (e : EngWho) (va : Word) : Nat → Scales
  | 0 => .ok s [] false
  | n + 1 =>
    match s.engLoad e va 4 with
    | .fault s r => .fault s r.kind
    | .wait s => .wait s
    | .ok s v p =>
      match State.readScales s e (va + 4) n with
      | .ok s r q => .ok s (BitVec.ofNat 32 v :: r) (p || q)
      | x => x

/-- The refusal of an MXACC, if any (R366): DET. -/
def mxRefusal (x : Tile) (fa fb : Slot) (scales : List Half) : Option Nat :=
  if !pairOk fa.efmt fb.efmt then some 1
  else if x.int ≠ (fa.efmt = 5) then some 2
  else if fb.efmt = 7 then
    if x.mix = 2 then some 3
    else if (List.range scales.length).any fun n => (Tab.get none x.scales n).any fun p => p ≠ scales.getD n 0 then some 3
    else none
  else if x.mix = 1 then some 3
  else none

/-- Scales recorded by the first QN4 product of each column. -/
def Tile.record (x : Tile) (scales : List Half) : Tile :=
  { x with scales := (List.range scales.length).foldl (fun t n => Tab.set none t n (some (scales.getD n 0))) x.scales }

/-- MXACC once both slots are there: `b` is the B data. -/
def mxaccRun (s : State) (e : EngWho) (c : Mxacc) (fa fb : Slot) (a b : Nat) (poison : Bool) (scales : List Half) : State :=
  let x := (s.core e.core).tile c.tile
  let (m, n, k) := (c.mm1.toNat + 1, c.nm1.toNat + 1, 16 * (c.km1.toNat + 1))
  match mxRefusal x fa fb scales with
  | some d => s.done e stRefused d
  | none =>
    let (y, f) := x.accumulate fa fb a b m n k
    let y := if fb.efmt = 7 then { y.record scales with mix := 1 } else { y with mix := 2 }
    let y := { y with poison := y.poison || poison }
    let s := s.setTile e.core c.tile y
    if poison then (s.engConsume e.ctx).done e stPoison 0 f else s.done e stOk 0 f

/-- A slot asked for: taken where its header is full, else waited for (R192, R193). -/
def State.askSlot (s : State) (e : EngWho) (i bytes : Nat) : State :=
  let k := s.coreCtx e.core e.ctx
  if (k.progress e.tl).want.isSome then s
  else if (s.sp e.core (k.ring i).header).full then (s.takeSlot e.core e.ctx e.tl i bytes).feWake
  else
    let (s, n) := s.stamp
    s.modProgress e.core e.ctx e.tl fun p => { p with want := some ⟨n, i, bytes⟩ }

/-- MXACC (R366): the A slot is taken when its header is full, and then the B slot; then the superblock scales are read. -/
def execMxacc (c : Mxacc) (s : State) : Host.Outcome State Fault Refusal :=
  .next (s.onMatrix c.ctl fun s e q =>
    let fa := s.slotOf q.launch c.sla.toNat
    let fb := s.slotOf q.launch c.slb.toNat
    let (m, n, k) := (c.mm1.toNat + 1, c.nm1.toNat + 1, 16 * (c.km1.toNat + 1))
    let cc := s.coreCtx e.core e.ctx
    let ia := ringIndex c.ctl c.ra
    let ib := ringIndex c.ctl c.rb
    let ra := cc.ring ia
    let na := operandBytes fa.efmt m k
    let nb := operandBytes fb.efmt n k
    if fa.malformed || fb.malformed || (fb.efmt = 7 && k % 64 ≠ 0) || (fb.efmt ≠ 7 && c.sbi ≠ 0) ||
        64 * ra.szm1.toNat < na || 64 * (cc.ring ib).szm1.toNat < nb then s.badCmd e
    else
      let s := if (cc.progress e.tl).tookA then s else s.askSlot e ia na
      let p := (s.coreCtx e.core e.ctx).progress e.tl
      let s := if !p.tookA || p.tookB then s else s.askSlot e ib nb
      let p := (s.coreCtx e.core e.ctx).progress e.tl
      if !p.tookB then s
      else if fb.efmt = 7 && pairOk fa.efmt fb.efmt then
        match s.readScales e (fb.sbp + BitVec.ofNat 64 (4 * c.sbi.toNat)) n with
        | .wait s => s
        | .fault s kd => s.done e stFault kd.toNat
        | .ok s scales ps => mxaccRun s e c fa fb p.slotA p.slotB (p.poisonA || p.poisonB || ps) scales
      else mxaccRun s e c fa fb p.slotA p.slotB (p.poisonA || p.poisonB) [])

/-! ### MXDRAIN (R242, R367) -/

/-- acc · S / 256, exactly. -/
def scaledElem (acc scale : Half) : FVal :=
  ((fp32.decode acc.toNat).mul (fp32.decode scale.toNat)).mul (.fin false 1 (-8))

/-- One element drained into the output format, with flags (R242, R238). -/
def drainElem (x : Tile) (o : Slot) (r n : Nat) : Nat × BitVec 5 :=
  if !x.int then
    match floatFmt o.efmt with
    | some f => let v := scaledElem (x.at' r n) (x.scale n); ((f.ofVal o.rmode v).saturate f o.sat v.isFin).both
    | none => (0, 0)
  else
    let z := (x.at' r n).toInt
    match floatFmt o.efmt with
    | some f => (f.ofIntVal o.rmode o.sat z).both
    | none =>
      if o.efmt = 5 then
        if o.sat then let y := clampRes 8 z; (y.1.toNat, y.2) else ((ofInt 8 z).toNat, 0)
      else ((ofInt 32 z).toNat, 0)

/-- Formats a tile drains to. -/
def drainOk (int : Bool) (efmt : Nat) : Bool := efmt = 2 || efmt = 3 || efmt = 4 || (int && (efmt = 5 || efmt = 0xA))

/-- Row r as bytes in one number, with flags. -/
def drainRow (x : Tile) (o : Slot) (r n : Nat) : Nat × BitVec 5 :=
  (List.range n).foldl (fun (y : Nat × BitVec 5) j =>
    let (v, f) := drainElem x o r j
    (y.1 + v * 2 ^ (elemBits o.efmt * j), y.2 ||| f)) (0, 0)

/-- Rows from `r` on, `fuel` of them: the state and the end it comes to, if any. -/
def drainRows (s : State) (e : EngWho) (c : Mxdrain) (x : Tile) (o : Slot) (base : Word) (r : Nat) : Nat → State × Option (BitVec 8)
  | 0 => (s, none)
  | fuel + 1 =>
    let n := c.nm1.toNat + 1
    let len := n * (elemBits o.efmt / 8)
    let (v, f) := drainRow x o r n
    let at' := base + BitVec.ofNat 64 (r * c.rstr.toNat)
    let step (s : State) : State := s.modProgress e.core e.ctx e.tl fun p =>
      { p with pos := r + 1, flags := p.flags ||| cmdFlags f }
    if c.dst = 2 then
      match s.engStoreRange e at' len v x.poison 8 with
      | .ok s _ _ => drainRows (step s) e c x o base (r + 1) fuel
      | .fault s r => (s, some r.kind)
      | .wait s => (s, none)
    else drainRows (step (s.putSpBytes e.core at'.toNat len v x.poison)) e c x o base (r + 1) fuel

/-- MXDRAIN (R367). The release of a ring drain publishes what the core has written and the writes of its stream (R216, R363). -/
def execMxdrain (c : Mxdrain) (s : State) : Host.Outcome State Fault Refusal :=
  .next (s.onMatrix c.ctl fun s e q =>
    let o := s.slotOf q.launch c.slo.toNat
    let (m, n) := (c.mm1.toNat + 1, c.nm1.toNat + 1)
    let eo := elemBits o.efmt / 8
    let cc := s.coreCtx e.core e.ctx
    let ir := ringIndex c.ctl c.ro
    let ring := cc.ring ir
    let span := (m - 1) * c.rstr.toNat + n * eo
    let x := (s.core e.core).tile c.tile
    let p := cc.progress e.tl
    let slot := ring.slot ring.take.toNat
    let bad := o.malformed || c.dst = 3 || c.rstr.toNat % 4 ≠ 0 ||
      (c.dst = 0 && !q.inTeam c.addr.toNat span) || (c.dst = 1 && c.addr ≠ 0) ||
      (c.dst = 2 && !canonical c.addr)
    if bad then s.badCmd e
    else if !drainOk x.int o.efmt then s.done e stRefused 1
    else if c.rstr.toNat < n * eo then s.badCmd e
    else if c.dst = 1 && !p.begun && (s.sp e.core ring.header).full then s
    else
      let s := s.modProgress e.core e.ctx e.tl fun p => { p with begun := true }
      let base : Word := if c.dst = 1 then BitVec.ofNat 64 (slot + 64) else c.addr
      let left := m - p.pos
      let (s, stop) := drainRows s e c x o base p.pos (if s.eng.units = 0 then left else min left s.eng.units)
      match stop with
      | some k => s.done e stFault k.toNat
      | none =>
        let p := (s.coreCtx e.core e.ctx).progress e.tl
        if p.pos < m then s
        else
          let s := if c.dst = 1 then ((s.raiseCore e.core (max48 p.ts ((s.coreCtx e.core e.ctx).tlts.toList.getD e.tl 0))).setTag e.core ring.header true).putRing
              e.core e.ctx ir ring.next else s
          let s := if c.clr then s.setTile e.core c.tile (((s.core e.core).tile c.tile).clear x.int) else s
          let s := s.done e stOk 0
          if c.dst = 1 then s.feWake else s)

/-! ### MXDADD and MXARM (R242, R368, R369) -/

/-- The tile of a context on a core: in the engine, or saved while another context has it. -/
def State.tileOf (s : State) (core : BitVec 10) (ctx : BitVec 12) (t : BitVec 3) : Tile :=
  let r := s.core core
  if r.owner = some ctx then r.tile t
  else
    match (s.coreCtx core ctx).saved with
    | some v => v.toList.getD t.toNat (Tile.zero false)
    | none => Tile.zero false

/-- MXDADD (R368): the contribution is sent, and the command waits until it has been added or staged. -/
def execMxdadd (c : Mxdadd) (s : State) : Host.Outcome State Fault Refusal :=
  .next (s.onMatrix c.ctl fun s e q =>
    let p := (s.coreCtx e.core e.ctx).progress e.tl
    let x := (s.core e.core).tile c.tile
    if p.begun then s
    else if 767 < c.tcore.toNat || !s.sch.teams.any (fun t => t.core = c.tcore && 0 < t.alive && (s.launch t.launch).ctx = e.ctx) then
      s.done e stRefused 4
    else if (s.tileOf c.tcore e.ctx c.tt).int ≠ x.int then s.done e stRefused 1
    else
      let (s, n) := s.stamp
      let r := s.core c.tcore
      let y : Contribution := ⟨q.cluster, e.core, c.ctl.ectx, c.tt, x.poison, x.int, c.mm1.toNat + 1, c.nm1.toNat + 1, x.data, x.scales,
        q.num, n, c.tcx, e.ctx⟩
      (s.setCore c.tcore { r with arriving := r.arriving ++ [y] }).modProgress e.core e.ctx e.tl fun p =>
        { p with begun := true })

/-- One element of a contribution added, with flags. -/
def addElem (y : Contribution) (acc : Half) (r n : Nat) : Half × BitVec 5 :=
  let v := Tab.get 0 y.elems (64 * r + n)
  if y.int then chunkInt acc v.toInt
  else
    let z := fp32.ofVal .rne ((fp32.decode acc.toNat).add .rne (scaledElem v ((Tab.get none y.scales n).getD scaleNone)))
    (BitVec.ofNat 32 z.val, z.flags)

/-- A contribution added into a tile. -/
def Tile.addIn (x : Tile) (y : Contribution) : Tile × BitVec 5 :=
  let (x, f) := (List.range y.m).foldl (fun z r =>
    (List.range y.n).foldl (fun (z : Tile × BitVec 5) n =>
      let (v, f) := addElem y (z.1.at' r n) r n
      (z.1.put r n v, z.2 ||| f)) z) (x, 0)
  ({ x with poison := x.poison || y.poison }, f)

/-- Ascending source, then core (R369). -/
def Contribution.before (a b : Contribution) : Bool := a.source < b.source || (a.source = b.source && a.core.toNat ≤ b.core.toNat)

/-- The command stream of the target context that the contribution is ordered against is between two commands, or in an MXARM. -/
def State.mayAdd (s : State) (core : BitVec 10) (y : Contribution) : Bool :=
  match (s.coreCtx core y.ctx).head (b2n y.tcx) with
  | some c => !c.started || bits c.w0 63 56 = 6
  | none => true

/-- MXDADD_CONTRIBUTION: contribution `ev.b` that has reached core `ev.a` is added to its tile, or staged if the tile is armed as ordered
(R242, R364, R368, R369). -/
def execMxdaddContribution (s : State) : Host.Outcome State Fault Refusal :=
  .next (
    let core := BitVec.ofNat 10 s.ev.a
    let r := s.core core
    match r.arriving[s.ev.b]? with
    | none => s
    | some y =>
      if s.suspended y.ctx || !s.serves core y.ctx || !s.mayAdd core y then s
      else
        let s := s.engage core y.ctx
        let r := s.core core
        let x := r.tile y.tile
        let s := s.setCore core { r with arriving := r.arriving.eraseIdx s.ev.b }
        let fin (s : State) (f : BitVec 5) : State := s.done { core := y.core, ctx := y.ctx, tl := b2n y.ectx } stOk 0 f
        if x.armed && x.ordered then
          let r := s.core core
          let staged := r.staged ++ [y]
          let mine := staged.filter fun z => z.tile = y.tile
          let x := { x with got := x.got + 1 }
          if x.got < x.want then fin ((s.setCore core { r with staged := staged }).setTile core y.tile x) 0
          else
            let (x, f) := (mine.sortBy Contribution.before).foldl (fun (z : Tile × BitVec 5) c =>
              let (t, g) := z.1.addIn c
              (t, z.2 ||| g)) (x, 0)
            let s := (s.setCore core { r with staged := staged.filter fun z => z.tile ≠ y.tile }).setTile core y.tile x
            -- the flags of the sums are the MXARM's
            let s := (List.range 2).foldl (fun s t =>
              match (s.coreCtx core y.ctx).head t with
              | some c => if c.started && bits c.w0 63 56 = 6 && bits c.w0 53 51 = y.tile.toNat then
                  s.modProgress core y.ctx t fun p => { p with flags := p.flags ||| cmdFlags f } else s
              | none => s) s
            fin s 0
        else
          let (x, f) := x.addIn y
          let x := if x.armed then { x with got := x.got + 1 } else x
          fin (s.setTile core y.tile x) f)

/-- MXARM (R369): it arms the tile, and completes when its contributions have been added. -/
def execMxarm (c : Mxarm) (s : State) : Host.Outcome State Fault Refusal :=
  .next (s.onMatrix c.ctl fun s e _ =>
    let nc := c.ncm1.toNat + 1
    let r := s.core e.core
    let x := r.tile c.tile
    if c.ordr && 16 < nc then s.badCmd e
    else if !((s.coreCtx e.core e.ctx).progress e.tl).begun then
      if x.armed || (c.ordr && r.staging < nc) then s
      else
        let s := s.setCore e.core { r with staging := if c.ordr then r.staging - nc else r.staging }
        (s.setTile e.core c.tile { x with armed := true, ordered := c.ordr, want := nc, got := 0 }).modProgress e.core e.ctx e.tl
          fun p => { p with begun := true }
    else if x.got < x.want then s
    else
      let s := s.setCore e.core { r with staging := if c.ordr then r.staging + nc else r.staging }
      (s.setTile e.core c.tile { x with armed := false, ordered := false, want := 0, got := 0 }).done e stOk 0)

/-! ### The change of context (R364) -/

/-- Neither engine context has a matrix command in progress, and no tile is armed (R364). -/
def State.atBoundary (s : State) (core : BitVec 10) : Bool :=
  let r := s.core core
  match r.owner with
  | none => true
  | some ctx => !((s.coreCtx core ctx).q0.any fun c => c.started) && !r.tiles.toList.any fun t => t.armed

/-- ENGINE_CONTEXT_SWITCH: the matrix engine of core `ev.a` passes to context `ev.b` (R364). -/
def execEngineContextSwitch (s : State) : Host.Outcome State Fault Refusal :=
  .next (
    let core := BitVec.ofNat 10 s.ev.a
    let ctx := BitVec.ofNat 12 s.ev.b
    if 768 ≤ s.ev.a || (s.core core).owner = some ctx || !s.atBoundary core || s.suspended ctx then s
    else (s.saveTiles core).loadTiles core ctx)

end Sys2Proof.Machine
end

