-- ==== Sys2Proof/Machine/Copy.lean ====
section
/-! DEFINITION. The copy engine: CPY, CPYG, CPYS and CPFILL (18_isa_engines_system.md, R371 to R373), stencils and surfaces (R82, R83, R376,
R377), and SWEEP (R378, R379). -/

namespace Sys2Proof.Machine

/-! ### Spaces (R371) -/

/-- A word of one of the four spaces: global VA, core scratchpad, cluster, chip scratchpad. -/
inductive Place
  | mem (va : Word)
  | sp (core : BitVec 10) (byte : Nat)
  | chip (byte : Nat)
  deriving DecidableEq, Repr

/-- The group that pushed a command, as far as its reach goes. -/
def Cmd.asGroup (c : Cmd) : Group :=
  { Group.blank with
    core := c.core, slot := c.slot, ctx := c.ctx, launch := c.launch, team := c.team, spbase := c.spbase, spbytes := c.spbytes }

/-- Byte address of a field that holds bits [50:2]. -/
def fieldAddr (space : BitVec 2) (f : BitVec 49) : Word :=
  if space = 0 then vaOf (4 * f.toNat) else BitVec.ofNat 64 (4 * f.toNat)

/-- The word at an address of a space, or none where it breaks a rule. -/
def State.placeOf (s : State) (c : Cmd) (space : BitVec 2) (a : Word) : Option Place :=
  match space.toNat with
  | 0 => some (.mem a)
  | 1 => if c.inTeam a.toNat 4 then some (.sp c.core a.toNat) else none
  | 2 => (s.clusterReach c.asGroup a).map fun p => .sp (placeCore p) (4 * placeWord p)
  | _ => (s.chipReach c.asGroup a).map fun p => .chip (4 * p)

/-- Every word of a range has a place; the addresses of a global range are looked at one by one as they are reached. -/
def State.rangeOk (s : State) (c : Cmd) (space : BitVec 2) (a : Word) (words : Nat) : Bool :=
  space = 0 || (List.range words).all fun i => (s.placeOf c space (a + BitVec.ofNat 64 (4 * i))).isSome

/-- `n` bytes read at a place, within one word or one aligned element. -/
def State.placeLoad (s : State) (e : EngWho) (p : Place) (n : Nat) : EngAcc :=
  match p with
  | .mem va => s.engLoad e va n
  | .sp c b => let (v, q) := s.spBytes c b n; .ok s v q
  | .chip b =>
    let (w, q) := (s.xword (b / 4), decide (b / 32 ∈ s.coh.xpoison))
    .ok s (w.toNat / 2 ^ (8 * (b % 4)) % 2 ^ (8 * n)) q

def Place.byte : Place → Nat
  | .mem va => va.toNat
  | .sp _ b => b
  | .chip b => b

/-- A sector of the chip scratchpad poisoned or not. -/
def State.setXpoison (s : State) (k : Nat) (b : Bool) : State :=
  { s with coh := { s.coh with xpoison := putSector k b s.coh.xpoison } }

/-- Where engine writes go, a store at a time (R106, R208): a line of memory, a scratchpad word, a sector of the chip scratchpad, or a block of a
coded surface. -/
inductive Target
  | line (va : Word)
  | word (core : BitVec 10) (i : Nat)
  | sector (k : Nat)
  | block (base md : Word) (k : Nat)
  deriving DecidableEq, Repr

/-- The target of a place, and the bit in it. -/
def Place.target : Place → Target × Nat
  | .mem va => (.line (va - BitVec.ofNat 64 (va.toNat % 128)), 8 * (va.toNat % 128))
  | .sp c b => (.word c (b / 4), 8 * (b % 4))
  | .chip b => (.sector (b / 32), 8 * (b % 32))

/-- The physical line, for a comparison of targets that two addresses may name. -/
def State.sameTarget (s : State) (e : EngWho) (a b : Target) : Bool :=
  match a, b with
  | .line x, .line y =>
    match s.translate e.waiter e.ctx x .load, s.translate e.waiter e.ctx y .load with
    | .ok p _ _, .ok q _ _ => p / 128 = q / 128
    | _, _ => false
  | _, _ => a = b

/-- Values of `w` bits each for one target: the bit each begins at, the value, and its poison. -/
abbrev Writes := List (Nat × Nat × Bool)

/-- The values put into what is there. -/
def Writes.onto {n : Nat} (w : Nat) (l : Writes) (old : BitVec n) : BitVec n :=
  l.foldl (fun d x => setBits d (x.1 + w - 1) x.1 x.2.1) old

/-- The bits that they write. -/
def Writes.cover (n w : Nat) (l : Writes) : BitVec n := l.foldl (fun d x => setBits d (x.1 + w - 1) x.1 (2 ^ w - 1)) 0

/-- The bytes that they touch. -/
def Writes.bytes (w : Nat) (l : Writes) : BitVec 128 :=
  l.foldl (fun m x => m ||| byteMask (x.1 / 8) (max 1 (w / 8))) 0

/-- The sectors of a line that a poisoned value goes to. -/
def Writes.sectors (l : Writes) : BitVec 4 := l.foldl (fun m x => if x.2.2 then m ||| BitVec.ofNat 4 (2 ^ (x.1 / 256)) else m) 0

def Writes.poisoned (l : Writes) : Bool := l.any fun x => x.2.2

/-- First byte touched, and how many bytes there are from it to the last. -/
def Writes.span (w : Nat) (l : Writes) : Nat × Nat :=
  let lo := l.foldl (fun m x => min m (x.1 / 8)) 127
  let hi := l.foldl (fun m x => max m ((x.1 + w - 1) / 8)) 0
  (lo, hi + 1 - lo)

/-- Bytes of the scratchpad word after the values, with its poison: poisoned data poisons it, clean data that covers it whole clears it (R106). -/
def SpWord.written (x : SpWord) (w : Nat) (l : Writes) : SpWord :=
  { x with data := l.onto w x.data, poison := l.poisoned || (x.poison && l.cover 32 w ≠ BitVec.allOnes 32) }

/-- Values written to a line, a word or a sector as one store; of a byte that 4-bit values cover by half the other half is read first. -/
def State.putLine (s : State) (e : EngWho) (va : Word) (w : Nat) (l : Writes) : EngAcc :=
  let (lo, n) := l.span w
  let at' := va + BitVec.ofNat 64 lo
  let store (s : State) (old : Nat) : EngAcc :=
    s.engStoreMask e at' n (l.onto w (placeBytes lo old)) (l.bytes w) l.sectors
  if w = 4 then
    match s.engLoad e at' n with
    | .ok s old _ => store s old
    | x => x
  else store s 0

def State.writeSector (s : State) (k w : Nat) (l : Writes) : State :=
  let old := (List.range 8).foldr (fun i v => (s.xword (8 * k + i)).toNat + 2 ^ 32 * v) 0
  let d := (l.onto w (BitVec.ofNat 256 old)).toNat
  let s := (List.range 8).foldl (fun s i => s.setXword (8 * k + i) (BitVec.ofNat 32 (d / 2 ^ (32 * i)))) s
  if l.poisoned then s.setXpoison k true else if l.cover 256 w = BitVec.allOnes 256 then s.setXpoison k false else s

/-- How the gathering of elements ended: all read, waiting, or a fault. -/
inductive Gathered
  | all | wait
  | fault (kind : BitVec 8)
  deriving DecidableEq, Repr

/-- How a copy reads and writes: word i of the source, and where word i goes; where it comes from, if from a place that a word before it may
have been written to. -/
structure Copying where
  src : State → Nat → EngAcc
  dst : State → Nat → Option Place
  from' : State → Nat → Option Place := fun _ _ => none

/-- Words from word i on that go to one target, at most `n`. A word that one before it replaces is read as that one leaves it (R372). -/
def gatherWords (k : Copying) (e : EngWho) (t : Target) (s : State) (i : Nat) (got : Writes) : Nat → State × Writes × Gathered
  | 0 => (s, got, .all)
  | n + 1 =>
    match k.dst s i with
    | none => (s, got, .all)
    | some p =>
      if p.target.1 ≠ t then (s, got, .all)
      else
        match k.src s i with
        | .fault s r => (s, got, .fault r.kind)
        | .wait s => (s, got, .wait)
        | .ok s v q =>
          let past : Writes :=
            match k.from' s i with
            | none => []
            | some x => if got.isEmpty || !s.sameTarget e x.target.1 t then [] else got.filter fun y => y.1 / 256 = x.target.2 / 256
          let v := match past.find? fun y => (k.from' s i).any fun x => y.1 = x.target.2 with
            | some y => y.2.1
            | none => v
          gatherWords k e t s (i + 1) (got ++ [(p.target.2, v, q || past.poisoned)]) n

/-- Words written to their target as one store. -/
def State.putWords (s : State) (e : EngWho) (t : Target) (l : Writes) : EngAcc :=
  if l.isEmpty then .ok s 0 false
  else
    match t with
    | .line va => s.putLine e va 32 l
    | .word c i => .ok (s.putSp c i ((s.sp c i).written 32 l)) 0 false
    | .sector k => .ok (s.writeSector k 32 l) 0 false
    | .block .. => .ok s 0 false

/-- Words from the position reached on, a target at a time, until `units` of them are done; `n` words in all: the state, and the fault that
ended it. -/
def copyWords (k : Copying) (e : EngWho) (n : Nat) (s : State) (units : Nat) : Nat → State × Option (BitVec 8)
  | 0 => (s, none)
  | fuel + 1 =>
    let i := ((s.coreCtx e.core e.ctx).progress e.tl).pos
    if n ≤ i || units = 0 then (s, none)
    else
      match k.dst s i with
      | none => (s, some 2)
      | some p =>
        let (s, r, x) := gatherWords k e p.target.1 s i [] (n - i)
        match s.putWords e p.target.1 r with
        | .fault s f => (s, some f.kind)
        | .wait s => (s, none)
        | .ok s _ _ =>
          let s := s.modProgress e.core e.ctx e.tl fun q => { q with pos := q.pos + r.length }
          match x with
          | .all => copyWords k e n s (units - r.length) fuel
          | .wait => (s, none)
          | .fault k => (s, some k)

/-- A copy of `n` words, in one turn or more; a fault ends it, words already written stay (R373). A turn with a bound finishes the line it
has begun (log 2). -/
def State.runCopy (s : State) (e : EngWho) (n : Nat) (k : Copying) : State :=
  let left := n - ((s.coreCtx e.core e.ctx).progress e.tl).pos
  let (s, bad) := copyWords k e n s (if s.eng.units = 0 then left else s.eng.units) left
  match bad with
  | some k => s.done e stFault k.toNat
  | none => if ((s.coreCtx e.core e.ctx).progress e.tl).pos < n then s else s.done e stOk 0

def wordAt (a : Word) (i : Nat) : Word := a + BitVec.ofNat 64 (4 * i)

/-- CPY (R372). -/
def execCpy (c : Cpy) (s : State) : Host.Outcome State Fault Refusal :=
  .next (s.onStream 2 c.ctl fun s e q =>
    let n := c.len.toNat + 1
    let a := fieldAddr c.ssp c.src
    let b := fieldAddr c.dsp c.dsta
    let fresh := ((s.coreCtx e.core e.ctx).progress e.tl).pos = 0
    if fresh && (!s.rangeOk q c.ssp a n || !s.rangeOk q c.dsp b n) then s.badCmd e
    else
      s.runCopy e n
        { src := fun s i => match s.placeOf q c.ssp (wordAt a i) with
            | some p => s.placeLoad e p 4
            | none => .fault s ⟨wordAt a i, 2, 2, false, false, 2, 0⟩
          dst := fun s i => s.placeOf q c.dsp (wordAt b i)
          from' := fun s i => s.placeOf q c.ssp (wordAt a i) })

/-- CPFILL (R372). -/
def execCpfill (c : Cpfill) (s : State) : Host.Outcome State Fault Refusal :=
  .next (s.onStream 2 c.ctl fun s e q =>
    let n := c.len.toNat + 1
    let b := fieldAddr c.dsp c.dsta
    let fresh := ((s.coreCtx e.core e.ctx).progress e.tl).pos = 0
    if fresh && !s.rangeOk q c.dsp b n then s.badCmd e
    else s.runCopy e n { src := fun s _ => .ok s c.pat.toNat false, dst := fun s i => s.placeOf q c.dsp (wordAt b i) })

/-- Word i of a gather of elements of `z` bytes: the index is read once for its element, with the element's first word (R372). -/
def gatherWord (c : Cpyg) (q : Cmd) (e : EngWho) (z : Nat) (s : State) (i : Nat) : EngAcc :=
  let x := match ((s.coreCtx e.core e.ctx).progress e.tl).index with
    | some x => x
    | none => (s.sp q.core (c.idx.toNat + 4 * i / z)).data
  let last := 4 * (i + 1) % z = 0
  let s := s.modProgress e.core e.ctx e.tl fun p => { p with index := some x }
  match s.engLoad e (vaOf (4 * c.base.toNat) + BitVec.ofNat 64 (x.toNat * z + 4 * i % z)) 4 with
  | .ok s v p => .ok (s.modProgress e.core e.ctx e.tl fun p => { p with index := if last then none else some x }) v p
  | r => r

/-- CPYG (R372): elements gathered by index. -/
def execCpyg (c : Cpyg) (s : State) : Host.Outcome State Fault Refusal :=
  .next (s.onStream 2 c.ctl fun s e q =>
    let z := 2 ^ c.esz.toNat
    let ni := c.nim1.toNat + 1
    let base := vaOf (4 * c.base.toNat)
    if c.esz < 2 || 12 < c.esz.toNat || base.toNat % z ≠ 0 || !q.inTeam (4 * c.idx.toNat) (4 * ni) ||
        !q.inTeam (4 * c.dstw.toNat) (z * ni) then s.badCmd e
    else s.runCopy e (ni * z / 4) { src := gatherWord c q e z, dst := fun _ i => some (.sp q.core (4 * c.dstw.toNat + 4 * i)) })

/-! ### Stencil records (R376, R377) -/

structure Stencil where
  base : Word
  val : Bool
  rank : Nat
  fsl : Nat
  space : Nat
  bc : Nat
  surf : Nat
  clean : Bool
  ext : List Nat
  str : List Int
  deriving DecidableEq, Repr

/-- The record in eight words. -/
def Stencil.ofWords (ws : List Word) : Stencil :=
  let w (i : Nat) : Nat := (ws.getD i 0).toNat
  let all := (List.range 8).foldr (fun i v => w i + 2 ^ 64 * v) 0
  let half (off : Nat) : Nat := all / 2 ^ (8 * off) % 2 ^ 32
  { base := ws.getD 0 0
    val := w 1 / 2 ^ 63 = 1
    rank := w 1 / 2 ^ 60 % 8
    fsl := w 1 / 2 ^ 57 % 8
    space := w 1 / 2 ^ 55 % 4
    bc := w 1 / 2 ^ 50 % 32
    surf := w 1 / 2 ^ 38 % 2 ^ 12
    clean := w 1 % 2 ^ 38 = 0 && half 36 = 0 && half 60 = 0
    ext := (List.range 5).map fun d => half (16 + 4 * d)
    str := (List.range 5).map fun d => signedOf 32 (half (40 + 4 * d)) }

/-- Elements of the index space: of the destination record. -/
def Stencil.count (t : Stencil) : Nat := (t.ext.take t.rank).foldl (· * ·) 1

/-- The indices of linear element e, dimension 0 first. -/
def splitIndex : List Nat → Nat → List Nat
  | [], _ => []
  | x :: r, e => e % x :: splitIndex r (e / x)

/-- Element offset of linear index e over the destination's extents. -/
def Stencil.offset (t : Stencil) (ext : List Nat) (src : Bool) (e : Nat) : Int :=
  let idx := splitIndex (ext.take t.rank) e
  (List.range t.rank).foldl (fun (o : Int) d =>
    o + (idx.getD d 0 : Int) * (if src && bit (BitVec.ofNat 5 t.bc) d then 0 else t.str.getD d 0)) 0

/-- The formats admitted. -/
def stencilFmt (f : Slot) : Bool := !f.malformed && (f.efmt = 2 || f.efmt = 3 || f.efmt = 4 || f.efmt = 5 || f.efmt = 6)

/-- R377, for a record that an operation uses. -/
def State.stencilBad (s : State) (ctx : BitVec 12) (launch : Nat) (t dst : Stencil) (src : Bool) : Bool :=
  !t.val || !t.clean || t.rank = 0 || 5 < t.rank || t.rank ≠ dst.rank || !stencilFmt (s.slotOf launch t.fsl) ||
  (src && (List.range t.rank).any fun d => !bit (BitVec.ofNat 5 t.bc) d && t.ext.getD d 0 ≠ dst.ext.getD d 0) ||
  (t.space = 3 && (match s.surface ctx t.surf with
    | .ok _ => false
    | .error _ => true))

/-- Where byte `off` (from BASE) of a record lies, or the fault of an address its space has not. -/
def State.stencilPlace (s : State) (g : Group) (t : Stencil) (off : Int) (n : Nat) (wr : Bool) : Except FRec Place :=
  let a := t.base + ofInt 64 off
  let bad (kd : BitVec 8) (sub : BitVec 4) : Except FRec Place := .error ⟨a, kd, BitVec.ofNat 3 (Nat.log2 n), wr, false, sub, 0⟩
  if a.toNat % n ≠ 0 then bad 1 0
  else
    match t.space with
    | 0 => .ok (.mem a)
    | 1 => if g.spbase.toNat ≤ a.toNat && a.toNat + n ≤ g.spbase.toNat + g.spbytes.toNat then .ok (.sp g.core a.toNat) else bad 2 2
    | 2 => if (s.chipReach g a).isSome then .ok (.chip a.toNat) else bad 2 2
    | _ =>
      match s.surface g.ctx t.surf with
      | .ok (base, size, _, _, _) => if size ≤ a.toNat then bad 2 5 else .ok (.mem (base + a))
      | .error (kd, sub, dec) => .error ⟨a, kd, BitVec.ofNat 3 (Nat.log2 n), wr, false, sub, dec⟩

/-! ### Coded surfaces (R83) -/

/-- The 2 KiB block at `va` read through the context's translation, line by line. -/
def State.readBlock (s : State) (e : EngWho) (va : Word) : Nat → EngAcc
  | 0 => .ok s 0 false
  | n + 1 =>
    match s.engLoad { e with grp := none } va 128 with
    | .ok s v p =>
      match State.readBlock s e (va + 128) n with
      | .ok s r q => .ok s (v + 2 ^ 1024 * r) (p || q)
      | x => x
    | x => x

/-- The decoded block that holds byte `off` of a coded surface: poisoned where the coding does not check. -/
def State.decodeAt (s : State) (e : EngWho) (base md : Word) (off : Nat) : EngAcc :=
  let k := off / 2048
  match s.readBlock e (base + BitVec.ofNat 64 (2048 * k)) 16 with
  | .ok s v p =>
    match s.engLoad { e with grp := none } (md + BitVec.ofNat 64 k) 1 with
    | .ok s m q =>
      match Config.decodeBlock (BitVec.ofNat 16384 v) (BitVec.ofNat 8 m) with
      | some d => .ok s d.toNat (p || q)
      | none => .ok s 0 true
    | x => x
  | x => x

/-- `n` lines from `va`, and a byte at `mb`, looked at before any is written. -/
def State.blockReady (s : State) (e : EngWho) (va mb : Word) : Nat → EngAcc
  | 0 =>
    match s.engXlat e mb 1 .engine with
    | (s, .ok ..) => .ok s 0 false
    | (s, .bad r) => .fault s r
    | (s, .wait) => .wait s
  | n + 1 =>
    match s.engXlat e va 128 .engine with
    | (s, .ok ..) => State.blockReady s e (va + 128) mb n
    | (s, .bad r) => .fault s r
    | (s, .wait) => .wait s

/-- A block written back coded, with its metadata: all of it or nothing (R83). -/
def State.codeAt' (s : State) (e : EngWho) (base md : Word) (off d : Nat) (poison : Bool) : EngAcc :=
  let k := off / 2048
  let (b, m) := Config.codeBlock (BitVec.ofNat 16384 d)
  let va := base + BitVec.ofNat 64 (2048 * k)
  let mb := md + BitVec.ofNat 64 k
  match s.blockReady { e with grp := none } va mb 16 with
  | .ok s _ _ =>
    match s.engStoreRange { e with grp := none, free := true } va 2048 b.toNat poison 17 with
    | .ok s _ _ => s.engStore { e with grp := none, free := true } mb 1 m.toNat false
    | x => x
  | x => x

/-- The coded surface of a record, if it names one: BASE, MDBASE. -/
def State.coded (s : State) (ctx : BitVec 12) (t : Stencil) : Option (Word × Word) :=
  if t.space ≠ 3 then none
  else
    match s.surface ctx t.surf with
    | .ok (base, _, md, _, true) => some (base, md)
    | _ => none

/-! ### Elements -/

/-- Bytes that hold an element. -/
def elemBytes (efmt : Nat) : Nat := max 1 (elemBits efmt / 8)

/-- Byte offset from BASE of the element at element offset o. -/
def elemByte (efmt : Nat) (o : Int) : Int := if efmt = 6 then o / 2 else o * (elemBits efmt / 8 : Nat)

/-- An element's code at linear index e. -/
def State.elemLoad (s : State) (e : EngWho) (g : Group) (t : Stencil) (f : Slot) (o : Int) : EngAcc :=
  let n := elemBytes f.efmt
  let b := elemByte f.efmt o
  let pick (v : Nat) : Nat := if f.efmt = 6 then v / 2 ^ (4 * (o % 2).toNat) % 16 else v
  match s.stencilPlace g t b n false with
  | .error r => .fault s r
  | .ok p =>
    match s.coded g.ctx t with
    | some (base, md) =>
      let off := (t.base + ofInt 64 b).toNat
      match s.decodeAt e base md off with
      | .ok s v q => .ok s (pick (v / 2 ^ (8 * (off % 2048)) % 2 ^ (8 * n))) q
      | x => x
    | none =>
      match s.placeLoad e p n with
      | .ok s v q => .ok s (pick v) q
      | x => x

/-- Where an element of a record goes or comes from: the target and the bit in it. -/
def State.target (s : State) (g : Group) (t : Stencil) (efmt : Nat) (o : Int) (wr : Bool) : Except FRec (Target × Nat) :=
  let b := elemByte efmt o
  let nib := if efmt = 6 then 4 * (o % 2).toNat else 0
  match s.stencilPlace g t b (elemBytes efmt) wr with
  | .error r => .error r
  | .ok p =>
    match s.coded g.ctx t with
    | some (base, md) =>
      let off := (t.base + ofInt 64 b).toNat
      .ok (.block base md (off / 2048), 8 * (off % 2048) + nib)
    | none => .ok (p.target.1, p.target.2 + nib)

/-- Elements of `w` bits written to their target as one store of each line (R83, R106, R208). -/
def State.putElems (s : State) (e : EngWho) (w : Nat) (t : Target) (l : Writes) : EngAcc :=
  if l.isEmpty then .ok s 0 false
  else
    match t with
    | .line va => s.putLine e va w l
    | .word c i => .ok (s.putSp c i ((s.sp c i).written w l)) 0 false
    | .sector k => .ok (s.writeSector k w l) 0 false
    | .block base md k =>
      match s.decodeAt e base md (2048 * k) with
      | .ok s d q => s.codeAt' e base md (2048 * k) (l.onto w (BitVec.ofNat 16384 d)).toNat (q || l.poisoned)
      | x => x

/-- An element of a slot's format as FP32, exact, and NQ (R378). -/
def elemToF32 (f : Slot) (code : Nat) : Nat × BitVec 5 :=
  match floatFmt f.efmt with
  | some g => ((g.convert fp32 .rne false code).val, 0)
  | none =>
    let (z, nq) := if f.efmt = 6 then int4s f.sub4 code else (signedOf 8 code, 0)
    ((fp32.ofIntVal .rne false z).val, nq)

/-- An FP32 value converted into a slot's format (R238). -/
def elemOfF32 (f : Slot) (v : Nat) : Nat × BitVec 5 :=
  match floatFmt f.efmt with
  | some g => (fp32.convert g f.rmode f.sat v).both
  | none => qencValue f (fp32.decode v)

/-! ### CPYS (R372) -/

/-- The eight words of a number. -/
def wordsOf (v n : Nat) : List Word := (List.range n).map fun i => BitVec.ofNat 64 (v / 2 ^ (64 * i))

/-- The number of words. -/
def numberOf (ws : List Word) : Nat := ws.foldr (fun w v => w.toNat + 2 ^ 64 * v) 0

/-- A stencil record read by the engine. -/
def State.readStencil (s : State) (e : EngWho) (f : BitVec 45) : EngAcc := s.engLoad e (vaOf (64 * f.toNat)) 64

/-- Elements of a conversion from element i on that go to one target, at most `n`: the flags they raise, their values, and how it ended. An element
that comes from bits just gathered waits until they are written. -/
def gatherElems (e : EngWho) (g : Group) (dst src : Stencil) (fd fs : Slot) (t : Target) (s : State) (i : Nat) (got : Writes) (fl : BitVec 5) :
    Nat → State × Writes × BitVec 5 × Gathered
  | 0 => (s, got, fl, .all)
  | n + 1 =>
    let so := src.offset dst.ext true i
    let feeds (s : State) : Bool :=
      match s.target g src fs.efmt so false with
      | .ok (u, b) => s.sameTarget e u t && got.any fun x => x.1 < b + elemBits fs.efmt && b < x.1 + elemBits fd.efmt
      | .error _ => false
    match s.target g dst fd.efmt (dst.offset dst.ext false i) true with
    | .error _ => (s, got, fl, .all)
    | .ok (u, b) =>
      if dst.count ≤ i || u ≠ t || (!got.isEmpty && feeds s) then (s, got, fl, .all)
      else
        match s.elemLoad e g src fs so with
        | .fault s r => (s, got, fl, .fault r.kind)
        | .wait s => (s, got, fl, .wait)
        | .ok s v q =>
          let (x, nq) := elemToF32 fs v
          let (y, f) := elemOfF32 fd x
          gatherElems e g dst src fd fs t s (i + 1) (got ++ [(b, y, q)]) (fl ||| nq ||| f) n

/-- Elements from the position reached on, those of one target that follow one another as one write (R208), until `units` of them are done. -/
def copyElems (s : State) (e : EngWho) (g : Group) (dst src : Stencil) (fd fs : Slot) (units : Nat) : Nat → State × Option (BitVec 8)
  | 0 => (s, none)
  | fuel + 1 =>
    let i := ((s.coreCtx e.core e.ctx).progress e.tl).pos
    if dst.count ≤ i || units = 0 then (s, none)
    else
      match s.target g dst fd.efmt (dst.offset dst.ext false i) true with
      | .error r => (s, some r.kind)
      | .ok (t, _) =>
        let (s, l, f, w) := gatherElems e g dst src fd fs t s i [] 0 (dst.count - i)
        match s.putElems e (elemBits fd.efmt) t l with
        | .fault s r => (s, some r.kind)
        | .wait s => (s, none)
        | .ok s _ _ =>
          let s := s.modProgress e.core e.ctx e.tl fun p => { p with pos := p.pos + l.length, flags := p.flags ||| cmdFlags f }
          match w with
          | .all => copyElems s e g dst src fd fs (units - l.length) fuel
          | .wait => (s, none)
          | .fault k => (s, some k)

/-- CPYS (R372): both records are read once, when it starts. -/
def execCpys (c : Cpys) (s : State) : Host.Outcome State Fault Refusal :=
  .next (s.onStream 2 c.ctl fun s e q =>
    let run (s : State) : State :=
      let both := ((s.coreCtx e.core e.ctx).progress e.tl).slotA
      let src := Stencil.ofWords (wordsOf both 8)
      let dst := Stencil.ofWords (wordsOf (both / 2 ^ 512) 8)
      let left := dst.count - ((s.coreCtx e.core e.ctx).progress e.tl).pos
      let (s, bad) := copyElems s e q.asGroup dst src (s.slotOf q.launch dst.fsl) (s.slotOf q.launch src.fsl)
        (if s.eng.units = 0 then left else s.eng.units) left
      match bad with
      | some k => s.done e stFault k.toNat
      | none => if ((s.coreCtx e.core e.ctx).progress e.tl).pos < dst.count then s else s.done e stOk 0
    if ((s.coreCtx e.core e.ctx).progress e.tl).begun then run s
    else
      match s.readStencil e c.sstn with
      | .fault s r => s.done e stFault r.kind.toNat
      | .wait s => s
      | .ok s a _ =>
        match s.readStencil e c.dstn with
        | .fault s r => s.done e stFault r.kind.toNat
        | .wait s => s
        | .ok s b _ =>
          let src := Stencil.ofWords (wordsOf a 8)
          let dst := Stencil.ofWords (wordsOf b 8)
          if s.stencilBad e.ctx q.launch dst dst false || s.stencilBad e.ctx q.launch src dst true then s.badCmd e
          else run (s.modProgress e.core e.ctx e.tl fun p => { p with begun := true, slotA := a + 2 ^ 512 * b }))

/-! ### SWEEP (R378, R379) -/

/-- Source records an operation uses. -/
def sweepSources (op : Nat) : Nat :=
  match op with
  | 0 | 5 | 8 | 9 | 10 => 1
  | 3 => 3
  | _ => 2

/-- The FP32 result of an operation. -/
def sweepOp (op : Nat) (x : List Nat) (p q : Nat) : FRes :=
  let v (i : Nat) : Nat := x.getD i 0
  match op with
  | 0 => ⟨v 0, false, false⟩
  | 1 => fp32.addOp .rne false (v 0) (v 1)
  | 2 => fp32.mulOp .rne false (v 0) (v 1)
  | 3 => fp32.fmaOp .rne false (v 0) (v 1) (v 2)
  | 4 =>
    let a := fp32.mulOp .rne false p (v 0)
    let b := fp32.mulOp .rne false q (v 1)
    let r := fp32.addOp .rne false a.val b.val
    ⟨r.val, a.of || b.of || r.of, a.uf || b.uf || r.uf⟩
  | 5 => fp32.fmaOp .rne false p (v 0) q
  | 6 => ⟨fp32.minMax true (v 0) (v 1), false, false⟩
  | 7 => ⟨fp32.minMax false (v 0) (v 1), false, false⟩
  | 8 => ⟨fp32.minMax true (v 0) 0, false, false⟩
  | 9 => exp2Op false (v 0)
  | _ => tanhOp (v 0)

/-- What came of the elements of a beat. -/
structure BeatRes where
  s : State
  /-- Values read, element by element. -/
  vals : List (List Nat)
  flags : BitVec 5
  recs : List (BitVec 7 × FRec)
  wait : Bool

/-- The record of a poisoned element: the address of its sector or scratchpad word (R112). -/
def State.poisonAt (s : State) (g : Group) (t : Stencil) (off : Int) (n : Nat) : FRec :=
  let a : Nat := match s.stencilPlace g t off n false with
    | .ok (.mem va) => va.toNat / 32 * 32
    | .ok (.sp _ b) => b / 4 * 4
    | .ok (.chip b) => b / 32 * 32
    | .error r => r.addr.toNat
  ⟨BitVec.ofNat 64 a, 4, BitVec.ofNat 3 (Nat.log2 n), false, false, 0, 0⟩

/-- The sources of elements e.. read, `n` elements. -/
def sweepRead (e : EngWho) (g : Group) (dst : Stencil) (srcs : List (Stencil × Slot)) (first n : Nat) (r : BeatRes) : BeatRes :=
  (List.range n).foldl (fun (r : BeatRes) j =>
    let step (z : BeatRes × List Nat) (sf : Stencil × Slot) : BeatRes × List Nat :=
      let (r, xs) := z
      match r.s.elemLoad e g sf.1 sf.2 (sf.1.offset dst.ext true (first + j)) with
      | .ok s v q =>
        if q then
          -- poison that a scratchpad or a coded block delivers is consumed by the group (R107)
          let f := r.s.poisonAt g sf.1 (elemByte sf.2.efmt (sf.1.offset dst.ext true (first + j))) (elemBytes sf.2.efmt)
          ({ r with s := s.consumePoison g.ctx g.core g.slot, recs := r.recs ++ [(BitVec.ofNat 7 ((first + j) % 32), f)] }, xs ++ [0])
        else
          let (x, nq) := elemToF32 sf.2 v
          ({ r with s := s, flags := r.flags ||| nq }, xs ++ [x])
      | .fault s f => ({ r with s := s, recs := r.recs ++ [(BitVec.ofNat 7 ((first + j) % 32), f)] }, xs ++ [0])
      | .wait s => ({ r with s := s, wait := true }, xs ++ [0])
    let (r, xs) := srcs.foldl step (r, [])
    { r with vals := r.vals ++ [xs] }) r

/-- The translation checks of a beat's destination elements, made before any is written. -/
def sweepCheck (e : EngWho) (g : Group) (dst : Stencil) (fd : Slot) (first n : Nat) (r : BeatRes) : BeatRes :=
  (List.range n).foldl (fun (r : BeatRes) j =>
    let o := dst.offset dst.ext false (first + j)
    match r.s.stencilPlace g dst (elemByte fd.efmt o) (elemBytes fd.efmt) true with
    | .error f => { r with recs := r.recs ++ [(BitVec.ofNat 7 ((first + j) % 32), f)] }
    | .ok (.mem va) =>
      let x :=
        match r.s.coded g.ctx dst with
        | some (base, md) =>
          let k := (dst.base + ofInt 64 (elemByte fd.efmt o)).toNat / 2048
          r.s.blockReady { e with grp := none } (base + BitVec.ofNat 64 (2048 * k)) (md + BitVec.ofNat 64 k) 16
        | none =>
          match r.s.engXlat e va (elemBytes fd.efmt) .store with
          | (s, .ok ..) => .ok s 0 false
          | (s, .bad f) => .fault s f
          | (s, .wait) => .wait s
      match x with
      | .ok s _ _ => { r with s := s }
      | .fault s f => { r with s := s, recs := r.recs ++ [(BitVec.ofNat 7 ((first + j) % 32), f)] }
      | .wait s => { r with s := s, wait := true }
    | .ok _ => r) r

/-- One byte as the group would see it, read without consuming poison: the half of a 4-bit element's byte that is kept. -/
def State.oldByte (s : State) (e : EngWho) (g : Group) (va : Word) : Nat :=
  match s.translate e.waiter e.ctx va .load with
  | .ok pa mt _ =>
    let d := match s.smHit g (laneNow va pa mt false 0) with
      | some x => x.data
      | none => s.ownBytes g (pa / 128) (s.freshLine (pa / 128)).1
    lineBytes d (pa % 128) 1
  | _ => 0

/-- A beat's stores to memory: address, bytes and value of each; 4-bit elements of one byte are one store. -/
def beatStores (s : State) (e : EngWho) (g : Group) (w : Nat) (l : List (Word × Nat × Nat)) : List (Word × Nat × Nat) :=
  if w ≠ 4 then l.map fun x => (x.1, w / 8, x.2.2)
  else
    (l.map fun x => x.1).eraseDups.map fun va =>
      let h := (l.filter fun x => x.1 = va).map fun x => x.2
      let old : BitVec 8 := if h.any (fun x => x.1 = 0) && h.any fun x => x.1 = 4 then 0 else BitVec.ofNat 8 (s.oldByte e g va)
      (va, 1, (h.foldl (fun d x => setBits d (x.1 + 3) x.1 x.2) old).toNat)

/-- They are one coalesced access (R194): its lanes. -/
def beatLanes (s : State) (e : EngWho) (l : List (Word × Nat × Nat)) : List LaneAcc :=
  l.filterMap fun x =>
    match s.translate e.waiter e.ctx x.1 .store with
    | .ok pa mt co => some (laneNow x.1 pa mt co 0)
    | _ => none

/-- The stores made; every one has been checked. -/
def storeBeat (e : EngWho) (s : State) (l : List (Word × Nat × Nat)) : State :=
  let peers := beatLanes s e l
  l.foldl (fun s x =>
    match s.engStoreAs { e with free := true } x.1 x.2.1 x.2.2 0 peers with
    | .ok s _ _ => s
    | .fault s _ => s
    | .wait s => s) s

/-- Elements for targets that are not plain memory, target by target; `fuel` bounds the targets. -/
def putBeat (e : EngWho) (w : Nat) (s : State) (l : List (Target × Nat × Nat)) : Nat → State
  | 0 => s
  | fuel + 1 =>
    match l with
    | [] => s
    | x :: _ =>
      let mine : Writes := (l.filter fun y => y.1 = x.1).map fun y => (y.2.1, y.2.2, false)
      let s := match s.putElems { e with grp := none, free := true } w x.1 mine with
        | .ok s _ _ => s
        | .fault s _ => s
        | .wait s => s
      putBeat e w s (l.filter fun y => y.1 ≠ x.1) fuel

/-- The results of a beat written; every store has been checked. -/
def sweepWrite (e : EngWho) (g : Group) (dst : Stencil) (fd : Slot) (op p q first : Nat) (vals : List (List Nat)) (s : State) :
    State × BitVec 5 :=
  let w := elemBits fd.efmt
  let res := vals.map fun x =>
    let r := sweepOp op x p q
    let (y, f) := elemOfF32 fd r.val
    (y, r.flags ||| f)
  let out : List (Target × Nat × Nat) := (List.range vals.length).filterMap fun j =>
    match s.target g dst fd.efmt (dst.offset dst.ext false (first + j)) true with
    | .ok (t, b) => some (t, b, (res.getD j (0, 0)).1)
    | .error _ => none
  let mem : List (Word × Nat × Nat) := out.filterMap fun x => match x.1 with
    | .line va => some (va + BitVec.ofNat 64 (x.2.1 / 8), x.2.1 % 8, x.2.2)
    | _ => none
  let s := storeBeat e s (beatStores s e g w mem)
  let s := putBeat e w s (out.filter fun x => match x.1 with
    | .line _ => false
    | _ => true) out.length
  (s, res.foldl (fun f x => f ||| x.2) 0)

/-- First record of each element that faulted. -/
def firstRecs : List (BitVec 7 × FRec) → List (BitVec 7 × FRec)
  | [] => []
  | x :: r => x :: (firstRecs r).filter fun y => y.1 ≠ x.1

/-- The sweep is over: its last stores are sent, and awaited, so that they are performed before the next instruction issues. -/
def State.endSweep (s : State) (w : RR) (n : Nat) : State :=
  let s := s.setCur (s.cur.putS w.d (BitVec.ofNat 64 n))
  let s := if s.cur.wc.any fun b => decide (0 ∈ b.ids) then s.sendWc s.cur.core s.cur.slot else s
  if s.storeHeld s.cur 0 then s.pause else (s.setCur { s.cur with sweep := none }).retire w.ctl 1 (.s (BitVec.ofNat 64 n))

/-- One beat, from element `i` on; the sweep goes on from D at the group's next turn at the port. -/
def sweepBeat (w : RR) (e : EngWho) (dst : Stencil) (fd : Slot) (srcs : List (Stencil × Slot)) (op p q i : Nat) (s : State) : State :=
  let n := dst.count
  if n ≤ i then s.endSweep w n
  else
    let m := min 32 (n - i)
    let g := s.cur
    let r := sweepCheck e g dst fd i m (sweepRead e g dst srcs i m ⟨s, [], 0, [], false⟩)
    let reached (s : State) (i : Nat) : State := s.setCur (s.cur.putS w.d (BitVec.ofNat 64 i))
    if r.recs ≠ [] then (reached r.s i).trapLanes (firstRecs r.recs)
    else if r.wait then (reached r.s i).pause
    else
      let (s, f) := sweepWrite e g dst fd op p q i r.vals r.s
      let s := (s.setCur (s.cur.raise (r.flags ||| f))).tick g.core (srcs.length + 1)
      if n ≤ i + 32 then s.endSweep w n else (reached s (i + 32)).pause

/-- SWEEP (R378): it starts once the group's earlier accesses are performed, reads its block as a scalar access, and goes a beat at each of its turns at the port
from S[D]; other groups have the port between beats. -/
def execSweep (w : RR) (s : State) : Host.Outcome State Fault Refusal :=
  let op := w.e.toNat
  .next (issueChecked (.sweep w) s (decide (0xA < op)) fun s =>
    let g := s.cur
    let blk := g.srcS w.a
    let run (s : State) (ws : List Word) : State :=
      let rec' (k : Nat) : Stencil := Stencil.ofWords ((ws.drop (8 * k)).take 8)
      let dst := rec' 0
      let srcs := (List.range (sweepSources op)).map fun k => rec' (k + 1)
      if g.sweep.isNone && (s.stencilBad g.ctx g.launch dst dst false || srcs.any fun t => s.stencilBad g.ctx g.launch t dst true) then
        s.illegalOperand
      else
        let e : EngWho := { core := g.core, ctx := g.ctx, tl := 0, grp := some g.slot, hint := w.ctl.ch }
        let s := s.setCur { s.cur with sweep := some (numberOf ws) }
        sweepBeat w e dst (s.slotOf g.launch dst.fsl) (srcs.map fun t => (t, s.slotOf g.launch t.fsl)) op
          (bits (g.srcS w.b) 31 0) (bits (g.srcS w.c) 31 0) (g.srcS w.d).toNat s
    match g.sweep with
    | some b => run s (wordsOf b 32)
    | none =>
      if g.behind then s.hold
      else if blk.toNat % 64 ≠ 0 then s.trapLanes [(96, ⟨blk, 1, 3, false, false, 0, 0⟩)]
      else State.withWordsAs w.ctl.ch s blk .load 32 run)

end Sys2Proof.Machine
end

