-- ==== Sys2Proof/Machine/Queue.lean ====
section
/-! DEFINITION. Queue registers: QPUT, QGET and QTRY (18_isa_engines_system.md, R357 to R360; 09_core_execution.md, R177 to R179), and the
batch slot behind q7 (08_expert_queues.md, R158). -/

namespace Sys2Proof.Machine

/-- The number of a queue register; 16 where the field names none. -/
def queueReg : Opd → Nat
  | .reg n => n.toNat
  | _ => 16

def isPush (q : Nat) : Bool := q = 0 || q = 2 || q = 4 || q = 8
def isPop (q : Nat) : Bool := q = 1 || q = 3 || q = 5 || q = 7

/-- Commands a push register holds (R177). -/
def pushDepth (q : Nat) : Nat := if q = 0 || q = 2 then 16 else 8

/-- The index of the group's cluster in its grid (R127). -/
def State.clusterIndex (s : State) (g : Group) : Nat :=
  match s.sch.teams.find? fun t => t.key = g.team with
  | some t => t.cluster
  | none => 0

/-- A command accepted: numbered on its timeline, and `sr.tlown` of the group with it (R179, R358). -/
def State.acceptCmd (s : State) (q : Nat) (w0 w1 : Word) : State :=
  let g := s.cur
  let tl := timelineOf q w0
  let k := s.coreCtx g.core g.ctx
  let num := k.accepted.toList.getD tl 0 + 1
  let (s, n) := s.stamp
  let c : Cmd := ⟨num, w0, w1, g.core, g.slot, g.ctx, g.launch, g.spbase, g.spbytes, s.clusterIndex g, g.team, false, n⟩
  let s := s.setCoreCtx g.core g.ctx ({ k with accepted := put8 k.accepted tl num }.setQueue q (k.queue q ++ [c]))
  s.setCur { s.cur with tlown := put8 g.tlown tl num }

/-- QPUT (R357): word 0 is kept, word 1 completes the command. -/
def execQput (w : RR) (s : State) : Host.Outcome State Fault Refusal :=
  let q := queueReg w.d
  .next (issueChecked (.qput w) s (!isPush q) fun s =>
    let g := s.cur
    if pushDepth q ≤ (s.coreCtx g.core g.ctx).depth q then s.hold
    else
      let x := g.srcS w.a
      let key := BitVec.ofNat 4 q
      match g.half.find? fun h => h.1 = key with
      | none => (s.setCur { g with half := g.half ++ [(key, x)] }).doneN w.ctl
      | some h => ((s.setCur { g with half := g.half.erase h }).acceptCmd q h.2 x).doneN w.ctl)

/-! ### Pops (R360) -/

def CoreCtx.popQueue (k : CoreCtx) (q : Nat) : List PopWord := if q = 1 then k.q1 else if q = 3 then k.q3 else k.q5

def CoreCtx.setPop (k : CoreCtx) (q : Nat) (l : List PopWord) : CoreCtx :=
  if q = 1 then { k with q1 := l } else if q = 3 then { k with q3 := l } else { k with q5 := l }

/-- Groups of the context on the core that wait with QGET on the queue, longest wait first. -/
def State.qgetters (s : State) (core : BitVec 10) (ctx : BitVec 12) (q : Nat) : List (BitVec 3) :=
  let l := s.groups.filterMap fun g =>
    match g.wait with
    | some w => (match w.pend with
      | .qget r _ => if g.core = core && g.ctx = ctx && r.toNat = q then some (w.stamp, g.slot) else none
      | _ => none)
    | none => none
  (l.sortBy fun a b => a.1 ≤ b.1).map fun x => x.2

/-- Word i of the queue popped by the group at the port: it acquires the command's writes, and with QGET takes its flags
(R217, R235, R359, R360). -/
def State.popAt (s : State) (q i : Nat) (get : Bool) : State × Word :=
  let g := s.cur
  let k := s.coreCtx g.core g.ctx
  match (k.popQueue q)[i]? with
  | none => (s, 0)
  | some p =>
    let s := s.setCoreCtx g.core g.ctx (k.setPop q ((k.popQueue q).eraseIdx i))
    let s := s.raisePts g.core g.slot p.ts
    let f : BitVec 5 := if q = 5 || !get then 0 else
      (if bit p.word 27 then gsfOF else 0) ||| (if bit p.word 26 then gsfUF else 0) |||
      (if bit p.word 25 then gsfNQ else 0) ||| (if bit p.word 24 then gsfAOV else 0)
    (s.setCur (s.cur.raise f), p.word)

/-! ### Batch words (R158) -/

/-- A batch slot's read that faults sets ERR of the expert queue it belongs to (R403). -/
def State.batchError (s : State) (c : BitVec 12) (va : Word) : State :=
  (s.sch.batches.filter fun x => x.1 / 2 ^ 16 = c.toNat && x.2.any fun y => y.2 = va).foldl (fun s x => s.setErr c (BitVec.ofNat 16 (x.1 % 2 ^ 16))) s

/-- What a read of q7 finds. -/
inductive BatchWord
  | word (s : State) (w : Word)
  | none (s : State)
  /-- The read faulted: ERR is set, and the pop performs nothing (R403). -/
  | fault (s : State)
  | wait (s : State)
  deriving Repr

/-- The next word of the group's batch slot; one whose read faults is not popped (log 22). -/
def State.popBatch (s : State) : BatchWord :=
  let g := s.cur
  match g.batch with
  | .none => .none s
  | some (va, n, k) =>
    if n ≤ k then .none s
    else
      let a := va + BitVec.ofNat 64 (8 * k)
      match s.readVa g.waiter g.ctx a 8 with
      | .ok (s, v) => .word ((s.clearVerdicts g.waiter).setCur { s.cur with batch := some (va, n, k + 1) }) (BitVec.ofNat 64 v)
      | .error x =>
        match s.stall g.waiter g.ctx a x 8 with
        | .fault s .. => .fault (s.batchError g.ctx va)
        | .wait s => .wait s

/-- QGET (R360). -/
def execQget (w : RR) (s : State) : Host.Outcome State Fault Refusal :=
  let q := queueReg w.a
  .next (issueChecked (.qget w) s (!isPop q) fun s =>
    let g := s.cur
    if q = 7 then
      match s.popBatch with
      | .word s x => s.doneS w.ctl w.d x
      | .none s => s.doneS w.ctl w.d 0
      | .fault s => s.doneN w.ctl
      | .wait s => s.pause
    else
      let waiting := s.qgetters g.core g.ctx q
      let rank := (waiting.findIdx? fun x => x = g.slot).getD waiting.length
      if rank < ((s.coreCtx g.core g.ctx).popQueue q).length then
        let (s, x) := s.popAt q rank true
        s.doneS w.ctl w.d x
      else s.block 4 (BitVec.ofNat 64 q) 0 0xFF (.qget (BitVec.ofNat 4 q) w.d.toByte))

/-- QTRY (R360): it takes only a word that no waiting QGET claims. -/
def execQtry (w : RR) (s : State) : Host.Outcome State Fault Refusal :=
  let q := queueReg w.a
  .next (issueChecked (.qtry w) s (!isPop q) fun s =>
    let g := s.cur
    let setC (s : State) (b : Bool) : State := match w.c with
      | .reg n => s.setCur (s.cur.setPred n.toNat b)
      | _ => s
    if q = 7 then
      match s.popBatch with
      | .word s x => (setC s true).doneS w.ctl w.d x
      | .none s => (setC s false).doneS w.ctl w.d 0
      | .fault s => s.doneN w.ctl
      | .wait s => s.pause
    else
      let claimed := (s.qgetters g.core g.ctx q).length
      if claimed < ((s.coreCtx g.core g.ctx).popQueue q).length then
        let (s, x) := s.popAt q claimed false
        (setC s true).doneS w.ctl w.d x
      else (setC s false).doneS w.ctl w.d 0)

end Sys2Proof.Machine
end

