-- ==== Sys2Proof/Machine/Sched.lean ====
section
/-! DEFINITION. The scheduler (07_scheduler_phases.md, R122 to R145): room on a core, carves (R188), placing a cluster, record places,
group switches, picking records, pre-emption and waiting budgets. Events whose condition does not hold change nothing (log 20). -/

namespace Sys2Proof.Machine

/-! ### Lines of physical memory -/

/-- Whole lines of sixteen words written at a physical address. -/
def State.putLines (s : State) (pa : Nat) (ws : List Word) : Nat → State
  | 0 => s
  | n + 1 => State.putLines (s.writePa pa 128 (lineOfWords (ws.take 16))) (pa + 128) (ws.drop 16) n

/-- A line as sixteen words. -/
def wordsOfLine (v : Nat) : List Word := (List.range 16).map fun i => BitVec.ofNat 64 (v / 2 ^ (64 * i))

def State.getLines (s : State) (pa : Nat) : Nat → State × List Word
  | 0 => (s, [])
  | n + 1 =>
    let (s, v, _) := s.readPa pa 128
    let (s, r) := State.getLines s (pa + 128) n
    (s, wordsOfLine v ++ r)

/-! ### Room on a core (R123, R188) -/

def Launch.concurrent (l : Launch) : Bool := l.pcls = 0
/-- Concurrent and parallel launches reserve slots (R124). -/
def Launch.reserves (l : Launch) : Bool := l.pcls ≤ 1

/-- Runs of scratchpad in use on a core: teams, and task groups that run or wait. -/
def State.carves (s : State) (c : BitVec 10) : List (Nat × Nat) :=
  (s.sch.teams.filterMap fun t => if t.core = c then some (t.base, t.bytes) else none) ++
  (s.groups.filterMap fun g => if g.core = c && g.idx = 8 then
    some (g.mswin.toNat, (s.launch g.launch).window + (s.launch g.launch).slices) else none) ++
  (s.sch.saved.filterMap fun g => if g.core = c && g.idx = 8 then
    some (g.mswin.toNat, (s.launch g.launch).window + (s.launch g.launch).slices) else none) ++
  (s.sch.places.filterMap fun p => if p.core = c then p.carve else none)

/-- The lowest multiple of 64 that begins a free gap of `need` bytes (first fit, R188). -/
def State.firstFit (s : State) (c : BitVec 10) (need : Nat) : Option Nat :=
  let used := s.carves c
  let starts := (0 :: used.map fun u => (u.1 + u.2 + 63) / 64 * 64).sortBy fun a b => a ≤ b
  starts.find? fun a => a + need ≤ 196608 && used.all fun u => a + need ≤ u.1 || u.1 + u.2 ≤ a || u.2 = 0 || need = 0

/-- The carve zeroed and tagged full. -/
def State.zeroCarve (s : State) (c : BitVec 10) (base bytes : Nat) : State :=
  let r := s.core c
  s.setCore c { r with spad := r.spad.filter fun x => !(base / 4 ≤ x.1 && x.1 < (base + bytes + 3) / 4) }

/-- Places of a core in use: those of teams, and those of task groups. -/
def State.usedPlaces (s : State) (c : BitVec 10) : List Nat :=
  (s.sch.teams.flatMap fun t => if t.core = c then t.places else []) ++
  (s.groups.filterMap fun g => if g.core = c && g.idx = 8 then g.place.map (·.toNat) else none) ++
  (s.sch.saved.filterMap fun g => if g.core = c && g.idx = 8 then g.place.map (·.toNat) else none) ++
  (s.sch.places.filterMap fun p => if p.core = c && p.idx = 8 then some p.place.toNat else none)

def State.freePlaces (s : State) (c : BitVec 10) : List Nat :=
  (List.range 32).filter fun p => !(p ∈ s.usedPlaces c)

/-- Slots reserved on a core; those of a context that is pre-empted pass to others (R140). -/
def State.reservedSlots (s : State) (c : BitVec 10) : List Nat :=
  s.sch.teams.flatMap fun t => if t.core = c && !s.suspended (s.launch t.launch).ctx then t.reserved else []

def State.slotIdle (s : State) (c : BitVec 10) (n : Nat) : Bool := (s.group? c (BitVec.ofNat 3 n)).isNone

/-- Free group slots of a section: neither held nor reserved (R126). -/
def State.freeSlots (s : State) (sec : Nat) : Nat :=
  (List.range 192).foldl (fun n i =>
    let c := BitVec.ofNat 10 (192 * sec + i)
    let r := s.reservedSlots c
    n + ((List.range 8).filter fun k => s.slotIdle c k && !(k ∈ r)).length) 0

/-- A team of the launch fits on the core (R123). -/
def State.teamFits (s : State) (l : Launch) (c : BitVec 10) : Bool :=
  (s.firstFit c l.need).isSome && l.team ≤ (s.freePlaces c).length &&
  (!l.reserves || (s.reservedSlots c).length + l.team ≤ 8)

/-! ### Groups that start (R128) -/

/-- A group put into an idle slot. -/
def State.addGroup (s : State) (g : Group) : State :=
  let here (x : Group) : Bool := x.core = g.core && x.slot = g.slot && x.life = .none
  if here s.cur then { s with cur := g, parked := s.parked.filter fun x => !here x }
  else { s with parked := s.parked.filter (fun x => !here x) ++ [g] }

/-- Lanes 0..n − 1. -/
def firstLanes (n : Nat) : Mask := BitVec.ofNat 96 (2 ^ n - 1)

/-- The deadline counter at a start (R128, R134). -/
def Launch.deadline (l : Launch) : BitVec 13 := BitVec.ofNat 13 ((l.ymax + 1) * 256)

/-- A group of a launch at its start, in a slot of its team's core. -/
def startGroup (l : Launch) (launch : Nat) (t : Team) (i slot place : Nat) : Group :=
  let em := firstLanes l.nlane
  let g : Group := { Group.blank with
    core := t.core, slot := BitVec.ofNat 3 slot, ctx := l.ctx, life := .running, launch := launch, team := t.key
    idx := BitVec.ofNat 4 i, teamPos := BitVec.ofNat 8 t.pos
    cx := BitVec.ofNat 16 (t.cluster % l.gx), cy := BitVec.ofNat 16 (t.cluster / l.gx % l.gy)
    cz := BitVec.ofNat 16 (t.cluster / (l.gx * l.gy))
    place := some (BitVec.ofNat 5 place)
    mswin := BitVec.ofNat 18 (t.base + 64 * l.spres + i * l.window)
    spbase := BitVec.ofNat 18 t.base, spbytes := BitVec.ofNat 19 (64 * l.spres)
    slices := BitVec.ofNat 18 (t.base + 64 * l.spres + l.team * l.window + i * l.slices)
    slicew := BitVec.ofNat 8 l.slicew
    live := em, em := em, pc := l.entry, dline := l.deadline }
  g.swrite 0 l.argb

/-! ### Placing clusters (R124 to R126, R188) -/

/-- One team placed on a core: carve, places, slots, and its groups, each in its slot where that is idle, else as a ready record. -/
def State.placeTeam (s : State) (k cluster : Nat) (c : BitVec 10) (pos x0 y0 sec : Nat) : State :=
  let l := s.launch k
  let base := (s.firstFit c l.need).getD 0
  let (s, key) := s.stamp
  let free := (List.range 8).filter fun i => !(i ∈ s.reservedSlots c)
  let order := (free.filter fun i => s.slotIdle c i) ++ free.filter fun i => !s.slotIdle c i
  let t : Team := ⟨key, k, cluster, c, pos, x0, y0, l.cw, l.chh, sec, base, l.need, (s.freePlaces c).take l.team,
    if l.reserves then order.take l.team else [], l.team⟩
  let s := s.zeroCarve c base l.need
  let s := { s with sch := { s.sch with teams := s.sch.teams ++ [t] } }
  let s := s.setLaunch k { l with groups := l.groups + l.team }
  (List.range l.team).foldl (fun s i =>
    let p := t.places.getD i 0
    match t.reserved[i]? with
    | some slot =>
      if s.slotIdle c slot then s.addGroup { startGroup l k t i slot p with pts := if l.task then s.sch.partClock else 0 }
      else { s with sch := { s.sch with places := s.sch.places ++
        [(⟨c, BitVec.ofNat 5 p, k, key, BitVec.ofNat 4 i, 0, 0, 0, some (s.clock c), 0, false, none, none, 0,
          Vector.replicate 8 0, 0, [], s.seqCtr, true⟩ : RecPlace)] } }
    | none => { s with sch := { s.sch with places := s.sch.places ++
        [(⟨c, BitVec.ofNat 5 p, k, key, BitVec.ofNat 4 i, 0, 0, 0, some (s.clock c), 0, false, none, none, 0,
          Vector.replicate 8 0, 0, [], s.seqCtr, true⟩ : RecPlace)] } }) s

/-- Sections of SECM in the order they are tried: most free slots, then the lower number (R126). -/
def State.sectionOrder (s : State) (ctx : BitVec 12) : List Nat :=
  let m := s.regBits (Reg.sched ctx.toNat 0) 3 0
  let l := ((List.range 4).filter fun i => m.testBit i).map fun i => (s.freeSlots i, i)
  (l.sortBy fun a b => b.1 < a.1 || (a.1 = b.1 && a.2 ≤ b.2)).map fun x => x.2

/-- Cores of a rectangle, x fastest. -/
def rectCores (sec x0 y0 w h : Nat) : List (BitVec 10) :=
  (List.range (w * h)).map fun i => BitVec.ofNat 10 (192 * sec + 16 * (y0 + i / w) + x0 + i % w)

/-- The lowest row, then column, whose rectangle has room everywhere (R126). -/
def State.findRect (s : State) (l : Launch) (sec : Nat) : Option (Nat × Nat) :=
  ((List.range (13 - l.chh)).flatMap fun y => (List.range (17 - l.cw)).map fun x => (x, y)).find? fun p =>
    (rectCores sec p.1 p.2 l.cw l.chh).all fun c => s.teamFits l c

/-- The next cluster of a launch placed, if it fits. -/
def State.placeCluster (s : State) (k : Nat) : Option State :=
  let l := s.launch k
  match ((s.sectionOrder l.ctx).filterMap fun sec => (s.findRect l sec).map fun p => (sec, p)).head? with
  | none => none
  | some (sec, x0, y0) =>
    let i := l.nextCluster
    let s := (rectCores sec x0 y0 l.cw l.chh).zipIdx.foldl (fun s c => s.placeTeam k i c.1 c.2 x0 y0 sec) s
    some (s.setLaunch k { s.launch k with nextCluster := i + 1 })

/-- All remaining clusters, or none (R124). -/
def State.placeAll (s : State) (k : Nat) : Nat → Option State
  | 0 => some s
  | n + 1 => (s.placeCluster k).bind fun s => State.placeAll s k n

/-- What the distributor can place of a launch now: a concurrent grid whole, else one cluster. -/
def State.tryPlace (s : State) (k : Nat) : Option State :=
  let l := s.launch k
  if l.concurrent then s.placeAll k (l.gx * l.gy * l.gz - l.nextCluster) else s.placeCluster k

/-- Launches with clusters to place, in the order their commands started, none of a context that is pre-empted (R126, R140). -/
def State.toPlace (s : State) : List Nat :=
  let l := s.sch.launches.filter fun x => x.2.unplaced && x.2.ending.isNone && !x.2.finished && !s.suspended x.2.ctx &&
    !(x.2.ctx ∈ s.sch.stopping)
  (l.sortBy fun a b => a.2.stamp ≤ b.2.stamp).map fun x => x.1

/-- The first placement that can be made; a concurrent grid that waits holds back later launches of its context (R125). -/
def State.placeFirst (s : State) (held : List (BitVec 12)) : List Nat → State
  | [] => s
  | k :: r =>
    let l := s.launch k
    if l.ctx ∈ held then State.placeFirst s held r
    else
      match s.tryPlace k with
      | some s => s
      | none => State.placeFirst s (if l.concurrent then l.ctx :: held else held) r

/-- CLUSTER_PLACE (R126). -/
def execClusterPlace (s : State) : Host.Outcome State Fault Refusal := .next (s.placeFirst [] s.toPlace)

/-! ### Record places (R129, R130) -/

/-- Place p of core n (R129). -/
def State.placeAddr (s : State) (c : BitVec 10) (p : Nat) : Nat :=
  s.regBits Reg.prabase 51 27 * 2 ^ 27 + 4096 * (32 * c.toNat + p)

/-- A task record's words (R130). -/
def taskRecord (code frame : Word) (jca rkind csi aff tidx place : Nat) (a1 a2 a3 : Word) (lseq : BitVec 48) (lqh : BitVec 16) : List Word :=
  [code, frame,
   field 32 jca ||| field 30 rkind ||| field 27 csi ||| field 17 aff ||| field 14 tidx ||| field 9 place,
   a1, a2, a3, field 16 lseq.toNat ||| field 0 lqh.toNat, 0]

/-- Register numbers of a carry-set mask, ascending (R98). -/
def maskRegs (m : Word) : List Nat := (List.range 64).filter fun i => bit m i

/-- Words padded with zeros to `n`. -/
def padTo (n : Nat) (l : List Word) : List Word := (l ++ List.replicate n 0).take n

/-- A vector register as 48 words. -/
def vectorWords (v : Lanes) : List Word :=
  (List.range 48).map fun i => (v.toList.getD (2 * i + 1) 0) ++ (v.toList.getD (2 * i) 0)

def vectorOf (ws : List Word) : Lanes :=
  Vector.ofFn fun i : Fin 96 => (ws.getD (i.val / 2) 0).extractLsb' (32 * (i.val % 2)) 32

def stackWords (l : List (BitVec 128)) : List Word :=
  (List.range 8).flatMap fun i =>
    let e : BitVec 128 := l.getD i 0
    [BitVec.ofNat 64 (bits e 63 0), BitVec.ofNat 64 (bits e 127 64)]

/-- The 512 words of a record place (R129). -/
def Group.placeWords (g : Group) (rec : List Word) (smask vmask : Word) : List Word :=
  rec ++ [BitVec.ofNat 64 (bits g.k 63 0), BitVec.ofNat 64 (bits g.k 95 64),
    field 56 g.msdep.toNat ||| field 0 g.preds.toNat, g.sread 60, g.sread 61, g.sread 62, g.sread 59, 0] ++
  stackWords g.mstack ++
  padTo 16 ((maskRegs smask).map fun i => g.sread (BitVec.ofNat 6 i)) ++ List.replicate 16 0 ++
  padTo 384 ((maskRegs vmask).flatMap fun i => vectorWords (g.vread (BitVec.ofNat 6 i))) ++ List.replicate 64 0

/-! ### Group switches (R132, R133, R139) -/

/-- The group at the port leaves its slot: its record goes to its place. `ready` says whether the record is ready at once. -/
def State.switchOut (s : State) (code : Word) (csi : BitVec 3) (jca : Nat) (ready : Bool) : State :=
  let g := s.cur
  let l := s.launch g.launch
  let (sm, vm) := l.cset csi.toNat
  let p : BitVec 5 := match g.place with
    | some p => p
    | none => BitVec.ofNat 5 ((s.freePlaces g.core).headD 0)
  let task := decide (g.idx = 8)
  let r := taskRecord code (g.sread 59) jca 0 csi.toNat g.core.toNat (if task then 0 else g.idx.toNat) p.toNat
    (BitVec.ofNat 64 (bits g.live 63 0)) (BitVec.ofNat 64 (bits g.live 95 64)) 0 l.lseq l.lqh
  let s := s.putLines (s.placeAddr g.core p.toNat) (g.placeWords r sm vm) 32
  let (s, n) := s.stamp
  let due := b2n g.dueViral + 2 * b2n g.dueBudget + 4 * b2n g.dueSpill
  let x : RecPlace := ⟨g.core, p, g.launch, g.team, g.idx, csi, sm, vm, if ready then some (s.clock g.core) else none,
    BitVec.ofNat 64 jca, false, if task then some (g.mswin.toNat, l.window + l.slices) else none, g.batch, g.pts, g.tlown,
    BitVec.ofNat 3 due, g.spills, n, false⟩
  let s := { s with sch := { s.sch with places := s.sch.places ++ [x] } }
  (s.letGo g.core g.slot).setCur { Group.blank with core := g.core, slot := g.slot }

/-- The decrement of PHASE (R132): the record is ready, ends the round, or waits. -/
def State.phaseOut (s : State) (code : Word) (csi : BitVec 3) (jca : Nat) : State :=
  let g := s.cur
  if jca = 0 then s.switchOut code csi 0 true
  else
    let key := synKey g.ctx jca
    let s := s.synIn key
    let c := (s.syn key).val
    if c = 0 then s.switchOut code csi jca true
    else
      let ts := max48 g.pts ((s.syn key).rts + 1)
      let s := s.switchOut code csi jca false
      let s := s.setSyn key ⟨c - 1, ts, ts⟩
      (if c = 1 then s.endRound g.ctx jca else s).synWake key

/-- A ready record has waited RAGE·256 cycles of the core's clock with no slot of the core idle, and may run there (R139). The rule does not say
whose RAGE: here it is that of the context whose record waits (DESIGN CHOICE, log 43). -/
def State.agedRecord (s : State) (c : BitVec 10) : Bool :=
  (List.range 8).all (fun i => !s.slotIdle c i) &&
  s.sch.places.any fun p => p.core = c && !s.suspended (s.launch p.launch).ctx && !((s.launch p.launch).ctx ∈ s.sch.stopping) &&
    (match p.ready with
     | some t =>
       let r := s.regBits (Reg.sched (s.launch p.launch).ctx.toNat 8) 31 16
       decide (256 * max 1 r ≤ (s.clock c - t).toNat)
     | none => false)

/-! ### Records that start (R134, R135, R137) -/

/-- Reserved slots of other teams keep their phase records away: a record of team T whose own reserved slot is idle waits for it. -/
def State.hasOwnIdle (s : State) (p : RecPlace) (slot : Nat) : Bool :=
  s.sch.teams.any fun t => t.key = p.team && t.reserved.any fun i => i ≠ slot && s.slotIdle p.core i

/-- BPRI of the command queue of a launch (R137). -/
def State.launchPri (s : State) (k : Nat) : Nat :=
  let l := s.launch k
  if l.task then 0 else Qw.bpri (s.qword l.ctx l.lqh 0)

/-- The phase record an idle slot takes (R137, 1 and 2). -/
def State.pickPhase (s : State) (c : BitVec 10) (slot : Nat) : Option RecPlace :=
  let ready := s.sch.places.filter fun p => p.core = c && p.ready.isSome && !s.suspended (s.launch p.launch).ctx &&
    !((s.launch p.launch).ctx ∈ s.sch.stopping)
  let age (p : RecPlace) : Nat := (p.ready.getD 0).toNat
  let older (a b : RecPlace) : Bool := age a < age b || (age a = age b && a.place ≤ b.place)
  let mine := ready.filter fun p => s.sch.teams.any fun t => t.key = p.team && decide (slot ∈ t.reserved)
  match (mine.sortBy older).head? with
  | some p => some p
  | none =>
    let l := (ready.filter fun p => !s.hasOwnIdle p slot).map fun p => (s.launchPri p.launch, p)
    ((l.sortBy fun a b => b.1 < a.1 || (a.1 = b.1 && older a.2 b.2)).head?).map fun x => x.2

/-- The launch that serves a task queue: the earliest admitted one that runs and was started from LREC (R136). -/
def State.servingLaunch (s : State) (q : TaskQ) : Option Nat :=
  let l := s.sch.launches.filter fun x => x.2.ctx = q.ctx && x.2.recVa = q.lrec && !x.2.finished && x.2.ending.isNone && x.2.stamp ≠ 0
  ((l.sortBy fun a b => a.2.stamp ≤ b.2.stamp).head?).map fun x => x.1

/-- The lowest-numbered team of a launch on a core. -/
def State.teamOn (s : State) (k : Nat) (c : BitVec 10) : Option Team :=
  ((s.sch.teams.filter fun t => t.launch = k && t.core = c && 0 < t.alive).sortBy fun a b => a.key ≤ b.key).head?

/-- VA of record i of a task queue's ring. -/
def TaskQ.slotVa (q : TaskQ) (i : BitVec 32) : Word := q.base + BitVec.ofNat 64 (64 * (i.toNat % 2 ^ q.logsz))

/-- A word of a task queue's ring as it stands; none where its page is not mapped. -/
def State.ringWord (s : State) (q : TaskQ) (va : Word) : Option Word :=
  (s.leafNow (.queue q.ctx q.qh) q.ctx va).map fun x => (s.peek (Pte.pfn x.2 + va51 va % 2 ^ pageBits x.1)).1

/-- AFF of a task record in memory, as it stands; any core where it cannot be read yet. -/
def State.affOf (s : State) (q : TaskQ) (i : BitVec 32) : Nat :=
  match s.ringWord q (q.slotVa i + 16) with
  | some w => bits w 26 17
  | none => 0x3FF

/-- The first ready record in ring order; one whose AFF excludes every idle core is passed over (R136). -/
def State.pickInOrder (s : State) (c : BitVec 10) (q : TaskQ) : List TaskRec → Option TaskRec
  | [] => none
  | t :: r =>
    let a := s.affOf q t.index
    if a = 0x3FF || a = c.toNat then some t
    else if (List.range 8).any fun i => s.slotIdle (BitVec.ofNat 10 a) i then none
    else State.pickInOrder s c q r

/-- The launch that would run records of a task queue on a core now: it has a team there, and a place and a carve are free (R135, R137). -/
def State.taskLaunch (s : State) (c : BitVec 10) (q : TaskQ) : Option Nat :=
  if s.suspended q.ctx || decide (q.ctx ∈ s.sch.stopping) || Qw.err (s.qword q.ctx q.qh 0) then none
  else
    match s.servingLaunch q with
    | none => none
    | some k =>
      let l := s.launch k
      if (s.teamOn k c).isSome && !(s.freePlaces c).isEmpty && (s.firstFit c (l.window + l.slices)).isSome then some k else none

/-- The ready records of a task queue in ring order. -/
def State.readyTasks (s : State) (q : TaskQ) : List TaskRec :=
  (s.sch.tasks.filter fun t => t.ctx = q.ctx && t.qh = q.qh && t.ready.isSome).sortBy
    fun a b => (a.index - q.rdix).toNat ≤ (b.index - q.rdix).toNat

/-- Task records that have waited RAGE·256 cycles and could run on the core (R139). -/
def State.agedTask (s : State) (c : BitVec 10) : Bool :=
  (List.range 8).all (fun i => !s.slotIdle c i) &&
  s.sch.taskQs.any fun q => (s.taskLaunch c q).isSome &&
    (s.readyTasks q).any fun t =>
      let a := s.affOf q t.index
      let r := s.regBits (Reg.sched t.ctx.toNat 8) 31 16
      (a = 0x3FF || a = c.toNat) && t.ready.any fun u => 256 * max 1 r ≤ (s.clock127 - u).toNat

/-- Does the YIELD of the group at the port switch it out (R139)? -/
def State.yieldSwitches (s : State) : Bool :=
  let g := s.cur
  decide (g.ctx ∈ s.sch.stopping) || ((s.agedRecord g.core || s.agedTask g.core) && g.place.isSome)

/-- A task record the core may run next: its queue, its serving launch, and the record (R136, R137). -/
def State.pickTask (s : State) (c : BitVec 10) : Option (TaskQ × Nat × TaskRec) :=
  let l := s.sch.taskQs.filterMap fun q =>
    match s.taskLaunch c q with
    | none => none
    | some k => (s.pickInOrder c q (s.readyTasks q)).map fun t => (q, k, t)
  let key (x : TaskQ × Nat × TaskRec) : Nat := s.launchPri x.2.1
  let age (x : TaskQ × Nat × TaskRec) : Nat := (x.2.2.ready.getD 0).toNat
  (l.sortBy fun a b => key b < key a || (key a = key b && (age a < age b || (age a = age b && a.2.2.stamp ≤ b.2.2.stamp)))).head?

/-- The registers a record place restores (R134). -/
def Group.fromPlace (g : Group) (ws : List Word) (smask vmask : Word) : Group :=
  let w (i : Nat) : Word := ws.getD i 0
  let live : Mask := BitVec.ofNat 96 ((w 3).toNat + 2 ^ 64 * bits (w 4) 31 0)
  let depth := bits (w 10) 63 56
  let em : Mask := BitVec.ofNat 96 (bits (w 11) 31 0 + 2 ^ 32 * bits (w 12) 31 0 + 2 ^ 64 * bits (w 13) 31 0)
  let g := { g with
    pc := w 0, live := live, em := em &&& live
    k := BitVec.ofNat 96 ((w 8).toNat + 2 ^ 64 * bits (w 9) 31 0)
    preds := BitVec.ofNat 7 (w 10).toNat, msdep := BitVec.ofNat 8 depth
    mstack := (entriesOf ((ws.drop 16).take 16)).take (min depth 8) }
  let g := (maskRegs smask).zipIdx.foldl (fun (g : Group) x => g.swrite (BitVec.ofNat 6 x.1) (w (32 + x.2))) g
  let g := g.swrite 59 (w 14)
  let g := { g with em := em &&& live }
  (maskRegs vmask).zipIdx.foldl (fun (g : Group) x =>
    { g with vregs := g.vregs.set! x.1 (vectorOf ((ws.drop (64 + 48 * x.2)).take 48)) }) g

/-- A phase record starts in the slot (R134); one that a round made ready acquires at `.dev` (R133). -/
def State.startPhase (s : State) (c : BitVec 10) (slot : Nat) (p : RecPlace) : State :=
  let l := s.launch p.launch
  let s := { s with sch := { s.sch with places := s.sch.places.erase p } }
  match s.sch.teams.find? fun t => t.key = p.team with
  | none => s
  | some t =>
    let g0 := startGroup l p.launch t (if p.idx = 8 then 0 else p.idx.toNat) slot p.place.toNat
    let g0 := { g0 with idx := p.idx, dueViral := bit p.due 0, dueBudget := bit p.due 1, dueSpill := bit p.due 2, spills := p.spills }
    if p.fresh then s.addGroup { g0 with pts := if l.task then s.sch.partClock else 0 }
    else
      let (s, ws) := s.getLines (s.placeAddr c p.place.toNat) 32
      let g := { g0 with sregs := Vector.replicate 64 0 }.fromPlace ws p.smask p.vmask
      let g := { g with
        tlown := p.tlown, batch := p.batch
        pts := if p.acquire then max48 p.pts s.sch.partClock else p.pts
        mswin := (match p.carve with
          | some (b, _) => BitVec.ofNat 18 b
          | none => g.mswin)
        slices := (match p.carve with
          | some (b, _) => BitVec.ofNat 18 (b + l.window)
          | none => g.slices) }
      s.addGroup g

/-- A task record starts as a task group (R135), if a place and a carve are free; its read from the ring may wait or fault (R403). -/
def State.startTask (s : State) (c : BitVec 10) (slot : Nat) (q : TaskQ) (k : Nat) (r : TaskRec) : State :=
  let l := s.launch k
  match s.teamOn k c, s.freePlaces c, s.firstFit c (l.window + l.slices) with
  | some t, p :: _, some base =>
    match s.readVaWords (.queue q.ctx q.qh) q.ctx (q.slotVa r.index) 8 with
    | .error x =>
      match s.stall (.queue q.ctx q.qh) q.ctx (q.slotVa r.index) x 64 with
      | .fault s .. => s.setErr q.ctx q.qh
      | .wait s => s
    | .ok (s, ws) =>
      let w (i : Nat) : Word := ws.getD i 0
      let s := { s with sch := { s.sch with tasks := s.sch.tasks.erase r } }
      let left := (s.sch.tasks.filter fun x => x.ctx = q.ctx && x.qh = q.qh).sortBy
        fun a b => (a.index - q.rdix).toNat ≤ (b.index - q.rdix).toNat
      let rdix := match left.head? with
        | some x => x.index
        | none => q.wrix
      let s := { s with sch := { s.sch with taskQs := s.sch.taskQs.map fun (x : TaskQ) =>
        if x.ctx = q.ctx && x.qh = q.qh then { x with rdix := rdix } else x } }
      let s := s.zeroCarve c base (l.window + l.slices)
      let batch := decide (bits (w 2) 31 30 = 2)
      let g := startGroup l k t 0 slot p
      let g := { g with
        idx := 8, pc := w 0, mswin := BitVec.ofNat 18 base, slices := BitVec.ofNat 18 (base + l.window)
        pts := s.sch.partClock
        batch := if batch then some (w 3, 8 + 4 * (w 4).toNat, 0) else none }
      let g := (((g.swrite 1 (w 3)).swrite 2 (w 4)).swrite 3 (w 5)).swrite 59 (w 1)
      (s.setLaunch k { l with groups := l.groups + 1 }).addGroup g
  | _, _, _ => s

/-- A saved group goes back to its slot, to execute its blocking instruction again (R141). -/
def State.restoreSaved (s : State) (c : BitVec 10) (slot : Nat) : Option State :=
  match s.sch.saved.find? fun g => g.core = c && g.slot.toNat = slot && !s.suspended g.ctx && !(g.ctx ∈ s.sch.stopping) with
  | none => none
  | some g => some ({ s with sch := { s.sch with saved := s.sch.saved.erase g } }.addGroup { g with life := .running })

/-- The read of a task record from its ring has to wait (R403). -/
def State.taskWaits (s : State) (q : TaskQ) (r : TaskRec) : Bool :=
  match s.readVaWords (.queue q.ctx q.qh) q.ctx (q.slotVa r.index) 8 with
  | .ok _ => false
  | .error x =>
    match s.stall (.queue q.ctx q.qh) q.ctx (q.slotVa r.index) x 64 with
    | .fault .. => false
    | .wait _ => true

/-- The slot is idle and finds a record that it can pick now: a task record that cannot be read yet keeps no later slot from picking. -/
def State.finds (s : State) (c : BitVec 10) (slot : Nat) : Bool :=
  s.slotIdle c slot && ((s.pickPhase c slot).isSome || (s.pickTask c).any fun x => !s.taskWaits x.1 x.2.2)

/-- RECORD_PICK: the idle slot `ev.b` of core `ev.a` picks; idle slots pick in ascending order (R137). -/
def execRecordPick (s : State) : Host.Outcome State Fault Refusal :=
  let c := BitVec.ofNat 10 s.ev.a
  let slot := s.ev.b % 8
  .next (if !s.slotIdle c slot then s
    else
      match s.restoreSaved c slot with
      | some s => s
      | none =>
        if (List.range slot).any fun i => s.finds c i then s
        else
        match s.pickPhase c slot with
        | some p => s.startPhase c slot p
        | none =>
          match s.pickTask c with
          | some (q, k, r) => s.startTask c slot q k r
          | none => s)

/-! ### Pre-emption (R140 to R142) -/

/-- What is kept of a wait over a pre-emption: how far an ENQT has come; every other waiting instruction starts again. -/
def Group.enqtWait (g : Group) : Option Wait :=
  match g.wait with
  | some w => (match w.pend with
    | .enqt .. => some w
    | _ => none)
  | none => none

/-- A stopped group saved whole in the context save area (R141); an open region stays open with every failed bit set (R349). -/
def State.saveWhole (s : State) (g : Group) : State :=
  let g := g.failRegion
  let a := bits (s.reg (Reg.sched g.ctx.toNat 0)) 51 16 * 2 ^ 16 + 65536 * (8 * g.core.toNat + g.slot.toNat)
  let s := s.putLines a (frameWords g s.timebase g.pc g.cpos.toNat 0 0 []) 96
  let s := s.putLines (a + 0x4000) (padTo 2048 ((List.range 64).map fun i => g.sread (BitVec.ofNat 6 i))) 128
  let s := s.putLines (a + 0x8000) (padTo 4096 ((List.range 64).flatMap fun i => vectorWords (g.vread (BitVec.ofNat 6 i)))) 256
  let s := (s.letGo g.core g.slot).modGroup g.core g.slot fun g => { Group.blank with core := g.core, slot := g.slot }
  { s with sch := { s.sch with saved := s.sch.saved ++ [{ g with life := .saved, wait := g.enqtWait }] } }

/-- Blocked in a waiting instruction (R143). -/
def Group.blocked (g : Group) : Bool :=
  match g.wait with
  | some w => decide (w.kind.toNat ≤ 5)
  | none => false

/-- A group that a pre-emption stops where it stands: blocked in a waiting instruction, at an instruction of an open region, unless that is an
ACMT under way, or at a beat boundary of a SWEEP. One in handler mode counts as running (R140, R349, R379). -/
def Group.stopsHere (g : Group) : Bool :=
  !g.hmode && g.life = .running && (g.blocked || (g.region.isSome && g.commitId.isNone) || g.sweep.isSome)

/-- A group that issues nothing more, since its context is being pre-empted. -/
def State.halted (s : State) (g : Group) : Bool := decide (g.ctx ∈ s.sch.stopping) && !g.blocked && g.stopsHere

/-- Groups of a context that stop where they stand are saved; one with accesses in flight once they are done. -/
def State.stopBlocked (s : State) (ctx : BitVec 12) : State :=
  (s.groups.filter fun g => g.ctx = ctx && g.stopsHere).foldl (fun s g =>
    let s := s.sendWc g.core g.slot
    match s.group? g.core g.slot with
    | some g => if g.inflight.isEmpty then s.saveWhole g else s
    | none => s) s

/-- A command that has begun and done nothing yet has not begun. -/
def CoreCtx.unstart (k : CoreCtx) : CoreCtx :=
  let f (q : List Cmd) (base : Nat) : List Cmd := q.map fun c =>
    if c.started && (k.prog.toList.getD (base + b2n (bit c.w0 55)) Progress.fresh) = Progress.fresh then { c with started := false } else c
  { k with q0 := f k.q0 0, q2 := f k.q2 2 }

/-- The engines of a context stand at a command boundary; the copy engine stops anywhere. -/
def State.enginesStopped (s : State) (ctx : BitVec 12) : Bool :=
  s.cores.all fun x => !((Tab.get CoreCtx.idle x.2.ctxs ctx.toNat).q0.any fun c => c.started)

/-- The engine area of a core for a context that has used its engines (R141): the tiles, the opaque states, and zeros. -/
def State.saveEngines (s : State) (ctx : BitVec 12) (i : Nat) : State :=
  let c := BitVec.ofNat 10 i
  let a := s.engArea c ctx
  let s :=
    if (s.core c).owner = some ctx then s.saveTiles c
    else (if (s.coreCtx c ctx).saved.isSome then s else s.putLines a [] 1024).saveOpaque (a + 0x20000) 32
  (s.saveOpaque (a + 0x21000) 32).putLines (a + 0x22000) [] 960

/-- Step 4 of R140, once every group and engine of the context has stopped. -/
def State.settleStop (s : State) (ctx : BitVec 12) : State :=
  let s := s.stopBlocked ctx
  let s := { s with cores := s.cores.map fun (i, r) =>
    (i, { r with ctxs := r.ctxs.map fun (j, k) => (j, if j = ctx.toNat then k.unstart else k) }) }
  if s.groups.any (fun g => g.ctx = ctx && g.launch ≠ 0) || !s.enginesStopped ctx then s
  else
    let s := s.cores.foldl (fun s x =>
      if x.2.owner = some ctx || x.2.ctxs.any (fun y => y.1 = ctx.toNat) then s.saveEngines ctx x.1 else s) s
    let s := s.setRegBits (Reg.sched ctx.toNat 24) 61 61 1
    let s := s.countReg (Reg.sched ctx.toNat 16) 31 0
    { s with sch := { s.sch with stopping := s.sch.stopping.filter fun c => c ≠ ctx } }


/-- Pre-emption of a context begins (R140). -/
def State.beginStop (s : State) (ctx : BitVec 12) : State :=
  if s.suspended ctx || decide (ctx ∈ s.sch.stopping) then s
  else { s with sch := { s.sch with stopping := s.sch.stopping ++ [ctx] } }.settleStop ctx

/-- The context of a launch whose budget was exceeded is pre-empted once its snapshot is written whole (R144). -/
def State.stopOverBudget (s : State) : State :=
  s.sch.overBudget.foldl (fun s k =>
    let c := (s.launch k).ctx
    if s.suspended c || s.que.held.any fun h => h.1 = c then s
    else { s with sch := { s.sch with byFirmware := if c ∈ s.sch.byFirmware then s.sch.byFirmware else s.sch.byFirmware ++ [c] } }.beginStop c) s

/-- What pre-emptions do after a step: those that are due begin, those under way go on. -/
def State.settleStops (s : State) : State :=
  let s := s.stopOverBudget
  s.sch.stopping.foldl (fun s c => s.settleStop c) s

/-- PREQ of context `ev.a`; ignored while it is pre-empted (R142). -/
def execPreq (s : State) : Host.Outcome State Fault Refusal := .next (s.beginStop (BitVec.ofNat 12 s.ev.a))

/-- A group of a launch whose budget was exceeded traps at its next clause boundary (R143). -/
def State.markBudget (s : State) (k : Nat) : State :=
  let f (g : Group) : Group := if g.launch = k && g.life ≠ Life.none then { g with dueBudget := true } else g
  let s := s.modGroups f
  { s with sch := { s.sch with
    saved := s.sch.saved.map f
    places := s.sch.places.map fun p => if p.launch = k then { p with due := p.due ||| 2 } else p
    overBudget := s.sch.overBudget.filter fun x => x ≠ k } }

/-- A slice of the context begins: every charge is reset (R143). -/
def State.beginSlice (s : State) (ctx : BitVec 12) : State :=
  { s with sch := { s.sch with
      launches := s.sch.launches.map fun (x : Nat × Launch) => (x.1, if x.2.ctx = ctx then { x.2 with charge := 0 } else x.2)
      sliceAt := Tab.set 0 s.sch.sliceAt ctx.toNat s.timebase } }.setRegBits (Reg.sched ctx.toNat 16) 63 32 0

/-- The context runs again (R140), in a new slice: saved groups whose slot is idle go back to it. -/
def State.resumeCtx (s : State) (ctx : BitVec 12) : State :=
  if !s.suspended ctx then s
  else
    let s := (s.beginSlice ctx).setRegBits (Reg.sched ctx.toNat 24) 61 61 0
    let s := { s with sch := { s.sch with byFirmware := s.sch.byFirmware.filter fun c => c ≠ ctx } }
    let s := (s.sch.overBudget.filter fun k => (s.launch k).ctx = ctx).foldl (fun s k => s.markBudget k) s
    (s.sch.saved.filter fun g => g.ctx = ctx).foldl (fun s g =>
      if s.slotIdle g.core g.slot.toNat then (s.restoreSaved g.core g.slot.toNat).getD s else s) s

/-- RESM of context `ev.a`; ignored while it is not pre-empted. -/
def execResm (s : State) : Host.Outcome State Fault Refusal := .next (s.resumeCtx (BitVec.ofNat 12 s.ev.a))

/-! ### Slices and waiting budgets (R143, R144) -/

/-- The machine without what the teams, records and groups of a context hold on the cores. -/
def State.without (s : State) (ctx : BitVec 12) : State :=
  let s := s.modGroups fun g => if g.ctx = ctx && g.life ≠ Life.none then { Group.blank with core := g.core, slot := g.slot } else g
  { s with sch := { s.sch with
      teams := s.sch.teams.filter fun t => (s.launch t.launch).ctx ≠ ctx
      places := s.sch.places.filter fun p => (s.launch p.launch).ctx ≠ ctx
      saved := s.sch.saved.filter fun g => g.ctx ≠ ctx } }

/-- Another context has a placement that waits for what `ctx` holds: it finds no room now, and would without it (R140). -/
def State.othersWait (s : State) (ctx : BitVec 12) : Bool :=
  s.toPlace.any fun k => (s.launch k).ctx ≠ ctx && (s.tryPlace k).isNone && ((s.without ctx).tryPlace k).isSome

/-- The length of a context's slice in ns: SLICE, or the 1 ms of its charges where SLICE is 0 (R122, R143). -/
def State.sliceNs (s : State) (ctx : BitVec 12) : Nat :=
  let n := s.regBits (Reg.sched ctx.toNat 8) 63 32
  if n = 0 then 1000000 else 1000 * n

/-- SLICE_END of context `ev.a`, once its slice is over: another slice begins and charges are reset. A context that firmware pre-empted runs
again, in firmware's next slice; of one that runs, the contexts that firmware pre-empted run again and it is pre-empted itself where another
waits for its resources (R140, R143). With SLICE = 0 a running context is not pre-empted here. What firmware's next slice is, the spec leaves
open (DESIGN CHOICE, log 34). -/
def execSliceEnd (s : State) : Host.Outcome State Fault Refusal :=
  let ctx := BitVec.ofNat 12 s.ev.a
  .next (if (s.timebase - Tab.get 0 s.sch.sliceAt ctx.toNat).toNat < s.sliceNs ctx then s
    else if s.suspended ctx then (if ctx ∈ s.sch.byFirmware then s.resumeCtx ctx else s)
    else
    let s := s.beginSlice ctx
    if s.regBits (Reg.sched ctx.toNat 8) 63 32 = 0 then s
    else if s.othersWait ctx || s.sch.byFirmware.any fun c => c ≠ ctx then
      let s := (s.sch.byFirmware.filter fun c => c ≠ ctx).foldl (fun s c => s.resumeCtx c) s
      let s := { s with sch := { s.sch with byFirmware := if ctx ∈ s.sch.byFirmware then s.sch.byFirmware else s.sch.byFirmware ++ [ctx] } }
      s.beginStop ctx
    else s)

/-- A word of the core's instruction cache (R164); an address of the code window past the end of its image has none (R392). -/
def State.fetched (s : State) (core : BitVec 10) (ctx : BitVec 12) (va : Word) : Option Word :=
  if inCodeWindow va && (s.codeAt (va.toNat - codeWindow)).isNone then none else
  ((s.core core).icache.find? fun l => l.ctx = ctx && l.line = va.toNat / 128).map fun l =>
    l.words.toList.getD (va.toNat % 128 / 8) 0

/-- The word a group waits at: its instruction, or the header of the clause it has not started. -/
def State.waitWord (s : State) (g : Group) : Word :=
  (s.fetched g.core g.ctx (if g.inClause then g.pc + BitVec.ofNat 64 (8 + 8 * g.cpos.toNat) else g.pc)).getD 0

/-- A wait entry of a snapshot (R144). -/
def waitEntry (obj expect pc : Word) (cpos kind lane : Nat) (ctx : BitVec 12) (core slot opc : Nat) : List Word :=
  [obj, expect, field 16 (bits pc 50 3) ||| field 12 cpos ||| field 8 kind ||| field 0 lane,
   field 56 5 ||| field 48 1 ||| field 36 ctx.toNat ||| field 26 core ||| field 23 slot ||| field 13 opc]

/-- The snapshot of a launch: a header, its blocked groups and its records that wait on a counter, phase records and the continuation
records it serves (R144). The rule does not say whether the entries cover the whole context: they cover the launch that is over its budget
(DESIGN CHOICE, log 34). CORE of a continuation record is its AFF, 0x3FF for any core, and OPC zero (DESIGN CHOICE, log 34). -/
def State.snapshot (s : State) (k : Nat) : State :=
  let l := s.launch k
  let gs := s.groups.filterMap fun g =>
    match g.wait with
    | some w => if g.launch = k && g.blocked then
        some (waitEntry w.obj w.expect g.pc g.cpos.toNat w.kind.toNat w.lane.toNat g.ctx g.core.toNat g.slot.toNat
          (bits (s.waitWord g) 63 54)) else none
    | none => none
  let ps := s.sch.places.filterMap fun p =>
    if p.launch = k && p.ready.isNone then
      some (waitEntry p.jca (BitVec.ofNat 64 (s.syn (synKey l.ctx p.jca.toNat)).val.toNat)
        (s.peek (s.placeAddr p.core p.place.toNat)).1 0 6 0xFF l.ctx p.core.toNat 0 p.place.toNat) else none
  let ts := s.sch.taskQs.flatMap fun q =>
    if s.servingLaunch q ≠ some k then []
    else (s.sch.tasks.filter fun t => t.ctx = q.ctx && t.qh = q.qh && t.ready.isNone).map fun t =>
      waitEntry t.jca (BitVec.ofNat 64 (s.syn (synKey l.ctx t.jca.toNat)).val.toNat)
        ((s.ringWord q (q.slotVa t.index)).getD 0) 0 6 0xFF l.ctx (s.affOf q t.index) 0 0
  let es := gs ++ ps ++ ts
  let h := [s.timebase, field 16 l.lseq.toNat ||| field 0 l.lqh.toNat, field 32 (l.charge / 1024) ||| field 0 l.wbud,
    field 56 5 ||| field 36 l.ctx.toNat ||| field 20 (min es.length 65535)]
  (h :: es).foldl (fun s e => s.postEntry l.ctx e) s

/-- WAITING_BUDGET_EXCEEDED of launch `ev.a` (R143): the snapshot; the pre-emption begins when all of it is written (R144). -/
def execWaitingBudgetExceeded (s : State) : Host.Outcome State Fault Refusal :=
  let k := s.ev.a
  let l := s.launch k
  .next (if l.wbud = 0 || l.charge ≤ 1024 * l.wbud || l.finished || l.ending.isSome || decide (k ∈ s.sch.overBudget) then s
    else
      let s := s.snapshot k
      { s with sch := { s.sch with overBudget := s.sch.overBudget ++ [k] } }.stopOverBudget)

/-- Is the word a YIELD or a PHASE? -/
def yieldWord (w : Word) : Bool := bits w 63 60 = 0xD && bits w 59 54 ≤ 1

/-- WATCHDOG_EXPIRY of the group in slot `ev.b` of core `ev.a` (R138): its counter is 0 and its next instruction is neither YIELD nor
PHASE. -/
def execWatchdogExpiry (s : State) : Host.Outcome State Fault Refusal :=
  let c := BitVec.ofNat 10 s.ev.a
  let slot := BitVec.ofNat 3 s.ev.b
  .next (
    match s.group? c slot with
    | none => s
    | some g =>
      if g.life = .running && g.inClause && g.dline = 0 && !g.hmode && !yieldWord (s.waitWord g) then
        (s.bring c slot).trap .group 0x16 []
      else s)

end Sys2Proof.Machine
end

