-- ==== Sys2Proof/Machine/Clause.lean ====
section
/-! DEFINITION. Clause boundaries: the instruction cache (R164, R259), the check of a clause (R254 to R258), and what happens at a boundary
before the next clause starts: leaving (R114), switches (R139), asynchronous traps (R109) and the wait mask (R181). -/

namespace Sys2Proof.Machine

/-! ### The check of a clause (R254 to R258) -/

/-- An instruction word that no clause of this class may hold at this position: OPMAJ 0xF, a group the class does not allow, a transfer
that is not the last instruction of a class 0 clause. OPMAJ 0xE is found at issue. -/
def wordOffends (cls : Nat) (last : Bool) (w : Word) : Bool :=
  let maj := bits w 63 60
  maj = 0xF || (maj ≠ 0xE && !classAdmits cls maj) || (isTransfer maj (bits w 59 54) && !(last && cls = 0))

/-- The position at which a clause fails its check, 0 for a header; none where it passes. -/
def clauseFault (pc hdr : Word) (ws : List Word) : Option Nat :=
  if pc.toNat % 8 ≠ 0 || !Header.ok hdr then some 0
  else ws.zipIdx.findIdx? fun x => wordOffends (Header.cls hdr) (x.2 = Header.count hdr) x.1

/-! ### The instruction cache -/

/-- Address of instruction p of the clause at `pc` (R254). -/
def instrVa (pc : Word) (p : Nat) : Word := pc + BitVec.ofNat 64 (8 + 8 * p)

/-- The words of the clause at the group's pc, header first, if they are in the cache; no header stands at an address that is no
multiple of 8. -/
def State.clauseWords (s : State) (g : Group) : Option (Word × List Word) :=
  match if g.pc.toNat % 8 ≠ 0 then some 0 else s.fetched g.core g.ctx g.pc with
  | none => none
  | some h =>
    if !Header.ok h then some (h, [])
    else
      let ws := (List.range (Header.count h + 1)).filterMap fun p => s.fetched g.core g.ctx (instrVa g.pc p)
      if ws.length = Header.count h + 1 then some (h, ws) else none

/-- The first address the group needs whose line is not in the cache: of the header, or of an instruction of the clause. -/
def State.missing (s : State) (g : Group) : Option Word :=
  match if g.pc.toNat % 8 ≠ 0 then some 0 else s.fetched g.core g.ctx g.pc with
  | none => some g.pc
  | some h =>
    if !Header.ok h then none
    else ((List.range (Header.count h + 1)).map fun p => instrVa g.pc p).find? fun a => (s.fetched g.core g.ctx a).isNone

/-- A line put into the cache, 256 of them; the one filled longest ago goes. -/
def State.fillIcache (s : State) (c : BitVec 10) (ctx : BitVec 12) (line : Nat) (d : LineData) : State :=
  let r := s.core c
  let ws : Vector Word 16 := Vector.ofFn fun i : Fin 16 => BitVec.ofNat 64 (bits d (64 * i.val + 63) (64 * i.val))
  let l : ILine := ⟨ctx, line, ws⟩
  s.setCore c { r with icache := (l :: r.icache.filter fun x => !(x.ctx = ctx && x.line = line)).take 256 }

/-- Cached lines of a context dropped on every core. -/
def State.dropIcache (s : State) (ctx : BitVec 12) (p : Nat → Bool) : State :=
  { s with cores := s.cores.map fun x =>
    (x.1, { x.2 with icache := x.2.icache.filter fun l => !(l.ctx = ctx && p l.line) }) }

/-- What bringing a line into the instruction cache comes to. -/
inductive Fetch
  | ok (s : State)
  | fault (s : State) (r : FRec)
  | wait (s : State)
  deriving Repr

/-- The line of an address put into the instruction cache by the group at the port, as a read of its own (R164, R259): the home's copy, or a line
of the registered-code window. -/
def State.fetchInto (s : State) (va : Word) : Fetch :=
  let g := s.cur
  let who := g.waiter
  match s.checkLane (va - BitVec.ofNat 64 (va.toNat % 8)) 3 .fetch false false with
  | .bad f => .fault ((s.walkFault f.addr f.kind).clearVerdicts who) f
  | .wait => .wait (s.awaitPage who g.ctx va .fetch 8)
  | .ok pa _ co =>
    let line := pa / 128
    if s.heldAt who pa 128 false co then .wait (s.askAt who (128 * line) 128 false co)
    else
      let s := (s.clearVerdicts who).touchTlb who g.ctx va
      let (s, d, _) := s.plainLine who line (!co)
      let s := if pa < 2 ^ 52 then s.passNow who pa false else s
      .ok (s.fillIcache g.core g.ctx (va.toNat / 128) d)

/-- INSTRUCTION_CACHE_FILL for the group in slot `ev.b` of core `ev.a` (R164, R259): the line it misses is filled; a fault of the fetch is
a trap with record 96 at the clause, and a page is waited for, while the port passes to another group. -/
def execInstructionCacheFill (s : State) : Host.Outcome State Fault Refusal :=
  let c := BitVec.ofNat 10 s.ev.a
  let slot := BitVec.ofNat 3 s.ev.b
  .next (
    match s.group? c slot with
    | none => s
    | some g =>
      if g.life ≠ .running then s
      else
        match s.missing g with
        | none => s
        | some va =>
          match (s.bring c slot).fetchInto va with
          | .fault s f => s.trapAt g.pc g.cpos .lane f.kind [(96, f)]
          | .wait s => (s.letGo c slot).setCur { s.cur with wait := match s.cur.wait with
              | some w => some w
              | none => some ⟨15, 0, 0, 0xFF, s.seqCtr, .retry⟩ }
          | .ok s => s.setCur { s.cur with wait := match s.cur.wait with
              | some w => if w.kind = 15 then none else some w
              | none => none })

/-! ### The boundary -/

/-- The lowest path of the wait mask that is not zero (R181). -/
def Group.maskWait (g : Group) (hdr : Word) : Option Nat :=
  (List.range 8).find? fun p => (Header.wait hdr).testBit p && g.counter p ≠ 0

/-- The switch of a YIELD or PHASE that this boundary ends (R132, R139). PHASE releases at `.dev` and waits for the group's accesses;
YIELD switches only where R139 says so. The group is held at the boundary while accesses are in flight, and while the island of the synchronisation
engine, where PHASE counts down, does not run (R16). -/
def State.doSwitch (s : State) : State :=
  let g := s.cur
  match g.endSwitch with
  | none => s
  | some (succ, csi, jca, phase) =>
    if !phase && !s.yieldSwitches then s.setCur { g with endSwitch := none }
    else
      let s := s.sendWc g.core g.slot
      if !s.cur.inflight.isEmpty || (phase && jca ≠ 0 && !s.islandRuns 127) then s.pause
      else
        let s := s.setCur { s.cur with endSwitch := none, half := [] }
        if phase then (s.raiseClocks s.cur 3).phaseOut succ csi jca.toNat
        else s.switchOut g.pc csi 0 true

/-- The asynchronous trap due at this boundary: viral entry, then waiting budget, then queue spill, whose records name the handles
(R109, R152). One whose frame cannot be written yet stays due. -/
def State.asyncTrap (s : State) : Option State :=
  let g := s.cur
  if g.hmode then none
  else if (g.dueViral && s.trapWaits g 0x20) || (!g.dueViral && g.dueBudget && s.trapWaits g 0x21) ||
      (!g.dueViral && !g.dueBudget && g.dueSpill && s.trapWaits g 0x22) then
    some (s.awaitPage g.waiter g.ctx (s.frameAddr g) .engine 128).pause
  else if g.dueViral then some ((s.setCur { g with dueViral := false }).trapAt g.pc 0 .async 0x20 [])
  else if g.dueBudget then some ((s.setCur { g with dueBudget := false }).trapAt g.pc 0 .async 0x21 [])
  else if g.dueSpill then some ((s.setCur { g with dueSpill := false, spills := [] }).trapAt g.pc 0 .async 0x22
    (g.spills.map fun x => (x.1, ⟨BitVec.ofNat 64 x.2.toNat, 0x22, 0, true, false, 0, 0⟩)))
  else none

/-- The group at the port starts the clause at its pc, or resumes within it after RESUME; the flag says whether it took the port. A wait mask
that names `gs` sends the write-combining buffer (R81, R219). -/
def State.enterClause (s : State) : State × Bool :=
  let g := s.cur
  match s.clauseWords g with
  | none => (s, false)
  | some (h, ws) =>
    if !Header.ok h || g.pc.toNat % 8 ≠ 0 then (s.trapAt g.pc 0 .group 0x12 [], false)
    else if g.cpos = 0 && (g.maskWait h).isSome then
      let s := if (Header.wait h).testBit 1 then s.sendWc g.core g.slot else s
      (s.block 2 (BitVec.ofNat 64 ((g.maskWait h).getD 0)) 0 0xFF .retry, false)
    else
      match clauseFault g.pc h ws with
      | some p => (s.trapAt g.pc (BitVec.ofNat 4 p) .group 0x12 [], false)
      | none =>
        if Header.count h < g.cpos.toNat then (s.trapAt g.pc g.cpos .group 0x12 [], false)
        else
          let (s, n) := s.stamp
          let s := s.setCur { s.cur with
            inClause := true, hdr := h, lastStart := n, wait := none, latches := if g.cpos = 0 then [] else g.latches }
          (s.setCore g.core { s.core g.core with holder := some g.slot }, true)

/-- What a boundary brings the group at the port (R109, R114, R139), and then its next clause. -/
def State.startClause (s : State) : State × Bool :=
  let g := s.cur
  if g.cpos ≠ 0 then s.enterClause
  else if s.stopping g then (s.leave g.core g.slot, false)
  else
    let s := if g.hmode then s else s.doSwitch
    if s.cur.life ≠ .running || (!g.hmode && s.cur.endSwitch.isSome) then (s, false)
    else
      match s.asyncTrap with
      | some s => (s, false)
      | none => s.enterClause

/-- A group at a boundary that can act: one that leaves, switches or traps, or whose clause is in the cache and whose wait mask is zero
(R164). -/
def State.atStart (s : State) (c : BitVec 10) (g : Group) : Bool :=
  g.core = c && g.life = .running && !g.inClause && g.late.isNone && !s.halted g &&
  ((g.cpos = 0 && (s.stopping g || (!g.hmode && (g.endSwitch.isSome || g.dueViral || g.dueBudget || g.dueSpill)))) ||
   (match s.clauseWords g with
    | some (h, _) => !(g.cpos = 0 && g.wait.isSome && (g.maskWait h).isSome)
    | none => false))

/-- The groups of a core in the order the port serves them: least recent clause start, then the lower slot (R164). -/
def portOrder (l : List Group) : List Group :=
  l.sortBy fun a b => a.lastStart < b.lastStart || (a.lastStart = b.lastStart && a.slot ≤ b.slot)

/-- The first group that takes the port. -/
def State.startFirst (s : State) : List (BitVec 10 × BitVec 3) → State
  | [] => s
  | (c, n) :: r =>
    let (s, took) := (s.bring c n).startClause
    if took then s else State.startFirst s r

/-- The clock of the core's island runs. -/
def State.clockRuns (s : State) (c : BitVec 10) : Bool :=
  s.islandRuns (islandOf c)

/-- The wait of a group inside a clause is over (R164): the tag or the variable it waited for has served it, its timeline or its path has come
as far, its word is there, its queue is resident or has room, or no page request and no walk has it any longer. -/
def State.waitOver (s : State) (g : Group) (w : Wait) : Bool :=
  let k := s.coreCtx g.core g.ctx
  match w.kind.toNat with
  | 0 | 3 => false
  | 1 => decide (w.expect.toNat ≤ (k.tl.toList.getD w.obj.toNat 0).toNat)
  | 2 => decide (g.counter w.obj.toNat ≤ w.expect.toNat)
  | 4 => decide (((s.qgetters g.core g.ctx w.obj.toNat).findIdx? fun x => x = g.slot).getD 0 < (k.popQueue w.obj.toNat).length)
  | 5 =>
    if w.expect = 0 then
      s.sch.experts.any (fun q => q.ctx = g.ctx && q.qh.toNat = w.obj.toNat) || s.sch.taskQs.any fun q => q.ctx = g.ctx && q.qh.toNat = w.obj.toNat
    else s.sch.taskQs.any fun q => q.ctx = g.ctx && q.qh.toNat = w.obj.toNat && decide ((q.wrix - q.rdix).toNat < 2 ^ q.logsz)
  | 15 => !s.awaits g.waiter && !s.mmu.walks.any fun x => decide (g.waiter ∈ x.waiters)
  | _ => true

/-- A group that is ready inside its clause: it takes the port in a turn of the port. -/
def State.readyInside (s : State) (g : Group) (c : BitVec 10) : Bool :=
  g.core = c && g.life = .running && g.inClause && g.late.isNone && !s.halted g && (g.wait.all fun w => s.waitOver g w)

/-- CLAUSE_START on core `ev.a`: the free port goes to the ready group at a boundary that started a clause least recently, unless a group that
is ready inside its clause comes before it (R164). -/
def execClauseStart (s : State) : Host.Outcome State Fault Refusal :=
  let c := BitVec.ofNat 10 s.ev.a
  let l := portOrder (s.groups.filter fun g => s.atStart c g || s.readyInside g c)
  .next (if (s.core c).holder.isSome || !s.clockRuns c then s
    else s.startFirst ((l.takeWhile fun g => !s.readyInside g c).map fun g => (g.core, g.slot)))

end Sys2Proof.Machine
end

