-- ==== Sys2Proof/Machine/Coherence.lean ====
section
/-! DEFINITION. The lease protocol's messages at homes and L1s (10_onchip_memory_coherence.md, R197 to R205): requests served or
refused, grants, forwards, write-backs and far accesses. Each event acts on the message `ev.a` of State.coh.msgs; where that message
is not one the event concerns, nothing happens (log 20). -/

namespace Sys2Proof.Machine

/-- The message an event names. -/
def State.msg (s : State) : Option Msg := s.coh.msgs[s.ev.a]?

def State.dropEvMsg (s : State) : State := s.dropMsg s.ev.a

/-- A request the home has refused at least once, in a few bits. -/
def MsgKind.code : MsgKind → BitVec 2
  | .renewal => 0
  | .upgrade _ => 1
  | .readEx => 2
  | _ => 3

def MsgKind.wts : MsgKind → BitVec 48
  | .upgrade w => w
  | _ => 0

/-- The request again after its back-off. -/
def MsgKind.again (orig : BitVec 2) (wts : BitVec 48) : MsgKind :=
  match orig.toNat with
  | 0 => .renewal
  | 1 => .upgrade wts
  | 2 => .readEx
  | _ => .far

def Msg.asker (m : Msg) : Asker := .acc m.core m.slot m.acc

/-- The requester of a message at the filter. -/
def Msg.waiter (m : Msg) : Waiter := .group m.core m.slot

/-- The end of the back-off that follows refusal `k` of a request (R204). -/
def State.backoff (s : State) (m : Msg) (k : Nat) : Word := s.clock m.core + backoffCycles k

/-- The message refused and backing off (R204); a merge keeps its bytes. -/
def State.refuse (s : State) (m : Msg) : State :=
  let s := s.countRefusal m.line m.asker
  let k := m.refusals + 1
  let kind : MsgKind := match m.kind with
    | .merge .. => m.kind
    | _ => .refusedReq m.kind.code m.kind.wts
  let m' : Msg := { m with kind := kind, refusals := k, due := s.backoff m k }
  { s with coh := { s.coh with msgs := s.coh.msgs.set s.ev.a m' } }

/-- Bytes of the same core for the line are ahead of the message: the mesh delivers between two stops in the order sent (R203). -/
def State.mergeAhead (s : State) (m : Msg) : Bool :=
  (s.coh.msgs.take s.ev.a).any fun x => x.line = m.line && x.core = m.core && (match x.kind with
    | .merge .. => true
    | _ => false)

/-- How a request is met at its home: later, since a commit engine or bytes ahead of it hold it; with a question to an agent outside (R50,
R56), by `n` bytes at `pa` to be read or written; refused; or served, with what serving clears. The turn of a store at the filter lasts until
the store is performed in the L1. -/
def State.meet (s : State) (m : Msg) (pa n : Nat) (wr : Bool) (f : State → State) : State :=
  if s.commitHolds m.line || s.mergeAhead m then s
  else if s.outsideHolds m.waiter pa n wr then s.askOutside m.waiter pa n wr
  else if !(s.home m.line).openTo m.asker then s.refuse m
  else
    let s := s.dropEvMsg.clearRsv m.line m.asker
    f (match m.kind with
      | .readEx | .upgrade _ => s
      | _ => s.passFilter m.waiter pa wr)

def State.ptsOf (s : State) (m : Msg) : BitVec 48 :=
  match s.group? m.core m.slot with
  | some g => g.pts
  | none => 0

def State.hintOf (s : State) (m : Msg) : BitVec 2 :=
  match s.group? m.core m.slot with
  | some g => (g.inflight.find? fun a => a.id = m.acc).elim 0 fun a => a.hint
  | none => 0

/-- A prefetch whose line has arrived has that lane done (R322). -/
def State.prefetched (s : State) (m : Msg) : State :=
  let s := s.modAccess m.core m.slot m.acc fun a =>
    if a.op = .prefetch then
      { a with lanes := a.lanes.map fun l => if l.pa / 128 = m.line then { l with done := true } else l }
    else a
  match s.group? m.core m.slot with
  | some g =>
    if g.inflight.any fun a => a.id = m.acc && a.op = .prefetch then s.concludeAccess m.core m.slot m.acc else s
  | none => s

/-- The access that a message serves. -/
def State.accOf (s : State) (m : Msg) : Option Access :=
  (s.group? m.core m.slot).bind fun g => g.inflight.find? fun a => a.id = m.acc

/-- Its leaf is without coherence (R218). -/
def State.ncOf (s : State) (m : Msg) : Bool :=
  secondTier (128 * m.line) && (s.accOf m).any fun a => a.lanes.any fun l => l.pa / 128 = m.line && !l.co

/-- A line under a lease put in the L1: the sectors asked for are valid, with those of a copy of the same version (R194). -/
def State.installShared (s : State) (m : Msg) (hint : BitVec 2) (h : Home) : State :=
  let (d, p) := s.homeData m.line
  let v := match s.l1? m.core m.line with
    | some x => if x.st = .s && x.wts = h.wts then x.valid ||| m.sectors else m.sectors
    | none => m.sectors
  s.installL1 m.core m.slot hint ⟨m.line, .s, h.wts, h.rts, d, v, 0, p, s.ncOf m⟩

/-- A request for a line that is split is performed at the home instead (R56); of a prefetch nothing is done. -/
def State.toFar (s : State) (m : Msg) : State :=
  if (s.accOf m).any fun a => a.op ≠ .prefetch && a.op ≠ .commit then
    { s with coh := { s.coh with msgs := s.coh.msgs.set s.ev.a { m with kind := .far } } }
  else s.dropEvMsg.prefetched m

/-- The request is for an SM line. -/
def State.smOf (s : State) (m : Msg) : Bool := (s.accOf m).any fun a => a.lanes.any fun l => l.pa / 128 = m.line && l.mt = .sm

/-- The line stays out of the L1: past it, or a prefetch for the L2 (R194, R322). -/
def State.keepsOut (s : State) (m : Msg) (hint : BitVec 2) : Bool :=
  hint = 3 || (hint = 2 && (s.accOf m).any fun a => a.op = .prefetch)

/-- HOME_RENEWAL (R194, R198): a line under a lease, or the sectors of an SM line, which has none. -/
def execHomeRenewal (s : State) : Host.Outcome State Fault Refusal :=
  .next (
    match s.msg with
    | some m =>
      match m.kind with
      | .renewal =>
        if s.split m.line then s.toFar m
        else
        s.meet m (128 * m.line) 128 false fun s =>
          let hint := s.hintOf m
          let s := (s.matchType m.core m.slot m.line (s.smOf m)).flushMerges fun x => x.line = m.line && x.core = m.core
          let s := (s.recall m.line).fillL2As m.line (s.ncOf m)
          let s := (if s.smOf m then s else s.leaseHome m.line (s.ptsOf m)).completeAt m.line (m.refusals ≠ 0)
          let s :=
            if s.keepsOut m hint then s
            else if s.smOf m then
              let (d, p) := s.homeData m.line
              s.installPlain m.core m.slot hint m.line m.sectors (s.ncOf m) d p
            else s.installShared m hint (s.home m.line)
          (s.prefetched m).proceed m.core m.slot
      | _ => s
    | none => s)

/-- The home grants exclusive: data or none, and its timestamps. -/
def State.grant (s : State) (m : Msg) (withData : Bool) : State :=
  let h := s.home m.line
  let (d, p) := s.homeData m.line
  s.send { m with kind := .grant (if withData then some d else none) p h.wts h.rts }

/-- A read-exclusive at an open line (R199): data and RX(o) from I, a forward and FW(o) from E(p). -/
def State.serveReadEx (s : State) (m : Msg) : State :=
  let h := { s.home m.line with serving := decide (m.refusals ≠ 0) }
  match h.st with
  | .e p =>
    (s.setHome m.line { h with st := .fw m.core p }).send { m with kind := .forward p }
  | _ =>
    let s := s.fillL2As m.line (s.ncOf m)
    (s.setHome m.line { h with st := .rx m.core }).grant m true

/-- HOME_UPGRADE (R199): a copy with the home's wts is granted without data; a stale one is a read-exclusive. -/
def execHomeUpgrade (s : State) : Host.Outcome State Fault Refusal :=
  .next (
    match s.msg with
    | some m =>
      match m.kind with
      | .upgrade wts =>
        if s.split m.line then s.toFar m
        else
          s.meet m (128 * m.line) 128 true fun s =>
            let h := s.home m.line
            if h.st = .i && h.wts = wts then
              (s.setHome m.line { h with st := .up m.core, serving := decide (m.refusals ≠ 0) }).grant m false
            else s.serveReadEx m
      | _ => s
    | none => s)

/-- HOME_READ_EXCLUSIVE (R199). -/
def execHomeReadExclusive (s : State) : Host.Outcome State Fault Refusal :=
  .next (
    match s.msg with
    | some m =>
      match m.kind with
      | .readEx => if s.split m.line then s.toFar m else s.meet m (128 * m.line) 128 true fun s => s.serveReadEx m
      | _ => s
    | none => s)

/-- HOME_ACK: UP(o) or RX(o) becomes E(o) (R203). -/
def execHomeAck (s : State) : Host.Outcome State Fault Refusal :=
  .next (
    match s.msg with
    | some m =>
      if m.kind ≠ .ack then s
      else
        let h := s.home m.line
        if h.st = .up m.core || h.st = .rx m.core then
          let s := s.dropEvMsg
          let w := match s.l1? m.core m.line with
            | some l => l.wts
            | none => h.wts
          (s.setHome m.line { h with st := .e m.core, wts := w, serving := false }).completeAt m.line h.serving
        else s
    | none => s)

/-- HOME_WRITEBACK (R203): in FW(o) the data is kept; in E(p) the line becomes I. -/
def execHomeWriteback (s : State) : Host.Outcome State Fault Refusal :=
  .next (
    match s.msg with
    | some m =>
      match m.kind with
      | .writeback d mask p w r =>
        let st := (s.home m.line).st
        if st = .e m.core then
          let s := s.dropEvMsg.takeWriteback m.line d mask p w r
          s.setHome m.line { s.home m.line with st := .i }
        else if (match st with
            | .fw _ q => decide (q = m.core)
            | _ => false) then s.dropEvMsg.takeWriteback m.line d mask p w r
        else s
      | _ => s
    | none => s)

/-- L1_FORWARD_RECEIVE (R203): the owner answers with data and drops the line, or answers gone. -/
def execL1ForwardReceive (s : State) : Host.Outcome State Fault Refusal :=
  .next (
    match s.msg with
    | some m =>
      match m.kind with
      | .forward p =>
        if s.commitHolds m.line then s
        else
        let s := s.dropEvMsg
        match s.l1? p m.line with
        | some l =>
          if l.st = .e then (s.dropL1 p m.line).send { m with kind := .answerData l.data l.poison l.wts l.rts }
          else s.send { m with kind := .answerGone }
        | none => s.send { m with kind := .answerGone }
      | _ => s
    | none => s)

/-- FORWARD_ANSWER (R203): data and exclusive go to o, from the answer or from the write-back that came before. -/
def execForwardAnswer (s : State) : Host.Outcome State Fault Refusal :=
  .next (
    match s.msg with
    | some m =>
      match m.kind, (s.home m.line).st with
      | .answerData d p w r, .fw o _ =>
        let s := s.dropEvMsg.takeWriteback m.line d (BitVec.allOnes 128) p w r
        (s.setHome m.line { s.home m.line with st := .rx o }).grant m true
      | .answerGone, .fw o q =>
        if s.coh.msgs.any fun x => x.line = m.line && x.core = q && (match x.kind with
            | .writeback .. => true
            | _ => false) then s
        else (s.dropEvMsg.setHome m.line { s.home m.line with st := .rx o }).grant m true
      | _, _ => s
    | none => s)

/-- L1_GRANT_RECEIVE (R199): the line is E with the home's timestamps, the waiting stores are performed, and the grant is
acknowledged. A copy that SM accesses have brought meanwhile is written back first (R220). -/
def execL1GrantReceive (s : State) : Host.Outcome State Fault Refusal :=
  .next (
    match s.msg with
    | some m =>
      match m.kind with
      | .grant d p w r =>
        let s := s.dropEvMsg.matchType m.core m.slot m.line false
        let (data, poison) :=
          match d with
          | some d => (d, p)
          | none =>
            match s.l1? m.core m.line with
            | some l => (l.data, l.poison)
            | none => s.homeData m.line
        let s := s.installL1 m.core m.slot (s.hintOf m) ⟨m.line, .e, w, r, data, 15, 0, poison, s.ncOf m⟩
        let s := s.proceed m.core m.slot
        s.send { m with kind := .ack }
      | _ => s
    | none => s)

/-- REFUSAL_BACKOFF_RESEND: the back-off is over and the request goes out again (R204). -/
def execRefusalBackoffResend (s : State) : Host.Outcome State Fault Refusal :=
  .next (
    match s.msg with
    | some m =>
      match m.kind with
      | .refusedReq o w =>
        if m.due.toNat ≤ (s.clock m.core).toNat then
          { s with coh := { s.coh with msgs := s.coh.msgs.set s.ev.a { m with kind := MsgKind.again o w } } }
        else s
      | .merge .. =>
        if m.due.toNat ≤ (s.clock m.core).toNat then
          { s with coh := { s.coh with msgs := s.coh.msgs.set s.ev.a { m with due := 0 } } }
        else s
      | _ => s
    | none => s)

/-- The lanes of an access in these sectors of a line performed at the home, ascending (R205). -/
def State.performFar (s : State) (m : Msg) (a : Access) : State :=
  let s := a.lanes.foldl (fun s l =>
    if l.done || l.fault.isSome || l.pa / 128 ≠ m.line || m.sectors &&& l.sector = 0 then s
    else
      match s.group? m.core m.slot with
      | none => s
      | some g =>
        let (s, l) := s.performHome g a l
        s.putLane m.core m.slot a.id l) s
  (s.concludeAccess m.core m.slot a.id).proceed m.core m.slot

/-- The bytes of a line from the first to the last that the lanes of an access touch in these sectors: where they start, and how many. -/
def Access.span (a : Access) (m : Msg) : Nat × Nat :=
  let l := a.lanes.filter fun l => l.pa / 128 = m.line && m.sectors &&& l.sector ≠ 0
  let lo := l.foldl (fun x y => min x y.pa) (128 * m.line + 128)
  (lo, l.foldl (fun x y => max x (y.pa + a.width - lo)) 0)

/-- FAR_ATOMIC_ARRIVAL (R194, R205, R218, R219): an atomic, an access that bypasses the L1, a UC or WC access, or bytes to be merged, at its
home. -/
def execFarAtomicArrival (s : State) : Host.Outcome State Fault Refusal :=
  .next (
    match s.msg with
    | some m =>
      match m.kind with
      | .far =>
        match s.accOf m with
        | none => s.dropEvMsg
        | some a =>
          let (pa, n) := a.span m
          s.meet m pa n a.writes fun s => (s.completeAt m.line (m.refusals ≠ 0)).performFar m a
      | .merge _ _ _ ids _ =>
        if m.due ≠ 0 then s
        else
          s.meet m (128 * m.line) 128 true fun s =>
            let s := (s.completeAt m.line (m.refusals ≠ 0)).performMerge m
            (ids.foldl (fun s i => s.concludeStore m.core m.slot i) s).proceed m.core m.slot
      | _ => s
    | none => s)

/-- The write of an acknowledgement is performed at its target. Bytes that are at the home already go there with those before them of the line; UC
and WC bytes give the group their timestamp, and bytes of its core under way to the home come first (R213, R219, R221). -/
def State.targetWrite (s : State) (x : TargetAck) : State :=
  match x.write with
  | none => s
  | some (line, d, m, p) =>
    if x.home then (s.needMedia line).reachTarget line fun y => y.id ≤ x.id
    else
      let (s, ts) := (s.flushMerges fun y => y.line = line && y.core = x.core).writeTarget line d m p
      s.raisePts x.core x.slot ts

/-- TARGET_ACKNOWLEDGEMENT (R215, R336): the write `ev.a` to a target outside the L2 is acknowledged, and performed with it. Writes of one
group to one line are performed in their order (R219). -/
def execTargetAcknowledgement (s : State) : Host.Outcome State Fault Refusal :=
  .next (
    match s.coh.acks.find? fun x => x.id = s.ev.a with
    | none => s
    | some x =>
      let line (y : TargetAck) : Option Nat := y.write.map fun w => w.1
      if x.write.isSome && s.coh.acks.any fun y => y.id < x.id && y.core = x.core && y.slot = x.slot && line y = line x then s
      else
        let s := s.targetWrite x
        let s := { s with coh := { s.coh with acks := s.coh.acks.filter fun y => y.id ≠ x.id } }
        let s := x.accs.foldl (fun s i =>
          let s := s.modAccess x.core x.slot i fun a => { a with
            acks := a.acks - 1
            lanes := a.lanes.map fun l => if decide ((l.lane, l.va) ∈ x.lanes) then l.finish 0 else l }
          if x.lanes.isEmpty then s.concludeStore x.core x.slot i else s.concludeAccess x.core x.slot i) s
        s.proceed x.core x.slot)

end Sys2Proof.Machine
end

