-- ==== Sys2Proof/Machine/Control.lean ====
section
/-! DEFINITION. Transfers, structured divergence and leaving: group 0x2 (R271 to R284), and the mask stack (R172, R173). -/

namespace Sys2Proof.Machine

/-! ### The mask stack -/

/-- An entry: MKIND, NEXT and mask in the layout of R172. -/
def maskEntry (kind next : Nat) (m : Mask) : BitVec 128 :=
  BitVec.ofNat 128 (bits m 63 0 + 2 ^ 64 * (bits m 95 64 + 2 ^ 32 * next + 2 ^ 60 * kind))

def entryKind (e : BitVec 128) : Nat := bits e 127 124
def entryNext (e : BitVec 128) : Nat := bits e 111 96
def entryMask (e : BitVec 128) : Mask := BitVec.ofNat 96 (bits e 95 0)

def State.spWord (s : State) (c : BitVec 10) (i : Nat) : SpWord := Tab.get SpWord.fresh (s.core c).spad i

def State.setSpWord (s : State) (c : BitVec 10) (i : Nat) (w : SpWord) : State :=
  let r := s.core c
  s.setCore c { r with spad := Tab.set SpWord.fresh r.spad i w }

/-- Word index of spill slot `k` of the group's window (R173). -/
def Group.spillAt (g : Group) (k : Nat) : Nat := (g.mswin.toNat + 16 * k) / 4

/-- An entry moved to a spill slot; tags stay. -/
def State.spill (s : State) (k : Nat) (e : BitVec 128) : State :=
  let c := s.cur.core
  (List.range 4).foldl (fun s j =>
    let i := s.cur.spillAt k + j
    s.setSpWord c i { s.spWord c i with data := BitVec.ofNat 32 (bits e (32 * j + 31) (32 * j)), poison := false }) s

/-- The entry in a spill slot. -/
def State.spilled (s : State) (k : Nat) : BitVec 128 :=
  let w (j : Nat) : Nat := (s.spWord s.cur.core (s.cur.spillAt k + j)).data.toNat
  BitVec.ofNat 128 (w 0 + 2 ^ 32 * w 1 + 2 ^ 64 * w 2 + 2 ^ 96 * w 3)

def State.mdepth (s : State) : Nat := (s.launch s.cur.launch).mdepth

/-- Room for `n` pushes below the declared depth (R173). -/
def State.canPush (s : State) (n : Nat) : Bool := s.cur.msdep.toNat + n ≤ s.mdepth

/-- A push; with eight hardware entries held the oldest one spills, in 2 more cycles (R173). -/
def State.push (s : State) (e : BitVec 128) : State :=
  let g := s.cur
  if g.mstack.length < 8 then s.setCur { g with mstack := e :: g.mstack, msdep := g.msdep + 1 }
  else
    let s := (s.spill (g.msdep.toNat - 8) (g.mstack.getD 7 0)).tick g.core 2
    s.setCur { g with mstack := e :: g.mstack.take 7, msdep := g.msdep + 1 }

/-- A pop; when seven hardware entries are left, the newest spilled one returns, in 3 more cycles (R173). -/
def State.pop (s : State) : State :=
  let g := s.cur
  if 8 < g.msdep.toNat then
    let e := s.spilled (g.msdep.toNat - 9)
    (s.setCur { g with mstack := g.mstack.tail ++ [e], msdep := g.msdep - 1 }).tick g.core 3
  else s.setCur { g with mstack := g.mstack.tail, msdep := g.msdep - 1 }

/-- Entry n, 0 the newest; spilled entries count (R281). -/
def State.entry (s : State) (n : Nat) : BitVec 128 :=
  if n < 8 then s.cur.mstack.getD n 0 else s.spilled (s.cur.msdep.toNat - 1 - n)

/-- Entry n replaced. -/
def State.setEntry (s : State) (n : Nat) (e : BitVec 128) : State :=
  if n < 8 then s.setCur { s.cur with mstack := s.cur.mstack.set n e } else s.spill (s.cur.msdep.toNat - 1 - n) e

def State.overflow (s : State) : State := s.trap .group 0x14 []

/-! ### Transfers (R271, R272) -/

/-- The target of imm24 (R245). -/
def Group.target (g : Group) (imm : BitVec 24) : Word := g.nextHeader + (imm.signExtend 64) * 8

/-- A transfer taken on a condition. -/
def State.transfer (s : State) (c : Ctl) (taken : Bool) (target : Word) : State :=
  if taken then s.jump c target else s.doneN c

/-- BR. -/
def execBr (w : I24) (s : State) : Host.Outcome State Fault Refusal :=
  .next (issue (.br w) s fun s => s.transfer w.ctl true (s.cur.target w.imm))

/-- BRC. -/
def execBrc (w : I24) (s : State) : Host.Outcome State Fault Refusal :=
  .next (issue (.brc w) s fun s => s.transfer w.ctl (s.cur.srcS w.a ≠ 0) (s.cur.target w.imm))

/-- CALL. -/
def execCall (w : I24) (s : State) : Host.Outcome State Fault Refusal :=
  .next (issue (.call w) s fun s =>
    let g := s.cur
    (s.setCur (g.swrite 63 g.nextHeader)).transfer w.ctl true (g.target w.imm))

/-! ### The dispatch table (R273, R274) -/

def State.dtlen (s : State) : Nat := (s.launch s.cur.launch).dtlen
def State.dtEntry (s : State) (j : Nat) : Word := (s.launch s.cur.launch).dtb + BitVec.ofNat 64 (8 * j)

def State.dispatchFault (s : State) : State := s.trap .group 0x15 []

/-- The lanes of `m` whose value is `j`. -/
def lanesEq (m : Mask) (v : Lanes) (j : Nat) : Mask := maskOf fun i => bit m i && v[i].toNat = j

/-- The least value at or above `lo` in the lanes of `m`. -/
def leastIndex (m : Mask) (v : Lanes) (lo : Nat) : Option Nat :=
  (List.finRange 96).foldl (fun a (i : Fin 96) =>
    if bit m i && lo ≤ v[i].toNat then
      match a with
      | none => some v[i].toNat
      | some j => some (min j v[i].toNat)
    else a) none

/-- JTAB (R273). -/
def execJtab (w : RR) (s : State) : Host.Outcome State Fault Refusal :=
  .next (issue (.jtab w) s fun s =>
    let j := (s.cur.srcS w.a).toNat
    if s.dtlen ≤ j then s.dispatchFault
    else s.withWords (s.dtEntry j) .load 1 fun s ws =>
      (s.setCur (s.cur.swrite 63 s.cur.nextHeader)).jump w.ctl (ws.getD 0 0))

/-- JTABV: the first index served; RET serves the others (R274). -/
def execJtabv (w : RR) (s : State) : Host.Outcome State Fault Refusal :=
  .next (issue (.jtabv w) s fun s =>
    let x := s.cur.em
    let v := s.cur.srcV w.a
    match leastIndex x v 0 with
    | none => s.doneN w.ctl
    | some j =>
      if (List.finRange 96).any fun i => bit x i && s.dtlen ≤ v[i].toNat then s.dispatchFault
      else if !s.canPush 1 then s.overflow
      else s.withWords (s.dtEntry j) .load 1 fun s ws =>
        let s := s.push (maskEntry 3 (j + 1) x)
        let g := s.cur.setEm (lanesEq x v j)
        (s.setCur (g.swrite 63 g.nextHeader)).jump w.ctl (ws.getD 0 0))

/-- The operand of a JTABV word. -/
def jtabvOf (w : Word) : Option Opd :=
  match decode w with
  | .ok (.jtabv r) => some r.a
  | _ => none

/-- A word read as a code fetch (R259, R274): from the instruction cache, after its line has been brought there; `f` goes on with it. -/
def State.withCode (s : State) (va : Word) (f : State → Word → State) : State :=
  if va.toNat % 8 ≠ 0 then s.trapLanes [(96, ⟨va, 1, 3, false, false, 0, 0⟩)]
  else
    match s.fetched s.cur.core s.cur.ctx va with
    | some w => f s w
    | none =>
      match s.fetchInto va with
      | .fault s r => s.trapLanes [(96, r)]
      | .wait s => s.pause
      | .ok s => f s ((s.fetched s.cur.core s.cur.ctx va).getD 0)

/-- A load is still writing the vector register of an operand that no field of the instruction names (R167). -/
def Group.vectorPending (g : Group) (x : Opd) : Bool :=
  match x with
  | .reg n => g.inflight.any fun a => !a.retired && a.dst.hits .v n.toNat 1
  | _ => false

/-- RET: a plain return, or the next index of a JTABV (R272, R274). -/
def execRet (w : RR) (s : State) : Host.Outcome State Fault Refusal :=
  .next (issue (.ret w) s fun s =>
    let t := s.cur.srcS w.a
    let top := s.cur.mstack.getD 0 0
    if s.cur.msdep = 0 || entryKind top ≠ 3 then s.jump w.ctl t
    else s.withCode (t - 8) fun s c =>
      match jtabvOf c with
      | none => s.jump w.ctl t
      | some a =>
        if s.cur.vectorPending a then s.hold
        else
        let x := entryMask top &&& s.cur.live
        let v := s.cur.srcV a
        match leastIndex x v (entryNext top) with
        | none =>
          let s := s.pop
          (s.setCur (s.cur.setEm x)).jump w.ctl t
        | some j =>
          if s.dtlen ≤ j then s.dispatchFault
          else s.withWords (s.dtEntry j) .load 1 fun s ws =>
            let s := s.setEntry 0 (maskEntry 3 (j + 1) (entryMask top))
            (s.setCur (s.cur.setEm (lanesEq x v j))).jump w.ctl (ws.getD 0 0))

/-! ### Structured divergence (R275 to R281) -/

/-- SPLIT (R275). -/
def execSplit (w : I24) (s : State) : Host.Outcome State Fault Refusal :=
  .next (issue (.split w) s fun s =>
    if !s.canPush 2 then s.overflow
    else
      let g := s.cur
      let t := g.em &&& g.k
      let s := (s.push (maskEntry 0 0 g.em)).push (maskEntry 1 0 (g.em &&& ~~~g.k))
      (s.setCur (s.cur.setEm t)).transfer w.ctl (t = 0) (g.target w.imm))

/-- ELSE (R276, R280). -/
def execElseM (w : I24) (s : State) : Host.Outcome State Fault Refusal :=
  .next (issue (.elseM w) s fun s =>
    let g := s.cur
    let top := g.mstack.getD 0 0
    if g.msdep = 0 || entryKind top ≠ 1 then s.illegalInstruction
    else
      let m := entryMask top &&& g.live
      let s := s.pop
      (s.setCur (s.cur.setEm m)).transfer w.ctl (m = 0) (g.target w.imm))

/-- JOIN (R277, R280). -/
def execJoin (w : RR) (s : State) : Host.Outcome State Fault Refusal :=
  .next (issue (.join w) s fun s =>
    let g := s.cur
    let top := g.mstack.getD 0 0
    if g.msdep = 0 || (entryKind top ≠ 0 && entryKind top ≠ 2) then s.illegalInstruction
    else
      let s := s.pop
      (s.setCur (s.cur.setEm (entryMask top))).doneN w.ctl)

/-- LOOPM (R278). -/
def execLoopm (w : I24) (s : State) : Host.Outcome State Fault Refusal :=
  .next (issue (.loopm w) s fun s =>
    if !s.canPush 1 then s.overflow
    else
      let g := s.cur
      (s.push (maskEntry 2 0 g.em)).transfer w.ctl (g.em = 0) (g.target w.imm))

/-- BANY (R279). -/
def execBany (w : I24) (s : State) : Host.Outcome State Fault Refusal :=
  .next (issue (.bany w) s fun s => s.transfer w.ctl (s.cur.em &&& s.cur.k ≠ 0) (s.cur.target w.imm))

/-- BALL (R279). -/
def execBall (w : I24) (s : State) : Host.Outcome State Fault Refusal :=
  .next (issue (.ball w) s fun s => s.transfer w.ctl (s.cur.em &&& s.cur.k = s.cur.em) (s.cur.target w.imm))

/-- BNONE (R279). -/
def execBnone (w : I24) (s : State) : Host.Outcome State Fault Refusal :=
  .next (issue (.bnone w) s fun s => s.transfer w.ctl (s.cur.em &&& s.cur.k = 0) (s.cur.target w.imm))

/-- MSTR (R281). -/
def execMstr (w : RR) (s : State) : Host.Outcome State Fault Refusal :=
  .next (issue (.mstr w) s fun s =>
    let n := (s.cur.srcS w.a).toNat
    let e := if n < s.cur.msdep.toNat then s.entry n else 0
    let lo := BitVec.ofNat 64 (bits e 63 0)
    let g := match w.d with
      | .reg r => (s.cur.swrite r lo).swrite (r + 1) (BitVec.ofNat 64 (bits e 127 64))
      | _ => s.cur
    (s.setCur g).retire w.ctl 1 (.s lo))

/-- MSTW (R281). -/
def execMstw (w : RR) (s : State) : Host.Outcome State Fault Refusal :=
  .next (issue (.mstw w) s fun s =>
    let n := (s.cur.srcS w.b).toNat
    let (lo, hi) := s.cur.srcS2 w.a
    let e := BitVec.ofNat 128 (lo.toNat + 2 ^ 64 * hi.toNat)
    let d := s.cur.msdep.toNat
    if d < n || 4 ≤ entryKind e || bits hi 59 48 ≠ 0 then s.illegalOperand
    else if n < d then (s.setEntry n e).doneN w.ctl
    else if !s.canPush 1 then s.overflow
    else (s.push e).doneN w.ctl)

/-! ### Leaving (R282, R283) -/

/-- EXIT: the group ends; in handler mode its launch ends (R114, R282). -/
def execExit (w : RR) (s : State) : Host.Outcome State Fault Refusal :=
  .next (issue (.exit w) s fun s =>
    if s.cur.hmode then s.endByTrap s.cur.hkind
    else
      let s := (s.setCur s.cur.countDown.countRegion).spend 1 w.ctl
      let s := s.sendWc s.cur.core s.cur.slot
      let s := s.setCur { s.cur with mstack := [], msdep := 0 }
      s.leave s.cur.core s.cur.slot)

/-- EXITL: the active lanes are live no longer (R283). -/
def execExitl (w : RR) (s : State) : Host.Outcome State Fault Refusal :=
  .next (issue (.exitl w) s fun s =>
    let g := s.cur
    (s.setCur { g with live := g.live &&& ~~~g.em, em := 0 }).doneN w.ctl)

end Sys2Proof.Machine
end

