-- ==== Sys2Proof/Machine/CrossLane.lean ====
section
/-! DEFINITION. Cross-lane instructions, group 0x6 (15_isa_vector.md, R309 to R315). -/

namespace Sys2Proof.Machine

/-- A vector result whose lane `i` reads lane `src i` of A (R309). -/
def State.doneCross (s : State) (w : RR) (b : Opd) (src : Fin 96 → Nat) : State :=
  let g := s.cur
  let a := g.srcV w.a
  let rd (j : Fin 96) : Bool := (List.finRange 96).any fun i => bit g.em i && src i = j.val && bit g.live j
  (s.doneV w.ctl w.d (lanes fun i => g.crossRead a (src i))).trackCross g rd w.d w.a b

/-- VPERM (R310). -/
def execVperm (w : RR) (s : State) : Host.Outcome State Fault Refusal :=
  .next (issue (.vperm w) s fun s =>
    let b := s.cur.srcV w.b
    s.doneCross w w.b fun i => b[i].toNat)

/-- VBCAST (R310). -/
def execVbcast (w : RR) (s : State) : Host.Outcome State Fault Refusal :=
  .next (issue (.vbcast w) s fun s =>
    let j := (s.cur.srcS w.b).toNat
    s.doneCross w .absent fun _ => j)

/-- The lane VSHFL reads (R311); 96 stands for no lane. -/
def shflLane (mode w i b : Nat) : Nat :=
  let base := i - i % w
  let j : Int :=
    match mode with
    | 0 => ((i ^^^ b : Nat) : Int)
    | 1 => (i : Int) - b
    | 2 => (i : Int) + b
    | _ => ((base + (i - base + b) % w : Nat) : Int)
  if j < base ∨ (base + w : Int) ≤ j then i else j.toNat

/-- VSHFL (R311). -/
def execVshfl (w : RR) (s : State) : Host.Outcome State Fault Refusal :=
  .next (issue (.vshfl w) s fun s =>
    let b := s.cur.srcV w.b
    let ws := bits w.e 4 2
    let width := if ws = 6 then 96 else 2 ^ ws
    s.doneCross w w.b fun i => shflLane (bits w.e 1 0) width i.val b[i].toNat)

/-! ### Reductions (R312, R313) -/

/-- Integer combinations: `fn` of R312 on 32-bit values, the sum as an integer. -/
def reduceInt (fn : Nat) (a b : Int) : Int :=
  match fn with
  | 0 => a + b
  | 1 | 3 => min a b
  | 2 | 4 => max a b
  | 5 => (((ofInt 32 a).toNat &&& (ofInt 32 b).toNat : Nat) : Int)
  | 6 => (((ofInt 32 a).toNat ||| (ofInt 32 b).toNat : Nat) : Int)
  | _ => (((ofInt 32 a).toNat ^^^ (ofInt 32 b).toNat : Nat) : Int)

/-- A lane read for the reduction: signed for add, min and max. -/
def reduceRead (fn : Nat) (h : Half) : Int := if fn ≤ 2 then h.toInt else (h.toNat : Int)

/-- What an integer reduction gives with no active lane. -/
def reduceEmpty (fn : Nat) : Int :=
  match fn with
  | 0 => 0
  | 1 => 2 ^ 31 - 1
  | 2 => -(2 ^ 31)
  | 3 => 2 ^ 32 - 1
  | 4 => 0
  | 5 => 2 ^ 32 - 1
  | _ => 0

/-- FP32 combinations with the flags of each step. -/
def reduceFp (fn a b : Nat) : FRes :=
  match fn with
  | 0 => fp32.addOp .rne false a b
  | 1 => ⟨fp32.minMax false a b, false, false⟩
  | _ => ⟨fp32.minMax true a b, false, false⟩

/-- What an FP32 reduction gives with no active lane. -/
def reduceFpEmpty (fn : Nat) : Nat :=
  match fn with
  | 0 => 0
  | 1 => fp32.infBits false
  | _ => fp32.infBits true

/-- A single value through the combination: one NaN is delivered as the canonical NaN (R226, log 24). -/
def reduceFpOne (v : Nat) : Nat := if (fp32.decode v).isNaN then fp32.canonNaN else v

/-- VREDS over the active lanes, ascending (R312). -/
def reduceLanes (fp : Bool) (fn : Nat) (g : Group) (a : Lanes) : Word × BitVec 5 :=
  match g.activeLanes with
  | [] => if fp then (BitVec.ofNat 64 (reduceFpEmpty fn), 0) else (ofInt 64 (reduceEmpty fn), 0)
  | i :: r =>
    if fp then
      let x := r.foldl (fun (acc : Nat × BitVec 5) j =>
        let y := reduceFp fn acc.1 a[j].toNat
        (y.val, acc.2 ||| y.flags)) (reduceFpOne a[i].toNat, 0)
      (BitVec.ofNat 64 x.1, x.2)
    else (ofInt 64 (r.foldl (fun z j => reduceInt fn z (reduceRead fn a[j])) (reduceRead fn a[i])), 0)

/-- VREDS (R312). -/
def execVreds (w : RR) (s : State) : Host.Outcome State Fault Refusal :=
  .next (issue (.vreds w) s fun s =>
    let g := s.cur
    let fp := bits w.e 4 3 = 1
    let a := if fp then g.srcF w.a else g.srcV w.a
    let r := reduceLanes fp (bits w.e 2 0) g a
    let g' := (g.putS w.d r.1).raise r.2
    ((s.setCur g').retire w.ctl g.cost (.s r.1)).trackCross g (fun i => bit g.em i) .absent w.a .absent)

/-- VSCAN's values, lane by lane (R313): what an active lane writes, the running value, and the flags. -/
def scanLanes (fp exc : Bool) (fn : Nat) (a : Lanes) : List (Fin 96) → Option Nat → Tab Half × BitVec 5
  | [], _ => ([], 0)
  | i :: r, acc =>
    let v := a[i].toNat
    let step : Nat × BitVec 5 :=
      match acc with
      | none => (if fp then reduceFpOne v else v, 0)
      | some x =>
        if fp then let y := reduceFp fn x v; (y.val, y.flags)
        else ((ofInt 32 (reduceInt fn (reduceRead fn (BitVec.ofNat 32 x)) (reduceRead fn a[i]))).toNat, 0)
    let empty : Nat := if fp then reduceFpEmpty fn else (ofInt 32 (reduceEmpty fn)).toNat
    let out : Nat := if exc then acc.getD empty else step.1
    let (t, f) := scanLanes fp exc fn a r (some step.1)
    -- the combination of an exclusive scan's last lane is formed by no lane
    ((i.val, BitVec.ofNat 32 out) :: t, f ||| (if exc && r.isEmpty then 0 else step.2))

/-- VSCAN (R313). -/
def execVscan (w : RR) (s : State) : Host.Outcome State Fault Refusal :=
  .next (issue (.vscan w) s fun s =>
    let g := s.cur
    let fp := bits w.e 4 3 = 1
    let a := if fp then g.srcF w.a else g.srcV w.a
    let r := scanLanes fp (bit w.e 5) (bits w.e 2 0) a g.activeLanes none
    (s.doneV w.ctl w.d (lanes fun i => Tab.get 0 r.1 i) r.2).trackCross g (fun i => bit g.em i) w.d w.a .absent)

/-- VBALLOT (R314). -/
def execVballot (w : RR) (s : State) : Host.Outcome State Fault Refusal :=
  .next (issue (.vballot w) s fun s =>
    let g := s.cur
    let a := g.srcV w.a
    let m := (maskOf fun i => a[i] ≠ 0) &&& g.em
    let lo := BitVec.ofNat 64 (bits m 63 0)
    let g' := match w.d with
      | .reg n => (g.swrite n lo).swrite (n + 1) (BitVec.ofNat 64 (bits m 95 64))
      | _ => g
    ((s.setCur g').retire w.ctl g.cost (.s lo)).trackCross g (fun i => bit g.em i) .absent w.a .absent)

end Sys2Proof.Machine
end

