-- ==== Sys2Proof/Machine/HostQueues.lean ====
section
/-! DEFINITION. Kicks, command-queue slots, command records and launches (05_queues_launch_completion.md, R89 to R99), interrupts and
ring heads (R103, R104). Events whose condition does not hold change nothing (log 20). -/

namespace Sys2Proof.Machine

/-! ### Slots and pending queues (R92 to R95) -/

def State.qslot (s : State) (i : Nat) : QSlot := Tab.get QSlot.idle s.que.slots i

def State.setQslot (s : State) (i : Nat) (q : QSlot) : State :=
  { s with que := { s.que with slots := Tab.set QSlot.idle s.que.slots i q } }

/-- The slot that maps a queue. -/
def State.queueSlot (s : State) (c : BitVec 12) (h : BitVec 16) : Option Nat :=
  (List.range 64).find? fun i => (s.qslot i).st ≠ .free && (s.qslot i).ctx = c && (s.qslot i).qh = h

/-- QEN. -/
def State.qen (s : State) (c : BitVec 12) : Bool := s.regBits (Reg.queue c.toNat 0) 0 0 = 1

def State.quota (s : State) (c : BitVec 12) : Nat := s.regBits (Reg.queue c.toNat 8) 63 58
def State.mapped (s : State) (c : BitVec 12) : Nat := s.regBits (Reg.queue c.toNat 8) 57 52

/-- MAPPED counts the slots that map a queue of the context. -/
def State.countMapped (s : State) (c : BitVec 12) : State :=
  s.setRegBits (Reg.queue c.toNat 8) 57 52
    ((List.range 64).filter fun i => (s.qslot i).st ≠ .free && (s.qslot i).ctx = c).length

/-- Queues of a context that are mapped now or will be once the swaps under way are done, whichever are more: what QUOTA bounds (R89, R94). -/
def State.claimed (s : State) (c : BitVec 12) : Nat :=
  max (s.mapped c) ((List.range 64).filter fun i =>
    let q := s.qslot i
    match q.nextQ with
    | some n => n.1 = c
    | none => q.st ≠ .free && q.ctx = c).length

/-- Bit h of the pending bitmap. -/
def State.setPendingBit (s : State) (c : BitVec 12) (h : BitVec 16) (b : Bool) : State :=
  let a := s.regBits (Reg.queue c.toNat 8) 51 6 * 64 + 8 * (h.toNat / 64)
  s.writeWord a (setBits (s.peek a).1 (h.toNat % 64) (h.toNat % 64) (b2n b))

/-- A queue becomes pending with EPRI := BPRI; one already pending keeps what it has (R91, R94). -/
def State.pend (s : State) (c : BitVec 12) (h : BitVec 16) : State :=
  let s := s.setPendingBit c h true
  if s.que.pending.any fun p => p.ctx = c && p.qh = h then s
  else
    let (s, n) := s.stamp
    { s with que := { s.que with
      pending := s.que.pending ++ [⟨c, h, BitVec.ofNat 8 (Qw.bpri (s.qword c h 0)), n⟩] } }

def State.unpend (s : State) (c : BitVec 12) (h : BitVec 16) : State :=
  let s := s.setPendingBit c h false
  { s with que := { s.que with pending := s.que.pending.filter fun p => !(p.ctx = c && p.qh = h) } }

/-- Firmware maps a queue into a slot (R93). -/
def State.mapQueue (s : State) (i : Nat) (c : BitVec 12) (h : BitVec 16) : State :=
  let s := s.unpend c h
  let w3 := s.qword c h 3
  (s.setQslot i ⟨.restoring, c, h, BitVec.ofNat 8 (Qw.bpri (s.qword c h 0)), BitVec.ofNat 32 (bits w3 63 32),
    BitVec.ofNat 32 (bits w3 31 0), BitVec.ofNat 48 (bits (s.qword c h 4) 63 16), bit (s.qword c h 5) 63, s.timebase, [], none⟩).countMapped c

/-- A slot stops starting commands (R93). -/
def State.unmapSlot (s : State) (i : Nat) : State :=
  let q := s.qslot i
  if q.st = .active then s.setQslot i { q with st := .saving } else s

/-- The quantum in ns. -/
def State.quantum (s : State) : Nat := 1000 * max 1 (s.regBits Reg.schcfg 63 48)

/-- EPRI of a victim: below every other where its ring is empty and no record waits (R94 step 3). -/
def QSlot.victimPri (q : QSlot) : Int := if q.rdix = q.wrix && !q.hwait then -1 else q.epri.toNat

/-- A before b as candidates (R94 step 1). -/
def PendQ.before (a b : PendQ) : Bool :=
  b.epri < a.epri || (a.epri = b.epri && (a.stamp < b.stamp || (a.stamp = b.stamp && (a.ctx < b.ctx || (a.ctx = b.ctx && a.qh ≤ b.qh)))))

/-- Firmware's evaluation (R94): candidates not in `passed` are tried in turn. Where QUOTA is written below MAPPED the literal words of step 3 would make the
queues of every context victims; here only the context's own are, until its slots are below QUOTA (DESIGN CHOICE, log 53). -/
def State.evaluate (s : State) (passed : List (BitVec 12 × BitVec 16)) : Nat → State
  | 0 => s
  | n + 1 =>
    let coming := (List.range 64).filterMap fun i => (s.qslot i).nextQ
    let l := s.que.pending.filter fun p => s.quota p.ctx ≠ 0 && s.qen p.ctx && !(decide ((p.ctx, p.qh) ∈ passed)) &&
      !(decide ((p.ctx, p.qh) ∈ coming))
    match (l.sortBy PendQ.before).head? with
    | none => s
    | some p =>
      let free := (List.range 64).find? fun i => (s.qslot i).st = .free
      match free, decide (s.claimed p.ctx < s.quota p.ctx) with
      | some i, true => State.evaluate (s.mapQueue i p.ctx p.qh) passed n
      | _, room =>
        let vs := (List.range 64).filter fun i =>
          let q := s.qslot i
          q.st = .active && (room || q.ctx = p.ctx) && s.quantum ≤ (s.timebase - q.mappedAt).toNat
        let before (a b : Nat) : Bool :=
          let x := s.qslot a
          let y := s.qslot b
          x.victimPri < y.victimPri || (x.victimPri = y.victimPri && (x.mappedAt < y.mappedAt || (x.mappedAt = y.mappedAt && a ≤ b)))
        match (vs.sortBy before).head? with
        | none => State.evaluate s ((p.ctx, p.qh) :: passed) n
        | some v =>
          if (s.qslot v).victimPri < (p.epri.toNat : Int) then
            State.evaluate ((s.setQslot v { s.qslot v with nextQ := some (p.ctx, p.qh) }).unmapSlot v) passed n
          else State.evaluate s ((p.ctx, p.qh) :: passed) n

/-- Firmware wakes. -/
def State.wakeFirmware (s : State) : State := s.evaluate [] (s.que.pending.length + 64)

/-! ### Kicks (R91) -/

/-- LOGSZ of a command queue, none where it is out of range. -/
def State.logsz (s : State) (c : BitVec 12) (h : BitVec 16) : Option Nat :=
  let l := bits (s.qword c h 2) 63 59
  if 4 ≤ l && l ≤ 16 then some l else none

/-- The queue stops on an error: ERR, and the slot is saved (R91, R93, R96). -/
def State.queueError (s : State) (c : BitVec 12) (h : BitVec 16) : State :=
  let s := s.setErr c h
  match s.queueSlot c h with
  | some i => s.unmapSlot i
  | none => s

/-- A kick of the context, once no save holds it. -/
def State.applyKick (s : State) (c : BitVec 12) (w : Word) : State :=
  let h := BitVec.ofNat 16 (bits w 63 48)
  let new := BitVec.ofNat 32 (bits w 31 0)
  let w0 := s.qword c h 0
  let slot := s.queueSlot c h
  let (rd, wr, seq) : BitVec 32 × BitVec 32 × BitVec 48 := match slot with
    | some i => ((s.qslot i).rdix, (s.qslot i).wrix, (s.qslot i).cseq)
    | none => (BitVec.ofNat 32 (bits (s.qword c h 3) 63 32), BitVec.ofNat 32 (bits (s.qword c h 3) 31 0),
        BitVec.ofNat 48 (bits (s.qword c h 4) 63 16))
  if !s.qen c || Qw.type w0 ≠ 1 || !Qw.en w0 || Qw.err w0 || 2 ^ 31 ≤ (new - wr).toNat then
    s.countReg (Reg.queue c.toNat 48) 63 32
  else
    match s.logsz c h with
    | none => (s.queueError c h).postCompletion c 0 seq.toNat h.toNat 10 0 0 0
    | some l =>
      if 2 ^ l < (new - rd).toNat then (s.queueError c h).postCompletion c 0 seq.toNat h.toNat 10 0 0 0
      else
        match slot with
        | some i => s.setQslot i { s.qslot i with wrix := new }
        | none => ((s.setQword c h 3 (setBits (s.qword c h 3) 31 0 new.toNat)).pend c h).wakeFirmware

/-- DOORBELL_KICK of context ev.a with ev.w; one whose slot is SAVING is held (R93). -/
def execDoorbellKick (s : State) : Host.Outcome State Fault Refusal :=
  let c := BitVec.ofNat 12 s.ev.a
  let h := BitVec.ofNat 16 (bits s.ev.w 63 48)
  .next (
    match s.queueSlot c h with
    | some i =>
      let q := s.qslot i
      if q.st = .saving then s.setQslot i { q with held := q.held ++ [s.ev.w] } else s.applyKick c s.ev.w
    | none => s.applyKick c s.ev.w)

/-! ### Saves, restores and boundaries (R93, R94) -/

/-- QUANTUM_BOUNDARY. -/
def execQuantumBoundary (s : State) : Host.Outcome State Fault Refusal :=
  let s : State := { s with que := { s.que with pending := s.que.pending.map fun (p : PendQ) => { p with epri := satInc p.epri } } }
  .next s.wakeFirmware

/-- SLOT_RESTORE_DONE of slot ev.a; a queue disabled or in error meanwhile is saved again. -/
def execSlotRestoreDone (s : State) : Host.Outcome State Fault Refusal :=
  let i := s.ev.a
  let q := s.qslot i
  .next (if q.st ≠ .restoring then s
    else
      let s := s.setQslot i { q with st := .active, mappedAt := s.timebase }
      let w := s.qword q.ctx q.qh 0
      if !Qw.en w || Qw.err w then s.unmapSlot i else s)

/-- SLOT_SAVE_DONE of slot ev.a: the entry is written, and the queue for which the slot was saved takes it, if its context may still map
one; kicks held meanwhile are applied. A save is no wake of its own (R94). -/
def execSlotSaveDone (s : State) : Host.Outcome State Fault Refusal :=
  let i := s.ev.a
  let q := s.qslot i
  .next (if q.st ≠ .saving then s
    else
      let c := q.ctx
      let h := q.qh
      let s := s.setQword c h 3 (field 32 q.rdix.toNat ||| field 0 q.wrix.toNat)
      let s := s.setQword c h 4 (field 16 q.cseq.toNat)
      let s := s.setQword c h 5 (field 63 (b2n q.hwait))
      let s := (s.setQslot i QSlot.idle).countMapped c
      let w := s.qword c h 0
      let s := if q.rdix ≠ q.wrix && Qw.en w && !Qw.err w then s.pend c h else s
      let s := match q.nextQ with
        | some (c', h') =>
          if s.qen c' && s.claimed c' < s.quota c' && s.que.pending.any (fun p => p.ctx = c' && p.qh = h') then s.mapQueue i c' h' else s
        | none => s
      q.held.foldl (fun s k => s.applyKick c k) s)

/-! ### Queue operations (R89, R95, R147) -/

/-- Word 0 of an entry with EN or ERR changed, in the table and in a resident expert queue. -/
def State.setEntry0 (s : State) (c : BitVec 12) (h : BitVec 16) (hi : Nat) (b : Bool) : State :=
  let s := s.setQword c h 0 (setBits (s.qword c h 0) hi hi (b2n b))
  { s with sch := { s.sch with experts := s.sch.experts.map fun x =>
    if x.ctx = c && x.qh = h then { x with entry := x.entry.set 0 (setBits x.entry[0] hi hi (b2n b)) } else x } }

/-- QOP_DISABLE of queue ev.b of context ev.a (QOP 1). -/
def execQopDisable (s : State) : Host.Outcome State Fault Refusal :=
  let c := BitVec.ofNat 12 s.ev.a
  let h := BitVec.ofNat 16 s.ev.b
  let s := s.setEntry0 c h 59 false
  .next (if Qw.type (s.qword c h 0) ≠ 1 then s
    else
      let s := s.unpend c h
      match s.queueSlot c h with
      | some i => s.unmapSlot i
      | none => s)

/-- QOP_ENABLE (QOP 2). -/
def execQopEnable (s : State) : Host.Outcome State Fault Refusal :=
  .next (s.setEntry0 (BitVec.ofNat 12 s.ev.a) (BitVec.ofNat 16 s.ev.b) 59 true)

/-- QOP_CLEAR_ERROR (QOP 3). -/
def execQopClearError (s : State) : Host.Outcome State Fault Refusal :=
  let c := BitVec.ofNat 12 s.ev.a
  let h := BitVec.ofNat 16 s.ev.b
  let s := s.setEntry0 c h 58 false
  let w3 := s.qword c h 3
  .next (if Qw.type (s.qword c h 0) = 1 && (s.queueSlot c h).isNone && bits w3 63 32 ≠ bits w3 31 0 then s.pend c h else s)

/-! ### Command records (R96, R97) -/

/-- Launches of a queue that run (R95, R96). -/
def State.running (s : State) (c : BitVec 12) (h : BitVec 16) : Nat :=
  (s.sch.launches.filter fun x => x.2.ctx = c && x.2.lqh = h && !x.2.finished && !x.2.task).length

/-- Nonzero bits that a record's table does not define, an unknown OP, a bad CMP, or an address the command cannot have. -/
def State.malformed (s : State) (c : BitVec 12) (w : List Word) : Bool :=
  let x (i : Nat) : Word := w.getD i 0
  let op := bits (x 0) 63 56
  let zero (from' : Nat) : Bool := (w.drop from').all fun y => y = 0
  bits (x 0) 53 0 ≠ 0 || 4 ≤ op ||
  (if op = 0 then !zero 1
   else if op = 1 then !zero 2
   else
    !zero 4 || bits (x 3) 60 0 ≠ 0 || (op = 2 && bit (x 3) 63) || (op = 3 && bits (x 3) 63 62 ≠ 0) ||
    (if bit (x 3) 61 then bits (x 1) 1 0 ≠ 0 || bits (x 1) 63 32 ≠ 0 || s.regBits (Reg.sync c.toNat) 0 0 = 0
     else bits (x 1) 2 0 ≠ 0))

/-- The next record of a slot. -/
inductive NextRec
  | none
  /-- Its page is awaited (R78). -/
  | wait (s : State)
  /-- The words and CSEQ; none where it cannot be read. The slot has passed the record, which counts as waiting until it is done. -/
  | record (s : State) (w : Option (List Word)) (seq : BitVec 48)
  deriving Repr

/-- The record that waits, or the one at RDIX where a command may start (R93, R95, R104); a full event ring starts none, and a WAITV that
has started goes on. -/
def State.nextRecord (s : State) (i : Nat) : NextRec :=
  let q := s.qslot i
  let who : Waiter := .queue q.ctx q.qh
  let base := s.qword q.ctx q.qh 1
  let l := bits (s.qword q.ctx q.qh 2) 63 59
  let idx := if q.hwait then q.rdix - 1 else q.rdix
  let va := base + BitVec.ofNat 64 (64 * (idx.toNat % 2 ^ l))
  if q.st ≠ .active || !s.qen q.ctx then .none
  else if !q.hwait && (s.ringFull q.ctx || q.rdix = q.wrix || 16 ≤ s.running q.ctx q.qh) then .none
  else
    let seq := if q.hwait then q.cseq - 1 else q.cseq
    let pass (s : State) : State :=
      if q.hwait then s
      else s.setQslot i { s.qslot i with rdix := q.rdix + 1, cseq := q.cseq + 1, hwait := true }
    match s.readVaWords who q.ctx va 8 with
    | .ok (s, w) => .record (pass s) (some w) seq
    | .error x => match s.stall who q.ctx va x 64 with
      | .fault s .. => .record (pass s) none seq
      | .wait s => .wait s

/-- The record of slot i is dealt with. -/
def State.recordDone (s : State) (i : Nat) : State :=
  let q := s.qslot i
  let s := s.setQslot i { q with hwait := false }
  { s with que := { s.que with begun := s.que.begun.filter fun x => x ≠ (q.ctx, q.qh) } }

/-- Firmware wakes if the ring of slot i has become empty in the step from `s` to `t` (R94). -/
def State.wakeEmpty (s t : State) (i : Nat) : State :=
  let q := t.qslot i
  if q.rdix ≠ (s.qslot i).rdix && q.rdix = q.wrix then t.wakeFirmware else t

/-- A record without BAR that waits for a page stays at RDIX: HWAIT belongs to WAITV and to records with BAR (R90). -/
def State.unpass (s : State) (i : Nat) : State :=
  let q := s.qslot i
  s.setQslot i { q with rdix := q.rdix - 1, cseq := q.cseq - 1, hwait := false }

/-- A bad record: consumed, ERR set, STATUS 1. -/
def State.badRecord (s : State) (i : Nat) (seq : BitVec 48) : State :=
  let q := s.qslot i
  ((s.recordDone i).queueError q.ctx q.qh).postCompletion q.ctx 0 seq.toNat q.qh.toNat 1 0 0 0

/-- A command that completes in the slot: its completion record where CMPL asks for one. -/
def State.commandDone (s : State) (i : Nat) (seq : BitVec 48) (cmpl : Bool) : State :=
  let q := s.qslot i
  let s := s.recordDone i
  if cmpl then s.postCompletion q.ctx 0 seq.toNat q.qh.toNat 0 0 0 0 else s

/-- The row of a record's OP: 0 for NOP and for what is no command. -/
def recordRow (w : Option (List Word)) : Nat :=
  match w with
  | some (x :: _) => let op := bits x 63 56; if 4 ≤ op then 0 else op
  | _ => 0

/-- The WAITV that waits in a slot has started: a full event ring does not stop it (R104). -/
def State.begun (s : State) (q : QSlot) : Bool := decide ((q.ctx, q.qh) ∈ s.que.begun)

/-- A record that has been read: bad ones fail, BAR waits (R96), a full event ring starts none (R104), and then its own effect. -/
def State.dealRecord (s : State) (i op : Nat) (w : Option (List Word)) (seq : BitVec 48)
    (f : State → Nat → List Word → BitVec 48 → State) : State :=
  let q := s.qslot i
  match w with
  | none => s.badRecord i seq
  | some w =>
    if s.malformed q.ctx w then s.badRecord i seq
    else if (bit (w.getD 0 0) 54 || op = 3) && s.running q.ctx q.qh ≠ 0 then s
    else if s.ringFull q.ctx && !(op = 2 && s.begun q) then s
    else f s i w seq

/-- The command `op` at the head of slot ev.a. -/
def State.onRecord (s0 : State) (op : Nat) (f : State → Nat → List Word → BitVec 48 → State) : State :=
  let i := s0.ev.a
  match s0.nextRecord i with
  | .none => s0
  | .wait s => s
  | .record s w seq => if recordRow w ≠ op then s0 else s0.wakeEmpty (s.dealRecord i op w seq f) i

def cmplOf (w : List Word) : Bool := bit (w.getD 0 0) 55

/-- CMD_NOP of slot ev.a; it also meets records that are no command. -/
def execCmdNop (s : State) : Host.Outcome State Fault Refusal :=
  .next (s.onRecord 0 fun s i w seq => s.commandDone i seq (cmplOf w))

/-- The value a WAITV looks at. -/
inductive Looked
  | val (s : State) (v : Nat)
  | wait (s : State)
  | bad (s : State)
  deriving Repr

def State.look (s : State) (c : BitVec 12) (h : BitVec 16) (sv : Bool) (a : Word) : Looked :=
  if sv then
    let s := s.synIn (synKey c a.toNat)
    .val s (s.syn (synKey c a.toNat)).val.toNat
  else
    match s.readVa (.queue c h) c a 8 with
    | .ok (s, v) => .val s v
    | .error x => match s.stall (.queue c h) c a x 8 with
      | .fault s .. => .bad s
      | .wait s => .wait s

/-- A WAITV, which has now started, compares and completes, or waits. -/
def State.tryWaitv (s : State) (i : Nat) (w : List Word) (seq : BitVec 48) : State :=
  let q := s.qslot i
  let s := { s with que := { s.que with begun := if s.begun q then s.que.begun else s.que.begun ++ [(q.ctx, q.qh)] } }
  let x (j : Nat) : Word := w.getD j 0
  let sv := bit (x 3) 61
  match s.look q.ctx q.qh sv (x 1) with
  | .wait s => s
  | .bad s => s.badRecord i seq
  | .val s v =>
    let want := if sv then bits (x 2) 31 0 else (x 2).toNat
    if (if bit (x 3) 62 then decide (v = want) else decide (want ≤ v)) then s.commandDone i seq (cmplOf w) else s

/-- WAITV of slot ev.a. -/
def execWaitv (s : State) : Host.Outcome State Fault Refusal := .next (s.onRecord 2 fun s i w seq => s.tryWaitv i w seq)

/-- WAITV_REREAD of slot ev.a: a WAITV that waits looks again. -/
def execWaitvReread (s : State) : Host.Outcome State Fault Refusal :=
  .next (if !(s.qslot s.ev.a).hwait then s else s.onRecord 2 fun s i w seq => s.tryWaitv i w seq)

/-- The highest program timestamp of any core: what a release at `.sys` of the whole part covers. -/
def State.partHigh (s : State) : BitVec 48 := s.cores.foldl (fun t x => max48 t x.2.hiPts) s.sch.partClock

/-- SIGNAL of slot ev.a: the store is a release at `.sys` (R96, R215); on a variable it is a SYNA, which may end a round (R131). -/
def execSignal (s : State) : Host.Outcome State Fault Refusal :=
  .next (s.onRecord 3 fun s i w seq =>
    let q := s.qslot i
    let x (j : Nat) : Word := w.getD j 0
    let high := s.partHigh
    let raise (s : State) (ts : BitVec 48) : State := { s with sch := { s.sch with partClock := max48 s.sch.partClock ts } }
    if bit (x 3) 61 then
      let key := synKey q.ctx (x 1).toNat
      let s := s.synIn key
      let v := s.syn key
      let ts := max48 high (v.rts + 1)
      let a := (x 1).toNat
      let new := bits (x 2) 31 0
      let s := (raise s ts).setSyn key ⟨BitVec.ofNat 32 new, ts, ts⟩
      let s := if new = 0 && s.joinWaits q.ctx a then s.endRound q.ctx a else s
      (s.synWake key).commandDone i seq (cmplOf w)
    else
      let who : Waiter := .queue q.ctx q.qh
      let t := match s.reach who q.ctx (x 1) 8 .engine with
        | .ok (pa, _) => (s.recall (pa / 128)).raiseRts (pa / 128) (high + 1)
        | _ => s
      match t.writeVa who q.ctx (x 1) 8 (x 2).toNat false with
      | .ok (s, ts) => (raise s ts).commandDone i seq (cmplOf w)
      | .error e => match s.stall who q.ctx (x 1) e 8 with
        | .fault s .. => s.badRecord i seq
        | .wait s => s)

/-! ### Launches (R97 to R99, R125) -/

/-- Non-canonical or not a multiple of `n`. -/
def badVa (va : Word) (n : Nat) : Bool := !canonical va || va.toNat % n ≠ 0

/-- Checks 1 to 3 of R99; 0 where all pass. -/
def Launch.check13 (l : Launch) : Nat :=
  let w (i : Nat) : Word := l.word i
  if bits (w 2) 15 0 ≠ 0 || bits (w 3) 11 0 ≠ 0 || bits (w 4) 11 0 ≠ 0 || !((l.words.drop 8).take 8).all (fun x => x = 0) || l.pcls = 3 then 1
  else if l.gx = 0 || l.gy = 0 || l.gz = 0 || 12 < l.chh || l.nlane = 0 || 96 < l.nlane || 128 < l.slicew || (0 < l.msd && l.msd < 8) then 2
  else if badVa l.entry 8 || (l.traph ≠ 0 && badVa l.traph 8) || (l.dtlen ≠ 0 && badVa l.dtb 8) || (l.csetn ≠ 0 && badVa l.csetb 16) then 3
  else 0

/-- Bits set in a word. -/
def popc (w : Word) : Nat := (List.range 64).foldl (fun n i => n + b2n (bit w i)) 0

/-- Checks 4 and 5. -/
def Launch.check45 (l : Launch) : Nat :=
  if 8 < l.csetn || l.csets.any fun x => 16 < popc x.1 || 8 < popc x.2 then 4
  else if 196608 < l.need then 5
  else 0

/-- Teams of the launch that an empty core holds (R123, R188). -/
def Launch.perCore (l : Launch) : Nat :=
  let runs := if l.need = 0 then 32 else (196608 - l.need) / ((l.need + 63) / 64 * 64) + 1
  min (min (if l.reserves then 8 / l.team else 32) (32 / l.team)) runs

/-- Clusters of the launch that an empty part holds within SECM (R125). -/
def State.emptyRoom (s : State) (l : Launch) : Nat :=
  l.perCore * (16 / l.cw) * (12 / l.chh) * ((List.range 4).filter fun i => (s.regBits (Reg.sched l.ctx.toNat 0) 3 0).testBit i).length

/-- The launch is admitted: a key, and no stale instruction of the context is left in a cache (R259). -/
def State.admitLaunch (s : State) (l : Launch) : State × Nat :=
  let (s, k) := s.stamp
  ((s.setLaunch k { l with stamp := k }).dropIcache l.ctx fun _ => true, k)

/-- What reading the launch record and its carry sets finds. -/
inductive LaunchRec
  | ok (s : State) (l : Launch)
  /-- It fails the check. -/
  | bad (s : State) (chk : Nat)
  | wait (s : State)
  deriving Repr

/-- Words of a context read for a queue or the intake; a fault fails check `chk`. -/
def State.queueRead (s : State) (c : BitVec 12) (who : Waiter) (va : Word) (n chk : Nat) (f : State → List Word → LaunchRec) : LaunchRec :=
  match s.readVaWords who c va n with
  | .ok (s, w) => f (s.clearVerdicts who) w
  | .error x => match s.stall who c va x (8 * n) with
    | .fault s .. => .bad s chk
    | .wait s => .wait s

/-- Pairs of words. -/
def pairsOf : List Word → List (Word × Word)
  | a :: b :: r => (a, b) :: pairsOf r
  | _ => []

/-- A launch record that has been read, checked in the order of R99; its carry sets are read on the way. -/
def State.checkRecord (s : State) (who : Waiter) (l : Launch) : LaunchRec :=
  if l.check13 ≠ 0 then .bad s l.check13
  else if 8 < l.csetn then .bad s 4
  else
    s.queueRead l.ctx who l.csetb (2 * l.csetn) 4 fun s w =>
      let l := { l with csets := pairsOf w }
      if l.check45 ≠ 0 then .bad s l.check45 else .ok s l

/-- The launch record at a VA. -/
def State.launchRecord (s : State) (c : BitVec 12) (h : BitVec 16) (seq : BitVec 48) (cmpl : Bool) (va : Word) : LaunchRec :=
  if badVa va 256 then .bad s 3
  else
    s.queueRead c (.queue c h) va 32 3 fun s w =>
      s.checkRecord (.queue c h) { Launch.none with ctx := c, words := w, lseq := seq, lqh := h, cmpl := cmpl, recVa := va }

/-- SECM = 0, or a concurrent grid that an empty part does not hold (R125). -/
def State.refusesLaunch (s : State) (l : Launch) : Bool :=
  s.regBits (Reg.sched l.ctx.toNat 0) 3 0 = 0 || (l.concurrent && s.emptyRoom l < l.gx * l.gy * l.gz)

/-- LAUNCH of slot ev.a. -/
def execLaunch (s : State) : Host.Outcome State Fault Refusal :=
  .next (s.onRecord 1 fun s i w seq =>
    let q := s.qslot i
    match s.launchRecord q.ctx q.qh seq (cmplOf w) (w.getD 1 0) with
    | .wait s => if bit (w.getD 0 0) 54 then s else s.unpass i
    | .bad s chk => (s.recordDone i).postCompletion q.ctx 0 seq.toNat q.qh.toNat 2 0 0 chk
    | .ok s l =>
      if s.refusesLaunch l then
        (s.recordDone i).postCompletion q.ctx 0 seq.toNat q.qh.toNat 3 0 0 0
      else ((s.recordDone i).admitLaunch l).1)

/-! ### Interrupts and ring heads (R103, R104) -/

/-- INTERRUPT_TIMER of context ev.a. -/
def execInterruptTimer (s : State) : Host.Outcome State Fault Refusal :=
  let c := BitVec.ofNat 12 s.ev.a
  let itime := s.regBits (Reg.queue c.toNat 32) 55 40
  let (n, t) := Tab.get (0, 0) s.que.since c.toNat
  .next (if itime ≠ 0 && n ≠ 0 && 1000 * itime ≤ (s.timebase - t).toNat then s.interrupt c else s)

/-- ERHEAD_WRITE of context ev.a: word +24 is written with ev.w. -/
def execErheadWrite (s : State) : Host.Outcome State Fault Refusal :=
  let c := BitVec.ofNat 12 s.ev.a
  let h := BitVec.ofNat 32 (bits s.ev.w 63 32)
  let d := (h - s.ringTail c).toNat
  .next (if 0 < d && d < 2 ^ 31 then s
    else
      let s := s.setRegBits (Reg.queue c.toNat 24) 63 32 h.toNat
      s.drainHeld c s.que.held.length)

end Sys2Proof.Machine
end

