-- ==== Sys2Proof/Machine/Package.lean ====
section
/-! DEFINITION. Power entry, islands, Pyrano and health objects (01_package_power_health.md, R8 to R23). Events act on the numbers and
samples of State.ev; one whose condition does not hold changes nothing (log 20). -/

namespace Sys2Proof.Machine

/-! ### Power entry (R8, R9) -/

/-- Every island reset: the state after reset, but for MSTAT, which the entry stage holds, the media, the entry itself, and the model's own
agenda and counters. -/
def State.resetIslands (s : State) : State :=
  { State.reset with
    agenda := s.agenda, ev := s.ev, freeCtr := s.freeCtr, seqCtr := s.seqCtr, mem := s.mem, poison := s.poison
    mgmt := Tab.set (regReset Reg.mstat) [] Reg.mstat (s.reg Reg.mstat)
    pkg := { State.reset.pkg with entry := s.pkg.entry } }

def State.setEntry' (s : State) (e : Entry) : State := { s with pkg := { s.pkg with entry := e } }

/-- ENTRY_OUT_OF_RANGE. -/
def execEntryOutOfRange (s : State) : Host.Outcome State Fault Refusal :=
  let e := s.pkg.entry
  .next (s.setEntry' { e with inRange := false, pwrbad := true, timedOut := e.timedOut && !e.inRange })

/-- ENTRY_BACK_IN_RANGE: an excursion of 50 µs or less of the running part is counted in DIPS. -/
def execEntryBackInRange (s : State) : Host.Outcome State Fault Refusal :=
  let e := s.pkg.entry
  let s' := s.setEntry' { e with inRange := true, pwrbad := false, timedOut := false }
  .next (if !e.inRange && !e.timedOut && !e.held then s'.countReg Reg.mstat 47 32 else s')

/-- EXCURSION_TIMEOUT: after 50 µs out of range every island is reset and PLOSS is set. -/
def execExcursionTimeout (s : State) : Host.Outcome State Fault Refusal :=
  let e := s.pkg.entry
  .next (if e.inRange || e.held then s
    else ((s.setRegBits Reg.mstat 0 0 1).resetIslands).setEntry' { e with timedOut := true, held := true })

/-- ENTRY_STABLE_TIMEOUT: within range for 1 ms, the islands leave reset. -/
def execEntryStableTimeout (s : State) : Host.Outcome State Fault Refusal :=
  let e := s.pkg.entry
  .next (if e.inRange && e.held then s.setEntry' { e with held := false } else s)

/-- COLD_START: MSTAT cleared, memory as after power-on, every island held in reset until the entry is stable. -/
def execColdStart (s : State) : Host.Outcome State Fault Refusal :=
  .next ({ State.reset with agenda := s.agenda, ev := s.ev, freeCtr := s.freeCtr, seqCtr := s.seqCtr }.setEntry'
    ⟨s.pkg.entry.inRange, s.pkg.entry.pwrbad, false, true⟩)

/-! ### Islands (R11 to R19) -/

/-- 100 times the footprint in cm² (R17). -/
def footprint (n : Nat) : Nat := if n < 96 then 60 else if n < 112 then 90 else 40

/-- The lowest step and the rated maximum of an island (R15, R20): of the arithmetic clock for cores, L2 and the synchronisation engine, fixed
for the management cores, set by the attached standard for the others. -/
def lowestStep (n : Nat) : Nat := if n < 112 || n = 127 then 800 else if n = 126 then 1000 else Config.lowestStep n
def ratedMax (n : Nat) : Nat := if n < 112 || n = 127 then 2000 else if n = 126 then 1000 else Config.ratedMax n

/-- The island runs at `f` MHz, with the supply voltage for it, and Pyrano has still to step it down to `goal`, 0 for no more (R13). -/
def Island.run (i : Island) (n f goal : Nat) : Island :=
  { i with mhz := BitVec.ofNat 12 f, supply := Config.supplyFor n f, stepTo := goal }

/-- FMAX clamped to the rated maximum and rounded down to a step (R14); no island runs below its lowest step. -/
def State.ceiling (s : State) (n : Nat) : Nat :=
  max (lowestStep n) (min (s.regBits (Reg.islandCtl n) 39 28) (ratedMax n) / 25 * 25)

/-- PLIM in units of 10 µW. -/
def State.plim (s : State) (n : Nat) : Nat := 10000 * s.regBits (Reg.islandCtl n) 63 48

/-- TLIM in units of 0.125 °C. -/
def State.tlim (s : State) (n : Nat) : Int := 8 * s.regBits (Reg.islandCtl n) 47 40

def State.capOn (s : State) : Bool := s.regBits Reg.pycfg 8 8 = 1

/-- 256 times Pcap, in units of 10 µW (R17). -/
def State.pcap256 (s : State) (n : Nat) : Nat := s.regBits Reg.pycfg 7 0 * s.regBits Reg.pycfg 31 16 * footprint n * 100

/-- Power and temperature that the telemetry register shows. -/
def State.powerNow (s : State) (n : Nat) : Nat :=
  s.regBits (Reg.telemetry n) 63 48 * s.regBits (Reg.telemetry n) 47 32
def State.tempNow (s : State) (n : Nat) : Int := signedOf 12 (s.regBits (Reg.telemetry n) 31 20)

/-- Power and temperature at a frequency, with `k` of ten windows stopped. -/
def State.predictPower (s : State) (n f k : Nat) : Nat :=
  Config.powerAt n (s.powerNow n) (s.tempNow n) (s.island n).mhz.toNat f k
def State.predictTemp (s : State) (n f k : Nat) : Int :=
  Config.tempAt n (s.powerNow n) (s.tempNow n) (s.island n).mhz.toNat f k

/-- The island's own limits, PLIM and TLIM, at a step. -/
def State.meetsOwn (s : State) (n f k : Nat) : Bool :=
  s.predictPower n f k ≤ s.plim n && s.predictTemp n f k ≤ s.tlim n

/-- The boiling-limit cap at a step. -/
def State.meetsCap (s : State) (n f k : Nat) : Bool := !s.capOn || 256 * s.predictPower n f k ≤ s.pcap256 n

/-- The highest 25 MHz step up to the ceiling that satisfies `ok`; the lowest step where none does (R13, R16). -/
def State.highestStep (s : State) (n : Nat) (ok : Nat → Bool) : Nat :=
  let c := s.ceiling n
  (((List.range ((c - lowestStep n) / 25 + 1)).map fun i => c - 25 * i).find? ok).getD (lowestStep n)

def State.ownStep (s : State) (n : Nat) : Nat := s.highestStep n fun f => s.meetsOwn n f 0
def State.capStep (s : State) (n : Nat) : Nat := s.highestStep n fun f => s.meetsCap n f 0

/-- Writes to PYCFG and to the island's control register since the last refresh are applied (R19). -/
def State.applyPending (s : State) : State :=
  let s' := s.pkg.pending.foldl (fun (t : State) (o, w) => match w with
    | some w => t.setReg o w
    | none => t) s
  { s' with pkg := { s'.pkg with pending := [] } }

/-- One island refreshed (R12): its telemetry, its controller's step (R13), and Pyrano's evaluation (R18). VOLT is the supply that the
controller has set; an island that the fitting does not use reports zero current (R11). By how much Pyrano steps an island down is the
model's choice (DESIGN CHOICE, log 69): to the lower of its own step and the cap's step, and by one step of 25 MHz at least. -/
def State.refreshIsland (s : State) (n : Nat) (x : IslandSample) : State :=
  let old := s.reg (Reg.telemetry n)
  let s := s.setReg (Reg.telemetry n)
    (field 48 (s.island n).supply.toNat ||| field 32 (if Config.unusedIsland n && 96 ≤ n then 0 else x.curr.toNat) ||| field 20 x.temp.toNat |||
      field 16 (b2n (s.island n).held) ||| field 0 ((bits old 15 0 + 1) % 2 ^ 16))
  let own := s.ownStep n
  let cap := s.capStep n
  let c := s.ceiling n
  let i := s.island n
  let stopping := i.windows ≠ 0
  let excess := s.capOn && s.pcap256 n < 256 * s.powerNow n
  let limi := (own < c && own ≤ cap) || (stopping && !s.meetsOwn n (lowestStep n) 0)
  let limc := (cap < c && cap ≤ own) || (stopping && !s.meetsCap n (lowestStep n) 0)
  let s := ((s.setRegBits (Reg.telemetry n) 19 19 (b2n limi)).setRegBits (Reg.telemetry n) 18 18 (b2n limc)).setRegBits
    (Reg.telemetry n) 17 17 (b2n (decide (s.tlim n < s.tempNow n)))
  s.setIsland n
    (if excess then i.run n (min i.mhz.toNat own) (max (lowestStep n) (min (min own cap) (i.mhz.toNat - 25)))
     else i.run n (min own cap) 0)

/-- TELEMETRY_REFRESH: sample n of ev.islands is island n's. -/
def execTelemetryRefresh (s : State) : Host.Outcome State Fault Refusal :=
  .next (((s.ev.islands.take 128).zipIdx).foldl (fun s x => s.refreshIsland x.2 x.1) s.applyPending)

/-- PYRANO_STEP_DOWN of island ev.a (R18). LIMC is telemetry, so the next refresh shows it (R12). -/
def execPyranoStepDown (s : State) : Host.Outcome State Fault Refusal :=
  let n := s.ev.a
  let i := s.island n
  .next (if i.stepTo = 0 then s
    else s.setIsland n (i.run n (min i.mhz.toNat i.stepTo) 0))

/-- Windows of every ten to stop (R16): as many, up to 9, as bring power and temperature down, at the lowest step. -/
def State.stopsWanted (s : State) (n : Nat) : Nat :=
  let f := lowestStep n
  if (s.island n).mhz.toNat ≠ f then 0
  else ((List.range 10).find? fun k => s.meetsOwn n f k && s.meetsCap n f k).getD 9

/-- Set bits of the low `n` bits. -/
def countOnes (w : BitVec 10) : Nat → Nat
  | 0 => 0
  | n + 1 => b2n (bit w n) + countOnes w n

/-- Lines of home slices that are reset: their L2 lines, homes and messages, the L1 copies, and the chip scratchpad beside them. -/
def State.clearSlices (s : State) (p : Nat → Bool) : State :=
  { s with
    coh := { s.coh with
      l2 := s.coh.l2.filter fun l => !p (homeSlice l.line), homes := s.coh.homes.filter fun x => !p (homeSlice x.1)
      msgs := s.coh.msgs.filter fun m => !p (homeSlice m.line)
      xspad := s.coh.xspad.filter fun x => !p (x.1 / 2 ^ 18), xpoison := s.coh.xpoison.filter fun k => !p (k / 2 ^ 15) }
    cores := s.cores.map fun x => (x.1, { x.2 with l1 := x.2.l1.filter fun l => !p (homeSlice l.line) }) }

def State.port (s : State) (p : Nat) : Port := Tab.get Port.idle s.net.ports p

def State.setPort (s : State) (p : Nat) (x : Port) : State :=
  { s with net := { s.net with ports := Tab.set Port.idle s.net.ports p x } }

/-- The islands that supply a port's four lanes, 18 lanes each (R11, R24). -/
def portIslands (p : Nat) : List Nat := [120 + 4 * p / 18, 120 + (4 * p + 3) / 18]

/-- What an island in reset has lost (DEDUCED, log 33): cores their state and the groups in their slots; L2 islands their lines and chip
scratchpad; a Kalren island the link state of its ports, which go down (State.settlePorts); the management island the registers but MSTAT and the REGF
of islands that are still held, and the queue slots; island 127 what its SRAM holds. -/
def State.clearIsland (s : State) (n : Nat) : State :=
  if n < 96 then
    let mine := s.groups.filter fun g => islandOf g.core = n
    let s := mine.foldl (fun s g => (s.modGroup g.core g.slot fun g => { g with inflight := [] }).removeGroup g.core g.slot) s
    let kept := s.sch.saved.filter fun g => islandOf g.core = n
    let s := kept.foldl State.releaseGroup { s with sch := { s.sch with saved := s.sch.saved.filter fun g => islandOf g.core ≠ n } }
    (List.range 8).foldl (fun s k => s.setCore (BitVec.ofNat 10 (8 * n + k)) Core.idle) s
  else if n < 112 then s.clearSlices fun k => k / 4 = n - 96
  else if n = 126 then
    let s' := { s with
      mgmt := Tab.set (regReset Reg.mstat) [] Reg.mstat (s.reg Reg.mstat), pkg := { s.pkg with pending := [] }, que := State.reset.que }
    ((List.range 128).filter fun k => (s.island k).held).foldl (fun s k => s.setRegBits (Reg.telemetry k) 16 16 1) s'
  else if n = 127 then
    { s with
      coh := { s.coh with sync := s.coh.sync.filter fun x => !decide (x.1 ∈ s.coh.resident), resident := [] }
      sch := { s.sch with taskQs := [], experts := [], round := [], eligible := [] } }
  else s

/-- Launches with a group on a core of the island: in a slot, as a record in a place, or saved (R16). -/
def State.launchesOn (s : State) (n : Nat) : List Nat :=
  ((s.groups.filter fun g => islandOf g.core = n).map Group.launch) ++ ((s.sch.places.filter fun p => islandOf p.core = n).map RecPlace.launch) ++
    (s.sch.saved.filter fun g => islandOf g.core = n).map Group.launch

/-- An island goes into reset: every launch with a group on a core of it ends as on teardown, what it held is lost, and REGF is shown in its
telemetry and in REGFA (R9, R12, R16). -/
def State.islandDown (s : State) (n : Nat) : State :=
  let s := ((s.launchesOn n).foldl (fun s k => s.endLaunch k 0xFF) s).clearIsland n
  (s.setRegBits (Reg.telemetry n) 16 16 1).setRegBits Reg.mstat 1 1 1

/-- The thermal trip (R16): the island is held in reset, TRIP and LASTI are set, and a link event goes to context 0. -/
def State.tripIsland (s : State) (n : Nat) : State :=
  let s := s.setIsland n { s.island n with held := true, tripped := true, stopped := false }
  let s := (s.setRegBits (Reg.telemetry n) 16 16 1).setRegBits Reg.mstat 3 3 1
  let s := s.setRegBits Reg.mstat 31 24 n
  (s.postLink 4 n 0 0 (s.reg (Reg.telemetry n))).islandDown n

/-- CLOCK_WINDOW of island ev.a: a stopped window where they are wanted, and the trip (R16); the refresh shows LIMI and LIMC (R12). The spec gives the number of windows of ten to
stop and not which: that a window is stopped whenever the nine before it hold fewer stopped ones than wanted is the model's choice (DESIGN
CHOICE, log 69). -/
def execClockWindow (s : State) : Host.Outcome State Fault Refusal :=
  let n := s.ev.a
  let i := s.island n
  .next (if 128 ≤ n || i.held || s.pkg.entry.held then s
    else
      let stop := decide (countOnes i.windows 9 < s.stopsWanted n)
      let w := (i.windows <<< 1) ||| BitVec.ofNat 10 (b2n stop)
      let s := s.setIsland n { i with windows := w, stopped := stop }
      let s :=
        if stop then
          (s.setRegBits Reg.mstat 2 2 1).setRegBits Reg.mstat 31 24 n
        else s
      if countOnes w 10 = 9 && s.tlim n + 80 ≤ s.tempNow n then s.tripIsland n else s)

/-- REGULATOR_FAULT of island ev.a (R12): REGF and REGFA are set, and the island is held in reset. -/
def execRegulatorFault (s : State) : Host.Outcome State Fault Refusal :=
  let n := s.ev.a
  .next (if 128 ≤ n then s else (s.setIsland n { s.island n with held := true, regFault := true, stopped := false }).islandDown n)

/-- ISLAND_RELEASE of island ev.a (R16): only a tripped one, once TEMP has fallen below TLIM. -/
def execIslandRelease (s : State) : Host.Outcome State Fault Refusal :=
  let n := s.ev.a
  let i := s.island n
  .next (if n < 128 && i.tripped && s.tempNow n < s.tlim n then
      (s.setIsland n { i with tripped := false, held := i.regFault, windows := 0, stopped := false }).setRegBits (Reg.telemetry n) 16 16
        (b2n i.regFault)
    else s)

/-! ### Health objects (R21 to R23) -/

/-- RETRY of a link event: of the last window, at most 0xFFFF (R101). -/
def State.postHealth (s : State) (kind k : Nat) : State :=
  s.postLink kind k 0 (s.regBits (Reg.health k 8) 63 32) (s.reg (Reg.health k 0))

/-- One object at the end of its window (R22). -/
def State.healthObject (s : State) (k : Nat) (x : HealthSample) : State :=
  if absentLane k then s
  else
    let s := s.setReg (Reg.health k 0) (field 48 x.eyeh.toNat ||| field 32 x.eyev.toNat ||| field 0 x.fecc.toNat)
    let s := s.setRegBits (Reg.health k 8) 63 32 x.retry.toNat
    let t := s.reg (Reg.threshold k 0)
    let bad := x.eyeh.toNat < bits t 63 48 || x.eyev.toNat < bits t 47 32 || bits t 31 0 < x.fecc.toNat ||
      s.regBits (Reg.threshold k 8) 63 32 < x.retry.toNat
    let was := decide (k ∈ s.pkg.degraded)
    let deg := s.regBits (Reg.health k 8) 0 0 = 1
    let s := { s with pkg := { s.pkg with degraded := putSector k bad s.pkg.degraded } }
    if bad && (!was || !deg) then (s.setRegBits (Reg.health k 8) 0 0 1).postHealth 1 k else s

/-- The retries of a Kalren lane are the retry requests of its port (R28). -/
def State.laneSample (s : State) (k : Nat) (x : HealthSample) : HealthSample :=
  if k < 72 then { x with retry := BitVec.ofNat 32 (min (s.port (k / 4)).window 0xFFFFFFFF) } else x

/-- HEALTH_WINDOW: sample k of ev.health is object k's; a new window begins. -/
def execHealthWindow (s : State) : Host.Outcome State Fault Refusal :=
  let s := ((s.ev.health.take 224).zipIdx).foldl (fun s x => s.healthObject x.2 (s.laneSample x.2 x.1)) s
  .next ((List.range 18).foldl (fun s p => s.setPort p { s.port p with window := 0 }) s)

end Sys2Proof.Machine
end

