-- ==== Sys2Proof/Machine/Kalren.lean ====
section
/-! DEFINITION. Kalren (02_kalren_network.md, R24 to R46): the link layer of a port, connections, sending and receiving, and the network
engine's commands NSEND and NPOST (R374). Events whose condition does not hold change nothing (log 20). -/

namespace Sys2Proof.Machine

/-! ### Bytes, headers and seals (R26, R32) -/

/-- The number whose little-endian bytes are `l`. -/
def leNat : List Byte → Nat
  | [] => 0
  | b :: r => b.toNat + 256 * leNat r

/-- `n` little-endian bytes of `v`. -/
def leBytes (v n : Nat) : List Byte := (List.range n).map fun i => BitVec.ofNat 8 (v / 256 ^ i)

/-- Bytes as little-endian words. -/
def byteWords (l : List Byte) (n : Nat) : List Word := (List.range n).map fun i => BitVec.ofNat 64 (leNat ((l.drop (8 * i)).take 8))

def bytesOfWords (l : List Word) : List Byte := l.flatMap fun w => leBytes w.toNat 8

/-- A header from the values of its fields, each with its lowest bit. -/
def hdrOf (l : List (Nat × Nat)) : BitVec 128 := BitVec.ofNat 128 (l.foldl (fun n x => n + x.2 * 2 ^ x.1) 0)

/-- A header as it is sent, most significant byte first. -/
def hdrBytes (h : BitVec 128) : List Byte := (leBytes h.toNat 16).reverse

def Hdr.vc (h : BitVec 128) : Nat := bits h 123 122
def Hdr.kind (h : BitVec 128) : Nat := bits h 121 120
def Hdr.lseq (h : BitVec 128) : Nat := bits h 119 108
def Hdr.lack (h : BitVec 128) : Nat := bits h 107 96
def Hdr.op (h : BitVec 128) : Nat := bits h 63 60
def Hdr.msn (h : BitVec 128) : BitVec 16 := BitVec.ofNat 16 (bits h 55 40)
def Hdr.pidx (h : BitVec 128) : Nat := bits h 39 28
def Hdr.len (h : BitVec 128) : Nat := bits h 27 15
def Hdr.psz (h : BitVec 128) : Nat := bits h 14 13
def Hdr.astat (h : BitVec 128) : Nat := bits h 11 8

/-- A DATA or DATAF frame. -/
def Hdr.carries (h : BitVec 128) : Bool := Hdr.op h < 2

/-- Bytes of a frame (R26): header, tag and the rest around the payload, at least 64. -/
def frameBytes (h : BitVec 128) : Nat := if Hdr.kind h = 0 then max 64 (62 + Hdr.len h) else 64

/-- Credits of a frame (R29). -/
def frameCredits (h : BitVec 128) : Nat := (frameBytes h + 255) / 256

/-- The nonce: SIDE as 32 bits, then the IV. -/
def nonceOf (side : Nat) (iv : Word) : BitVec 96 := BitVec.ofNat 96 (side * 2 ^ 64 + iv.toNat)

/-- The key stream of GCM over the data (log 8). -/
def gcmCrypt (key : BitVec 256) (nonce : BitVec 96) (l : List Byte) : List Byte := l.zipIdx.map fun x => x.1 ^^^ Config.gcmStream key nonce x.2

/-- Ciphertext and tag (key, nonce, additional data, data). -/
def gcmSeal (key : BitVec 256) (nonce : BitVec 96) (aad data : List Byte) : List Byte × BitVec 128 :=
  let ct := gcmCrypt key nonce data
  (ct, Config.gcmTag key nonce aad ct)

/-- The data, where the tag verifies. -/
def gcmOpen (key : BitVec 256) (nonce : BitVec 96) (aad ct : List Byte) (tag : BitVec 128) : Option (List Byte) :=
  if Config.gcmTag key nonce aad ct = tag then some (gcmCrypt key nonce ct) else none

/-- GMAC: the tag over additional data alone. -/
def gmac (key : BitVec 256) (nonce : BitVec 96) (aad : List Byte) : BitVec 128 := Config.gcmTag key nonce aad []

/-- The key of a connection. The spec has the write of +56 complete a key and does not say what words +32..+48 written before it do to a key
already complete: here they take effect at once (DESIGN CHOICE, log 70). -/
def State.connKey (s : State) (c : Nat) : BitVec 256 :=
  BitVec.ofNat 256 ((List.range 4).foldr (fun i n => (s.reg (Reg.conn c (32 + 8 * i))).toNat + 2 ^ 64 * n) 0)

/-! ### Connections and ports -/

def State.conn (s : State) (c : Nat) : Conn := Tab.get Conn.idle s.net.conns c

def State.setConn (s : State) (c : Nat) (k : Conn) : State :=
  { s with net := { s.net with conns := Tab.set Conn.idle s.net.conns c k } }

def State.modConn (s : State) (c : Nat) (f : Conn → Conn) : State := s.setConn c (f (s.conn c))

def State.connBits (s : State) (c hi lo : Nat) : Nat := s.regBits (Reg.conn c 0) hi lo
def State.connOpen (s : State) (c : Nat) : Bool := s.regBits (Reg.conn c 16) 15 12 = 1
def State.ordered (s : State) (c : Nat) : Bool := s.connBits c 62 62 = 1
def State.connCtx (s : State) (c : Nat) : BitVec 12 := BitVec.ofNat 12 (s.connBits c 44 33)
def State.rxbase (s : State) (c : Nat) : BitVec 16 := BitVec.ofNat 16 (s.regBits (Reg.conn c 16) 47 32)

/-- Payload of a packet by PSZ. -/
def packetSize (psz : Nat) : Nat := 1024 * 2 ^ psz

def State.portUp (s : State) (p : Nat) : Bool := s.regBits (Reg.port p) 61 61 = 1

/-- The up ports of a connection's PMASK. -/
def State.upPorts (s : State) (c : Nat) : List Nat :=
  (List.range 18).filter fun p => (s.connBits c 32 15).testBit p && s.portUp p

def put4 (v : Vector Nat 4) (i x : Nat) : Vector Nat 4 := if h : i < 4 then v.set i x h else v

def State.wireOut (s : State) (p : Nat) (f : Frame) : State := { s with net := { s.net with wire := s.net.wire ++ [(p, f)] } }

/-- A free word (log 4). -/
def State.freeW (s : State) : State × Word := ({ s with freeCtr := s.freeCtr + 1 }, Config.freeWord s.freeCtr)

/-! ### The end of sends (R37) -/

/-- Words of a task result (R67). -/
def resultWords (rtag serial : Word) (status : Nat) (time : Word) : List Word := [rtag, serial, field 60 status, time]

/-- A task result that cannot be written yet, since its buffer's page is awaited or held: the state in which it waits. -/
def State.resultWaits (s : State) (r : CmdRef) (va : Word) : Option State :=
  let who : Waiter := .engine r.core r.ctx 6
  let s := s.walkNow who r.ctx va
  match s.reach who r.ctx va 32 .engine with
  | .ok _ => none
  | .error x => match s.stall who r.ctx va x 32 with
    | .wait s => some s
    | .fault .. => none

/-- A result over bytes +0..+31 of a task's packet buffer, and tl6 (R375); one whose buffer faults is not written. -/
def State.endTask (s : State) (c : Nat) (a : Await) (ws : List Word) : State :=
  let s := s.modConn c fun k => { k with awaiting := k.awaiting.filter fun x => x.serial ≠ a.serial }
  let s := { s with cxl := { s.cxl with mailbox := match a.slot with
    | some x => s.cxl.mailbox.filter fun y => y ≠ x
    | none => s.cxl.mailbox } }
  let who : Waiter := .engine a.cmd.core a.cmd.ctx 6
  let (s, ts) := match s.writeVa who a.cmd.ctx a.va 32 (leNat (bytesOfWords ws)) false with
    | .ok x => x
    | .error x => match s.stall who a.cmd.ctx a.va x 32 with
      | .fault s .. | .wait s => (s, 0)
  s.setCoreCtx a.cmd.core a.cmd.ctx ((s.coreCtx a.cmd.core a.cmd.ctx).complete 6 a.cmd.num 0 ts)

/-- A task result for a connection: written to the buffer of the task it names, or kept among the results received until it can be. -/
def State.giveResult (s : State) (c : Nat) (w : List Word) : State :=
  match (s.conn c).awaiting.find? fun a => a.serial = w.getD 1 0 with
  | some a =>
    match s.resultWaits a.cmd a.va with
    | some s => { s with cxl := { s.cxl with results := s.cxl.results ++ [(c, w)] } }
    | none => s.endTask c a w
  | none => s

/-- The local result of a task whose message failed or whose result did not come (R375). -/
def State.localResult (s : State) (c : Nat) (serial : Word) (status : Nat) : State :=
  match (s.conn c).awaiting.find? fun a => a.serial = serial with
  | some a => s.giveResult c (resultWords a.rtag a.serial status s.timebase)
  | none => s

/-- A send is over (R37): tl4, and a completion record where it failed; of a task packet, its local result, 7 where it was dropped (R375). -/
def State.endSend (s : State) (c : Nat) (m : TxMsg) (status : Nat) : State :=
  if m.serial ≠ 0 then (if status = 0 then s else s.localResult c m.serial (if status = 8 then 7 else 0xF))
  else
    match m.cmd with
    | none => s
    | some r =>
      let s := s.setCoreCtx r.core r.ctx ((s.coreCtx r.core r.ctx).complete 4 r.num 0 0)
      if status = 0 then s else s.postCompletion r.ctx 1 r.num.toNat c status 0 0 0

/-- Every send in flight ends with the status, and what waits to be sent is dropped. -/
def State.endSends (s : State) (c status : Nat) : State :=
  let l := (s.conn c).tx
  let s := s.modConn c fun k => { k with tx := [] }
  let s := l.foldl (fun s m => s.endSend c m status) s
  { s with net := { s.net with ports := s.net.ports.map fun (i, p) => (i, { p with waiting := p.waiting.filter fun x => x.1 ≠ c }) } }

/-- A message and its frames that wait at ports are taken back. -/
def State.takeBack (s : State) (c : Nat) (msn : BitVec 16) : State :=
  let s := s.modConn c fun k => { k with tx := k.tx.filter fun x => x.msn ≠ msn }
  { s with net := { s.net with ports := s.net.ports.map fun (x : Nat × Port) =>
    (x.1, { x.2 with waiting := x.2.waiting.filter fun w => !(decide (w.1 = c) && Hdr.carries w.2.hdr && decide (Hdr.msn w.2.hdr = msn)) }) } }

/-- One send is over, with the status. -/
def State.endMsg (s : State) (c : Nat) (m : TxMsg) (status : Nat) : State := (s.takeBack c m.msn).endSend c m status

/-- A send in flight of a context that has turned viral is dropped when its next packet would leave (R46, R115, R393): it alone ends, with status 8,
and the connection stays open. -/
def State.dropSend (s : State) (c : Nat) (m : TxMsg) (x : BitVec 12) : State := (s.dropWrite x (field 63 1 ||| field 0 c)).endMsg c m 8

/-- A message has been taken up of which no packet has left, so that TXMSN is still its MSN (R34). -/
def Conn.unsent (k : Conn) : Bool := k.tx.any fun m => m.packets.all fun q => q.sent = 0

/-- A message's packet belongs to a command of a viral context, so that no frame of it leaves (R46). -/
def State.viralSend (s : State) (c : Nat) (msn : BitVec 16) : Option (TxMsg × BitVec 12) :=
  match (s.conn c).tx.find? fun m => m.msn = msn with
  | some m => match m.cmd with
    | some r => if s.viral r.ctx then some (m, r.ctx) else none
    | none => none
  | none => none

/-- One packet of a message changed. -/
def State.modPacket (s : State) (c : Nat) (msn : BitVec 16) (j : Nat) (f : Packet → Packet) : State :=
  s.modConn c fun k => { k with tx := k.tx.map fun m =>
    if m.msn = msn then { m with packets := m.packets.map fun q => if q.pidx = j then f q else q } else m }

/-- The frame waits no longer: a packet of a message is then not queued. -/
def State.unqueued (s : State) (c : Nat) (f : Frame) : State :=
  if Hdr.carries f.hdr then s.modPacket c (Hdr.msn f.hdr) (Hdr.pidx f.hdr) fun q => { q with queued := false } else s

/-- The connection enters error (R32, R37). -/
def State.failConn (s : State) (c status : Nat) : State :=
  ((s.setRegBits (Reg.conn c 16) 15 12 2).setRegBits (Reg.conn c 16) 11 8 status).endSends c status

/-! ### The link layer (R27 to R29) -/

/-- Credits returned in the next frame: where several channels are owed some, the spec does not say which is returned first; here it is the lowest
(DESIGN CHOICE, log 70). -/
def Port.returns (x : Port) : Nat × Nat :=
  match (List.range 4).find? fun i => x.owed.toList.getD i 0 ≠ 0 with
  | some i => (i, min (x.owed.toList.getD i 0) 4095)
  | none => (0, 0)

def Port.pay (x : Port) : Port :=
  let (i, n) := x.returns
  { x with owed := put4 x.owed i (x.owed.toList.getD i 0 - n) }

/-- A frame without sequence number: KIND 01 or 10. The spec states no destination address or priority for it: they are free. -/
def State.linkFrame (s : State) (p kind : Nat) : State :=
  let x := s.port p
  let (cvc, cred) := x.returns
  let (s, w) := s.freeW
  let f : Frame := ⟨BitVec.ofNat 48 w.toNat, BitVec.ofNat 48 (s.regBits (Reg.port p) 47 0), BitVec.ofNat 3 (bits w 50 48),
    BitVec.ofNat 16 (s.regBits Reg.netcfg 63 48),
    hdrOf [(124, 1), (120, kind), (96, x.lack.toNat), (94, cvc), (82, cred)], 0, [], 0⟩
  (s.setPort p x.pay).wireOut p f

/-- Bytes held for replay. -/
def Port.replayBytes (x : Port) : Nat := x.replay.foldl (fun n f => n + frameBytes f.hdr) 0

/-- A frame may go now: credits of its channel, room in the replay buffer. -/
def Port.canSend (x : Port) (f : Frame) : Bool :=
  frameCredits f.hdr ≤ x.credits.toList.getD (Hdr.vc f.hdr) 0 && x.replay.length < 2048 &&
  x.replayBytes + frameBytes f.hdr ≤ 524288

/-- A transport frame of connection `c` leaves: LSEQ, LACK, credits, IV and seal (R27, R29, R32). With the first frame of a message TXMSN
increments (R34). -/
def State.linkSend (s : State) (p c : Nat) (f : Frame) : State :=
  let x := s.port p
  let iv := s.reg (Reg.conn c 24)
  let (cvc, cred) := x.returns
  let h := f.hdr ||| hdrOf [(108, x.lseq.toNat), (96, x.lack.toNat), (94, cvc), (82, cred)]
  let (ct, tag) := gcmSeal (s.connKey c) (nonceOf (s.connBits c 14 14) iv) (hdrBytes h) f.payload
  let f := { f with src := BitVec.ofNat 48 (s.regBits (Reg.port p) 47 0), hdr := h, iv := iv, payload := ct, tag := tag }
  let v := Hdr.vc h
  let x := { x.pay with
    lseq := x.lseq + 1, replay := x.replay ++ [f], credits := put4 x.credits v (x.credits.toList.getD v 0 - frameCredits h) }
  let s := ((s.setPort p x).wireOut p f).setReg (Reg.conn c 24) (iv + 1)
  let first := (s.conn c).tx.any fun m => m.msn = Hdr.msn h && m.packets.all fun q => q.sent = 0
  let s := if Hdr.carries h && first then s.setRegBits (Reg.conn c 16) 63 48 (Hdr.msn h + 1).toNat else s
  let s := if Hdr.carries h then
      s.modPacket c (Hdr.msn h) (Hdr.pidx h) fun q => { q with sent := q.sent + 1, nobuf := false, queued := false, last := s.timebase }
    else s
  if 2 ^ 48 ≤ iv.toNat + 1 then s.failConn c 6 else s

/-- Waiting frames sent in order; a channel that lacks credits does not stall the others. A frame that has left the queue meanwhile, with a
connection that failed, is not sent, and none of a send of a viral context (R46), which is dropped. -/
def State.linkPump (s : State) (p : Nat) (stalled : List Nat) : List (Nat × Frame) → State
  | [] => s
  | (c, f) :: r =>
    let v := Hdr.vc f.hdr
    let x := s.port p
    if !decide ((c, f) ∈ x.waiting) then State.linkPump s p stalled r
    else if decide (v ∈ stalled) || !x.canSend f then State.linkPump s p (v :: stalled) r
    else
      match (if Hdr.carries f.hdr then s.viralSend c (Hdr.msn f.hdr) else none) with
      | some (m, y) => State.linkPump (s.dropSend c m y) p stalled r
      | none =>
        let s := s.setPort p { x with waiting := x.waiting.erase (c, f) }
        State.linkPump (s.linkSend p c f) p stalled r

/-- No frame leaves while the clock of an island that supplies the port is stopped or the island is in reset (R16). -/
def State.pumpPort (s : State) (p : Nat) : State :=
  if (portIslands p).all s.islandRuns then s.linkPump p [] (s.port p).waiting else s

/-- A frame handed to the port. -/
def State.linkQueue (s : State) (p c : Nat) (f : Frame) : State :=
  let x := s.port p
  (s.setPort p { x with waiting := x.waiting ++ [(c, f)] }).pumpPort p

/-- What every good frame brings: the peer's LACK frees the replay buffer, CVC and CRED return credits. -/
def State.linkAck (s : State) (p : Nat) (h : BitVec 128) : State :=
  let x := s.port p
  let replay := match x.replay.findIdx? fun f => Hdr.lseq f.hdr = Hdr.lack h with
    | some i => x.replay.drop (i + 1)
    | none => x.replay
  let v := bits h 95 94
  let x := { x with
    replay := replay, credits := put4 x.credits v (x.credits.toList.getD v 0 + bits h 93 82)
    retries := if replay.length < x.replay.length then 0 else x.retries }
  s.setPort p x

/-- The same, and the frames that can go now. -/
def State.linkTake (s : State) (p : Nat) (h : BitVec 128) : State := (s.linkAck p h).pumpPort p

/-! ### Sending (R32 to R37) -/

/-- The port for the next packet of a connection (R36): the lowest up port of an ordered one, round-robin otherwise. -/
def State.choosePort (s : State) (c : Nat) : Option (State × Nat) :=
  match s.upPorts c with
  | [] => none
  | p :: r =>
    if s.ordered c then some (s, p)
    else
      let k := s.conn c
      some (s.setConn c { k with rr := k.rr + 1 }, (p :: r).getD (k.rr % (r.length + 1)) p)

/-- A transport frame of a connection before it is sealed. -/
def State.transportFrame (s : State) (c vc op : Nat) (retx : Bool) (msn : BitVec 16) (pidx astat : Nat) (data : List Byte) : Frame :=
  ⟨BitVec.ofNat 48 (s.regBits (Reg.conn c 8) 47 0), 0, BitVec.ofNat 3 (s.connBits c 59 57), BitVec.ofNat 16 (s.regBits Reg.netcfg 63 48),
    hdrOf [(124, 1), (122, vc), (64, s.connBits c 56 45), (60, op), (59, s.connBits c 62 62), (58, b2n retx), (40, msn.toNat),
      (28, pidx), (15, data.length), (13, s.connBits c 61 60), (12, s.connBits c 14 14), (8, astat)],
    0, data, 0⟩

/-- An ACK (2), NAK (3) or NOBUF (4) for a packet, on VC 3, of a connection that is still open (R32). The spec does not say which port the answer of
a relaxed connection leaves on, nor what becomes of one for which no port of PMASK is up: it takes the next turn of the round-robin that its data
packets take, and is dropped (DESIGN CHOICE, log 70). -/
def State.answer (s : State) (c op : Nat) (msn : BitVec 16) (pidx astat : Nat) : State :=
  if !s.connOpen c then s
  else
    match s.choosePort c with
    | none => s
    | some (s, p) => s.linkQueue p c (s.transportFrame c 3 op false msn pidx astat [])

/-- Bytes of a context's memory as an engine reads them, line by line. -/
def State.readBytes (s : State) (who : Waiter) (x : BitVec 12) (va : Word) : Nat → Nat → Except (Xlat × Word) (State × List Byte)
  | 0, _ => .ok (s, [])
  | fuel + 1, n =>
    if n = 0 then .ok (s, [])
    else
      let m := min n (128 - va.toNat % 128)
      match s.readVa who x va m with
      | .error e => .error (e, va)
      | .ok (s, v) =>
        match State.readBytes s who x (va + BitVec.ofNat 64 m) fuel (n - m) with
        | .error e => .error e
        | .ok (s, r) => .ok (s, leBytes v m ++ r)

/-- What reading a packet of a message gives: its bytes, a page that is awaited, or the status with which the message fails. -/
inductive PacketRead
  | ok (s : State) (data : List Byte)
  | wait (s : State)
  | fail (s : State) (status : Nat)
  deriving Repr

/-- The bytes of packet j, read now (R35): a source that faults fails the message with status 2, poison with status 8 (R107). -/
def State.readPacket (s : State) (c : Nat) (m : TxMsg) (j : Nat) : PacketRead :=
  let size := packetSize (s.connBits c 61 60)
  let off := j * size
  let n := min size (m.len - off)
  match m.fixed with
  | some l => .ok s ((l.drop off).take n)
  | none =>
    match m.cmd with
    | none => .ok s []
    | some r =>
      let who : Waiter := .engine r.core r.ctx 4
      match s.readBytes who r.ctx (m.va + BitVec.ofNat 64 off) 64 n with
      | .ok (s, data) => .ok s data
      | .error (.bad 4 _ _, _) => .fail ((s.engConsume r.ctx).dropWrite r.ctx (field 63 1 ||| field 0 c)) 8
      | .error (x, va) => match s.stall who r.ctx va x (min n 128) with
        | .fault s .. => .fail s 2
        | .wait s => .wait s

/-- A packet transmitted (R36): it goes to its port, unless its context is viral (R46); one whose page is awaited takes no port and is sent later. A
source that faults fails the connection's sends with status 2; one that is poisoned makes the context viral, so that the send is dropped (R107). -/
def State.transmit (s : State) (c : Nat) (msn : BitVec 16) (j : Nat) : State :=
  match (s.conn c).tx.find? fun m => m.msn = msn with
  | none => s
  | some m =>
    if !s.connOpen c then s
    else
      match s.viralSend c msn with
      | some (m, x) => s.dropSend c m x
      | none =>
        if (s.upPorts c).isEmpty then s.failConn c 7
        else
          match s.readPacket c m j with
          | .wait s => s
          | .fail s st => if st = 8 then s.endMsg c m 8 else s.failConn c st
          | .ok s data =>
            match s.choosePort c with
            | none => s.failConn c 7
            | some (s, p) =>
              let again := (m.packets.getD j ⟨0, 0, false, false, 0, 0, false, false⟩).sent ≠ 0
              let s := s.modPacket c msn j fun q => { q with queued := true }
              s.linkQueue p c (s.transportFrame c (s.connBits c 59 57 / 3) (b2n (m.packets.length = j + 1)) again msn j 0 data)

/-- A message takes the next MSN, and its packets are sent (R34); TXMSN increments when the first of them leaves. Only one whose first packet can be
read is started, and none while another has sent no packet. -/
def State.startMsg (s : State) (c : Nat) (m : TxMsg) : State :=
  let msn := BitVec.ofNat 16 (s.regBits (Reg.conn c 16) 63 48)
  let size := packetSize (s.connBits c 61 60)
  let n := max 1 ((m.len + size - 1) / size)
  let m := { m with msn := msn, packets := (List.range n).map fun j => ⟨j, 0, false, false, 0, 0, false, false⟩ }
  let s := s.modConn c fun k => { k with tx := k.tx ++ [m] }
  (List.range n).foldl (fun s j => s.transmit c msn j) s

/-- A packet sent again, or its message failed after NTRY transmissions; neither on a connection that has failed meanwhile (R37). -/
def State.retryPacket (s : State) (c : Nat) (msn : BitVec 16) (q : Packet) : State :=
  if !s.connOpen c then s
  else if s.regBits Reg.netcfg 31 24 ≤ q.sent && q.sent ≠ 0 then s.failConn c (if q.refused then 4 else 3) else s.transmit c msn q.pidx

/-- Frames of the connection's messages that wait at ports are taken back. -/
def State.unqueue (s : State) (c : Nat) : State :=
  let s := { s with net := { s.net with ports := s.net.ports.map fun (x : Nat × Port) =>
    (x.1, { x.2 with waiting := x.2.waiting.filter fun w => !(decide (w.1 = c) && Hdr.carries w.2.hdr) }) } }
  s.modConn c fun k =>
    { k with tx := k.tx.map fun (m : TxMsg) => { m with packets := m.packets.map fun (q : Packet) => { q with queued := false } } }

/-- Unacknowledged packets of a connection from (MSN, PIDX) on, in order, sent again. -/
def State.resendFrom (s : State) (c : Nat) (msn : BitVec 16) (pidx : Nat) : State :=
  let s := s.unqueue c
  let l := (s.conn c).tx.flatMap fun m =>
    if 2 ^ 15 ≤ (m.msn - msn).toNat then []
    else m.packets.filterMap fun q => if q.acked || (m.msn = msn && q.pidx < pidx) then none else some (m.msn, q)
  l.foldl (fun s x => s.retryPacket c x.1 x.2) s

/-- All four lanes are trained. -/
def State.lanesUp (s : State) (p : Nat) : Bool :=
  (List.range 4).all fun i => s.regBits (Reg.health (4 * p + i) 8) 1 1 = 0

/-- The port goes down: the replay buffer and what waits are discarded, so that a packet waits at it no longer; connections that used it move on, or fail where no port is left.
The spec does not say what becomes of frames that were received and not yet taken: they stay, and their credits are owed on top of the 256 with which
the link starts again (DESIGN CHOICE, log 70). -/
def State.portDown (s : State) (p : Nat) : State :=
  let lowest (s : State) (c : Nat) : Bool := (s.upPorts c).head? = some p
  let users := s.net.conns.filterMap fun x =>
    if s.connOpen x.1 && (s.upPorts x.1).contains p && !x.2.tx.isEmpty then some (x.1, lowest s x.1) else none
  let s := (s.port p).waiting.foldl (fun s x => s.unqueued x.1 x.2) s
  let s := (s.setRegBits (Reg.port p) 61 61 0).setPort p { Port.idle with window := (s.port p).window, retraining := (s.port p).retraining }
  users.foldl (fun s u =>
    if (s.upPorts u.1).isEmpty then s.failConn u.1 7
    else if s.ordered u.1 && u.2 then
      match (s.conn u.1).tx with
      | [] => s
      | m :: _ => s.resendFrom u.1 m.msn 0
    else s) s

/-- UP after a change of PEN or of a lane; a port that retrains is not up. -/
def State.updatePort (s : State) (p : Nat) : State :=
  let up := s.regBits (Reg.port p) 63 63 = 1 && s.lanesUp p && (s.port p).retraining = 0
  if s.portUp p && !up then s.portDown p
  else if !s.portUp p && up then s.setRegBits (Reg.port p) 61 61 1
  else s

/-- The port retrains (R28): it is down until each of its lanes has trained or failed, as LANE_RETRAIN and LANE_DOWN say. -/
def State.retrain (s : State) (p : Nat) : State :=
  let s := s.portDown p
  s.setPort p { s.port p with retraining := 15 }

/-- Results of the intake that wait are sent as messages (R67); at most 64 messages of a connection are in flight (R35). -/
def State.startWaiting (s : State) (c : Nat) : State :=
  let k := s.conn c
  match k.waitTx with
  | [] => s
  | m :: r =>
    if !s.connOpen c then s.setConn c { k with waitTx := [] }
    else if 64 ≤ k.tx.length || k.unsent then s
    else (s.setConn c { k with waitTx := r }).startMsg c m

/-- Lanes of an island in reset are not trained: their ports go down and train again (R8, R25); what waits at a port that is not up has lost it too. -/
def State.settlePorts (s : State) : State :=
  (List.range 18).foldl (fun s p =>
    if s.portUp p && (s.pkg.entry.held || (portIslands p).any fun n => (s.island n).held) then s.retrain p
    else if !s.portUp p && !(s.port p).waiting.isEmpty then s.portDown p else s) s

/-- What follows a step: ports that have lost their supply go down, and frames and messages that wait are sent. -/
def State.settleNet (s : State) : State :=
  let s := s.settlePorts
  let s := s.net.ports.foldl (fun s x => if x.2.waiting.isEmpty then s else s.pumpPort x.1) s
  s.net.conns.foldl (fun s x => if x.2.waitTx.isEmpty then s else s.startWaiting x.1) s

/-- A command of q4 that completes at once: tl4, and the record of a failure (R34, R374). -/
def State.endNsend (s : State) (core : BitVec 10) (x : BitVec 12) (m : Cmd) (c status : Nat) : State :=
  let k := s.coreCtx core x
  (s.setCoreCtx core x ((k.take 4).complete 4 m.num 0 0)).postCompletion x 1 m.num.toNat c status 0 0 0

/-- NSEND at the head of its timeline (R34, R35, R46, R374, R393). One whose first packet cannot be read sends nothing and takes no MSN; one before
which another has still to send its first packet waits, so that MSNs are taken in command order. -/
def execNsend (c : NetCmd) (s : State) : Host.Outcome State Fault Refusal :=
  let core := s.eng.core
  let x := s.eng.ctx
  let n := c.conn.toNat
  .next (
    match (s.coreCtx core x).head 4 with
    | none => s
    | some m =>
      if !canonical c.va || 2 ^ 20 < c.len.toNat then s.endNsend core x m n 5
      else if !s.connOpen n || s.connCtx n ≠ x then s.endNsend core x m n 9
      else if s.viral x then (s.dropWrite x (field 63 1 ||| field 0 n)).endNsend core x m n 8
      else if (s.upPorts n).isEmpty then s.endNsend core x m n 7
      else if 64 ≤ (s.conn n).tx.length || (s.conn n).unsent then s
      else
        let msg : TxMsg := ⟨0, c.va, c.len.toNat, none, some ⟨core, x, 4, m.num⟩, 0, []⟩
        match s.readPacket n msg 0 with
        | .wait s => s
        | .fail s st => s.endNsend core x m n st
        | .ok s _ => (s.setCoreCtx core x ((s.coreCtx core x).take 4)).startMsg n msg)

/-! ### Frames received by the link layer (R27 to R29) -/

/-- One more retry request on the port (R28). -/
def State.countRetry (s : State) (p : Nat) : State := s.setPort p { s.port p with window := (s.port p).window + 1 }

/-- A retry request sent: KIND 10 with LACK; KIND 00 frames are discarded until the next in order. After the eighth in a row the port
retrains. -/
def State.askRetry (s : State) (p : Nat) : State :=
  let s := (s.countRetry p).linkFrame p 2
  let x := s.port p
  if 8 ≤ x.asked + 1 then s.retrain p else s.setPort p { x with discarding := true, asked := x.asked + 1 }

/-- Credits owed to the peer for a frame that has been taken out of its buffer. -/
def State.owe (s : State) (p : Nat) (h : BitVec 128) : State :=
  let x := s.port p
  let v := Hdr.vc h
  s.setPort p { x with owed := put4 x.owed v (x.owed.toList.getD v 0 + frameCredits h) }

/-- A frame that the port does not discard unread: another EtherType or version (R26). -/
def State.knownFrame (s : State) (f : Frame) : Bool :=
  f.etype.toNat = s.regBits Reg.netcfg 63 48 && bits f.hdr 127 124 = 1

/-- FRAME_RECEIVE: KIND 00 frame ev.frame arrives at port ev.a; ev.flag: bad FCS or an uncorrectable codeword (R28). -/
def execFrameReceive (s : State) : Host.Outcome State Fault Refusal :=
  let p := s.ev.a
  let f := s.ev.frame
  .next (if !s.portUp p then s
    else if s.ev.flag then s.askRetry p
    else if !s.knownFrame f || Hdr.kind f.hdr ≠ 0 then s
    else
      let x := s.port p
      if Hdr.lseq f.hdr ≠ (x.lack + 1).toNat then (if x.discarding then s else s.askRetry p)
      else
        let s := (s.setPort p { x with lack := x.lack + 1, discarding := false, asked := 0 }).linkTake p f.hdr
        if 5 ≤ Hdr.op f.hdr then s.owe p f.hdr
        else { s with net := { s.net with inbox := s.net.inbox ++ [(p, f)] } })

/-- CREDIT_ACK_FRAME: KIND 01 frame ev.frame at port ev.a (R27, R29). -/
def execCreditAckFrame (s : State) : Host.Outcome State Fault Refusal :=
  let p := s.ev.a
  let f := s.ev.frame
  .next (if s.portUp p && s.knownFrame f && Hdr.kind f.hdr = 1 then s.linkTake p f.hdr else s)

/-- RETRY_REQUEST: KIND 10 frame ev.frame at port ev.a (R28): every frame still held is sent again, and new ones after them. After the eighth
in a row without progress the port retrains. -/
def execRetryRequest (s : State) : Host.Outcome State Fault Refusal :=
  let p := s.ev.a
  let f := s.ev.frame
  .next (if s.portUp p && s.knownFrame f && Hdr.kind f.hdr = 2 then
      let s := (s.countRetry p).linkAck p f.hdr
      let x := s.port p
      if 8 ≤ x.retries + 1 then s.retrain p
      else (x.replay.foldl (fun s f => s.wireOut p f) (s.setPort p { x with retries := x.retries + 1 })).pumpPort p
    else s)

/-- LACK_TIMER of port ev.a: nothing else was sent within 200 ns (R27). -/
def execLackTimer (s : State) : Host.Outcome State Fault Refusal :=
  .next (if s.portUp s.ev.a then s.linkFrame s.ev.a 1 else s)

/-! ### Answers and timers (R37, R40) -/

/-- What a frame at the head of those received is. -/
inductive Taken
  | none
  /-- Not a frame of the kind asked for, or discarded (R33). -/
  | discard (s : State)
  | ok (s : State) (c : Nat) (h : BitVec 128) (data : List Byte)
  deriving Repr

/-- The oldest frame that port ev.a has received on channel ev.b (R29), where its OP is `op`: taken out, its credits owed, and authenticated
(R32, R33). -/
def State.takeFrame (s : State) (op : Nat) : Taken :=
  match s.net.inbox.find? fun x => x.1 = s.ev.a && Hdr.vc x.2.hdr = s.ev.b with
  | none => .none
  | some (p, f) =>
    let h := f.hdr
    if Hdr.op h ≠ op then .none
    else
      let s := { s with net := { s.net with inbox := s.net.inbox.erase (p, f) } }.owe p h
      let c := bits h 79 64
      if 4096 ≤ c then .discard s
      else if !s.connOpen c || bits h 12 12 = s.connBits c 14 14 then .discard (s.countReg (Reg.conn c 16) 31 16)
      else
        match gcmOpen (s.connKey c) (nonceOf (bits h 12 12) f.iv) (hdrBytes h) f.payload f.tag with
        | none => .discard (s.countReg (Reg.conn c 16) 31 16)
        | some d => .ok s c h d

def State.txMsg (s : State) (c : Nat) (msn : BitVec 16) : Option TxMsg := (s.conn c).tx.find? fun m => m.msn = msn

def TxMsg.packet (m : TxMsg) (j : Nat) : Option Packet := m.packets.find? fun q => q.pidx = j

/-- ACK_RECEIVE: a packet is acknowledged; the final one ends the message with the status it carries (R37). -/
def execAckReceive (s : State) : Host.Outcome State Fault Refusal :=
  .next (
    match s.takeFrame 2 with
    | .none => s
    | .discard s => s
    | .ok s c h _ =>
      match s.txMsg c (Hdr.msn h) with
      | none => s
      | some m =>
        if Hdr.pidx h + 1 = m.packets.length then
          (s.modConn c fun k => { k with tx := k.tx.filter fun x => x.msn ≠ m.msn }).endSend c m (Hdr.astat h)
        else s.modPacket c m.msn (Hdr.pidx h) fun q => { q with acked := true, nobuf := false, refused := false })

/-- NAK_RECEIVE: an ordered connection sends again from the packet it names (R40). -/
def execNakReceive (s : State) : Host.Outcome State Fault Refusal :=
  .next (
    match s.takeFrame 3 with
    | .none => s
    | .discard s => s
    | .ok s c h _ => if s.ordered c then
        (s.modPacket c (Hdr.msn h) (Hdr.pidx h) fun q => { q with refused := false }).resendFrom c (Hdr.msn h) (Hdr.pidx h) else s)

/-- NOBUF_RECEIVE: the packet waits 2 µs, doubling each time up to 64 µs (R37). -/
def execNobufReceive (s : State) : Host.Outcome State Fault Refusal :=
  .next (
    match s.takeFrame 4 with
    | .none => s
    | .discard s => s
    | .ok s c h _ => s.modPacket c (Hdr.msn h) (Hdr.pidx h) fun q =>
        if q.acked then q else { q with nobuf := true, refused := true, backoff := if q.backoff = 0 then 2 else min 64 (2 * q.backoff), last := s.timebase })

/-- A timer of packet ev.c of message ev.b of connection ev.a: RTO, or the back-off of a NOBUF. -/
def State.packetTimer (s : State) (nobuf : Bool) : State :=
  let c := s.ev.a
  let msn := BitVec.ofNat 16 s.ev.b
  match (s.txMsg c msn).bind fun m => m.packet s.ev.c with
  | none => s
  | some q =>
    let us := if nobuf then q.backoff else s.regBits Reg.netcfg 47 32
    if q.acked || q.queued || q.nobuf ≠ nobuf || (q.sent ≠ 0 && (s.timebase - q.last).toNat < 1000 * us) then s else s.retryPacket c msn q

/-- RTO_EXPIRY (R37); it also sends a packet that waited for its source page. -/
def execRtoExpiry (s : State) : Host.Outcome State Fault Refusal := .next (s.packetTimer false)

/-- NOBUF_BACKOFF_EXPIRY (R37). -/
def execNobufBackoffExpiry (s : State) : Host.Outcome State Fault Refusal := .next (s.packetTimer true)

/-! ### Receiving (R38 to R45) -/

/-- An intake connection of an -L part (R65). -/
def intakeConn (c : Nat) : Bool := decide (4032 ≤ c) && decide (c ≤ 4095) && Config.fittingL

/-- Bytes of the part's own buffer for a message on the connection: of the intake, of a task result; none where NPOST posts them. -/
def State.ownBuffer (s : State) (c : Nat) : Option Nat :=
  if intakeConn c then some 256 else if (s.conn c).awaiting.any fun a => a.slot.isNone then some 32 else none

/-- The buffer of message RXBASE + d (R38). -/
def State.bufferFor (s : State) (c d : Nat) : Option (Posted × Option (List Byte)) :=
  match s.ownBuffer c with
  | some n => if d < 16 then some (⟨0, n, none⟩, some (List.replicate n 0)) else none
  | none => ((s.conn c).posted[d]?).map fun b => (b, none)

/-- The receive side has a free message slot (R39). -/
def State.slotFree (s : State) : Bool := s.net.conns.foldl (fun n x => n + x.2.rx.length) 0 < 1024

/-- The translation of an address of a buffer waits for a walk of its page, or for a walker (R76). -/
def State.walkWaits (s : State) (who : Waiter) (x : BitVec 12) (va : Word) : Bool :=
  canonical va && s.ten x va && !inCodeWindow va && (s.leafOf who x va).isNone && s.walkBusy x va

/-- Where a pinned page that is mapped and writable maps an address of a buffer (R38), with its type and CO. -/
def State.pinnedAt (s : State) (who : Waiter) (x : BitVec 12) (va : Word) : Option (Nat × MType × Bool) :=
  if !canonical va || !s.ten x va || inCodeWindow va then none
  else
    match s.leafNow who x va with
    | none => none
    | some (level, e) =>
      if !Pte.pp e || Pte.si e then none
      else
        match s.checkLeaf x va .engine level e with
        | .ok pa mt co => some (pa, mt, co)
        | _ => none

/-- Pages of a range, each by an address of the range in it or beyond its end. -/
def rangePages (va : Word) (n : Nat) : List Word := (List.range ((va.toNat % 32768 + n + 32767) / 32768)).map fun i => va + BitVec.ofNat 64 (32768 * i)

/-- Every page of a range is. Whether a buffer of length 0 has a page to check is left open: the page of an unaligned address is checked, of an
aligned one none (DESIGN CHOICE, log 70). -/
def State.pinnedRange (s : State) (who : Waiter) (x : BitVec 12) (va : Word) (n : Nat) : Bool :=
  (rangePages va n).all fun a => (s.pinnedAt who x a).isSome

/-- The walks of a range that a requester has to make, read through the L2 (R71). -/
def State.walkRange (s : State) (who : Waiter) (x : BitVec 12) (va : Word) (n : Nat) : State :=
  (rangePages va n).foldl (fun s a => s.walkNow who x a) s

/-- What a write waits for. -/
inductive Blocked
  /-- Its home, or an agent outside: whose write, address, bytes, CO. -/
  | home (who : Waiter) (pa n : Nat) (co : Bool)
  /-- The walk of its page. -/
  | walk
  deriving Repr

/-- How a placement goes. -/
inductive Placement
  | ok (s : State) (ts : BitVec 48)
  | fault
  | wait (b : Blocked)
  deriving Repr

/-- Bytes written into a buffer line by line, as engine writes of the receive side (R222), at timestamps not below `floor`. -/
def State.placeData (s : State) (who : Waiter) (x : BitVec 12) (va : Word) (floor ts : BitVec 48) : Nat → List Byte → Placement
  | 0, _ => .ok s ts
  | fuel + 1, l =>
    if l.isEmpty then .ok s ts
    else
      let m := min l.length (128 - va.toNat % 128)
      let s := s.walkNow who x va
      if s.walkWaits who x va then .wait .walk
      else
      match s.pinnedAt who x va with
      | none => .fault
      | some (pa, mt, co) =>
        if s.heldNow who pa m true co then .wait (.home who pa m co)
        else if secondTier pa && s.viral x then
          State.placeData (s.dropWrite x va) who x (va + BitVec.ofNat 64 m) floor ts fuel (l.drop m)
        else
          let s := (s.passNow who pa true).markDirty who x va
          let (s, t) := (s.raiseRts (pa / 128) floor).writeAs mt co (pa / 128)
            (BitVec.ofNat 1024 (leNat (l.take m) * 2 ^ (8 * (pa % 128)))) (byteMask (pa % 128) m) 0
          State.placeData s who x (va + BitVec.ofNat 64 m) floor (max48 ts t) fuel (l.drop m)

/-- Bytes laid into a list from `off`. -/
def overlay (base : List Byte) (off : Nat) (l : List Byte) : List Byte := base.take off ++ l ++ base.drop (off + l.length)

/-- The receive side that places into a posted buffer. -/
def Posted.waiter (p : Posted) : Waiter :=
  match p.cmd with
  | some r => .engine r.core r.ctx 5
  | none => .intake

/-- The bytes of one packet placed (R42): those within the buffer, none after a fault. On an ordered connection they take timestamps not below
those of any earlier packet, and the final packet's are not below those of its message (R40, R41, R222). -/
def State.placePacket (s : State) (c : Nat) (m : RxMsg) (final : Bool) (off : Nat) (l : List Byte) : Except Blocked (State × RxMsg) :=
  let n := min l.length (m.buf.len - off)
  let m := { m with trunc := m.trunc || decide (n < l.length) }
  if m.faulted then .ok (s, m)
  else
    match m.own with
    | some b => .ok (s, { m with own := some (overlay b off (l.take n)), placed := m.placed + n })
    | none =>
      let floor := if s.ordered c then (s.conn c).ts else if final then m.ts else 0
      match s.placeData m.buf.waiter (s.connCtx c) (m.buf.va + BitVec.ofNat 64 off) floor m.ts 65 (l.take n) with
      | .ok s ts => .ok (s.modConn c fun k => { k with ts := max48 k.ts ts }, { m with placed := m.placed + n, ts := ts })
      | .fault => .ok (s, { m with faulted := true })
      | .wait b => .error b

/-- A receive-completion record (R43). -/
def recvRecord (c : Nat) (msn : BitVec 16) (status bytes : Nat) : Word :=
  field 48 c ||| field 32 msn.toNat ||| field 28 status ||| field 0 bytes

/-- An NPOST completes: its record goes to q5, and tl5 to its number (R43, R44). -/
def State.endNpost (s : State) (r : CmdRef) (w : Word) (ts : BitVec 48) : State :=
  s.setCoreCtx r.core r.ctx (((s.coreCtx r.core r.ctx).complete 5 r.num 0 ts).pushPop 5 ⟨w, ts⟩)

/-- RXBASE past every completed message, with the records in posting order (R43). -/
def State.sweepRx (s : State) (c : Nat) : Nat → State
  | 0 => s
  | n + 1 =>
    let k := s.conn c
    let b := s.rxbase c
    match k.done.find? fun d => d.msn = b with
    | none => s
    | some d =>
      let s := s.setRegBits (Reg.conn c 16) 47 32 (b + 1).toNat
      if d.own then State.sweepRx s c n
      else
        match k.posted with
        | [] => State.sweepRx s c n
        | p :: r =>
          let s := s.setConn c { k with posted := r }
          State.sweepRx (match p.cmd with
            | some x => s.endNpost x (recvRecord c d.msn d.status.toNat d.bytes) d.ts
            | none => s) c n

/-- A message is complete: its slots are free, what the part itself received is handed on, and RXBASE advances (R43). -/
def State.completeRx (s : State) (c : Nat) (m : RxMsg) (status : BitVec 4) : State :=
  let k := s.conn c
  let s := s.setConn c { k with rx := k.rx.filter fun x => x.msn ≠ m.msn, nextPidx := 0
                                done := k.done ++ [⟨m.msn, status, m.placed, m.ts, m.own.isSome⟩] }
  let s := { s with net := { s.net with holdSlots := s.net.holdSlots + b2n m.final.isSome } }
  let s := match m.own with
    | none => s
    | some b =>
      if status ≠ 0 then s
      else if intakeConn c then { s with cxl := { s.cxl with packets := s.cxl.packets ++ [(c, false, byteWords b 32)] } }
      else { s with cxl := { s.cxl with results := s.cxl.results ++ [(c, byteWords b 4)] } }
  let s := s.sweepRx c 65
  s.modConn c fun k => { k with done := k.done.filter fun d => (s.rxbase c - d.msn).toNat ≤ 64 || (d.msn - s.rxbase c).toNat < 64 }

/-- Status of a message all of whose packets have come. One of the part's own that does not fill its buffer has status 1, as R65 says of the intake; that
this is the network status in ASTAT, and no task result is sent for it, is read from R65 and not said there (DEDUCED, log 70). -/
def RxMsg.status (m : RxMsg) : BitVec 4 :=
  if m.faulted then 2
  else if m.trunc || (m.own.isSome && m.total ≠ some m.buf.len) then 1
  else 0

/-- A packet of a message that has its buffer (R41, R42): placed, or held as the final one; the message may be complete with it. The final packet of a
message whose placement has stopped is discarded and acknowledged like every later one, and the message completes with it (DEDUCED, log 70). -/
def State.acceptPacket (s : State) (c : Nat) (m : RxMsg) (final : Bool) (pidx size : Nat) (data : List Byte) : Except Blocked State :=
  let m := { m with
    got := pidx :: m.got, count := m.count + data.length, last := s.timebase
    total := if final then some (pidx * size + data.length) else m.total }
  let keep (s : State) (m : RxMsg) : State := s.modConn c fun k => { k with
    rx := m :: k.rx.filter fun x => x.msn ≠ m.msn
    nextPidx := if s.ordered c then pidx + 1 else k.nextPidx }
  let full (m : RxMsg) : Bool := match m.total with
    | some t => decide (t ≤ m.count)
    | none => false
  if final && !full m && !m.faulted then
    if s.net.holdSlots = 0 then .ok (s.answer c 4 m.msn pidx 0)
    else .ok (keep { s with net := { s.net with holdSlots := s.net.holdSlots - 1 } } { m with final := some (pidx * size, data) })
  else
    match s.placePacket c m final (pidx * size) data with
    | .error b => .error b
    | .ok (s, m) =>
      if final then
        .ok ((s.completeRx c m m.status).answer c 2 m.msn pidx m.status.toNat)
      else if full m then
        match m.final with
        | none => .ok ((keep s m).answer c 2 m.msn pidx 0)
        | some (off, l) =>
          match s.placePacket c m true off l with
          | .error b => .error b
          | .ok (s, m) =>
            .ok (((s.completeRx c m m.status).answer c 2 m.msn pidx 0).answer c 2 m.msn (off / size) m.status.toNat)
      else .ok ((keep s m).answer c 2 m.msn pidx 0)

/-- The state after a packet, or the state before it with what its placement waits for asked. -/
def orWaits (r : Except Blocked State) (s0 : State) : State :=
  match r with
  | .ok s => s
  | .error (.home who pa n co) => s0.askNow who pa n true co
  | .error .walk => s0

/-- A DATA or DATAF packet (R38 to R42, R45). Left open by the spec, and here (DESIGN CHOICE, log 70): an authenticated packet whose PSZ is 11b or
whose LEN is not its payload's length is dropped unanswered; a PSZ other than the receiver's own is taken as the header gives it; a message of
one packet, never incomplete, needs a free message slot like any other; the ACK of a DATAF below RXBASE for which no status has been recorded since EN
was set carries ASTAT 0. -/
def State.receivePacket (s0 : State) (final : Bool) : State :=
  match s0.takeFrame (b2n final) with
  | .none => s0
  | .discard s => s
  | .ok s c h data =>
    let msn := Hdr.msn h
    let pidx := Hdr.pidx h
    let k := s.conn c
    let d := (msn - s.rxbase c).toNat
    if Hdr.psz h = 3 || data.length ≠ Hdr.len h || 4096 < Hdr.len h then s
    else
      match k.done.find? fun x => x.msn = msn with
      | some x => if d < 64 || 2 ^ 16 - 64 ≤ d then s.answer c 2 msn pidx (if final then x.status.toNat else 0) else s
      | none =>
        if 2 ^ 16 - 64 ≤ d then s.answer c 2 msn pidx 0
        else if 64 ≤ d then s
        else
          match k.rx.find? fun m => m.msn = msn with
          | some m =>
            let s := s.modConn c fun k => { k with rx := k.rx.map fun m => if m.msn = msn then { m with last := s.timebase } else m }
            if pidx ∈ m.got then (if final || m.final.any (fun f => f.1 = pidx * packetSize (Hdr.psz h)) then s else s.answer c 2 msn pidx 0)
            else if s.ordered c && (d ≠ 0 || pidx ≠ k.nextPidx) then s.answer c 3 (s.rxbase c) k.nextPidx 0
            else orWaits (s.acceptPacket c m final pidx (packetSize (Hdr.psz h)) data) s0
          | none =>
            if s.ordered c && (d ≠ 0 || pidx ≠ k.nextPidx) then s.answer c 3 (s.rxbase c) k.nextPidx 0
            else
              match s.bufferFor c d with
              | none => s.answer c 4 msn pidx 0
              | some (b, own) =>
                if !s.slotFree then s.answer c 4 msn pidx 0
                else orWaits (s.acceptPacket c ⟨msn, b, [], 0, none, none, 0, false, false, own, 0, 0⟩ final pidx
                  (packetSize (Hdr.psz h)) data) s0

/-- DATA_PACKET_RECEIVE. -/
def execDataPacketReceive (s : State) : Host.Outcome State Fault Refusal := .next (s.receivePacket false)

/-- DATAF_PACKET_RECEIVE. -/
def execDatafPacketReceive (s : State) : Host.Outcome State Fault Refusal := .next (s.receivePacket true)

/-- MESSAGE_ABANDON of message ev.b of connection ev.a: no packet for 64·RTO (R42). -/
def execMessageAbandon (s : State) : Host.Outcome State Fault Refusal :=
  let c := s.ev.a
  .next (
    match (s.conn c).rx.find? fun m => m.msn = BitVec.ofNat 16 s.ev.b with
    | none => s
    | some m =>
      if (s.timebase - m.last).toNat < 64 * 1000 * s.regBits Reg.netcfg 47 32 then s else s.completeRx c m 3)

/-- An NPOST completes at once: a q5 record whose MSN the spec does not state (R374). -/
def State.refusePost (s : State) (core : BitVec 10) (x : BitVec 12) (m : Cmd) (c status : Nat) : State :=
  let s := s.setCoreCtx core x ((s.coreCtx core x).take 5)
  let (s, w) := s.freeW
  s.endNpost ⟨core, x, 5, m.num⟩ (recvRecord c (BitVec.ofNat 16 w.toNat) status 0) 0

/-- An NPOST on the connection that was accepted earlier, on any core, has not been posted yet (R44). -/
def State.postedBefore (s : State) (stamp n : Nat) : Bool :=
  s.cores.any fun x => x.2.ctxs.any fun y => y.2.q4.any fun m => timelineOf 4 m.w0 = 5 && bits m.w0 53 42 = n && decide (m.stamp < stamp)

/-- NPOST at the head of its timeline (R38, R374); posting order is the order of acceptance (R44). -/
def execNpost (c : NetCmd) (s : State) : Host.Outcome State Fault Refusal :=
  let core := s.eng.core
  let x := s.eng.ctx
  let n := c.conn.toNat
  .next (
    match (s.coreCtx core x).head 5 with
    | none => s
    | some m =>
      if !canonical c.va || 2 ^ 20 < c.len.toNat then s.refusePost core x m n 5
      else if !s.connOpen n || s.connCtx n ≠ x then s.refusePost core x m n 9
      else if s.postedBefore m.stamp n then s
      else
      let s := s.walkRange (.engine core x 5) x c.va c.len.toNat
      if (rangePages c.va c.len.toNat).any fun a => s.walkWaits (.engine core x 5) x a then s
      else if !s.pinnedRange (.engine core x 5) x c.va c.len.toNat then s.refusePost core x m n 2
      else
        let s := s.setCoreCtx core x ((s.coreCtx core x).take 5)
        s.modConn n fun k => { k with posted := k.posted ++ [⟨c.va, c.len.toNat, some ⟨core, x, 5, m.num⟩⟩] })

/-! ### Connections enabled, disabled, keyed (R30, R31) -/

/-- Word +0 as written: IHEAD only on intake connections; EN as given. -/
def connWord (c : Nat) (en : Bool) (w : Word) : Word :=
  setBits (setBits w 63 63 (b2n en)) (if 4032 ≤ c then 7 else 13) 0 0

/-- KEY_WRITE of connection ev.a: the write of ev.w to KEY +56. -/
def execKeyWrite (s : State) : Host.Outcome State Fault Refusal :=
  let c := s.ev.a
  .next (if 4096 ≤ c || s.connBits c 63 63 = 1 then s
    else
      ((s.setReg (Reg.conn c 56) s.ev.w).setReg (Reg.conn c 24) 0).modConn c fun k =>
        { k with keyed := true, lastSerial := 0, serial := 1 })

/-- CONN_ENABLE: word +0 of connection ev.a written with ev.w, EN set (R31); a key whose IVCNT has reached 2^48 is refused as no key (R32). The
spec has PSZ 11b refuse EN and does not say what writing it does while EN is 1: here it is stored, the connection stays open and cuts packets of
8 KiB (DESIGN CHOICE, log 70). -/
def execConnEnable (s : State) : Host.Outcome State Fault Refusal :=
  let c := s.ev.a
  let w := connWord c true s.ev.w
  let st := Reg.conn c 16
  .next (if 4096 ≤ c then s
    else if s.connBits c 63 63 = 1 then s.setReg (Reg.conn c 0) w
    else if bits w 61 60 = 3 then
      ((s.setReg (Reg.conn c 0) (connWord c false s.ev.w)).setRegBits st 15 12 2).setRegBits st 11 8 5
    else if !(s.conn c).keyed || 2 ^ 48 ≤ (s.reg (Reg.conn c 24)).toNat then ((s.setReg (Reg.conn c 0) w).setRegBits st 15 12 2).setRegBits st 11 8 6
    else
      (((s.setReg (Reg.conn c 0) w).setRegBits st 15 12 1).setRegBits st 63 32 0).modConn c fun k =>
        { k with rr := 0, posted := [], rx := [], done := [], nextPidx := 0 })

/-- The posts of a connection that closes complete with status 9 and the bytes placed, those of messages already complete with their own. -/
def State.closePosts (s : State) (c : Nat) (msn : BitVec 16) (done : List RxDone) (rx : List RxMsg) : List Posted → State
  | [] => s
  | p :: r =>
    State.closePosts (match p.cmd with
      | some x => (match done.find? fun d => d.msn = msn && !d.own with
        | some d => s.endNpost x (recvRecord c msn d.status.toNat d.bytes) d.ts
        | none =>
          match rx.find? fun m => m.msn = msn with
          | some m => s.endNpost x (recvRecord c msn 9 m.placed) m.ts
          | none => s.endNpost x (recvRecord c msn 9 0) 0)
      | none => s) c (msn + 1) done rx r

/-- CONN_DISABLE: word +0 of connection ev.a written with ev.w, EN cleared. -/
def execConnDisable (s : State) : Host.Outcome State Fault Refusal :=
  let c := s.ev.a
  let st := Reg.conn c 16
  .next (if 4096 ≤ c then s
    else
      let on := s.connBits c 63 63 = 1
      let s := s.setReg (Reg.conn c 0) (connWord c false s.ev.w)
      if !on then s
      else
        let s := (s.endSends c 9).setRegBits st 15 12 0
        let k := s.conn c
        let s := { s with net := { s.net with holdSlots := s.net.holdSlots + (k.rx.filter fun (m : RxMsg) => m.final.isSome).length } }
        (s.setConn c { k with waitTx := [], posted := [], rx := [], done := [], nextPidx := 0 }).closePosts c (s.rxbase c) k.done k.rx k.posted)

/-! ### Lanes and ports (R23 to R25, R36) -/

/-- Training of lane k of a port has ended (R28). -/
def State.trained (s : State) (k : Nat) : State :=
  if k < 72 then s.setPort (k / 4) { s.port (k / 4) with retraining := (s.port (k / 4)).retraining &&& ~~~(1#4 <<< (k % 4)) } else s

/-- LANE_DOWN of health object ev.a (R23). -/
def execLaneDown (s : State) : Host.Outcome State Fault Refusal :=
  let k := s.ev.a
  .next (if 216 ≤ k || absentLane k || s.regBits (Reg.health k 8) 1 1 = 1 then s.trained k
    else
      let s := ((s.trained k).setRegBits (Reg.health k 8) 1 1 1).postHealth 2 k
      if k < 72 then s.updatePort (k / 4) else s)

/-- LANE_RETRAIN of health object ev.a (R23). -/
def execLaneRetrain (s : State) : Host.Outcome State Fault Refusal :=
  let k := s.ev.a
  .next (if 216 ≤ k then s
    else
      let s := (s.trained k).setRegBits (Reg.health k 8) 1 1 0
      if k < 72 then s.updatePort (k / 4) else s)

end Sys2Proof.Machine
end

