-- ==== Sys2Proof/Machine/Cxl.lean ====
section
/-! DEFINITION. CXL: the page snoop filter, lease cuts and host halves (R50 to R57), extents (R58 to R60), registered images (R62, R63), task
packets (R64 to R68, R375, R392), and the loss of an expander (R118, R119). Events whose condition does not hold change nothing (log 20). -/

namespace Sys2Proof.Machine

/-! ### Lines dropped, pages in use -/

/-- A home whose line is dropped: no L1 has it, and nobody waits for it; its timestamps go on (R202). -/
def Home.dropped (h : Home) : Home := { h with st := .i, rsv := none, refusals := 0, serving := false, refused := [] }

/-- Lines dropped everywhere without write-back, with the messages about them; locks are released (R60, R119, R196). -/
def State.discardLines (s : State) (p : Nat → Bool) : State :=
  let s := (s.coh.l2.filter fun l => p l.line).foldl (fun s l => s.unlockAll l.line) s
  { s with
    cores := s.cores.map fun (i, r) => (i, { r with l1 := r.l1.filter fun l => !p l.line })
    coh := { s.coh with
      l2 := s.coh.l2.filter fun l => !p l.line
      homes := s.coh.homes.map fun (x : Nat × Home) => if p x.1 then (x.1, x.2.dropped) else x
      msgs := s.coh.msgs.filter fun m => !p m.line } }

/-- The line leaves the L1 of a core: an E line is at its home by now; the dirty bytes of an SM line are written through their mask, without
those of a copy that is outside coherence (`nc`) unless `all`. -/
def State.cutL1 (s : State) (c : BitVec 10) (line : Nat) (all : Bool) : State :=
  match s.l1? c line with
  | none => s
  | some l =>
    if l.nc && !all then s
    else
      let s := s.dropL1 c line
      if l.st = .m && l.dirty ≠ 0 then s.performMerge ⟨.merge l.data l.dirty l.poison [] false, line, 15, c, 0, 0, 0, 0, l.nc⟩ else s

/-- One line written back from every cache and dropped (R53): WB whole, SM through its dirty-byte mask. A lease cut leaves copies that are
outside coherence (R218). -/
def State.cutLine (s : State) (line : Nat) (all : Bool) : State :=
  let s := (s.recall line).flushMerges fun m => m.line = line
  let s := s.cores.foldl (fun s x => s.cutL1 (BitVec.ofNat 10 x.1) line all) s
  match s.l2? line with
  | some l => if l.nc && !all then s else s.flushL2 line
  | none => s

/-- Lines of a page that some cache, home or message knows. -/
def State.knownLines (s : State) (page : Nat) : List Nat :=
  ((s.cores.flatMap fun x => x.2.l1.map L1Line.line) ++ s.coh.l2.map L2Line.line ++ s.coh.homes.map Prod.fst ++
    s.coh.msgs.map Msg.line).eraseDups.filter fun l => l / 256 = page

def State.cutPage (s : State) (page : Nat) : State := (s.knownLines page).foldl (fun s l => s.cutLine l false) s

/-- A lane of a region reads or writes a matching address. -/
def State.laneTouches (s : State) (g : Group) (p : Nat → Bool) (l : RLane) : Bool :=
  (l.reads.map Tracked.va ++ l.writes.map WEntry.va).any fun va =>
    match s.leafNow g.waiter g.ctx va with
    | some (level, e) => p (Pte.pfn e + va51 va % 2 ^ pageBits level)
    | none => false

/-- An access to a matching address that was issued before stamp `since` has not completed (R53, R60, R85): not performed, not acknowledged;
or an ACMT under way has lanes left that read or write there. -/
def State.busyAt (s : State) (p : Nat → Bool) (since : Nat) : Bool :=
  s.groups.any fun g =>
    g.inflight.any (fun a => decide (a.id < since) && !(a.performed && a.acks = 0) && a.lanes.any fun l => p l.pa) ||
    (match g.region with
     | some r => (r.committing && decide (r.since < since) && (r.state.drop r.nextLane).any fun l => s.laneTouches g p l) ||
         r.held.any fun l => p (128 * l)
     | none => false)

/-- Write-combining buffers that hold a line of a page are sent (R81). -/
def State.sendBuffers (s : State) (page : Nat) : State :=
  (s.groups.filter fun g => match g.wc with
    | some b => decide (b.line / 256 = page)
    | none => false).foldl (fun s g => s.sendWc g.core g.slot) s

def inPage (page : Nat) : Nat → Bool := fun pa => decide (pa / 2 ^ 15 = page)

/-- 64-byte pieces of a page written: their numbers, and their bytes one after another. -/
def State.writePieces (s : State) (page : Nat) : List Word → List Byte → State
  | [], _ => s
  | w :: r, l => State.writePieces (s.writeOut (page * 2 ^ 15 + 64 * (w.toNat % 512)) 64 (leNat (l.take 64))) page r (l.drop 64)

/-! ### The page snoop filter (R50 to R52) -/

/-- A head's access, once its snoops are answered: 64 bytes. -/
def State.serveHead (s : State) (h : BitVec 6) (r : FReq) : State :=
  let a := r.pa / 64 * 64
  match r.data with
  | some d => (s.writeOut a 64 (leNat d)).headSend (.done h.toNat a)
  | none =>
    let (s, v) := s.readOut a 64
    s.headSend (.data h.toNat a (leBytes v 64))

/-- An entry as it becomes; one with an empty vector is free. -/
def State.putFilter (s : State) (page : Nat) (f : Filter) : State :=
  s.setFilter page (if f.vec = 0 && f.waiting.isEmpty && f.turn.isNone then Filter.idle
    else { f with stamp := s.seqCtr, st := if f.vec = 0 then .i else f.st })

/-- The least recently used stable entry of a page's set, where the set is full (R50). -/
def State.filterVictim (s : State) (page : Nat) : Option (Option Nat) :=
  let set := s.cxl.filter.filter fun x => x.1 % 65536 = page % 65536
  if set.length < 16 || (set.any fun x => x.1 = page) then none
  else
    let l := (set.filter fun x => x.2.await = 0 && x.2.turn.isNone && x.2.waiting.isEmpty).sortBy fun a b => a.2.stamp ≤ b.2.stamp
    some (l.head?.map Prod.fst)

/-- A request at a page whose entry is stable and whose turn it is (R50). -/
def State.startReq (s : State) (r : FReq) : State :=
  let page := r.pa / 2 ^ 15
  let s := s.dropEmpty
  let f := s.filter page
  let (s, _) := s.stamp
  match r.head with
  | none => match r.who with
    | some w => s.startLocal w r
    | none => s
  | some h =>
    let me := headBit h.toNat
    let grant (st : FState) (v : BitVec 64) : State := (s.putFilter page { f with st := st, vec := v }).serveHead h r
    match s.filterVictim page with
    | some none => s.headSend (.conflict h.toNat r.pa)
    | some (some v) =>
      let x := s.filter v
      s.snoopHeads v x.vec true { x with nextSt := .i, nextVec := 0, pending := some r }
    | none =>
      if f.st = .e && f.vec = me then grant .e me
      else
        match f.st, r.excl with
        | .i, e => grant (if e then .e else .s) me
        | .s, false => grant .s (f.vec ||| me)
        | .s, true =>
          let others := f.vec &&& ~~~me
          if others = 0 then grant .e me
          else s.snoopHeads page others true { f with nextSt := .e, nextVec := me, pending := some r }
        | .e, false => s.snoopHeads page f.vec false { f with nextSt := .s, nextVec := f.vec ||| me, pending := some r }
        | .e, true => s.snoopHeads page f.vec true { f with nextSt := .e, nextVec := me, pending := some r }

/-- Waiting requests served in arrival order, until the entry is transient again or a requester of the part has its turn (R52). -/
def State.serveWaiting (s : State) (page : Nat) : Nat → State
  | 0 => s
  | n + 1 =>
    let f := s.filter page
    match f.waiting, f.await = 0 && f.turn.isNone with
    | r :: l, true => State.serveWaiting ((s.putFilter page { f with waiting := l }).startReq r) page n
    | _, _ => s

/-- A head's request comes to the entry of its page: it is served there, waits in arrival order, or is answered with BIConflict (R52). -/
def State.arrive (s : State) (h : BitVec 6) (r : FReq) : State :=
  let f := s.filter (r.pa / 2 ^ 15)
  if f.await = 0 && f.turn.isNone && f.waiting.isEmpty then s.startReq r
  else if f.waiting.length < 32 then s.setFilter (r.pa / 2 ^ 15) { f with waiting := f.waiting ++ [r] }
  else s.headSend (.conflict h.toNat r.pa)

/-- Every awaited head has answered or is lost: the entry takes its next state, and the request it was for is served, or its requester of
the part has its turn. -/
def State.filterDone (s : State) (page : Nat) : State :=
  let f := s.filter page
  if f.await ≠ 0 then s
  else
    let turn := f.pending.bind fun r => if r.head.isNone && r.who ≠ some .part then r.who.map fun w => (w, r.excl) else none
    let s := s.putFilter page { f with st := f.nextSt, vec := f.nextVec, pending := none, got := [], turn := turn }
    match f.pending.bind fun r => r.head.map fun h => (h, r) with
    | none => s
    | some (h, r) => if r.pa / 2 ^ 15 = page then s.serveHead h r else s.arrive h r

/-- A requester of the part still makes the access to the page that it has asked the filter for. -/
def State.wants (s : State) (page : Nat) (who : Waiter) : Bool :=
  match who with
  | .group c n =>
    match s.group? c n with
    | none => false
    | some g => (g.wait.any fun w => w.kind = 15) || (g.region.any Region.committing) ||
        g.inflight.any fun a => !a.performed && a.lanes.any fun l => l.pa / 2 ^ 15 = page
  | .engine c x tl =>
    ((s.coreCtx c x).head tl.toNat).isSome ||
    (match tl.toNat with
     | 4 => s.net.conns.any fun k => !k.2.tx.isEmpty
     | 5 => !s.net.inbox.isEmpty
     | 6 => !s.cxl.results.isEmpty
     | _ => false)
  | .queue c h =>
    s.que.slots.any (fun q => q.2.ctx = c && q.2.qh = h && q.2.st ≠ .free) || s.que.pending.any (fun q => q.ctx = c && q.qh = h) ||
    s.sch.experts.any (fun q => q.ctx = c && q.qh = h) || s.sch.taskQs.any fun q => q.ctx = c && q.qh = h
  | .intake => !s.cxl.packets.isEmpty || s.cxl.starting.isSome || !s.net.inbox.isEmpty
  | .part => true

/-- Requesters that are gone leave an entry; then whoever is first is served. A group whose turn it is goes on. -/
def State.settleFilter (s : State) (page : Nat) : State :=
  let f := s.filter page
  let f := { f with
    waiting := f.waiting.filter fun r => match r.who with
      | some w => s.wants page w
      | none => true
    turn := f.turn.bind fun t => if s.wants page t.1 then some t else none }
  let s := (s.putFilter page f).serveWaiting page 33
  match (s.filter page).turn with
  | some (.group c n, _) => s.proceed c n
  | _ => s

/-- Entries whose turn has passed serve what waits (R52). -/
def State.settleFilters (s : State) : State :=
  (s.cxl.filter.filter fun x => x.2.await = 0 && (x.2.turn.isSome || !x.2.waiting.isEmpty)).foldl (fun s x => s.settleFilter x.1) s

/-- The record of the extent that covers an address and is not free. -/
def State.extentReg (s : State) (pa : Nat) : Option Nat :=
  (s.mgmt.find? fun (o, w) =>
    0xB0000 ≤ o && o < 0xC0000 && o % 16 = 0 && bits w 1 0 ≠ 0 &&
    bits w 63 27 ≤ pa / 2 ^ 27 && pa / 2 ^ 27 < bits w 63 27 + bits w 26 14).map Prod.fst

/-- A head's access arrives (R50, R59, R60): refused outside a live extent that is open to it, else served or made to wait. A request without
coherence is served at once, and the filter does not track it (R218). -/
def State.headAccess (s : State) (excl nc : Bool) (data : Option (List Byte)) : State :=
  let h := s.ev.a
  let pa := s.ev.b
  if !Config.fittingL || 64 ≤ h || decide (h ∈ s.cxl.lostHeads) then s
  else
    match s.extentReg pa with
    | none => s.headSend (.error h pa false)
    | some o =>
      if s.regBits o 1 0 = 3 then s.headSend (.error h pa true)
      else if s.regBits o 1 0 ≠ 2 || !bit (s.reg (o + 8)) h then s.headSend (.error h pa false)
      else
        let r : FReq := ⟨some (BitVec.ofNat 6 h), none, pa, excl, data⟩
        if nc then s.serveHead (BitVec.ofNat 6 h) r else s.arrive (BitVec.ofNat 6 h) r

/-- HEAD_READ_SHARED: head ev.a reads at PA ev.b; with ev.c = 1 without coherence. -/
def execHeadReadShared (s : State) : Host.Outcome State Fault Refusal := .next (s.headAccess false (s.ev.c = 1) none)

/-- HEAD_READ_EXCLUSIVE: head ev.a reads for ownership at PA ev.b, or with ev.flag writes the 64 bytes ev.bytes; such a write with ev.c = 1 is
one without coherence. -/
def execHeadReadExclusive (s : State) : Host.Outcome State Fault Refusal :=
  .next (s.headAccess true (s.ev.flag && s.ev.c = 1) (if s.ev.flag then some s.ev.bytes else none))

/-- A head leaves an entry. -/
def Filter.without (f : Filter) (h : Nat) : Filter :=
  { f with vec := f.vec &&& ~~~headBit h, nextVec := f.nextVec &&& ~~~headBit h }

/-- HEAD_EVICTION_REPORT of head ev.a for the page of PA ev.b; with ev.flag the final write-back brings ev.bytes. -/
def execHeadEvictionReport (s : State) : Host.Outcome State Fault Refusal :=
  let h := s.ev.a
  let page := s.ev.b / 2 ^ 15
  .next (if 64 ≤ h || !bit (s.filter page).vec h then s
    else
      let s := if s.ev.flag then s.writeOut (s.ev.b / 64 * 64) 64 (leNat s.ev.bytes) else s
      let f := (s.filter page).without h
      if f.await = 0 then s.putFilter page f else s.setFilter page f)

/-- BIRSP_RECEIVE: head ev.a has answered message ev.c of the snoop of page ev.b, with the dirty pieces ev.words (of the four that the message
covers), ev.bytes (R51, R52). -/
def execBirspReceive (s : State) : Host.Outcome State Fault Refusal :=
  let h := s.ev.a
  let page := s.ev.b
  let k := s.ev.c
  let f := s.filter page
  .next (if 64 ≤ h || 128 ≤ k || !bit f.await h then s
    else
      let s := s.writePieces page (s.ev.words.map fun w => BitVec.ofNat 64 (4 * k + w.toNat % 4)) s.ev.bytes
      let g := Tab.get 0 f.got h ||| BitVec.ofNat 128 (2 ^ k)
      (s.setFilter page { s.filter page with
        got := Tab.set 0 f.got h g, await := if g = BitVec.allOnes 128 then f.await &&& ~~~headBit h else f.await }).filterDone page)

/-- Results not yet sent to a lost head are discarded (R120). -/
def State.dropResults (s : State) (h : Nat) : State :=
  let f (x : Nat × Conn) : Nat × Conn := if intakeConn x.1 && s.connBits x.1 13 8 = h then (x.1, { x.2 with waitTx := [] }) else x
  { s with net := { s.net with conns := s.net.conns.map f } }

/-- SNOOP_TIMEOUT: 100 µs without an answer of head ev.a for page ev.b; the head is lost (R52, R120). -/
def execSnoopTimeout (s : State) : Host.Outcome State Fault Refusal :=
  let h := s.ev.a
  let page := s.ev.b
  let f := s.filter page
  .next (if 64 ≤ h || !bit f.await h || (s.timebase - f.since).toNat < 100000 then s
    else
      let s := ({ s with cxl := { s.cxl with lostHeads := putSector h true s.cxl.lostHeads } } : State).dropResults h
      (s.setFilter page { f.without h with await := f.await &&& ~~~headBit h }).filterDone page)

/-! ### Lease cuts (R53, R54) -/

/-- A cut of a page changed. -/
def State.putCut (s : State) (k : Cut) : State :=
  let l := s.cxl.cuts.filter fun x => x.page ≠ k.page
  { s with cxl := { s.cxl with cuts := if k.done && k.asked = BitVec.allOnes 128 then l else l ++ [k] } }

/-- BISNP_RECEIVE of message ev.b of the snoop of page ev.a. The first message of a snoop begins the cut: steps 1 and 2, and from now on
accesses to the page are held. Messages that come after the cut are answered at once (R51, R53). -/
def execBisnpReceive (s : State) : Host.Outcome State Fault Refusal :=
  let page := s.ev.a
  let k := BitVec.ofNat 128 (2 ^ s.ev.b)
  .next (if Config.fittingL || 128 ≤ s.ev.b then s
    else
      match s.cxl.cuts.find? fun x => x.page = page && !(x.done && x.asked &&& k ≠ 0) with
      | some x =>
        let s := s.putCut { x with asked := x.asked ||| k }
        if x.done then s.headSend (.answer page s.ev.b) else s
      | none =>
        let (s, n) := s.stamp
        ((s.sendBuffers page).cutPage page).putCut ⟨page, n, k, false⟩)

/-- LEASE_CUT_COMPLETE of page ev.a: every earlier access has completed, what they left is written back, and the messages received are
answered. The pieces ev.words, ev.bytes are what the expander holds from then on. -/
def execLeaseCutComplete (s : State) : Host.Outcome State Fault Refusal :=
  let page := s.ev.a
  .next (
    match s.cxl.cuts.find? fun x => x.page = page && !x.done with
    | none => s
    | some x =>
      if s.busyAt (inPage page) x.since then s
      else
        let s := (s.cutPage page).putCut { x with done := true }
        let s := (List.range 128).foldl (fun s b => if bit x.asked b then s.headSend (.answer page b) else s) s
        (s.writePieces page s.ev.words s.ev.bytes).cutPage page)

/-! ### Halves of lines (R56, R57) -/

def inHalf (half : Nat) : Nat → Bool := fun pa => decide (pa / 64 = half)

/-- A half that the host is taking is its own once the accesses issued before have completed (R53, R56). -/
def State.takeHalf (s : State) (half : Nat) : State :=
  if s.half (64 * half) = some .taking && !s.busyAt (inHalf half) s.seqCtr then
    (s.cutLine (half / 2) true).setHalf (64 * half) (some .own)
  else s

/-- HOST_TAKE_HALF: the host takes the half of a line at PA ev.a: the lease cut of R53 for the line, which no L1 keeps from now on; requests under
way are performed at the home. -/
def execHostTakeHalf (s : State) : Host.Outcome State Fault Refusal :=
  let pa := s.ev.a
  .next (if Config.fittingL || 2 ^ 48 ≤ pa || !populated pa || (s.half pa).isSome then s
    else ((s.cutLine (pa / 128) true).setHalf pa (some .taking)).takeHalf (pa / 64))

/-- Halves that are being taken. -/
def State.settleHalves (s : State) : State := s.cxl.halves.foldl (fun s x => s.takeHalf x.1) s

/-- HOST_RELEASE_HALF of the half at PA ev.a: the bytes ev.bytes, if any, are written back. With ev.flag it is the answer to a data snoop
for a read, after which the host keeps the half. -/
def execHostReleaseHalf (s : State) : Host.Outcome State Fault Refusal :=
  let pa := s.ev.a
  .next (
    match s.half pa with
    | none => s
    | some h =>
      let s := if s.ev.bytes.isEmpty then s else s.writeOut (pa / 64 * 64) 64 (leNat s.ev.bytes)
      s.setHalf pa (if s.ev.flag && h = .asked false then some .shared else if s.ev.flag && h = .own then some .own else none))

/-! ### Extents (R58 to R60) -/

def inExtent (w : Word) : Nat → Bool := fun pa => decide (bits w 63 27 ≤ pa / 2 ^ 27 ∧ pa / 2 ^ 27 < bits w 63 27 + bits w 26 14)

/-- DC_ADD_EXTENT: base block ev.a, ev.b blocks, context ev.c, heads ev.w. Refused where no record is free or the blocks overlap (R58). The spec
does not say what an add of 0 or more than 8,191 blocks does, or one whose base BASE cannot hold: it is passed over (DESIGN CHOICE, log 73). -/
def execDcAddExtent (s : State) : Host.Outcome State Fault Refusal :=
  let b := s.ev.a
  let n := s.ev.b
  let overlap := (List.range 4096).any fun x =>
    let w := s.reg (Reg.extent x 0)
    bits w 1 0 ≠ 0 && b < bits w 63 27 + bits w 26 14 && bits w 63 27 < b + n
  .next (if !Config.fittingL || n = 0 || 8192 ≤ n || 2 ^ 37 ≤ b then s
    else if overlap then s.headSend .refused
    else
      match (List.range 4096).find? fun x => s.regBits (Reg.extent x 0) 1 0 = 0 with
      | none => s.headSend .refused
      | some x =>
        (s.setReg (Reg.extent x 0) (field 27 b ||| field 14 n ||| field 2 (s.ev.c % 4096) ||| 1)).setReg (Reg.extent x 8) s.ev.w)

/-- ZERO_FILL_DONE of extent ev.a: its bytes are zero and not poisoned, it is live, and the add is acknowledged (R59). Unlisted bytes of memory read
as zero (log 9). -/
def execZeroFillDone (s : State) : Host.Outcome State Fault Refusal :=
  let o := Reg.extent s.ev.a 0
  let w := s.reg o
  .next (if 4096 ≤ s.ev.a || bits w 1 0 ≠ 1 then s
    else
      let s := s.discardLines fun l => inExtent w (128 * l)
      ({ s with
        mem := s.mem.filter fun x => !inExtent w x.1
        poison := s.poison.filter fun x => !inExtent w (32 * x) }.setRegBits o 1 0 2).headSend (.added s.ev.a))

/-- DC_RELEASE_EXTENT of extent ev.a: a live one is releasing; any other is refused (R58, R60). -/
def execDcReleaseExtent (s : State) : Host.Outcome State Fault Refusal :=
  let o := Reg.extent s.ev.a 0
  .next (if !Config.fittingL then s
    else if 4096 ≤ s.ev.a || s.regBits o 1 0 ≠ 2 then s.headSend .refused
    else s.setRegBits o 1 0 3)

/-- A head's access to a matching address that the filter has accepted is not served yet. -/
def State.headsBusy (s : State) (p : Nat → Bool) : Bool :=
  s.cxl.filter.any fun x => (x.2.pending.toList ++ x.2.waiting).any fun r => r.head.isSome && p r.pa

/-- RELEASE_DRAIN_DONE of extent ev.a: every access accepted before has completed, the heads' too; lines and filter entries are dropped, and the
release is acknowledged (R60). New accesses are refused, so that those in flight are the accepted ones. -/
def execReleaseDrainDone (s : State) : Host.Outcome State Fault Refusal :=
  let o := Reg.extent s.ev.a 0
  let w := s.reg o
  .next (if 4096 ≤ s.ev.a || bits w 1 0 ≠ 3 || s.busyAt (inExtent w) s.seqCtr || s.headsBusy (inExtent w) then s
    else
      let s := s.discardLines fun l => inExtent w (128 * l)
      ({ s with cxl := { s.cxl with filter := s.cxl.filter.filter fun x => !inExtent w (x.1 * 2 ^ 15) } }.setRegBits o 1 0 0).headSend
        (.released s.ev.a))

/-! ### Registered images (R62, R63, R392) -/

/-- The status of a registration, and the entry it takes where it is 0. The spec gives KSLOT as 0..15 and no status for another: 1, as for other
malformed headers (DESIGN CHOICE, log 73). -/
def State.imageStatus (s : State) (m : Image) : Nat × Nat :=
  let w := m.header.getD 0 0
  let h := Config.sha384 (bytesOfWords (m.header ++ m.launch ++ m.code))
  let slot := bits w 31 24
  if bits w 63 32 ≠ 0x4B494D47 || 16 ≤ slot || m.header.length ≠ 8 || !(m.header.drop 1).all (fun x => x = 0) || m.launch.length ≠ 32 ||
      bits w 23 0 ≠ m.code.length || 2 ^ 21 < m.code.length || m.ed25519.length ≠ 64 || m.mldsa.length ≠ 3309 then (1, 0)
  else
    let key := Config.keySlot (BitVec.ofNat 4 slot)
    if !Config.ed25519Ok key h m.ed25519 then (2, 0)
    else if !Config.mldsaOk key h m.mldsa then (3, 0)
    else if s.cxl.kernels.any (fun x => match x.2 with
        | some k => k.khash = h && !k.unregistered
        | none => false) then (4, 0)
    else
      match (List.range 1024).find? fun i => (Tab.get none s.cxl.kernels i).isNone with
      | some i => (0, i)
      | none => (5, 0)

/-- IMAGE_REGISTER of ev.image. -/
def execImageRegister (s : State) : Host.Outcome State Fault Refusal :=
  let m := s.ev.image
  let (st, i) := s.imageStatus m
  let s := { s with cxl := { s.cxl with mailboxStatus := s.cxl.mailboxStatus ++ [st] } }
  .next (if st ≠ 0 then s
    else
      let k : Kernel := ⟨Config.sha384 (bytesOfWords (m.header ++ m.launch ++ m.code)), m.launch, m.code, false⟩
      let lo := (2 ^ 52 + i * 2 ^ 24) / 128
      { s with
        cxl := { s.cxl with kernels := Tab.set none s.cxl.kernels i (some k) }
        cores := s.cores.map fun (j, r) => (j, { r with l1 := r.l1.filter fun l => !(lo ≤ l.line && l.line < lo + 2 ^ 17) }) })

/-- IMAGE_UNREGISTER: ev.words are the KHASH, lowest word first. -/
def execImageUnregister (s : State) : Host.Outcome State Fault Refusal :=
  let h := BitVec.ofNat 384 (leNat (bytesOfWords s.ev.words))
  let mark (x : Nat × Option Kernel) : Nat × Option Kernel :=
    match x.2 with
    | some k => if k.khash = h then (x.1, some { k with unregistered := true }) else x
    | none => x
  let t : State := { s with cxl := { s.cxl with kernels := s.cxl.kernels.map mark } }
  .next t.freeKernels

/-! ### The task intake (R64 to R68, R392) -/

/-- MAILBOX_DOORBELL of slot ev.b of head ev.a: the words ev.words, where there are any, have been written to the slot, whose packet goes to the
intake (R65). -/
def execMailboxDoorbell (s : State) : Host.Outcome State Fault Refusal :=
  let k := 64 * s.ev.a + s.ev.b
  .next (if !Config.fittingL || 64 ≤ s.ev.a || 64 ≤ s.ev.b then s
    else
      let ws := if s.ev.words.isEmpty then Tab.get [] s.cxl.slots k else padTo 32 s.ev.words
      { s with cxl := { s.cxl with
        slots := Tab.set [] s.cxl.slots k ws, packets := s.cxl.packets ++ [(3968 + s.ev.a, true, padTo 32 ws)] } })

/-- The MAC of a packet that arrives on connection `c` (R64). -/
def packetMac (key : BitVec 256) (c : Nat) (w : List Word) : BitVec 128 :=
  gmac key (BitVec.ofNat 96 (c * 2 ^ 64 + (w.getD 1 0).toNat)) (bytesOfWords (w.take 30))

def khashOf (w : List Word) : BitVec 384 := BitVec.ofNat 384 (leNat (bytesOfWords ((w.drop 2).take 6)))

/-- The registered kernel of a hash. -/
def State.kernelOf (s : State) (h : BitVec 384) : Option Nat :=
  (s.cxl.kernels.find? fun x => match x.2 with
    | some k => k.khash = h && !k.unregistered
    | none => false).map Prod.fst

/-- The checks of R66 in order: the status of the first that fails, 0 where all pass. A context exists where its translation is enabled. The spec names
the rights CR and CW and no check or fault on them: they have no effect (DESIGN CHOICE, log 73). -/
def State.packetStatus (s : State) (c : Nat) (cxlio : Bool) (w : List Word) : Nat :=
  let x (i : Nat) : Word := w.getD i 0
  let argn := bits (x 0) 55 51
  let ctx := BitVec.ofNat 12 (bits (x 0) 47 36)
  let e := bits (x 8) 63 52
  let ext := s.reg (Reg.extent e 0)
  let head := if cxlio then c - 3968 else s.connBits c 13 8
  if bits (x 0) 63 56 ≠ 1 || 20 < argn || bits (x 0) 50 48 ≠ 0 || bits (x 0) 35 0 ≠ 0 || bits (x 8) 49 0 ≠ 0 ||
      !((w.drop (10 + argn)).take (20 - argn)).all (fun y => y = 0) then 1
  else if !(s.conn c).keyed || packetMac (s.connKey c) c w ≠ BitVec.ofNat 128 ((x 30).toNat + 2 ^ 64 * (x 31).toNat) then 2
  else if (x 1).toNat ≤ (s.conn c).lastSerial.toNat then 3
  else if (s.kernelOf (khashOf w)).isNone then 4
  else if s.regBits (Reg.trans ctx.toNat 0) 0 0 = 0 || bits ext 1 0 ≠ 2 || bits ext 13 2 ≠ ctx.toNat || !bit (s.reg (Reg.extent e 8)) head then 5
  else if 512 ≤ s.cxl.tasks.length then 6
  else if s.viral ctx then 7
  else 0

/-- How the argument words of a task go to memory. -/
inductive ArgWrite
  | ok (s : State) (ts : BitVec 48)
  | wait (s : State)
  | fault (s : State) (kind : BitVec 8)
  deriving Repr

/-- Bytes written line by line. -/
def State.writeArgs (s : State) (x : BitVec 12) (va : Word) (ts : BitVec 48) : Nat → List Byte → ArgWrite
  | 0, _ => .ok s ts
  | fuel + 1, l =>
    if l.isEmpty then .ok s ts
    else
      let m := min l.length (128 - va.toNat % 128)
      match s.writeVa .intake x va m (leNat (l.take m)) false with
      | .ok (s, t) => State.writeArgs s x (va + BitVec.ofNat 64 m) (max48 ts t) fuel (l.drop m)
      | .error e =>
        match s.stall .intake x va e m with
        | .wait s => .wait s
        | .fault s kd _ _ => .fault s kd

/-- The packet at the head of the intake is gone. -/
def State.popPacket (s : State) : State := { s with cxl := { s.cxl with packets := s.cxl.packets.drop 1 } }

/-- An admitted task on its way to its first group: its launch record is checked and its arguments are written (R392); while a page of theirs is
awaited it stays where it is, and none of the checks of R66 is made again. -/
def State.startAdmitted (s : State) (t : Task) (args : List Word) : State :=
  let l : Launch := { Launch.none with ctx := t.ctx, task := true, words := match Tab.get none s.cxl.kernels t.kernel with
    | some n => n.launch
    | none => [] }
  let ended (s : State) : State := { s.clearVerdicts .intake with cxl := { s.cxl with starting := none } }
  let refuse (s : State) (status : Nat) : State := ((ended s).sendResult t status).freeKernels
  match s.checkRecord .intake l with
  | .wait s => s
  | .bad s _ => refuse s 9
  | .ok s l =>
    if s.refusesLaunch l then refuse s 9
    else
      match s.writeArgs t.ctx l.argb 0 4 (bytesOfWords args) with
      | .wait s => s
      | .fault s kd => refuse s (if kd = 5 then 8 else 9)
      | .ok s ts =>
        let s := ended s
        let (s, key) := { s with sch := { s.sch with partClock := max48 s.sch.partClock ts } }.admitLaunch l
        { s with cxl := { s.cxl with tasks := s.cxl.tasks ++ [{ t with launch := key }] } }

/-- TASK_PACKET_INTAKE: the task that is starting goes on; else the oldest packet is checked, and refused with its result or admitted (R66, R67,
R392). -/
def execTaskPacketIntake (s : State) : Host.Outcome State Fault Refusal :=
  .next (
    match s.cxl.starting, s.cxl.packets with
    | some (t, args), _ => s.startAdmitted t args
    | none, [] => s
    | none, (c, cxlio, w) :: _ =>
      let x (i : Nat) : Word := w.getD i 0
      let ctx := BitVec.ofNat 12 (bits (x 0) 47 36)
      let t : Task := ⟨c, cxlio, x 9, x 1, ctx, (s.kernelOf (khashOf w)).getD 0, 0⟩
      let args := (w.drop 10).take 20
      let st := s.packetStatus c cxlio w
      let s := s.popPacket
      if st ≠ 0 then s.sendResult t st
      else
        let s := s.modConn c fun n => { n with lastSerial := x 1 }
        ({ s with cxl := { s.cxl with starting := some (t, args) } } : State).startAdmitted t args)

/-! ### Task packets sent (R375) -/

/-- The head of q8 is done, with `f` and a result of the given status over its buffer; it stays there while the buffer waits. -/
def State.endXtask (s : State) (core : BitVec 10) (x : BitVec 12) (m : Cmd) (c : Nat) (va : Word) (w : List Word) (status : Nat)
    (f : State → State) : State :=
  let r : CmdRef := ⟨core, x, 6, m.num⟩
  match s.resultWaits r va with
  | some s => s
  | none =>
    let s := f s
    (s.setCoreCtx core x ((s.coreCtx core x).take 6)).endTask c ⟨0, 0, va, r, 0, none⟩ (resultWords (w.getD 9 0) (w.getD 1 0) status s.timebase)

/-- A word of a context's memory as it can be read at once; 0 where it cannot. -/
def State.wordNow (s : State) (who : Waiter) (x : BitVec 12) (va : Word) : State × Word :=
  match s.readVa who x va 8 with
  | .ok (s, v) => (s, BitVec.ofNat 64 v)
  | .error _ => (s, 0)

/-- XTASK at the head of q8: PATH 0 as a message on CONN, PATH 1 through the next free mailbox slot of decoder DEC. In a viral context nothing is
sent and the packet is not read: the local result takes RTAG and SERIAL from the buffer where they can be read (log 32). -/
def execXtask (c : Xtask) (s : State) : Host.Outcome State Fault Refusal :=
  let core := s.eng.core
  let x := s.eng.ctx
  let n := c.conn.toNat
  let who : Waiter := .engine core x 6
  .next (
    match (s.coreCtx core x).head 6 with
    | none => s
    | some m =>
      let refuse (s : State) (w : List Word) : State := s.endXtask core x m n c.va w 0xF id
      let drop (s : State) (w : List Word) (f : State → State) : State :=
        s.endXtask core x m n c.va w 7 fun s => (f s).dropWrite x (field 63 1 ||| field 0 n)
      if s.viral x then
        let (s, serial) := s.wordNow who x (c.va + 8)
        let (s, rtag) := s.wordNow who x (c.va + 72)
        drop s ((List.replicate 10 0).set 1 serial |>.set 9 rtag) id
      else
      match s.readVaWords who x c.va 30 with
      | .error e =>
        if badVa c.va 256 then refuse s []
        else
          match e with
          | .bad 4 _ _ => drop s [] fun s => s.engConsume x
          | e =>
            match s.stall who x c.va e 240 with
            | .fault s .. => refuse s []
            | .wait s => s
      | .ok (s, w) =>
        if badVa c.va 256 then refuse s w
        else if !(s.conn n).keyed || (!c.path && (!s.connOpen n || s.connCtx n ≠ x || (s.upPorts n).isEmpty)) then
          refuse s w
        else
          let slot := (List.range 64).find? fun i => !decide ((c.dec, BitVec.ofNat 6 i) ∈ s.cxl.mailbox)
          if (c.path && slot.isNone) || (!c.path && (64 ≤ (s.conn n).tx.length || (s.conn n).unsent)) then s
          else
            let serial := (s.conn n).serial
            let w := w.set 1 serial
            let mac := packetMac (s.connKey n) (s.connBits n 56 45) w
            let p := w ++ [BitVec.ofNat 64 mac.toNat, BitVec.ofNat 64 (mac.toNat / 2 ^ 64)]
            let at' := if c.path then some (c.dec, BitVec.ofNat 6 (slot.getD 0)) else none
            let a : Await := ⟨serial, w.getD 9 0, c.va, ⟨core, x, 6, m.num⟩, s.timebase, at'⟩
            let s := s.setCoreCtx core x ((s.coreCtx core x).take 6)
            let s := s.modConn n fun k => { k with serial := serial + 1, awaiting := k.awaiting ++ [a] }
            if c.path then
              { s with cxl := { s.cxl with
                mailbox := s.cxl.mailbox ++ at'.toList, ioOut := s.cxl.ioOut ++ [⟨c.dec.toNat, slot.getD 0, p⟩] } }
            else s.startMsg n ⟨0, c.va, 256, some (bytesOfWords p), some a.cmd, serial, []⟩)

/-- TASK_RESULT_RECEIVE: the oldest result received over Kalren, or with ev.flag the words ev.words that came over CXL.io for connection
ev.a (R67, R68, R375). -/
def execTaskResultReceive (s : State) : Host.Outcome State Fault Refusal :=
  .next (if s.ev.flag then s.giveResult s.ev.a (padTo 4 s.ev.words)
    else
      match s.cxl.results with
      | [] => s
      | (c, w) :: r => ({ s with cxl := { s.cxl with results := r } } : State).giveResult c (padTo 4 w))

/-- XTASK_TIMEOUT of serial ev.w on connection ev.a: no result within 100 ms; the packet is not sent again. -/
def execXtaskTimeout (s : State) : Host.Outcome State Fault Refusal :=
  let c := s.ev.a
  .next (
    match (s.conn c).awaiting.find? fun a => a.serial = s.ev.w with
    | none => s
    | some a =>
      if (s.timebase - a.start).toNat < 100000000 then s
      else
        (((s.conn c).tx.filter fun m => m.serial = a.serial).foldl (fun s m => s.takeBack c m.msn) s).localResult c a.serial 0xF)

/-! ### The loss of an expander, viral clear (R117 to R119) -/

/-- An address of decoder d's range. -/
def inRange (d : Nat) : Nat → Bool := fun pa => secondTier pa && decide (pa < 2 ^ 52) && decide ((Config.hdmDecoder pa).toNat = d)

/-- The access has not completed and has a lane at a matching address. -/
def Access.pendingAt (a : Access) (p : Nat → Bool) : Bool := !(a.performed && a.acks = 0) && a.lanes.any fun l => p l.pa

/-- Bytes of a lane are still to be written: in the group's write-combining buffer, in a message to the home, or at a target. -/
def State.laneHeld (s : State) (g : Group) (a : Access) (l : LaneAcc) : Bool :=
  let line := l.pa / 128
  g.wc.any (fun b => b.line = line && decide (a.id ∈ b.ids)) ||
  s.coh.msgs.any (fun m => m.line = line && m.core = g.core && m.slot = g.slot && (match m.kind with
    | .merge _ _ _ ids _ => decide (a.id ∈ ids)
    | _ => false)) ||
  s.coh.acks.any fun x => x.core = g.core && x.slot = g.slot && decide (a.id ∈ x.accs) && x.write.any fun w => w.1 = line

/-- A lane at a matching address that has not been performed in `s` fails; what has been performed stands (R402). A prefetch is done instead. -/
def Access.failLane (a : Access) (s : State) (g : Group) (p : Nat → Bool) (kind : BitVec 8) (dec : BitVec 4) (l : LaneAcc) : LaneAcc :=
  if !p l.pa || (l.done && !(a.op = .store && s.laneHeld g a l)) then l
  else if a.op = .prefetch then { l with done := true }
  else { l with done := false, fault := some ⟨a.lead l, kind, a.size, a.writes, a.atomic, 0, dec⟩ }

/-- Accesses of a group to matching addresses that are in flight fault; stores not yet performed there, as they were in `s0` before their lines were
dropped, are not (R119, R402). Range write-backs no longer wait for what they sent there. -/
def State.failAccesses (s s0 : State) (g : Group) (p : Nat → Bool) (kind : BitVec 8) (dec : BitVec 4) : State :=
  let ids := (g.inflight.filter fun a => a.pendingAt p).map Access.id
  let mine (x : TargetAck) : Bool := x.core = g.core && x.slot = g.slot &&
    (match x.write with
     | some (line, _, _, _) => p (128 * line)
     | none => x.accs.any fun i => decide (i ∈ ids))
  let s := { s with coh := { s.coh with acks := s.coh.acks.filter fun x => !mine x } }
  let s := s.modGroup g.core g.slot fun g => { g with wc := match g.wc with
    | some b => if p (128 * b.line) then none else some b
    | none => none }
  let left (i : Nat) : Nat := (s.coh.acks.filter fun x => x.core = g.core && x.slot = g.slot && decide (i ∈ x.accs)).length
  let s := ids.foldl (fun s i =>
    (s.modAccess g.core g.slot i fun a => { a with acks := left i, lanes := a.lanes.map (a.failLane s0 g p kind dec) }).concludeAccess
      g.core g.slot i) s
  let range := g.inflight.filter fun a => a.op = .writeback || a.op = .writebackInv
  let s := range.foldl (fun s a =>
    (s.modAccess g.core g.slot a.id fun a => { a with acks := left a.id }).concludeStore g.core g.slot a.id) s
  s.proceed g.core g.slot

/-- The range of decoder `d` is lost: its lines go, accesses in flight fault, lease cuts that wait on it end without an answer (R118, R119). -/
def State.loseRange (s : State) (d : Nat) : State :=
  if Config.fittingL || 8 ≤ d || bit (s.reg Reg.lostd) d then s
  else
    let s0 := s.setRegBits Reg.lostd d d 1
    let s := s0.discardLines fun l => inRange d (128 * l)
    let s := s0.groups.foldl (fun s g => s.failAccesses s0 g (inRange d) 6 (BitVec.ofNat 4 d)) s
    let s := { s with cxl := { s.cxl with cuts := s.cxl.cuts.filter fun k => !inRange d (k.page * 2 ^ 15) } }
    s.postLink 3 0 d 0 0

/-- HDM_REQUEST_TIMEOUT of decoder ev.a: a request to its range has gone 10 ms without completion (R118). An access in flight stands for its
requests, from its issue on (log 74). -/
def execHdmRequestTimeout (s : State) : Host.Outcome State Fault Refusal :=
  .next (if s.groups.any fun g => g.inflight.any fun a => a.pendingAt (inRange s.ev.a) && 10000000 ≤ (s.timebase - a.since).toNat then
      s.loseRange s.ev.a
    else s)

/-- The expander answers accesses to a page of the second tier with the extent-gone cause, or no longer (R60): those in flight fault as extent
gone, and so does every later one; copies are dropped, which nobody may use (log 74). -/
def State.setGone (s : State) (page : Nat) (on : Bool) : State :=
  if Config.fittingL || page * 2 ^ 15 < 2 ^ 48 then s
  else
    let s := { s with cxl := { s.cxl with gone := putSector page on s.cxl.gone } }
    if on then
      s.groups.foldl (fun t g => t.failAccesses s g (inPage page) 5 0)
        (s.discardLines fun l => inPage page (128 * l))
    else s

/-- A context is torn down: its launches end with STATUS 7, its locks are released and credited (R100, R196). No row of the opcode table is that
event, so it is a turn of its own (log 75). -/
def State.teardown (s : State) (c : BitVec 12) : State :=
  let s := ((s.sch.launches.filter fun x => x.2.ctx = c).map Prod.fst).foldl (fun s k => s.endLaunch k 0xFF) s
  ((s.coh.l2.filter fun l => decide (c ∈ l.locks)).map L2Line.line).foldl (fun s l => s.releaseLock c l) s

/-- HDM_RANGE_LOSS of decoder ev.a: its ports are down, or the expander reports the head lost. -/
def execHdmRangeLoss (s : State) : Host.Outcome State Fault Refusal := .next (s.loseRange s.ev.a)

/-- LOSTD_CLEAR: LOSTD is written with ev.w; ones clear. -/
def execLostdClear (s : State) : Host.Outcome State Fault Refusal :=
  .next (s.setRegBits Reg.lostd 7 0 (bits (s.reg Reg.lostd &&& ~~~s.ev.w) 7 0))

/-- VCLR of context ev.a (R117). -/
def execVclr (s : State) : Host.Outcome State Fault Refusal :=
  let c := BitVec.ofNat 12 s.ev.a
  .next (if (s.sch.launches.any fun x => x.2.ctx = c && !x.2.finished) || (s.cxl.starting.any fun t => t.1.ctx = c) then s.countReg (Reg.contain c.toNat 24) 31 0
    else
      let s := s.setRegBits (Reg.contain c.toNat 8) 63 63 0
      { s with sch := { s.sch with viralAt := Tab.set none s.sch.viralAt c.toNat none } })

/-! ### Data found to be wrong (R105) -/

/-- The poison of sector `k` of a line set. -/
def poisonSector (p : BitVec 4) (k : Nat) : BitVec 4 := p ||| BitVec.ofNat 4 (2 ^ k)

/-- A sector or word becomes poisoned where an uncorrectable error is detected, or where a CXL.mem response says so; a sector that the place does
not hold is none (R105). -/
def State.detectError (s : State) (x : ErrorAt) : State :=
  match x with
  | .memory k => if populated (32 * k) then { s with poison := putSector k true s.poison } else s
  | .l2 k => s.updL2 (k / 4) fun l => { l with poison := poisonSector l.poison (k % 4) }
  | .l1 c k => s.modL1 c (k / 4) fun l => { l with poison := poisonSector l.poison (k % 4) }
  | .xspad k => if 2 ^ 21 ≤ k then s else { s with coh := { s.coh with xpoison := putSector k true s.coh.xpoison } }
  | .spad c w => if spWords ≤ w || 768 ≤ c.toNat then s else s.putSp c w { s.sp c w with poison := true }

end Sys2Proof.Machine
end

