-- ==== Sys2Proof/Machine/Moves.lean ====
section
/-! DEFINITION. Moves, constants, special registers, predicates and K: group 0x1 (R266 to R270). -/

namespace Sys2Proof.Machine

/-- MOV (R266). -/
def execMov (w : RR) (s : State) : Host.Outcome State Fault Refusal :=
  .next (scalar1 (.mov w) w s fun a => a)

/-- LDK (R266). -/
def execLdk (w : I32) (s : State) : Host.Outcome State Fault Refusal :=
  .next (issue (.ldk w) s fun s => s.doneS w.ctl w.d (w.imm.signExtend 64))

/-- LDKH keeps the low half of its destination (R266). -/
def execLdkh (w : I32) (s : State) : Host.Outcome State Fault Refusal :=
  .next (issue (.ldkh w) s fun s => s.doneS w.ctl w.d (setBits (s.cur.srcS w.d) 63 32 w.imm.toNat))

/-- The group's own special registers, 0x0000..0x0027 (R267). -/
def State.groupReg (s : State) (n : Nat) : Word :=
  let g := s.cur
  let k := s.coreCtx g.core g.ctx
  if n = 0 then BitVec.ofNat 64 g.idx.toNat
  else if n = 1 then BitVec.ofNat 64 g.teamPos.toNat
  else if n = 2 then BitVec.ofNat 64 g.cx.toNat
  else if n = 3 then BitVec.ofNat 64 g.cy.toNat
  else if n = 4 then BitVec.ofNat 64 g.cz.toNat
  else if n = 5 then BitVec.ofNat 64 g.core.toNat
  else if n = 6 then s.clock g.core
  else if n = 7 then s.timebase
  else if n = 8 then BitVec.ofNat 64 (s.launch g.launch).dtlen
  else if n = 9 then BitVec.ofNat 64 g.msdep.toNat
  else if n = 0xA then BitVec.ofNat 64 g.mswin.toNat
  else if n = 0xB then BitVec.ofNat 64 g.spbase.toNat
  else if n = 0xC then BitVec.ofNat 64 g.gsf.toNat
  else if n = 0xD then BitVec.ofNat 64 g.ctx.toNat
  else if n = 0xE then BitVec.ofNat 64 (s.launch g.launch).nlane
  else if n = 0xF then BitVec.ofNat 64 g.dline.toNat
  else if n = 0x17 then 0
  else if n < 0x18 then k.tl.toList.getD (n - 0x10) 0
  else if n < 0x20 then g.tlown.toList.getD (n - 0x18) 0
  else if n < 0x28 then BitVec.ofNat 64 (g.counter (n - 0x20))
  else 0

/-- MOVSR (R267). -/
def execMovsr (w : I16) (s : State) : Host.Outcome State Fault Refusal :=
  .next (issue (.movsr w) s fun s => s.doneS w.ctl w.d (s.groupReg w.imm.toNat))

/-- MOVSW: sr.gsf is the one writable register (R234, R267). -/
def execMovsw (w : I16) (s : State) : Host.Outcome State Fault Refusal :=
  .next (issue (.movsw w) s fun s =>
    (s.setCur { s.cur with gsf := BitVec.ofNat 5 (s.cur.srcS w.a).toNat }).doneN w.ctl)

/-- PLOG: the truth table stands in E (R268). -/
def execPlog (w : RR) (s : State) : Host.Outcome State Fault Refusal :=
  .next (issue (.plog w) s fun s =>
    s.doneC w.ctl w.d
      (bit w.e (4 * b2n (s.cur.srcC w.a) + 2 * b2n (s.cur.srcC w.b) + b2n (s.cur.srcC w.c))))

/-- KMOV writes a pair; its latch holds the low word (R269). -/
def execKmov (w : RR) (s : State) : Host.Outcome State Fault Refusal :=
  .next (issue (.kmov w) s fun s =>
    let g := s.cur
    let lo := BitVec.ofNat 64 (bits g.k 63 0)
    let g := match w.d with
      | .reg n => (g.swrite n lo).swrite (n + 1) (BitVec.ofNat 64 (bits s.cur.k 95 64))
      | _ => g
    (s.setCur g).retire w.ctl 1 (.s lo))

/-- The combination of KSET (R270). -/
def ksetFn (fn : Nat) (t x : Mask) : Mask :=
  match fn with
  | 0 => x
  | 1 => t &&& x
  | 2 => t ||| x
  | 3 => t ^^^ x
  | _ => t &&& ~~~x

/-- KSET on K or, through R169, on EM (R270). A KSET of K is written whole. -/
def execKset (w : RR) (s : State) : Host.Outcome State Fault Refusal :=
  .next (issue (.kset w) s fun s =>
    let g := s.cur
    let (lo, hi) := g.srcS2 w.a
    let x : Mask := if bit w.e 3 then g.k else BitVec.ofNat 96 (lo.toNat + 2 ^ 64 * bits hi 31 0)
    let g := if bit w.e 4 then g.setEm (ksetFn (bits w.e 2 0) g.em x)
      else { g with k := ksetFn (bits w.e 2 0) g.k x }
    (s.setCur g).doneN w.ctl)

end Sys2Proof.Machine
end

