-- ==== Sys2Proof/Machine/System.lean ====
section
/-! DEFINITION. Scheduling and system instructions, group 0xD (18_isa_engines_system.md, R381 to R386). -/

namespace Sys2Proof.Machine

/-- A carry-set index the launch declares; 0 where it declares none (R381). -/
def State.csOk (s : State) (cs : Nat) : Bool :=
  let n := (s.launch s.cur.launch).csetn
  cs < n || (cs = 0 && n = 0)

/-- The record of a join-counter address that names no counter (R382). -/
def State.jcaFault (s : State) (a : Word) : Option FRec :=
  let r (k : BitVec 8) (sub : BitVec 4) : FRec := ⟨a, k, 2, true, true, sub, 0⟩
  if a = 0 then none
  else if a.toNat % 8 ≠ 0 then some (r 1 0)
  else if 2 ^ 32 ≤ a.toNat || s.regBits (Reg.sync s.cur.ctx.toNat) 0 0 = 0 then some (r 2 2)
  else none

/-- A YIELD or PHASE noted for the end of its clause; where it is the clause's last instruction, that is now (R139). A group whose launch is ending
leaves there instead (R114). -/
def State.noteSwitch (s : State) (c : Ctl) (e : Word × BitVec 3 × Word × Bool) : State :=
  let s := ((s.setCur { s.cur with endSwitch := some e }).spend 1 c).advance .none
  if s.cur.inClause then s
  else if s.stopping s.cur then s.leave s.cur.core s.cur.slot
  else s.doSwitch

/-- YIELD (R138, R139, R381). -/
def execYield (w : I16) (s : State) : Host.Outcome State Fault Refusal :=
  let cs := bits w.imm 6 4
  .next (issueChecked (.yield w) s (!s.csOk cs) fun s =>
    let d := bits w.imm 3 0 + 1
    if s.cur.hmode then (s.spend 1 w.ctl).advance .none
    else
      let n := min d ((s.launch s.cur.launch).ymax + 1) * 256
      (s.setCur { s.cur with dline := BitVec.ofNat 13 n }).noteSwitch w.ctl (0, BitVec.ofNat 3 cs, 0, false))

/-- The inline carry-set index of PHASE. -/
def inlineCs : Opd → Nat
  | .pos n => n.toNat
  | _ => 0

/-- PHASE (R132, R382); in handler mode, where it executes, illegal instruction comes first. -/
def execPhase (w : I24) (s : State) : Host.Outcome State Fault Refusal :=
  .next (issueChecked (.phase w) s (!s.csOk (inlineCs w.d) && !(s.cur.hmode && s.cur.guards w.ctl)) fun s =>
    let a := s.cur.srcS w.a
    if s.cur.hmode then s.illegalInstruction
    else
      match s.jcaFault a with
      | some r => s.trapLanes [(96, r)]
      | none => s.noteSwitch w.ctl (s.cur.target w.imm, BitVec.ofNat 3 (inlineCs w.d), a, true))

/-! ### SPAWN (R135, R136, R383) -/

/-- How an append to a task queue goes. -/
inductive Append
  | done (s : State)
  | miss
  | full
  | wait (s : State)
  | fault (s : State) (kind : BitVec 8) (sub : BitVec 4) (dec : BitVec 4) (va : Word)
  deriving Repr

def State.taskQ? (s : State) (c : BitVec 12) (h : BitVec 16) : Option TaskQ :=
  s.sch.taskQs.find? fun q => q.ctx = c && q.qh = h

def TaskQ.full (q : TaskQ) : Bool := 2 ^ q.logsz ≤ (q.wrix - q.rdix).toNat

/-- A record appended at WRIX of a task queue through the context's translation (R136, R403); ready at once where no counter holds it
back (R135). -/
def State.appendTask (s : State) (who : Waiter) (c : BitVec 12) (h : BitVec 16) (rec : List Word) (jca : Nat) : Append :=
  match s.taskQ? c h with
  | none => .miss
  | some q =>
    if q.full then .full
    else
      let va := q.slotVa q.wrix
      match s.writeVaWords who c va rec with
      | .error x => match s.stall who c va x 64 with
        | .fault s kd sub dec => .fault (s.setErr c h) kd sub dec va
        | .wait s => .wait s
      | .ok s =>
        let s := if jca = 0 then s else s.synIn (synKey c jca)
        let free := jca = 0 || (s.syn (synKey c jca)).val = 0
        let (s, n) := s.stamp
        let r : TaskRec := ⟨c, h, q.wrix, if free then some s.clock127 else none, BitVec.ofNat 64 jca, n⟩
        .done { s with sch := { s.sch with
          tasks := s.sch.tasks ++ [r]
          taskQs := s.sch.taskQs.map fun x => if x.ctx = c && x.qh = h then { x with wrix := x.wrix + 1 } else x } }

/-- An entry of TYPE 2 with EN = 1 and ERR = 0. -/
def State.taskEntryOk (s : State) (c : BitVec 12) (h : BitVec 16) : Bool :=
  let w := s.qword c h 0
  Qw.type w = 2 && Qw.en w && !Qw.err w

/-- The register of a field. -/
def regOf : Opd → BitVec 6
  | .reg n => n
  | _ => 0

/-- SPAWN. -/
def execSpawn (w : I24) (s : State) : Host.Outcome State Fault Refusal :=
  .next (issue (.spawn w) s fun s =>
    let g := s.cur
    let d := regOf w.d
    let x := g.sread d
    let h := BitVec.ofNat 16 (bits x 15 0)
    let jca := g.srcS w.a
    let l := s.launch g.launch
    if bits x 63 17 ≠ 0 then s.illegalOperand
    else
      match s.jcaFault jca with
      | some r => s.trapLanes [(96, r)]
      | none =>
        if !s.taskEntryOk g.ctx h then s.trapLanes [(96, ⟨BitVec.ofNat 64 h.toNat, 2, 0, true, false, 0, 0⟩)]
        else s.withRelease 3 fun s =>
          let aff := if bit x 16 then g.core.toNat else 0x3FF
          let rec' := taskRecord (g.target w.imm) (g.sread 59) jca.toNat 1 0 aff 0 0 (g.sread (d + 1)) (g.sread (d + 2)) (g.sread (d + 3))
            l.lseq l.lqh
          match s.appendTask (.group g.core g.slot) g.ctx h rec' jca.toNat with
          | .done s => (s.clearVerdicts (.group g.core g.slot)).doneN w.ctl
          | .miss => s.block 5 (BitVec.ofNat 64 h.toNat) 0 0xFF .retry
          | .full => s.block 5 (BitVec.ofNat 64 h.toNat) 1 0xFF .retry
          | .wait s => s.pause
          | .fault s kd sub dec va => s.trapLanes [(96, ⟨va, kd, 3, true, false, sub, dec⟩)])

/-! ### TRAP, RESUME, NOP, SYSR, SYSW (R113, R384 to R386) -/

/-- TRAP: the hardware ignores its code. -/
def execTrap (w : I16) (s : State) : Host.Outcome State Fault Refusal :=
  .next (issue (.trap w) s fun s => s.trap .group 0x10 [])

/-- The clause at the group's pc is checked, as at every entry, before the group resumes at its position (R258, R385): the position that offends. -/
def State.resumeFault (s : State) : Option (BitVec 4) :=
  let g := s.cur
  match s.clauseWords g with
  | none => none
  | some (h, ws) =>
    match clauseFault g.pc h ws with
    | some p => some (BitVec.ofNat 4 p)
    | none => if Header.count h < g.cpos.toNat then some g.cpos else none

/-- RESUME with the frame read, `t` being the state it makes: the words of its clause are fetched first, then the clause is checked, and the group
goes on at its position. -/
def State.resumeAt (s t : State) : State :=
  let g := t.cur
  match t.missing g with
  | some va =>
    match s.fetchInto va with
    | .ok s => s.hold
    | .wait s => s.pause
    | .fault _ f => t.trapAt g.pc g.cpos .lane f.kind [(96, f)]
  | none =>
    match t.resumeFault with
    | some p => t.trapAt g.pc p .group 0x12 []
    | none => t

/-- RESUME: the frame's words and its latch image are read as scalar accesses once the loads that would write what it restores have returned, the
clause at its PC is checked, and the group goes on at CPOS (R113, R167, R258, R385). Its write-combining buffer is sent, so that the reads see
its stores. -/
def execResume (w : RR) (s : State) : Host.Outcome State Fault Refusal :=
  .next (issue (.resume w) s fun s =>
    if !s.cur.hmode then s.illegalInstruction
    else if s.cur.frameLoads || s.cur.inflight.any fun a => !a.performed then (s.sendWc s.cur.core s.cur.slot).hold
    else s.withWords (s.frameAddr s.cur) .load 48 fun s ws =>
    s.withWords (s.frameAddr s.cur + 0x1000) .load 1024 fun s img =>
      let t := s.spend 1 w.ctl
      let g := t.cur.resumeFrom ws img
      s.resumeAt ((t.letGo g.core g.slot).setCur { g with inClause := false }))

/-- NOP. -/
def execNop (w : RR) (s : State) : Host.Outcome State Fault Refusal :=
  .next (issue (.nop w) s fun s => s.doneN w.ctl)

/-- Register `n` as SYSR reads it (R267, R386). -/
def State.systemReg (s : State) (n : Nat) : Word :=
  let g := s.cur
  let l := s.launch g.launch
  if n < 0x100 then s.groupReg n
  else if n = 0x100 then ident
  else if n = 0x101 then BitVec.ofNat 64 (b2n g.hmode)
  else if n = 0x102 then (if s.tfen g.ctx then s.frameAddr g else 0)
  else if n = 0x103 then (match g.batch with
    | some (_, _, k) => BitVec.ofNat 64 k
    | none => 0)
  else if n = 0x104 then l.argb
  else if n = 0x105 then l.dtb
  else if n = 0x106 then field 16 l.lseq.toNat ||| field 0 l.lqh.toNat
  else (l.fslot (n - 0x108)).1

/-- SYSR. -/
def execSysr (w : I16) (s : State) : Host.Outcome State Fault Refusal :=
  .next (issue (.sysr w) s fun s => s.doneS w.ctl w.d (s.systemReg w.imm.toNat))

/-- SYSW: sr.gsf is written, sr.ident ignores it (R3). -/
def execSysw (w : I16) (s : State) : Host.Outcome State Fault Refusal :=
  .next (issue (.sysw w) s fun s =>
    if w.imm = 0xC then (s.setCur { s.cur with gsf := BitVec.ofNat 5 (s.cur.srcS w.a).toNat }).doneN w.ctl
    else s.doneN w.ctl)

end Sys2Proof.Machine
end

