-- ==== Sys2Proof/Machine/Expert.lean ====
section
/-! DEFINITION. Expert queues (08_expert_queues.md, R146 to R162): the entry, token records, ENQT (R149, R380), the backing ring (R151), residency
(R153) and the firing unit (R154 to R159), with the faults of their accesses (R403). -/

namespace Sys2Proof.Machine

/-! ### The entry (R146, R147) -/

def ExpertQ.tqh (q : ExpertQ) : BitVec 16 := BitVec.ofNat 16 (bits q.entry[3] 63 48)
def ExpertQ.fill (q : ExpertQ) : Nat := bits q.entry[3] 47 40 + 1
def ExpertQ.alog (q : ExpertQ) : Nat := bits q.entry[3] 39 35
def ExpertQ.pri (q : ExpertQ) : Nat := bits q.entry[3] 34 32
def ExpertQ.maxBatch (q : ExpertQ) : Nat := bits q.entry[3] 31 24 + 1
def ExpertQ.rcap (q : ExpertQ) : Nat := bits q.entry[3] 23 12
def ExpertQ.aff (q : ExpertQ) : Nat := bits q.entry[3] 11 2
def ExpertQ.ringSize (q : ExpertQ) : Nat := 2 ^ bits q.entry[5] 63 59
def ExpertQ.batchSlots (q : ExpertQ) : Nat := 2 ^ bits q.entry[5] 58 56
/-- Tokens in the backing ring. -/
def ExpertQ.ringCount (q : ExpertQ) : Nat := (q.rwrix - q.rrdix).toNat
/-- VA of ring entry k (R151) and of batch slot n (R156). -/
def ExpertQ.ringVa (q : ExpertQ) (k : BitVec 32) : Word := q.entry[4] + BitVec.ofNat 64 (64 * (k.toNat % q.ringSize))
def ExpertQ.slotVa (q : ExpertQ) (n : Nat) : Word := field 14 (bits q.entry[7] 63 14) + BitVec.ofNat 64 (16384 * n)

/-- Words of an entry that R147 refuses. -/
def entryMalformed (w : Vector Word 8) : Bool :=
  bits w[0] 53 0 ≠ 0 || bits w[3] 1 0 ≠ 0 || bits w[3] 23 12 = 0 || bits w[5] 63 59 < 4 || 20 < bits w[5] 63 59 || 6 < bits w[5] 58 56 ||
  bit w[5] 55 || bits w[5] 47 32 ≠ 0 || bits w[7] 12 0 ≠ 0 || !canonical w[1] || !canonical w[4] || !canonical (field 14 (bits w[7] 63 14))

/-- The words of an entry as the table holds them. -/
def State.entryWords (s : State) (c : BitVec 12) (h : BitVec 16) : Vector Word 8 := Vector.ofFn fun i : Fin 8 => s.qword c h i

def State.expert? (s : State) (c : BitVec 12) (h : BitVec 16) : Option ExpertQ := s.sch.experts.find? fun q => q.ctx = c && q.qh = h

def State.putExpert (s : State) (q : ExpertQ) : State :=
  { s with sch := { s.sch with experts := s.sch.experts.map fun x => if x.ctx = q.ctx && x.qh = q.qh then q else x } }

/-! ### Token records (R148) -/

/-- The record of lane i: registers vb..vb + 7, reserved bits zero. -/
def Group.tokenRecord (g : Group) (b : Nat) (i : Fin 96) : Vector Word 4 :=
  let r (j : Nat) : Half := (g.vread (BitVec.ofNat 6 (b + j)))[i]
  let w (j : Nat) : Word := r (2 * j + 1) ++ r (2 * j)
  #v[w 0, w 1, setBits (w 2) 55 51 0, setBits (w 3) 63 51 0]

/-- A record that has passed through the ring: SPL. -/
def spilled (t : Vector Word 4) : Vector Word 4 := t.set 2 (t[2] ||| field 51 1)

/-! ### Accesses of the queue hardware (R403) -/

/-- How an access of a queue to its own structures goes. -/
inductive QAcc
  | ok (s : State) (ws : List Word) (ts : BitVec 48)
  | wait (s : State)
  | fault (s : State)
  deriving Repr

/-- An access of `n` bytes that could not be made: it waits on its page, or it faults. -/
def State.queueMiss (s : State) (who : Waiter) (c : BitVec 12) (va : Word) (x : Xlat) (n : Nat) : QAcc :=
  match s.stall who c va x n with
  | .fault s .. => .fault s
  | .wait s => .wait s

/-- Words written one after another; the highest timestamp. -/
def State.queueWrite (s : State) (who : Waiter) (c : BitVec 12) (va : Word) (ts : BitVec 48) : List Word → QAcc
  | [] => .ok s [] ts
  | w :: r =>
    match s.writeVa who c va 8 w.toNat false with
    | .ok (s, t) => State.queueWrite s who c (va + 8) (max48 ts t) r
    | .error x => s.queueMiss who c va x 8

/-- The first `n` words of `va`. -/
def State.queueWords (s : State) (who : Waiter) (c : BitVec 12) (va : Word) (n : Nat) : QAcc :=
  match s.readVaWords who c va n with
  | .ok (s, ws) => .ok s ws 0
  | .error x => s.queueMiss who c va x (8 * n)

/-- The words of a ring entry (R151). -/
def ringEntry (t : Vector Word 4) (time : Word) : List Word := (spilled t).toList ++ [time, 0, 0, 0]

/-- The token of a ring entry's words. -/
def tokenOf (ws : List Word) : Token := ⟨#v[ws.getD 0 0, ws.getD 1 0, ws.getD 2 0, ws.getD 3 0], ws.getD 4 0⟩

/-! ### The backing ring (R151) -/

/-- The resident part refilled from the ring, oldest first; a read that waits or faults leaves the tokens in the ring. -/
def State.refill (s : State) (c : BitVec 12) (h : BitVec 16) : Nat → State
  | 0 => s
  | n + 1 =>
    match s.expert? c h with
    | none => s
    | some q =>
      if q.rcap ≤ q.tokens.length || q.ringCount = 0 then s
      else
        match s.queueWords (.queue c h) c (q.ringVa q.rrdix) 5 with
        | .ok s ws _ =>
          State.refill (s.putExpert { q with tokens := q.tokens ++ [tokenOf ws], rrdix := q.rrdix + 1 }) c h n
        | .wait s => s
        | .fault s => s.setErr c h

/-- RING_REFILL of queue ev.b of context ev.a. -/
def execRingRefill (s : State) : Host.Outcome State Fault Refusal :=
  .next (s.refill (BitVec.ofNat 12 s.ev.a) (BitVec.ofNat 16 s.ev.b) 4096)

/-! ### ENQT (R149, R150, R152, R380, R387) -/

/-- How a lane of ENQT fares. -/
inductive Enq
  | accepted (s : State)
  | refused (s : State)
  /-- Its token found the ring full. -/
  | spill
  /-- Its queue accepts no other token in this cycle. -/
  | later
  /-- The queue is not resident. -/
  | miss
  | wait (s : State)
  deriving Repr

/-- A queue accepts at most one token per cycle (R387): one has been accepted in this cycle. -/
def ExpertQ.acceptedIn (q : ExpertQ) (now : Word) : Bool := q.lastAt.any fun t => now.toNat ≤ t.toNat

/-- Another group's ENQT is in the midst of its lanes for the queue, which stay together (R150). -/
def State.enqtAhead (s : State) (who : Waiter) (c : BitVec 12) (h : BitVec 16) : Bool :=
  s.groups.any fun g => g.waiter ≠ who && g.ctx = c && (match g.wait with
    | some w => (match w.pend with
      | .enqt .. => w.kind = 15 && w.obj = BitVec.ofNat 64 h.toNat && w.expect = 1
      | _ => false)
    | none => false)

/-- One lane's token offered to the queue its handle names; `midst`: an earlier lane of the instruction has given it one. -/
def State.enqueue (s : State) (who : Waiter) (c : BitVec 12) (v : Half) (t : Vector Word 4) (midst : Bool := false) : Enq :=
  let h := BitVec.ofNat 16 v.toNat
  let e := s.qword c h 0
  if bits v 31 16 ≠ 0 || Qw.type e ≠ 3 || !Qw.en e || Qw.err e then .refused s
  else
    match s.expert? c h with
    | none => if entryMalformed (s.entryWords c h) then .refused (s.setErr c h) else .miss
    | some q =>
      if entryMalformed q.entry then .refused (s.setErr c h)
      else
        let now := s.clock127
        if q.acceptedIn now || (!midst && s.enqtAhead who c h) then .later
        else if q.tokens.length < q.rcap && q.ringCount = 0 then
          .accepted (s.putExpert { q with tokens := q.tokens ++ [⟨t, now⟩], lastAt := some now })
        else if q.ringCount < q.ringSize then
          match s.queueWrite who c (q.ringVa q.rwrix) 0 (ringEntry t now) with
          | .ok s _ _ => .accepted (s.putExpert { q with rwrix := q.rwrix + 1, lastAt := some now })
          | .wait s => .wait s
          | .fault s => .refused (s.setErr c h)
        else .spill

/-- The lanes of ENQT from `i` on, in ascending order, with the lanes accepted so far: K written, or the group held at a lane. A lane whose queue has
accepted a token in this cycle goes on in a later one, and meets the queue as it is then (R387, log 60). -/
def State.enqueueLanes (s : State) (w : RR) (b : Nat) (h : Lanes) (em : Mask) (k : Mask) : List (Fin 96) → State
  | [] =>
    let s := s.clearVerdicts (.group s.cur.core s.cur.slot)
    (s.setCur { s.cur with k := k }).retire w.ctl (max 1 s.cur.beats) .none
  | i :: r =>
    let g := s.cur
    if !bit em i then State.enqueueLanes s w b h em k r
    else
      let midst := (List.finRange 96).any fun j => j < i && bit k j && h[j] = h[i]
      let hold (s : State) : State :=
        s.block 15 (BitVec.ofNat 64 (bits h[i] 15 0)) (BitVec.ofNat 64 (b2n midst)) 0xFF (.enqt i.val k)
      match s.enqueue (.group g.core g.slot) g.ctx h[i] (g.tokenRecord b i) midst with
      | .accepted s => State.enqueueLanes s w b h em (k ||| BitVec.ofNat 96 (2 ^ i.val)) r
      | .refused s => State.enqueueLanes s w b h em k r
      | .spill =>
        State.enqueueLanes (s.setCur { g with
          dueSpill := true, spills := g.spills ++ [(BitVec.ofNat 7 i.val, BitVec.ofNat 16 h[i].toNat)] }) w b h em k r
      | .miss => s.block 5 (BitVec.ofNat 64 (bits h[i] 15 0)) 0 (BitVec.ofNat 8 i.val) (.enqt i.val k)
      | .later => hold s
      | .wait s => hold s

/-- Where a held ENQT goes on. -/
def Group.enqtFrom (g : Group) : Nat × Mask :=
  match g.wait with
  | some w => (match w.pend with
    | .enqt i k => (i, k)
    | _ => (0, 0))
  | none => (0, 0)

/-- ENQT: a token for each active lane, in ascending lane order; K says which were accepted. It releases at `.dev` first (R216). -/
def execEnqt (w : RR) (s : State) : Host.Outcome State Fault Refusal :=
  .next (issue (.enqt w) s fun s =>
    let (i, k) := s.cur.enqtFrom
    let b := match w.a with
      | .reg n => n.toNat
      | _ => 0
    let lanes := (List.finRange 96).drop i
    if i = 0 then s.withRelease 3 fun s => s.enqueueLanes w b (s.cur.srcV w.b) s.cur.em k lanes
    else s.enqueueLanes w b (s.cur.srcV w.b) s.cur.em k lanes)

/-! ### Residency (R153) -/

/-- Bytes of queue SRAM in use by expert queues. -/
def State.queueSram (s : State) : Nat := s.sch.experts.foldl (fun n q => n + 64 + 40 * q.rcap) 0

/-- Tokens of the queue accepted in this cycle: one at most (R387). -/
def ExpertQ.coming (q : ExpertQ) (now : Word) : Nat := b2n (q.acceptedIn now)

/-- The queue may leave queue SRAM: it holds no token, or it is disabled and its ring has room for the resident ones. -/
def State.evictable (s : State) (q : ExpertQ) : Bool :=
  q.coming s.clock127 = 0 && ((q.tokens.isEmpty && q.ringCount = 0) ||
  (!Qw.en (s.qword q.ctx q.qh 0) && q.ringCount + q.tokens.length ≤ q.ringSize))

/-- Resident tokens of a disabled queue written to the ring entries before RRDIX. -/
def State.spillBack (s : State) (q : ExpertQ) (k : BitVec 32) : List Token → QAcc
  | [] => .ok s [] 0
  | t :: r =>
    match s.queueWrite (.queue q.ctx q.qh) q.ctx (q.ringVa k) 0 (ringEntry t.words t.time) with
    | .ok s _ _ => State.spillBack s q (k + 1) r
    | x => x

/-- An expert queue leaves queue SRAM: RRDIX, RWRIX, BUSY and FIRED go back into its entry (R146). -/
def State.evictExpert (s : State) (q : ExpertQ) : State :=
  let n := BitVec.ofNat 32 q.tokens.length
  match s.spillBack q (q.rrdix - n) q.tokens with
  | .wait s => s
  | .fault s => s.setErr q.ctx q.qh
  | .ok s _ _ =>
    let c := q.ctx
    let h := q.qh
    let s := s.setQword c h 5 (setBits (setBits (s.qword c h 5) 54 48 (s.batches c h.toNat).length) 31 0 q.fired.toNat)
    let s := s.setQword c h 6 (field 32 (q.rrdix - n).toNat ||| field 0 q.rwrix.toNat)
    let s := s.setQword c h 7 (setBits (s.qword c h 7) 13 13 0)
    { s with sch := { s.sch with experts := s.sch.experts.filter fun x => !(x.ctx = c && x.qh = h) } }

/-- A task queue leaves queue SRAM; its indices go back into its entry (R136). -/
def State.evictTaskQ (s : State) (q : TaskQ) : State :=
  let s := s.setQword q.ctx q.qh 3 (field 32 q.rdix.toNat ||| field 0 q.wrix.toNat)
  let s := s.setQword q.ctx q.qh 5 (setBits (s.qword q.ctx q.qh 5) 63 63 0)
  { s with sch := { s.sch with taskQs := s.sch.taskQs.filter fun x => !(x.ctx = q.ctx && x.qh = q.qh) } }

/-- The queue that firmware chooses to evict leaves, if it may. -/
def State.evictQueue (s : State) (c : BitVec 12) (h : BitVec 16) : State :=
  match s.expert? c h with
  | some q => if s.evictable q then s.evictExpert q else s
  | none =>
    match s.taskQ? c h with
    | some q => s.evictTaskQ q
    | none => s

/-- A queue of TYPE 2 or 3 made resident where there is room: 512 queues, and 1 MiB for expert queues. -/
def State.bringIn (s : State) (c : BitVec 12) (h : BitVec 16) : State :=
  let w := s.entryWords c h
  if 512 ≤ s.sch.taskQs.length + s.sch.experts.length then s
  else if Qw.type w[0] = 2 then
    let q : TaskQ := ⟨c, h, w[1], bits w[2] 63 59, w[4], BitVec.ofNat 32 (bits w[3] 63 32), BitVec.ofNat 32 (bits w[3] 31 0)⟩
    { s.setQword c h 5 (w[5] ||| field 63 1) with sch := { s.sch with taskQs := s.sch.taskQs ++ [q] } }
  else if Qw.type w[0] = 3 && !entryMalformed w then
    let q : ExpertQ := ⟨c, h, w, [], BitVec.ofNat 32 (bits w[6] 63 32), BitVec.ofNat 32 (bits w[6] 31 0), BitVec.ofNat 32 (bits w[5] 31 0), none⟩
    if 2 ^ 20 < s.queueSram + 64 + 40 * q.rcap then s
    else
      let s := { s.setQword c h 7 (w[7] ||| field 13 1) with sch := { s.sch with experts := s.sch.experts ++ [q] } }
      let s := if (s.batches c h.toNat).isEmpty then s.setBatches c h.toNat ((List.range (bits w[5] 54 48)).map fun n => (n, q.slotVa n)) else s
      s.refill c h 4096
  else s

/-- QUEUE_BRING_IN of queue ev.b of context ev.a; with ev.flag firmware first evicts the queue ev.c of the context ev.w. -/
def execQueueBringIn (s : State) : Host.Outcome State Fault Refusal :=
  let c := BitVec.ofNat 12 s.ev.a
  let h := BitVec.ofNat 16 s.ev.b
  .next (if (s.expert? c h).isSome || (s.taskQ? c h).isSome then s
    else
      let s := if s.ev.flag then s.evictQueue (BitVec.ofNat 12 s.ev.w.toNat) (BitVec.ofNat 16 s.ev.c) else s
      s.bringIn c h)

/-! ### Eligibility and rounds (R154, R155) -/

/-- A token's age. -/
def age (now t : Word) : Nat := now.toNat - t.toNat

/-- Tokens accepted before cycle `now`, resident and in the ring: one of this cycle is not part of a firing (R156). -/
def ExpertQ.count (q : ExpertQ) (now : Word) : Nat := q.tokens.length + q.ringCount - q.coming now

def ExpertQ.filled (q : ExpertQ) (now : Word) : Bool := q.fill ≤ q.count now

/-- The head token has reached the age limit. -/
def ExpertQ.aged (q : ExpertQ) (now : Word) : Bool :=
  match q.tokens with
  | t :: _ => q.alog ≠ 31 && 2 ^ q.alog ≤ age now t.time
  | [] => false

def State.expertRuns (s : State) (q : ExpertQ) : Bool := let w := s.qword q.ctx q.qh 0; Qw.en w && !Qw.err w

/-- The firing unit finds the queue eligible: at its fill, or by an age that it has detected. -/
def State.eligibleQ (s : State) (q : ExpertQ) : Bool :=
  s.expertRuns q && (q.filled s.clock127 || (q.aged s.clock127 && decide ((q.ctx, q.qh) ∈ s.sch.eligible)))

/-- AGE_LIMIT_EXPIRY of queue ev.b of context ev.a. -/
def execAgeLimitExpiry (s : State) : Host.Outcome State Fault Refusal :=
  let c := BitVec.ofNat 12 s.ev.a
  let h := BitVec.ofNat 16 s.ev.b
  .next (
    match s.expert? c h with
    | none => s
    | some q =>
      if s.expertRuns q && q.aged s.clock127 && !decide ((c, h) ∈ s.sch.eligible) then
        { s with sch := { s.sch with eligible := s.sch.eligible ++ [(c, h)] } }
      else s)

/-- Enqueue time of the head token. -/
def ExpertQ.headTime (q : ExpertQ) : Nat :=
  match q.tokens with
  | t :: _ => t.time.toNat
  | [] => 2 ^ 64

/-- Higher PRI, then the older head, then the lower context, then the lower handle (R155). -/
def firesBefore (a b : ExpertQ) : Bool :=
  b.pri < a.pri || (a.pri = b.pri && (a.headTime < b.headTime || (a.headTime = b.headTime &&
    (a.ctx < b.ctx || (a.ctx = b.ctx && a.qh ≤ b.qh)))))

/-- FIRING_ROUND_START: the idle unit starts a round of the queues eligible now. -/
def execFiringRoundStart (s : State) : Host.Outcome State Fault Refusal :=
  .next (if !s.sch.round.isEmpty then s
    else { s with sch := { s.sch with
      round := ((s.sch.experts.filter s.eligibleQ).sortBy firesBefore).map fun q => (q.ctx, q.qh) } })

/-! ### Firing (R156, R157, R159) -/

/-- How a member's turn goes. -/
inductive Fire
  | fired (s : State)
  /-- It is passed over. -/
  | passed (s : State)
  /-- It waits on a page. -/
  | wait (s : State)
  deriving Repr

/-- The first `n` tokens of the ring. -/
def State.ringTokens (s : State) (q : ExpertQ) (k : BitVec 32) : Nat → Except QAcc (State × List Token)
  | 0 => .ok (s, [])
  | n + 1 =>
    match s.queueWords (.queue q.ctx q.qh) q.ctx (q.ringVa k) 5 with
    | .ok s ws _ =>
      (match State.ringTokens s q (k + 1) n with
       | .ok (s, l) => .ok (s, tokenOf ws :: l)
       | .error x => .error x)
    | x => .error x

/-- The batch header (R156). -/
def batchHeader (q : ExpertQ) (n : Nat) (why : Bool) (time : Word) (headAge : Nat) : List Word :=
  [field 48 q.qh.toNat ||| field 39 n ||| field 38 (b2n why) ||| field 35 q.pri, time, BitVec.ofNat 64 headAge, field 32 q.fired.toNat,
   0, 0, 0, 0]

/-- A firing of the queue with the tokens `l` (of the ring: the last `nr`) into batch slot `n`. -/
def State.fireInto (s : State) (q : ExpertQ) (l : List Token) (nr n : Nat) : Fire :=
  let va := q.slotVa n
  let now := s.clock127
  let hd := batchHeader q l.length (!q.filled now) s.timebase (match l with
    | t :: _ => age now t.time
    | [] => 0)
  let rec' := taskRecord q.entry[1] q.entry[2] 0 2 0 q.aff 0 0 va (BitVec.ofNat 64 l.length) (BitVec.ofNat 64 q.qh.toNat) 0 0
  match s.appendTask (.queue q.ctx q.qh) q.ctx q.tqh rec' 0 with
  | .miss | .full => .passed s
  | .wait s => .wait s
  | .fault s .. => .passed s
  | .done _ =>
    match s.queueWrite (.queue q.ctx q.qh) q.ctx va 0 (hd ++ l.flatMap fun t => t.words.toList) with
    | .wait s => .wait s
    | .fault s => .passed (s.setErr q.ctx q.qh)
    | .ok s _ ts =>
      let s := { s with sch := { s.sch with
        partClock := max48 s.sch.partClock ts
        eligible := s.sch.eligible.filter fun x => !(x = (q.ctx, q.qh)) } }
      let s := s.putExpert { q with
        tokens := q.tokens.drop (l.length - nr), rrdix := q.rrdix + BitVec.ofNat 32 nr, fired := q.fired + 1 }
      let s := s.setBatches q.ctx q.qh.toNat (s.batches q.ctx q.qh.toNat ++ [(n, va)])
      match s.appendTask (.queue q.ctx q.qh) q.ctx q.tqh rec' 0 with
      | .done s => .fired (s.refill q.ctx q.qh 4096)
      | _ => .fired s

/-- The turn of a member of the round, which a full or absent task queue holds before anything is read (R159). Tokens accepted in this cycle are not part of the
firing. -/
def State.fire (s0 : State) (c : BitVec 12) (h : BitVec 16) : Fire :=
  let s := s0.refill c h 4096
  match s.expert? c h with
  | none => .passed s
  | some q =>
    let used := (s.batches c h.toNat).map Prod.fst
    let t := s.qword c q.tqh 0
    if !s.eligibleQ q then .passed s
    else if q.batchSlots ≤ used.length then .passed s
    else if !(Qw.type t = 2 && Qw.en t) then .passed (s.setErr c h)
    else if (s.taskQ? c q.tqh).all TaskQ.full then .passed s
    else
      let n := min q.maxBatch (q.count s.clock127)
      let nr := n - q.tokens.length
      if n = 0 then .passed s
      else
        match s.ringTokens q q.rrdix nr with
        | .error (.wait s) => .wait s
        | .error (.fault s) => .passed (s.setErr c h)
        | .error (.ok s _ _) => .passed s
        | .ok (s, l) =>
          match (List.range q.batchSlots).find? fun i => !(i ∈ used) with
          | none => .passed s
          | some i => s.fireInto q (q.tokens.take n ++ l) nr i

/-- Members in their order, until one fires or waits. -/
def State.fireNext (s : State) : List (BitVec 12 × BitVec 16) → State
  | [] => { s with sch := { s.sch with round := [] } }
  | (c, h) :: r =>
    match s.fire c h with
    | .fired s => { s with sch := { s.sch with round := r } }
    | .passed s => State.fireNext s r
    | .wait s => { s with sch := { s.sch with round := (c, h) :: r } }

/-- EXPERT_FIRING: the next member of the round that may fire does. -/
def execExpertFiring (s : State) : Host.Outcome State Fault Refusal := .next (s.fireNext s.sch.round)

end Sys2Proof.Machine
end

