-- ==== Sys2Proof/Machine/Mgmt.lean ====
section
/-! DEFINITION. REGISTER_WRITE: a write of the management space to a register that has no event of its own (R3, R9, R19, R21, R25, R30, R75,
R79, R89, R92, R111, R122, R191, R196, R201, R207). Fields that are read-only, reserved or written by an event of their own keep what they hold. -/

namespace Sys2Proof.Machine

/-- Bits [hi:lo] as a mask. -/
def ones (hi lo : Nat) : Word := BitVec.ofNat 64 ((2 ^ (hi + 1 - lo) - 1) * 2 ^ lo)

/-- RW bits of a context's words: translation (R75), queues (R89), containment (R111), scheduler (R122). -/
def rwTrans (w : Nat) : Word :=
  match w with
  | 0 => ones 51 15 ||| ones 1 0
  | 8 => ones 63 52 ||| ones 51 6
  | 16 => ones 63 44
  | 24 => ones 51 6
  | 32 => ones 47 32
  | _ => 0

def rwQueue (w : Nat) : Word :=
  match w with
  | 0 => ones 51 6 ||| ones 0 0
  | 8 => ones 63 58 ||| ones 51 6
  | 16 => ones 63 59 ||| ones 51 6
  | 32 => ones 63 23
  | _ => 0

def rwSched (w : Nat) : Word :=
  match w with
  | 0 => ones 51 16 ||| ones 3 0
  | 8 => ones 63 16
  | _ => 0

/-- RW bits of the register at an offset; the enable bit of a connection belongs to CONN_ENABLE and CONN_DISABLE. -/
def rwMask (o : Nat) : Word :=
  if 0x20000 ≤ o ∧ o < 0x20400 then ones 63 16
  else if o = Reg.pycfg then ones 31 16 ||| ones 8 0
  else if 0x50000 ≤ o ∧ o < 0x50E00 then (if absentLane ((o - 0x50000) / 16) then 0 else if o % 16 = 0 then ones 63 0 else ones 63 32)
  else if 0x60000 ≤ o ∧ o < 0xA0000 then
    (match o % 64 with
     | 0 => (if 4032 ≤ (o - 0x60000) / 64 then ones 62 8 else ones 62 14)
     | 8 => ones 47 0
     | 32 | 40 | 48 => ones 63 0
     | _ => 0)
  else if o = Reg.netcfg then ones 63 24
  else if 0xA0100 ≤ o ∧ o < 0xA0100 + 8 * 18 then ones 63 62 ||| ones 47 0
  else if 0x100000 ≤ o ∧ o < 0x140000 then rwTrans (o % 64)
  else if o = Reg.mmu 0 ∨ o = Reg.mmu 0x20 then ones 63 0
  else if o = Reg.mmu 0x30 then ones 63 48
  else if 0x180000 ≤ o ∧ o < 0x1C0000 then rwQueue (o % 64)
  else if o = Reg.schcfg then ones 63 48
  else if 0x2000000 ≤ o ∧ o < 0x2040000 then (if o % 64 = 0 then ones 63 14 ||| ones 0 0 else 0)
  else if o = Reg.prabase then ones 51 27
  else if 0x2210000 ≤ o ∧ o < 0x2250000 then rwSched (o % 64)
  else if o = Reg.cohcfg then ones 63 56
  else if 0x2410000 ≤ o ∧ o < 0x2418000 then ones 63 48
  else if 0x2420000 ≤ o ∧ o < 0x2428000 then ones 51 32 ||| ones 0 0
  else if 0x2430000 ≤ o ∧ o < 0x2438000 then ones 63 0
  else 0

/-- Bits that a one written clears. -/
def w1cMask (o : Nat) : Word :=
  if o = Reg.mstat then ones 3 0
  else if 0x40000 ≤ o ∧ o < 0x40E00 ∧ o % 16 = 8 then ones 0 0
  else if 0x180000 ≤ o ∧ o < 0x1C0000 ∧ o % 64 = 32 then ones 0 0
  else 0

/-- What a register holds after `w` is written over `old`. -/
def writtenOver (o : Nat) (old w : Word) : Word :=
  ((old &&& ~~~(rwMask o)) ||| (w &&& rwMask o)) &&& ~~~(w &&& w1cMask o)

/-- Registers whose new value waits for a telemetry refresh (R19). -/
def delayed (o : Nat) : Bool := o = Reg.pycfg || (0x20000 ≤ o && o < 0x20400)

/-- A key word of a connection that is enabled is not written (R31). -/
def State.keyLocked (s : State) (o : Nat) : Bool :=
  0x60000 ≤ o && o < 0xA0000 && 32 ≤ o % 64 && s.connBits ((o - 0x60000) / 64) 63 63 = 1

/-- Slots that map a queue of the context are let go (R89). -/
def State.unmapContext (s : State) (c : BitVec 12) : State :=
  (List.range 64).foldl (fun s i =>
    let q := s.qslot i
    if q.ctx = c && (q.st = .active || q.st = .restoring) then s.setQslot i { q with st := .saving } else s) s

/-- What follows a write: a port goes up or down (R25), the old ROOT and TEN are kept (R75), pages whose counts reach a lowered HOTT are
candidates (R88), queues of a context are let go (R89). -/
def State.afterWrite (s : State) (o : Nat) (old : Word) : State :=
  if 0xA0100 ≤ o ∧ o < 0xA0100 + 8 * 18 then s.updatePort ((o - 0xA0100) / 8)
  else if 0x100000 ≤ o ∧ o < 0x140000 ∧ o % 64 = 0 then
    let c := (o - 0x100000) / 64
    if (old ^^^ s.reg o) &&& (ones 51 15 ||| ones 0 0) = 0 || (Tab.get none s.mmu.stale c).isSome then s
    else { s with mmu := { s.mmu with stale := Tab.set none s.mmu.stale c (some old) } }
  else if o = Reg.mmu 0x30 then
    let reached := s.mmu.hot.filter fun x => max 1 (bits (s.reg o) 63 48) ≤ x.2 && x.2 < max 1 (bits old 63 48)
    { s with mmu := { s.mmu with hotPages := s.mmu.hotPages ++ reached.map fun x => (BitVec.ofNat 12 (x.1 / 2 ^ 36), x.1 % 2 ^ 36) } }
  else if 0x180000 ≤ o ∧ o < 0x1C0000 ∧ o % 64 = 0 ∧ bit (s.reg o) 0 = false then
    s.unmapContext (BitVec.ofNat 12 ((o - 0x180000) / 64))
  else s

/-- Words of the space that hold no bits a reader sees: keys (R31), the writes that start an operation of the translation hardware (R79, R85),
of a queue (R89), of a context (R117, R142), and the doorbell pages (R91). -/
def writeOnly (o : Nat) : Bool :=
  (0x60000 ≤ o && o < 0xA0000 && 32 ≤ o % 64) || o = Reg.mmu 0x08 || o = Reg.mmu 0x18 || o = Reg.mmu 0x28 ||
  (0x180000 ≤ o && o < 0x1C0000 && o % 64 = 40) || (0x200000 ≤ o && o < 0x1200000) || (0x2000000 ≤ o && o < 0x2040000 && o % 64 = 32)

/-- Word `w` of the status of slot i (R92). -/
def QSlot.status (q : QSlot) (w : Nat) : Word :=
  if w = 0 then
    field 62 (match q.st with
      | .free => 0
      | .restoring => 1
      | .active => 2
      | .saving => 3) ||| field 50 q.ctx.toNat ||| field 34 q.qh.toNat ||| field 26 q.epri.toNat
  else field 32 q.rdix.toNat ||| field 0 q.wrix.toNat

/-- What a read of the management space returns: the slots' status is formed from the slots (R92), write-only words read zero, and every
other register reads what it holds. -/
def State.readRegister (s : State) (o : Nat) : Word :=
  if writeOnly o then 0
  else if 0x1C0000 ≤ o && o < 0x1C0400 then (s.qslot ((o - 0x1C0000) / 16)).status (o % 16)
  else s.reg o

/-- REGISTER_WRITE of ev.w at offset ev.a. -/
def execRegisterWrite (s : State) : Host.Outcome State Fault Refusal :=
  let o := s.ev.a
  let w := s.ev.w
  .next (if s.keyLocked o then s
    else if delayed o then
      let old := (Tab.get none s.pkg.pending o).getD (s.reg o)
      { s with pkg := { s.pkg with pending := Tab.set none s.pkg.pending o (some (writtenOver o old w)) } }
    else
      let old := s.reg o
      (s.setReg o (writtenOver o old w)).afterWrite o old)

end Sys2Proof.Machine
end

