-- ==== Sys2Proof/Machine/Pages.lean ====
section
/-! DEFINITION. Events of translation and migration (04_memory_translation.md): walks (R76), invalidations (R79, R80), answers to page requests
(R78), skims (R85 to R87) and the hot-page tracker (R88). Events whose condition does not hold change nothing (log 20). -/

namespace Sys2Proof.Machine

/-! ### Walks (R76) -/

/-- PAGE_WALK_COMPLETE of context ev.a at address ev.w, of a walk that one of the 64 walkers makes: its reads are made; a leaf fills the TLBs of
every miss that lies inside it; an absent page is requested for all who wait; any other end is found again by the access itself. -/
def execPageWalkComplete (s : State) : Host.Outcome State Fault Refusal :=
  let c := BitVec.ofNat 12 s.ev.a
  let va := s.ev.w
  .next (
    match (s.mmu.walks.take 64).find? fun w => w.ctx = c && w.page = pageOf va with
    | none => s
    | some w =>
      let r := s.walk c va
      let s := s.walkReads c va
      let keep (f : Walk → Bool) : State := { s with mmu := { s.mmu with walks := s.mmu.walks.filter f } }
      match r with
      | .leaf level e _ =>
        let inside (x : Walk) : Bool := x.ctx = c && x.page / 2 ^ (pageBits level - 15) = va51 va / 2 ^ pageBits level
        ((s.mmu.walks.filter inside).flatMap Walk.waiters).foldl (fun s who => s.fillTlb who c va level e) (keep fun x => !inside x)
      | .absent => (keep fun x => !(x = w)).pageRequest w.waiters c va w.wr w.fx false
      | .bad .. => keep fun x => !(x = w))

/-! ### Invalidation (R79, R80) -/

/-- Does an invalidation cover a page of a level? -/
def covers (all : Bool) (first n : Nat) (level page : Nat) : Bool :=
  let k := 2 ^ (pageBits level - 15)
  all || (page * k < first + n && first < page * k + k)

/-- MMU_INVALIDATE: ev.w written at +0x08; ignored while one is in progress. -/
def execMmuInvalidate (s : State) : Host.Outcome State Fault Refusal :=
  .next (if s.mmu.inval.isSome then s
    else
      let w := s.ev.w
      let x := (BitVec.ofNat 12 (bits w 63 52), bit w 51, pageOf (s.reg (Reg.mmu 0)), bits w 31 0)
      { s with mmu := { s.mmu with inval := some x } }.setRegBits (Reg.mmu 0x10) 0 0 1)

/-- An access to an address went through an entry that the invalidation drops: its page lies in the range, or its leaf, or that of the block or
the metadata byte of the surface that it reads through an aperture (R79, R84). -/
def State.throughDropped (s : State) (who : Waiter) (c : BitVec 12) (all : Bool) (first n : Nat) (va : Word) : Bool :=
  let one (va : Word) : Bool :=
    covers all first n 2 (pageOf va) ||
    (match s.leafNow who c va with
     | some (level, _) => covers all first n level (va51 va / 2 ^ pageBits level)
     | none => false)
  one va ||
  (match s.leafNow who c va with
   | some (_, e) => Pte.si e && (match s.surface c (Pte.swi e) with
     | .ok (base, _, md, ap, _) =>
       let n := (va.toNat - ap.toNat) / 2048
       one (base + BitVec.ofNat 64 (2048 * n)) || one (md + BitVec.ofNat 64 n)
     | .error _ => false)
   | none => false)

/-- Accesses so translated have not completed: lanes in flight, and the lane of a region that ACMT is committing, once it holds lines. -/
def State.invalBusy (s : State) (c : BitVec 12) (all : Bool) (first n : Nat) : Bool :=
  s.groups.any fun g => g.ctx = c &&
    ((g.inflight.any fun a => !(a.performed && a.acks = 0) && a.lanes.any fun l => s.throughDropped g.waiter c all first n l.va) ||
     g.region.any fun r => r.committing && !r.held.isEmpty && ((r.state.drop r.nextLane).take 1).any fun l =>
       (l.reads.map Tracked.va ++ l.writes.map WEntry.va).any fun va => s.throughDropped g.waiter c all first n va)

/-- Entries of every TLB and of the walk cache that an invalidation covers are gone. -/
def State.dropEntries (s : State) (c : BitVec 12) (all : Bool) (first n : Nat) : State :=
  let keep (t : TlbEntry) : Bool := !(t.ctx = c && covers all first n t.level t.page)
  { s with
    cores := s.cores.map fun (x : Nat × Core) => (x.1, { x.2 with tlb := x.2.tlb.filter keep })
    mmu := { s.mmu with
      sects := s.mmu.sects.map fun (x : Nat × List TlbEntry) => (x.1, x.2.filter keep)
      tables := s.mmu.tables.filter fun t => !(t.ctx = c && covers all first n t.level t.page) } }

/-- INVALIDATION_COMPLETE: no access translated through an entry of the range is left, so the entries and the cached instructions go, and
IBUSY clears. After one of the whole context only the new ROOT and TEN are used (R75). -/
def execInvalidationComplete (s : State) : Host.Outcome State Fault Refusal :=
  .next (
    match s.mmu.inval with
    | none => s
    | some (c, all, first, n) =>
      if s.invalBusy c all first n then s
      else
        let s := (s.dropIcache c fun line => covers all first n 2 (line % 2 ^ 44 / 256)).dropEntries c all first n
        let s := { s with mmu := { s.mmu with
          inval := none
          stale := if all then Tab.set none s.mmu.stale c.toNat none else s.mmu.stale } }
        s.setRegBits (Reg.mmu 0x10) 0 0 0)

/-! ### Page requests (R78, R79) -/

/-- PGRESP: ev.w written at +0x18. Every access that waits goes on; with VERD = 1 it finds its page unresolvable. -/
def execPgresp (s : State) : Host.Outcome State Fault Refusal :=
  let w := s.ev.w
  .next (
    match s.mmu.reqs.find? fun r => r.prid.toNat = bits w 51 40 && r.ctx.toNat = bits w 63 52 with
    | none => s
    | some r => { s with mmu := { s.mmu with
        reqs := s.mmu.reqs.erase r
        verdicts := if bit w 0 then s.mmu.verdicts ++ r.waiters.map fun x => (x, r.ctx, r.page) else s.mmu.verdicts } })

/-! ### Skims (R85 to R87) -/

/-- ARM of a skim of the page into a frame, and its copy begins. Only a 32 KiB page is skimmed, once at a time, and not on an -L part; an address
that is not translated (R71, R75) names none. The spec does not say what a skim that a write to SDST asks for does where the leaf is an aperture, or
where the destination frame is unpopulated or in the source's own tier: the model copies and switches the leaf as for any other (DESIGN CHOICE,
log 58). -/
def State.startSkim (s : State) (c : BitVec 12) (va : Word) (dst : Nat) (req : Bool) : State :=
  if !canonical va || inCodeWindow va || !s.ten c va then s
  else
    let r := s.walk c va
    let s := s.walkReads c va
    match r with
    | .leaf 2 e _ =>
      if Config.fittingL || s.mmu.skims.any (fun k => k.ctx = c && k.page = pageOf va) then s
      else { s with mmu := { s.mmu with skims := s.mmu.skims ++ [⟨c, pageOf va, .copy, Pte.pfn e, dst, e, 0, 0, req, 0⟩] } }
    | _ => s

/-- SKIM_REQUEST: ev.w written at +0x28, for the page at SVA. -/
def execSkimRequest (s : State) : Host.Outcome State Fault Refusal :=
  .next (s.startSkim (BitVec.ofNat 12 (bits s.ev.w 63 52)) (s.reg (Reg.mmu 0x20)) (bits s.ev.w 51 15 * 2 ^ 15) true)

/-- The address of entry i of the promotion pool (R75). -/
def State.poolEntry (s : State) (c : BitVec 12) (i : Nat) : Nat := bits (s.reg (Reg.trans c.toNat 24)) 51 6 * 64 + 8 * i

/-- A frame taken from the pool of a context: entries POOLH up to POOLT, modulo POOLN. -/
def State.poolTake (s : State) (c : BitVec 12) : Option (State × Nat) :=
  let w := s.reg (Reg.trans c.toNat 32)
  let n := s.regBits (Reg.trans c.toNat 16) 55 44
  if n = 0 || bits w 63 48 = bits w 47 32 then none
  else
    let (s, f) := s.readWord (s.poolEntry c (bits w 63 48 % n))
    some (s.setRegBits (Reg.trans c.toNat 32) 63 48 ((bits w 63 48 + 1) % n), f.toNat * 2 ^ 15)

/-- A frame returned to the pool: POOLH steps back onto it, where the ring has room. -/
def State.poolReturn (s : State) (c : BitVec 12) (frame : Nat) : State :=
  let w := s.reg (Reg.trans c.toNat 32)
  let n := s.regBits (Reg.trans c.toNat 16) 55 44
  let h := (bits w 63 48 + n - 1) % n
  if n = 0 || h = bits w 47 32 then s
  else (s.writeWord (s.poolEntry c h) (BitVec.ofNat 64 (frame / 2 ^ 15))).setRegBits (Reg.trans c.toNat 32) 63 48 h

/-- HOT_PAGE_CANDIDATE of the page at ev.w of context ev.a (R85, R88). -/
def execHotPageCandidate (s : State) : Host.Outcome State Fault Refusal :=
  let c := BitVec.ofNat 12 s.ev.a
  let va := s.ev.w
  .next (if !decide ((c, pageOf va) ∈ s.mmu.hotPages) then s
    else
      let s := { s with mmu := { s.mmu with hotPages := s.mmu.hotPages.erase (c, pageOf va) } }
      let r := s.walk c va
      let s := s.walkReads c va
      match r with
      | .leaf 2 e _ =>
        if Pte.pp e then s.countReg (Reg.trans c.toNat 48) 31 0
        else if s.regBits (Reg.trans c.toNat 0) 1 1 = 0 || 16 ≤ s.mmu.skims.length ||
            s.mmu.skims.any (fun k => k.ctx = c && k.page = pageOf va) then s
        else
          match s.poolTake c with
          | some (s, f) => s.startSkim c va f false
          | none => s
      | _ => s)

/-- HOT_PAGE_DECAY: a millisecond has passed since the last, and every count is halved (R88). -/
def execHotPageDecay (s : State) : Host.Outcome State Fault Refusal :=
  .next (if (s.timebase - s.mmu.decayAt).toNat < 1000000 then s
    else { s with mmu := { s.mmu with
      hot := (s.mmu.hot.map fun x => (x.1, x.2 / 2)).filter fun x => x.2 ≠ 0, decayAt := s.mmu.decayAt + 1000000 } })

/-- The skim of context ev.a for the page at ev.w. -/
def State.skim? (s : State) (st : SkimSt) : Option Skim :=
  s.mmu.skims.find? fun k => k.ctx.toNat = s.ev.a && k.page = pageOf s.ev.w && k.st = st

def State.putSkim (s : State) (k k' : Skim) : State :=
  { s with mmu := { s.mmu with skims := s.mmu.skims.map fun x => if x = k then k' else x } }

/-- Dirty bytes of SM lines of a page written to the home, so that a copy finds them. -/
def State.flushMasked (s : State) (page : Nat) : State :=
  s.cores.foldl (fun s x =>
    (x.2.l1.filter fun l => l.line / 256 = page && l.st = .m && l.dirty ≠ 0).foldl (fun s l =>
      (s.putHome l.line l.data l.dirty l.poison).modL1 (BitVec.ofNat 10 x.1) l.line fun y => { y with dirty := 0 }) s) s

/-- Lines copied from frame to frame, with their poison. -/
def State.copyFrame (s : State) (src dst : Nat) : Nat → State
  | 0 => s
  | n + 1 =>
    let s := s.atHome (src / 128)
    let (d, p) := s.homeData (src / 128)
    State.copyFrame (s.writeHome (dst / 128) d (BitVec.allOnes 128) p).1 (src + 128) (dst + 128) n

/-- Halves of the source and of the destination that the host has, and that have to be asked for before the copy (R56, R85); whether for a write. -/
def State.copyHalves (s : State) (k : Skim) : List (Nat × Bool) :=
  s.cxl.halves.filterMap fun (x : Nat × Option HalfSt) =>
    let read := decide (x.1 / 512 = k.src / 2 ^ 15)
    let write := decide (x.1 / 512 = k.dst / 2 ^ 15)
    if x.2.any fun h => (read && h.holds false) || (write && h.holds true) then some (64 * x.1, write) else none

/-- The copy of a skim waits, as any access would (R54, R56): a half of a line is asked for, or being taken, or a page is held. -/
def State.copyWaits (s : State) (k : Skim) : Bool :=
  !(s.copyHalves k).isEmpty || s.pageHeld k.src true s.seqCtr || s.pageHeld k.dst true s.seqCtr ||
  s.cxl.halves.any fun (x : Nat × Option HalfSt) =>
    decide (x.2 = some .taking) && (decide (x.1 / 512 = k.src / 2 ^ 15) || decide (x.1 / 512 = k.dst / 2 ^ 15))

/-- SKIM_COPY_DONE of the page at ev.w of context ev.a: the source has been copied, and from now on accesses to it are held. -/
def execSkimCopyDone (s : State) : Host.Outcome State Fault Refusal :=
  .next (
    match s.skim? .copy with
    | none => s
    | some k =>
      if s.copyWaits k then (s.copyHalves k).foldl (fun s x => s.askHalves x.1 64 x.2) s
      else
      let page := k.src / 2 ^ 15
      let s := (((s.sendBuffers page).flushMerges fun m => m.line / 256 = page).flushMasked page).copyFrame k.src k.dst 256
      let (s, n) := s.stamp
      match s.skim? .copy with
      | none => s
      | some k => s.putSkim k { k with st := .hold, since := n })

/-- DONE: the skim is over, and its page-moved entry is posted (R86). -/
def State.endSkim (s : State) (k : Skim) (out : Nat) : State :=
  let s := { s with mmu := { s.mmu with skims := s.mmu.skims.erase k } }
  let s := if out = 0 then s.countReg (Reg.trans k.ctx.toNat 40) 63 32 else s.countReg (Reg.trans k.ctx.toNat 40) 31 0
  let s := if out ≠ 0 && !k.requested then s.poolReturn k.ctx k.dst else s
  s.postEntry k.ctx
    [vaOf (k.page * 2 ^ 15), field 52 k.ctx.toNat ||| field 0 k.src ||| field 13 out ||| field 5 k.retry.toNat,
     field 0 k.dst, field 56 3 ||| field 0 (bits s.timebase 47 0)]

/-- SKIM_HOLD_DONE of the page at ev.w of context ev.a: earlier accesses have completed. CHECK, then SWITCH, another copy, or the end. The D
bit, which the walker sets, is no change of the leaf. -/
def execSkimHoldDone (s : State) : Host.Outcome State Fault Refusal :=
  .next (
    match s.skim? .hold with
    | none => s
    | some k =>
      let page := k.src / 2 ^ 15
      let va := vaOf (k.page * 2 ^ 15)
      if s.busyAt (inPage page) k.since then s
      else
        let r := s.walk k.ctx va
        let s := s.walkReads k.ctx va
        match r with
        | .leaf 2 e at' =>
          if e ||| 4 ≠ k.leaf ||| 4 || Pte.pp e then s.endSkim k 2
          else if k.filter = 0 then
            let s := s.writeOut at' 8 (setBits (setBits e 51 15 (k.dst / 2 ^ 15)) 2 2 0).toNat
            ((s.dropEntries k.ctx false k.page 1).discardLines fun l => inPage page (128 * l)).endSkim k 0
          else if k.retry.toNat < s.regBits (Reg.trans k.ctx.toNat 16) 63 56 then
            (s.putSkim k { k with st := .copy, filter := 0, retry := k.retry + 1 }).countReg (Reg.trans k.ctx.toNat 48) 63 32
          else s.endSkim k 1
        | _ => s.endSkim k 2)

end Sys2Proof.Machine
end

