-- ==== Sys2Proof/Machine/Region.lean ====
section
/-! DEFINITION. Atomic regions: AREG, ACMT and AABT (17_isa_atomic_regions.md, R340 to R355). -/

namespace Sys2Proof.Machine

def State.regionMisuse (s : State) : State := s.trap .group 0x17 []

/-! ### Lanes of a region -/

/-- Bits of a checkpoint mask, ascending (R341). -/
def maskBits (w : Word) : List (BitVec 6) := ((List.range 64).filter fun k => bit w k).map fun k => BitVec.ofNat 6 k

/-- A lane as AREG starts it (R341). -/
def RLane.start (g : Group) (ks : List (BitVec 6)) (i : Fin 96) : RLane where
  lane := lane7 i
  tags := []
  reads := []
  cons := []
  ctl := 0
  writes := []
  failed := false
  ckpt := ks.map fun k => (k, (g.vread k)[i])
  latches := []

/-- One lane of one vector register. -/
def Group.setLane (g : Group) (r : BitVec 6) (lane : BitVec 7) (h : Half) : Group :=
  if p : lane.toNat < 96 then { g with vregs := g.vregs.set r.toNat ((g.vread r).set lane.toNat h p) (r.isLt) } else g

/-- Restore (R350). -/
def Group.restore (g : Group) (l : RLane) : Group := l.ckpt.foldl (fun g x => g.setLane x.1 l.lane x.2) g

/-- AREG (R341). -/
def execAreg (w : RR) (s : State) : Host.Outcome State Fault Refusal :=
  .next (issue (.areg w) s fun s =>
    let g := s.cur
    let m := g.srcS w.a
    if g.hmode then s.regionMisuse
    else if 8 < (maskBits m).length then s.illegalOperand
    else if g.counter 7 ≠ 0 || g.inflight.any (fun a => !a.retired && a.dst ≠ .none) then s.hold
    else
      let s := if bit w.e 6 then s.acquire (bits w.e 5 3) else s
      let s := s.retire w.ctl 1 .none
      let r : Region :=
        { lanes := g.em &&& g.live, state := g.activeLanes.map (RLane.start g (maskBits m)), depth0 := g.msdep.toNat
          count := 0, long := false, ord := BitVec.ofNat 2 (bits w.e 7 6), scope := BitVec.ofNat 3 (bits w.e 5 3)
          committing := false, since := 0, nextLane := 0, kSoFar := 0, lastTs := 0, recs := [], held := [] }
      s.setCur { s.cur with region := some r })

/-- ACMT and AABT may stand here (R348). -/
def Group.canClose (g : Group) : Bool :=
  !g.hmode && (match g.region with
    | some r => g.msdep.toNat = r.depth0
    | none => false)

/-- AABT (R354). A load of the region that has not returned is awaited, so that its lane's registers are the checkpoint's. -/
def execAabt (w : RR) (s : State) : Host.Outcome State Fault Refusal :=
  .next (issue (.aabt w) s fun s =>
    if !s.cur.canClose then s.regionMisuse
    else if s.cur.inflight.any fun a => !a.retired && a.dst ≠ .none then s.hold
    else
      match s.cur.region with
      | none => s
      | some r =>
        let g := r.state.foldl Group.restore s.cur
        (s.setCur { g with region := none, k := 0, em := r.lanes &&& g.live }).retire w.ctl 1 .none)

/-! ### Repair (R352) -/

/-- The outcome of a constraint on a value. -/
def Constraint.holds (k : Constraint) (v : Half) : Bool :=
  let x := v + k.c
  match k.fmt.toNat with
  | 2 => relFloat k.rel.toNat (fp32.decode x.toNat) (fp32.decode k.p.toNat)
  | 3 => relHolds k.rel.toNat (liCmp x.toNat k.p.toNat)
  | f => relHolds k.rel.toNat (cmpInt f x k.p)

def RTag.opaqueIn (m : BitVec 4) : RTag → Bool
  | .opaq x => decide (x &&& m ≠ 0)
  | _ => false

def RLane.fresh (fresh : List Half) (j : BitVec 2) : Half := fresh.getD j.toNat 0

/-- Can the lane be repaired when the words of `chg` have changed to `fresh`? -/
def RLane.repairable (l : RLane) (chg : BitVec 4) (fresh : List Half) : Bool :=
  l.cons.all (fun k => !bit chg k.j.toNat || k.holds (RLane.fresh fresh k.j) == k.outcome) &&
  l.ctl &&& chg = 0 &&
  !l.tags.any (fun t => t.2.opaqueIn chg) &&
  !l.writes.any (fun e => e.tlo.opaqueIn chg || (e.two && e.thi.opaqueIn chg))

/-- A value with its tag applied to the new words. -/
def RTag.patch (chg : BitVec 4) (fresh : List Half) (v : Half) : RTag → Half
  | .word j c => if bit chg j.toNat then RLane.fresh fresh j + c else v
  | _ => v

/-- Patch: registers, and the write set. -/
def Group.patch (g : Group) (l : RLane) (chg : BitVec 4) (fresh : List Half) : Group :=
  l.tags.foldl (fun g t =>
    let r := BitVec.ofNat 6 t.1
    let v := (g.vread r)[(Fin.ofNat 96 l.lane.toNat)]
    g.setLane r l.lane (t.2.patch chg fresh v)) g

def WEntry.patch (chg : BitVec 4) (fresh : List Half) (e : WEntry) : WEntry :=
  { e with lo := e.tlo.patch chg fresh e.lo, hi := e.thi.patch chg fresh e.hi }

/-! ### One lane of ACMT (R350, R351, R353) -/

/-- What resolving the addresses of a lane gives. -/
inductive Resolved
  /-- Physical addresses of the tracked words, and of the write-set entries. -/
  | ok (reads writes : List Nat)
  | bad (r : FRec)
  | wait
  deriving DecidableEq, Repr

/-- One address at commit: a page held since after the ACMT began does not hold it (R53). -/
def State.resolve1 (s : State) (since : Nat) (va : Word) (log : Nat) (wr : Bool) : LaneCheck :=
  let k : AccKind := if wr then .store else .load
  match s.checkLane va log k wr true with
  | .wait =>
    match s.translate s.cur.waiter s.cur.ctx va k with
    | .ok pa mt co => if s.awaits s.cur.waiter || s.pageHeld pa co since then .wait else .ok pa mt co
    | _ => .wait
  | x => x

def State.resolveAll (s : State) (since : Nat) (wr : Bool) : List (Word × Nat) → Resolved
  | [] => .ok [] []
  | (va, log) :: r =>
    match s.resolve1 since va log wr, State.resolveAll s since wr r with
    | .bad f, _ => .bad f
    | _, .bad f => .bad f
    | .wait, _ => .wait
    | _, .wait => .wait
    | .ok pa _ _, .ok l _ => .ok (pa :: l) []

/-- Addresses a lane reads and writes. -/
def RLane.readVas (l : RLane) : List (Word × Nat) := l.reads.map fun r => (r.va, 2)
def RLane.writeVas (l : RLane) : List (Word × Nat) := l.writes.map fun e => (e.va, if e.two then 3 else 2)

def State.resolveLane (s : State) (since : Nat) (l : RLane) : Resolved :=
  match s.resolveAll since false l.readVas, s.resolveAll since true l.writeVas with
  | .bad f, _ => .bad f
  | _, .bad f => .bad f
  | .wait, _ => .wait
  | _, .wait => .wait
  | .ok r _, .ok w _ => .ok r w

/-- Pages of a lane that is not resolved are asked for, with no line held (R353). -/
def State.awaitLane (s : State) (l : RLane) : State :=
  let g := s.cur
  let s := l.reads.foldl (fun s r => s.awaitPage g.waiter g.ctx r.va .load 4) s
  l.writes.foldl (fun s e => s.awaitPage g.waiter g.ctx e.va .store 4) s

/-- Ascending, without repeats. -/
def sortLines (l : List Nat) : List Nat := (l.sortBy (· ≤ ·)).eraseDups

/-- The region at the port changed. -/
def State.modCommit (s : State) (f : Region → Region) : State :=
  s.setCur { s.cur with region := s.cur.region.map f }

/-- The engine has gone past a lane: its K bit, and its fault record. -/
def State.laneDone (s : State) (k : Bool) (lane : BitVec 7) (f : Option FRec) : State :=
  s.modCommit fun r => { r with
    nextLane := r.nextLane + 1
    kSoFar := if k then r.kSoFar ||| BitVec.ofNat 96 (2 ^ lane.toNat) else r.kSoFar
    recs := match f with
      | some x => r.recs ++ [(lane, x)]
      | none => r.recs
    held := [] }

/-- A lane fails: its checkpoint is restored. -/
def State.laneFails (s : State) (l : RLane) (f : Option FRec) : State :=
  (s.setCur (s.cur.restore l)).laneDone false l.lane f

/-- The line in the issuing L1 in the state E, or asked for (R199); is it there? -/
def State.takeExclusive (s : State) (id line : Nat) : State × Bool :=
  let g := s.cur
  let s := s.matchType g.core g.slot line false
  match s.l1? g.core line with
  | some x =>
    if x.st = .e then (s, true) else (s.ask g id line 15 (.upgrade x.wts), false)
  | none => (s.ask g id line 15 .readEx, false)

/-- The issuing L1 has the line E. -/
def State.ownsLine (s : State) (line : Nat) : Bool := (s.l1? s.cur.core line).any fun x => x.st = .e

/-- A line that a lane reads or writes is kept from it: an agent outside holds the page or half (R50, R56), or the home of a line it has
to go to serves another (R203, R204) or waits for the commit engine of another group (R351). -/
def State.commitKept (s : State) (pa : Nat) (wr : Bool) : Bool :=
  let g := s.cur
  s.outsideHolds g.waiter pa 4 wr || (!s.ownsLine (pa / 128) && s.homeCloses (pa / 128) g.waiter)

/-- What the lane does about it. -/
def State.askKept (s : State) (pa : Nat) (wr : Bool) : State :=
  let g := s.cur
  if s.outsideHolds g.waiter pa 4 wr then s.askOutside g.waiter pa 4 wr
  else s.refuseNow (pa / 128) g.waiter

/-- A read-set line with a lease that covers `ts`, from the L1 or renewed at the home (log 21). -/
def State.renewAt (s : State) (line : Nat) (ts : BitVec 48) : State × L1Line :=
  let g := s.cur
  let miss (s : State) : State × L1Line :=
    let s := (((s.servedNow line g.waiter).flushMerges fun m => m.line = line && m.core = g.core).atHome line).leaseHome line ts
    let h := s.home line
    let (d, p) := s.homeData line
    let x : L1Line := ⟨line, .s, h.wts, h.rts, d, 15, 0, p, false⟩
    (if s.split line then s else s.installL1 g.core g.slot 0 x, x)
  match s.l1? g.core line with
  | some x =>
    if x.st = .e then
      let y := { x with rts := max48 x.rts ts }
      (s.modL1 g.core line fun _ => y, y)
    else if x.st = .s && !later48 ts x.rts then (s, x)
    else miss (s.matchType g.core g.slot line false)
  | none => miss s

/-- The wts of a read-set line as a lane at `ts` would read it: of the copy in the L1 whose lease covers `ts`, else of the home's. -/
def State.wtsOf (s : State) (line : Nat) (ts : BitVec 48) : BitVec 48 :=
  match s.l1? s.cur.core line with
  | some x => if x.st = .e || (x.st = .s && !later48 ts x.rts) then x.wts else ((s.recall line).home line).wts
  | none => ((s.recall line).home line).wts

/-- The least timestamp from `ts` on that is at least the wts of each read-set line, as it is read then (R351): each round takes in what a later
timestamp has to renew. -/
def State.leastTs (s : State) (lines : List Nat) : Nat → BitVec 48 → BitVec 48
  | 0, ts => ts
  | n + 1, ts => State.leastTs s lines n (lines.foldl (fun t x => max48 t (s.wtsOf x t)) ts)

/-- The tracked words at `ts`: values, or the record of a poisoned one. -/
def State.freshWords (s : State) (ts : BitVec 48) : List (Tracked × Nat) → State × List Half × Option FRec
  | [] => (s, [], none)
  | (t, pa) :: r =>
    let (s, x) := s.renewAt (pa / 128) ts
    let lo := pa % 128
    let bad : Option FRec :=
      if (x.poison &&& sectorMask lo 4) ≠ 0 then some ⟨BitVec.ofNat 64 (t.va.toNat / 32 * 32), 4, 2, false, true, 0, 0⟩ else none
    let (s, vs, q) := State.freshWords s ts r
    (s, BitVec.ofNat 32 (lineBytes x.data lo 4) :: vs, if bad.isSome then bad else q)

/-- The write-set entries performed at `ts` on lines held E, or of a line that the host has split at its home (R56); in a viral context those to the second tier are dropped. -/
def State.performEntries (s : State) (ts : BitVec 48) (drop : Bool) : List (WEntry × Nat) → State
  | [] => s
  | (e, pa) :: r =>
    let g := s.cur
    let line := pa / 128
    let n := if e.two then 8 else 4
    let s :=
      if drop && secondTier pa then s.dropWrite g.ctx e.va
      else
        let mask := byteMask (pa % 128) n
        let d := placeBytes (pa % 128) (e.lo.toNat + 2 ^ 32 * e.hi.toNat)
        let s := (s.markDirty g.waiter g.ctx e.va).passFilter g.waiter pa true
        (if s.ownsLine line then
          s.modL1 g.core line fun y =>
            { y with data := mergeLine y.data d mask, dirty := y.dirty ||| mask, poison := mergePoison y.poison 0 mask, wts := ts, rts := ts }
         else ((s.servedNow line g.waiter).putHome line d mask 0).stampHome line ts).markSkim line
    State.performEntries s ts drop r

/-- One lane, not failed, taken as far as it goes: it commits, fails, or waits, as `nextLane` then shows. `id` is the ACMT's access. -/
def State.commitLane (s : State) (id : Nat) (l : RLane) : State :=
    match s.resolveLane ((s.cur.region.map Region.since).getD 0) l with
    | .bad f => ((s.walkFault f.addr f.kind).clearVerdicts s.cur.waiter).laneFails l (some f)
    | .wait => (s.awaitLane l).modCommit fun r => { r with held := [] }
    | .ok rp wp =>
      let lines := sortLines (wp.map fun p => p / 128)
      match lines.find? fun x => !s.ownsLine x && !s.split x with
      | some x =>
        let s := s.modCommit fun r => { r with held := lines.takeWhile fun y => y ≠ x }
        (s.takeExclusive id x).1
      | none =>
        match (rp.map fun p => (p, false)) ++ (wp.map fun p => (p, true)) |>.find? fun x => s.commitKept x.1 x.2 with
        | some (p, wr) => (s.askKept p wr).modCommit fun r => { r with held := [] }
        | none =>
        let s := (s.clearVerdicts s.cur.waiter).modCommit fun r => { r with held := lines }
        let g := s.cur
        let r0 : Region := g.region.getD
          { lanes := 0, state := [], depth0 := 0, count := 0, long := false, ord := 0, scope := 0, committing := false
            since := 0, nextLane := 0, kSoFar := 0, lastTs := 0, recs := [], held := [] }
        let ts := lines.foldl (fun t x => match s.l1? g.core x with
          | some y => max48 t (y.rts + 1)
          | none => max48 t ((s.home x).rts + 1)) g.pts
        let ts := if r0.kSoFar = 0 then ts else max48 ts (r0.lastTs + 1)
        let ts := s.leastTs ((rp.map fun p => p / 128).filter fun x => !decide (x ∈ lines)) 5 ts
        let (s, fresh, bad) := s.freshWords ts (l.reads.zip rp)
        match bad with
        | some f => (s.consumePoison g.ctx g.core g.slot).laneFails l (some f)
        | none =>
          let chg : BitVec 4 := (List.range 4).foldl (fun m j =>
            match l.reads[j]?, fresh[j]? with
            | some t, some v => if t.val = v then m else m ||| BitVec.ofNat 4 (2 ^ j)
            | _, _ => m) 0
          if chg ≠ 0 && !l.repairable chg fresh then s.laneFails l none
          else
            let s := s.setCur (s.cur.patch l chg fresh)
            let (s, drop) := s.dropsNow s.cur
            let s := s.performEntries ts drop ((l.writes.map (WEntry.patch chg fresh)).zip wp)
            let s := (s.raisePts g.core g.slot ts).modCommit fun r => { r with lastTs := ts }
            s.laneDone true l.lane none

/-- The lanes from the next one on, in one step: those that have failed, and then one, so that a forward, a recall or the lane of another group
may stand between two lanes (R351, R388). -/
def State.commitLanes (s : State) (id : Nat) (long : Bool) : List RLane → State
  | [] => s
  | l :: r => if l.failed || long then State.commitLanes (s.laneFails l none) id long r else s.commitLane id l

/-- The region is over: K, EM, and the faults met, with the frame naming what follows (R350, R353). A frame that cannot be written yet keeps it
open. -/
def State.closeRegion (s : State) (c : Ctl) (id : Nat) : State :=
  match s.cur.region with
  | none => s
  | some r =>
    let g := s.cur
    if r.recs.any fun x => s.trapWaits g x.2.kind then (s.awaitPage g.waiter g.ctx (s.frameAddr g) .engine 128).pause
    else
      let s := s.setCur { g with
        region := none, k := r.kSoFar, em := r.lanes &&& g.live, inflight := g.inflight.filter fun a => a.id ≠ id }
      let s := s.retire c 1 .none
      if r.recs = [] then s else s.trapLanes r.recs

/-- The group's earlier accesses are performed, and its region loads have returned. -/
def Group.quiet (g : Group) : Bool :=
  g.inflight.all fun a => a.op = .commit || (a.performed && (a.dst = .none || a.retired))

/-- `ar` is raised when ACMT issues (R350). -/
def State.raiseAr (s : State) : State :=
  match s.cur.commitId with
  | some _ => s
  | none =>
    let (s, id) := s.stamp
    let a : Access := ⟨id, 7, .commit, 0, 0, [], .none, s.cur.pc, s.cur.cpos, false, 0, false, false, false, s.timebase⟩
    s.setCur { s.cur with inflight := s.cur.inflight ++ [a] }

/-- ACMT goes on with its lanes; it holds the group, not the port, until it is done (R350). -/
def State.commit (s : State) (c : Ctl) : State :=
  match s.cur.region, s.cur.commitId with
  | some r, some id =>
    let s :=
      if r.committing then s
      else
        let (s, n) := s.stamp
        s.modCommit fun r => { r with committing := true, since := n }
    let s := s.commitLanes id r.long (r.state.drop r.nextLane)
    if s.cur.region.any fun x => x.state.length ≤ x.nextLane then s.closeRegion c id else s.pause
  | _, _ => s

/-- ACMT (R350 to R353). -/
def execAcmt (w : RR) (s : State) : Host.Outcome State Fault Refusal :=
  .next (issue (.acmt w) s fun s =>
    if !s.cur.canClose then s.regionMisuse
    else
      match s.cur.region with
      | none => s
      | some r =>
        let s := s.raiseAr
        if r.committing then s.commit w.ctl
        else if !s.cur.quiet then (s.sendWc s.cur.core s.cur.slot).pause
        else if bit r.ord 1 then
          let s := s.sendWc s.cur.core s.cur.slot
          if s.cur.released r.scope.toNat then (s.raiseClocks s.cur r.scope.toNat).commit w.ctl else s.pause
        else s.commit w.ctl)

end Sys2Proof.Machine
end

