-- ==== Sys2Proof/Machine/Dispatch.lean ====
section
/-! DEFINITION. One arm for each constructor of Instr: a direct call of its meaning. -/

namespace Sys2Proof.Machine

/-- What one instruction, engine command or event does. -/
def exec (i : Instr) (s : State) : Host.Outcome State Fault Refusal :=
  match i with
  | .add w => Sys2Proof.Machine.execAdd w s
  | .sub w => Sys2Proof.Machine.execSub w s
  | .mul w => Sys2Proof.Machine.execMul w s
  | .mulh w => Sys2Proof.Machine.execMulh w s
  | .mulhu w => Sys2Proof.Machine.execMulhu w s
  | .div w => Sys2Proof.Machine.execDiv w s
  | .divu w => Sys2Proof.Machine.execDivu w s
  | .rem w => Sys2Proof.Machine.execRem w s
  | .remu w => Sys2Proof.Machine.execRemu w s
  | .and w => Sys2Proof.Machine.execAnd w s
  | .or w => Sys2Proof.Machine.execOr w s
  | .xor w => Sys2Proof.Machine.execXor w s
  | .andn w => Sys2Proof.Machine.execAndn w s
  | .orn w => Sys2Proof.Machine.execOrn w s
  | .shl w => Sys2Proof.Machine.execShl w s
  | .shr w => Sys2Proof.Machine.execShr w s
  | .sra w => Sys2Proof.Machine.execSra w s
  | .ror w => Sys2Proof.Machine.execRor w s
  | .min w => Sys2Proof.Machine.execMin w s
  | .max w => Sys2Proof.Machine.execMax w s
  | .minu w => Sys2Proof.Machine.execMinu w s
  | .maxu w => Sys2Proof.Machine.execMaxu w s
  | .clz w => Sys2Proof.Machine.execClz w s
  | .ctz w => Sys2Proof.Machine.execCtz w s
  | .popc w => Sys2Proof.Machine.execPopc w s
  | .bfx w => Sys2Proof.Machine.execBfx w s
  | .bfxu w => Sys2Proof.Machine.execBfxu w s
  | .bfi w => Sys2Proof.Machine.execBfi w s
  | .sel w => Sys2Proof.Machine.execSel w s
  | .cmp w => Sys2Proof.Machine.execCmp w s
  | .mov w => Sys2Proof.Machine.execMov w s
  | .ldk w => Sys2Proof.Machine.execLdk w s
  | .ldkh w => Sys2Proof.Machine.execLdkh w s
  | .movsr w => Sys2Proof.Machine.execMovsr w s
  | .movsw w => Sys2Proof.Machine.execMovsw w s
  | .plog w => Sys2Proof.Machine.execPlog w s
  | .kmov w => Sys2Proof.Machine.execKmov w s
  | .kset w => Sys2Proof.Machine.execKset w s
  | .br w => Sys2Proof.Machine.execBr w s
  | .brc w => Sys2Proof.Machine.execBrc w s
  | .call w => Sys2Proof.Machine.execCall w s
  | .ret w => Sys2Proof.Machine.execRet w s
  | .jtab w => Sys2Proof.Machine.execJtab w s
  | .jtabv w => Sys2Proof.Machine.execJtabv w s
  | .split w => Sys2Proof.Machine.execSplit w s
  | .elseM w => Sys2Proof.Machine.execElseM w s
  | .join w => Sys2Proof.Machine.execJoin w s
  | .loopm w => Sys2Proof.Machine.execLoopm w s
  | .bany w => Sys2Proof.Machine.execBany w s
  | .ball w => Sys2Proof.Machine.execBall w s
  | .bnone w => Sys2Proof.Machine.execBnone w s
  | .mstr w => Sys2Proof.Machine.execMstr w s
  | .mstw w => Sys2Proof.Machine.execMstw w s
  | .exit w => Sys2Proof.Machine.execExit w s
  | .exitl w => Sys2Proof.Machine.execExitl w s
  | .vadd w => Sys2Proof.Machine.execVadd w s
  | .vsub w => Sys2Proof.Machine.execVsub w s
  | .vmul w => Sys2Proof.Machine.execVmul w s
  | .vmulh w => Sys2Proof.Machine.execVmulh w s
  | .vmad w => Sys2Proof.Machine.execVmad w s
  | .vand w => Sys2Proof.Machine.execVand w s
  | .vor w => Sys2Proof.Machine.execVor w s
  | .vxor w => Sys2Proof.Machine.execVxor w s
  | .vandn w => Sys2Proof.Machine.execVandn w s
  | .vshl w => Sys2Proof.Machine.execVshl w s
  | .vshr w => Sys2Proof.Machine.execVshr w s
  | .vsra w => Sys2Proof.Machine.execVsra w s
  | .vmin w => Sys2Proof.Machine.execVmin w s
  | .vmax w => Sys2Proof.Machine.execVmax w s
  | .vminu w => Sys2Proof.Machine.execVminu w s
  | .vmaxu w => Sys2Proof.Machine.execVmaxu w s
  | .vabs w => Sys2Proof.Machine.execVabs w s
  | .vclz w => Sys2Proof.Machine.execVclz w s
  | .vpopc w => Sys2Proof.Machine.execVpopc w s
  | .vbfx w => Sys2Proof.Machine.execVbfx w s
  | .vbfi w => Sys2Proof.Machine.execVbfi w s
  | .vsel w => Sys2Proof.Machine.execVsel w s
  | .vcmp w => Sys2Proof.Machine.execVcmp w s
  | .vmov w => Sys2Proof.Machine.execVmov w s
  | .vmovs w => Sys2Proof.Machine.execVmovs w s
  | .vaddp w => Sys2Proof.Machine.execVaddp w s
  | .fadd w => Sys2Proof.Machine.execFadd w s
  | .fsub w => Sys2Proof.Machine.execFsub w s
  | .fmul w => Sys2Proof.Machine.execFmul w s
  | .ffma w => Sys2Proof.Machine.execFfma w s
  | .fmin w => Sys2Proof.Machine.execFmin w s
  | .fmax w => Sys2Proof.Machine.execFmax w s
  | .fcmp w => Sys2Proof.Machine.execFcmp w s
  | .fclass w => Sys2Proof.Machine.execFclass w s
  | .hadd2 w => Sys2Proof.Machine.execHadd2 w s
  | .hmul2 w => Sys2Proof.Machine.execHmul2 w s
  | .hfma2 w => Sys2Proof.Machine.execHfma2 w s
  | .dadd w => Sys2Proof.Machine.execDadd w s
  | .dmul w => Sys2Proof.Machine.execDmul w s
  | .dfma w => Sys2Proof.Machine.execDfma w s
  | .frcp w => Sys2Proof.Machine.execFrcp w s
  | .frsq w => Sys2Proof.Machine.execFrsq w s
  | .fsqrt w => Sys2Proof.Machine.execFsqrt w s
  | .fdiv w => Sys2Proof.Machine.execFdiv w s
  | .fexp2 w => Sys2Proof.Machine.execFexp2 w s
  | .flog2 w => Sys2Proof.Machine.execFlog2 w s
  | .fsin w => Sys2Proof.Machine.execFsin w s
  | .fcos w => Sys2Proof.Machine.execFcos w s
  | .ftanh w => Sys2Proof.Machine.execFtanh w s
  | .cvt w => Sys2Proof.Machine.execCvt w s
  | .cvti w => Sys2Proof.Machine.execCvti w s
  | .qdec w => Sys2Proof.Machine.execQdec w s
  | .qenc w => Sys2Proof.Machine.execQenc w s
  | .liadd w => Sys2Proof.Machine.execLiadd w s
  | .lisub w => Sys2Proof.Machine.execLisub w s
  | .limul w => Sys2Proof.Machine.execLimul w s
  | .lidiv w => Sys2Proof.Machine.execLidiv w s
  | .licmp w => Sys2Proof.Machine.execLicmp w s
  | .licvt w => Sys2Proof.Machine.execLicvt w s
  | .vperm w => Sys2Proof.Machine.execVperm w s
  | .vbcast w => Sys2Proof.Machine.execVbcast w s
  | .vshfl w => Sys2Proof.Machine.execVshfl w s
  | .vreds w => Sys2Proof.Machine.execVreds w s
  | .vscan w => Sys2Proof.Machine.execVscan w s
  | .vballot w => Sys2Proof.Machine.execVballot w s
  | .sld z w => Sys2Proof.Machine.execSld z w s
  | .sst z w => Sys2Proof.Machine.execSst z w s
  | .vld z w => Sys2Proof.Machine.execVld z w s
  | .vst z w => Sys2Proof.Machine.execVst z w s
  | .vldb z w => Sys2Proof.Machine.execVldb z w s
  | .vstb z w => Sys2Proof.Machine.execVstb z w s
  | .vpf w => Sys2Proof.Machine.execVpf w s
  | .pld w => Sys2Proof.Machine.execPld w s
  | .pst w => Sys2Proof.Machine.execPst w s
  | .pldf w => Sys2Proof.Machine.execPldf w s
  | .plde w => Sys2Proof.Machine.execPlde w s
  | .pste w => Sys2Proof.Machine.execPste w s
  | .pstf w => Sys2Proof.Machine.execPstf w s
  | .pfe w => Sys2Proof.Machine.execPfe w s
  | .ptag w => Sys2Proof.Machine.execPtag w s
  | .lsl w => Sys2Proof.Machine.execLsl w s
  | .lss w => Sys2Proof.Machine.execLss w s
  | .cld w => Sys2Proof.Machine.execCld w s
  | .cst w => Sys2Proof.Machine.execCst w s
  | .clde w => Sys2Proof.Machine.execClde w s
  | .cste w => Sys2Proof.Machine.execCste w s
  | .xld w => Sys2Proof.Machine.execXld w s
  | .xst w => Sys2Proof.Machine.execXst w s
  | .vatom w => Sys2Proof.Machine.execVatom w s
  | .vcas w => Sys2Proof.Machine.execVcas w s
  | .vred w => Sys2Proof.Machine.execVred w s
  | .satom w => Sys2Proof.Machine.execSatom w s
  | .scas w => Sys2Proof.Machine.execScas w s
  | .syna w => Sys2Proof.Machine.execSyna w s
  | .synw w => Sys2Proof.Machine.execSynw w s
  | .fence w => Sys2Proof.Machine.execFence w s
  | .rwb w => Sys2Proof.Machine.execRwb w s
  | .rinv w => Sys2Proof.Machine.execRinv w s
  | .rwbi w => Sys2Proof.Machine.execRwbi w s
  | .lock w => Sys2Proof.Machine.execLock w s
  | .unlock w => Sys2Proof.Machine.execUnlock w s
  | .tlwait w => Sys2Proof.Machine.execTlwait w s
  | .waitc w => Sys2Proof.Machine.execWaitc w s
  | .areg w => Sys2Proof.Machine.execAreg w s
  | .acmt w => Sys2Proof.Machine.execAcmt w s
  | .aabt w => Sys2Proof.Machine.execAabt w s
  | .qput w => Sys2Proof.Machine.execQput w s
  | .qget w => Sys2Proof.Machine.execQget w s
  | .qtry w => Sys2Proof.Machine.execQtry w s
  | .sweep w => Sys2Proof.Machine.execSweep w s
  | .enqt w => Sys2Proof.Machine.execEnqt w s
  | .yield w => Sys2Proof.Machine.execYield w s
  | .phase w => Sys2Proof.Machine.execPhase w s
  | .spawn w => Sys2Proof.Machine.execSpawn w s
  | .trap w => Sys2Proof.Machine.execTrap w s
  | .resume w => Sys2Proof.Machine.execResume w s
  | .nop w => Sys2Proof.Machine.execNop w s
  | .sysr w => Sys2Proof.Machine.execSysr w s
  | .sysw w => Sys2Proof.Machine.execSysw w s
  | .mxacc c => Sys2Proof.Machine.execMxacc c s
  | .mxzero c => Sys2Proof.Machine.execMxzero c s
  | .mxdrain c => Sys2Proof.Machine.execMxdrain c s
  | .mxdadd c => Sys2Proof.Machine.execMxdadd c s
  | .mxring c => Sys2Proof.Machine.execMxring c s
  | .mxarm c => Sys2Proof.Machine.execMxarm c s
  | .cpy c => Sys2Proof.Machine.execCpy c s
  | .cpyg c => Sys2Proof.Machine.execCpyg c s
  | .cpys c => Sys2Proof.Machine.execCpys c s
  | .cpfill c => Sys2Proof.Machine.execCpfill c s
  | .nsend c => Sys2Proof.Machine.execNsend c s
  | .npost c => Sys2Proof.Machine.execNpost c s
  | .xtask c => Sys2Proof.Machine.execXtask c s
  | .entryOutOfRange => Sys2Proof.Machine.execEntryOutOfRange s
  | .entryBackInRange => Sys2Proof.Machine.execEntryBackInRange s
  | .excursionTimeout => Sys2Proof.Machine.execExcursionTimeout s
  | .entryStableTimeout => Sys2Proof.Machine.execEntryStableTimeout s
  | .coldStart => Sys2Proof.Machine.execColdStart s
  | .telemetryRefresh => Sys2Proof.Machine.execTelemetryRefresh s
  | .pyranoStepDown => Sys2Proof.Machine.execPyranoStepDown s
  | .clockWindow => Sys2Proof.Machine.execClockWindow s
  | .regulatorFault => Sys2Proof.Machine.execRegulatorFault s
  | .islandRelease => Sys2Proof.Machine.execIslandRelease s
  | .healthWindow => Sys2Proof.Machine.execHealthWindow s
  | .laneDown => Sys2Proof.Machine.execLaneDown s
  | .laneRetrain => Sys2Proof.Machine.execLaneRetrain s
  | .frameReceive => Sys2Proof.Machine.execFrameReceive s
  | .creditAckFrame => Sys2Proof.Machine.execCreditAckFrame s
  | .retryRequest => Sys2Proof.Machine.execRetryRequest s
  | .lackTimer => Sys2Proof.Machine.execLackTimer s
  | .dataPacketReceive => Sys2Proof.Machine.execDataPacketReceive s
  | .datafPacketReceive => Sys2Proof.Machine.execDatafPacketReceive s
  | .ackReceive => Sys2Proof.Machine.execAckReceive s
  | .nakReceive => Sys2Proof.Machine.execNakReceive s
  | .nobufReceive => Sys2Proof.Machine.execNobufReceive s
  | .rtoExpiry => Sys2Proof.Machine.execRtoExpiry s
  | .nobufBackoffExpiry => Sys2Proof.Machine.execNobufBackoffExpiry s
  | .messageAbandon => Sys2Proof.Machine.execMessageAbandon s
  | .keyWrite => Sys2Proof.Machine.execKeyWrite s
  | .connEnable => Sys2Proof.Machine.execConnEnable s
  | .connDisable => Sys2Proof.Machine.execConnDisable s
  | .headReadShared => Sys2Proof.Machine.execHeadReadShared s
  | .headReadExclusive => Sys2Proof.Machine.execHeadReadExclusive s
  | .headEvictionReport => Sys2Proof.Machine.execHeadEvictionReport s
  | .birspReceive => Sys2Proof.Machine.execBirspReceive s
  | .snoopTimeout => Sys2Proof.Machine.execSnoopTimeout s
  | .bisnpReceive => Sys2Proof.Machine.execBisnpReceive s
  | .leaseCutComplete => Sys2Proof.Machine.execLeaseCutComplete s
  | .hostTakeHalf => Sys2Proof.Machine.execHostTakeHalf s
  | .hostReleaseHalf => Sys2Proof.Machine.execHostReleaseHalf s
  | .dcAddExtent => Sys2Proof.Machine.execDcAddExtent s
  | .zeroFillDone => Sys2Proof.Machine.execZeroFillDone s
  | .dcReleaseExtent => Sys2Proof.Machine.execDcReleaseExtent s
  | .releaseDrainDone => Sys2Proof.Machine.execReleaseDrainDone s
  | .imageRegister => Sys2Proof.Machine.execImageRegister s
  | .imageUnregister => Sys2Proof.Machine.execImageUnregister s
  | .mailboxDoorbell => Sys2Proof.Machine.execMailboxDoorbell s
  | .taskPacketIntake => Sys2Proof.Machine.execTaskPacketIntake s
  | .taskResultReceive => Sys2Proof.Machine.execTaskResultReceive s
  | .xtaskTimeout => Sys2Proof.Machine.execXtaskTimeout s
  | .hdmRequestTimeout => Sys2Proof.Machine.execHdmRequestTimeout s
  | .hdmRangeLoss => Sys2Proof.Machine.execHdmRangeLoss s
  | .lostdClear => Sys2Proof.Machine.execLostdClear s
  | .pageWalkComplete => Sys2Proof.Machine.execPageWalkComplete s
  | .mmuInvalidate => Sys2Proof.Machine.execMmuInvalidate s
  | .invalidationComplete => Sys2Proof.Machine.execInvalidationComplete s
  | .pgresp => Sys2Proof.Machine.execPgresp s
  | .skimRequest => Sys2Proof.Machine.execSkimRequest s
  | .hotPageCandidate => Sys2Proof.Machine.execHotPageCandidate s
  | .hotPageDecay => Sys2Proof.Machine.execHotPageDecay s
  | .skimCopyDone => Sys2Proof.Machine.execSkimCopyDone s
  | .skimHoldDone => Sys2Proof.Machine.execSkimHoldDone s
  | .doorbellKick => Sys2Proof.Machine.execDoorbellKick s
  | .qopDisable => Sys2Proof.Machine.execQopDisable s
  | .qopEnable => Sys2Proof.Machine.execQopEnable s
  | .qopClearError => Sys2Proof.Machine.execQopClearError s
  | .quantumBoundary => Sys2Proof.Machine.execQuantumBoundary s
  | .slotRestoreDone => Sys2Proof.Machine.execSlotRestoreDone s
  | .slotSaveDone => Sys2Proof.Machine.execSlotSaveDone s
  | .cmdNop => Sys2Proof.Machine.execCmdNop s
  | .launch => Sys2Proof.Machine.execLaunch s
  | .waitv => Sys2Proof.Machine.execWaitv s
  | .waitvReread => Sys2Proof.Machine.execWaitvReread s
  | .signal => Sys2Proof.Machine.execSignal s
  | .clusterPlace => Sys2Proof.Machine.execClusterPlace s
  | .interruptTimer => Sys2Proof.Machine.execInterruptTimer s
  | .erheadWrite => Sys2Proof.Machine.execErheadWrite s
  | .vclr => Sys2Proof.Machine.execVclr s
  | .preq => Sys2Proof.Machine.execPreq s
  | .resm => Sys2Proof.Machine.execResm s
  | .sliceEnd => Sys2Proof.Machine.execSliceEnd s
  | .waitingBudgetExceeded => Sys2Proof.Machine.execWaitingBudgetExceeded s
  | .recordPick => Sys2Proof.Machine.execRecordPick s
  | .clauseStart => Sys2Proof.Machine.execClauseStart s
  | .loadReturn => Sys2Proof.Machine.execLoadReturn s
  | .homeRenewal => Sys2Proof.Machine.execHomeRenewal s
  | .homeUpgrade => Sys2Proof.Machine.execHomeUpgrade s
  | .homeReadExclusive => Sys2Proof.Machine.execHomeReadExclusive s
  | .homeAck => Sys2Proof.Machine.execHomeAck s
  | .homeWriteback => Sys2Proof.Machine.execHomeWriteback s
  | .forwardAnswer => Sys2Proof.Machine.execForwardAnswer s
  | .l1ForwardReceive => Sys2Proof.Machine.execL1ForwardReceive s
  | .l1GrantReceive => Sys2Proof.Machine.execL1GrantReceive s
  | .refusalBackoffResend => Sys2Proof.Machine.execRefusalBackoffResend s
  | .engineContextSwitch => Sys2Proof.Machine.execEngineContextSwitch s
  | .queueBringIn => Sys2Proof.Machine.execQueueBringIn s
  | .ageLimitExpiry => Sys2Proof.Machine.execAgeLimitExpiry s
  | .firingRoundStart => Sys2Proof.Machine.execFiringRoundStart s
  | .expertFiring => Sys2Proof.Machine.execExpertFiring s
  | .ringRefill => Sys2Proof.Machine.execRingRefill s
  | .mxdaddContribution => Sys2Proof.Machine.execMxdaddContribution s
  | .watchdogExpiry => Sys2Proof.Machine.execWatchdogExpiry s
  | .registerWrite => Sys2Proof.Machine.execRegisterWrite s
  | .farAtomicArrival => Sys2Proof.Machine.execFarAtomicArrival s
  | .instructionCacheFill => Sys2Proof.Machine.execInstructionCacheFill s
  | .targetAcknowledgement => Sys2Proof.Machine.execTargetAcknowledgement s

end Sys2Proof.Machine
end

