-- ==== Sys2Proof/Machine/Islands.lean ====
section
/-! DEFINITION. The clock islands whose hardware an event needs (R8, R11, R12, R16): while one of them is held in reset, or its window is
stopped, the event waits, and its turn changes nothing. -/

namespace Sys2Proof.Machine

/-- The island of the home, or of the core, of the message in a place. -/
def State.msgHome (s : State) (k : Nat) : List Nat := (s.coh.msgs[k]?.map fun m => homeIsland m.line).toList
def State.msgCore (s : State) (k : Nat) : List Nat := (s.coh.msgs[k]?.map fun m => islandOf m.core).toList

/-- Events of the entry stage and of the controllers of the islands, which stand in no island or act on one that is stopped or in reset. -/
def ofEntryStage (i : Instr) : Bool :=
  match i with
  | .entryOutOfRange | .entryBackInRange | .excursionTimeout | .entryStableTimeout | .coldStart | .telemetryRefresh | .pyranoStepDown
  | .clockWindow | .regulatorFault => true
  | _ => false

/-- The islands that an event needs, by what it acts on. Events of the walkers, the skim, the task intake and the transport of a connection
need none of their own: the spec places them in no island. -/
def State.islandsOf (s : State) (i : Instr) (ev : Ev) : List Nat :=
  match i with
  | .frameReceive | .creditAckFrame | .retryRequest | .lackTimer | .dataPacketReceive | .datafPacketReceive | .ackReceive | .nakReceive
  | .nobufReceive => portIslands ev.a
  | .targetAcknowledgement | .headReadShared | .headReadExclusive | .headEvictionReport | .birspReceive | .snoopTimeout | .bisnpReceive | .leaseCutComplete
  | .hostTakeHalf | .hostReleaseHalf | .mailboxDoorbell | .hdmRequestTimeout | .hdmRangeLoss => cxlIslands
  | .islandRelease | .healthWindow | .laneDown | .laneRetrain | .keyWrite | .connEnable | .connDisable | .dcAddExtent | .zeroFillDone
  | .dcReleaseExtent | .releaseDrainDone | .imageRegister | .imageUnregister | .lostdClear | .mmuInvalidate | .pgresp | .skimRequest
  | .doorbellKick | .qopDisable | .qopEnable | .qopClearError | .quantumBoundary | .slotRestoreDone | .slotSaveDone | .cmdNop | .launch
  | .waitv | .waitvReread | .signal | .interruptTimer | .erheadWrite | .vclr | .preq | .resm | .registerWrite => [126]
  | .clusterPlace | .sliceEnd | .waitingBudgetExceeded | .queueBringIn | .ageLimitExpiry | .firingRoundStart | .expertFiring
  | .ringRefill => [127]
  | .recordPick | .clauseStart | .loadReturn | .engineContextSwitch | .mxdaddContribution | .watchdogExpiry
  | .instructionCacheFill => [islandOf (BitVec.ofNat 10 ev.a)]
  | .homeRenewal | .homeUpgrade | .homeReadExclusive | .homeAck | .homeWriteback | .forwardAnswer | .farAtomicArrival => s.msgHome ev.a
  | .l1ForwardReceive | .l1GrantReceive | .refusalBackoffResend => s.msgCore ev.a
  | _ => []

/-- An event can act now: the entry stage holds no island in reset, and the clocks of the islands it needs run. -/
def State.eventRuns (s : State) (i : Instr) (ev : Ev) : Bool :=
  ofEntryStage i || (!s.pkg.entry.held && (s.islandsOf i ev).all s.islandRuns)

end Sys2Proof.Machine
end

