-- ==== Sys2Proof/Machine/Port.lean ====
section
/-! DEFINITION. What one turn of an agent does around exec: the issue port of a core fetches, decodes and issues (R164, R258), a late fault is
taken (R402), an engine begins its head command (R358), and time passes (R13, R143). -/

namespace Sys2Proof.Machine

/-! ### A turn that an access keeps from happening (log 77) -/

/-- The outcome of a turn taken in `s`: where an access of it found no way, or has to wait, the turn has not happened (R16, R54, R203). -/
def State.takeTurn (s : State) (r : Host.Outcome State Fault Refusal) : Host.Outcome State Fault Refusal :=
  match r with
  | .next t => .next (s.orHeld t)
  | x => x

/-- A turn of the entry stage or of an island's controller, which no access keeps from happening. -/
def mustHappen (r : Host.Outcome State Fault Refusal) : Host.Outcome State Fault Refusal :=
  match r with
  | .next t => .next { t with coh := { t.coh with shut := .no } }
  | x => x

/-! ### The issue port -/

/-- A word that decodes to nothing: the deadline comes first (R138), then illegal instruction (R258). -/
def State.undecodable (s : State) (w : Word) : State :=
  if s.cur.dline = 0 && !s.cur.hmode && !yieldWord w then s.trap .group 0x16 [] else s.illegalInstruction

/-- What an event of this kind acts on. -/
def Ev.at (a b : Nat) : Ev := { Ev.none with a := a, b := b }

/-- The group at the port issues the instruction at its position: the word is fetched, decoded and executed. -/
def issueAct (s : State) : Host.Outcome State Fault Refusal :=
  let g := s.cur
  match s.fetched g.core g.ctx (instrVa g.pc g.cpos.toNat) with
  | none => exec .instructionCacheFill { s with ev := Ev.at g.core.toNat g.slot.toNat }
  | some w =>
    match decode w with
    | .ok i => exec i s
    | .error _ => .next (s.undecodable w)

/-- The latches a late fault finds: those of the instructions before it, if the group is still in the clause of the access. -/
def Group.lateLatches (g : Group) (x : Late) : List LatchV :=
  if g.inClause && g.lastStart < x.id then g.latches.drop (g.latches.length - x.cpos.toNat) else []

/-- A switch that the group's clause has asked for stays only if it stands before the faulting instruction. -/
def State.lateSwitch (s : State) (g : Group) (x : Late) : Option (Word × BitVec 3 × Word × Bool) :=
  let again := (List.range 16).any fun p =>
    x.cpos.toNat ≤ p && (match s.fetched g.core g.ctx (instrVa x.pc p) with
      | some w => yieldWord w
      | none => true)
  if g.lastStart < x.id && !again then g.endSwitch else none

/-- A late fault (R402): the group issues no more; once the accesses issued after it are done, and its frame can be written, it traps at the
faulting instruction. -/
def State.takeLate (s : State) (core : BitVec 10) (slot : BitVec 3) : State :=
  let s := (s.letGo core slot).sendWc core slot
  match s.group? core slot with
  | none => s
  | some g =>
    match g.late with
    | none => s
    | some x =>
      if !g.inflight.isEmpty then s
      else
        let sw := s.lateSwitch g x
        let s := s.bring core slot
        let kind : BitVec 8 := (x.recs.head?.map fun r => r.2.kind).getD 0
        if s.stopping g then (s.setCur { s.cur with late := none }).leave core slot
        else if s.trapWaits g kind then (s.awaitPage g.waiter g.ctx (s.frameAddr g) .engine 128).pause
        else
          let s := s.setCur { s.cur with life := .running, late := none, latches := g.lateLatches x, endSwitch := sw }
          s.trapAt x.pc x.cpos .lane kind x.recs

/-- What the group in a slot does when the port comes to it. -/
def slotTurn (core : BitVec 10) (slot : BitVec 3) (s : State) : Host.Outcome State Fault Refusal :=
  match s.group? core slot with
  | none => .next s
  | some g =>
    if g.late.isSome then .next (s.takeLate core slot)
    else if g.life ≠ .running then .next s
    else if s.halted g then .next (s.letGo core slot)
    else if g.inClause then
      if (match g.wait with
          | some w => w.kind = 0 || w.kind = 3
          | none => false) then .next s
      else
        let s := s.bring core slot
        issueAct (s.setCore core { s.core core with holder := some slot })
    else if s.atStart core g then exec .clauseStart { s with ev := Ev.at core.toNat 0 }
    else if (s.missing g).isSome then exec .instructionCacheFill { s with ev := Ev.at core.toNat slot.toNat }
    else .next s

/-- The same, where its accesses find their way. -/
def slotAct (core : BitVec 10) (slot : BitVec 3) (s : State) : Host.Outcome State Fault Refusal := s.takeTurn (slotTurn core slot s)

/-- The groups of a core in turn, until one takes the port or a cycle is spent. -/
def tryGroups (core : BitVec 10) (spent : Nat) : List (BitVec 3) → State → Host.Outcome State Fault Refusal
  | [], s => .next (s.tick core 1)
  | n :: r, s =>
    match slotAct core n s with
    | .next s =>
      if (s.core core).holder.isSome || (s.core core).spent ≠ spent then .next s else tryGroups core spent r s
    | x => x

/-- One turn of the issue port of a core (R164): the group that has the port, else the ready group that started a clause least recently. The part has
768 cores (R5). -/
def portAct (core : BitVec 10) (s : State) : Host.Outcome State Fault Refusal :=
  if 768 ≤ core.toNat || !s.clockRuns core then .next s
  else
    match (s.core core).holder with
    | some slot => slotAct core slot s
    | none =>
      tryGroups core (s.core core).spent ((portOrder (s.groups.filter fun g => g.core = core)).map fun g => g.slot) s

/-! ### Engines -/

/-- The timeline of a push register's engine context. -/
def timelineAt (q : Nat) (e : Bool) : Nat := if q = 8 then 6 else q + b2n e

/-- The engine may work on the command: its core's clock runs, and its context is not pre-empted; one that is being pre-empted finishes a
matrix command it has begun (R140). The network engine and the task engine go on while their context is pre-empted. -/
def State.engineRuns (s : State) (core : BitVec 10) (ctx : BitVec 12) (q : Nat) (m : Cmd) : Bool :=
  s.clockRuns core && ((q ≠ 0 && q ≠ 2) || (!s.suspended ctx && (!(ctx ∈ s.sch.stopping) || (q = 0 && m.started))))

/-- A command that decodes to nothing, or was pushed to another engine's register: BADCMD, or the record its engine gives (R359, R374,
R375). -/
def State.dropCmd (s : State) (core : BitVec 10) (ctx : BitVec 12) (q : Nat) (m : Cmd) : State :=
  let conn := bits m.w0 53 42
  if q = 0 || q = 2 then s.finishCmd core ctx (timelineOf q m.w0) stBadcmd 0 0
  else if q = 4 then (if timelineOf q m.w0 = 5 then s.refusePost core ctx m conn 5 else s.endNsend core ctx m conn 5)
  else s.endXtask core ctx m conn m.w1 [] 0xF id

/-- One turn of an engine: the head command of the stream is decoded and performed. -/
def engineAct (core : BitVec 10) (ctx : BitVec 12) (q : Nat) (e : Bool) (units : Nat) (s : State) :
    Host.Outcome State Fault Refusal :=
  match (s.coreCtx core ctx).head (timelineAt q e) with
  | none => .next s
  | some m =>
    if !s.engineRuns core ctx q m then .next s
    else
      match if bits m.w0 63 60 = min (q / 2) 3 then decodeCmd m.w0 m.w1 else none with
      | some i => s.takeTurn (exec i { s with eng := ⟨core, ctx, units⟩ })
      | none => s.takeTurn (.next (s.dropCmd core ctx q m))

/-! ### Time -/

/-- Cycles a blocked group of the launch has spent, in a turn of `ns` (R143). -/
def State.blockedCycles (s : State) (k ns : Nat) : Nat :=
  (s.groups.filter fun g => g.launch = k && g.life = .running && g.blocked).foldl (fun n g => n + s.islandCycles (islandOf g.core) ns) 0

/-- Charges of the launches, and WAITED of their contexts: the highest charge, in units of 1,024 cycles (R143). -/
def State.chargeAll (s : State) (ns : Nat) : State :=
  let ks := (s.sch.launches.filter fun x => !x.2.finished).map fun x => x.1
  ks.foldl (fun s k =>
    let n := s.blockedCycles k ns
    let l := s.launch k
    let s := s.setLaunch k { l with charge := l.charge + n }
    let o := Reg.sched l.ctx.toNat 16
    s.setRegBits o 63 32 (max (s.regBits o 63 32) (min ((l.charge + n) / 1024) (2 ^ 32 - 1)))) s

/-- `ns` nanoseconds pass: the timebase, the clocks of the islands that run, and the charges of groups that are blocked (R6, R13, R143). -/
def State.elapse (s : State) (ns : Nat) : State :=
  let s := s.chargeAll ns
  let s := (List.range 128).foldl (fun s n =>
    s.setIsland n { s.island n with
      cycles := (s.island n).cycles + BitVec.ofNat 64 (s.islandCycles n ns), part := s.islandParts n ns % 1000 }) s
  { s with timebase := s.timebase + BitVec.ofNat 64 ns, freeCtr := s.freeCtr + 1 }

/-! ### Turns -/

/-- Constructors that are neither an instruction word nor an engine command. -/
def isEvent (i : Instr) : Bool := i.info.isNone && (encodeCmd i).isNone

/-- What an agent does in its turn (log 2); an event whose islands do not run waits (R8, R16). -/
def turn (t : Turn) (s : State) : Host.Outcome State Fault Refusal :=
  match t with
  | .event i ev =>
    if isEvent i && s.eventRuns i ev then
      (if ofEntryStage i then mustHappen (exec i { s with ev := ev }) else s.takeTurn (exec i { s with ev := ev }))
    else .next s
  | .port core => portAct core s
  | .engine core ctx q e units => engineAct core ctx q e units s
  | .elapse ns => .next (s.elapse ns)
  | .error x => .next (s.detectError x)
  | .gone page on => s.takeTurn (.next (s.setGone page on))
  | .teardown c => s.takeTurn (.next (s.teardown c))

/-- An S line far behind its core (R202). -/
def L1Line.stale (l : L1Line) (hi : BitVec 48) : Bool := l.st = .s && farBehind l.rts hi

/-- S lines far behind their core are dropped (R202). -/
def State.dropStale (s : State) : State :=
  { s with cores := s.cores.map fun x => (x.1, { x.2 with l1 := x.2.l1.filter fun l => !l.stale x.2.hiPts }) }

/-- Aperture accesses that waited for a line of their surface go on once it is not held (R54, R84). -/
def State.settleWindows (s : State) : State :=
  (s.groups.filter fun g => s.clockRuns g.core && g.inflight.any fun a => a.open && a.lanes.any fun l =>
    2 ^ 53 ≤ l.pa && !l.done && l.fault.isNone).foldl (fun s g => s.proceed g.core g.slot) s

/-- Something that follows a turn, put off where an access of it has to wait. -/
def State.after (s : State) (f : State → State) : State := s.orHeld (f s)

/-- What follows every turn: entries of event rings that waited for their line are written (R102), frames and results of the intake that wait are
sent (R67), requests at the snoop filter, halves of lines being taken and aperture accesses go on (R52, R56, R84), pre-emptions under way go on
(R140), stale lines are dropped (R202). -/
def State.settled (s : State) : State :=
  ((((((s.after State.settleRings).after State.settleNet).after State.settleFilters).after State.settleHalves).after State.settleWindows).after
    State.settleStops).dropStale

/-- The turn taken from the head of the agenda; with an empty agenda it is the issue port of the core at hand. -/
def nextTurn (s : State) : Host.Outcome State Fault Refusal :=
  match s.agenda with
  | t :: r => turn t { s with agenda := r }
  | [] => turn (.port s.cur.core) s

/-! ### A word where the next step fetches it -/

/-- A word put into the core's instruction cache. -/
def State.putFetched (s : State) (core : BitVec 10) (ctx : BitVec 12) (va w : Word) : State :=
  let r := s.core core
  let line := va.toNat / 128
  let old : Vector Word 16 := match r.icache.find? fun l => l.ctx = ctx && l.line = line with
    | some l => l.words
    | none => Vector.replicate 16 0
  let l : ILine := ⟨ctx, line, old.set! (va.toNat % 128 / 8) w⟩
  s.setCore core { r with icache := l :: r.icache.filter fun x => !(x.ctx = ctx && x.line = line) }

/-- The clocks of a core run. -/
def State.startClock (s : State) (core : BitVec 10) : State :=
  let s := s.setIsland (islandOf core) { s.island (islandOf core) with held := false, stopped := false }
  { s with pkg := { s.pkg with entry := { s.pkg.entry with held := false } } }

/-- The group at the port in a clause of one instruction, which stands in the instruction cache. -/
def State.placeInstr (s : State) (w : Word) : State :=
  let g := s.cur
  let h := Header.mk (classOf (bits w 63 60)) 1 0
  let s := (s.startClock g.core).putFetched g.core g.ctx g.pc h
  let s := s.putFetched g.core g.ctx (instrVa g.pc 0) w
  let s := s.setCore g.core { s.core g.core with holder := some g.slot }
  { s with
    cur := { g with life := .running, inClause := true, cpos := 0, hdr := h, latches := [], wait := none, late := none, sweep := none }
    sch := { s.sch with stopping := s.sch.stopping.filter fun x => x ≠ g.ctx }
    agenda := [] }

/-- A command at the head of its stream, and the turn of its engine next. -/
def State.placeCmd (s : State) (w0 w1 : Word) : State :=
  let g := s.cur
  let n := bits w0 63 60
  let q := if n = 0 then 0 else if n = 1 then 2 else if n = 2 then 4 else 8
  let tl := timelineOf q w0
  let k := s.coreCtx g.core g.ctx
  let c : Cmd := ⟨k.tl.toList.getD tl 0 + 1, w0, w1, g.core, g.slot, g.ctx, g.launch, g.spbase, g.spbytes, 0, g.team, false, s.seqCtr⟩
  let k := { k with accepted := put8 k.accepted tl (k.accepted.toList.getD tl 0 + 1) }.setQueue q (c :: k.queue q)
  let s := ((s.startClock g.core).setCoreCtx g.core g.ctx k).setRegBits (Reg.sched g.ctx.toNat 24) 61 61 0
  { s with
    sch := { s.sch with stopping := s.sch.stopping.filter fun x => x ≠ g.ctx }
    agenda := [.engine g.core g.ctx q (tl % 2 = 1) 0] }

end Sys2Proof.Machine
end

