-- ==== Sys2Proof/Machine/Step.lean ====
section
/-! DEFINITION. One step of the part: one turn of one agent (log 2). -/

namespace Sys2Proof.Machine

/-- One step: the next turn, and what follows every turn. -/
def step (s : State) : Host.Outcome State Fault Refusal :=
  match nextTurn s with
  | .next t => .next t.settled
  | .fault r => .fault r
  | .refused r => .refused r

/-- The state with the instruction or command whose bits are `w` where the next step runs it. -/
def State.withFetchWord (s : State) (nbits w : Nat) : State :=
  if nbits ≤ 64 then s.placeInstr (BitVec.ofNat 64 w)
  else s.placeCmd (BitVec.ofNat 64 w) (BitVec.ofNat 64 (w / 2 ^ 64))

end Sys2Proof.Machine
end

