-- ==== Sys2Proof/Safety.lean ====
section
/-! DEFINITION. The terms in which statements speak of the part: when an instruction word has its own effect (R258), what it leaves
besides its results (R165, R166, R174, R175, R254), and the invariants. -/

namespace Sys2Proof.Machine

/-- The instruction word `i` has its own effect at the issue port: the deadline has not run out (R138), every check of R258 passes, both
guards are true (R250), no latch underruns (R174), an open region admits it (R348), and no load is to write a register it names (R167).
-/
def issues (i : Instr) (s : State) : Bool :=
  match i.info with
  | none => false
  | some o =>
    (s.cur.dline ≠ 0 || s.cur.hmode || isYieldOrPhase o) && o.ok && !opVectorLatch o s.cur && s.cur.guards o.body.ctl &&
    !opUnderrun o s.cur && (s.cur.region.isNone || s.cur.hmode || !regionForbids o) && !opHazard o s.cur

/-- Instructions with an operand check beside those of their word: of the slots a conversion names, of a carry set, of the queue register or the
operation a field selects. -/
def ownChecks : Instr → Bool
  | .cvt _ | .cvti _ | .qdec _ | .qenc _ | .licvt _ | .sweep _ | .qput _ | .qget _ | .qtry _ | .yield _ | .phase _ => true
  | _ => false

/-- The group stands at the last instruction of its clause (R254). -/
def Group.atLast (g : Group) : Bool := g.cpos.toNat = Header.count g.hdr

/-- The deadline counter after one more instruction: one less, not below 0; paused in handler mode (R138). -/
def Group.deadlineLess (g : Group) : BitVec 13 := if g.hmode || g.dline = 0 then g.dline else g.dline - 1

/-- The group `g` past its instruction, which leaves `lat` for the latches. After the last of a clause the next clause is up and the latches are
empty (R175, R254); otherwise the next position is, and `lat` is latch l1 (R174). -/
def Group.stepped (g : Group) (lat : LatchV) : Group :=
  { g with
    dline := g.deadlineLess
    pc := if g.atLast then g.pc + 8 * BitVec.ofNat 64 (Header.count g.hdr + 2) else g.pc
    cpos := if g.atLast then 0 else g.cpos + 1
    inClause := g.inClause && !g.atLast
    latches := if g.atLast then [] else lat :: g.latches
    wait := none }

/-- The group `g` after a taken transfer (R271): at the boundary of the clause at `target`. -/
def Group.jumped (g : Group) (target : Word) : Group :=
  { g with dline := g.deadlineLess, pc := target, cpos := 0, inClause := false, latches := [], wait := none }

/-- From `s` to `t` one group has moved on, to `g`, and nothing else has changed but the port of its core: the cycles spent (R165, R166), and,
at the end of a clause, which group has it (R164). Tracking of an open region (R344, R347) is the one thing not said. -/
structure Moves (s t : State) (c : Ctl) (cost : Nat) (leaves : Bool) (g : Group) : Prop where
  outside : t = { s with cur := t.cur, cores := t.cores }
  group : t.cur = { g with region := t.cur.region }
  region : t.cur.region.isSome = g.region.isSome
  port : t.core s.cur.core = { s.core s.cur.core with
    spent := (s.core s.cur.core).spent + (cost + c.st.toNat)
    holder := if leaves && (s.core s.cur.core).holder = some s.cur.slot then none else (s.core s.cur.core).holder }
  others : ∀ n, n ≠ s.cur.core → t.core n = s.core n

/-- The instruction with control bits `c` retires in `cost` cycles; `g` is the group with its results written, `lat` its latch. -/
def Retires (s t : State) (c : Ctl) (cost : Nat) (lat : LatchV) (g : Group) : Prop :=
  Moves s t c cost g.atLast (g.stepped lat)

/-- The instruction transfers to `target`; `g` is the group with its results written. -/
def Jumps (s t : State) (c : Ctl) (target : Word) (g : Group) : Prop := Moves s t c 1 true (g.jumped target)

/-! ### Results of the scalar instructions (R262 to R270) -/

/-- What an instruction of the ordinary kind leaves: its control bits, its latch, and the group with its results written. -/
abbrev Effect := Ctl × LatchV × Group

/-- A scalar result `v` to the destination `d`, and in the latch. -/
def scalarTo (g : Group) (c : Ctl) (d : Opd) (v : Word) : Effect := (c, .s v, g.putS d v)

/-- A predicate result; c7 takes no write, the latch still holds 1 or 0 (R265). -/
def predicateTo (g : Group) (c : Ctl) (d : Opd) (v : Bool) : Effect :=
  (c, .s (if v then 1 else 0), match d with
    | .reg n => g.setPred n.toNat v
    | _ => g)

/-- A sum or difference with `.sat`: clamped to two's complement range, OF when it clamps (R262). -/
def clampedTo (g : Group) (c : Ctl) (d : Opd) (z : Int) : Effect :=
  if z < -2 ^ 63 then scalarTo (g.raise gsfOF) c d 0x8000000000000000
  else if 2 ^ 63 ≤ z then scalarTo (g.raise gsfOF) c d 0x7FFFFFFFFFFFFFFF
  else scalarTo g c d (BitVec.ofInt 64 z)

/-- Group 0x0 (R262 to R265). -/
def scalarEffect (g : Group) : Instr → Option Effect
  | .add w => some (if bit w.e 2 then clampedTo g w.ctl w.d ((g.srcS w.a).toInt + (g.srcS w.b).toInt)
      else scalarTo g w.ctl w.d (g.srcS w.a + g.srcS w.b))
  | .sub w => some (if bit w.e 2 then clampedTo g w.ctl w.d ((g.srcS w.a).toInt - (g.srcS w.b).toInt)
      else scalarTo g w.ctl w.d (g.srcS w.a - g.srcS w.b))
  | .mul w => some (scalarTo g w.ctl w.d (g.srcS w.a * g.srcS w.b))
  | .mulh w => some (scalarTo g w.ctl w.d
      (((g.srcS w.a).signExtend 128 * (g.srcS w.b).signExtend 128).extractLsb' 64 64))
  | .mulhu w => some (scalarTo g w.ctl w.d
      (((g.srcS w.a).setWidth 128 * (g.srcS w.b).setWidth 128).extractLsb' 64 64))
  | .div w => some (scalarTo g w.ctl w.d
      (if g.srcS w.b = 0 then 0xFFFFFFFFFFFFFFFF else (g.srcS w.a).sdiv (g.srcS w.b)))
  | .divu w => some (scalarTo g w.ctl w.d (if g.srcS w.b = 0 then 0xFFFFFFFFFFFFFFFF else g.srcS w.a / g.srcS w.b))
  | .rem w => some (scalarTo g w.ctl w.d (if g.srcS w.b = 0 then g.srcS w.a else (g.srcS w.a).srem (g.srcS w.b)))
  | .remu w => some (scalarTo g w.ctl w.d (if g.srcS w.b = 0 then g.srcS w.a else g.srcS w.a % g.srcS w.b))
  | .and w => some (scalarTo g w.ctl w.d (g.srcS w.a &&& g.srcS w.b))
  | .or w => some (scalarTo g w.ctl w.d (g.srcS w.a ||| g.srcS w.b))
  | .xor w => some (scalarTo g w.ctl w.d (g.srcS w.a ^^^ g.srcS w.b))
  | .andn w => some (scalarTo g w.ctl w.d (g.srcS w.a &&& ~~~g.srcS w.b))
  | .orn w => some (scalarTo g w.ctl w.d (g.srcS w.a ||| ~~~g.srcS w.b))
  | .shl w => some (scalarTo g w.ctl w.d (g.srcS w.a <<< ((g.srcS w.b).toNat % 64)))
  | .shr w => some (scalarTo g w.ctl w.d (g.srcS w.a >>> ((g.srcS w.b).toNat % 64)))
  | .sra w => some (scalarTo g w.ctl w.d ((g.srcS w.a).sshiftRight ((g.srcS w.b).toNat % 64)))
  | .ror w => some (scalarTo g w.ctl w.d ((g.srcS w.a).rotateRight ((g.srcS w.b).toNat % 64)))
  | .min w => some (scalarTo g w.ctl w.d (if (g.srcS w.b).slt (g.srcS w.a) then g.srcS w.b else g.srcS w.a))
  | .max w => some (scalarTo g w.ctl w.d (if (g.srcS w.a).slt (g.srcS w.b) then g.srcS w.b else g.srcS w.a))
  | .minu w => some (scalarTo g w.ctl w.d (if g.srcS w.b < g.srcS w.a then g.srcS w.b else g.srcS w.a))
  | .maxu w => some (scalarTo g w.ctl w.d (if g.srcS w.a < g.srcS w.b then g.srcS w.b else g.srcS w.a))
  | .clz w => some (scalarTo g w.ctl w.d (BitVec.ofNat 64 (leadZeros 64 (g.srcS w.a).toNat)))
  | .ctz w => some (scalarTo g w.ctl w.d (BitVec.ofNat 64 (trailZeros 64 (g.srcS w.a).toNat)))
  | .popc w => some (scalarTo g w.ctl w.d (BitVec.ofNat 64 (popCount 64 (g.srcS w.a).toNat)))
  | .bfx w =>
    let pos := (g.srcS w.b).toNat % 64
    some (scalarTo g w.ctl w.d (BitVec.ofNat 64 (fieldOf 64 true (g.srcS w.a).toNat pos (min ((g.srcS w.c).toNat % 128) (64 - pos)))))
  | .bfxu w =>
    let pos := (g.srcS w.b).toNat % 64
    some (scalarTo g w.ctl w.d (BitVec.ofNat 64 (fieldOf 64 false (g.srcS w.a).toNat pos (min ((g.srcS w.c).toNat % 128) (64 - pos)))))
  | .bfi w =>
    let pos := (g.srcS w.c).toNat % 64
    some (scalarTo g w.ctl w.d (BitVec.ofNat 64
      (insertField (g.srcS w.a).toNat pos (min ((g.srcS (Opd.ofByte w.e)).toNat % 128) (64 - pos)) (g.srcS w.b).toNat)))
  | .sel w => some (scalarTo g w.ctl w.d (if g.srcC w.c then g.srcS w.a else g.srcS w.b))
  | .cmp w =>
    let a := g.srcS w.a
    let b := g.srcS w.b
    let u := bit w.e 3
    let lt : Bool := if u then a < b else a.slt b
    some (predicateTo g w.ctl w.d (match w.e.toNat % 8 with
      | 0 => a = b
      | 1 => a ≠ b
      | 2 => lt
      | 3 => lt || a = b
      | 4 => !(lt || a = b)
      | _ => !lt))
  | _ => none

/-- Two registers from `d` written, a pair (R247). -/
def pairTo (g : Group) (d : Opd) (lo hi : Word) : Group :=
  match d with
  | .reg n => (g.swrite n lo).swrite (n + 1) hi
  | _ => g

/-- Group 0x1 (R266 to R270). -/
def moveEffect (s : State) : Instr → Option Effect
  | .mov w => some (scalarTo s.cur w.ctl w.d (s.cur.srcS w.a))
  | .ldk w => some (scalarTo s.cur w.ctl w.d (w.imm.signExtend 64))
  | .ldkh w => some (scalarTo s.cur w.ctl w.d (w.imm ++ (s.cur.srcS w.d).setWidth 32))
  | .movsr w => some (scalarTo s.cur w.ctl w.d (s.groupReg w.imm.toNat))
  | .movsw w => some (w.ctl, .none, { s.cur with gsf := (s.cur.srcS w.a).setWidth 5 })
  | .plog w =>
    let n (b : Bool) : Nat := if b then 1 else 0
    some (predicateTo s.cur w.ctl w.d
      (w.e.getLsbD (4 * n (s.cur.srcC w.a) + 2 * n (s.cur.srcC w.b) + n (s.cur.srcC w.c))))
  | .kmov w =>
    let lo : Word := s.cur.k.setWidth 64
    let hi : Word := (s.cur.k >>> 64).setWidth 64
    some (w.ctl, .s lo, pairTo s.cur w.d lo hi)
  | .kset w =>
    let p := s.cur.srcS2 w.a
    let x : Mask := if w.e.getLsbD 3 then s.cur.k else ((p.2.setWidth 32 : BitVec 32) ++ p.1)
    let f (t : Mask) : Mask :=
      match w.e.toNat % 8 with
      | 0 => x
      | 1 => t &&& x
      | 2 => t ||| x
      | 3 => t ^^^ x
      | _ => t &&& ~~~x
    some (w.ctl, .none,
      if w.e.getLsbD 4 then { s.cur with em := f s.cur.em &&& s.cur.live } else { s.cur with k := f s.cur.k })
  | _ => none

/-! ### Results of the vector instructions (R285 to R315) -/

/-- The flags that the active lanes raise together (R235). -/
def activeFlags (g : Group) (f : Fin 96 → BitVec 5) : BitVec 5 :=
  ((List.finRange 96).filter fun (i : Fin 96) => g.em.getLsbD i).foldl (fun a i => a ||| f i) 0

/-- A result per lane: written in the active lanes of `d`, and in the latch, which holds 0 in the others (R170, R174). -/
def lanesTo (g : Group) (c : Ctl) (d : Opd) (x : Fin 96 → Half) (f : Fin 96 → BitVec 5 := fun _ => 0) : Effect :=
  (c, .v (Vector.ofFn fun i => if g.em.getLsbD i then x i else 0) (Vector.replicate 96 0),
    (g.putV d (Vector.ofFn x)).raise (activeFlags g f))

/-- A result of 64 bits per lane, to a pair (R171, R298). -/
def pairsTo (g : Group) (c : Ctl) (d : Opd) (x : Fin 96 → Word) (f : Fin 96 → BitVec 5 := fun _ => 0) : Effect :=
  (c, .v (Vector.ofFn fun i => if g.em.getLsbD i then (x i).setWidth 32 else 0)
      (Vector.ofFn fun i => if g.em.getLsbD i then (x i >>> 32).setWidth 32 else 0),
    (g.putP d (Vector.ofFn fun i => (x i).setWidth 32) (Vector.ofFn fun i => (x i >>> 32).setWidth 32)).raise (activeFlags g f))

/-- A vector compare: K takes the active lanes that hold, every other lane of K is 0; the latch holds 1 or 0 (R170, R174). -/
def kTo (g : Group) (c : Ctl) (p : Fin 96 → Bool) : Effect :=
  (c, .v (Vector.ofFn fun i => if g.em.getLsbD i && p i then 1 else 0) (Vector.replicate 96 0),
    { g with k := maskOf p &&& g.em })

/-- An exact integer taken modulo 2^32, or clamped with OF under `.sat` (R285). -/
def sat32 (sat : Bool) (z : Int) : Half × BitVec 5 :=
  if sat then
    (if z < -2 ^ 31 then (0x80000000, gsfOF) else if 2 ^ 31 ≤ z then (0x7FFFFFFF, gsfOF) else (BitVec.ofInt 32 z, 0))
  else (BitVec.ofInt 32 z, 0)

/-- The forms of group 0x3 that allow `.sat`. -/
def satTo (g : Group) (w : RR) (z : Fin 96 → Int) : Effect :=
  lanesTo g w.ctl w.d (fun i => (sat32 (w.e.getLsbD 2) (z i)).1) fun i => (sat32 (w.e.getLsbD 2) (z i)).2

/-- Group 0x3 but VMOVS (R285 to R292). -/
def vectorEffect (g : Group) : Instr → Option Effect
  | .vadd w => some (satTo g w fun i => ((g.srcV w.a)[i]).toInt + ((g.srcV w.b)[i]).toInt)
  | .vsub w => some (satTo g w fun i => ((g.srcV w.a)[i]).toInt - ((g.srcV w.b)[i]).toInt)
  | .vmul w => some (satTo g w fun i => ((g.srcV w.a)[i]).toInt * ((g.srcV w.b)[i]).toInt)
  | .vmad w => some (satTo g w fun i => ((g.srcV w.a)[i]).toInt * ((g.srcV w.b)[i]).toInt + ((g.srcV w.c)[i]).toInt)
  | .vabs w => some (satTo g w fun i => (((g.srcV w.a)[i]).toInt.natAbs : Int))
  | .vmulh w => some (lanesTo g w.ctl w.d fun i =>
      (((g.srcV w.a)[i]).signExtend 64 * ((g.srcV w.b)[i]).signExtend 64).extractLsb' 32 32)
  | .vand w => some (lanesTo g w.ctl w.d fun i => (g.srcV w.a)[i] &&& (g.srcV w.b)[i])
  | .vor w => some (lanesTo g w.ctl w.d fun i => (g.srcV w.a)[i] ||| (g.srcV w.b)[i])
  | .vxor w => some (lanesTo g w.ctl w.d fun i => (g.srcV w.a)[i] ^^^ (g.srcV w.b)[i])
  | .vandn w => some (lanesTo g w.ctl w.d fun i => (g.srcV w.a)[i] &&& ~~~(g.srcV w.b)[i])
  | .vshl w => some (lanesTo g w.ctl w.d fun i => (g.srcV w.a)[i] <<< (((g.srcV w.b)[i]).toNat % 32))
  | .vshr w => some (lanesTo g w.ctl w.d fun i => (g.srcV w.a)[i] >>> (((g.srcV w.b)[i]).toNat % 32))
  | .vsra w => some (lanesTo g w.ctl w.d fun i => ((g.srcV w.a)[i]).sshiftRight (((g.srcV w.b)[i]).toNat % 32))
  | .vmin w => some (lanesTo g w.ctl w.d fun i =>
      if ((g.srcV w.b)[i]).slt (g.srcV w.a)[i] then (g.srcV w.b)[i] else (g.srcV w.a)[i])
  | .vmax w => some (lanesTo g w.ctl w.d fun i =>
      if ((g.srcV w.a)[i]).slt (g.srcV w.b)[i] then (g.srcV w.b)[i] else (g.srcV w.a)[i])
  | .vminu w => some (lanesTo g w.ctl w.d fun i => if (g.srcV w.b)[i] < (g.srcV w.a)[i] then (g.srcV w.b)[i] else (g.srcV w.a)[i])
  | .vmaxu w => some (lanesTo g w.ctl w.d fun i => if (g.srcV w.a)[i] < (g.srcV w.b)[i] then (g.srcV w.b)[i] else (g.srcV w.a)[i])
  | .vclz w => some (lanesTo g w.ctl w.d fun i => BitVec.ofNat 32 (leadZeros 32 ((g.srcV w.a)[i]).toNat))
  | .vpopc w => some (lanesTo g w.ctl w.d fun i => BitVec.ofNat 32 (popCount 32 ((g.srcV w.a)[i]).toNat))
  | .vbfx w => some (lanesTo g w.ctl w.d fun i =>
      let pos := ((g.srcV w.b)[i]).toNat % 32
      BitVec.ofNat 32 (fieldOf 32 (!w.e.getLsbD 0) ((g.srcV w.a)[i]).toNat pos (min (((g.srcV w.c)[i]).toNat % 64) (32 - pos))))
  | .vbfi w => some (lanesTo g w.ctl w.d fun i =>
      let pos := ((g.srcV w.c)[i]).toNat % 32
      BitVec.ofNat 32 (insertField ((g.srcV w.a)[i]).toNat pos
        (min (((g.srcV (Opd.ofByte w.e))[i]).toNat % 64) (32 - pos)) ((g.srcV w.b)[i]).toNat))
  | .vsel w => some (lanesTo g w.ctl w.d fun i => if g.k.getLsbD i then (g.srcV w.a)[i] else (g.srcV w.b)[i])
  | .vmov w => some (lanesTo g w.ctl w.d fun i => (g.srcV w.a)[i])
  | .vcmp w => some (kTo g w.ctl fun i =>
      let a := (g.srcV w.a)[i]
      let b := (g.srcV w.b)[i]
      let lt : Bool := if w.e.getLsbD 3 then a < b else a.slt b
      match w.e.toNat % 8 with
      | 0 => a = b
      | 1 => a ≠ b
      | 2 => lt
      | 3 => lt || a = b
      | 4 => !(lt || a = b)
      | _ => !lt)
  | .vaddp w =>
    let z (i : Fin 96) : Int := ((g.srcP w.a)[i]).toInt + ((g.srcP w.b)[i]).toInt
    some (if w.e.getLsbD 2 then
        pairsTo g w.ctl w.d
          (fun i => if z i < -2 ^ 63 then 0x8000000000000000 else if 2 ^ 63 ≤ z i then 0x7FFFFFFFFFFFFFFF else BitVec.ofInt 64 (z i))
          fun i => if z i < -2 ^ 63 ∨ 2 ^ 63 ≤ z i then gsfOF else 0
      else pairsTo g w.ctl w.d fun i => (g.srcP w.a)[i] + (g.srcP w.b)[i])
  | _ => none

/-- A sign modifier pair on a pattern whose sign is bit `n - 1`: the absolute value first, then the negation (R253, R293). -/
def signMods (n : Nat) (abs neg : Bool) (v : Nat) : Nat :=
  let u := if abs then v % 2 ^ (n - 1) else v
  if neg then (if u < 2 ^ (n - 1) then u + 2 ^ (n - 1) else u - 2 ^ (n - 1)) else u

/-- An FP32 form: `f` of A and B with their modifiers, and C (R293). -/
def fp32To (g : Group) (w : RR) (f : Nat → Nat → Nat → FRes) : Effect :=
  let r (i : Fin 96) : FRes :=
    f (signMods 32 (w.e.getLsbD 4) (w.e.getLsbD 3) ((g.srcF w.a)[i]).toNat)
      (signMods 32 (w.e.getLsbD 6) (w.e.getLsbD 5) ((g.srcF w.b)[i]).toNat) ((g.srcF w.c)[i]).toNat
  lanesTo g w.ctl w.d (fun i => BitVec.ofNat 32 (r i).val) fun i => (r i).flags

/-- A half-pair form: the two halves of every lane apart (R297). -/
def fp16To (g : Group) (w : RR) (f : Nat → Nat → Nat → FRes) : Effect :=
  let half (x : Half) (k : Nat) : Nat := x.toNat / 2 ^ (16 * k) % 2 ^ 16
  let r (i : Fin 96) (k : Nat) : FRes :=
    f (signMods 16 (w.e.getLsbD 4) (w.e.getLsbD 3) (half (g.srcH w.a)[i] k))
      (signMods 16 (w.e.getLsbD 6) (w.e.getLsbD 5) (half (g.srcH w.b)[i] k)) (half (g.srcH w.c)[i] k)
  lanesTo g w.ctl w.d (fun i => BitVec.ofNat 32 ((r i 0).val + 2 ^ 16 * (r i 1).val)) fun i => (r i 0).flags ||| (r i 1).flags

/-- A D form: pairs of registers (R298). -/
def fp64To (g : Group) (w : RR) (f : Nat → Nat → Nat → FRes) : Effect :=
  let r (i : Fin 96) : FRes :=
    f (signMods 64 (w.e.getLsbD 4) (w.e.getLsbD 3) ((g.srcD w.a)[i]).toNat)
      (signMods 64 (w.e.getLsbD 6) (w.e.getLsbD 5) ((g.srcD w.b)[i]).toNat) ((g.srcD w.c)[i]).toNat
  pairsTo g w.ctl w.d (fun i => BitVec.ofNat 64 (r i).val) fun i => (r i).flags

/-- Group 0x4 and the transcendental forms of group 0x5 (R293 to R300). -/
def floatEffect (g : Group) : Instr → Option Effect
  | .fadd w => some (fp32To g w fun a b _ => fp32.addOp (rmOf w.e) (w.e.getLsbD 2) a b)
  | .fsub w => some (fp32To g w fun a b _ => fp32.subOp (rmOf w.e) (w.e.getLsbD 2) a b)
  | .fmul w => some (fp32To g w fun a b _ => fp32.mulOp (rmOf w.e) (w.e.getLsbD 2) a b)
  | .ffma w => some (fp32To g w fun a b c => fp32.fmaOp (rmOf w.e) (w.e.getLsbD 2) a b c)
  | .hadd2 w => some (fp16To g w fun a b _ => fp16.addOp (rmOf w.e) (w.e.getLsbD 2) a b)
  | .hmul2 w => some (fp16To g w fun a b _ => fp16.mulOp (rmOf w.e) (w.e.getLsbD 2) a b)
  | .hfma2 w => some (fp16To g w fun a b c => fp16.fmaOp (rmOf w.e) (w.e.getLsbD 2) a b c)
  | .dadd w => some (fp64To g w fun a b _ => fp64.addOp (rmOf w.e) (w.e.getLsbD 2) a b)
  | .dmul w => some (fp64To g w fun a b _ => fp64.mulOp (rmOf w.e) (w.e.getLsbD 2) a b)
  | .dfma w => some (fp64To g w fun a b c => fp64.fmaOp (rmOf w.e) (w.e.getLsbD 2) a b c)
  | .fmin w => some (fp32To g w fun a b _ => ⟨fp32.minMax false a b, false, false⟩)
  | .fmax w => some (fp32To g w fun a b _ => ⟨fp32.minMax true a b, false, false⟩)
  | .frcp w => some (fp32To g w fun a _ _ => fp32.divOp (rmOf w.e) (w.e.getLsbD 2) 0x3F800000 a)
  | .fdiv w => some (fp32To g w fun a b _ => fp32.divOp (rmOf w.e) (w.e.getLsbD 2) a b)
  | .frsq w => some (fp32To g w fun a _ _ => fp32.rsqrtOp (w.e.getLsbD 2) a)
  | .fsqrt w => some (fp32To g w fun a _ _ => fp32.sqrtOp (rmOf w.e) (w.e.getLsbD 2) a)
  | .fexp2 w => some (fp32To g w fun a _ _ => exp2Op (w.e.getLsbD 2) a)
  | .flog2 w => some (fp32To g w fun a _ _ => log2Op (w.e.getLsbD 2) a)
  | .fsin w => some (fp32To g w fun a _ _ => trigOp false a)
  | .fcos w => some (fp32To g w fun a _ _ => trigOp true a)
  | .ftanh w => some (fp32To g w fun a _ _ => tanhOp a)
  | .fclass w => some (lanesTo g w.ctl w.d fun i => BitVec.ofNat 32 (fp32.classMask ((g.srcF w.a)[i]).toNat))
  | .fcmp w => some (kTo g w.ctl fun i =>
      match (fp32.decode ((g.srcF w.a)[i]).toNat).cmp (fp32.decode ((g.srcF w.b)[i]).toNat) with
      | none => w.e.toNat % 8 = 1 || w.e.toNat % 8 = 6
      | some o =>
        match w.e.toNat % 8 with
        | 0 => o = .eq
        | 1 => o ≠ .eq
        | 2 => o = .lt
        | 3 => o ≠ .gt
        | 4 => o = .gt
        | 5 => o ≠ .lt
        | 6 => false
        | _ => true)
  | _ => none

/-- A conversion result in the format of its slot (R301): a pair for FP64, a half that keeps the other half, or a whole register. -/
def slotTo (g : Group) (w : RR) (efmt : Nat) (v : Fin 96 → Nat) (f : Fin 96 → BitVec 5) : Effect :=
  if efmt = 1 then pairsTo g w.ctl w.d (fun i => BitVec.ofNat 64 (v i)) f
  else if efmt = 3 ∨ efmt = 4 ∨ efmt = 8 then
    lanesTo g w.ctl w.d (fun i =>
      let old := (g.srcV w.d)[i]
      if w.e.getLsbD 7 then BitVec.ofNat 16 (v i) ++ old.setWidth 16 else (old >>> 16).setWidth 16 ++ BitVec.ofNat 16 (v i)) f
  else lanesTo g w.ctl w.d (fun i => BitVec.ofNat 32 (v i)) f

/-- The slots of a conversion: destination by E[2:0], source by E[5:3] (R301). -/
def State.slotD (s : State) (w : RR) : Slot := s.slotOf s.cur.launch (w.e.toNat % 8)
def State.slotA (s : State) (w : RR) : Slot := s.slotOf s.cur.launch (w.e.toNat / 8 % 8)

/-- The operands of a conversion suit its slots, which are not malformed, and no load is to write the second register of a pair (R237, R301). -/
def State.slotsFit (s : State) (w : RR) : Bool :=
  !(s.slotD w).malformed && !(s.slotA w).malformed && !badSource (s.slotA w).efmt (w.e.getLsbD 6) w.a &&
  !badDest (s.slotD w).efmt (w.e.getLsbD 7) w.d && !pairPending s.cur (s.slotA w).efmt w.a && !pairPending s.cur (s.slotD w).efmt w.d

/-- Binary formats: FP64, FP32, FP16, BF16 (R224). -/
def binary (efmt : Nat) : Bool := 1 ≤ efmt && efmt ≤ 4

/-- Conversions of group 0x5 (R301 to R305, R308) whose slots have an accepted pair of formats. -/
def convertEffect (s : State) : Instr → Option Effect
  | .cvt w =>
    let d := s.slotD w; let a := s.slotA w
    let r (i : Fin 96) := cvtValue d a (s.cur.srcSlot a.efmt (w.e.getLsbD 6) w.a i)
    if s.slotsFit w && binary d.efmt && binary a.efmt then some (slotTo s.cur w d.efmt (fun i => (r i).1) fun i => (r i).2) else none
  | .cvti w =>
    let d := s.slotD w; let a := s.slotA w
    let r (i : Fin 96) := cvtiValue d a (s.cur.srcSlot a.efmt (w.e.getLsbD 6) w.a i)
    if s.slotsFit w && (d.efmt = 10 && binary a.efmt || binary d.efmt && a.efmt = 10) then
      some (slotTo s.cur w d.efmt (fun i => (r i).1) fun i => (r i).2) else none
  | .qdec w =>
    let d := s.slotD w; let a := s.slotA w
    let r (i : Fin 96) := qdecValue d a ((s.cur.srcV w.a)[i]).toNat ((s.cur.srcV w.b)[i]).toNat
    if !d.malformed && !a.malformed && !badDest d.efmt (w.e.getLsbD 7) w.d && 5 ≤ a.efmt && a.efmt ≤ 7 && 2 ≤ d.efmt && d.efmt ≤ 4 then
      some (slotTo s.cur w d.efmt (fun i => (r i).1) fun i => (r i).2) else none
  | .qenc w =>
    let d := s.slotD w; let a := s.slotA w
    let r (i : Fin 96) : Nat × BitVec 5 := match floatFmt a.efmt with
      | some f => qencValue d (f.decode (s.cur.srcSlot a.efmt (w.e.getLsbD 6) w.a i))
      | none => (0, 0)
    if s.slotsFit w && 5 ≤ d.efmt && d.efmt ≤ 7 && 2 ≤ a.efmt && a.efmt ≤ 4 then
      some (slotTo s.cur w d.efmt (fun i => (r i).1) fun i => (r i).2) else none
  | .licvt w =>
    let d := s.slotD w; let a := s.slotA w
    let li (x : Nat) : Bool := x = 8 || x = 9
    let r (i : Fin 96) := licvtValue d a (s.cur.srcSlot a.efmt (w.e.getLsbD 6) w.a i)
    if s.slotsFit w && (li d.efmt && (li a.efmt || binary a.efmt) || li a.efmt && binary d.efmt) then
      some (slotTo s.cur w d.efmt (fun i => (r i).1) fun i => (r i).2) else none
  | _ => none

/-- Level-index arithmetic and compare (R306, R307). -/
def levelEffect (g : Group) : Instr → Option Effect :=
  let arith (w : RR) (op : LOp) : Effect :=
    let r (i : Fin 96) : LRes := liArith op (liModify (w.e.getLsbD 4) (w.e.getLsbD 3) ((g.srcL w.a)[i]).toNat)
      (liModify (w.e.getLsbD 6) (w.e.getLsbD 5) ((g.srcL w.b)[i]).toNat)
    lanesTo g w.ctl w.d (fun i => BitVec.ofNat 32 (r i).val) fun i => if (r i).lx then gsfLX else 0
  fun i => match i with
  | .liadd w => some (arith w .add)
  | .lisub w => some (arith w .sub)
  | .limul w => some (arith w .mul)
  | .lidiv w => some (arith w .div)
  | .licmp w => some (kTo g w.ctl fun i =>
      let o := liCmp ((g.srcL w.a)[i]).toNat ((g.srcL w.b)[i]).toNat
      match w.e.toNat % 8 with
      | 0 => o = .eq
      | 1 => o ≠ .eq
      | 2 => o = .lt
      | 3 => o ≠ .gt
      | 4 => o = .gt
      | _ => o ≠ .lt)
  | _ => none

/-- What a lane reads of lane `j` of `x`: 0 where there is no lane `j`, or it is not live (R309). -/
def laneOf (g : Group) (x : Lanes) (j : Nat) : Half := if h : j < 96 then (if g.live.getLsbD j then x[j] else 0) else 0

/-- VMOVS and group 0x6 (R291, R309 to R314). -/
def crossEffect (g : Group) : Instr → Option Effect
  | .vmovs w => some (scalarTo g w.ctl w.d ((laneOf g (g.srcV w.a) (g.srcS w.b).toNat).setWidth 64))
  | .vperm w => some (lanesTo g w.ctl w.d fun i => laneOf g (g.srcV w.a) ((g.srcV w.b)[i]).toNat)
  | .vbcast w => some (lanesTo g w.ctl w.d fun _ => laneOf g (g.srcV w.a) (g.srcS w.b).toNat)
  | .vshfl w =>
    let n := if w.e.toNat / 4 % 8 = 6 then 96 else 2 ^ (w.e.toNat / 4 % 8)
    some (lanesTo g w.ctl w.d fun i => laneOf g (g.srcV w.a) (shflLane (w.e.toNat % 4) n i.val ((g.srcV w.b)[i]).toNat))
  | .vreds w =>
    let fp := w.e.toNat / 8 % 4 = 1
    let r := reduceLanes fp (w.e.toNat % 8) g (if fp then g.srcF w.a else g.srcV w.a)
    some (w.ctl, .s r.1, (g.putS w.d r.1).raise r.2)
  | .vscan w =>
    let fp := w.e.toNat / 8 % 4 = 1
    let r := scanLanes fp (w.e.getLsbD 5) (w.e.toNat % 8) (if fp then g.srcF w.a else g.srcV w.a) g.activeLanes none
    let e := lanesTo g w.ctl w.d fun i => Tab.get 0 r.1 i
    some (e.1, e.2.1, e.2.2.raise r.2)
  | .vballot w =>
    let m : Mask := maskOf fun i => g.em.getLsbD i && (g.srcV w.a)[i] ≠ 0
    let lo : Word := m.setWidth 64
    some (w.ctl, .s lo, pairTo g w.d lo ((m >>> 64).setWidth 64))
  | _ => none

/-- Issue cycles of a vector instruction: one for each beat with an active lane, at least one (R165). -/
def vectorCycles (g : Group) : Nat :=
  max 1 ((List.range 3).filter fun b => (List.range 32).any fun j => g.em.getLsbD (32 * b + j)).length

/-! ### Transfers and the mask stack (R172, R173, R245, R271 to R283) -/

/-- The next clause in sequence, which is the return address (R254, R271). -/
def returnAddress (g : Group) : Word := g.pc + 8 * BitVec.ofNat 64 (Header.count g.hdr + 2)

/-- The target of imm24: words from the next clause in sequence (R245). -/
def immTarget (g : Group) (imm : BitVec 24) : Word := returnAddress g + 8 * imm.signExtend 64

/-- The transfers that use no stack entry: control bits, whether taken, the target, and the group with what is written (R272, R279). RET is
plain where no JTABV entry is on top. -/
def transferEffect (g : Group) : Instr → Option (Ctl × Bool × Word × Group)
  | .br w => some (w.ctl, true, immTarget g w.imm, g)
  | .brc w => some (w.ctl, g.srcS w.a ≠ 0, immTarget g w.imm, g)
  | .call w => some (w.ctl, true, immTarget g w.imm, g.swrite 63 (returnAddress g))
  | .ret w => if g.msdep = 0 ∨ bits (g.mstack.getD 0 0) 127 124 ≠ 3 then some (w.ctl, true, g.srcS w.a, g) else none
  | .bany w => some (w.ctl, g.em &&& g.k ≠ 0, immTarget g w.imm, g)
  | .ball w => some (w.ctl, g.em &&& g.k = g.em, immTarget g w.imm, g)
  | .bnone w => some (w.ctl, g.em &&& g.k = 0, immTarget g w.imm, g)
  | _ => none

/-- A mask-stack entry: MKIND in [127:124], NEXT in [111:96], the mask in [95:0] (R172). -/
def stackEntry (kind : BitVec 4) (next : BitVec 16) (m : Mask) : BitVec 128 := kind ++ (0 : BitVec 12) ++ next ++ m

/-- The hardware entries are the newest eight of the stack (R173). -/
abbrev Group.stackOk (g : Group) : Prop := g.mstack.length = min g.msdep.toNat 8

/-- From `s` to `u` only the mask stack of the group at the port has changed: spilled entries lie in its window, each move between them and the
hardware entries costs cycles (R173). -/
structure Restacked (s u : State) (cycles : Nat) : Prop where
  outside : u = { s with cur := { s.cur with mstack := u.cur.mstack, msdep := u.cur.msdep }, cores := u.cores }
  hardware : u.cur.stackOk
  port : u.core s.cur.core = { s.core s.cur.core with
    spent := (s.core s.cur.core).spent + cycles, spad := (u.core s.cur.core).spad }
  others : ∀ n, n ≠ s.cur.core → u.core n = s.core n
  /-- A scratchpad word outside the spill slots in use is unchanged. -/
  words : ∀ i, (i < s.cur.mswin.toNat / 4 ∨ s.cur.mswin.toNat / 4 + 4 * (max s.cur.msdep.toNat u.cur.msdep.toNat - 8) ≤ i) →
    u.spWord s.cur.core i = s.spWord s.cur.core i

/-- Entries that have to spill when the depth rises from `d` to `e` (R173). -/
def spills (d e : Nat) : Nat := (e - 8) - (d - 8)

/-! ### Accesses in flight (R180, R320) -/

/-- From `u` to `v` the instruction retires and leaves the access `a` in flight; its stamp is the next one of `u`. -/
def Enters (u v : State) (c : Ctl) (cost : Nat) (lat : LatchV) (a : Access) : Prop :=
  Moves { u with seqCtr := u.seqCtr + 1 } v c cost u.cur.atLast { u.cur.stepped lat with inflight := u.cur.inflight ++ [a] }

/-- The same where the access is performed at once: it leaves the group as soon as nothing more is awaited of it, but not before an earlier one
of its path (R180). -/
def EntersDone (u v : State) (c : Ctl) (cost : Nat) (lat : LatchV) (a : Access) : Prop :=
  Moves { u with seqCtr := u.seqCtr + 1 } v c cost u.cur.atLast
    { u.cur.stepped lat with inflight := settleFrom [] (u.cur.inflight ++ [a]) }

/-- The register files, predicates, masks and the mask stack of a group are those of another. -/
def SameRegisters (g h : Group) : Prop :=
  h.sregs = g.sregs ∧ h.preds = g.preds ∧ h.k = g.k ∧ h.em = g.em ∧ h.live = g.live ∧ h.vregs = g.vregs ∧
  h.mstack = g.mstack ∧ h.msdep = g.msdep ∧ h.gsf = g.gsf

/-- Byte `i` of a line. -/
def byteOf (d : LineData) (i : Nat) : Byte := d.extractLsb' (8 * i) 8

/-- What a load, store or atomic of groups 0x7 and 0x9 asks of memory outside a region: its cycles and its request, with the addresses of R316
and the sizes of R317, R327. -/
def memoryForm (g : Group) : Instr → Option (Ctl × Nat × Req)
  | .sld z w => some (w.ctl, 1, ⟨0, .load (Size.signed z), .load, w.ctl.ch, BitVec.ofNat 3 z.log, scalarDst z w.d,
      [(96, scalarEa g w.a w.b (w.imm.signExtend 64), 0, 0)]⟩)
  | .sst z w => some (w.ctl, 1, ⟨1, .store, .store, w.ctl.ch, BitVec.ofNat 3 z.log, .none,
      [(96, scalarEa g w.a w.b (w.imm.signExtend 64), scalarData g z w.d, 0)]⟩)
  | .vld z w => some (w.ctl, vectorCycles g, ⟨0, .load (Size.signed z), .load, w.ctl.ch, BitVec.ofNat 3 z.log, vectorDst z w.d,
      g.activeLanes.map fun i => (lane7 i, vectorEa g w.a w.b (w.imm.signExtend 64) i, 0, 0)⟩)
  | .vst z w => some (w.ctl, vectorCycles g, ⟨1, .store, .store, w.ctl.ch, BitVec.ofNat 3 z.log, .none,
      g.activeLanes.map fun i => (lane7 i, vectorEa g w.a w.b (w.imm.signExtend 64) i, vectorData g z w.d i, 0)⟩)
  | .vldb z w => some (w.ctl, vectorCycles g, ⟨0, .load (Size.signed z), .load, w.ctl.ch, BitVec.ofNat 3 z.log, vectorDst z w.d,
      g.activeLanes.map fun i => (lane7 i, scaledEa g w.a w.b (w.imm.signExtend 64) (2 ^ z.log) i, 0, 0)⟩)
  | .vstb z w => some (w.ctl, vectorCycles g, ⟨1, .store, .store, w.ctl.ch, BitVec.ofNat 3 z.log, .none,
      g.activeLanes.map fun i => (lane7 i, scaledEa g w.a w.b (w.imm.signExtend 64) (2 ^ z.log) i, vectorData g z w.d i, 0)⟩)
  | .vatom w => some (w.ctl, vectorCycles g, ⟨5, .atom (BitVec.ofNat 4 (w.e.toNat / 16)) true, .atomic, w.ctl.ch,
      if w.e.getLsbD 3 then 3 else 2, atomDst w false,
      g.activeLanes.map fun i => (lane7 i, vectorEa g w.a w.b 0 i, (atomLane g w w.c (atomFloat w) i).setWidth 128, 0)⟩)
  | .vred w => some (w.ctl, vectorCycles g, ⟨5, .atom (BitVec.ofNat 4 (w.e.toNat / 16)) false, .atomic, w.ctl.ch,
      if w.e.getLsbD 3 then 3 else 2, .none,
      g.activeLanes.map fun i => (lane7 i, vectorEa g w.a w.b 0 i, (atomLane g w w.c (atomFloat w) i).setWidth 128, 0)⟩)
  | .vcas w => some (w.ctl, vectorCycles g, ⟨5, .cas, .atomic, w.ctl.ch, if w.e.getLsbD 3 then 3 else 2, atomDst w true,
      g.activeLanes.map fun i =>
        (lane7 i, vectorEa g w.a w.b 0 i, (atomLane g w w.c (atomFloat w) i).setWidth 128, atomLane g w w.d false i)⟩)
  | .satom w => some (w.ctl, 1, ⟨5, .atom (BitVec.ofNat 4 (w.e.toNat / 16)) true, .atomic, w.ctl.ch,
      if w.e.getLsbD 3 then 3 else 2, scalarReg w.d, [(96, scalarEa g w.a w.b 0, (atomScalar g w).setWidth 128, 0)]⟩)
  | .scas w => some (w.ctl, 1, ⟨5, .cas, .atomic, w.ctl.ch, if w.e.getLsbD 3 then 3 else 2, scalarReg w.d,
      [(96, scalarEa g w.a w.b 0, (atomScalar g w).setWidth 128, g.srcS w.d)]⟩)
  | _ => none

/-- A pair of registers that a W64 atomic names is not one that a load is to write (R167). -/
def pairsReady (g : Group) : Instr → Bool
  | .vatom w | .vred w | .vcas w => !atomPending g w
  | _ => true

/-! ### Scratchpad accesses (R188 to R193, R323 to R326) -/

/-- What a scratchpad instruction does with the words it names. -/
structure PadForm where
  w : I16
  path : BitVec 3
  /-- The place of a lane's word, none where the lane faults. -/
  place : Fin 96 → Option Nat
  /-- What the fault record and the access name as the lane's address. -/
  va : Fin 96 → Word
  /-- The tag every word must have, and the tag the words are left with. -/
  await : Option Bool
  leaves : Option Bool
  reads : Bool
  writes : Bool
  /-- The tag is the value. -/
  tag : Bool
  /-- The scope it releases at first, and acquires at afterwards; 0 for none (R216). -/
  rel : Nat
  acq : Nat

/-- A core scratchpad word of the group; with `window` its own spill window too (R188, R323). -/
def corePlace (s : State) (w : I16) (window : Bool) (i : Fin 96) : Option Nat :=
  let a := vectorEa s.cur w.a w.b (w.imm.signExtend 64) i
  if a.toNat % 4 = 0 then s.spReach s.cur window a else none

/-- A word of the cluster (R190). -/
def clusterPlace (s : State) (w : I16) (i : Fin 96) : Option Nat :=
  let a := vectorEa s.cur w.a w.b (w.imm.signExtend 64) i
  if a.toNat % 4 = 0 then s.clusterReach s.cur a else none

/-- A word of the lane's slice (R189, R326). -/
def slicePlace? (s : State) (w : I16) (i : Fin 96) : Option Nat :=
  let j := sliceIndex s.cur w i
  if 0 ≤ j ∧ j < s.cur.slicew.toNat then some (s.slicePlace s.cur i j.toNat) else none

/-- The forms of R324 and R326. -/
def padForm (s : State) : Instr → Option PadForm :=
  let ea (w : I16) (i : Fin 96) : Word := vectorEa s.cur w.a w.b (w.imm.signExtend 64) i
  let core (w : I16) (window : Bool) (await leaves : Option Bool) (reads writes tag : Bool) (rel acq : Nat) : Option PadForm :=
    some ⟨w, 2, corePlace s w window, ea w, await, leaves, reads, writes, tag, rel, acq⟩
  let clu (w : I16) (await leaves : Option Bool) (reads writes : Bool) (rel acq : Nat) : Option PadForm :=
    some ⟨w, 3, clusterPlace s w, ea w, await, leaves, reads, writes, false, rel, acq⟩
  fun i => match i with
  | .pld w => core w true none none true false false 0 0
  | .pst w => core w false none none false true false 0 0
  | .pldf w => core w false (some true) (some true) true false false 0 1
  | .plde w => core w false (some true) (some false) true false false 0 1
  | .pste w => core w false (some false) (some true) false true false 1 0
  | .pstf w => core w false none (some true) false true false 1 0
  | .pfe w => core w false none (some false) false false false 0 0
  | .ptag w => core w true none none false false true 0 0
  | .cld w => clu w (some true) (some true) true false 0 0
  | .cst w => clu w none none false true 0 0
  | .clde w => clu w (some true) (some false) true false 0 2
  | .cste w => clu w (some false) (some true) false true 2 0
  | .lsl w => some ⟨w, 2, slicePlace? s w, fun i => BitVec.ofInt 64 (sliceIndex s.cur w i), none, none, true, false, false, 0, 0⟩
  | .lss w => some ⟨w, 2, slicePlace? s w, fun i => BitVec.ofInt 64 (sliceIndex s.cur w i), none, none, false, true, false, 0, 0⟩
  | _ => none

/-- The scratchpad word at a place. -/
def State.pad (s : State) (p : Nat) : SpWord := s.sp (placeCore p) (placeWord p)

/-- The group has nothing that holds a release: no store in its write-combining buffer, every access performed, and for scope 4 acknowledged
(R215). -/
def Group.mayRelease (g : Group) (scope : Nat) : Bool :=
  scope = 0 || (g.wc.isNone && g.inflight.all fun a => a.performed && (scope ≠ 4 || a.acks = 0))

/-! ### Engines (R177, R178, R358, R364) -/

/-- The oldest command of a timeline of the engine that State.eng names. -/
def State.headOf (s : State) (tl : Nat) : Option Cmd := (s.coreCtx s.eng.core s.eng.ctx).head tl

/-- The state with the head command of register `q` begun (R177). -/
def State.beginCmd (s : State) (q : Nat) (c : Cmd) : State :=
  let k := s.coreCtx s.eng.core s.eng.ctx
  s.setCoreCtx s.eng.core s.eng.ctx (k.setQueue q ((k.queue q).map fun x => if x = c then { x with started := true } else x))

/-- The stream of that engine. -/
def State.stream (s : State) (tl : Nat) : EngWho := { core := s.eng.core, ctx := s.eng.ctx, tl := tl }

/-- The matrix engine may begin `c`, the head of the engine context that `k` names; `u` is the state it begins in. -/
structure MatrixHead (s : State) (k : CmdCtl) (c : Cmd) (u : State) (e : EngWho) : Prop where
  runs : s.suspended s.eng.ctx = false
  serves : s.serves s.eng.core s.eng.ctx = true
  head : s.headOf (b2n k.ectx) = some c
  begun : u = (s.beginCmd 0 c).engage s.eng.core s.eng.ctx
  stream : e = s.stream (b2n k.ectx)

/-- The copy engine may go on with `c`. -/
structure CopyHead (s : State) (k : CmdCtl) (c : Cmd) (u : State) (e : EngWho) : Prop where
  runs : s.suspended s.eng.ctx = false
  head : s.headOf (2 + b2n k.ectx) = some c
  begun : u = s.beginCmd 2 c
  stream : e = s.stream (2 + b2n k.ectx)

end Sys2Proof.Machine
end

