-- ==== Sys2Proof/Certificates/Slice0/Obligations.lean ====
section
/-! DEFINITION. The statements about the part, for the provers (OBLIGATIONS.json lists them). `exec` gives an instruction word, an engine
command or an event its meaning; `Retires`, `Jumps`, `Enters` and the effect tables of Safety say what a next state holds. -/

open Sys2Proof Sys2Proof.Machine

/-- Group 0x0 (R261 to R265): `scalarEffect` gives each instruction's control bits, latch, and the group with its results. -/
def Obligations.ScalarIntegerResults : Prop :=
  ∀ (s : State) (i : Instr) (c : Ctl) (lat : LatchV) (g : Group),
    issues i s = true → scalarEffect s.cur i = some (c, lat, g) →
    ∃ t, exec i s = .next t ∧ Retires s t c 1 lat g

/-- Group 0x1 (R266 to R270), by `moveEffect`. -/
def Obligations.MoveAndPredicateResults : Prop :=
  ∀ (s : State) (i : Instr) (c : Ctl) (lat : LatchV) (g : Group),
    issues i s = true → moveEffect s i = some (c, lat, g) →
    ∃ t, exec i s = .next t ∧ Retires s t c 1 lat g

/-- Group 0x3 but VMOVS (R285 to R292), by `vectorEffect`. -/
def Obligations.VectorIntegerResults : Prop :=
  ∀ (s : State) (i : Instr) (c : Ctl) (lat : LatchV) (g : Group),
    issues i s = true → vectorEffect s.cur i = some (c, lat, g) →
    ∃ t, exec i s = .next t ∧ Retires s t c (vectorCycles s.cur) lat g

/-- Group 0x4 and FRCP to FTANH (R293 to R300), by `floatEffect`. -/
def Obligations.VectorFloatResults : Prop :=
  ∀ (s : State) (i : Instr) (c : Ctl) (lat : LatchV) (g : Group),
    issues i s = true → floatEffect s.cur i = some (c, lat, g) →
    ∃ t, exec i s = .next t ∧ Retires s t c (vectorCycles s.cur) lat g

/-- Conversions and level-index forms (R301 to R308), by `convertEffect` and `levelEffect`; a malformed slot is an illegal operand (R237). The model's choices, not the
spec's: the precision to which level-index results are computed (log 14), and that a latch read as a pair has a zero upper half (log 31). -/
def Obligations.ConversionResults : Prop :=
  (∀ (s : State) (i : Instr) (c : Ctl) (lat : LatchV) (g : Group),
    issues i s = true → (convertEffect s i = some (c, lat, g) ∨ levelEffect s.cur i = some (c, lat, g)) →
    ∃ t, exec i s = .next t ∧ Retires s t c (vectorCycles s.cur) lat g) ∧
  (∀ (s : State) (w : RR) (i : Instr), i ∈ [.cvt w, .cvti w, .qdec w, .qenc w, .licvt w] → issues i s = true →
    ((s.slotD w).malformed = true ∨ (s.slotA w).malformed = true) → exec i s = .next (s.trap .group 0x11 [])) ∧
  (∀ (s : State) (w : RR), s.cur.dline ≠ 0 ∨ s.cur.hmode = true → (s.slotD w).malformed = false → (s.slotA w).malformed = false →
    binary (s.slotD w).efmt = true → binary (s.slotA w).efmt = true →
    (badSource (s.slotA w).efmt (w.e.getLsbD 6) w.a = true ∨ badDest (s.slotD w).efmt (w.e.getLsbD 7) w.d = true) →
    exec (.cvt w) s = .next (s.trap .group 0x11 []))

/-- VMOVS and group 0x6 (R291, R309 to R314), by `crossEffect`. -/
def Obligations.CrossLaneResults : Prop :=
  ∀ (s : State) (i : Instr) (c : Ctl) (lat : LatchV) (g : Group),
    issues i s = true → crossEffect s.cur i = some (c, lat, g) →
    ∃ t, exec i s = .next t ∧
      Retires s t c (match i with
        | .vmovs _ => 1
        | _ => vectorCycles s.cur) lat g

/-- What reading a register after a write gives (R168 to R170). -/
def Obligations.RegisterWrites : Prop :=
  (∀ (g : Group) (n m : BitVec 6) (v : Word), (n.toNat < 60 ∨ n = 63) →
    (g.swrite n v).sread m = (if m = n then v else g.sread m) ∧ (g.swrite n v).em = g.em ∧ (g.swrite n v).vregs = g.vregs) ∧
  (∀ (g : Group) (k : Nat) (n : BitVec 6) (v : Word), k < 3 → n.toNat = 60 + k →
    (g.swrite n v).sregs = g.sregs ∧
    ∀ i : Fin 96, (g.swrite n v).em.getLsbD i =
      (g.live.getLsbD i && (if i.val / 32 = k then v.getLsbD (i.val % 32) else g.em.getLsbD i))) ∧
  (∀ (g : Group) (n k : Nat) (b : Bool), (g.setPred n b).pred k = (if k = n ∧ n < 7 then b else g.pred k) ∧ g.pred 7 = true) ∧
  (∀ (g : Group) (n m : BitVec 6) (x : Lanes) (i : Fin 96),
    ((g.vwrite n x).vread m)[i] = (if m = n ∧ g.em.getLsbD i = true then x[i] else (g.vread m)[i]))

/-- The bit counts and fields that CLZ, CTZ, POPC, BFX, BFXU, BFI and the vector forms compute (R264, R288). -/
def Obligations.BitCountsAndFields : Prop :=
  (∀ v, v < 2 ^ 64 → (v = 0 → leadZeros 64 v = 64) ∧ (v ≠ 0 → v / 2 ^ (63 - leadZeros 64 v) = 1)) ∧
  (∀ v, v < 2 ^ 64 → (v = 0 → trailZeros 64 v = 64) ∧
    (v ≠ 0 → v % 2 ^ trailZeros 64 v = 0 ∧ v / 2 ^ trailZeros 64 v % 2 = 1)) ∧
  (∀ v : Nat, popCount 64 v = ((List.range 64).filter fun i => v.testBit i).length) ∧
  (∀ v pos len i : Nat, (fieldOf 64 false v pos len).testBit i = (decide (i < len) && v.testBit (pos + i))) ∧
  (∀ v pos len x i : Nat, (insertField v pos len x).testBit i =
    (if pos ≤ i ∧ i < pos + len then x.testBit (i - pos) else v.testBit i))

/-- Rounding is exact on what a format represents (R225, R227). -/
def Obligations.RoundingKeepsRepresentable : Prop :=
  ∀ (f : FFmt) (rm : RMode) (v : Nat) (n : Bool) (m : Nat) (e : Int), f ∈ [fp64, fp32, fp16, bf16] → v < 2 ^ f.width →
    f.decode v = .fin n m e → f.round rm n m e = ⟨v, false, false⟩

/-- The transfers that use no mask-stack entry (R272, R279), by `transferEffect`. -/
def Obligations.PlainTransfers : Prop :=
  ∀ (s : State) (i : Instr) (c : Ctl) (taken : Bool) (target : Word) (g : Group),
    issues i s = true → transferEffect s.cur i = some (c, taken, target, g) →
    ∃ t, exec i s = .next t ∧ (if taken then Jumps s t c target g else Retires s t c 1 .none g)

/-- SPLIT and LOOPM (R275, R278); spilled entries by R173. -/
def Obligations.DivergencePushes : Prop :=
  (∀ (s : State) (w : I24), issues (.split w) s = true → s.cur.stackOk →
    (s.mdepth < s.cur.msdep.toNat + 2 → exec (.split w) s = .next (s.trap .group 0x14 [])) ∧
    (s.cur.msdep.toNat + 2 ≤ s.mdepth → s.mdepth ≤ 255 → ∃ u t, exec (.split w) s = .next t ∧
      Restacked s u (2 * spills s.cur.msdep.toNat (s.cur.msdep.toNat + 2)) ∧
      u.cur.msdep.toNat = s.cur.msdep.toNat + 2 ∧
      u.entry 0 = stackEntry 1 0 (s.cur.em &&& ~~~s.cur.k) ∧ u.entry 1 = stackEntry 0 0 s.cur.em ∧
      (∀ n, n < s.cur.msdep.toNat → u.entry (n + 2) = s.entry n) ∧
      (if s.cur.em &&& s.cur.k = 0 then Jumps u t w.ctl (immTarget s.cur w.imm) { u.cur with em := 0 }
        else Retires u t w.ctl 1 .none { u.cur with em := s.cur.em &&& s.cur.k &&& s.cur.live }))) ∧
  (∀ (s : State) (w : I24), issues (.loopm w) s = true → s.cur.stackOk →
    (s.mdepth < s.cur.msdep.toNat + 1 → exec (.loopm w) s = .next (s.trap .group 0x14 [])) ∧
    (s.cur.msdep.toNat + 1 ≤ s.mdepth → s.mdepth ≤ 255 → ∃ u t, exec (.loopm w) s = .next t ∧
      Restacked s u (2 * spills s.cur.msdep.toNat (s.cur.msdep.toNat + 1)) ∧
      u.cur.msdep.toNat = s.cur.msdep.toNat + 1 ∧ u.entry 0 = stackEntry 2 0 s.cur.em ∧
      (∀ n, n < s.cur.msdep.toNat → u.entry (n + 1) = s.entry n) ∧
      (if s.cur.em = 0 then Jumps u t w.ctl (immTarget s.cur w.imm) u.cur else Retires u t w.ctl 1 .none u.cur)))

/-- ELSE and JOIN (R276, R277, R280). -/
def Obligations.DivergencePops : Prop :=
  (∀ (s : State) (w : I24), issues (.elseM w) s = true → s.cur.stackOk →
    (s.cur.msdep = 0 ∨ entryKind (s.entry 0) ≠ 1 → exec (.elseM w) s = .next (s.trap .group 0x10 [])) ∧
    (s.cur.msdep ≠ 0 → entryKind (s.entry 0) = 1 → ∃ u t, exec (.elseM w) s = .next t ∧
      Restacked s u (3 * spills (s.cur.msdep.toNat - 1) s.cur.msdep.toNat) ∧ u.cur.msdep = s.cur.msdep - 1 ∧
      (∀ n, n + 1 < s.cur.msdep.toNat → u.entry n = s.entry (n + 1)) ∧
      (if entryMask (s.entry 0) &&& s.cur.live = 0 then Jumps u t w.ctl (immTarget s.cur w.imm) { u.cur with em := 0 }
        else Retires u t w.ctl 1 .none { u.cur with em := entryMask (s.entry 0) &&& s.cur.live }))) ∧
  (∀ (s : State) (w : RR), issues (.join w) s = true → s.cur.stackOk →
    (s.cur.msdep = 0 ∨ entryKind (s.entry 0) ∉ [0, 2] → exec (.join w) s = .next (s.trap .group 0x10 [])) ∧
    (s.cur.msdep ≠ 0 → entryKind (s.entry 0) ∈ [0, 2] → ∃ u t, exec (.join w) s = .next t ∧
      Restacked s u (3 * spills (s.cur.msdep.toNat - 1) s.cur.msdep.toNat) ∧ u.cur.msdep = s.cur.msdep - 1 ∧
      (∀ n, n + 1 < s.cur.msdep.toNat → u.entry n = s.entry (n + 1)) ∧
      Retires u t w.ctl 1 .none { u.cur with em := entryMask (s.entry 0) &&& s.cur.live }))

/-- MSTR, MSTW and EXITL (R281, R283). -/
def Obligations.MaskStackAccess : Prop :=
  (∀ (s : State) (w : RR), issues (.mstr w) s = true →
    let n := (s.cur.srcS w.a).toNat
    let e : BitVec 128 := if n < s.cur.msdep.toNat then s.entry n else 0
    ∃ t, exec (.mstr w) s = .next t ∧
      Retires s t w.ctl 1 (.s (e.setWidth 64)) (pairTo s.cur w.d (e.setWidth 64) ((e >>> 64).setWidth 64))) ∧
  (∀ (s : State) (w : RR), issues (.mstw w) s = true → s.cur.stackOk →
    let n := (s.cur.srcS w.b).toNat
    let e : BitVec 128 := (s.cur.srcS2 w.a).2 ++ (s.cur.srcS2 w.a).1
    let legal := e.toNat / 2 ^ 124 < 4 ∧ e.toNat / 2 ^ 112 % 2 ^ 12 = 0
    ((s.cur.msdep.toNat < n ∨ ¬legal) → exec (.mstw w) s = .next (s.trap .group 0x11 [])) ∧
    (n < s.cur.msdep.toNat → legal → ∃ u t, exec (.mstw w) s = .next t ∧ Restacked s u 0 ∧ u.cur.msdep = s.cur.msdep ∧
      (∀ k, k < s.cur.msdep.toNat → u.entry k = (if k = n then e else s.entry k)) ∧ Retires u t w.ctl 1 .none u.cur) ∧
    (n = s.cur.msdep.toNat → legal → s.mdepth < n + 1 → exec (.mstw w) s = .next (s.trap .group 0x14 [])) ∧
    (n = s.cur.msdep.toNat → legal → n + 1 ≤ s.mdepth → s.mdepth ≤ 255 → ∃ u t, exec (.mstw w) s = .next t ∧
      Restacked s u (2 * spills n (n + 1)) ∧ u.cur.msdep.toNat = n + 1 ∧ u.entry 0 = e ∧
      (∀ k, k < n → u.entry (k + 1) = s.entry k) ∧ Retires u t w.ctl 1 .none u.cur)) ∧
  (∀ (s : State) (w : RR), issues (.exitl w) s = true →
    ∃ t, exec (.exitl w) s = .next t ∧
      Retires s t w.ctl 1 .none { s.cur with live := s.cur.live &&& ~~~s.cur.em, em := 0 })

/-- NaN results (R226). -/
def Obligations.CanonicalNaN : Prop :=
  ∀ (f h : FFmt) (rm : RMode) (sat big : Bool) (a b c : Nat), f ∈ [fp64, fp32, fp16, bf16] → h ∈ [fp64, fp32, fp16, bf16] →
    (∀ r : Nat, r ∈ [(f.addOp rm sat a b).val, (f.subOp rm sat a b).val, (f.mulOp rm sat a b).val, (f.fmaOp rm sat a b c).val,
        (f.divOp rm sat a b).val, (f.sqrtOp rm sat a).val, f.minMax big a b, (h.convert f rm sat a).val] →
      (f.decode r).isNaN = true → r = f.canonNaN) ∧
    ((f.decode a).isNaN = true →
      (f.addOp rm sat a b).val = f.canonNaN ∧ (f.mulOp rm sat a b).val = f.canonNaN ∧ (f.fmaOp rm sat a b c).val = f.canonNaN)

/-- The dispatch table (R273, R274): `touchWords` performs the read of the entry, once the earlier accesses of the group are performed; the
word before the return address comes from the instruction cache. -/
def Obligations.DispatchTable : Prop :=
  (∀ (s : State) (w : RR), issues (.jtab w) s = true →
    let j := (s.cur.srcS w.a).toNat
    (s.dtlen ≤ j → exec (.jtab w) s = .next (s.trap .group 0x15 [])) ∧
    (∀ u p, j < s.dtlen → s.cur.behind = false → s.touchWords (s.dtEntry j) .load 1 = .ok u [p] →
      ∃ t, exec (.jtab w) s = .next t ∧
        Jumps (u.clearVerdicts (.group u.cur.core u.cur.slot)) t w.ctl p (u.cur.swrite 63 (returnAddress u.cur)))) ∧
  (∀ (s : State) (w : RR), issues (.jtabv w) s = true →
    let v := s.cur.srcV w.a
    (s.cur.em = 0 → ∃ t, exec (.jtabv w) s = .next t ∧ Retires s t w.ctl 1 .none s.cur) ∧
    ((∃ i : Fin 96, s.cur.em.getLsbD i = true ∧ s.dtlen ≤ (v[i]).toNat) → exec (.jtabv w) s = .next (s.trap .group 0x15 [])) ∧
    (∀ j u p, (∀ i : Fin 96, s.cur.em.getLsbD i = true → j ≤ (v[i]).toNat ∧ (v[i]).toNat < s.dtlen) →
      (∃ i : Fin 96, s.cur.em.getLsbD i = true ∧ (v[i]).toNat = j) →
      (s.mdepth < s.cur.msdep.toNat + 1 → exec (.jtabv w) s = .next (s.trap .group 0x14 [])) ∧
      (s.cur.msdep.toNat + 1 ≤ s.mdepth → s.mdepth ≤ 255 → s.cur.behind = false →
        s.touchWords (s.dtEntry j) .load 1 = .ok u [p] → u.cur.stackOk →
        u.cur.msdep = s.cur.msdep →
        ∃ x t, exec (.jtabv w) s = .next t ∧
          Restacked (u.clearVerdicts (.group u.cur.core u.cur.slot)) x (2 * spills u.cur.msdep.toNat (u.cur.msdep.toNat + 1)) ∧
          x.entry 0 = stackEntry 3 (BitVec.ofNat 16 (j + 1)) s.cur.em ∧
          Jumps x t w.ctl p (({ x.cur with em := maskOf (fun i => s.cur.em.getLsbD i && (v[i]).toNat = j) &&& x.cur.live }).swrite 63
            (returnAddress x.cur))))) ∧
  (∀ (s : State) (w : RR) (x : Word), issues (.ret w) s = true → s.cur.msdep ≠ 0 → entryKind (s.cur.mstack.getD 0 0) = 3 →
    (s.cur.srcS w.a - 8).toNat % 8 = 0 → s.fetched s.cur.core s.cur.ctx (s.cur.srcS w.a - 8) = some x →
    (∀ r, decode x ≠ .ok (.jtabv r)) → ∃ t, exec (.ret w) s = .next t ∧ Jumps s t w.ctl (s.cur.srcS w.a) s.cur) ∧
  (∀ (s : State) (w r : RR) (x : Word), issues (.ret w) s = true → s.cur.msdep ≠ 0 → entryKind (s.cur.mstack.getD 0 0) = 3 →
    (s.cur.srcS w.a - 8).toNat % 8 = 0 → s.fetched s.cur.core s.cur.ctx (s.cur.srcS w.a - 8) = some x → decode x = .ok (.jtabv r) →
    s.cur.vectorPending r.a = false →
    let m := entryMask (s.cur.mstack.getD 0 0)
    let v := s.cur.srcV r.a
    let left (i : Fin 96) : Bool := m.getLsbD i && s.cur.live.getLsbD i && decide (entryNext (s.cur.mstack.getD 0 0) ≤ (v[i]).toNat)
    ((∀ i : Fin 96, left i = false) → s.cur.stackOk → ∃ y t, exec (.ret w) s = .next t ∧
      Restacked s y (3 * spills (s.cur.msdep.toNat - 1) s.cur.msdep.toNat) ∧ y.cur.msdep = s.cur.msdep - 1 ∧
      Jumps y t w.ctl (s.cur.srcS w.a) { y.cur with em := m &&& s.cur.live }) ∧
    (∀ j, (∃ i : Fin 96, left i = true ∧ (v[i]).toNat = j) → (∀ i : Fin 96, left i = true → j ≤ (v[i]).toNat) →
      (s.dtlen ≤ j → exec (.ret w) s = .next (s.trap .group 0x15 [])) ∧
      (∀ u2 p, j < s.dtlen → s.cur.behind = false → s.touchWords (s.dtEntry j) .load 1 = .ok u2 [p] →
        let s2 := u2.clearVerdicts (.group u2.cur.core u2.cur.slot)
        ∃ t, exec (.ret w) s = .next t ∧
          Jumps s2 t w.ctl p { s2.cur with
            mstack := s2.cur.mstack.set 0 (stackEntry 3 (BitVec.ofNat 16 (j + 1)) m)
            em := maskOf (fun i => m.getLsbD i && s.cur.live.getLsbD i && (v[i]).toNat = j) &&& s2.cur.live })))

/-- EXIT (R282), and in handler mode the end of the launch (R114). -/
def Obligations.LeavingEnds : Prop :=
  ∀ (s : State) (w : RR), issues (.exit w) s = true → s.cur.life = .running → s.cur.wc = none →
    (s.cur.hmode = true → exec (.exit w) s = .next (s.endByTrap s.cur.hkind)) ∧
    (s.cur.hmode = false → s.cur.inflight ≠ [] → ∃ t, exec (.exit w) s = .next t ∧
      t = { s with cur := t.cur, cores := t.cores } ∧
      t.cur = { s.cur with dline := s.cur.deadlineLess, region := t.cur.region, mstack := [], msdep := 0, life := .draining, inClause := false, latches := [], wait := none }) ∧
    (s.cur.hmode = false → s.cur.inflight = [] → s.cur.batch = none → 1 < (s.launch s.cur.launch).groups →
      ∃ t, exec (.exit w) s = .next t ∧ t.cur = { Group.blank with core := s.cur.core, slot := s.cur.slot } ∧
        t.mem = s.mem ∧ t.mgmt = s.mgmt ∧ t.parked = s.parked ∧
        (t.launch s.cur.launch).groups = (s.launch s.cur.launch).groups - 1) ∧
    (∀ va n m, s.cur.hmode = false → s.cur.inflight = [] → s.cur.batch = some (va, n, m) → 1 < (s.launch s.cur.launch).groups →
      ∃ t, exec (.exit w) s = .next t ∧ t.cur = { Group.blank with core := s.cur.core, slot := s.cur.slot } ∧ t.parked = s.parked ∧
        (t.launch s.cur.launch).groups = (s.launch s.cur.launch).groups - 1 ∧
        ∀ h, h < 2 ^ 16 → (∀ y ∈ t.batches s.cur.ctx h, y.2 ≠ va) ∧
          (Tab.wf [] s.sch.batches = true → t.batches s.cur.ctx h = (s.batches s.cur.ctx h).filter fun y => decide (y.2 ≠ va))) ∧
    (let l := s.launch s.cur.launch
     s.cur.hmode = false → s.cur.inflight = [] → s.cur.batch = none → s.cur.launch ≠ 0 → l.groups = 1 → l.finished = false → l.task = false →
      (l.ending.isSome = true ∨ l.gx * l.gy * l.gz ≤ l.nextCluster) →
      let viral : Bool := bits (s.reg (Reg.contain l.ctx.toNat 8)) 63 63 = 1
      let status := match l.ending with
        | none => if viral then 6 else 0
        | some k =>
          if k = 0xFF then 7 else if k = 0x16 then 5 else if viral then 6 else if k = 5 ∨ k = 6 then 8 else 4
      ∃ u t, exec (.exit w) s = .next t ∧ u.cur = { Group.blank with core := s.cur.core, slot := s.cur.slot } ∧ u.mem = s.mem ∧
        u.mgmt = s.mgmt ∧ u.parked = s.parked ∧ u.launch s.cur.launch = { l with groups := 0, finished := true } ∧
        (∀ x ∈ u.sch.teams, x.launch ≠ s.cur.launch) ∧
        t = if l.cmpl = true ∨ status ≠ 0 then u.postCompletion l.ctx 0 l.lseq.toNat l.lqh.toNat status l.fkind.toNat l.ntrap.toNat 0 else u)

/-- How an access of groups 0x7 and 0x9 issues (R180, R316 to R320, R327 to R329), by `memoryForm`. -/
def Obligations.AccessIssue : Prop :=
  ∀ (s : State) (i : Instr) (c : Ctl) (cost : Nat) (r : Req), memoryForm s.cur i = some (c, cost, r) → issues i s = true →
    s.cur.inRegion = false → pairsReady s.cur i = true →
    (r.lanes = [] → ∃ t, exec i s = .next t ∧
      Retires s t c cost (if r.dst = .none then .none else .v (Vector.replicate 96 0) (Vector.replicate 96 0))
        (if r.op = .cas then { s.cur with k := 0 } else s.cur)) ∧
    (r.lanes ≠ [] → s.cur.counter r.path.toNat < 63 →
      (∀ x ∈ r.lanes, ∃ pa mt co, s.checkLane x.2.1 r.size.toNat r.kind r.kind.writes (r.kind = .atomic) = .ok pa mt co) →
      ∃ u v a, exec i s = .next (v.proceed s.cur.core s.cur.slot) ∧ u.cur = s.cur ∧ u.parked = s.parked ∧ u.mgmt = s.mgmt ∧ u.sch = s.sch ∧
        Enters u v c cost (if r.dst = .none then .none else .pend a.id) a ∧
        a.path = r.path ∧ a.op = r.op ∧ a.hint = c.ch ∧ a.size = r.size ∧ a.dst = r.dst ∧ a.performed = false ∧
        (a.lanes.map fun l => (l.lane, l.va, l.data, l.cmp)).Perm (r.lanes.flatMap fun x =>
          if r.size = 4 then
            [(x.1, x.2.1, (x.2.2.1.extractLsb' 0 64).setWidth 128, x.2.2.2), (x.1, x.2.1 + 8, (x.2.2.1.extractLsb' 64 64).setWidth 128, x.2.2.2)]
          else [x]) ∧
        (a.lanes.Pairwise fun x y => x.va.toNat / 32 ≤ y.va.toNat / 32) ∧
        (∀ l ∈ a.lanes, l.done = false ∧ ∃ x ∈ r.lanes, ∃ pa, l.lane = x.1 ∧
          s.checkLane x.2.1 r.size.toNat r.kind r.kind.writes (r.kind = .atomic) = .ok pa l.mt l.co ∧
          ((l.va = x.2.1 ∧ l.pa = pa) ∨ (r.size = 4 ∧ l.va = x.2.1 + 8 ∧ l.pa = pa + 8))))

/-- One access performed on an owned line (R198, R199, R205): the new line, the frame, the timestamps, and the value read. -/
def Obligations.NearAccess : Prop :=
  ∀ (s : State) (i : Instr) (c : Ctl) (cost : Nat) (r : Req) (va : Word) (data : BitVec 128) (cmp : Word) (pa : Nat) (co : Bool) (x : L1Line),
    memoryForm s.cur i = some (c, cost, r) → issues i s = true → s.cur.inRegion = false → r.lanes = [(96, va, data, cmp)] →
    s.checkLane va r.size.toNat r.kind r.kind.writes (r.kind = .atomic) = .ok pa .wb co → pa < 2 ^ 52 →
    s.l1? s.cur.core (pa / 128) = some x → x.st = .e → x.poison = 0 → s.split (pa / 128) = false → c.ch ≠ 3 →
    s.cur.life = .running → s.cur.wc = none → s.viral s.cur.ctx = false → (∀ a ∈ s.cur.inflight, a.performed = true ∧ a.id < s.seqCtr) →
    s.cur.counter r.path.toNat < 63 → (∀ e, s.tlb? s.cur.waiter s.cur.ctx va = some e → Pte.d e.leaf = true ∨ Pte.si e.leaf = true) →
    s.storeHeld s.cur s.seqCtr = false →
    (r.kind.writes = true → (s.filter (pa / 2 ^ 15)).holds s.cur.waiter true = false ∧
      (r.size = 4 → (s.filter (pa / 2 ^ 15)).turn = none)) →
    let n := 2 ^ r.size.toNat
    let old := lineBytes x.data (pa % 128) n
    let a : Access := ⟨s.seqCtr, r.path, r.op, c.ch, r.size, [], r.dst, s.cur.pc, s.cur.cpos, true, 0, false, false, false, s.timebase⟩
    let new : Option Nat := if r.size = 4 then (if r.op = .store then some data.toNat else none)
      else a.newValue ⟨96, va, pa, .wb, data, cmp, 0, false, none, co⟩ old
    let ts := max48 s.cur.pts (x.rts + 1)
    ∃ t y, exec i s = .next t ∧ t.l1? s.cur.core (pa / 128) = some y ∧ y.st = .e ∧
      (∀ k, k < 128 → byteOf y.data k =
        match new with
        | some v => if pa % 128 ≤ k ∧ k < pa % 128 + n then BitVec.ofNat 8 (v / 256 ^ (k - pa % 128)) else byteOf x.data k
        | none => byteOf x.data k) ∧
      (∀ l, l ≠ pa / 128 → t.l1? s.cur.core l = s.l1? s.cur.core l) ∧ (∀ k, k ≠ s.cur.core → t.core k = s.core k) ∧
      t.mem = s.mem ∧ (c.ch ≠ 2 → t.coh = s.coh) ∧ t.mgmt = s.mgmt ∧ SameRegisters s.cur t.cur ∧
      (if a.writes then y.wts = (if r.size = 4 then ts + 1 else ts) ∧ y.rts = y.wts ∧ t.cur.pts = y.wts
        else y.wts = x.wts ∧ t.cur.pts = max48 s.cur.pts x.wts ∧
          y.rts = (if r.size = 4 then max48 (max48 x.rts s.cur.pts) t.cur.pts else max48 x.rts s.cur.pts)) ∧
      (r.dst ≠ .none → ∃ b ∈ t.cur.inflight, b.id = s.seqCtr ∧ b.performed = true ∧ b.dst = r.dst ∧ b.size = r.size ∧ b.op = r.op ∧
        b.lanes.map (fun l => (l.lane, l.va, l.pa, l.mt, l.done, l.fault, l.co, l.res)) =
          if r.size = 4 then
            [(96, va, pa, .wb, true, none, co, BitVec.ofNat 128 (old % 2 ^ 64)), (96, va + 8, pa + 8, .wb, true, none, co, BitVec.ofNat 128 (old / 2 ^ 64))]
          else [(96, va, pa, .wb, true, none, co, BitVec.ofNat 128 old)])

/-- The operations of R327, by width in bytes: `m` the old value, `c` the operand. -/
def Obligations.AtomicFunctions : Prop :=
  (∀ m c : BitVec 32,
    atomOp 0 4 m.toNat c.toNat = (m + c).toNat ∧ atomOp 1 4 m.toNat c.toNat = (if m.slt c then m else c).toNat ∧
    atomOp 2 4 m.toNat c.toNat = (if m.slt c then c else m).toNat ∧ atomOp 3 4 m.toNat c.toNat = min m.toNat c.toNat ∧
    atomOp 4 4 m.toNat c.toNat = max m.toNat c.toNat ∧ atomOp 5 4 m.toNat c.toNat = (m &&& c).toNat ∧
    atomOp 6 4 m.toNat c.toNat = (m ||| c).toNat ∧ atomOp 7 4 m.toNat c.toNat = (m ^^^ c).toNat ∧
    atomOp 8 4 m.toNat c.toNat = c.toNat ∧ atomOp 9 4 m.toNat c.toNat = (fp32.addOp .rne false m.toNat c.toNat).val ∧
    atomOp 10 4 m.toNat c.toNat = fp32.minMax false m.toNat c.toNat ∧ atomOp 11 4 m.toNat c.toNat = fp32.minMax true m.toNat c.toNat) ∧
  (∀ m c : BitVec 64,
    atomOp 0 8 m.toNat c.toNat = (m + c).toNat ∧ atomOp 1 8 m.toNat c.toNat = (if m.slt c then m else c).toNat ∧
    atomOp 2 8 m.toNat c.toNat = (if m.slt c then c else m).toNat ∧ atomOp 3 8 m.toNat c.toNat = min m.toNat c.toNat ∧
    atomOp 4 8 m.toNat c.toNat = max m.toNat c.toNat ∧ atomOp 5 8 m.toNat c.toNat = (m &&& c).toNat ∧
    atomOp 6 8 m.toNat c.toNat = (m ||| c).toNat ∧ atomOp 7 8 m.toNat c.toNat = (m ^^^ c).toNat ∧
    atomOp 8 8 m.toNat c.toNat = c.toNat ∧ atomOp 9 8 m.toNat c.toNat = (fp64.addOp .rne false m.toNat c.toNat).val ∧
    atomOp 10 8 m.toNat c.toNat = fp64.minMax false m.toNat c.toNat ∧ atomOp 11 8 m.toNat c.toNat = fp64.minMax true m.toNat c.toNat) ∧
  (∀ w : RR, w.e.toNat % 8 ≠ 0 ∨ 0xC ≤ w.e.toNat / 16 → (Instr.vatom w).wf = false ∧ (Instr.vred w).wf = false ∧ (Instr.satom w).wf = false) ∧
  (∀ w : RR, w.e.toNat % 8 ≠ 0 ∨ w.e.toNat / 16 ≠ 0 → (Instr.vcas w).wf = false ∧ (Instr.scas w).wf = false) ∧
  (∀ w : RR, w.e.getLsbD 3 = true → (∃ n : BitVec 6, n.toNat % 2 = 1 ∧ (w.d = .reg n ∨ w.c = .reg n)) →
    (Instr.vatom w).wf = false ∧ (Instr.vcas w).wf = false)

/-- The return of a load or atomic (R320, R328). -/
def Obligations.LoadReturn : Prop :=
  ∀ (s : State) (a : Access), s.cur.life = .running → s.cur.region = none → s.ev.a = s.cur.core.toNat → s.ev.b = s.cur.slot.toNat →
    s.cur.inflight.find? (fun x => x.id = s.ev.c && x.performed && !x.retired && x.dst ≠ .none) = some a →
    (a.lanes.Pairwise fun x y => x.lane ≠ y.lane ∨ (a.size = 4 ∧ x.va.toNat / 8 % 2 ≠ y.va.toNat / 8 % 2)) →
    ∃ t, exec .loadReturn s = .next t ∧ t = { s with cur := t.cur } ∧
      t.cur = { s.cur with sregs := t.cur.sregs, em := t.cur.em, vregs := t.cur.vregs, k := t.cur.k
                           latches := s.cur.latches.map fun x => if x = .pend a.id then a.latchV else x
                           image := s.cur.image.map fun x => if x = .pend a.id then a.latchV else x
                           inflight := t.cur.inflight } ∧
      t.cur.inflight = settleFrom [] (s.cur.inflight.map fun x => if x.id = a.id then { x with retired := true } else x) ∧
      (∀ r, a.dst = .s r 1 → a.size ≠ 4 → ∀ l rest, a.lanes = l :: rest →
        let n := 8 * 2 ^ a.size.toNat
        t.cur.sregs = (s.cur.swrite r (if a.size.toNat < 3 ∧ a.op = .load true
          then BitVec.ofInt 64 (signedOf n l.res.toNat) else BitVec.ofNat 64 (l.res.toNat % 2 ^ n))).sregs ∧
        (r.toNat < 60 → t.cur.em = s.cur.em) ∧ t.cur.vregs = s.cur.vregs ∧ t.cur.k = s.cur.k) ∧
      (∀ r, a.dst = .s r 2 → a.size = 4 → ∀ l h, a.lanes.find? (fun x => x.va.toNat / 8 % 2 = 0) = some l →
        a.lanes.find? (fun x => x.va.toNat / 8 % 2 = 1) = some h →
        t.cur.sregs = ((s.cur.swrite r (l.res.setWidth 64)).swrite (r + 1) (h.res.setWidth 64)).sregs ∧
        t.cur.vregs = s.cur.vregs ∧ t.cur.k = s.cur.k) ∧
      (∀ r n k, a.dst = .v r n k → n ≤ 4 → t.cur.sregs = s.cur.sregs ∧ t.cur.em = s.cur.em ∧
        (∀ (q : BitVec 6) (i : Fin 96), (∀ j, j < n → q ≠ r + BitVec.ofNat 6 j) → (t.cur.vread q)[i] = (s.cur.vread q)[i]) ∧
        (∀ (j : Nat) (i : Fin 96), j < n → (∀ l ∈ a.lanes, l.lane.toNat ≠ i.val) →
          (t.cur.vread (r + BitVec.ofNat 6 j))[i] = (s.cur.vread (r + BitVec.ofNat 6 j))[i]) ∧
        (∀ (j : Nat) (i : Fin 96), j < n → ∀ l ∈ a.lanes, l.lane.toNat = i.val → (a.size = 4 → l.va.toNat / 8 % 2 = j / 2) →
          (t.cur.vread (r + BitVec.ofNat 6 j))[i] =
            (if a.size.toNat < 2 then
              (if a.op = .load true then BitVec.ofInt 32 (signedOf (8 * 2 ^ a.size.toNat) l.res.toNat)
                else BitVec.ofNat 32 (l.res.toNat % 2 ^ (8 * 2 ^ a.size.toNat)))
              else (l.res >>> (32 * (j % 2))).setWidth 32)) ∧
        (k = false → t.cur.k = s.cur.k) ∧
        (k = true → ∀ i : Fin 96, t.cur.k.getLsbD i =
          (a.lanes.any fun l => l.lane.toNat = i.val && l.res.toNat % 2 ^ (8 * 2 ^ a.size.toNat) = l.cmp.toNat % 2 ^ (8 * 2 ^ a.size.toNat))))

/-- Scratchpad forms (R323 to R326) and the full/empty step (R192, R193), by `padForm`; forms that change tags look at waiting accesses. -/
def Obligations.ScratchpadAccess : Prop :=
  ∀ (s : State) (i : Instr) (f : PadForm), padForm s i = some f → issues i s = true → s.cur.life = .running → s.cur.satisfied = none →
    (s.cur.em = 0 → ∃ t, exec i s = .next t ∧ Retires s t f.w.ctl 1
      (if f.reads || f.tag then .v (Vector.replicate 96 0) (Vector.replicate 96 0) else .none) s.cur) ∧
    ((∃ i ∈ s.cur.activeLanes, f.place i = none) → ∃ recs, exec i s = .next (s.trapLanes recs) ∧
      recs.map (fun r => r.1) = ((s.cur.activeLanes.filter fun i => (f.place i).isNone).map lane7)) ∧
    (s.cur.em ≠ 0 → (∀ i ∈ s.cur.activeLanes, (f.place i).isSome = true) → s.cur.counter f.path.toNat < 63 →
      s.cur.mayRelease f.rel = true → (f.acq ≠ 0 → s.cur.readsOpen = false) →
      (∀ b, f.await = some b → (∃ i ∈ s.cur.activeLanes, ∃ p, f.place i = some p ∧ (s.pad p).full ≠ b) →
        ∃ t x, exec i s = .next t ∧ t.cur.wait = some x ∧ x.kind = 0 ∧ x.expect = (if b then 1 else 0) ∧
          SameRegisters s.cur t.cur ∧ t.cur.pc = s.cur.pc ∧ t.cur.cpos = s.cur.cpos ∧ t.mem = s.mem ∧ ∀ p, t.pad p = s.pad p) ∧
      ((∀ i ∈ s.cur.activeLanes, ∀ p, f.place i = some p →
          (∀ b, f.await = some b → (s.pad p).full = b) ∧ (f.reads = true → (s.pad p).poison = false)) →
        ∃ u t a, exec i s = .next (if f.leaves.isSome then t.feWake else t) ∧
          EntersDone u t f.w.ctl (vectorCycles s.cur) (if f.reads || f.tag then .pend a.id else .none) a ∧
          u.mem = s.mem ∧ u.mgmt = s.mgmt ∧ u.coh = s.coh ∧ SameRegisters s.cur u.cur ∧
          (∀ p, (∀ i ∈ s.cur.activeLanes, ∀ q, f.place i = some q → ¬(placeCore q = placeCore p ∧ placeWord q = placeWord p)) →
            u.pad p = s.pad p) ∧
          (∀ i ∈ s.cur.activeLanes, ∀ p, f.place i = some p →
            (∀ j ∈ s.cur.activeLanes, i < j → ∀ q, f.place j = some q → ¬(placeCore q = placeCore p ∧ placeWord q = placeWord p)) →
            u.pad p = { s.pad p with
              full := f.leaves.getD (s.pad p).full
              data := if f.writes then (s.cur.srcV f.w.d)[i] else (s.pad p).data
              poison := if f.writes then false else (s.pad p).poison }) ∧
          (a.lanes.map fun l => (l.lane, l.va, l.res)) = s.cur.activeLanes.map fun i => (lane7 i, f.va i,
            if f.tag then (if (s.pad ((f.place i).getD 0)).full then 1 else 0) else ((s.pad ((f.place i).getD 0)).data.setWidth 128))))

/-- XLD and XST (R191, R324). -/
def Obligations.ChipScratchpadAccess : Prop :=
  ∀ (s : State) (w : I16) (wr : Bool) (i : Instr), i = (if wr then .xst w else .xld w) → issues i s = true → s.cur.life = .running →
    let ea (i : Fin 96) : Word := vectorEa s.cur w.a w.b (w.imm.signExtend 64) i
    (s.cur.em = 0 → ∃ t, exec i s = .next t ∧ Retires s t w.ctl 1
      (if wr then .none else .v (Vector.replicate 96 0) (Vector.replicate 96 0)) s.cur) ∧
    (s.cur.em ≠ 0 → s.cur.counter 4 < 63 →
      (∀ i ∈ s.cur.activeLanes, (ea i).toNat % 4 = 0 ∧ (s.chipReach s.cur (ea i)).isSome = true ∧
        s.islandRuns (96 + (ea i).toNat / 4 / 2 ^ 20) = true) →
      (wr = false → ∀ i ∈ s.cur.activeLanes, (ea i).toNat / 32 ∉ s.coh.xpoison) →
      ∃ u t a, exec i s = .next t ∧ EntersDone u t w.ctl (vectorCycles s.cur) (if wr then .none else .pend a.id) a ∧
        u = { s with coh := { s.coh with xspad := u.coh.xspad, xpoison := u.coh.xpoison } } ∧
        (∀ n, (wr = false ∨ ∀ i ∈ s.cur.activeLanes, (ea i).toNat / 4 ≠ n) → u.xword n = s.xword n) ∧
        (wr = true → ∀ i ∈ s.cur.activeLanes, (∀ j ∈ s.cur.activeLanes, i < j → ea j ≠ ea i) →
          u.xword ((ea i).toNat / 4) = (s.cur.srcV w.d)[i]) ∧
        (wr = false → u.coh.xpoison = s.coh.xpoison ∧
          (a.lanes.map fun l => (l.lane, l.res)) = s.cur.activeLanes.map fun i => (lane7 i, (s.xword ((ea i).toNat / 4)).setWidth 128)))

/-- SYNA and SYNW (R331 to R333); `synOp` is the table of R332 and is spelled out. -/
def Obligations.SynchronisationOperations : Prop :=
  (∀ (s : State) (w : RR), issues (.syna w) s = true → s.cur.life = .running → s.cur.counter 6 < 63 → s.cur.behind = false →
    s.islandRuns 127 = true → s.synFault (s.cur.srcS w.a) true = none →
    (w.e.getLsbD 7 = true → s.cur.wc = none ∧ s.cur.released (w.e.toNat / 8 % 8) = true) →
    let addr := (s.cur.srcS w.a).toNat
    let key := synKey s.cur.ctx addr
    let armKey := synKey s.cur.ctx (addr + 4)
    let s1 := if w.e.getLsbD 7 then s.raiseClocks s.cur (w.e.toNat / 8 % 8) else s
    let v := (s1.synIn key).syn key
    let ts := max48 s.cur.pts (v.rts + 1)
    let c : Half := (s.cur.srcS w.c).setWidth 32
    let new : Half := match w.e.toNat % 8 with
      | 0 => v.val + c
      | 1 => v.val - c
      | 2 => c
      | 3 => v.val &&& c
      | 4 => v.val ||| c
      | 5 => if c < v.val then v.val else c
      | 6 => if c < v.val then v.val - c else 0
      | _ => v.val
    let ends : Prop := new = 0 ∧ s.joinWaits s.cur.ctx addr = true
    ∃ u t a, exec (.syna w) s = .next t ∧ EntersDone u t w.ctl 1 (if scalarReg w.d = .none then .none else .pend a.id) a ∧
      (u.syn key).wts = ts ∧ (¬ends → (u.syn key).val = new) ∧
      (ends → key ∈ s.coh.resident → armKey ∈ s.coh.resident → (u.syn key).val = (s.syn armKey).val) ∧
      (s.cur.wait = none → (∀ g ∈ s.parked, g.wait = none) → (u.syn key).rts = ts) ∧
      (key ∈ s.coh.resident → (ends → armKey ∈ s.coh.resident) → (∀ k, k ≠ key → u.syn k = s.syn k) ∧ u.mem = s.mem) ∧
      u.mgmt = s.mgmt ∧ SameRegisters s.cur u.cur ∧ (w.e.getLsbD 6 = false → u.cur.pts = ts) ∧
      a.dst = scalarReg w.d ∧ a.path = 6 ∧ a.lanes.map (fun l => l.res) = [v.val.setWidth 128]) ∧
  (∀ (s : State) (w : RR), issues (.synw w) s = true → s.cur.life = .running → s.cur.counter 6 < 63 → s.cur.behind = false →
    s.islandRuns 127 = true → s.cur.satisfied = none → s.synFault (s.cur.srcS w.a) false = none →
    (w.e.getLsbD 7 = true → s.cur.wc = none ∧ s.cur.released (w.e.toNat / 8 % 8) = true) →
    let key := synKey s.cur.ctx (s.cur.srcS w.a).toNat
    let s1 := if w.e.getLsbD 7 then s.raiseClocks s.cur (w.e.toNat / 8 % 8) else s
    let v := (s1.synIn key).syn key
    let c : Half := (s.cur.srcS w.c).setWidth 32
    let holds : Bool := match w.e.toNat % 8 with
      | 0 => v.val = c
      | 1 => v.val ≠ c
      | 2 => v.val < c
      | 3 => v.val ≤ c
      | 4 => c < v.val
      | _ => c ≤ v.val
    (holds = true → ∃ u t a, exec (.synw w) s = .next t ∧
      EntersDone u t w.ctl 1 (if scalarReg w.d = .none then .none else .pend a.id) a ∧
      u.syn key = { v with rts := max48 v.rts (max48 s.cur.pts v.wts) } ∧
      (key ∈ s.coh.resident → (∀ k, k ≠ key → u.syn k = s.syn k) ∧ u.mem = s.mem) ∧ u.mgmt = s.mgmt ∧
      SameRegisters s.cur u.cur ∧ a.dst = scalarReg w.d ∧ a.lanes.map (fun l => l.res) = [v.val.setWidth 128]) ∧
    (holds = false → ∃ t x, exec (.synw w) s = .next t ∧ t.cur.wait = some x ∧ x.kind = 3 ∧ x.obj = s.cur.srcS w.a ∧ t.syn key = v ∧
      (key ∈ s.coh.resident → (∀ k, t.syn k = s.syn k) ∧ t.mem = s.mem) ∧ SameRegisters s.cur t.cur ∧
      t.cur.pc = s.cur.pc ∧ t.cur.cpos = s.cur.cpos)) ∧
  (∀ (s : State) (w : RR) (a : Access), issues (.synw w) s = true → s.cur.life = .running → s.cur.satisfied = some a →
    ∃ u t b, exec (.synw w) s = .next t ∧ EntersDone u t w.ctl 1 (if a.dst = .none then .none else .pend b.id) b ∧
      b.dst = a.dst ∧ b.lanes = a.lanes ∧ b.path = a.path ∧ u.mem = s.mem ∧ u.mgmt = s.mgmt ∧ u.coh = s.coh ∧ SameRegisters s.cur u.cur) ∧
  (∀ (s : State) (w : RR) (addr : Word), addr = s.cur.srcS w.a →
    (addr.toNat % 4 ≠ 0 ∨ 2 ^ 32 ≤ addr.toNat ∨ s.regBits (Reg.sync s.cur.ctx.toNat) 0 0 = 0) →
    ∃ k sub, k = (if addr.toNat % 4 ≠ 0 then 1 else 2) ∧ sub = (if addr.toNat % 4 ≠ 0 then 0 else 2) ∧
      (issues (.syna w) s = true → exec (.syna w) s = .next (s.trapLanes [(96, ⟨addr, k, 2, true, true, sub, 0⟩)])) ∧
      (issues (.synw w) s = true → s.cur.satisfied = none →
        exec (.synw w) s = .next (s.trapLanes [(96, ⟨addr, k, 2, false, true, sub, 0⟩)])))

/-- FENCE (R215, R334), TLWAIT (R338), WAITC (R339). -/
def Obligations.FencesAndWaits : Prop :=
  (∀ (s : State) (w : RR), issues (.fence w) s = true → s.cur.wc = none → s.cur.life = .running →
    let scope := w.e.toNat / 8 % 8
    ((w.e.getLsbD 7 = true ∧ s.cur.inflight.all (fun a => a.performed && (scope ≠ 4 || a.acks = 0)) = false) ∨
        (w.e.getLsbD 6 = true ∧ ∃ a ∈ s.cur.inflight, a.reads = true ∧ a.performed = false ∧ ∃ l ∈ a.lanes, l.done = false) →
      ∃ t x, exec (.fence w) s = .next t ∧ t.cur.wait = some x ∧ x.kind = 15 ∧ t.cur.pc = s.cur.pc ∧ t.cur.cpos = s.cur.cpos ∧
        SameRegisters s.cur t.cur ∧ t.mem = s.mem ∧ t.sch = s.sch) ∧
    ((w.e.getLsbD 7 = true → s.cur.inflight.all (fun a => a.performed && (scope ≠ 4 || a.acks = 0)) = true) →
      (w.e.getLsbD 6 = true → ∀ a ∈ s.cur.inflight, a.reads = true → a.performed = true ∨ ∀ l ∈ a.lanes, l.done = true) →
      ∃ u t, exec (.fence w) s = .next t ∧ Retires u t w.ctl 1 .none u.cur ∧
        u.cur = { s.cur with pts := u.cur.pts } ∧ u.mem = s.mem ∧ u.mgmt = s.mgmt ∧ u.coh = s.coh ∧ u.parked = s.parked ∧
        (let up (b : Bool) (x : BitVec 48) : BitVec 48 := if w.e.getLsbD 7 && b then max48 x s.cur.pts else x
         let clusterClock (x : State) : BitVec 48 := Tab.get 0 x.sch.cluClocks (s.clusterOf s.cur)
         let latest := max48 (u.core s.cur.core).clock (clusterClock u)
         (u.core s.cur.core).clock = up (1 ≤ scope) (s.core s.cur.core).clock ∧ clusterClock u = up (2 ≤ scope) (clusterClock s) ∧
         u.sch.partClock = up (3 ≤ scope) s.sch.partClock ∧
         (w.e.getLsbD 6 = true → u.cur.pts = max48 s.cur.pts (max48 s.cur.pts (match scope with
           | 0 => s.cur.pts
           | 1 => (u.core s.cur.core).clock
           | 2 => latest
           | _ => max48 latest u.sch.partClock)))) ∧
        (w.e.getLsbD 6 = false → u.cur.pts = s.cur.pts))) ∧
  (∀ (s : State) (w : RR) (n : BitVec 6), issues (.tlwait w) s = true → s.cur.life = .running → w.a = .reg n →
    let at' := (s.coreCtx s.cur.core s.cur.ctx).tl.toList.getD n.toNat 0
    ((s.cur.srcS w.b).toNat ≤ at'.toNat → ∃ u t, exec (.tlwait w) s = .next t ∧ Retires u t w.ctl 1 .none u.cur ∧
      u.cur = { s.cur with pts := u.cur.pts, gsf := u.cur.gsf } ∧ u.mem = s.mem ∧
      u.cur.pts = max48 s.cur.pts ((s.coreCtx s.cur.core s.cur.ctx).tlts.toList.getD n.toNat 0) ∧
      u.cur.gsf &&& s.cur.gsf = s.cur.gsf) ∧
    (at'.toNat < (s.cur.srcS w.b).toNat → ∃ t x, exec (.tlwait w) s = .next t ∧ t.cur.wait = some x ∧ x.kind = 1 ∧
      x.obj = BitVec.ofNat 64 n.toNat ∧ x.expect = s.cur.srcS w.b ∧ t.cur.pc = s.cur.pc ∧ t.cur.cpos = s.cur.cpos ∧
      SameRegisters s.cur t.cur ∧ t.mem = s.mem)) ∧
  (∀ (s : State) (w : RR) (n : BitVec 6), issues (.waitc w) s = true → w.a = .reg n → (n = 1 → s.cur.wc = none) →
    (s.cur.counter n.toNat ≤ (s.cur.srcS w.b).toNat → ∃ t, exec (.waitc w) s = .next t ∧ Retires s t w.ctl 1 .none s.cur) ∧
    ((s.cur.srcS w.b).toNat < s.cur.counter n.toNat → ∃ t x, exec (.waitc w) s = .next t ∧ t.cur.wait = some x ∧ x.kind = 2 ∧
      x.obj = BitVec.ofNat 64 n.toNat ∧ t.cur.pc = s.cur.pc ∧ t.cur.cpos = s.cur.cpos ∧ SameRegisters s.cur t.cur ∧ t.mem = s.mem))

/-- The range operations (R336). -/
def Obligations.RangeOperations : Prop :=
  ∀ (s : State) (w : RR) (i : Instr), i ∈ [.rwb w, .rinv w, .rwbi w] → issues i s = true →
    let a := s.cur.srcS w.a
    let n := (s.cur.srcS w.b).toNat
    (n = 0 → ∃ t, exec i s = .next t ∧ Retires s t w.ctl 1 .none s.cur) ∧
    (n ≠ 0 → (canonical a = false ∨ canonical (a + BitVec.ofNat 64 (n - 1)) = false ∨ 2 ^ 64 < a.toNat + n) →
      exec i s = .next (s.trapLanes [(96, ⟨a, 2, 0, decide (i ≠ .rinv w), false, 0, 0⟩)])) ∧
    (∀ (pa : Nat → Nat) (mt : Nat → MType) (co : Nat → Bool), n ≠ 0 → canonical a = true →
      canonical (a + BitVec.ofNat 64 (n - 1)) = true → a.toNat + n ≤ 2 ^ 64 →
      let count := (a.toNat + n - 1) / 128 - a.toNat / 128 + 1
      (∀ k, k < count →
        let va : Word := BitVec.ofNat 64 (128 * (a.toNat / 128 + k))
        (s.tlb? s.cur.waiter s.cur.ctx va).isSome = true ∧ s.translate s.cur.waiter s.cur.ctx va .load = .ok (pa k) (mt k) (co k) ∧
        (mt k = .wb ∨ mt k = .sm) ∧ (pa k < 2 ^ 52 ∨ count = 1) ∧
        ∀ x, s.l1? s.cur.core (pa k / 128) = some x → x.st = .e → (s.home (pa k / 128)).st = .e s.cur.core) →
      ((s.mmu.skims = [] ∧ s.cxl.cuts = []) ∨ s.rangeHeld a ((a.toNat % 0x8000 + n) / 0x8000 + 1) = false) →
      s.cur.life = .running → s.cur.wc = none → s.cur.inflight = [] →
      ∃ t, exec i s = .next t ∧
        t.cur = { s.cur.stepped .none with inflight := t.cur.inflight, pts := t.cur.pts, region := t.cur.region } ∧
        (∀ k, k < count → ∀ x, t.l1? s.cur.core (pa k / 128) = some x → i = .rwb w ∧ (x.st = .s ∨ x.dirty = 0)) ∧
        ((∀ k, k < count → pa k < 2 ^ 52 ∧ ∀ m ∈ s.coh.msgs, m.line ≠ pa k / 128) →
          (∀ j k, j < k → k < count → pa j / 128 ≠ pa k / 128) →
          ∀ k, k < count → ∀ x, s.l1? s.cur.core (pa k / 128) = some x →
            (x.st = .e → secondTier (pa k) = false ∨ i = .rwb w → (t.homeData (pa k / 128)).1 = x.data) ∧
            (x.st = .e → secondTier (pa k) = true → i ≠ .rwb w → t.memLine (pa k / 128) = x.data ∨
              ∃ y ∈ t.coh.acks, ∃ p, y.home = true ∧ y.write = some (pa k / 128, x.data, BitVec.allOnes 128, p)) ∧
            (x.st = .m → x.dirty ≠ 0 → i ≠ .rinv w → ∃ m ∈ t.coh.msgs, ∃ ids, m.line = pa k / 128 ∧ m.core = s.cur.core ∧
              m.kind = .merge x.data x.dirty x.poison ids false)))

/-- LOCK and UNLOCK of a line that is in the L2 (R196, R337). -/
def Obligations.LockOperations : Prop :=
  ∀ (s : State) (w : RR) (pa : Nat) (co : Bool) (l : L2Line), s.cur.life = .running → s.cur.counter 5 < 63 → s.awaits s.cur.waiter = false →
    s.translate s.cur.waiter s.cur.ctx (s.cur.srcS w.a) .load = .ok pa .wb co → pa < 2 ^ 52 → s.pageHeld pa co s.seqCtr = false → s.l2? (pa / 128) = some l →
    let o := Reg.lquota s.cur.ctx.toNat
    let used := bits (s.reg o) 47 32
    let done (i : Instr) (status : Nat) (locks : List (BitVec 12)) (n : Nat) : Prop :=
      ∃ u t a y, exec i s = .next t ∧ EntersDone u t w.ctl 1 (.pend a.id) a ∧ a.dst = scalarReg w.d ∧
        a.lanes.map (fun x => x.res) = [BitVec.ofNat 128 status] ∧ u.l2? (pa / 128) = some y ∧ y.locks = locks ∧
        bits (u.reg o) 47 32 = n ∧ SameRegisters s.cur u.cur ∧
        (i = .unlock w ∨ l.nc = false ∨ (secondTier pa = true ∧ co = false) → y.data = l.data ∧ u.mem = s.mem)
    (issues (.lock w) s = true → s.cur.ctx ∈ l.locks → done (.lock w) 0 l.locks used) ∧
    (issues (.lock w) s = true → s.cur.ctx ∉ l.locks → bits (s.reg o) 63 48 ≤ used → done (.lock w) 1 l.locks used) ∧
    (issues (.lock w) s = true → s.cur.ctx ∉ l.locks → used < bits (s.reg o) 63 48 → (l.locks ≠ [] ∨ (s.touchL2 (pa / 128)).lockedWays (pa / 128) < 12) →
      done (.lock w) 0 (l.locks ++ [s.cur.ctx]) (used + 1)) ∧
    (issues (.lock w) s = true → s.cur.ctx ∉ l.locks → used < bits (s.reg o) 63 48 → l.locks = [] → 12 ≤ (s.touchL2 (pa / 128)).lockedWays (pa / 128) →
      done (.lock w) 2 l.locks used) ∧
    (issues (.unlock w) s = true → s.cur.ctx ∈ l.locks → l.locks.Nodup → 0 < used →
      done (.unlock w) 0 (l.locks.erase s.cur.ctx) (used - 1)) ∧
    (issues (.unlock w) s = true → s.cur.ctx ∉ l.locks → done (.unlock w) 0 l.locks used)

/-- AREG (R341), AABT (R354), ACMT of a region whose lanes all fail (R347, R350) and of one lane whose lines are all held E (R350 to R352), and
misuse (R348). `f` gives the physical address of a lane's words. That one step takes the lanes up to the first that has not failed is the
model's choice (log 21). -/
def Obligations.RegionInstructions : Prop :=
  (∀ (s : State) (w : RR), issues (.areg w) s = true → s.cur.hmode = false → s.cur.inflight = [] → w.e.getLsbD 6 = false →
    (8 < (maskBits (s.cur.srcS w.a)).length → exec (.areg w) s = .next (s.trap .group 0x11 [])) ∧
    ((maskBits (s.cur.srcS w.a)).length ≤ 8 → ∃ t r, exec (.areg w) s = .next t ∧ t = { s with cur := t.cur, cores := t.cores } ∧
      t.cur = { s.cur.stepped .none with region := some r } ∧ r.lanes = s.cur.em &&& s.cur.live ∧ r.depth0 = s.cur.msdep.toNat ∧
      r.count = 0 ∧ r.long = false ∧ r.committing = false ∧ r.state.map (fun l => l.lane) = s.cur.activeLanes.map lane7 ∧
      (∀ l ∈ r.state, l.tags = [] ∧ l.reads = [] ∧ l.cons = [] ∧ l.writes = [] ∧ l.failed = false ∧
        ∀ (i : Fin 96), l.lane = lane7 i → l.ckpt = (maskBits (s.cur.srcS w.a)).map fun k => (k, (s.cur.vread k)[i])))) ∧
  (∀ (s : State) (w : RR) (i : Instr), i ∈ [.acmt w, .aabt w] → issues i s = true →
    (s.cur.hmode = true ∨ s.cur.region = none ∨ ∃ r, s.cur.region = some r ∧ s.cur.msdep.toNat ≠ r.depth0) →
    exec i s = .next (s.trap .group 0x17 [])) ∧
  (∀ (s : State) (w : RR) (r : Region) (i : Instr), issues i s = true → s.cur.hmode = false → s.cur.region = some r →
    s.cur.msdep.toNat = r.depth0 → s.cur.inflight = [] → s.cur.wc = none →
    (i = .aabt w ∨ (i = .acmt w ∧ r.ord.getLsbD 1 = false ∧ r.committing = false ∧ r.nextLane = 0 ∧ r.kSoFar = 0 ∧ r.recs = [] ∧
      (r.long = true ∨ ∀ l ∈ r.state, l.failed = true))) →
    ∃ t, exec i s = .next t ∧ t.cur.region = none ∧ t.cur.k = 0 ∧ t.cur.em = r.lanes &&& s.cur.live ∧ t.cur.inflight = [] ∧
      t.cur.vregs = (r.state.foldl Group.restore s.cur).vregs ∧ t.cur.sregs = s.cur.sregs ∧ t.cur.preds = s.cur.preds ∧
      t.cur.mstack = s.cur.mstack ∧ t.mem = s.mem ∧ t.coh = s.coh ∧
      t.cur.pc = (s.cur.stepped .none).pc ∧ t.cur.cpos = (s.cur.stepped .none).cpos) ∧
  (∀ (s : State) (w : RR) (r : Region) (failed rest : List RLane) (l : RLane) (f : Word → Nat), issues (.acmt w) s = true →
    s.cur.life = .running → s.cur.hmode = false → s.cur.region = some r → s.cur.msdep.toNat = r.depth0 → s.cur.wc = none →
    r.ord.getLsbD 1 = false → r.recs = [] → r.long = false → s.viral s.cur.ctx = false →
    ((r.committing = false ∧ s.cur.inflight = []) ∨ (r.committing = true ∧ ∃ a, s.cur.inflight = [a] ∧ a.op = .commit)) →
    r.state.drop r.nextLane = failed ++ l :: rest → (∀ m ∈ failed, m.failed = true ∧ m.lane.toNat < 96) → l.failed = false →
    l.lane.toNat < 96 → l.reads.length ≤ 4 →
    let size (e : WEntry) : Nat := if e.two then 8 else 4
    (∀ e ∈ l.writes, (∃ co, s.checkLane e.va (if e.two then 3 else 2) .store true true = .ok (f e.va) .wb co) ∧
      ∀ x, s.tlb? s.cur.waiter s.cur.ctx e.va = some x → Pte.d x.leaf = true ∨ Pte.si x.leaf = true) →
    (∀ x ∈ l.reads, ∃ co, s.checkLane x.va 2 .load false true = .ok (f x.va) .wb co) →
    (∀ va, (va ∈ l.writes.map WEntry.va ∨ va ∈ l.reads.map Tracked.va) →
      f va < 2 ^ 52 ∧
      (∃ y, s.l1? s.cur.core (f va / 128) = some y ∧ y.st = .e ∧ (va ∈ l.reads.map Tracked.va → y.poison = 0)) ∧ s.split (f va / 128) = false ∧
      (∀ co n, s.pageHeld (f va) co n = false) ∧
      (s.filter (f va / 2 ^ 15)).turn = none ∧ (s.filter (f va / 2 ^ 15)).holds s.cur.waiter true = false) →
    let fresh := l.reads.map fun x => match s.l1? s.cur.core (f x.va / 128) with
      | some y => BitVec.ofNat 32 (lineBytes y.data (f x.va % 128) 4)
      | none => 0
    let changed : BitVec 4 := (List.range 4).foldl (fun m j => match l.reads[j]?, fresh[j]? with
      | some x, some v => if x.val = v then m else m ||| BitVec.ofNat 4 (2 ^ j)
      | _, _ => m) 0
    let commits : Bool := changed = 0 || l.repairable changed fresh
    let g := failed.foldl Group.restore s.cur
    let h := if commits then g.patch l changed fresh else g.restore l
    let k := if commits then r.kSoFar ||| BitVec.ofNat 96 (2 ^ l.lane.toNat) else r.kSoFar
    ∃ t, exec (.acmt w) s = .next t ∧ t.cur.vregs = h.vregs ∧ t.cur.sregs = s.cur.sregs ∧ t.cur.preds = s.cur.preds ∧
      t.cur.mstack = s.cur.mstack ∧ t.mem = s.mem ∧ t.coh = s.coh ∧
      (if rest = [] then t.cur.region = none ∧ t.cur.em = r.lanes &&& s.cur.live ∧ t.cur.inflight = [] ∧ t.cur.k = k ∧
          t.cur.pc = (s.cur.stepped .none).pc ∧ t.cur.cpos = (s.cur.stepped .none).cpos
        else t.cur.region = some { r with
            committing := true, since := (t.cur.region.map Region.since).getD 0, lastTs := (t.cur.region.map Region.lastTs).getD 0
            nextLane := r.nextLane + failed.length + 1, kSoFar := k, held := [] } ∧
          (∃ a, t.cur.inflight = [a] ∧ a.op = .commit) ∧ t.cur.em = s.cur.em ∧ t.cur.k = s.cur.k ∧ t.cur.pc = s.cur.pc ∧ t.cur.cpos = s.cur.cpos) ∧
      (∀ e ∈ l.writes, (∀ d ∈ l.writes, d = e ∨ f d.va + size d ≤ f e.va ∨ f e.va + size e ≤ f d.va) →
        ∃ x y, s.l1? s.cur.core (f e.va / 128) = some x ∧ t.l1? s.cur.core (f e.va / 128) = some y ∧ y.st = .e ∧
          (if commits then lineBytes y.data (f e.va % 128) 4 = (e.tlo.patch changed fresh e.lo).toNat ∧
              (e.two = true → lineBytes y.data (f e.va % 128 + 4) 4 = (e.thi.patch changed fresh e.hi).toNat)
            else y.data = x.data)))

/-- The restore of R350 and the patch of R352, lane by lane. -/
def Obligations.RestoreIsTheCheckpoint : Prop :=
  (∀ (g : Group) (l : RLane) (q : BitVec 6) (i : Fin 96), (l.ckpt.Pairwise fun x y => x.1 ≠ y.1) →
    (∀ h, l.lane = lane7 i → (q, h) ∈ l.ckpt → ((g.restore l).vread q)[i] = h) ∧
    ((l.lane ≠ lane7 i ∨ ∀ h, (q, h) ∉ l.ckpt) → ((g.restore l).vread q)[i] = (g.vread q)[i])) ∧
  (∀ (g : Group) (l : RLane) (changed : BitVec 4) (fresh : List Half) (q : BitVec 6) (i : Fin 96),
    (l.tags.Pairwise fun x y => x.1 ≠ y.1) → (∀ x ∈ l.tags, x.1 < 64) →
    (∀ j c, l.lane = lane7 i → (q.toNat, .word j c) ∈ l.tags → changed.getLsbD j.toNat = true →
      ((g.patch l changed fresh).vread q)[i] = fresh.getD j.toNat 0 + c) ∧
    ((l.lane ≠ lane7 i ∨ ∀ j c, (q.toNat, .word j c) ∈ l.tags → changed.getLsbD j.toNat = false) →
      ((g.patch l changed fresh).vread q)[i] = (g.vread q)[i]))

/-- The order of the checks (R174, R250, R258, R348). R138 says what the deadline does and not where among them it comes: that it comes first is the
model's choice (log 65), as is when an instruction's own operands are checked (log 41). -/
def Obligations.IssueChecks : Prop :=
  ∀ (s : State) (i : Instr) (o : OpInfo), i.info = some o →
    let late : Prop := s.cur.dline = 0 ∧ s.cur.hmode = false ∧ isYieldOrPhase o = false
    let wrong : Prop := o.ok = false ∨ opVectorLatch o s.cur = true
    let skipped : Prop := s.cur.guards o.body.ctl = false
    let misuse : Prop := s.cur.region.isSome = true ∧ s.cur.hmode = false ∧ regionForbids o = true
    (late → exec i s = .next (s.trap .group 0x16 [])) ∧
    (¬late → wrong → exec i s = .next (s.trap .group 0x11 [])) ∧
    (¬late → ¬wrong → ownChecks i = true → skipped → exec i s = .next (s.trap .group 0x11 []) ∨ ∃ t, exec i s = .next t ∧
      (if isYieldOrPhase o then Moves s t o.body.ctl 1 s.cur.atLast { s.cur.stepped .none with dline := s.cur.dline }
        else Retires s t o.body.ctl 1 (latchZero o.latch) s.cur)) ∧
    (¬late → ¬wrong → ownChecks i = true → ¬skipped → opUnderrun o s.cur = true ∨ misuse → exec i s = .next (s.trap .group 0x11 []) ∨
      exec i s = .next (s.trap .group (if opUnderrun o s.cur then 0x13 else 0x17) [])) ∧
    (¬late → ¬wrong → ownChecks i = false → skipped → ∃ t, exec i s = .next t ∧
      (if isYieldOrPhase o then Moves s t o.body.ctl 1 s.cur.atLast { s.cur.stepped .none with dline := s.cur.dline }
        else Retires s t o.body.ctl 1 (latchZero o.latch) s.cur)) ∧
    (¬late → ¬wrong → ownChecks i = false → ¬skipped → opUnderrun o s.cur = true → exec i s = .next (s.trap .group 0x13 [])) ∧
    (¬late → ¬wrong → ownChecks i = false → ¬skipped → opUnderrun o s.cur = false → misuse → exec i s = .next (s.trap .group 0x17 [])) ∧
    (¬late → ¬wrong → ¬skipped → opUnderrun o s.cur = false → ¬misuse → opHazard o s.cur = false → issues i s = true)

/-- Trap entry (R112), shown by the trap that TRAP takes (R384); `frameWords` lays out the frame. -/
def Obligations.TrapEntry : Prop :=
  (∀ (s u : State) (w : I16), issues (.trap w) s = true → s.cur.hmode = false → s.cur.wc = none →
    let l := s.launch s.cur.launch
    let f := s.frameAddr s.cur
    let s1 := (s.setLaunch s.cur.launch { l with fkind := if l.fkind = 0 then 0x10 else l.fkind, ntrap := satInc l.ntrap }).setCur s.cur.failRegion
    l.traph ≠ 0 → s.tfen s.cur.ctx = true →
    s1.frameHeld s1.cur = false → s.cur.frameLoads = false → ∀ ts,
    s1.writeLines s.cur.waiter s.cur.ctx f (frameWords s1.cur s.timebase s.cur.pc s.cur.cpos.toNat 2 0x10 []) 0 96 = .ok (u, ts) →
    ∃ t, exec (.trap w) s = .next t ∧ t = { u with cur := t.cur, cores := t.cores, cxl := { u.cxl with filter := t.cxl.filter } } ∧
      t.cur = { u.cur.swrite 48 f with
        pc := l.traph, cpos := 0, inClause := false, latches := [], wait := none, image := u.cur.latches.take 8
        hmode := true, hkind := 0x10, region := t.cur.region, pts := max48 u.cur.pts ts, sweep := none } ∧
      ∀ n, n ≠ u.cur.core → t.core n = u.core n) ∧
  (∀ (g : Group) (time pc : Word) (cpos cls : Nat) (kind : BitVec 8) (recs : List (BitVec 7 × FRec)), cpos < 16 → cls < 4 → recs.length < 128 →
    let ws := frameWords g time pc cpos cls kind recs
    ws.getD 0 0 = pc ∧ bits (ws.getD 1 0) 63 60 = cpos ∧ bits (ws.getD 1 0) 59 58 = cls ∧ bits (ws.getD 1 0) 57 50 = kind.toNat ∧
    bits (ws.getD 1 0) 49 42 = g.msdep.toNat ∧ bits (ws.getD 1 0) 41 35 = recs.length ∧ bits (ws.getD 1 0) 34 0 = 0 ∧
    ws.getD 2 0 = g.k.setWidth 64 ∧ ws.getD 3 0 = (g.k >>> 64).setWidth 64 ∧ ws.getD 4 0 = g.preds.setWidth 64 ∧ ws.getD 5 0 = time ∧
    (∀ i, i < 16 → ws.getD (16 + i) 0 = g.sread (BitVec.ofNat 6 (48 + i))) ∧
    (∀ i, i < 8 → ws.getD (33 + 2 * i) 0 ++ ws.getD (32 + 2 * i) 0 = g.mstack.getD i 0) ∧
    (∀ i, i < 97 → ∀ r, recs.find? (fun r => r.1.toNat = i) = some r → ws.getD (64 + 2 * i) 0 = r.2.addr) ∧ ws.length = 1536)

/-- Traps without a handler (R110, R114). -/
def Obligations.TrapEndsLaunch : Prop :=
  (∀ (s : State) (w : I16), issues (.trap w) s = true → s.cur.wc = none →
    ((s.launch s.cur.launch).traph = 0 ∨ s.tfen s.cur.ctx = false ∨ s.cur.hmode = true) →
    exec (.trap w) s = .next (((s.countTrap 0x10).setCur s.cur.failRegion).endByTrap 0x10)) ∧
  (∀ (s : State) (i : Instr) (o : OpInfo), i.info = some o → s.cur.wc = none → s.cur.dline = 0 → s.cur.hmode = false →
    isYieldOrPhase o = false → exec i s = .next (((s.countTrap 0x16).setCur s.cur.failRegion).endByTrap 0x16)) ∧
  (∀ (s : State) (kind : BitVec 8), s.cur.life = .running → (s.launch s.cur.launch).finished = false → (s.launch s.cur.launch).ending = none →
    (∀ p ∈ s.sch.places, p.launch ≠ s.cur.launch) → 1 < (s.launch s.cur.launch).groups → s.cur.batch = none → s.cur.wc = none →
    ((s.endByTrap kind).launch s.cur.launch).ending = some kind ∧
    (s.cur.inflight ≠ [] → (s.endByTrap kind).cur = { s.cur with life := .draining, inClause := false, latches := [], wait := none }) ∧
    (s.cur.inflight = [] → (s.endByTrap kind).cur = { Group.blank with core := s.cur.core, slot := s.cur.slot }) ∧
    (s.endByTrap kind).mem = s.mem)

/-- VPF (R322). -/
def Obligations.VectorPrefetch : Prop :=
  ∀ (s : State) (w : I16), issues (.vpf w) s = true →
    (s.cur.em = 0 → ∃ t, exec (.vpf w) s = .next t ∧ Retires s t w.ctl (vectorCycles s.cur) .none s.cur) ∧
    (s.cur.em ≠ 0 → s.cur.life = .running → s.cur.counter 0 < 63 → ∃ t, exec (.vpf w) s = .next t ∧
      SameRegisters s.cur t.cur ∧ t.cur.pc = (s.cur.stepped .none).pc ∧ t.cur.cpos = (s.cur.stepped .none).cpos ∧
      t.cur.latches = (s.cur.stepped .none).latches ∧ t.cur.dline = (s.cur.stepped .none).dline ∧
      (w.ctl.ch.toNat < 2 →
        let v := s.cur.activeLanes.foldl (fun v i => v.walkNow s.cur.waiter s.cur.ctx (vectorEa s.cur w.a w.b (w.imm.signExtend 64) i)) s
        (∀ i ∈ s.cur.activeLanes, ∀ pa mt co,
          v.checkLane (vectorEa s.cur w.a w.b (w.imm.signExtend 64) i) 0 .load false false = .ok pa mt co →
          mt = .wb ∧ pa < 2 ^ 52 ∧ ∀ x, v.l1? s.cur.core (pa / 128) = some x → x.st ≠ .m) →
        t.mem = v.mem ∧ t.coh = { v.coh with msgs := t.coh.msgs } ∧ ∀ k, (t.core k).spad = (v.core k).spad ∧ (t.core k).l1 = (v.core k).l1))

/-- QPUT, QGET and QTRY (R357 to R360, R158). -/
def Obligations.QueueRegisters : Prop :=
  let flagsOf (q : Nat) (x : Word) : BitVec 5 := if q = 5 then 0 else
    (if x.getLsbD 27 then gsfOF else 0) ||| (if x.getLsbD 26 then gsfUF else 0) ||| (if x.getLsbD 25 then gsfNQ else 0) |||
    (if x.getLsbD 24 then gsfAOV else 0)
  let setC (w : RR) (g : Group) (b : Bool) : Group :=
    match w.c with
    | .reg n => g.setPred n.toNat b
    | _ => g
  (∀ (s : State) (w : RR) (n : BitVec 6), s.cur.dline ≠ 0 →
    (w.d = .reg n → n.toNat ∉ [0, 2, 4, 8] → exec (.qput w) s = .next (s.trap .group 0x11 [])) ∧
    (w.a = .reg n → n.toNat ∉ [1, 3, 5, 7] → exec (.qget w) s = .next (s.trap .group 0x11 []) ∧
      exec (.qtry w) s = .next (s.trap .group 0x11 []))) ∧
  (∀ (s : State) (w : RR) (n : BitVec 6), issues (.qput w) s = true → w.d = .reg n →
    let q := n.toNat
    let x := s.cur.srcS w.a
    let k := s.coreCtx s.cur.core s.cur.ctx
    (q ∈ [0, 2, 4, 8] → (if q = 0 ∨ q = 2 then 16 else 8) ≤ k.depth q → ∃ t y, exec (.qput w) s = .next t ∧ t.cur.wait = some y ∧ y.kind = 15 ∧
      t.cur = { s.cur with wait := t.cur.wait } ∧ t = { s with cur := t.cur, seqCtr := t.seqCtr }) ∧
    (q ∈ [0, 2, 4, 8] → k.depth q < (if q = 0 ∨ q = 2 then 16 else 8) →
      ((∀ h ∈ s.cur.half, h.1 ≠ BitVec.ofNat 4 q) → ∃ t, exec (.qput w) s = .next t ∧
        Retires s t w.ctl 1 .none { s.cur with half := s.cur.half ++ [(BitVec.ofNat 4 q, x)] }) ∧
      (∀ w0, s.cur.half.find? (fun h => h.1 = BitVec.ofNat 4 q) = some (BitVec.ofNat 4 q, w0) → ∃ u t c, exec (.qput w) s = .next t ∧
        Retires u t w.ctl 1 .none u.cur ∧ u = { s with cur := u.cur, cores := u.cores, seqCtr := s.seqCtr + 1 } ∧
        let tl := timelineOf q w0
        let num := k.accepted.toList.getD tl 0 + 1
        u.cur = { s.cur with half := s.cur.half.erase (BitVec.ofNat 4 q, w0), tlown := put8 s.cur.tlown tl num } ∧
        c.num = num ∧ c.w0 = w0 ∧ c.w1 = x ∧ c.core = s.cur.core ∧ c.slot = s.cur.slot ∧ c.ctx = s.cur.ctx ∧ c.launch = s.cur.launch ∧
        c.started = false ∧ c.stamp = s.seqCtr ∧
        u.coreCtx s.cur.core s.cur.ctx = { k with accepted := put8 k.accepted tl num }.setQueue q (k.queue q ++ [c]) ∧
        ∀ a b, (a ≠ s.cur.core ∨ b ≠ s.cur.ctx) → u.coreCtx a b = s.coreCtx a b))) ∧
  (∀ (s : State) (w : RR) (n : BitVec 6), w.a = .reg n →
    let q := n.toNat
    let l := (s.coreCtx s.cur.core s.cur.ctx).popQueue q
    let taken (i : Nat) (p : PopWord) (f : BitVec 5) (u : State) : Prop :=
      u.cur = { s.cur with pts := max48 s.cur.pts p.ts, gsf := s.cur.gsf ||| f } ∧
      u = { s with cur := u.cur, cores := u.cores } ∧
      u.coreCtx s.cur.core s.cur.ctx = (s.coreCtx s.cur.core s.cur.ctx).setPop q (l.eraseIdx i)
    let waiting := s.qgetters s.cur.core s.cur.ctx q
    let rank := (waiting.findIdx? fun x => x = s.cur.slot).getD waiting.length
    (q ∈ [1, 3, 5] → s.cur.life = .running → issues (.qget w) s = true →
      (∀ p, l[rank]? = some p → ∃ u t, exec (.qget w) s = .next t ∧ taken rank p (flagsOf q p.word) u ∧ Retires u t w.ctl 1 (.s p.word) (u.cur.putS w.d p.word)) ∧
      (l.length ≤ rank → ∃ t y, exec (.qget w) s = .next t ∧ t.cur = { s.cur with wait := some y } ∧ y.kind = 4 ∧
        y.obj = BitVec.ofNat 64 q ∧ t = { s with cur := t.cur, cores := t.cores, seqCtr := t.seqCtr })) ∧
    (q ∈ [1, 3, 5] → s.cur.life = .running → issues (.qtry w) s = true →
      (∀ p, l[waiting.length]? = some p → ∃ u t, exec (.qtry w) s = .next t ∧ taken waiting.length p 0 u ∧
        Retires u t w.ctl 1 (.s p.word) ((setC w u.cur true).putS w.d p.word)) ∧
      (l.length ≤ waiting.length → ∃ t, exec (.qtry w) s = .next t ∧ Retires s t w.ctl 1 (.s 0) ((setC w s.cur false).putS w.d 0))) ∧
    (q = 7 → (s.cur.batch = none ∨ ∃ va m k, s.cur.batch = some (va, m, k) ∧ m ≤ k) →
      (issues (.qget w) s = true → ∃ t, exec (.qget w) s = .next t ∧ Retires s t w.ctl 1 (.s 0) (s.cur.putS w.d 0)) ∧
      (issues (.qtry w) s = true → ∃ t, exec (.qtry w) s = .next t ∧ Retires s t w.ctl 1 (.s 0) ((setC w s.cur false).putS w.d 0))) ∧
    (∀ va m k u x, q = 7 → s.cur.batch = some (va, m, k) → k < m →
      s.readVa s.cur.waiter s.cur.ctx (va + BitVec.ofNat 64 (8 * k)) 8 = .ok (u, x) → u.cur = s.cur →
      let v := u.clearVerdicts s.cur.waiter
      let g := { s.cur with batch := some (va, m, k + 1) }
      (issues (.qget w) s = true → ∃ t, exec (.qget w) s = .next t ∧ Retires v t w.ctl 1 (.s (BitVec.ofNat 64 x)) (g.putS w.d (BitVec.ofNat 64 x))) ∧
      (issues (.qtry w) s = true → ∃ t, exec (.qtry w) s = .next t ∧
        Retires v t w.ctl 1 (.s (BitVec.ofNat 64 x)) ((setC w g true).putS w.d (BitVec.ofNat 64 x)))))

/-- SWEEP (R378, R379); a beat is a turn of the group at the port, by the model's choice (log 19). -/
def Obligations.SweepBeats : Prop :=
  (∀ (s : State) (w : RR), issues (.sweep w) s = true → w.e.toNat ≤ 0xA →
    let goes (x : State) (ws : List Word) : Prop :=
      let v := x.setCur { x.cur with sweep := some (numberOf ws) }
      let rec' (k : Nat) : Stencil := Stencil.ofWords ((ws.drop (8 * k)).take 8)
      let srcs := (List.range (sweepSources w.e.toNat)).map fun k => rec' (k + 1)
      let e : EngWho := { core := s.cur.core, ctx := s.cur.ctx, tl := 0, grp := some s.cur.slot, hint := w.ctl.ch }
      let start := (s.cur.srcS w.d).toNat
      let n := (rec' 0).count
      let m := min 32 (n - start)
      let fd := v.slotOf s.cur.launch (rec' 0).fsl
      let r := sweepCheck e v.cur (rec' 0) fd start m
        (sweepRead e v.cur (rec' 0) (srcs.map fun t => (t, v.slotOf s.cur.launch t.fsl)) start m ⟨v, [], 0, [], false⟩)
      let z := sweepWrite e v.cur (rec' 0) fd w.e.toNat (bits (s.cur.srcS w.b) 31 0) (bits (s.cur.srcS w.c) 31 0) start r.vals r.s
      let y := (z.1.setCur (z.1.cur.raise (r.flags ||| z.2))).tick v.cur.core (sweepSources w.e.toNat + 1)
      let ends (u : State) : Prop := ∃ t, exec (.sweep w) s = .next t ∧
        Retires u t w.ctl 1 (.s (BitVec.ofNat 64 n)) { u.cur.putS w.d (BitVec.ofNat 64 n) with sweep := none }
      let stays (u : State) (at' : Nat) : Prop := ∃ t q, exec (.sweep w) s = .next t ∧ q.kind = 15 ∧
        t.cur = { u.cur.putS w.d (BitVec.ofNat 64 at') with wait := some q } ∧ t = { u with cur := t.cur, cores := t.cores, seqCtr := t.seqCtr }
      (n ≤ start → v.cur.wc = none → v.storeHeld v.cur 0 = false → ends v) ∧
      (start < n → r.recs = [] → r.wait = false → n ≤ start + 32 → y.cur.wc = none → y.storeHeld y.cur 0 = false → ends y) ∧
      (start < n → r.recs = [] → r.wait = false → start + 32 < n → stays y (start + 32)) ∧
      (start < n → r.recs = [] → r.wait = true → stays r.s start) ∧
      (start < n → r.recs ≠ [] →
        exec (.sweep w) s = .next ((r.s.setCur (r.s.cur.putS w.d (BitVec.ofNat 64 start))).trapLanes (firstRecs r.recs)))
    (s.cur.sweep = none → s.cur.inflight = [] →
      ((s.cur.srcS w.a).toNat % 64 ≠ 0 →
        exec (.sweep w) s = .next (s.trapLanes [(96, ⟨s.cur.srcS w.a, 1, 3, false, false, 0, 0⟩)])) ∧
      (∀ u ws, (s.cur.srcS w.a).toNat % 64 = 0 → State.touchWordsAs w.ctl.ch s (s.cur.srcS w.a) .load 32 = .ok u ws →
        let v := u.clearVerdicts u.cur.waiter
        let rec' (k : Nat) : Stencil := Stencil.ofWords ((ws.drop (8 * k)).take 8)
        let bad : Bool := v.stencilBad s.cur.ctx s.cur.launch (rec' 0) (rec' 0) false ||
          (List.range (sweepSources w.e.toNat)).any fun k => v.stencilBad s.cur.ctx s.cur.launch (rec' (k + 1)) (rec' 0) true
        (bad = true → exec (.sweep w) s = .next (v.trap .group 0x11 [])) ∧ (bad = false → goes v ws))) ∧
    (∀ b, s.cur.sweep = some b → goes s (wordsOf b 32))) ∧
  (∀ (s : State) (w : RR), s.cur.dline ≠ 0 → 0xA < w.e.toNat → exec (.sweep w) s = .next (s.trap .group 0x11 [])) ∧
  (∀ x y z p q : Nat,
    (sweepOp 0 [x] p q).val = x ∧ (sweepOp 1 [x, y] p q).val = (fp32.addOp .rne false x y).val ∧
    (sweepOp 2 [x, y] p q).val = (fp32.mulOp .rne false x y).val ∧ (sweepOp 3 [x, y, z] p q).val = (fp32.fmaOp .rne false x y z).val ∧
    (sweepOp 4 [x, y] p q).val = (fp32.addOp .rne false (fp32.mulOp .rne false p x).val (fp32.mulOp .rne false q y).val).val ∧
    (sweepOp 5 [x] p q).val = (fp32.fmaOp .rne false p x q).val ∧ (sweepOp 6 [x, y] p q).val = fp32.minMax true x y ∧
    (sweepOp 7 [x, y] p q).val = fp32.minMax false x y ∧ (sweepOp 8 [x] p q).val = fp32.minMax true x 0 ∧
    sweepOp 9 [x] p q = exp2Op false x ∧ sweepOp 10 [x] p q = tanhOp x)

/-- ENQT (R149, R152, R380). A queue accepts one token in a cycle (R387), and the token's time is that cycle: which lanes share a step is the model's
choice (log 60). -/
def Obligations.EnqueueTokens : Prop :=
  ∀ (s : State) (w : RR) (n : BitVec 6), issues (.enqt w) s = true → w.a = .reg n →
    let v (i : Fin 96) : Half := (s.cur.srcV w.b)[i]
    let h (i : Fin 96) : BitVec 16 := (v i).setWidth 16
    let good (i : Fin 96) : Prop := (v i).toNat < 2 ^ 16 ∧ Qw.type (s.qword s.cur.ctx (h i) 0) = 3 ∧ Qw.en (s.qword s.cur.ctx (h i) 0) = true ∧
      Qw.err (s.qword s.cur.ctx (h i) 0) = false
    /- The queue of the lane may accept a token now. -/
    let offers (i : Fin 96) (q : ExpertQ) : Prop := good i ∧ s.expert? s.cur.ctx (h i) = some q ∧ entryMalformed q.entry = false ∧
      (∀ x, q.lastAt = some x → x.toNat < s.clock127.toNat) ∧ s.enqtAhead s.cur.waiter s.cur.ctx (h i) = false
    let room (q : ExpertQ) : Prop := q.tokens.length < q.rcap ∧ q.ringCount = 0
    let full (q : ExpertQ) : Prop := ¬room q ∧ q.ringSize ≤ q.ringCount
    let token (i : Fin 96) (q : ExpertQ) : ExpertQ :=
      { q with tokens := q.tokens ++ [⟨s.cur.tokenRecord n.toNat i, s.clock127⟩], lastAt := some s.clock127 }
    let clocked (u : State) : Prop := u = (s.raiseClocks s.cur 3).clearVerdicts (.group s.cur.core s.cur.slot)
    (s.cur.wait = none → s.cur.wc = none → s.cur.mayRelease 3 = true →
      (s.cur.em = 0 → ∃ u t, exec (.enqt w) s = .next t ∧ clocked u ∧ Retires u t w.ctl 1 .none { u.cur with k := 0 }) ∧
      (∀ (i : Fin 96), s.cur.em = BitVec.ofNat 96 (2 ^ i.val) →
        (¬good i → ∃ u t, exec (.enqt w) s = .next t ∧ clocked u ∧ Retires u t w.ctl 1 .none { u.cur with k := 0 }) ∧
        (good i → s.expert? s.cur.ctx (h i) = none → entryMalformed (s.entryWords s.cur.ctx (h i)) = false → ∃ t x, exec (.enqt w) s = .next t ∧
          t.cur.wait = some x ∧ x.kind = 5 ∧ x.lane = BitVec.ofNat 8 i.val ∧ SameRegisters s.cur t.cur ∧ t.mem = s.mem ∧
          t.sch.experts = s.sch.experts) ∧
        (∀ q, offers i q →
          (∀ x ts, ¬room q → q.ringCount < q.ringSize → (s.raiseClocks s.cur 3).queueWrite s.cur.waiter s.cur.ctx
              (q.entry[4] + 64 * BitVec.ofNat 64 (q.rwrix.toNat % q.ringSize)) 0
              ((spilled (s.cur.tokenRecord n.toNat i)).toList ++ [s.clock127, 0, 0, 0]) = .ok x [] ts →
            ∃ u t, exec (.enqt w) s = .next t ∧ Retires u t w.ctl 1 .none { u.cur with k := s.cur.em } ∧
              u = (x.putExpert { q with rwrix := q.rwrix + 1, lastAt := some s.clock127 }).clearVerdicts (.group x.cur.core x.cur.slot)) ∧
          (full q → ∃ u t, exec (.enqt w) s = .next t ∧ clocked u ∧
            Retires u t w.ctl 1 .none { u.cur with
              k := 0, dueSpill := true, spills := s.cur.spills ++ [(BitVec.ofNat 7 i.val, h i)] }))) ∧
      ((∀ i : Fin 96, s.cur.em.getLsbD i = true → ¬good i ∨ ∃ q, offers i q ∧ (room q ∨ full q)) →
        (∀ i j : Fin 96, i < j → s.cur.em.getLsbD i = true → s.cur.em.getLsbD j = true → good i → v i ≠ v j) →
        ∃ u t, exec (.enqt w) s = .next t ∧ Retires u t w.ctl (vectorCycles s.cur) .none { u.cur with k := t.cur.k } ∧
          u.mem = s.mem ∧ u.coh = s.coh ∧ SameRegisters s.cur u.cur ∧
          (∀ i : Fin 96, t.cur.k.getLsbD i = true ↔ s.cur.em.getLsbD i = true ∧ ∃ q, offers i q ∧ room q) ∧
          (∀ i : Fin 96, s.cur.em.getLsbD i = true → ∀ q, offers i q → u.expert? s.cur.ctx (h i) = some (if q.tokens.length < q.rcap ∧ q.ringCount = 0 then token i q else q)) ∧
          (∀ c k, (c = s.cur.ctx → ∀ i : Fin 96, s.cur.em.getLsbD i = true → good i → h i ≠ k) → u.expert? c k = s.expert? c k) ∧
          (∀ p, p ∈ u.cur.spills ↔ p ∈ s.cur.spills ∨ ∃ i : Fin 96, s.cur.em.getLsbD i = true ∧ (∃ q, offers i q ∧ full q) ∧
            p = (BitVec.ofNat 7 i.val, h i)) ∧
          (u.cur.dueSpill = true ↔ s.cur.dueSpill = true ∨ ∃ i : Fin 96, s.cur.em.getLsbD i = true ∧ ∃ q, offers i q ∧ full q)) ∧
      (∀ (i j : Fin 96) (q : ExpertQ), i < j → s.cur.em = BitVec.ofNat 96 (2 ^ i.val + 2 ^ j.val) → v i = v j → offers i q → room q →
        ∃ t x, exec (.enqt w) s = .next t ∧ t.cur.wait = some x ∧ x.kind = 15 ∧ x.pend = .enqt j.val (BitVec.ofNat 96 (2 ^ i.val)) ∧
          t.expert? s.cur.ctx (h i) = some (token i q) ∧ SameRegisters s.cur t.cur ∧ t.mem = s.mem ∧ t.cur.pc = s.cur.pc ∧ t.cur.cpos = s.cur.cpos)) ∧
    (∀ (i : Fin 96) (k : Mask) (x : Wait) (q : ExpertQ), s.cur.wait = some x → x.pend = .enqt i.val k → i.val ≠ 0 →
      s.cur.em.getLsbD i = true → (∀ j : Fin 96, i < j → s.cur.em.getLsbD j = false) → offers i q → room q →
      ∃ u t, exec (.enqt w) s = .next t ∧ Retires u t w.ctl (vectorCycles s.cur) .none { u.cur with k := k ||| BitVec.ofNat 96 (2 ^ i.val) } ∧
        u.expert? s.cur.ctx (h i) = some (token i q) ∧ u.mem = s.mem ∧ u.coh = s.coh ∧ SameRegisters s.cur u.cur)

/-- YIELD and PHASE (R132, R138, R139, R381, R382). -/
def Obligations.YieldAndPhase : Prop :=
  (∀ (s : State) (w : I16), issues (.yield w) s = true →
    let cs := w.imm.toNat / 16 % 8
    let n := min (w.imm.toNat % 16 + 1) ((s.launch s.cur.launch).ymax + 1) * 256
    let declared : Prop := cs < (s.launch s.cur.launch).csetn ∨ (cs = 0 ∧ (s.launch s.cur.launch).csetn = 0)
    (¬declared → exec (.yield w) s = .next (s.trap .group 0x11 [])) ∧
    (declared → s.cur.hmode = true → ∃ t, exec (.yield w) s = .next t ∧ Retires s t w.ctl 1 .none s.cur) ∧
    (declared → s.cur.hmode = false → s.cur.inClause = true → s.cur.atLast = false → ∃ t, exec (.yield w) s = .next t ∧
      Moves s t w.ctl 1 false { s.cur.stepped .none with
        dline := BitVec.ofNat 13 n, endSwitch := some (0, BitVec.ofNat 3 cs, 0, false) }) ∧
    (declared → s.cur.hmode = false → s.cur.atLast = true → s.cur.ctx ∉ s.sch.stopping → (s.launch s.cur.launch).ending = none →
      (s.cur.place = none ∨ (s.agedRecord s.cur.core = false ∧ s.agedTask s.cur.core = false)) → ∃ t, exec (.yield w) s = .next t ∧
      Moves s t w.ctl 1 true { s.cur.stepped .none with dline := BitVec.ofNat 13 n, endSwitch := none })) ∧
  (∀ (s : State) (w : I24), issues (.phase w) s = true →
    let jca := s.cur.srcS w.a
    (s.cur.hmode = true → exec (.phase w) s = .next (s.trap .group 0x10 [])) ∧
    (s.cur.hmode = false → s.csOk (inlineCs w.d) = false → exec (.phase w) s = .next (s.trap .group 0x11 [])) ∧
    (s.cur.hmode = false → s.csOk (inlineCs w.d) = true → jca ≠ 0 → (jca.toNat % 8 ≠ 0 ∨ 2 ^ 32 ≤ jca.toNat) →
      ∃ k sub, exec (.phase w) s = .next (s.trapLanes [(96, ⟨jca, k, 2, true, true, sub, 0⟩)]) ∧
        k = if jca.toNat % 8 ≠ 0 then 1 else 2) ∧
    (s.cur.hmode = false → s.csOk (inlineCs w.d) = true → s.jcaFault jca = none →
      (s.cur.inClause = true → s.cur.atLast = false → ∃ t, exec (.phase w) s = .next t ∧
        Moves s t w.ctl 1 false { s.cur.stepped .none with
          dline := s.cur.dline, endSwitch := some (immTarget s.cur w.imm, BitVec.ofNat 3 (inlineCs w.d), jca, true) }) ∧
      (s.cur.atLast = true → s.cur.inflight = [] → s.cur.wc = none → (s.launch s.cur.launch).ending = none → jca = 0 → ∀ p, s.cur.place = some p → ∃ t x,
        exec (.phase w) s = .next t ∧ t.cur = { Group.blank with core := s.cur.core, slot := s.cur.slot } ∧
        t.sch.places = s.sch.places ++ [x] ∧ x.core = s.cur.core ∧ x.place = p ∧ x.launch = s.cur.launch ∧ x.team = s.cur.team ∧
        x.idx = s.cur.idx ∧ x.csi.toNat = inlineCs w.d % 8 ∧ x.ready.isSome = true ∧ x.jca = 0 ∧ x.tlown = s.cur.tlown ∧
        ∃ u : State, (u.putLines (u.placeAddr s.cur.core p.toNat)
          (s.cur.placeWords (taskRecord (immTarget s.cur w.imm) (s.cur.sread 59) 0 0 (inlineCs w.d % 8) s.cur.core.toNat
            (if s.cur.idx = 8 then 0 else s.cur.idx.toNat) p.toNat (s.cur.live.setWidth 64) ((s.cur.live >>> 64).setWidth 64) 0
            (s.launch s.cur.launch).lseq (s.launch s.cur.launch).lqh) x.smask x.vmask) 32).mem = t.mem ∧ u.mem = s.mem ∧ u.coh = s.coh ∧ u.mgmt = s.mgmt ∧
          ∀ k, (u.core k).l1 = (s.core k).l1)))

/-- SPAWN (R383), NOP (R385), SYSR and SYSW (R386), RESUME (R113, R384). -/
def Obligations.SpawnAndSystem : Prop :=
  (∀ (s : State) (w : I24) (d : BitVec 6), issues (.spawn w) s = true → w.d = .reg d → (s.cur.sread d).toNat < 2 ^ 17 → s.cur.srcS w.a = 0 →
    s.cur.wc = none → s.cur.mayRelease 3 = true →
    let h : BitVec 16 := (s.cur.sread d).setWidth 16
    let e := s.qword s.cur.ctx h 0
    let l := s.launch s.cur.launch
    ((Qw.type e = 2 ∧ Qw.en e = true ∧ Qw.err e = false) →
      (∀ q, s.taskQ? s.cur.ctx h = some q → 2 ^ q.logsz ≤ (q.wrix - q.rdix).toNat → ∃ t x, exec (.spawn w) s = .next t ∧ t.cur.wait = some x ∧
        x.kind = 5 ∧ SameRegisters s.cur t.cur ∧ t.mem = s.mem ∧ t.sch.tasks = s.sch.tasks ∧ t.cur.pc = s.cur.pc ∧ t.cur.cpos = s.cur.cpos) ∧
      (∀ q u v, s.taskQ? s.cur.ctx h = some q → (q.wrix - q.rdix).toNat < 2 ^ q.logsz → u = s.raiseClocks s.cur 3 →
        u.writeVaWords s.cur.waiter s.cur.ctx (q.slotVa q.wrix)
          (taskRecord (immTarget s.cur w.imm) (s.cur.sread 59) 0 1 0 (if (s.cur.sread d).getLsbD 16 then s.cur.core.toNat else 0x3FF) 0 0
            (s.cur.sread (d + 1)) (s.cur.sread (d + 2)) (s.cur.sread (d + 3)) l.lseq l.lqh) = .ok v →
        ∃ y t r, exec (.spawn w) s = .next t ∧ Retires y t w.ctl 1 .none v.cur ∧ y.mem = v.mem ∧
          y.sch.tasks = v.sch.tasks ++ [r] ∧ r.ctx = s.cur.ctx ∧ r.qh = h ∧ r.index = q.wrix ∧ r.ready = some v.clock127 ∧ r.jca = 0 ∧
          y.sch.taskQs = v.sch.taskQs.map (fun x => if x.ctx = s.cur.ctx && x.qh = h then { x with wrix := x.wrix + 1 } else x))) ∧
    (¬(Qw.type e = 2 ∧ Qw.en e = true ∧ Qw.err e = false) →
      exec (.spawn w) s = .next (s.trapLanes [(96, ⟨h.setWidth 64, 2, 0, true, false, 0, 0⟩)]))) ∧
  (∀ (s : State) (w : RR), issues (.nop w) s = true → ∃ t, exec (.nop w) s = .next t ∧ Retires s t w.ctl 1 .none s.cur) ∧
  (∀ (s : State) (w : I16), issues (.sysr w) s = true → ∃ t, exec (.sysr w) s = .next t ∧
    let l := s.launch s.cur.launch
    let x : Word := match w.imm.toNat with
      | 0x100 => ident
      | 0x101 => if s.cur.hmode then 1 else 0
      | 0x102 => if s.tfen s.cur.ctx then s.frameAddr s.cur else 0
      | 0x103 => match s.cur.batch with
        | some (_, _, k) => BitVec.ofNat 64 k
        | none => 0
      | 0x104 => l.argb
      | 0x105 => l.dtb
      | 0x106 => l.lseq ++ l.lqh
      | n => if n < 0x100 then s.groupReg n else (l.fslot (n - 0x108)).1
    Retires s t w.ctl 1 (.s x) (s.cur.putS w.d x)) ∧
  (∀ (s : State) (w : I16), issues (.sysw w) s = true → ∃ t, exec (.sysw w) s = .next t ∧
    Retires s t w.ctl 1 .none (if w.imm = 0xC then { s.cur with gsf := (s.cur.srcS w.a).setWidth 5 } else s.cur)) ∧
  (∀ (s : State) (w : RR), issues (.resume w) s = true → s.cur.hmode = false → exec (.resume w) s = .next (s.trap .group 0x10 [])) ∧
  (∀ (s x u : State) (w : RR) (ws img : List Word), issues (.resume w) s = true → s.cur.hmode = true → s.cur.inflight = [] →
    s.touchWords (s.frameAddr s.cur) .load 48 = .ok x ws →
    let v := x.clearVerdicts x.cur.waiter
    v.cur.behind = false → v.touchWords (v.frameAddr v.cur + 0x1000) .load 1024 = .ok u img →
    let pc := ws.getD 0 0
    let cpos := bits (ws.getD 1 0) 63 60
    u.missing { u.cur with pc := pc } = none →
    let restored (t : State) : Prop :=
      t = { u.clearVerdicts u.cur.waiter with cur := t.cur, cores := t.cores } ∧
      t.cur.latches = ((List.range (bits (ws.getD 1 0) 63 60)).map (imageLatch img u.cur.image)).reverse ∧
      t.cur.hmode = false ∧ t.cur.inClause = false ∧ t.cur.image = [] ∧ t.cur.pc = pc ∧ t.cur.cpos.toNat = cpos ∧
      t.cur.k = (ws.getD 3 0).setWidth 32 ++ ws.getD 2 0 ∧ t.cur.preds = (ws.getD 4 0).setWidth 7 ∧
      t.cur.msdep.toNat = bits (ws.getD 1 0) 49 42 ∧ t.cur.vregs = u.cur.vregs ∧ t.cur.live = u.cur.live ∧ t.cur.gsf = u.cur.gsf ∧
      (∀ n, n < 48 → t.cur.sread (BitVec.ofNat 6 n) = u.cur.sread (BitVec.ofNat 6 n)) ∧
      (∀ n, n < 16 → n ≠ 12 → n ≠ 13 → n ≠ 14 → t.cur.sread (BitVec.ofNat 6 (48 + n)) = ws.getD (16 + n) 0) ∧
      (∀ i : Fin 96, t.cur.em.getLsbD i = (u.cur.live.getLsbD i && (ws.getD (28 + i.val / 32) 0).getLsbD (i.val % 32)))
    ((∀ hdr code, u.clauseWords { u.cur with pc := pc } = some (hdr, code) → clauseFault pc hdr code = none ∧ cpos ≤ Header.count hdr) →
      ∃ t, exec (.resume w) s = .next t ∧ restored t) ∧
    (∀ hdr code, u.clauseWords { u.cur with pc := pc } = some (hdr, code) →
      (∀ p, clauseFault pc hdr code = some p → ∃ t, restored t ∧ exec (.resume w) s = .next (t.trapAt pc (BitVec.ofNat 4 p) .group 0x12 [])) ∧
      (clauseFault pc hdr code = none → Header.count hdr < cpos →
        ∃ t, restored t ∧ exec (.resume w) s = .next (t.trapAt pc (BitVec.ofNat 4 cpos) .group 0x12 []))))

/-- HOME_RENEWAL, HOME_UPGRADE, HOME_READ_EXCLUSIVE, FAR_ATOMIC_ARRIVAL, REFUSAL_BACKOFF_RESEND (R198, R199, R203 to R205), on the message
that the event names. -/
def Obligations.CoherenceRequests : Prop :=
  ∀ (s : State) (m : Msg), s.coh.msgs[s.ev.a]? = some m →
    let h := s.home m.line
    let homeOf (t : State) (l : Nat) : Home := Tab.get Home.idle t.coh.homes l
    let asker : Asker := .acc m.core m.slot m.acc
    let free : Prop := h.st.stable = true ∧ (h.rsv = none ∨ h.rsv = some asker)
    let met (pa n : Nat) (wr : Bool) : Prop := s.commitHolds m.line = false ∧ s.mergeAhead m = false ∧
      s.outsideHolds (.group m.core m.slot) pa n wr = false
    let whole (wr : Bool) : Prop := s.split m.line = false ∧ met (128 * m.line) 128 wr
    let rest := s.coh.msgs.eraseIdx s.ev.a
    let cleared : Home := { h with
      rsv := if h.rsv = some asker then none else h.rsv
      refused := h.refused.filter fun r => r.1 ≠ asker }
    (∀ i, (i = .homeRenewal ∧ m.kind = .renewal ∧ whole false) ∨ (i = .homeUpgrade ∧ (∃ w, m.kind = .upgrade w) ∧ whole true) ∨
        (i = .homeReadExclusive ∧ m.kind = .readEx ∧ whole true) ∨
        (i = .farAtomicArrival ∧ m.kind = .far ∧ ∃ a, s.accOf m = some a ∧ met (a.span m).1 (a.span m).2 a.writes) → ¬free →
      ∃ t o w, exec i s = .next t ∧ t = { s with coh := { s.coh with homes := t.coh.homes, msgs := t.coh.msgs } } ∧
        t.coh.msgs = s.coh.msgs.set s.ev.a { m with
          kind := .refusedReq o w, refusals := m.refusals + 1,
          due := s.clock m.core + BitVec.ofNat 64 (min (16 * 2 ^ m.refusals) 4096) } ∧ MsgKind.again o w = m.kind ∧
        (homeOf t m.line).refusals.toNat = min (h.refusals.toNat + 1) 255 ∧ (homeOf t m.line).st = h.st ∧
        (homeOf t m.line).wts = h.wts ∧ (homeOf t m.line).rts = h.rts ∧ ∀ l, l ≠ m.line → homeOf t l = homeOf s l) ∧
    (∀ l, m.kind = .renewal → whole false → free → h.st = .i → s.l2? m.line = some l → (l.nc = false ∨ s.ncOf m = true) →
      s.smOf m = false → s.keepsOut m (s.hintOf m) = false → (∀ k, s.commitHoldsAt m.core k = false) →
      (∀ x ∈ s.coh.msgs, x.line = m.line → x.core = m.core → ∀ d k p ids w, x.kind ≠ .merge d k p ids w) → (∀ x, s.l1? m.core m.line = some x → x.st ≠ .m) →
      farBehind h.wts (max48 (Tab.get 0 s.coh.sliceTs (homeSlice m.line)) (max48 h.rts (max48 (s.ptsOf m + s.lease) (h.wts + s.lease)))) = false →
      ∃ u : State, exec .homeRenewal s = .next (u.proceed m.core m.slot) ∧ u.mem = s.mem ∧
        (homeOf u m.line).rts = max48 h.rts (max48 (s.ptsOf m + s.lease) (h.wts + s.lease)) ∧ (homeOf u m.line).st = .i ∧
        (homeOf u m.line).wts = h.wts ∧
        u.l1? m.core m.line = some ⟨m.line, .s, h.wts, (homeOf u m.line).rts, l.data,
          match s.l1? m.core m.line with
          | some x => if x.st = .s ∧ x.wts = h.wts then x.valid ||| m.sectors else m.sectors
          | none => m.sectors, 0, l.poison, s.ncOf m⟩) ∧
    (∀ w, m.kind = .upgrade w → whole true → free → h.st = .i → h.wts = w → ∃ t, exec .homeUpgrade s = .next t ∧
      t = { s with coh := { s.coh with homes := t.coh.homes, msgs := t.coh.msgs } } ∧
      t.coh.msgs = rest ++ [{ m with kind := .grant none (s.homeData m.line).2 h.wts h.rts }] ∧
      homeOf t m.line = { cleared with st := .up m.core, serving := decide (m.refusals ≠ 0) } ∧ ∀ l, l ≠ m.line → homeOf t l = homeOf s l) ∧
    (∀ i, (i = .homeReadExclusive ∧ m.kind = .readEx) ∨ (i = .homeUpgrade ∧ ∃ w, m.kind = .upgrade w ∧ (h.st ≠ .i ∨ h.wts ≠ w)) → whole true → free →
      (∀ l, h.st = .i → s.l2? m.line = some l → (l.nc = false ∨ s.ncOf m = true) → ∃ t, exec i s = .next t ∧ t.mem = s.mem ∧ t.cur = s.cur ∧ t.parked = s.parked ∧
        t.cores = s.cores ∧ t.coh.msgs = rest ++ [{ m with kind := .grant (some l.data) l.poison h.wts h.rts }] ∧
        homeOf t m.line = { cleared with st := .rx m.core, serving := decide (m.refusals ≠ 0) } ∧ t.l2? m.line = some l ∧
        ∀ k, k ≠ m.line → homeOf t k = homeOf s k) ∧
      (∀ p, h.st = .e p → ∃ t, exec i s = .next t ∧ t = { s with coh := { s.coh with homes := t.coh.homes, msgs := t.coh.msgs } } ∧
        t.coh.msgs = rest ++ [{ m with kind := .forward p }] ∧
        homeOf t m.line = { cleared with st := .fw m.core p, serving := decide (m.refusals ≠ 0) } ∧
        ∀ k, k ≠ m.line → homeOf t k = homeOf s k)) ∧
    (∀ (a : Access) (l : LaneAcc), m.kind = .far → free → s.cur.at m.core m.slot = true → s.cur.inflight = [a] → a.id = m.acc →
      a.lanes = [l] → l.done = false → l.fault = none → l.pa / 128 = m.line → m.sectors &&& l.sector ≠ 0 → m.refusals = 0 →
      met (a.span m).1 (a.span m).2 a.writes →
      let u := ({ s with coh := { s.coh with homes := Tab.set Home.idle s.coh.homes m.line cleared, msgs := rest } } : State).passFilter
        (.group m.core m.slot) (a.span m).1 a.writes
      exec .farAtomicArrival s = .next ((((u.performHome s.cur a l).1.putLane m.core m.slot a.id (u.performHome s.cur a l).2).concludeAccess
        m.core m.slot a.id).proceed m.core m.slot) ∧
      (∀ d, h.st = .i → s.l2? m.line = some d → d.nc = false → d.poison = 0 → a.dropped = false → a.writes = true →
        (l.mt = .wb ∨ l.mt = .uc ∨ (l.mt = .sm ∧ a.atomic = true)) →
        let n := a.width
        let x := a.newValue l (lineBytes d.data (l.pa % 128) n)
        ∃ y, (u.performHome s.cur a l).1.l2? m.line = some y ∧
          (∀ k, k < 128 → byteOf y.data k =
            match x with
            | some v => if l.pa % 128 ≤ k ∧ k < l.pa % 128 + n then BitVec.ofNat 8 (v / 256 ^ (k - l.pa % 128)) else byteOf d.data k
            | none => byteOf d.data k) ∧
          (homeOf (u.performHome s.cur a l).1 m.line).wts = max48 s.cur.pts (h.rts + 1) ∧
          (u.performHome s.cur a l).2.res = BitVec.ofNat 128 (lineBytes d.data (l.pa % 128) n))) ∧
    (∀ o w, m.kind = .refusedReq o w →
      (m.due.toNat ≤ (s.clock m.core).toNat → ∃ t, exec .refusalBackoffResend s = .next t ∧
        t = { s with coh := { s.coh with msgs := s.coh.msgs.set s.ev.a { m with kind := MsgKind.again o w } } }) ∧
      ((s.clock m.core).toNat < m.due.toNat → exec .refusalBackoffResend s = .next s))

/-- L1_FORWARD_RECEIVE, FORWARD_ANSWER, L1_GRANT_RECEIVE, HOME_ACK, HOME_WRITEBACK, TARGET_ACKNOWLEDGEMENT (R199, R202, R203, R215). That a store to
a second-tier target takes effect at its acknowledgement is the model's choice (log 27). -/
def Obligations.CoherenceAnswers : Prop :=
  (∀ (s : State) (m : Msg), s.coh.msgs[s.ev.a]? = some m →
    let h := s.home m.line
    let homeOf (t : State) (l : Nat) : Home := Tab.get Home.idle t.coh.homes l
    let rest := s.coh.msgs.eraseIdx s.ev.a
    let taken (line : Nat) (w r : BitVec 48) : BitVec 48 × BitVec 48 :=
      let hi := Tab.get 0 s.coh.sliceTs (homeSlice line)
      if farBehind w hi then (hi - BitVec.ofNat 48 (2 ^ 44), max48 r (hi - BitVec.ofNat 48 (2 ^ 44))) else (w, r)
    (∀ p, m.kind = .forward p → s.commitHolds m.line = false → ∃ t, exec .l1ForwardReceive s = .next t ∧
      t = { s with coh := { s.coh with msgs := t.coh.msgs }, cores := t.cores } ∧
      (∀ x, s.l1? p m.line = some x → x.st = .e → t.coh.msgs = rest ++ [{ m with kind := .answerData x.data x.poison x.wts x.rts }] ∧
        t.l1? p m.line = none) ∧
      ((∀ x, s.l1? p m.line = some x → x.st ≠ .e) → t.coh.msgs = rest ++ [{ m with kind := .answerGone }] ∧ t.cores = s.cores) ∧
      (∀ l, l ≠ m.line → t.l1? p l = s.l1? p l) ∧ ∀ k, k ≠ p → t.core k = s.core k) ∧
    (∀ d p w r o q l, m.kind = .answerData d p w r → h.st = .fw o q → s.l2? m.line = some l →
      let ts := taken m.line w (max48 h.rts r)
      ∃ t y, exec .forwardAnswer s = .next t ∧
      t = { s with coh := { s.coh with homes := t.coh.homes, msgs := t.coh.msgs, l2 := t.coh.l2 } } ∧
      t.l2? m.line = some y ∧ y.data = d ∧ y.poison = p ∧ (∀ k, k ≠ m.line → t.l2? k = s.l2? k) ∧
      (homeOf t m.line).st = .rx o ∧ (homeOf t m.line).wts = ts.1 ∧ (homeOf t m.line).rts = ts.2 ∧
      t.coh.msgs = rest ++ [{ m with kind := .grant (some d) p ts.1 ts.2 }] ∧ ∀ k, k ≠ m.line → homeOf t k = homeOf s k) ∧
    (∀ o q, m.kind = .answerGone → h.st = .fw o q → (∀ x ∈ s.coh.msgs, x.line = m.line → x.core = q → x.kind.isWriteback = false) →
      ∃ t, exec .forwardAnswer s = .next t ∧ t = { s with coh := { s.coh with homes := t.coh.homes, msgs := t.coh.msgs } } ∧
        homeOf t m.line = { h with st := .rx o } ∧
        t.coh.msgs = rest ++ [{ m with kind := .grant (some (s.homeData m.line).1) (s.homeData m.line).2 h.wts h.rts }]) ∧
    (∀ d p w r, m.kind = .grant d p w r → (∀ k, s.commitHoldsAt m.core k = false) →
      (d = none → ∀ x, s.l1? m.core m.line = some x → x.st ≠ .m) → ∃ u : State, exec .l1GrantReceive s = .next ((u.proceed m.core m.slot).send { m with kind := .ack }) ∧
      ∃ y, u.l1? m.core m.line = some y ∧ y.st = .e ∧
        y.wts = w ∧ y.rts = r ∧ y.dirty = 0 ∧ (∀ x, d = some x → y.data = x ∧ y.poison = p) ∧
        (∀ x, d = none → s.l1? m.core m.line = some x → y.data = x.data ∧ y.poison = x.poison)) ∧
    (m.kind = .ack → (h.st = .up m.core ∨ h.st = .rx m.core) → ∃ t, exec .homeAck s = .next t ∧
      t = { s with coh := { s.coh with homes := t.coh.homes, msgs := rest } } ∧ (homeOf t m.line).st = .e m.core ∧
      (∀ x, s.l1? m.core m.line = some x → (homeOf t m.line).wts = x.wts ∨ h.serving = true) ∧
      (h.serving = true → (homeOf t m.line).refusals = 0) ∧ ∀ k, k ≠ m.line → homeOf t k = homeOf s k) ∧
    (∀ d k p w r l, m.kind = .writeback d k p w r → h.st = .e m.core → s.l2? m.line = some l → ∃ t y, exec .homeWriteback s = .next t ∧
      t = { s with coh := { s.coh with homes := t.coh.homes, msgs := rest, l2 := t.coh.l2 } } ∧ (homeOf t m.line).st = .i ∧
      (homeOf t m.line).wts = (taken m.line w (max48 h.rts r)).1 ∧ (homeOf t m.line).rts = (taken m.line w (max48 h.rts r)).2 ∧
      t.l2? m.line = some y ∧ (∀ i, i < 128 → byteOf y.data i = if k.getLsbD i then byteOf d i else byteOf l.data i) ∧
      (∀ n, n ≠ m.line → t.l2? n = s.l2? n) ∧ ∀ n, n ≠ m.line → homeOf t n = homeOf s n)) ∧
  (∀ (s : State) (x : TargetAck), s.coh.acks.find? (fun y => y.id = s.ev.a) = some x → s.cur.at x.core x.slot = true →
    s.cur.life = .running →
    (∀ i, x.write = none → x.lanes = [] → x.accs = [i] → (∀ a ∈ s.cur.inflight, a.open = false) →
      ∃ (t : State) (f : Access → Bool), exec .targetAcknowledgement s = .next t ∧
        t = { s with cur := t.cur, coh := { s.coh with acks := s.coh.acks.filter fun y => y.id ≠ x.id } } ∧
        t.cur = { s.cur with inflight := t.cur.inflight } ∧
        t.cur.inflight = settleFrom [] (s.cur.inflight.map fun a => if a.id = i then { a with acks := a.acks - 1, performed := f a } else a) ∧
        (∀ a, a.performed = true → f a = true) ∧
        (s.storeHeld s.cur i = false → ∀ a, a.lanes.all (fun l => l.done) = true → a.acks ≤ 1 → f a = true)) ∧
    (∀ line d mask a, x.write = some (line, d, mask, 0) → x.accs = [a.id] → x.lanes = (a.lanes.map fun l => (l.lane, l.va)) → x.lanes ≠ [] →
      s.coh.acks = [x] → s.coh.msgs = [] → s.cur.wc = none → s.cur.inflight = [a] → a.op = .store → a.dst = .none → a.acks = 1 →
      (∀ l ∈ a.lanes, l.fault = none) → (s.home line).st = .i →
      ∃ t, exec .targetAcknowledgement s = .next t ∧ t.cur.inflight = [] ∧ SameRegisters s.cur t.cur ∧ t.coh.acks = [] ∧
        (∀ k, k < 128 → t.mem.read (128 * line + k) = if mask.getLsbD k then byteOf d k else s.mem.read (128 * line + k)) ∧
        ∀ k, (k < 128 * line ∨ 128 * line + 128 ≤ k) → t.mem.read k = s.mem.read k))

/-- CLAUSE_START (R164, R181, R254, R258), INSTRUCTION_CACHE_FILL (R259), WATCHDOG_EXPIRY (R138), RECORD_PICK (R128, R134, R137). That the instruction
cache drops its oldest line beyond 256 is the model's choice (log 40). -/
def Obligations.PortEvents : Prop :=
  (∀ (s : State) (hd : Word) (ws : List Word), s.ev.a < 1024 →
    let g := s.cur
    ((s.core (BitVec.ofNat 10 s.ev.a)).holder.isSome = true → exec .clauseStart s = .next s) ∧
    ((s.core (BitVec.ofNat 10 s.ev.a)).holder = none → s.clockRuns g.core = true → g.core.toNat = s.ev.a → g.life = .running → g.inClause = false → g.late = none →
      g.cpos = 0 → s.stopping g = false → g.endSwitch = none → g.dueViral = false → g.dueBudget = false → g.dueSpill = false → g.wait = none → s.halted g = false →
      (∀ x ∈ s.parked, x.core ≠ g.core) → s.clauseWords g = some (hd, ws) →
      (Header.ok hd = false ∨ g.pc.toNat % 8 ≠ 0 → exec .clauseStart s = .next (s.trapAt g.pc 0 .group 0x12 [])) ∧
      (Header.ok hd = true → g.pc.toNat % 8 = 0 →
        (∀ p, g.maskWait hd = some p → ∃ u t x, exec .clauseStart s = .next t ∧
          u = (if (Header.wait hd).testBit 1 then s.sendWc g.core g.slot else s) ∧ t.cur = { u.cur with wait := some x } ∧ x.kind = 2 ∧
          x.obj = BitVec.ofNat 64 p ∧ ((Header.wait hd).testBit 1 = true → t.cur.wc = none)) ∧
        (g.maskWait hd = none → ∀ p, clauseFault g.pc hd ws = some p →
          exec .clauseStart s = .next (s.trapAt g.pc (BitVec.ofNat 4 p) .group 0x12 [])) ∧
        (g.maskWait hd = none → clauseFault g.pc hd ws = none → ∃ t, exec .clauseStart s = .next t ∧
          t = { s with cur := t.cur, cores := t.cores, seqCtr := s.seqCtr + 1 } ∧
          t.cur = { g with inClause := true, hdr := hd, lastStart := s.seqCtr, wait := none, latches := [] } ∧
          t.core g.core = { s.core g.core with holder := some g.slot } ∧ ∀ n, n ≠ g.core → t.core n = s.core n)))) ∧
  (∀ (s : State) (va : Word), s.cur.at (BitVec.ofNat 10 s.ev.a) (BitVec.ofNat 3 s.ev.b) = true → s.cur.life = .running → s.missing s.cur = some va →
    (∀ f, s.checkLane (va - BitVec.ofNat 64 (va.toNat % 8)) 3 .fetch false false = .bad f → exec .instructionCacheFill s =
      .next (((s.walkFault f.addr f.kind).clearVerdicts s.cur.waiter).trapAt s.cur.pc s.cur.cpos .lane f.kind [(96, f)])) ∧
    (∀ pa mt co, s.checkLane (va - BitVec.ofNat 64 (va.toNat % 8)) 3 .fetch false false = .ok pa mt co →
      s.heldAt s.cur.waiter pa 128 false co = false → ∃ t v u l, exec .instructionCacheFill s = .next t ∧
      v = (((s.clearVerdicts s.cur.waiter).touchTlb s.cur.waiter s.cur.ctx va).plainLine s.cur.waiter (pa / 128) (!co)) ∧
      u = (if pa < 2 ^ 52 then v.1.passNow s.cur.waiter pa false else v.1) ∧
      t.cur = { u.cur with wait := t.cur.wait } ∧ t = { u with cur := t.cur, cores := t.cores } ∧
      (t.core s.cur.core).icache = (l :: (u.core s.cur.core).icache.filter fun x => !(x.ctx = s.cur.ctx && x.line = va.toNat / 128)).take 256 ∧
      l.ctx = s.cur.ctx ∧ l.line = va.toNat / 128 ∧
      ∀ i : Fin 16, l.words[i] = v.2.1.extractLsb' (64 * i.val) 64)) ∧
  (∀ (s : State), s.cur.at (BitVec.ofNat 10 s.ev.a) (BitVec.ofNat 3 s.ev.b) = true →
    (s.cur.life = .running → s.cur.inClause = true → s.cur.dline = 0 → s.cur.hmode = false → yieldWord (s.waitWord s.cur) = false →
      exec .watchdogExpiry s = .next (s.trap .group 0x16 [])) ∧
    (s.cur.dline ≠ 0 ∨ s.cur.hmode = true ∨ yieldWord (s.waitWord s.cur) = true → exec .watchdogExpiry s = .next s)) ∧
  (∀ (s : State) (c : BitVec 10) (n : BitVec 3), s.ev.a = c.toNat → s.ev.b = n.toNat →
    ((s.group? c n).isSome = true → exec .recordPick s = .next s) ∧
    (∀ p tm, s.group? c n = none → s.restoreSaved c n.toNat = none → (∀ i, i < n.toNat → s.finds c i = false) → s.pickPhase c n.toNat = some p →
      (s.sch.teams.find? fun t => t.key = p.team) = some tm → tm.core = c →
      let l := s.launch p.launch
      (p.fresh = true → ∃ t g, exec .recordPick s = .next t ∧ t.group? c n = some g ∧ t.sch.places = s.sch.places.erase p ∧ t.mem = s.mem ∧
        g.pc = l.entry ∧ g.cpos = 0 ∧ g.ctx = l.ctx ∧ g.launch = p.launch ∧ g.life = .running ∧ g.hmode = false ∧ g.inClause = false ∧
        (∀ i : Fin 96, g.em.getLsbD i = decide (i.val < l.nlane)) ∧ g.live = g.em ∧ g.sread 0 = l.argb ∧
        (∀ r : BitVec 6, r ≠ 0 → r.toNat < 60 ∨ r = 63 → g.sread r = 0) ∧ g.k = 0 ∧ (∀ i, i < 7 → g.pred i = false) ∧ g.msdep = 0 ∧
        g.mstack = [] ∧ g.latches = [] ∧ g.gsf = 0 ∧ (∀ r (i : Fin 96), (g.vread r)[i] = 0) ∧ g.dline.toNat = (l.ymax + 1) * 256) ∧
      (p.fresh = false → p.carve = none →
        let ws := (({ s with sch := { s.sch with places := s.sch.places.erase p } } : State).getLines (s.placeAddr c p.place.toNat) 32).2
        ∃ t g, exec .recordPick s = .next t ∧ t.group? c n = some g ∧ g.pc = ws.getD 0 0 ∧ g.cpos = 0 ∧
          g.live = (ws.getD 4 0).setWidth 32 ++ ws.getD 3 0 ∧ g.em &&& g.live = g.em ∧ g.k = (ws.getD 9 0).setWidth 32 ++ ws.getD 8 0 ∧
          g.preds = (ws.getD 10 0).setWidth 7 ∧ g.sread 59 = ws.getD 14 0 ∧ g.latches = [] ∧ g.gsf = 0 ∧ g.tlown = p.tlown ∧
          (∀ j r : Nat, (maskRegs p.smask)[j]? = some r → r < 59 ∨ r = 63 → g.sread (BitVec.ofNat 6 r) = ws.getD (32 + j) 0) ∧
          (∀ r : Nat, r < 59 ∨ r = 63 → r ∉ maskRegs p.smask → g.sread (BitVec.ofNat 6 r) = 0) ∧ g.dline.toNat = (l.ymax + 1) * 256)))

/-- CLUSTER_PLACE (R126), PREQ and RESM (R140, R142), SLICE_END (R143), WAITING_BUDGET_EXCEEDED (R143, R144). Which rectangle, base and places a
cluster takes among those allowed is the model's choice (log 38), and so is when firmware's next slice comes (log 34). -/
def Obligations.SchedulerEvents : Prop :=
  (∀ (s : State) (k : Nat) (r : List Nat), s.toPlace = k :: r → (s.launch k).concurrent = false →
    (∀ k' ∈ k :: r, s.tryPlace k' = none) ∧ (∀ k' ∈ r, (s.launch k').concurrent = false) → exec .clusterPlace s = .next s) ∧
  (∀ (s : State) (k sec x y : Nat) (r : List Nat), s.toPlace = k :: r → (s.launch k).concurrent = false →
    ((s.sectionOrder (s.launch k).ctx).filterMap fun z => (s.findRect (s.launch k) z).map fun p => (z, p)).head? = some (sec, x, y) →
    let l := s.launch k
    ∃ t ts, exec .clusterPlace s = .next t ∧ t.sch.teams = s.sch.teams ++ ts ∧
      ts.map (fun a => a.core) = rectCores sec x y l.cw l.chh ∧ (t.launch k).nextCluster = l.nextCluster + 1 ∧
      (∀ a ∈ ts, a.launch = k ∧ a.cluster = l.nextCluster ∧ a.bytes = l.need ∧ a.alive = l.team ∧ s.firstFit a.core l.need = some a.base ∧
        a.places = (s.freePlaces a.core).take l.team)) ∧
  (∀ (s : State) (c : BitVec 12), s.ev.a = c.toNat →
    (s.suspended c = true ∨ c ∈ s.sch.stopping → exec .preq s = .next s) ∧
    (s.suspended c = false → c ∉ s.sch.stopping → (∀ g ∈ s.groups, g.ctx ≠ c) → s.enginesStopped c = true →
      (∀ x ∈ s.cores, x.2.owner ≠ some c) → ∃ t, exec .preq s = .next t ∧ t.suspended c = true ∧ c ∉ t.sch.stopping ∧
        t.cur = s.cur ∧ t.parked = s.parked ∧ ((∀ x ∈ s.cores, ∀ y ∈ x.2.ctxs, y.1 ≠ c.toNat) → t.mem = s.mem ∧ t.coh = s.coh)) ∧
    (∀ g, s.suspended c = false → c ∉ s.sch.stopping → s.parked = [] → s.cur = g → g.life = .running → g.ctx = c → g.launch ≠ 0 →
      g.stopsHere = false → ∃ t, exec .preq s = .next t ∧ t.suspended c = false ∧ t.sch.stopping = s.sch.stopping ++ [c] ∧ t.cur = g ∧
        t.mem = s.mem ∧ t.mgmt = s.mgmt) ∧
    (s.suspended c = false → exec .resm s = .next s) ∧
    (s.suspended c = true → (∀ g ∈ s.sch.saved, g.ctx ≠ c) → (∀ k ∈ s.sch.overBudget, (s.launch k).ctx ≠ c) → ∃ t, exec .resm s = .next t ∧
      t.suspended c = false ∧ t.sch.byFirmware = s.sch.byFirmware.filter (fun x => x ≠ c) ∧ t.cur = s.cur ∧ t.parked = s.parked ∧ t.mem = s.mem ∧
      Tab.get 0 t.sch.sliceAt c.toNat = s.timebase ∧ (∀ x ∈ t.sch.launches, x.2.ctx = c → x.2.charge = 0) ∧
      t.regBits (Reg.sched c.toNat 16) 63 32 = 0) ∧
    let ran := (s.timebase - Tab.get 0 s.sch.sliceAt c.toNat).toNat
    (ran < s.sliceNs c → exec .sliceEnd s = .next s) ∧
    (s.suspended c = true → c ∉ s.sch.byFirmware → exec .sliceEnd s = .next s) ∧
    (s.suspended c = true → c ∈ s.sch.byFirmware → s.sliceNs c ≤ ran → exec .sliceEnd s = exec .resm s) ∧
    (s.sliceNs c ≤ ran → s.suspended c = false → (s.regBits (Reg.sched c.toNat 8) 63 32 = 0 ∨
        ((∀ x ∈ s.sch.byFirmware, x = c) ∧ ∀ x ∈ s.sch.launches, x.2.unplaced = false)) → ∃ t, exec .sliceEnd s = .next t ∧
      t = { s with sch := { s.sch with launches := t.sch.launches, sliceAt := t.sch.sliceAt }, mgmt := t.mgmt } ∧
      t.regBits (Reg.sched c.toNat 16) 63 32 = 0 ∧ Tab.get 0 t.sch.sliceAt c.toNat = s.timebase ∧
      t.sch.launches = s.sch.launches.map fun x => (x.1, if x.2.ctx = c then { x.2 with charge := 0 } else x.2)) ∧
    (s.sliceNs c ≤ ran → s.regBits (Reg.sched c.toNat 8) 63 32 ≠ 0 → (∃ x ∈ s.sch.byFirmware, x ≠ c) → s.suspended c = false → c ∉ s.sch.stopping →
      (∀ x ∈ s.sch.byFirmware, s.suspended x = false) → (∀ g ∈ s.groups, g.ctx ≠ c) → s.enginesStopped c = true → (∀ x ∈ s.cores, x.2.owner ≠ some c) →
      ∃ t, exec .sliceEnd s = .next t ∧ t.suspended c = true)) ∧
  (∀ (s : State), let l := s.launch s.ev.a
    (l.wbud = 0 ∨ l.charge ≤ 1024 * l.wbud ∨ l.finished = true ∨ l.ending.isSome = true ∨ s.ev.a ∈ s.sch.overBudget → exec .waitingBudgetExceeded s = .next s) ∧
    (l.wbud ≠ 0 → 1024 * l.wbud < l.charge → l.finished = false → l.ending = none → s.ev.a ∉ s.sch.overBudget → ∃ u t,
      exec .waitingBudgetExceeded s = .next t ∧ u = s.snapshot s.ev.a ∧
      t = ({ u with sch := { u.sch with overBudget := u.sch.overBudget ++ [s.ev.a] } } : State).stopOverBudget ∧
      (s.sch.overBudget = [] → (∃ e ∈ u.que.held, e.1 = l.ctx) → t.sch.stopping = u.sch.stopping)))

/-- QUEUE_BRING_IN (R136, R153), RING_REFILL (R151), AGE_LIMIT_EXPIRY (R154), FIRING_ROUND_START (R155), EXPERT_FIRING (R156, R157). When a token
counts for a firing and what the unit does in a turn are the model's choice where the rules leave them open (log 60). -/
def Obligations.ExpertQueueEvents : Prop :=
  (∀ (s : State) (c : BitVec 12) (h : BitVec 16), s.ev.a = c.toNat → s.ev.b = h.toNat →
    let w := s.entryWords c h
    ((s.expert? c h).isSome = true ∨ (s.taskQ? c h).isSome = true → exec .queueBringIn s = .next s) ∧
    (s.expert? c h = none → s.taskQ? c h = none → s.ev.flag = false → s.sch.taskQs.length + s.sch.experts.length < 512 →
      (Qw.type w[0] = 2 → ∃ t q, exec .queueBringIn s = .next t ∧ t.sch.taskQs = s.sch.taskQs ++ [q] ∧ q.ctx = c ∧ q.qh = h ∧ q.base = w[1] ∧
        q.logsz = bits w[2] 63 59 ∧ q.lrec = w[4] ∧ q.rdix.toNat = bits w[3] 63 32 ∧ q.wrix.toNat = bits w[3] 31 0 ∧ SameRegisters s.cur t.cur) ∧
      (Qw.type w[0] = 3 → entryMalformed w = false → bits w[6] 63 32 = bits w[6] 31 0 → s.queueSram + 64 + 40 * bits w[3] 23 12 ≤ 2 ^ 20 →
        ∃ t q, exec .queueBringIn s = .next t ∧ t.sch.experts = s.sch.experts ++ [q] ∧ q.ctx = c ∧ q.qh = h ∧ q.entry = w ∧ q.tokens = [] ∧ q.lastAt = none ∧
          q.fired.toNat = bits w[5] 31 0) ∧
      (Qw.type w[0] ≠ 2 → (Qw.type w[0] ≠ 3 ∨ entryMalformed w = true) → exec .queueBringIn s = .next s)) ∧
    (∀ q, s.expert? c h = some q →
      (q.rcap ≤ q.tokens.length ∨ q.ringCount = 0 → exec .ringRefill s = .next s) ∧
      (∀ u ws ts, q.tokens.length < q.rcap → q.ringCount = 1 → s.queueWords (.queue c h) c (q.ringVa q.rrdix) 5 = .ok u ws ts →
        u.sch.experts = s.sch.experts → ∃ t, exec .ringRefill s = .next t ∧
          t.expert? c h = some { q with tokens := q.tokens ++ [tokenOf ws], rrdix := q.rrdix + 1 } ∧
          t = { u with sch := { u.sch with experts := t.sch.experts } }) ∧
      (s.expertRuns q = true → q.aged s.clock127 = true → (c, h) ∉ s.sch.eligible → ∃ t, exec .ageLimitExpiry s = .next t ∧
        t = { s with sch := { s.sch with eligible := s.sch.eligible ++ [(c, h)] } }) ∧
      (s.expertRuns q = false ∨ q.aged s.clock127 = false → exec .ageLimitExpiry s = .next s))) ∧
  (∀ (s : State), (s.sch.round ≠ [] → exec .firingRoundStart s = .next s) ∧
    (s.sch.round = [] → ∃ (t : State) (l : List ExpertQ), exec .firingRoundStart s = .next t ∧ t = { s with sch := { s.sch with round := t.sch.round } } ∧
      l.Perm (s.sch.experts.filter s.eligibleQ) ∧ l.Pairwise (fun a b => firesBefore a b = true) ∧
      t.sch.round = l.map fun q => (q.ctx, q.qh))) ∧
  (∀ (s : State) (c : BitVec 12) (h : BitVec 16) (r : List (BitVec 12 × BitVec 16)), s.sch.round = (c, h) :: r →
    (∀ u, s.fire c h = .fired u → exec .expertFiring s = .next { u with sch := { u.sch with round := r } }) ∧
    (∀ u, s.fire c h = .wait u → exec .expertFiring s = .next { u with sch := { u.sch with round := s.sch.round } }) ∧
    (∀ u, r = [] → s.fire c h = .passed u → exec .expertFiring s = .next { u with sch := { u.sch with round := [] } }) ∧
    (∀ q u, s.expert? c h = some q → (q.rcap ≤ q.tokens.length ∨ q.ringCount = 0) → s.fire c h = .fired u → ∃ n nr, 0 < n ∧ nr ≤ n ∧ n ≤ q.maxBatch ∧
      (nr = 0 ∨ n - nr = q.tokens.length) ∧
      (∃ q' more, u.expert? c h = some q' ∧ q'.tokens = q.tokens.drop (n - nr) ++ more ∧
        q'.rrdix = q.rrdix + BitVec.ofNat 32 nr + BitVec.ofNat 32 more.length ∧ q'.rwrix = q.rwrix ∧ q'.lastAt = q.lastAt ∧
        q'.fired = q.fired + 1 ∧ (q.ringCount = nr → more = [])) ∧
      ∃ i, i < q.batchSlots ∧ (∀ x ∈ s.batches c h.toNat, x.1 ≠ i) ∧ u.batches c h.toNat = s.batches c h.toNat ++ [(i, q.slotVa i)]))

/-- Completion (R178, R179, R359). -/
def Obligations.EngineCompletion : Prop :=
  ∀ (s : State) (core : BitVec 10) (ctx : BitVec 12) (tl status det : Nat) (f : BitVec 4) (c : Cmd),
    tl < 4 → status < 16 → det < 256 → (s.coreCtx core ctx).head tl = some c → (s.coreCtx core ctx).finished = [] →
    let k := s.coreCtx core ctx
    let t := s.finishCmd core ctx tl status det f
    let l := t.coreCtx core ctx
    t = { s with cores := t.cores } ∧ (∀ a b, (a ≠ core ∨ b ≠ ctx) → t.coreCtx a b = s.coreCtx a b) ∧
    l.queue (queueOf tl) = (k.queue (queueOf tl)).erase c ∧ (∀ q, q ∈ [0, 2, 4, 8] → q ≠ queueOf tl → l.queue q = k.queue q) ∧
    l.progress tl = Progress.fresh ∧ (∀ n, n ≠ tl → l.progress n = k.progress n) ∧
    (c.num = k.tl.toList.getD tl 0 + 1 → l.tl = put8 k.tl tl c.num ∧ l.finished = []) ∧
    (c.num ≠ k.tl.toList.getD tl 0 + 1 → l.tl = k.tl ∧ l.finished = [(tl, c.num)]) ∧
    l.tlts = put8 k.tlts tl (max48 (k.tlts.toList.getD tl 0) (k.progress tl).ts) ∧
    (let g := f ||| (k.progress tl).flags
     if c.w0.getLsbD 54 = true ∨ status ≠ 0 then
      ∃ x : PopWord, l.popQueue (queueOf tl + 1) = k.popQueue (queueOf tl + 1) ++ [x] ∧ x.ts = (k.progress tl).ts ∧
        bits x.word 63 32 = c.num.toNat % 2 ^ 32 ∧ bits x.word 31 28 = status ∧ x.word.getLsbD 27 = g.getLsbD 0 ∧ x.word.getLsbD 26 = g.getLsbD 1 ∧
        x.word.getLsbD 25 = g.getLsbD 2 ∧ x.word.getLsbD 24 = g.getLsbD 3 ∧ x.word.getLsbD 23 = c.w0.getLsbD 55 ∧
        bits x.word 15 8 = bits c.w0 63 56 ∧ bits x.word 7 0 = det
     else l.popQueue (queueOf tl + 1) = k.popQueue (queueOf tl + 1))

/-- The matrix engine (R239 to R242, R362 to R369). -/
def Obligations.MatrixCommands : Prop :=
  (∀ (s u : State) (e : EngWho) (q : Cmd) (c : Mxzero), MatrixHead s c.ctl q u e →
    exec (.mxzero c) s = .next ((u.setTile e.core c.tile (((u.core e.core).tile c.tile).clear c.ity)).done e 0 0) ∧
    ∀ x : Tile, (∀ r n, (x.clear c.ity).at' r n = 0) ∧ (x.clear c.ity).poison = false ∧ (x.clear c.ity).armed = x.armed) ∧
  (∀ (s u : State) (e : EngWho) (q : Cmd) (c : Mxring), MatrixHead s c.ctl q u e →
    let n := c.nsm1.toNat + 1
    let r : Ring := ⟨c.nsm1, c.szm1, c.base.toNat, 0⟩
    (c.base.toNat % 64 ≠ 0 ∨ q.inTeam c.base.toNat (n * r.slotBytes) = false → exec (.mxring c) s = .next (u.done e 1 0)) ∧
    (c.base.toNat % 64 = 0 → q.inTeam c.base.toNat (n * r.slotBytes) = true → ∃ v : State, exec (.mxring c) s = .next (v.done e 0 0).feWake ∧
      v = { u with cores := v.cores } ∧ (v.coreCtx e.core e.ctx).ring (ringIndex c.ctl c.ring) = r ∧
      (∀ j, j < n → (v.sp e.core (r.slot j / 4)).full = false) ∧ (∀ i, (v.sp e.core i).data = (u.sp e.core i).data) ∧
      ∀ i, (∀ j, j < n → r.slot j / 4 ≠ i) → v.sp e.core i = u.sp e.core i)) ∧
  (∀ (s u : State) (e : EngWho) (q : Cmd) (c : Mxacc), MatrixHead s c.ctl q u e →
    let fa := u.slotOf q.launch c.sla.toNat
    let fb := u.slotOf q.launch c.slb.toNat
    let m := c.mm1.toNat + 1
    let n := c.nm1.toNat + 1
    let k := 16 * (c.km1.toNat + 1)
    let cc := u.coreCtx e.core e.ctx
    let ra := cc.ring (ringIndex c.ctl c.ra)
    let na := operandBytes fa.efmt m k
    let nb := operandBytes fb.efmt n k
    let good : Prop := fa.malformed = false ∧ fb.malformed = false ∧ fb.efmt ≠ 7 ∧ c.sbi = 0 ∧ na ≤ 64 * ra.szm1.toNat ∧
      nb ≤ 64 * (cc.ring (ringIndex c.ctl c.rb)).szm1.toNat
    (fa.malformed = true ∨ fb.malformed = true ∨ 64 * ra.szm1.toNat < na ∨ 64 * (cc.ring (ringIndex c.ctl c.rb)).szm1.toNat < nb →
      exec (.mxacc c) s = .next (u.done e 1 0)) ∧
    let p := cc.progress e.tl
    (good → p.tookA = false → p.tookB = false → (u.sp e.core ra.header).full = false →
      (p.want.isSome = true → exec (.mxacc c) s = .next u) ∧
      (p.want = none → exec (.mxacc c) s = .next (u.stamp.1.modProgress e.core e.ctx e.tl fun x =>
        { x with want := some ⟨u.seqCtr, ringIndex c.ctl c.ra, na⟩ }))) ∧
    (∀ (w : State) (b : Nat × Bool), good → p.tookA = true →
      (p.tookB = true ∧ w = u ∧ b = (p.slotB, p.poisonB)) ∨
        (p.tookB = false ∧ p.want = none ∧ (u.sp e.core ((cc.ring (ringIndex c.ctl c.rb)).header)).full = true ∧
          (let rb := cc.ring (ringIndex c.ctl c.rb)
           b = u.spBytes e.core (rb.slot rb.take.toNat + 64) nb ∧
           w = (u.takeSlot e.core e.ctx e.tl (ringIndex c.ctl c.rb) nb).feWake)) →
      let x := (w.core e.core).tile c.tile
      let y := x.accumulate fa fb p.slotA b.1 m n k
      (∀ d, mxRefusal x fa fb [] = some d → exec (.mxacc c) s = .next (w.done e 3 d)) ∧
      (mxRefusal x fa fb [] = none → (p.poisonA || b.2) = false →
        exec (.mxacc c) s = .next ((w.setTile e.core c.tile { y.1 with mix := 2 }).done e 0 0 y.2)))) ∧
  (∀ (x : Tile) (fa fb : Slot) (a b m n k r j : Nat), m ≤ 64 → n ≤ 64 → j < 64 →
    ((x.accumulate fa fb a b m n k).1).at' r j =
      (if r < m ∧ j < n then (mxElem fa fb a b k r j (x.at' r j)).1 else x.at' r j)) ∧
  (∀ (s u : State) (e : EngWho) (q : Cmd) (c : Mxdrain), MatrixHead s c.ctl q u e →
    let o := u.slotOf q.launch c.slo.toNat
    let n := c.nm1.toNat + 1
    let eo := elemBits o.efmt / 8
    let x := (u.core e.core).tile c.tile
    (o.malformed = true ∨ c.dst = 3 ∨ c.rstr.toNat % 4 ≠ 0 → exec (.mxdrain c) s = .next (u.done e 1 0)) ∧
    (o.malformed = false → c.dst = 0 → c.rstr.toNat % 4 = 0 → c.mm1 = 0 → q.inTeam c.addr.toNat (n * eo) = true →
      (drainOk x.int o.efmt = false → exec (.mxdrain c) s = .next (u.done e 3 1)) ∧
      (drainOk x.int o.efmt = true → n * eo ≤ c.rstr.toNat → c.addr.toNat + n * eo ≤ 196608 → s.eng.units = 0 → (u.coreCtx e.core e.ctx).progress e.tl = Progress.fresh →
        ∃ v : State, exec (.mxdrain c) s = .next (v.done e 0 0) ∧ v = { u with cores := v.cores } ∧
          (v.spBytes e.core c.addr.toNat (n * eo)).1 = (drainRow x o 0 n).1 ∧
          (v.core e.core).tile c.tile = (if c.clr then x.clear x.int else x) ∧
          (∀ i, 4 * i + 4 ≤ c.addr.toNat ∨ c.addr.toNat + n * eo ≤ 4 * i → v.sp e.core i = u.sp e.core i)))) ∧
  (∀ (s u : State) (e : EngWho) (q : Cmd) (c : Mxdadd), MatrixHead s c.ctl q u e → ((u.coreCtx e.core e.ctx).progress e.tl).begun = false →
    let x := (u.core e.core).tile c.tile
    let there : Prop := c.tcore.toNat ≤ 767 ∧ ∃ t ∈ u.sch.teams, t.core = c.tcore ∧ 0 < t.alive ∧ (u.launch t.launch).ctx = e.ctx
    (¬there → exec (.mxdadd c) s = .next (u.done e 3 4)) ∧
    (there → (u.tileOf c.tcore e.ctx c.tt).int ≠ x.int → exec (.mxdadd c) s = .next (u.done e 3 1)) ∧
    (there → (u.tileOf c.tcore e.ctx c.tt).int = x.int → ∃ t y, exec (.mxdadd c) s = .next t ∧ t = { u with cores := t.cores, seqCtr := u.seqCtr + 1 } ∧
      (t.core c.tcore).arriving = (u.core c.tcore).arriving ++ [y] ∧ y.core = e.core ∧ y.tile = c.tt ∧ y.elems = x.data ∧ y.scales = x.scales ∧
      y.int = x.int ∧ y.m = c.mm1.toNat + 1 ∧ y.n = c.nm1.toNat + 1 ∧ y.poison = x.poison ∧ y.ctx = e.ctx ∧ y.tcx = c.tcx ∧
      ((t.coreCtx e.core e.ctx).progress e.tl).begun = true)) ∧
  (∀ (s u : State) (e : EngWho) (q : Cmd) (c : Mxarm), MatrixHead s c.ctl q u e → c.ordr = false ∨ c.ncm1.toNat < 16 →
    let x := (u.core e.core).tile c.tile
    let p := (u.coreCtx e.core e.ctx).progress e.tl
    (p.begun = false → x.armed = true → exec (.mxarm c) s = .next u) ∧
    (p.begun = false → x.armed = false → (c.ordr = true → c.ncm1.toNat + 1 ≤ (u.core e.core).staging) → ∃ t, exec (.mxarm c) s = .next t ∧
      t = { u with cores := t.cores } ∧
      (t.core e.core).tile c.tile = { x with armed := true, ordered := c.ordr, want := c.ncm1.toNat + 1, got := 0 }) ∧
    (p.begun = true → x.got < x.want → exec (.mxarm c) s = .next u) ∧
    (p.begun = true → x.want ≤ x.got → ∃ v : State, exec (.mxarm c) s = .next (v.done e 0 0) ∧
      (v.core e.core).tile c.tile = { x with armed := false, ordered := false, want := 0, got := 0 })) ∧
  (∀ (s : State) (core : BitVec 10) (y : Contribution), s.ev.a = core.toNat → (s.core core).arriving[s.ev.b]? = some y →
    s.suspended y.ctx = false → s.serves core y.ctx = true → s.mayAdd core y = true →
    let w := s.engage core y.ctx
    let x := (w.core core).tile y.tile
    let z := x.addIn y
    let u := w.setCore core { w.core core with arriving := (w.core core).arriving.eraseIdx s.ev.b }
    (x.armed = false ∨ x.ordered = false → exec .mxdaddContribution s = .next ((u.setTile core y.tile
      (if x.armed then { z.1 with got := z.1.got + 1 } else z.1)).done { core := y.core, ctx := y.ctx, tl := b2n y.ectx } 0 0 z.2)) ∧
    (x.armed = true → x.ordered = true → x.got + 1 < x.want → exec .mxdaddContribution s = .next
      (((u.setCore core { u.core core with staged := (u.core core).staged ++ [y] }).setTile core y.tile { x with got := x.got + 1 }).done
        { core := y.core, ctx := y.ctx, tl := b2n y.ectx } 0 0 0))) ∧
  (∀ (s : State) (core : BitVec 10) (ctx : BitVec 12), s.ev.a = core.toNat → s.ev.b = ctx.toNat →
    (768 ≤ core.toNat ∨ (s.core core).owner = some ctx ∨ s.atBoundary core = false ∨ s.suspended ctx = true → exec .engineContextSwitch s = .next s) ∧
    (core.toNat < 768 → (s.core core).owner = none → s.suspended ctx = false → (s.coreCtx core ctx).saved = none → ∃ t, exec .engineContextSwitch s = .next t ∧
      t = { s with cores := t.cores } ∧ (t.core core).owner = some ctx ∧ ∀ i r n, ((t.core core).tile i).at' r n = 0))

/-- The copy engine (R371 to R373); a turn without a limit on its units runs the command to its end. -/
def Obligations.CopyCommands : Prop :=
  (∀ (s u : State) (e : EngWho) (q : Cmd) (c : Cpy), CopyHead s c.ctl q u e → (u.coreCtx e.core e.ctx).progress e.tl = Progress.fresh →
    c.ssp = 1 → c.dsp = 1 → q.core = e.core → s.eng.units = 0 →
    let n := c.len.toNat + 1
    let a := c.src.toNat
    let b := c.dsta.toNat
    ((∃ i, i < n ∧ (q.inTeam (4 * (a + i)) 4 = false ∨ q.inTeam (4 * (b + i)) 4 = false)) → exec (.cpy c) s = .next (u.done e 1 0)) ∧
    ((∀ i, i < n → q.inTeam (4 * (a + i)) 4 = true ∧ q.inTeam (4 * (b + i)) 4 = true) → (a + n ≤ b ∨ b + n ≤ a) →
      ∃ v : State, exec (.cpy c) s = .next (v.done e 0 0) ∧ v = { u with cores := v.cores } ∧
        (∀ i, i < n → (v.sp e.core (b + i)).data = (u.sp e.core (a + i)).data ∧ (v.sp e.core (b + i)).poison = (u.sp e.core (a + i)).poison ∧
          (v.sp e.core (b + i)).full = (u.sp e.core (b + i)).full) ∧
        (∀ i, i < b ∨ b + n ≤ i → v.sp e.core i = u.sp e.core i) ∧ ∀ k, k ≠ e.core → v.core k = u.core k)) ∧
  (∀ (s u : State) (e : EngWho) (q : Cmd) (c : Cpfill), CopyHead s c.ctl q u e → (u.coreCtx e.core e.ctx).progress e.tl = Progress.fresh →
    c.dsp = 1 → q.core = e.core → s.eng.units = 0 →
    let n := c.len.toNat + 1
    let b := c.dsta.toNat
    ((∃ i, i < n ∧ q.inTeam (4 * (b + i)) 4 = false) → exec (.cpfill c) s = .next (u.done e 1 0)) ∧
    ((∀ i, i < n → q.inTeam (4 * (b + i)) 4 = true) → ∃ v : State, exec (.cpfill c) s = .next (v.done e 0 0) ∧ v = { u with cores := v.cores } ∧
      (∀ i, i < n → (v.sp e.core (b + i)).data = c.pat ∧ (v.sp e.core (b + i)).poison = false) ∧
      ∀ i, i < b ∨ b + n ≤ i → v.sp e.core i = u.sp e.core i)) ∧
  (∀ (s u : State) (e : EngWho) (q : Cmd) (c : Cpyg), CopyHead s c.ctl q u e → (u.coreCtx e.core e.ctx).progress e.tl = Progress.fresh →
    q.core = e.core → s.eng.units = 0 →
    let base := vaOf (4 * c.base.toNat)
    (c.esz.toNat < 2 ∨ 12 < c.esz.toNat ∨ base.toNat % 2 ^ c.esz.toNat ≠ 0 ∨ q.inTeam (4 * c.idx.toNat) (4 * (c.nim1.toNat + 1)) = false ∨
      q.inTeam (4 * c.dstw.toNat) (2 ^ c.esz.toNat * (c.nim1.toNat + 1)) = false → exec (.cpyg c) s = .next (u.done e 1 0)) ∧
    let x0 := (u.sp e.core c.idx.toNat).data
    let u' := u.modProgress e.core e.ctx e.tl fun p => { p with index := some x0 }
    (∀ v x p, c.esz = 2 → c.nim1 = 0 → base.toNat % 4 = 0 → q.inTeam (4 * c.idx.toNat) 4 = true → q.inTeam (4 * c.dstw.toNat) 4 = true →
      u'.engLoad e (base + 4 * (x0.setWidth 64)) 4 = .ok v x p →
      ∃ y : State, exec (.cpyg c) s = .next (y.done e 0 0) ∧ y = { v with cores := y.cores } ∧
        (y.sp e.core c.dstw.toNat).data = BitVec.ofNat 32 x ∧ ∀ i, i ≠ c.dstw.toNat → y.sp e.core i = v.sp e.core i) ∧
    (∀ v r, c.esz = 2 → c.nim1 = 0 → base.toNat % 4 = 0 → q.inTeam (4 * c.idx.toNat) 4 = true → q.inTeam (4 * c.dstw.toNat) 4 = true →
      u'.engLoad e (base + 4 * (x0.setWidth 64)) 4 = .fault v r →
      ∃ y : State, exec (.cpyg c) s = .next (y.done e 2 r.kind.toNat) ∧ y = { v with cores := y.cores } ∧
        ∀ i, y.sp e.core i = v.sp e.core i)) ∧
  (∀ (s u : State) (e : EngWho) (q : Cmd) (c : Cpys), CopyHead s c.ctl q u e →
    ((u.coreCtx e.core e.ctx).progress e.tl).begun = false →
    (∀ v r, u.readStencil e c.sstn = .fault v r → exec (.cpys c) s = .next (v.done e 2 r.kind.toNat)) ∧
    (∀ v, u.readStencil e c.sstn = .wait v → exec (.cpys c) s = .next v) ∧
    (∀ v a p w b p', u.readStencil e c.sstn = .ok v a p → v.readStencil e c.dstn = .ok w b p' →
      let src := Stencil.ofWords (wordsOf a 8)
      let dst := Stencil.ofWords (wordsOf b 8)
      ((w.stencilBad e.ctx q.launch dst dst false = true ∨ w.stencilBad e.ctx q.launch src dst true = true) →
        exec (.cpys c) s = .next (w.done e 1 0)) ∧
      (w.stencilBad e.ctx q.launch dst dst false = false → w.stencilBad e.ctx q.launch src dst true = false → dst.count = 0 →
        ∃ y : State, exec (.cpys c) s = .next (y.done e 0 0) ∧ y = { w with cores := y.cores }))) ∧
  (∀ (s u : State) (e : EngWho) (q : Cmd) (c : Cpys), CopyHead s c.ctl q u e → s.eng.units = 0 →
    let p := (u.coreCtx e.core e.ctx).progress e.tl
    let src := Stencil.ofWords (wordsOf p.slotA 8)
    let dst := Stencil.ofWords (wordsOf (p.slotA / 2 ^ 512) 8)
    let fs := u.slotOf q.launch src.fsl
    let fd := u.slotOf q.launch dst.fsl
    let o := dst.offset dst.ext false p.pos
    p.begun = true → dst.count = p.pos + 1 →
    (∀ r, u.target q.asGroup dst fd.efmt o true = .error r → exec (.cpys c) s = .next (u.done e 2 r.kind.toNat)) ∧
    (∀ g b, u.target q.asGroup dst fd.efmt o true = .ok (g, b) →
      (∀ v r, u.elemLoad e q.asGroup src fs (src.offset dst.ext true p.pos) = .fault v r → ∃ y : State,
        exec (.cpys c) s = .next (y.done e 2 r.kind.toNat) ∧ y = { v with cores := y.cores } ∧ ∀ i, y.sp e.core i = v.sp e.core i) ∧
      (∀ v x a, u.elemLoad e q.asGroup src fs (src.offset dst.ext true p.pos) = .ok v x a →
        let code := (elemOfF32 fd (elemToF32 fs x).1).1
        (∀ w r, v.putElems e (elemBits fd.efmt) g [(b, code, a)] = .fault w r → exec (.cpys c) s = .next (w.done e 2 r.kind.toNat)) ∧
        ∀ w b1 b2, v.putElems e (elemBits fd.efmt) g [(b, code, a)] = .ok w b1 b2 →
          ((w.coreCtx e.core e.ctx).progress e.tl).pos = p.pos →
          ∃ y : State, exec (.cpys c) s = .next (y.done e 0 0) ∧ y = { w with cores := y.cores } ∧ ∀ k i, y.sp k i = w.sp k i)))

/-- NSEND, NPOST (R374) and XTASK (R375). When a command leaves its queue, what is read of it before and which mailbox slot it takes are the model's
choices where the rules leave them open (logs 32, 45, 46). -/
def Obligations.NetworkCommands : Prop :=
  (∀ (s : State) (c : NetCmd) (m : Cmd), s.headOf 4 = some m →
    let n := c.conn.toNat
    let x := s.eng.ctx
    let wrong : Prop := canonical c.va = false ∨ 2 ^ 20 < c.len.toNat
    let shut : Prop := s.connOpen n = false ∨ s.connCtx n ≠ x
    (wrong → exec (.nsend c) s = .next (s.endNsend s.eng.core x m n 5)) ∧
    (¬wrong → shut → exec (.nsend c) s = .next (s.endNsend s.eng.core x m n 9)) ∧
    (¬wrong → ¬shut → s.viral x = true → exec (.nsend c) s = .next ((s.dropWrite x (field 63 1 ||| field 0 n)).endNsend s.eng.core x m n 8)) ∧
    (¬wrong → ¬shut → s.viral x = false → s.upPorts n = [] → exec (.nsend c) s = .next (s.endNsend s.eng.core x m n 7)) ∧
    (¬wrong → ¬shut → s.viral x = false → s.upPorts n ≠ [] → (64 ≤ (s.conn n).tx.length ∨ (s.conn n).unsent = true) → exec (.nsend c) s = .next s) ∧
    (¬wrong → ¬shut → s.viral x = false → s.upPorts n ≠ [] → (s.conn n).tx.length < 64 → (s.conn n).unsent = false →
      let y : TxMsg := ⟨0, c.va, c.len.toNat, none, some ⟨s.eng.core, x, 4, m.num⟩, 0, []⟩
      (∀ u, s.readPacket n y 0 = .wait u → exec (.nsend c) s = .next u) ∧
      (∀ u st, s.readPacket n y 0 = .fail u st → exec (.nsend c) s = .next (u.endNsend s.eng.core x m n st)) ∧
      (∀ u d, s.readPacket n y 0 = .ok u d → exec (.nsend c) s =
        .next ((u.setCoreCtx s.eng.core x ((u.coreCtx s.eng.core x).take 4)).startMsg n y)))) ∧
  (∀ (s : State) (c : Nat) (m : TxMsg), c < 4096 → (∀ r, m.cmd = some r → s.viral r.ctx = false) → s.upPorts c = [0] → s.connOpen c = true → m.fixed.isSome = true → m.len ≤ packetSize (s.connBits c 61 60) →
    (s.port 0).waiting = [] → (portIslands 0).all s.islandRuns = true → (s.port 0).canSend (s.transportFrame c (s.connBits c 59 57 / 3) 1 false 0 0 0 (m.fixed.getD [])) = true →
    (m.fixed.getD []).length = m.len → m.len ≤ 4096 → (s.conn c).tx = [] → (s.reg (Reg.conn c 24)).toNat + 1 < 2 ^ 48 → ∃ f, (s.startMsg c m).net.wire = s.net.wire ++ [(0, f)] ∧
      Hdr.op f.hdr = 1 ∧ (Hdr.msn f.hdr).toNat = s.regBits (Reg.conn c 16) 63 48 ∧ Hdr.pidx f.hdr = 0 ∧ Hdr.len f.hdr = m.len ∧
      Hdr.lseq f.hdr = (s.port 0).lseq.toNat ∧ f.iv = s.reg (Reg.conn c 24) ∧
      f.payload = (gcmSeal (s.connKey c) (nonceOf (s.connBits c 14 14) f.iv) (hdrBytes f.hdr) (m.fixed.getD [])).1) ∧
  (∀ (s : State) (c : NetCmd) (m : Cmd), s.headOf 5 = some m →
    let n := c.conn.toNat
    let x := s.eng.ctx
    let wrong : Prop := canonical c.va = false ∨ 2 ^ 20 < c.len.toNat
    let shut : Prop := s.connOpen n = false ∨ s.connCtx n ≠ x
    let refused (u : State) (st : Nat) : Prop := ∃ t p, exec (.npost c) s = .next t ∧ t = { u with cores := t.cores, freeCtr := u.freeCtr + 1 } ∧
      (t.coreCtx s.eng.core x).q5 = (u.coreCtx s.eng.core x).q5 ++ [p] ∧ bits p.word 31 28 = st ∧ bits p.word 63 48 = n ∧
      (t.coreCtx s.eng.core x).head 5 = ((u.coreCtx s.eng.core x).take 5).head 5
    let who : Waiter := .engine s.eng.core x 5
    let u := s.walkRange who x c.va c.len.toNat
    let walking : Prop := ∃ a ∈ rangePages c.va c.len.toNat, u.walkWaits who x a = true
    (wrong → refused s 5) ∧ (¬wrong → shut → refused s 9) ∧ (¬wrong → ¬shut → s.postedBefore m.stamp n = true → exec (.npost c) s = .next s) ∧
    (¬wrong → ¬shut → s.postedBefore m.stamp n = false → walking → exec (.npost c) s = .next u) ∧
    (¬wrong → ¬shut → s.postedBefore m.stamp n = false → ¬walking → u.pinnedRange who x c.va c.len.toNat = false → refused u 2) ∧
    (¬wrong → ¬shut → s.postedBefore m.stamp n = false → ¬walking → u.pinnedRange who x c.va c.len.toNat = true → ∃ t, exec (.npost c) s = .next t ∧
      t = { u with cores := t.cores, net := { u.net with conns := t.net.conns } } ∧
      t.conn n = { u.conn n with posted := (u.conn n).posted ++ [⟨c.va, c.len.toNat, some ⟨s.eng.core, x, 5, m.num⟩⟩] } ∧
      (∀ k, k ≠ n → t.conn k = u.conn k) ∧ t.coreCtx s.eng.core x = (u.coreCtx s.eng.core x).take 5)) ∧
  (∀ (s : State) (c : Xtask) (m : Cmd), s.headOf 6 = some m →
    let n := c.conn.toNat
    let x := s.eng.ctx
    let who : Waiter := .engine s.eng.core x 6
    (∀ u w, s.viral x = false → s.readVaWords who x c.va 30 = .ok (u, w) → badVa c.va 256 = true → exec (.xtask c) s = .next (u.endXtask s.eng.core x m n c.va w 0xF id)) ∧
    (s.viral x = true →
      let a := s.wordNow who x (c.va + 8)
      let b := a.1.wordNow who x (c.va + 72)
      exec (.xtask c) s = .next (b.1.endXtask s.eng.core x m n c.va (((List.replicate 10 0).set 1 a.2).set 9 b.2) 7 fun v =>
        v.dropWrite x (field 63 1 ||| field 0 n))) ∧
    (∀ u w, s.viral x = false → s.readVaWords who x c.va 30 = .ok (u, w) → badVa c.va 256 = false →
      ((u.conn n).keyed = false ∨ (c.path = false ∧ (u.connOpen n = false ∨ u.connCtx n ≠ x ∨ u.upPorts n = []))) →
      exec (.xtask c) s = .next (u.endXtask s.eng.core x m n c.va w 0xF id)) ∧
    (∀ u w i, s.viral x = false → s.readVaWords who x c.va 30 = .ok (u, w) → badVa c.va 256 = false → (u.conn n).keyed = true → c.path = true →
      ((List.range 64).find? fun j => (c.dec, BitVec.ofNat 6 j) ∉ u.cxl.mailbox) = some i → ∃ t a p, exec (.xtask c) s = .next t ∧
        t = { u with cores := t.cores, net := { u.net with conns := t.net.conns }, cxl := { u.cxl with mailbox := t.cxl.mailbox, ioOut := t.cxl.ioOut } } ∧
        t.cxl.mailbox = u.cxl.mailbox ++ [(c.dec, BitVec.ofNat 6 i)] ∧ t.cxl.ioOut = u.cxl.ioOut ++ [⟨c.dec.toNat, i, p⟩] ∧
        p.length = 32 ∧ p.take 30 = w.set 1 (u.conn n).serial ∧
        t.conn n = { u.conn n with serial := (u.conn n).serial + 1, awaiting := (u.conn n).awaiting ++ [a] } ∧
        a.serial = (u.conn n).serial ∧ a.rtag = w.getD 9 0 ∧ a.va = c.va ∧ a.slot = some (c.dec, BitVec.ofNat 6 i) ∧
        t.coreCtx s.eng.core x = (u.coreCtx s.eng.core x).take 6))

/-- The link layer of a port (R23 to R29). What waits for the wire, and when a count of retries begins again, are the model's choices (log 49). -/
def Obligations.LinkLayerEvents : Prop :=
  let freed (x : Port) (h : BitVec 128) : List Frame :=
    match x.replay.findIdx? fun f => Hdr.lseq f.hdr = Hdr.lack h with
    | some i => x.replay.drop (i + 1)
    | none => x.replay
  let credited (x : Port) (h : BitVec 128) : Vector Nat 4 :=
    put4 x.credits (bits h 95 94) (x.credits.toList.getD (bits h 95 94) 0 + bits h 93 82)
  (∀ (s : State) (i : Instr), i ∈ [.frameReceive, .creditAckFrame, .retryRequest, .lackTimer] → s.portUp s.ev.a = false → exec i s = .next s) ∧
  (∀ (s : State), s.portUp s.ev.a = true → (s.port s.ev.a).waiting = [] →
    let p := s.ev.a
    let x := s.port p
    let f := s.ev.frame
    let h := f.hdr
    let known : Prop := f.etype.toNat = s.regBits Reg.netcfg 63 48 ∧ bits h 127 124 = 1
    let only (t : State) : Prop := t = { s with net := { s.net with ports := t.net.ports, wire := t.net.wire, inbox := t.net.inbox }, freeCtr := t.freeCtr } ∧
      ∀ q, q ≠ p → t.port q = s.port q
    let idle : Prop := ∀ y ∈ s.net.conns, y.2.tx = []
    let again := if (freed x h).length < x.replay.length then 0 else x.retries
    (s.ev.flag = true → x.asked < 7 → ∃ t g, exec .frameReceive s = .next t ∧ only t ∧ t.net.wire = s.net.wire ++ [(p, g)] ∧ Hdr.kind g.hdr = 2 ∧
      Hdr.lack g.hdr = x.lack.toNat ∧ (t.port p).discarding = true ∧ (t.port p).window = x.window + 1 ∧ (t.port p).asked = x.asked + 1 ∧ t.net.inbox = s.net.inbox) ∧
    (s.ev.flag = true → 7 ≤ x.asked → idle → ∃ t, exec .frameReceive s = .next t ∧ t.portUp p = false ∧ (t.port p).retraining = 15 ∧
      (t.port p).replay = []) ∧
    (s.ev.flag = false → ¬known ∨ Hdr.kind h ≠ 0 → exec .frameReceive s = .next s) ∧
    (s.ev.flag = false → known → Hdr.kind h = 0 → Hdr.lseq h ≠ (x.lack + 1).toNat →
      (x.discarding = true → exec .frameReceive s = .next s) ∧
      (x.discarding = false → x.asked < 7 → ∃ t g, exec .frameReceive s = .next t ∧ only t ∧ t.net.wire = s.net.wire ++ [(p, g)] ∧ Hdr.kind g.hdr = 2 ∧
        (t.port p).discarding = true ∧ (t.port p).lack = x.lack ∧ t.net.inbox = s.net.inbox)) ∧
    (s.ev.flag = false → known → Hdr.kind h = 0 → Hdr.lseq h = (x.lack + 1).toNat → ∃ t, exec .frameReceive s = .next t ∧ only t ∧
      t.net.wire = s.net.wire ∧ (t.port p).lack = x.lack + 1 ∧ (t.port p).discarding = false ∧ (t.port p).replay = freed x h ∧
      (t.port p).credits = credited x h ∧
      (Hdr.op h < 5 → t.net.inbox = s.net.inbox ++ [(p, f)] ∧ (t.port p).owed = x.owed) ∧
      (5 ≤ Hdr.op h → t.net.inbox = s.net.inbox ∧
        (t.port p).owed = put4 x.owed (Hdr.vc h) (x.owed.toList.getD (Hdr.vc h) 0 + (frameBytes h + 255) / 256))) ∧
    (known → Hdr.kind h = 1 → ∃ t, exec .creditAckFrame s = .next t ∧ only t ∧ t.net.wire = s.net.wire ∧ t.net.inbox = s.net.inbox ∧
      (t.port p).replay = freed x h ∧ (t.port p).credits = credited x h ∧ (t.port p).lack = x.lack) ∧
    (known → Hdr.kind h = 2 → 7 ≤ again → idle → ∃ t, exec .retryRequest s = .next t ∧ t.portUp p = false ∧ (t.port p).retraining = 15) ∧
    (known → Hdr.kind h = 2 → again < 7 → ∃ t, exec .retryRequest s = .next t ∧ only t ∧ (t.port p).retries = again + 1 ∧ (t.port p).replay = freed x h ∧
      t.net.wire = s.net.wire ++ (freed x h).map (fun g => (p, g)) ∧ (t.port p).window = x.window + 1) ∧
    (∃ t g, exec .lackTimer s = .next t ∧ only t ∧ t.net.wire = s.net.wire ++ [(p, g)] ∧ Hdr.kind g.hdr = 1 ∧ Hdr.lack g.hdr = x.lack.toNat ∧
      bits g.hdr 95 94 = x.returns.1 ∧ bits g.hdr 93 82 = x.returns.2 ∧ (t.port p).owed = x.pay.owed ∧ t.net.inbox = s.net.inbox)) ∧
  (∀ (s : State), let k := s.ev.a
    (216 ≤ k ∨ absentLane k = true ∨ (72 ≤ k ∧ s.regBits (Reg.health k 8) 1 1 = 1) → exec .laneDown s = .next s) ∧
    (72 ≤ k → k < 216 → absentLane k = false → s.regBits (Reg.health k 8) 1 1 = 0 → ∃ t, exec .laneDown s = .next t ∧
      t = (s.setRegBits (Reg.health k 8) 1 1 1).postLink 2 k 0 (s.regBits (Reg.health k 8) 63 32) (s.reg (Reg.health k 0))) ∧
    (k < 72 → s.portUp (k / 4) = true → s.regBits (Reg.health k 8) 1 1 = 0 → (∀ y ∈ s.net.conns, y.2.tx = []) → ∃ t, exec .laneDown s = .next t ∧ t.portUp (k / 4) = false ∧
      t.regBits (Reg.health k 8) 1 1 = 1) ∧
    (216 ≤ k → exec .laneRetrain s = .next s) ∧
    (72 ≤ k → k < 216 → exec .laneRetrain s = .next (s.setRegBits (Reg.health k 8) 1 1 0)) ∧
    (k < 72 → s.portUp (k / 4) = false → s.regBits (Reg.port (k / 4)) 63 63 = 1 → (s.port (k / 4)).retraining &&& ~~~(1#4 <<< (k % 4)) = 0 →
      (∀ i, i < 4 → 4 * (k / 4) + i ≠ k → s.regBits (Reg.health (4 * (k / 4) + i) 8) 1 1 = 0) → ∃ t, exec .laneRetrain s = .next t ∧
        t = { s with mgmt := t.mgmt, net := { s.net with ports := t.net.ports } } ∧ t.portUp (k / 4) = true ∧ t.regBits (Reg.health k 8) 1 1 = 0))

/-- KEY_WRITE, CONN_ENABLE, CONN_DISABLE (R30, R31), ACK, NAK and NOBUF (R37, R40), timers (R37), DATA and DATAF (R38 to R43, R45),
MESSAGE_ABANDON (R42). What the rules leave open of timers, back-off, closing and answers is the model's choice (logs 50, 70). -/
def Obligations.ConnectionEvents : Prop :=
  (∀ (s : State), let c := s.ev.a
    (4096 ≤ c ∨ s.connBits c 63 63 = 1 → exec .keyWrite s = .next s) ∧
    (c < 4096 → s.connBits c 63 63 = 0 → ∃ t, exec .keyWrite s = .next t ∧ t = { s with mgmt := t.mgmt, net := { s.net with conns := t.net.conns } } ∧
      t.reg (Reg.conn c 56) = s.ev.w ∧ t.reg (Reg.conn c 24) = 0 ∧ t.conn c = { s.conn c with keyed := true, lastSerial := 0, serial := 1 } ∧
      ∀ k, k ≠ c → t.conn k = s.conn k) ∧
    (4096 ≤ c → exec .connEnable s = .next s ∧ exec .connDisable s = .next s) ∧
    (c < 4096 → s.connBits c 63 63 = 0 → ∃ t, exec .connEnable s = .next t ∧ t.mem = s.mem ∧
      (bits s.ev.w 61 60 = 3 → t.connOpen c = false ∧ t.regBits (Reg.conn c 16) 15 12 = 2 ∧ t.regBits (Reg.conn c 16) 11 8 = 5 ∧ t.connBits c 63 63 = 0) ∧
      (bits s.ev.w 61 60 ≠ 3 → ((s.conn c).keyed = false ∨ 2 ^ 48 ≤ (s.reg (Reg.conn c 24)).toNat) → t.regBits (Reg.conn c 16) 15 12 = 2 ∧ t.regBits (Reg.conn c 16) 11 8 = 6) ∧
      (bits s.ev.w 61 60 ≠ 3 → (s.conn c).keyed = true → (s.reg (Reg.conn c 24)).toNat < 2 ^ 48 → t.connOpen c = true ∧ t.connBits c 63 63 = 1 ∧ t.rxbase c = 0 ∧
        t.regBits (Reg.conn c 16) 63 48 = 0 ∧ (t.conn c).posted = [] ∧ (t.conn c).rx = [])) ∧
    (c < 4096 → s.connBits c 63 63 = 1 → (s.conn c).tx = [] → (s.conn c).posted = [] → ∃ t, exec .connDisable s = .next t ∧ t.connOpen c = false ∧
      t.connBits c 63 63 = 0 ∧ (t.conn c).rx = [] ∧ (t.conn c).waitTx = [] ∧ t.mem = s.mem)) ∧
  (∀ (s u : State) (c : Nat) (h : BitVec 128) (d : List Byte),
    (s.takeFrame 2 = .ok u c h d →
      (u.txMsg c (Hdr.msn h) = none → exec .ackReceive s = .next u) ∧
      (∀ m, u.txMsg c (Hdr.msn h) = some m → Hdr.pidx h + 1 ≠ m.packets.length → exec .ackReceive s =
        .next (u.modPacket c m.msn (Hdr.pidx h) fun q => { q with acked := true, nobuf := false, refused := false })) ∧
      (∀ m r, u.txMsg c (Hdr.msn h) = some m → Hdr.pidx h + 1 = m.packets.length → m.cmd = some r → m.serial = 0 → Hdr.astat h = 0 →
        ∃ t, exec .ackReceive s = .next t ∧ t = { u with cores := t.cores, net := { u.net with conns := t.net.conns } } ∧
          (t.conn c).tx = (u.conn c).tx.filter (fun x => x.msn ≠ m.msn) ∧ t.coreCtx r.core r.ctx = (u.coreCtx r.core r.ctx).complete 4 r.num 0 0)) ∧
    (s.takeFrame 3 = .ok u c h d →
      (u.ordered c = false → exec .nakReceive s = .next u) ∧
      (u.ordered c = true → exec .nakReceive s =
        .next ((u.modPacket c (Hdr.msn h) (Hdr.pidx h) fun q => { q with refused := false }).resendFrom c (Hdr.msn h) (Hdr.pidx h)))) ∧
    (s.takeFrame 4 = .ok u c h d → ∃ t, exec .nobufReceive s = .next t ∧ t = { u with net := { u.net with conns := t.net.conns } } ∧
      (∀ k, k ≠ c → t.conn k = u.conn k) ∧ ∀ m q, (u.conn c).tx = [m] → m.msn = Hdr.msn h → m.packets = [q] → q.pidx = Hdr.pidx h → q.acked = false →
        ∃ m' q', (t.conn c).tx = [m'] ∧ m'.packets = [q'] ∧ q'.nobuf = true ∧ q'.refused = true ∧ q'.last = u.timebase ∧
          q'.backoff = (if q.backoff = 0 then 2 else min 64 (2 * q.backoff))) ∧
    (∀ op i, (op, i) ∈ [(2, Instr.ackReceive), (3, .nakReceive), (4, .nobufReceive), (0, .dataPacketReceive), (1, .datafPacketReceive)] →
      (s.takeFrame op = .none → exec i s = .next s) ∧ (s.takeFrame op = .discard u → exec i s = .next u)) ∧
    (∀ op, s.takeFrame op = .discard u → u.net.conns = s.net.conns ∧ u.mem = s.mem ∧ u.cores = s.cores)) ∧
  (∀ (s : State) (i : Instr) (late : Bool) (m : TxMsg) (q : Packet), (i, late) ∈ [(Instr.rtoExpiry, false), (.nobufBackoffExpiry, true)] →
    s.txMsg s.ev.a (BitVec.ofNat 16 s.ev.b) = some m → m.packet s.ev.c = some q →
    let us := if late then q.backoff else s.regBits Reg.netcfg 47 32
    (q.acked = true ∨ q.queued = true ∨ q.nobuf ≠ late ∨ (q.sent ≠ 0 ∧ (s.timebase - q.last).toNat < 1000 * us) → exec i s = .next s) ∧
    (s.connOpen s.ev.a = false → exec i s = .next s) ∧
    (s.connOpen s.ev.a = true → q.acked = false → q.queued = false → q.nobuf = late → q.sent ≠ 0 → 1000 * us ≤ (s.timebase - q.last).toNat →
      (s.regBits Reg.netcfg 31 24 ≤ q.sent → exec i s = .next (s.failConn s.ev.a (if q.refused then 4 else 3))) ∧
      (q.sent < s.regBits Reg.netcfg 31 24 → exec i s = .next (s.transmit s.ev.a (BitVec.ofNat 16 s.ev.b) q.pidx)))) ∧
  (∀ (s u : State) (c : Nat) (h : BitVec 128) (d : List Byte) (final : Bool) (i : Instr),
    (i, final) ∈ [(Instr.dataPacketReceive, false), (.datafPacketReceive, true)] → s.takeFrame (if final then 1 else 0) = .ok u c h d →
    let msn := Hdr.msn h
    let ahead := (msn - u.rxbase c).toNat
    (Hdr.psz h = 3 ∨ d.length ≠ Hdr.len h ∨ 4096 < Hdr.len h → exec i s = .next u) ∧
    (Hdr.psz h ≠ 3 → d.length = Hdr.len h → Hdr.len h ≤ 4096 → (∀ x ∈ (u.conn c).done, x.msn ≠ msn) → (∀ m ∈ (u.conn c).rx, m.msn ≠ msn) →
      (64 ≤ ahead → ahead < 2 ^ 16 - 64 → exec i s = .next u) ∧
      (2 ^ 16 - 64 ≤ ahead → exec i s = .next (u.answer c 2 msn (Hdr.pidx h) 0)) ∧
      (ahead < 64 → u.ordered c = true → (ahead ≠ 0 ∨ Hdr.pidx h ≠ (u.conn c).nextPidx) →
        exec i s = .next (u.answer c 3 (u.rxbase c) (u.conn c).nextPidx 0)) ∧
      (ahead < 64 → u.ordered c = false → u.bufferFor c ahead = none → exec i s = .next (u.answer c 4 msn (Hdr.pidx h) 0)) ∧
      (∀ b v ts, ahead < 64 → u.ordered c = false → u.bufferFor c ahead = some (b, none) → u.slotFree = true → Hdr.pidx h = 0 → d.length ≤ b.len →
        u.placeData b.waiter (u.connCtx c) b.va 0 0 65 d = .ok v ts →
        let y := v.modConn c fun k => { k with ts := max48 k.ts ts }
        (final = true → ∃ m, exec i s = .next ((y.completeRx c m 0).answer c 2 msn 0 0) ∧ m.msn = msn ∧ m.placed = d.length ∧ m.ts = ts ∧ m.final = none) ∧
        (final = false → ∃ w : State, exec i s = .next (w.answer c 2 msn 0 0) ∧ w = { y with net := { y.net with conns := w.net.conns } } ∧
          ∃ m, (w.conn c).rx = m :: (v.conn c).rx.filter (fun x => x.msn ≠ msn) ∧ m.got = [0] ∧ m.placed = d.length ∧ m.buf = b))) ∧
  (∀ (s : State) (m : RxMsg), (s.conn s.ev.a).rx.find? (fun m => m.msn = BitVec.ofNat 16 s.ev.b) = some m →
    ((s.timebase - m.last).toNat < 64000 * s.regBits Reg.netcfg 47 32 → exec .messageAbandon s = .next s) ∧
    (64000 * s.regBits Reg.netcfg 47 32 ≤ (s.timebase - m.last).toNat → exec .messageAbandon s = .next (s.completeRx s.ev.a m 3))))

/-- DOORBELL_KICK (R91, R93), QUANTUM_BOUNDARY (R94), SLOT_RESTORE_DONE and SLOT_SAVE_DONE (R93), QOP_DISABLE, QOP_ENABLE and QOP_CLEAR_ERROR
(R95), INTERRUPT_TIMER (R103), ERHEAD_WRITE (R104). What the rules leave open of an evaluation and of saves and restores is the model's choice (log 54). -/
def Obligations.QueueTableEvents : Prop :=
  (∀ (s : State) (c : BitVec 12), s.ev.a = c.toNat →
    let w := s.ev.w
    let h := BitVec.ofNat 16 (bits w 63 48)
    let new := BitVec.ofNat 32 (bits w 31 0)
    let w0 := s.qword c h 0
    (∀ i, s.queueSlot c h = some i → (s.qslot i).st = .saving →
      exec .doorbellKick s = .next (s.setQslot i { s.qslot i with held := (s.qslot i).held ++ [w] })) ∧
    (∀ i, s.queueSlot c h = some i → (s.qslot i).st ≠ .saving →
      (s.qen c = false ∨ Qw.type w0 ≠ 1 ∨ Qw.en w0 = false ∨ Qw.err w0 = true ∨ 2 ^ 31 ≤ (new - (s.qslot i).wrix).toNat →
        exec .doorbellKick s = .next (s.countReg (Reg.queue c.toNat 48) 63 32)) ∧
      (s.qen c = true → Qw.type w0 = 1 → Qw.en w0 = true → Qw.err w0 = false → (new - (s.qslot i).wrix).toNat < 2 ^ 31 →
        (∀ l, s.logsz c h = some l → (new - (s.qslot i).rdix).toNat ≤ 2 ^ l →
          exec .doorbellKick s = .next (s.setQslot i { s.qslot i with wrix := new })) ∧
        (s.logsz c h = none ∨ (∃ l, s.logsz c h = some l ∧ 2 ^ l < (new - (s.qslot i).rdix).toNat) → exec .doorbellKick s =
          .next ((s.queueError c h).postCompletion c 0 (s.qslot i).cseq.toNat h.toNat 10 0 0 0)))) ∧
    (s.queueSlot c h = none →
      let rd := BitVec.ofNat 32 (bits (s.qword c h 3) 63 32)
      let wr := BitVec.ofNat 32 (bits (s.qword c h 3) 31 0)
      (s.qen c = false ∨ Qw.type w0 ≠ 1 ∨ Qw.en w0 = false ∨ Qw.err w0 = true ∨ 2 ^ 31 ≤ (new - wr).toNat →
        exec .doorbellKick s = .next (s.countReg (Reg.queue c.toNat 48) 63 32)) ∧
      (s.qen c = true → Qw.type w0 = 1 → Qw.en w0 = true → Qw.err w0 = false → (new - wr).toNat < 2 ^ 31 →
        ∀ l, s.logsz c h = some l → (new - rd).toNat ≤ 2 ^ l →
          let u := (s.setQword c h 3 (setBits (s.qword c h 3) 31 0 new.toNat)).pend c h
          exec .doorbellKick s = .next u.wakeFirmware ∧ (∃ p ∈ u.que.pending, p.ctx = c ∧ p.qh = h) ∧
          ((∀ p ∈ u.que.pending, u.quota p.ctx = 0) → exec .doorbellKick s = .next u)))) ∧
  (∀ (s : State), s.que.pending = [] → exec .quantumBoundary s = .next s) ∧
  (∀ (s : State) (p : PendQ), s.que.pending = [p] → s.quota p.ctx ≠ 0 → s.qen p.ctx = true →
    (∀ j, j < 64 → (s.qslot j).nextQ ≠ some (p.ctx, p.qh)) → s.claimed p.ctx < s.quota p.ctx →
    let u : State := { s with que := { s.que with pending := [{ p with epri := satInc p.epri }] } }
    (∀ i, ((List.range 64).find? fun j => (s.qslot j).st = .free) = some i → ∃ t : State, exec .quantumBoundary s = .next t ∧
      t = u.mapQueue i p.ctx p.qh ∧ (t.qslot i).st = .restoring ∧ (t.qslot i).ctx = p.ctx ∧ (t.qslot i).qh = p.qh ∧ t.que.pending = []) ∧
    (∀ v, v < 64 → (∀ j, j < 64 → (s.qslot j).st ≠ .free) → (s.qslot v).st = .active →
      s.quantum ≤ (s.timebase - (s.qslot v).mappedAt).toNat →
      (∀ j, j < 64 → j ≠ v → (s.qslot j).st ≠ .active ∨ (s.timebase - (s.qslot j).mappedAt).toNat < s.quantum) →
      ((s.qslot v).victimPri < ((satInc p.epri).toNat : Int) → ∃ t : State, exec .quantumBoundary s = .next t ∧
        t.qslot v = { s.qslot v with st := .saving, nextQ := some (p.ctx, p.qh) } ∧
        t = { u with que := { u.que with slots := t.que.slots } }) ∧
      (((satInc p.epri).toNat : Int) ≤ (s.qslot v).victimPri → exec .quantumBoundary s = .next u))) ∧
  (∀ (s : State),
    let i := s.ev.a
    let q := s.qslot i
    let w := s.qword q.ctx q.qh 0
    (q.st ≠ .restoring → exec .slotRestoreDone s = .next s) ∧
    (q.st = .restoring → Qw.en w = true → Qw.err w = false →
      exec .slotRestoreDone s = .next (s.setQslot i { q with st := .active, mappedAt := s.timebase })) ∧
    (q.st = .restoring → Qw.en w = false ∨ Qw.err w = true → ∃ t : State, exec .slotRestoreDone s = .next t ∧
      t.qslot i = { q with st := .saving, mappedAt := s.timebase } ∧ t = { s with que := { s.que with slots := t.que.slots } }) ∧
    (q.st ≠ .saving → exec .slotSaveDone s = .next s) ∧
    (q.st = .saving → q.held = [] →
      let u := ((((s.setQword q.ctx q.qh 3 (field 32 q.rdix.toNat ||| field 0 q.wrix.toNat)).setQword q.ctx q.qh 4
        (field 16 q.cseq.toNat)).setQword q.ctx q.qh 5 (field 63 (b2n q.hwait))).setQslot i QSlot.idle).countMapped q.ctx
      (q.nextQ = none → q.rdix = q.wrix ∨ Qw.en (u.qword q.ctx q.qh 0) = false ∨ Qw.err (u.qword q.ctx q.qh 0) = true →
        exec .slotSaveDone s = .next u) ∧
      (q.nextQ = none → q.rdix ≠ q.wrix → Qw.en (u.qword q.ctx q.qh 0) = true → Qw.err (u.qword q.ctx q.qh 0) = false →
        exec .slotSaveDone s = .next (u.pend q.ctx q.qh)) ∧
      (∀ c h, q.nextQ = some (c, h) → q.rdix = q.wrix → (∃ p ∈ u.que.pending, p.ctx = c ∧ p.qh = h) →
        (u.qen c = true → u.claimed c < u.quota c → exec .slotSaveDone s = .next (u.mapQueue i c h)) ∧
        (u.qen c = false ∨ u.quota c ≤ u.claimed c → exec .slotSaveDone s = .next u)) ∧
      (u.que.pending = [] → u.wakeFirmware = u))) ∧
  (∀ (s : State) (c : BitVec 12) (h : BitVec 16), s.ev.a = c.toNat → s.ev.b = h.toNat →
    let d := s.setEntry0 c h 59 false
    let e := s.setEntry0 c h 58 false
    (Qw.type (d.qword c h 0) ≠ 1 → exec .qopDisable s = .next d) ∧
    (Qw.type (d.qword c h 0) = 1 → (d.unpend c h).queueSlot c h = none → exec .qopDisable s = .next (d.unpend c h)) ∧
    (∀ i, Qw.type (d.qword c h 0) = 1 → (d.unpend c h).queueSlot c h = some i → ((d.unpend c h).qslot i).st = .active →
      exec .qopDisable s = .next ((d.unpend c h).setQslot i { (d.unpend c h).qslot i with st := .saving })) ∧
    exec .qopEnable s = .next (s.setEntry0 c h 59 true) ∧
    (Qw.type (e.qword c h 0) = 1 → e.queueSlot c h = none → bits (e.qword c h 3) 63 32 ≠ bits (e.qword c h 3) 31 0 →
      exec .qopClearError s = .next (e.pend c h)) ∧
    (Qw.type (e.qword c h 0) ≠ 1 ∨ e.queueSlot c h ≠ none ∨ bits (e.qword c h 3) 63 32 = bits (e.qword c h 3) 31 0 →
      exec .qopClearError s = .next e)) ∧
  (∀ (s : State) (c : BitVec 12), s.ev.a = c.toNat →
    let itime := s.regBits (Reg.queue c.toNat 32) 55 40
    let n := (Tab.get (0, 0) s.que.since c.toNat).1
    let at' := (Tab.get (0, 0) s.que.since c.toNat).2
    let head := BitVec.ofNat 32 (bits s.ev.w 63 32)
    let d := (head - s.ringTail c).toNat
    (itime ≠ 0 → n ≠ 0 → 1000 * itime ≤ (s.timebase - at').toNat → ∃ t : State, exec .interruptTimer s = .next t ∧
      t = { s with que := { s.que with interrupts := t.que.interrupts, since := t.que.since } } ∧
      t.que.interrupts = s.que.interrupts ++ [(c.toNat, s.regBits (Reg.queue c.toNat 32) 39 29, s.regBits (Reg.queue c.toNat 32) 28 23)] ∧
      Tab.get (0, 0) t.que.since c.toNat = (0, 0)) ∧
    (itime = 0 ∨ n = 0 ∨ (s.timebase - at').toNat < 1000 * itime → exec .interruptTimer s = .next s) ∧
    (0 < d → d < 2 ^ 31 → exec .erheadWrite s = .next s) ∧
    (d = 0 ∨ 2 ^ 31 ≤ d → (∀ x ∈ s.que.held, x.1 ≠ c) →
      exec .erheadWrite s = .next (s.setRegBits (Reg.queue c.toNat 24) 63 32 head.toNat)))

/-- CMD_NOP, LAUNCH, WAITV, WAITV_REREAD and SIGNAL (R93 to R97, R99, R104, R125). Which command a slot starts, that a waiting record is read again, and
the key of a launch are the model's choices (logs 53, 54). -/
def Obligations.CommandRecords : Prop :=
  (∀ (s : State) (i : Nat),
    let q := s.qslot i
    let base := s.qword q.ctx q.qh 1
    let l := bits (s.qword q.ctx q.qh 2) 63 59
    let who : Waiter := .queue q.ctx q.qh
    (q.st ≠ .active ∨ s.qen q.ctx = false → s.nextRecord i = .none) ∧
    (q.hwait = false → s.ringFull q.ctx = true ∨ q.rdix = q.wrix ∨ 16 ≤ s.running q.ctx q.qh → s.nextRecord i = .none) ∧
    (q.st = .active → s.qen q.ctx = true →
      (∀ u w, q.hwait = false → s.ringFull q.ctx = false → q.rdix ≠ q.wrix → s.running q.ctx q.qh < 16 →
        s.readVaWords who q.ctx (base + BitVec.ofNat 64 (64 * (q.rdix.toNat % 2 ^ l))) 8 = .ok (u, w) → ∃ t : State,
          s.nextRecord i = .record t (some w) q.cseq ∧
          t.qslot i = { u.qslot i with rdix := q.rdix + 1, cseq := q.cseq + 1, hwait := true }) ∧
      (∀ u w, q.hwait = true →
        s.readVaWords who q.ctx (base + BitVec.ofNat 64 (64 * ((q.rdix - 1).toNat % 2 ^ l))) 8 = .ok (u, w) →
          s.nextRecord i = .record u (some w) (q.cseq - 1))) ∧
    (∀ seq,
      let u := s.setQslot i { q with hwait := false }
      let d : State := { u with que := { u.que with begun := s.que.begun.filter fun x => x ≠ (q.ctx, q.qh) } }
      s.commandDone i seq false = d ∧ s.commandDone i seq true = d.postCompletion q.ctx 0 seq.toNat q.qh.toNat 0 0 0 0 ∧
      s.badRecord i seq = (d.queueError q.ctx q.qh).postCompletion q.ctx 0 seq.toNat q.qh.toNat 1 0 0 0) ∧
    (∀ t : State, ((t.qslot i).rdix ≠ q.rdix → (t.qslot i).rdix = (t.qslot i).wrix → s.wakeEmpty t i = t.wakeFirmware) ∧
      ((t.qslot i).rdix = q.rdix ∨ (t.qslot i).rdix ≠ (t.qslot i).wrix → s.wakeEmpty t i = t))) ∧
  (∀ (ins : Instr) (op : Nat) (s : State), (ins, op) ∈ [(Instr.cmdNop, 0), (.launch, 1), (.waitv, 2), (.signal, 3)] →
    let i := s.ev.a
    (s.nextRecord i = .none → exec ins s = .next s) ∧
    (∀ u, s.nextRecord i = .wait u → exec ins s = .next u) ∧
    (∀ u w seq, s.nextRecord i = .record u w seq →
      (recordRow w ≠ op → exec ins s = .next s) ∧
      (w = none → op = 0 → exec ins s = .next (s.wakeEmpty (u.badRecord i seq) i))) ∧
    (∀ u w seq, s.nextRecord i = .record u (some w) seq → recordRow (some w) = op →
      let q := u.qslot i
      (u.malformed q.ctx w = true → exec ins s = .next (s.wakeEmpty (u.badRecord i seq) i)) ∧
      (u.malformed q.ctx w = false → bit (w.getD 0 0) 54 = true ∨ op = 3 → u.running q.ctx q.qh ≠ 0 → exec ins s = .next (s.wakeEmpty u i)) ∧
      (u.malformed q.ctx w = false → op ≠ 2 ∨ (q.ctx, q.qh) ∉ u.que.begun → u.ringFull q.ctx = true → exec ins s = .next (s.wakeEmpty u i)))) ∧
  (∀ (s : State), ((s.qslot s.ev.a).hwait = false → exec .waitvReread s = .next s) ∧
    ((s.qslot s.ev.a).hwait = true → exec .waitvReread s = exec .waitv s)) ∧
  (∀ (s u : State) (w0 w1 w2 w3 : Word) (r : List Word) (seq : BitVec 48),
    let i := s.ev.a
    let q := u.qslot i
    let cmpl := bit w0 55
    s.nextRecord i = .record u (some (w0 :: w1 :: w2 :: w3 :: r)) seq → u.malformed q.ctx (w0 :: w1 :: w2 :: w3 :: r) = false →
    (bit w0 54 = true → u.running q.ctx q.qh = 0) → (u.ringFull q.ctx = false ∨ (bits w0 63 56 = 2 ∧ (q.ctx, q.qh) ∈ u.que.begun)) →
    let who : Waiter := .queue q.ctx q.qh
    let after (t : State) : Host.Outcome State Fault Refusal := .next (s.wakeEmpty t i)
    let u1 : State := { u with que := { u.que with begun := if (q.ctx, q.qh) ∈ u.que.begun then u.que.begun else u.que.begun ++ [(q.ctx, q.qh)] } }
    (bits w0 63 56 = 0 → exec .cmdNop s = after (u.commandDone i seq cmpl)) ∧
    (bits w0 63 56 = 1 →
      (∀ v, u.launchRecord q.ctx q.qh seq cmpl w1 = .wait v →
        exec .launch s = after (if bit w0 54 then v else v.unpass i)) ∧
      (∀ v chk, u.launchRecord q.ctx q.qh seq cmpl w1 = .bad v chk →
        exec .launch s = after ((v.recordDone i).postCompletion q.ctx 0 seq.toNat q.qh.toNat 2 0 0 chk)) ∧
      (∀ v l, u.launchRecord q.ctx q.qh seq cmpl w1 = .ok v l →
        (v.refusesLaunch l = true → exec .launch s = after ((v.recordDone i).postCompletion q.ctx 0 seq.toNat q.qh.toNat 3 0 0 0)) ∧
        (v.refusesLaunch l = false → ∃ (t : State) (k : Nat), exec .launch s = after t ∧ k = (v.recordDone i).seqCtr ∧ t.seqCtr = k + 1 ∧
          t.launch k = { l with stamp := k } ∧ ∀ x ∈ t.cores, ∀ y ∈ x.2.icache, y.ctx ≠ l.ctx))) ∧
    (bits w0 63 56 = 2 →
      (∀ v x, bit w3 61 = false → u1.readVa who q.ctx w1 8 = .ok (v, x) →
        ((if bit w3 62 = true then x = w2.toNat else w2.toNat ≤ x) → exec .waitv s = after (v.commandDone i seq cmpl)) ∧
        (¬ (if bit w3 62 = true then x = w2.toNat else w2.toNat ≤ x) → exec .waitv s = after v)) ∧
      (bit w3 61 = true →
        let v := u1.synIn (synKey q.ctx w1.toNat)
        let x := (v.syn (synKey q.ctx w1.toNat)).val.toNat
        ((if bit w3 62 = true then x = bits w2 31 0 else bits w2 31 0 ≤ x) → exec .waitv s = after (v.commandDone i seq cmpl)) ∧
        (¬ (if bit w3 62 = true then x = bits w2 31 0 else bits w2 31 0 ≤ x) → exec .waitv s = after v))) ∧
    (bits w0 63 56 = 3 → u.running q.ctx q.qh = 0 →
      (bit w3 61 = true →
        let key := synKey q.ctx w1.toNat
        let v := u.synIn key
        let ts := max48 u.partHigh ((v.syn key).rts + 1)
        let x : State := { v with sch := { v.sch with partClock := max48 v.sch.partClock ts } }
        let y := x.setSyn key ⟨BitVec.ofNat 32 (bits w2 31 0), ts, ts⟩
        let z := if bits w2 31 0 = 0 ∧ y.joinWaits q.ctx w1.toNat = true then y.endRound q.ctx w1.toNat else y
        exec .signal s = after ((z.synWake key).commandDone i seq cmpl)) ∧
      (∀ pa mt co, bit w3 61 = false → u.reach who q.ctx w1 8 .engine = .ok (pa, mt, co) →
        ∀ z ts, ((u.recall (pa / 128)).raiseRts (pa / 128) (u.partHigh + 1)).writeVa who q.ctx w1 8 w2.toNat false = .ok (z, ts) →
          exec .signal s = after (({ z with sch := { z.sch with partClock := max48 z.sch.partClock ts } } : State).commandDone i seq cmpl))))

/-- HEAD_READ_SHARED, HEAD_READ_EXCLUSIVE, HEAD_EVICTION_REPORT, BIRSP_RECEIVE, SNOOP_TIMEOUT (R50, R52, R59, R60), BISNP_RECEIVE,
LEASE_CUT_COMPLETE (R53, R54), HOST_TAKE_HALF, HOST_RELEASE_HALF (R56), DC_ADD_EXTENT, ZERO_FILL_DONE, DC_RELEASE_EXTENT, RELEASE_DRAIN_DONE
(R58 to R60). In what order requests wait at the filter and when zeros are written are, where the rules leave them open, the model's choices
(logs 55, 56). -/
def Obligations.HeadsLeasesAndExtents : Prop :=
  (∀ (s : State) (page : Nat) (v : BitVec 64) (inv : Bool) (f : Filter),
    (s.snoopHeads page v inv f).cxl.headOut =
      s.cxl.headOut ++ (headsOf v).flatMap (fun h => (List.range 128).map fun b => .snoop h page b inv) ∧
    (s.snoopHeads page v inv f).filter page = { f with await := v, since := s.timebase, got := [] }) ∧
  (∀ (s : State) (h : BitVec 6), s.ev.a = h.toNat →
    let pa := s.ev.b
    let page := pa / 2 ^ 15
    let f := s.filter page
    let me := headBit h.toNat
    let free : Prop := f.await = 0 ∧ f.turn = none ∧ f.waiting = []
    (h.toNat ∈ s.cxl.lostHeads → exec .headReadShared s = .next s ∧ exec .headReadExclusive s = .next s) ∧
    (∀ (ins : Instr) (excl : Bool) (data : Option (List Byte)), h.toNat ∉ s.cxl.lostHeads →
      (ins, excl, data) ∈ [(Instr.headReadShared, false, none), (.headReadExclusive, true, if s.ev.flag then some s.ev.bytes else none)] →
      let r : FReq := ⟨some h, none, pa, excl, data⟩
      let u : State := { s.dropEmpty with seqCtr := s.seqCtr + 1 }
      let f' := u.filter page
      (s.extentReg pa = none → exec ins s = .next (if Config.fittingL then s.headSend (.error h.toNat pa false) else s)) ∧
      ∀ o, s.extentReg pa = some o →
        (s.regBits o 1 0 = 3 → exec ins s = .next (if Config.fittingL then s.headSend (.error h.toNat pa true) else s)) ∧
        (s.regBits o 1 0 ≠ 3 → s.regBits o 1 0 ≠ 2 ∨ bit (s.reg (o + 8)) h.toNat = false →
          exec ins s = .next (if Config.fittingL then s.headSend (.error h.toNat pa false) else s)) ∧
        (s.regBits o 1 0 = 2 → bit (s.reg (o + 8)) h.toNat = true →
          (¬free → f.waiting.length < 32 →
            exec ins s = .next (if Config.fittingL then s.setFilter page { f with waiting := f.waiting ++ [r] } else s)) ∧
          (¬free → 32 ≤ f.waiting.length →
            exec ins s = .next (if Config.fittingL then s.headSend (.conflict h.toNat pa) else s)) ∧
          (free → u.filterVictim page = none →
            (f'.st = .i ∨ (f'.st = .s ∧ (excl = false ∨ f'.vec &&& ~~~me = 0)) ∨ (f'.st = .e ∧ f'.vec = me) →
              exec ins s = .next (if Config.fittingL then (u.setFilter page { f' with
                st := if f'.st = .e ∨ excl = true then .e else .s,
                vec := if f'.st = .s ∧ excl = false then f'.vec ||| me else me,
                stamp := s.seqCtr + 1 }).serveHead h r else s)) ∧
            ((f'.st = .s ∧ excl = true ∧ f'.vec &&& ~~~me ≠ 0) ∨ (f'.st = .e ∧ f'.vec ≠ me) →
              exec ins s = .next (if Config.fittingL then
                u.snoopHeads page (if f'.st = .e then f'.vec else f'.vec &&& ~~~me) excl { f' with
                  nextSt := if excl then .e else .s,
                  nextVec := if excl then me else f'.vec ||| me,
                  pending := some r } else s))) ∧
          (free → u.filterVictim page = some none →
            exec ins s = .next (if Config.fittingL then u.headSend (.conflict h.toNat pa) else s)) ∧
          (∀ v, free → u.filterVictim page = some (some v) →
            exec ins s = .next (if Config.fittingL then
              u.snoopHeads v (u.filter v).vec true { u.filter v with nextSt := .i, nextVec := 0, pending := some r } else s)))) ∧
    (bit f.vec h.toNat = false → exec .headEvictionReport s = .next s) ∧
    (bit f.vec h.toNat = true →
      let u := if s.ev.flag then s.writeOut (pa / 64 * 64) 64 (leNat s.ev.bytes) else s
      let g := (u.filter page).without h.toNat
      ((u.filter page).await ≠ 0 → exec .headEvictionReport s = .next (u.setFilter page g)) ∧
      ((u.filter page).await = 0 → g.vec ≠ 0 →
        exec .headEvictionReport s = .next (u.setFilter page { g with stamp := u.seqCtr })) ∧
      ((u.filter page).await = 0 → g.vec = 0 → g.waiting = [] → g.turn = none →
        exec .headEvictionReport s = .next (u.setFilter page Filter.idle)))) ∧
  (∀ (s : State) (h : BitVec 6), s.ev.a = h.toNat →
    let page := s.ev.b
    let f := s.filter page
    let k := s.ev.c
    let rest := f.await &&& ~~~headBit h.toNat
    let got := Tab.get 0 f.got h.toNat ||| BitVec.ofNat 128 (2 ^ k)
    let u := s.writePieces page (s.ev.words.map fun w => BitVec.ofNat 64 (4 * k + w.toNat % 4)) s.ev.bytes
    let g : Filter := { u.filter page with
      got := Tab.set 0 f.got h.toNat got, await := if got = BitVec.allOnes 128 then rest else f.await }
    let lost : State := ({ s with cxl := { s.cxl with lostHeads := putSector h.toNat true s.cxl.lostHeads } } : State).dropResults h.toNat
    (bit f.await h.toNat = false → exec .birspReceive s = .next s ∧ exec .snoopTimeout s = .next s) ∧
    (128 ≤ k → exec .birspReceive s = .next s) ∧
    (bit f.await h.toNat = true →
      (k < 128 → got ≠ BitVec.allOnes 128 ∨ rest ≠ 0 → exec .birspReceive s = .next (u.setFilter page g)) ∧
      (k < 128 → got = BitVec.allOnes 128 → rest = 0 →
        let y (x : Option (Waiter × Bool)) := (u.setFilter page g).putFilter page
          { g with st := g.nextSt, vec := g.nextVec, pending := none, got := [], turn := x }
        (g.pending = none → exec .birspReceive s = .next (y none)) ∧
        (∀ r, g.pending = some r → r.head = none → exec .birspReceive s =
          .next (y (if r.who = some .part then none else r.who.map fun w => (w, r.excl)))) ∧
        (∀ r n, g.pending = some r → r.head = some n → r.pa / 2 ^ 15 = page → exec .birspReceive s = .next ((y none).serveHead n r))) ∧
      ((s.timebase - f.since).toNat < 100000 → exec .snoopTimeout s = .next s) ∧
      (100000 ≤ (s.timebase - f.since).toNat → h.toNat ∈ lost.cxl.lostHeads ∧
        (rest ≠ 0 → exec .snoopTimeout s = .next (lost.setFilter page { f.without h.toNat with await := rest })) ∧
        (rest = 0 → f.waiting = [] → f.pending = none → ∃ t : State, exec .snoopTimeout s = .next t ∧ t.filter page =
          (if f.nextVec &&& ~~~headBit h.toNat = 0 then Filter.idle else
            { f.without h.toNat with
              await := 0, st := f.nextSt, vec := f.nextVec &&& ~~~headBit h.toNat, got := [], turn := none,
              stamp := s.seqCtr }))))) ∧
  (∀ (s : State),
    let page := s.ev.a
    let k := BitVec.ofNat 128 (2 ^ s.ev.b)
    let cut := s.cxl.cuts.find? fun x => x.page = page && !(x.done && x.asked &&& k ≠ 0)
    let due := s.cxl.cuts.find? fun x => x.page = page && !x.done
    (∀ x : Cut, (s.putCut x).cxl.cuts = (s.cxl.cuts.filter fun y => y.page ≠ x.page) ++
      if x.done = true ∧ x.asked = BitVec.allOnes 128 then [] else [x]) ∧
    (128 ≤ s.ev.b → exec .bisnpReceive s = .next s) ∧
    (s.ev.b < 128 → cut = none → exec .bisnpReceive s = .next (if Config.fittingL then s else
      ((({ s with seqCtr := s.seqCtr + 1 } : State).sendBuffers page).cutPage page).putCut ⟨page, s.seqCtr, k, false⟩)) ∧
    (∀ x, s.ev.b < 128 → cut = some x →
      let u := s.putCut { x with asked := x.asked ||| k }
      exec .bisnpReceive s = .next (if Config.fittingL then s else if x.done then u.headSend (.answer page s.ev.b) else u)) ∧
    (due = none → exec .leaseCutComplete s = .next s) ∧
    (∀ x, due = some x →
      (s.busyAt (inPage page) x.since = true → exec .leaseCutComplete s = .next s) ∧
      (s.busyAt (inPage page) x.since = false → ∃ v : State,
        let u := (s.cutPage page).putCut { x with done := true }
        v = { u with cxl := { u.cxl with headOut := u.cxl.headOut ++
          ((List.range 128).filter fun b => bit x.asked b).map fun b => HeadMsg.answer page b } } ∧
        exec .leaseCutComplete s = .next ((v.writePieces page s.ev.words s.ev.bytes).cutPage page))) ∧
    (2 ^ 48 ≤ s.ev.a ∨ populated s.ev.a = false ∨ (s.half s.ev.a).isSome = true → exec .hostTakeHalf s = .next s) ∧
    (s.ev.a < 2 ^ 48 → populated s.ev.a = true → s.half s.ev.a = none →
      let u := (s.cutLine (s.ev.a / 128) true).setHalf s.ev.a (some .taking)
      let busy := u.busyAt (inHalf (s.ev.a / 64)) u.seqCtr
      (u.split (s.ev.a / 128) = true) ∧
      (busy = true → exec .hostTakeHalf s = .next (if Config.fittingL then s else u)) ∧
      (busy = false → ∃ t : State, exec .hostTakeHalf s = .next (if Config.fittingL then s else t) ∧ t.half s.ev.a = some .own ∧
        t = (u.cutLine (s.ev.a / 128) true).setHalf s.ev.a (some .own))) ∧
    (s.half s.ev.a = none → exec .hostReleaseHalf s = .next s) ∧
    (∀ x, s.half s.ev.a = some x →
      let u := if s.ev.bytes = [] then s else s.writeOut (s.ev.a / 64 * 64) 64 (leNat s.ev.bytes)
      (s.ev.flag = true → x = .asked false → exec .hostReleaseHalf s = .next (u.setHalf s.ev.a (some .shared))) ∧
      (s.ev.flag = true → x = .own → exec .hostReleaseHalf s = .next (u.setHalf s.ev.a (some .own))) ∧
      (s.ev.flag = false ∨ (x ≠ .asked false ∧ x ≠ .own) → exec .hostReleaseHalf s = .next (u.setHalf s.ev.a none)))) ∧
  (∀ (s : State),
    let b := s.ev.a
    let n := s.ev.b
    let state (x : Nat) := s.regBits (Reg.extent x 0) 1 0
    let base (x : Nat) := bits (s.reg (Reg.extent x 0)) 63 27
    let size (x : Nat) := bits (s.reg (Reg.extent x 0)) 26 14
    (0 < n → n < 8192 → b < 2 ^ 37 →
      (∃ x, x < 4096 ∧ state x ≠ 0 ∧ b < base x + size x ∧ base x < b + n) ∨ (∀ x, x < 4096 → state x ≠ 0) →
      exec .dcAddExtent s = .next (if Config.fittingL then s.headSend .refused else s)) ∧
    (∀ x, 0 < n → n < 8192 → b < 2 ^ 37 → (∀ y, y < 4096 → state y ≠ 0 → b + n ≤ base y ∨ base y + size y ≤ b) → x < 4096 → state x = 0 →
      (∀ y, y < x → state y ≠ 0) → exec .dcAddExtent s = .next (if Config.fittingL then
        (s.setReg (Reg.extent x 0) (field 27 b ||| field 14 n ||| field 2 (s.ev.c % 4096) ||| 1)).setReg (Reg.extent x 8) s.ev.w else s))) ∧
  (∀ (s : State) (x : BitVec 12), s.ev.a = x.toNat →
    let o := Reg.extent x.toNat 0
    let w := s.reg o
    (s.regBits o 1 0 ≠ 1 → exec .zeroFillDone s = .next s) ∧
    (s.regBits o 1 0 = 1 → ∃ t : State, exec .zeroFillDone s = .next t ∧ t.regBits o 1 0 = 2 ∧
      (∀ y ∈ t.mem, inExtent w y.1 = false) ∧ (∀ y ∈ t.poison, inExtent w (32 * y) = false) ∧
      (∀ y, inExtent w y.1 = false → (y ∈ t.mem ↔ y ∈ s.mem)) ∧ t.cxl.headOut = s.cxl.headOut ++ [.added x.toNat]) ∧
    (s.regBits o 1 0 ≠ 2 → exec .dcReleaseExtent s = .next (if Config.fittingL then s.headSend .refused else s)) ∧
    (s.regBits o 1 0 = 2 → exec .dcReleaseExtent s = .next (if Config.fittingL then s.setRegBits o 1 0 3 else s)) ∧
    (s.regBits o 1 0 ≠ 3 ∨ s.busyAt (inExtent w) s.seqCtr = true ∨ s.headsBusy (inExtent w) = true → exec .releaseDrainDone s = .next s) ∧
    (s.regBits o 1 0 = 3 → s.busyAt (inExtent w) s.seqCtr = false → s.headsBusy (inExtent w) = false → ∃ t : State,
      exec .releaseDrainDone s = .next t ∧ t.regBits o 1 0 = 0 ∧
      t.mem = s.mem ∧ (∀ l ∈ t.coh.l2, inExtent w (128 * l.line) = false) ∧ t.cxl.headOut = s.cxl.headOut ++ [.released x.toNat] ∧
      (∀ y ∈ t.cores, ∀ l ∈ y.2.l1, inExtent w (128 * l.line) = false) ∧ ∀ y ∈ t.cxl.filter, inExtent w (y.1 * 2 ^ 15) = false))

/-- IMAGE_REGISTER, IMAGE_UNREGISTER (R62, R63), MAILBOX_DOORBELL, TASK_PACKET_INTAKE (R65 to R67, R392), TASK_RESULT_RECEIVE, XTASK_TIMEOUT
(R67, R375), HDM_REQUEST_TIMEOUT, HDM_RANGE_LOSS, LOSTD_CLEAR (R118, R119), VCLR (R117). What the rules leave open of registration, of the intake and of
the loss of an expander is the model's choice (logs 51, 52, 73, 74). -/
def Obligations.ImagesTasksAndExpanderLoss : Prop :=
  (∀ (s : State),
    let m := s.ev.image
    let w := m.header.getD 0 0
    let h := Config.sha384 (bytesOfWords (m.header ++ m.launch ++ m.code))
    let key := Config.keySlot (BitVec.ofNat 4 (bits w 31 24))
    let bad := bits w 63 32 ≠ 0x4B494D47 || 16 ≤ bits w 31 24 || m.header.length ≠ 8 || (m.header.drop 1).any (fun x => x ≠ 0) ||
      m.launch.length ≠ 32 || bits w 23 0 ≠ m.code.length || 2 ^ 21 < m.code.length || m.ed25519.length ≠ 64 || m.mldsa.length ≠ 3309
    let known := s.cxl.kernels.any fun x => x.2.any fun k => k.khash = h && !k.unregistered
    let free := (List.range 1024).find? fun i => Tab.get none s.cxl.kernels i = none
    let st := if bad then 1 else if !Config.ed25519Ok key h m.ed25519 then 2 else if !Config.mldsaOk key h m.mldsa then 3
      else if known then 4 else if free = none then 5 else 0
    ∃ t : State, exec .imageRegister s = .next t ∧ t.cxl.mailboxStatus = s.cxl.mailboxStatus ++ [st] ∧
      t = { s with cxl := { s.cxl with kernels := t.cxl.kernels, mailboxStatus := t.cxl.mailboxStatus }, cores := t.cores } ∧
      (st ≠ 0 → t.cxl.kernels = s.cxl.kernels ∧ t.cores = s.cores) ∧
      (∀ i, st = 0 → free = some i → Tab.get none t.cxl.kernels i = some ⟨h, m.launch, m.code, false⟩ ∧
        (∀ j, j ≠ i → Tab.get none t.cxl.kernels j = Tab.get none s.cxl.kernels j) ∧
        ∀ x ∈ t.cores, ∀ l ∈ x.2.l1, (128 * l.line) / 2 ^ 24 ≠ 2 ^ 28 + i)) ∧
  (∀ (s : State),
    let h := BitVec.ofNat 384 (leNat (bytesOfWords s.ev.words))
    ∃ t : State, exec .imageUnregister s = .next t ∧ t = { s with cxl := { s.cxl with kernels := t.cxl.kernels } } ∧ t.kernelOf h = none ∧
      ∀ i k, Tab.get none s.cxl.kernels i = some k → k.khash ≠ h → k.unregistered = false → Tab.get none t.cxl.kernels i = some k) ∧
  (∀ (s : State) (h n : BitVec 6), s.ev.a = h.toNat → s.ev.b = n.toNat →
    let k := 64 * h.toNat + n.toNat
    let ws := if s.ev.words = [] then Tab.get [] s.cxl.slots k else padTo 32 s.ev.words
    exec .mailboxDoorbell s = .next (if Config.fittingL then { s with cxl := { s.cxl with
      slots := Tab.set [] s.cxl.slots k ws, packets := s.cxl.packets ++ [(3968 + h.toNat, true, padTo 32 ws)] } } else s)) ∧
  (∀ (s : State), s.cxl.starting = none → s.cxl.packets = [] → exec .taskPacketIntake s = .next s) ∧
  (∀ (s : State) (t : Task) (args : List Word), s.cxl.starting = some (t, args) → exec .taskPacketIntake s = .next (s.startAdmitted t args)) ∧
  (∀ (s : State) (c : Nat) (io : Bool) (w : List Word) (r : List (Nat × Bool × List Word)), s.cxl.starting = none → s.cxl.packets = (c, io, w) :: r →
    let ctx := BitVec.ofNat 12 (bits (w.getD 0 0) 47 36)
    let k := (s.kernelOf (khashOf w)).getD 0
    let t : Task := ⟨c, io, w.getD 9 0, w.getD 1 0, ctx, k, 0⟩
    let args := (w.drop 10).take 20
    let b : State := ({ s with cxl := { s.cxl with packets := r } } : State).modConn c fun n => { n with lastSerial := w.getD 1 0 }
    (bits (w.getD 0 0) 63 56 ≠ 1 ∨ 20 < bits (w.getD 0 0) 55 51 ∨ bits (w.getD 8 0) 49 0 ≠ 0 → s.packetStatus c io w = 1) ∧
    (s.packetStatus c io w ≠ 0 → exec .taskPacketIntake s =
      .next (({ s with cxl := { s.cxl with packets := r } } : State).sendResult t (s.packetStatus c io w))) ∧
    (s.packetStatus c io w = 0 → exec .taskPacketIntake s =
      .next (({ b with cxl := { b.cxl with starting := some (t, args) } } : State).startAdmitted t args))) ∧
  (∀ (s : State) (t : Task) (args : List Word) (n : Kernel), Tab.get none s.cxl.kernels t.kernel = some n →
    let l : Launch := { Launch.none with ctx := t.ctx, task := true, words := n.launch }
    let refused (u : State) (st : Nat) : State :=
      (({ u.clearVerdicts .intake with cxl := { u.cxl with starting := none } } : State).sendResult t st).freeKernels
    (∀ u, s.checkRecord .intake l = .wait u → s.startAdmitted t args = u) ∧
    (∀ u chk, s.checkRecord .intake l = .bad u chk → s.startAdmitted t args = refused u 9) ∧
    (∀ u l', s.checkRecord .intake l = .ok u l' →
      (u.refusesLaunch l' = true → s.startAdmitted t args = refused u 9) ∧
      (u.refusesLaunch l' = false →
        (∀ v, u.writeArgs t.ctx l'.argb 0 4 (bytesOfWords args) = .wait v → s.startAdmitted t args = v) ∧
        (∀ v kd, u.writeArgs t.ctx l'.argb 0 4 (bytesOfWords args) = .fault v kd → s.startAdmitted t args =
          refused v (if kd = 5 then 8 else 9)) ∧
        (∀ v ts, u.writeArgs t.ctx l'.argb 0 4 (bytesOfWords args) = .ok v ts → ∃ (z : State) (key : Nat), s.startAdmitted t args = z ∧
          key = v.seqCtr ∧ z.launch key = { l' with stamp := key } ∧ z.cxl.tasks = v.cxl.tasks ++ [{ t with launch := key }] ∧
          z.cxl.starting = none ∧ z.cxl.packets = v.cxl.packets ∧ z.net = v.net ∧ z.mem = v.mem)))) ∧
  (∀ (s : State),
    (s.ev.flag = true → (s.conn s.ev.a).awaiting.find? (fun a => a.serial = s.ev.words.getD 1 0) = none → exec .taskResultReceive s = .next s) ∧
    (∀ a, s.ev.flag = true → (s.conn s.ev.a).awaiting.find? (fun a => a.serial = s.ev.words.getD 1 0) = some a →
      (s.resultWaits a.cmd a.va = none → exec .taskResultReceive s = .next (s.endTask s.ev.a a (padTo 4 s.ev.words))) ∧
      (∀ v, s.resultWaits a.cmd a.va = some v → exec .taskResultReceive s =
        .next { v with cxl := { v.cxl with results := v.cxl.results ++ [(s.ev.a, padTo 4 s.ev.words)] } })) ∧
    (s.ev.flag = false → s.cxl.results = [] → exec .taskResultReceive s = .next s) ∧
    (∀ c w r, s.ev.flag = false → s.cxl.results = (c, w) :: r →
      let u : State := { s with cxl := { s.cxl with results := r } }
      ((s.conn c).awaiting.find? (fun a => a.serial = w.getD 1 0) = none → exec .taskResultReceive s = .next u) ∧
      (∀ a, (s.conn c).awaiting.find? (fun a => a.serial = w.getD 1 0) = some a →
        (u.resultWaits a.cmd a.va = none → exec .taskResultReceive s = .next (u.endTask c a (padTo 4 w))) ∧
        (∀ v, u.resultWaits a.cmd a.va = some v → exec .taskResultReceive s =
          .next { v with cxl := { v.cxl with results := v.cxl.results ++ [(c, padTo 4 w)] } }))) ∧
    ((s.conn s.ev.a).awaiting.find? (fun a => a.serial = s.ev.w) = none → exec .xtaskTimeout s = .next s) ∧
    (∀ a, (s.conn s.ev.a).awaiting.find? (fun a => a.serial = s.ev.w) = some a →
      ((s.timebase - a.start).toNat < 100000000 → exec .xtaskTimeout s = .next s) ∧
      (100000000 ≤ (s.timebase - a.start).toNat →
        let u := ((s.conn s.ev.a).tx.filter fun m => m.serial = a.serial).foldl (fun v m => v.takeBack s.ev.a m.msn) s
        let w := resultWords a.rtag a.serial 0xF s.timebase
        (u.resultWaits a.cmd a.va = none → exec .xtaskTimeout s = .next (u.endTask s.ev.a a w)) ∧
        (∀ v, u.resultWaits a.cmd a.va = some v → exec .xtaskTimeout s =
          .next { v with cxl := { v.cxl with results := v.cxl.results ++ [(s.ev.a, w)] } })))) ∧
  (∀ (s : State),
    let d := s.ev.a
    let late : Prop := ∃ g ∈ s.groups, ∃ a ∈ g.inflight, a.pendingAt (inRange d) = true ∧ 10000000 ≤ (s.timebase - a.since).toNat
    (late → exec .hdmRequestTimeout s = exec .hdmRangeLoss s) ∧ (¬late → exec .hdmRequestTimeout s = .next s) ∧
    (8 ≤ d ∨ bit (s.reg Reg.lostd) d = true → exec .hdmRangeLoss s = .next s) ∧
    (d < 8 → bit (s.reg Reg.lostd) d = false → ∃ t : State, exec .hdmRangeLoss s = .next t ∧ (Config.fittingL = true → t = s) ∧
      (Config.fittingL = false →
        let s0 := s.setRegBits Reg.lostd d d 1
        let u := s0.discardLines fun l => inRange d (128 * l)
        let v := s0.groups.foldl (fun v g => v.failAccesses s0 g (inRange d) 6 (BitVec.ofNat 4 d)) u
        bit (u.reg Reg.lostd) d = true ∧ (∀ p ∈ t.cxl.cuts, inRange d (p.page * 2 ^ 15) = false) ∧
        t = ({ v with cxl := { v.cxl with cuts := v.cxl.cuts.filter fun k => !inRange d (k.page * 2 ^ 15) } } : State).postLink 3 0 d 0 0))) ∧
  (∀ (s : State), ∃ t : State, exec .lostdClear s = .next t ∧ t = { s with mgmt := t.mgmt } ∧
    (∀ d, d < 8 → bit (t.reg Reg.lostd) d = (bit (s.reg Reg.lostd) d && !bit s.ev.w d)) ∧ ∀ o, o ≠ Reg.lostd → t.reg o = s.reg o) ∧
  (∀ (s : State) (c : BitVec 12), s.ev.a = c.toNat →
    ((∃ x ∈ s.sch.launches, x.2.ctx = c ∧ x.2.finished = false) ∨ (∃ x, s.cxl.starting = some x ∧ x.1.ctx = c) → exec .vclr s = .next (s.countReg (Reg.contain c.toNat 24) 31 0)) ∧
    ((∀ x ∈ s.sch.launches, x.2.ctx = c → x.2.finished = true) → (∀ x, s.cxl.starting = some x → x.1.ctx ≠ c) → ∃ t : State, exec .vclr s = .next t ∧ t.viral c = false ∧
      t = { s with mgmt := t.mgmt, sch := { s.sch with viralAt := t.sch.viralAt } } ∧
      ∀ o, o ≠ Reg.contain c.toNat 8 → t.reg o = s.reg o))

/-- ENTRY_OUT_OF_RANGE, ENTRY_BACK_IN_RANGE, EXCURSION_TIMEOUT, ENTRY_STABLE_TIMEOUT, COLD_START (R8, R9), TELEMETRY_REFRESH (R12 to R14, R17 to
R19), PYRANO_STEP_DOWN (R18), CLOCK_WINDOW, ISLAND_RELEASE (R16), REGULATOR_FAULT (R12), HEALTH_WINDOW (R22, R101). The model's choices, not the spec's: Pyrano's step and the choice of stopped windows
(log 69), what an island in reset loses and the order of its effects (log 33), and the state that a cold start leaves (log 5). -/
def Obligations.PackageEvents : Prop :=
  (∀ (s : State),
    let e := s.pkg.entry
    exec .entryOutOfRange s = .next { s with pkg := { s.pkg with entry := { e with
      inRange := false,
      pwrbad := true,
      timedOut := if e.inRange then false else e.timedOut } } } ∧
    (∃ t : State, exec .entryBackInRange s = .next t ∧
      t = { s with pkg := { s.pkg with entry := { e with inRange := true, pwrbad := false, timedOut := false } }, mgmt := t.mgmt } ∧
      t.regBits Reg.mstat 47 32 = (if e.inRange = false ∧ e.timedOut = false ∧ e.held = false then min (s.regBits Reg.mstat 47 32 + 1) 65535
        else s.regBits Reg.mstat 47 32) ∧
      ∀ o, o ≠ Reg.mstat → t.reg o = s.reg o) ∧
    (e.inRange = true ∨ e.held = true → exec .excursionTimeout s = .next s) ∧
    (e.inRange = false → e.held = false → ∃ t : State, exec .excursionTimeout s = .next t ∧ t.pkg.entry.held = true ∧
      t.reg Reg.mstat = setBits (s.reg Reg.mstat) 0 0 1 ∧ (∀ o, o ≠ Reg.mstat → t.reg o = regReset o) ∧ t.mem = s.mem ∧
      t.cur = State.reset.cur ∧ t.parked = [] ∧ t.cores = State.reset.cores ∧ t.coh = State.reset.coh ∧ t.sch = State.reset.sch) ∧
    (e.inRange = true → e.held = true →
      exec .entryStableTimeout s = .next { s with pkg := { s.pkg with entry := { e with held := false } } }) ∧
    (e.inRange = false ∨ e.held = false → exec .entryStableTimeout s = .next s) ∧
    (∃ t : State, exec .coldStart s = .next t ∧ (∀ o, t.reg o = regReset o) ∧ t.mem = [] ∧ t.cur = State.reset.cur ∧ t.parked = [] ∧
      t.pkg.entry.held = true ∧ t.pkg.entry.inRange = e.inRange)) ∧
  (∀ (s : State), (s.ev.islands = [] → exec .telemetryRefresh s = .next s.applyPending) ∧
    (∀ x, s.ev.islands = [x] → exec .telemetryRefresh s = .next (s.applyPending.refreshIsland 0 x)) ∧
    (∀ o w, s.pkg.pending = [(o, some w)] → s.applyPending.reg o = w)) ∧
  (∀ (s : State) (n : Nat), n < 96 →
    let top := max 800 (min (s.regBits (Reg.islandCtl n) 39 28) 2000 / 25 * 25)
    800 ≤ s.ownStep n ∧ s.ownStep n ≤ top ∧ s.ownStep n % 25 = 0 ∧ (s.meetsOwn n (s.ownStep n) 0 = true ∨ s.ownStep n = 800) ∧
    (∀ f, f % 25 = 0 → s.ownStep n < f → f ≤ top → s.meetsOwn n f 0 = false) ∧
    800 ≤ s.capStep n ∧ s.capStep n ≤ top ∧ s.capStep n % 25 = 0 ∧ (s.meetsCap n (s.capStep n) 0 = true ∨ s.capStep n = 800) ∧
    ∀ f, f % 25 = 0 → s.capStep n < f → f ≤ top → s.meetsCap n f 0 = false) ∧
  (∀ (s : State) (n : Nat) (x : IslandSample), n < 96 →
    let old := s.reg (Reg.telemetry n)
    let u := s.setReg (Reg.telemetry n) (field 48 (s.island n).supply.toNat ||| field 32 x.curr.toNat ||| field 20 x.temp.toNat |||
      field 16 (b2n (s.island n).held) ||| field 0 ((bits old 15 0 + 1) % 2 ^ 16))
    let own := u.ownStep n
    let cap := u.capStep n
    let c := u.ceiling n
    let i := s.island n
    let excess := u.capOn && u.pcap256 n < 256 * u.powerNow n
    let t := s.refreshIsland n x
    let v := t.reg (Reg.telemetry n)
    bits v 63 48 = (s.island n).supply.toNat ∧ bits v 47 32 = x.curr.toNat ∧ bits v 31 20 = x.temp.toNat ∧ bits v 16 16 = b2n (s.island n).held ∧
    bits v 15 0 = (bits old 15 0 + 1) % 2 ^ 16 ∧ (bit v 17 = true ↔ u.tlim n < u.tempNow n) ∧
    (i.windows = 0 → (bit v 19 = true ↔ own < c ∧ own ≤ cap) ∧ (bit v 18 = true ↔ cap < c ∧ cap ≤ own)) ∧
    (excess = false → (t.island n).mhz.toNat = min own cap ∧ (t.island n).stepTo = 0) ∧
    (excess = true → (t.island n).mhz.toNat = min i.mhz.toNat own ∧
      (t.island n).stepTo = max 800 (min (min own cap) (i.mhz.toNat - 25))) ∧
    (t.island n).supply = Config.supplyFor n (t.island n).mhz.toNat ∧
    t = { s with mgmt := t.mgmt, pkg := { s.pkg with islands := t.pkg.islands } }) ∧
  (∀ (s : State) (n : BitVec 7), s.ev.a = n.toNat →
    let i := s.island n.toNat
    (i.stepTo = 0 → exec .pyranoStepDown s = .next s) ∧
    (i.stepTo ≠ 0 → ∃ t : State, exec .pyranoStepDown s = .next t ∧ (t.island n.toNat).mhz.toNat = min i.mhz.toNat i.stepTo ∧
      (t.island n.toNat).stepTo = 0 ∧ (t.island n.toNat).supply = Config.supplyFor n.toNat (min i.mhz.toNat i.stepTo) ∧
      t = { s with pkg := { s.pkg with islands := t.pkg.islands } } ∧ ∀ k, k ≠ n.toNat → t.island k = s.island k) ∧
    (i.held = true ∨ s.pkg.entry.held = true → exec .clockWindow s = .next s) ∧
    (i.held = false → s.pkg.entry.held = false →
      let stop := decide (countOnes i.windows 9 < s.stopsWanted n.toNat)
      let w := (i.windows <<< 1) ||| BitVec.ofNat 10 (b2n stop)
      let trips := countOnes w 10 = 9 ∧ s.tlim n.toNat + 80 ≤ s.tempNow n.toNat
      (¬ trips → ∃ t : State, exec .clockWindow s = .next t ∧ t.island n.toNat = { i with windows := w, stopped := stop } ∧
        (stop = true → t.regBits Reg.mstat 2 2 = 1 ∧ t.regBits Reg.mstat 31 24 = n.toNat) ∧
        (stop = false → t = s.setIsland n.toNat { i with windows := w, stopped := false })) ∧
      (trips → ∃ u : State, exec .clockWindow s = .next (u.tripIsland n.toNat) ∧ u.cur = s.cur ∧ u.parked = s.parked ∧ u.sch = s.sch ∧
        u.island n.toNat = { i with windows := w, stopped := stop })) ∧
    (∃ t : State, exec .regulatorFault s = .next t ∧
      t = (s.setIsland n.toNat { i with held := true, regFault := true, stopped := false }).islandDown n.toNat ∧
      t.regBits (Reg.telemetry n.toNat) 16 16 = 1 ∧ t.regBits Reg.mstat 1 1 = 1) ∧
    (i.tripped = true → s.tempNow n.toNat < s.tlim n.toNat → ∃ t : State, exec .islandRelease s = .next t ∧
      t.island n.toNat = { i with tripped := false, held := i.regFault, windows := 0, stopped := false } ∧
      t.regBits (Reg.telemetry n.toNat) 16 16 = b2n i.regFault) ∧
    (i.tripped = false ∨ s.tlim n.toNat ≤ s.tempNow n.toNat → exec .islandRelease s = .next s)) ∧
  (∀ (s : State) (n : Nat),
    let u := ((s.setIsland n { s.island n with held := true, tripped := true, stopped := false }).setRegBits (Reg.telemetry n) 16 16 1).setRegBits
      Reg.mstat 3 3 1
    let v := u.setRegBits Reg.mstat 31 24 n
    let w := v.postLink 4 n 0 0 (v.reg (Reg.telemetry n))
    let t := s.islandDown n
    s.tripIsland n = w.islandDown n ∧ t.regBits (Reg.telemetry n) 16 16 = 1 ∧ t.regBits Reg.mstat 1 1 = 1 ∧
    (s.launchesOn n = [] → t = ((s.clearIsland n).setRegBits (Reg.telemetry n) 16 16 1).setRegBits Reg.mstat 1 1 1)) ∧
  (∀ (s : State) (k : Nat) (x : HealthSample), absentLane k = false →
    let u := (s.setReg (Reg.health k 0) (field 48 x.eyeh.toNat ||| field 32 x.eyev.toNat ||| field 0 x.fecc.toNat)).setRegBits
      (Reg.health k 8) 63 32 x.retry.toNat
    let lim := s.reg (Reg.threshold k 0)
    let bad := decide (x.eyeh.toNat < bits lim 63 48 ∨ x.eyev.toNat < bits lim 47 32 ∨ bits lim 31 0 < x.fecc.toNat ∨
      s.regBits (Reg.threshold k 8) 63 32 < x.retry.toNat)
    let v : State := { u with pkg := { u.pkg with degraded := putSector k bad s.pkg.degraded } }
    (bad = true → k ∉ s.pkg.degraded ∨ s.regBits (Reg.health k 8) 0 0 = 0 →
      s.healthObject k x = (v.setRegBits (Reg.health k 8) 0 0 1).postHealth 1 k) ∧
    (bad = false ∨ (k ∈ s.pkg.degraded ∧ s.regBits (Reg.health k 8) 0 0 = 1) → s.healthObject k x = v)) ∧
  (∀ (s u : State), (s.ev.health = [] ∧ u = s) ∨ (∃ x, s.ev.health = [x] ∧ u = s.healthObject 0 (s.laneSample 0 x)) →
    ∃ t : State, exec .healthWindow s = .next t ∧ t = { u with net := { u.net with ports := t.net.ports } } ∧
      ∀ p, p < 18 → t.port p = { u.port p with window := 0 })

/-- PAGE_WALK_COMPLETE (R76, R78), MMU_INVALIDATE, INVALIDATION_COMPLETE, PGRESP (R75, R79, R80), SKIM_REQUEST, SKIM_COPY_DONE, SKIM_HOLD_DONE
(R85, R86), HOT_PAGE_CANDIDATE, HOT_PAGE_DECAY (R88). The model's choices, not the spec's: how a walk is recorded and shared (log 57), what a skim
may name and how its copy waits (log 58), and how a page becomes a candidate (log 59). -/
def Obligations.TranslationEvents : Prop :=
  (∀ (s : State) (c : BitVec 12), s.ev.a = c.toNat →
    let va := s.ev.w
    let f : Walk → Bool := fun w => w.ctx = c && w.page = pageOf va
    let u := s.walkReads c va
    ((s.mmu.walks.take 64).find? f = none → exec .pageWalkComplete s = .next s) ∧
    (∀ w, (s.mmu.walks.take 64).find? f = some w →
      (∀ level e at', s.walk c va = .leaf level e at' →
        let inside : Walk → Prop := fun x => x.ctx = c ∧ x.page / 2 ^ (pageBits level - 15) = va51 va / 2 ^ pageBits level
        ∃ t : State, exec .pageWalkComplete s = .next t ∧
          t = { u with cores := t.cores, mmu := { u.mmu with walks := t.mmu.walks, sects := t.mmu.sects } } ∧
          (∀ x ∈ s.mmu.walks, inside x → ∀ who ∈ x.waiters, who.core? ≠ none →
            t.tlb? who c va = some ⟨c, va51 va / 2 ^ pageBits level, level, e⟩) ∧
          (∀ x, x ∈ t.mmu.walks ↔ x ∈ s.mmu.walks ∧ ¬ inside x)) ∧
      (s.walk c va = .absent → exec .pageWalkComplete s =
        .next (({ u with mmu := { u.mmu with walks := u.mmu.walks.filter fun x => x ≠ w } } : State).pageRequest w.waiters c va w.wr w.fx false)) ∧
      (∀ kd sub dec, s.walk c va = .bad kd sub dec → exec .pageWalkComplete s =
        .next { u with mmu := { u.mmu with walks := u.mmu.walks.filter fun x => x ≠ w } }))) ∧
  (∀ (s : State) (who : List Waiter) (c : BitVec 12) (va : Word) (wr fx perm : Bool),
    (∃ r ∈ s.mmu.reqs, r.ctx = c ∧ r.page = pageOf va) → ∃ t : State, s.pageRequest who c va wr fx perm = t ∧
      t = { s with mmu := { s.mmu with reqs := t.mmu.reqs } } ∧ t.mmu.reqs.length = s.mmu.reqs.length ∧
      ∀ r ∈ t.mmu.reqs, r.ctx = c → r.page = pageOf va → ∀ x ∈ who, x ∈ r.waiters) ∧
  (∀ (s : State),
    (s.mmu.inval ≠ none → exec .mmuInvalidate s = .next s) ∧
    (s.mmu.inval = none → ∃ t : State, exec .mmuInvalidate s = .next t ∧ t.regBits (Reg.mmu 0x10) 0 0 = 1 ∧
      t.mmu.inval = some (BitVec.ofNat 12 (bits s.ev.w 63 52), bit s.ev.w 51, pageOf (s.reg (Reg.mmu 0)), bits s.ev.w 31 0) ∧
      t = { s with mmu := { s.mmu with inval := t.mmu.inval }, mgmt := t.mgmt }) ∧
    (s.mmu.inval = none → exec .invalidationComplete s = .next s) ∧
    (∀ c all first n, s.mmu.inval = some (c, all, first, n) →
      let hit : TlbEntry → Prop := fun e => e.ctx = c ∧ covers all first n e.level e.page = true
      (s.invalBusy c all first n = true → exec .invalidationComplete s = .next s) ∧
      (s.invalBusy c all first n = false → ∃ t : State, exec .invalidationComplete s = .next t ∧ t.mmu.inval = none ∧
        t.regBits (Reg.mmu 0x10) 0 0 = 0 ∧
        (∀ k e, e ∈ (t.core k).tlb ↔ e ∈ (s.core k).tlb ∧ ¬ hit e) ∧ (∀ k e, e ∈ t.sect k ↔ e ∈ s.sect k ∧ ¬ hit e) ∧
        (∀ e, e ∈ t.mmu.tables ↔ e ∈ s.mmu.tables ∧ ¬ (e.ctx = c ∧ covers all first n e.level e.page = true)) ∧
        (∀ x ∈ t.cores, ∀ l ∈ x.2.icache, l.ctx = c → covers all first n 2 (l.line % 2 ^ 44 / 256) = false) ∧
        (all = true → Tab.get none t.mmu.stale c.toNat = none) ∧ (all = false → t.mmu.stale = s.mmu.stale) ∧
        t = { s with mmu := t.mmu, cores := t.cores, mgmt := t.mgmt })) ∧
    (∀ (f : PageReq → Bool), (f = fun r => r.prid.toNat = bits s.ev.w 51 40 && r.ctx.toNat = bits s.ev.w 63 52) →
      (s.mmu.reqs.find? f = none → exec .pgresp s = .next s) ∧
      (∀ r, s.mmu.reqs.find? f = some r → ∃ t : State, exec .pgresp s = .next t ∧
        t = { s with mmu := { s.mmu with reqs := s.mmu.reqs.erase r, verdicts := t.mmu.verdicts } } ∧
        (bit s.ev.w 0 = false → t.mmu.verdicts = s.mmu.verdicts) ∧
        (bit s.ev.w 0 = true → t.mmu.verdicts = s.mmu.verdicts ++ r.waiters.map fun x => (x, r.ctx, r.page))))) ∧
  (∀ (s : State),
    let c := BitVec.ofNat 12 (bits s.ev.w 63 52)
    let sva := s.reg (Reg.mmu 0x20)
    let names := canonical sva = true ∧ inCodeWindow sva = false ∧ s.ten c sva = true
    let u := s.walkReads c sva
    (¬ names → exec .skimRequest s = .next s) ∧
    (names → (∀ e at', s.walk c sva ≠ .leaf 2 e at') ∨ (∃ k ∈ u.mmu.skims, k.ctx = c ∧ k.page = pageOf sva) →
      exec .skimRequest s = .next u) ∧
    (names → ∀ e at', s.walk c sva = .leaf 2 e at' → (∀ k ∈ u.mmu.skims, ¬ (k.ctx = c ∧ k.page = pageOf sva)) →
      exec .skimRequest s = .next (if Config.fittingL then u else { u with mmu := { u.mmu with skims := u.mmu.skims ++
        [⟨c, pageOf sva, .copy, Pte.pfn e, bits s.ev.w 51 15 * 2 ^ 15, e, 0, 0, true, 0⟩] } }))) ∧
  (∀ (s : State) (c : BitVec 12),
    let n := s.regBits (Reg.trans c.toNat 16) 55 44
    let head := s.regBits (Reg.trans c.toNat 32) 63 48
    let x := s.readWord (s.poolEntry c (head % n))
    (n = 0 ∨ head = s.regBits (Reg.trans c.toNat 32) 47 32 → s.poolTake c = none) ∧
    (n ≠ 0 → head ≠ s.regBits (Reg.trans c.toNat 32) 47 32 → s.poolTake c =
      some (x.1.setRegBits (Reg.trans c.toNat 32) 63 48 ((head + 1) % n), x.2.toNat * 2 ^ 15))) ∧
  (∀ (s : State) (c : BitVec 12), s.ev.a = c.toNat →
    let va := s.ev.w
    let u : State := { s with mmu := { s.mmu with hotPages := s.mmu.hotPages.erase (c, pageOf va) } }
    let v := u.walkReads c va
    ((c, pageOf va) ∉ s.mmu.hotPages → exec .hotPageCandidate s = .next s) ∧
    ((c, pageOf va) ∈ s.mmu.hotPages →
      ((∀ e at', u.walk c va ≠ .leaf 2 e at') → exec .hotPageCandidate s = .next v) ∧
      (∀ e at', u.walk c va = .leaf 2 e at' →
        (Pte.pp e = true → exec .hotPageCandidate s = .next (v.countReg (Reg.trans c.toNat 48) 31 0)) ∧
        (Pte.pp e = false → v.regBits (Reg.trans c.toNat 0) 1 1 = 0 ∨ 16 ≤ v.mmu.skims.length ∨
          (∃ k ∈ v.mmu.skims, k.ctx = c ∧ k.page = pageOf va) ∨ v.poolTake c = none → exec .hotPageCandidate s = .next v) ∧
        (Pte.pp e = false → v.regBits (Reg.trans c.toNat 0) 1 1 = 1 → v.mmu.skims.length < 16 →
          (∀ k ∈ v.mmu.skims, ¬ (k.ctx = c ∧ k.page = pageOf va)) → ∀ x f, v.poolTake c = some (x, f) →
          exec .hotPageCandidate s = .next (x.startSkim c va f false))))) ∧
  (∀ (s : State),
    ((s.timebase - s.mmu.decayAt).toNat < 1000000 → exec .hotPageDecay s = .next s) ∧
    (1000000 ≤ (s.timebase - s.mmu.decayAt).toNat → ∃ t : State, exec .hotPageDecay s = .next t ∧
      t = { s with mmu := { s.mmu with hot := t.mmu.hot, decayAt := s.mmu.decayAt + 1000000 } } ∧
      (Tab.wf 0 s.mmu.hot = true → Tab.wf 0 t.mmu.hot = true ∧ ∀ k, Tab.get 0 t.mmu.hot k = Tab.get 0 s.mmu.hot k / 2))) ∧
  (∀ (s : State),
    (s.skim? .copy = none → exec .skimCopyDone s = .next s) ∧
    (∀ k, s.skim? .copy = some k → s.copyWaits k = true →
      exec .skimCopyDone s = .next ((s.copyHalves k).foldl (fun s x => s.askHalves x.1 64 x.2) s)) ∧
    (∀ k k', s.skim? .copy = some k → s.copyWaits k = false →
      let p := k.src / 2 ^ 15
      let u := ((((s.sendBuffers p).flushMerges fun m => m.line / 256 = p).flushMasked p).copyFrame k.src k.dst 256).stamp
      u.1.skim? .copy = some k' → exec .skimCopyDone s = .next (u.1.putSkim k' { k' with st := .hold, since := u.2 })) ∧
    (s.skim? .hold = none → exec .skimHoldDone s = .next s) ∧
    (∀ k, s.skim? .hold = some k →
      (s.busyAt (inPage (k.src / 2 ^ 15)) k.since = true → exec .skimHoldDone s = .next s) ∧
      (s.busyAt (inPage (k.src / 2 ^ 15)) k.since = false →
        let r := s.walkReads k.ctx (vaOf (k.page * 2 ^ 15))
        ((∀ e at', s.walk k.ctx (vaOf (k.page * 2 ^ 15)) ≠ .leaf 2 e at') → exec .skimHoldDone s = .next (r.endSkim k 2)) ∧
        (∀ e at', s.walk k.ctx (vaOf (k.page * 2 ^ 15)) = .leaf 2 e at' →
          (e ||| 4 ≠ k.leaf ||| 4 ∨ Pte.pp e = true → exec .skimHoldDone s = .next (r.endSkim k 2)) ∧
          (e ||| 4 = k.leaf ||| 4 → Pte.pp e = false →
            (k.filter ≠ 0 → r.regBits (Reg.trans k.ctx.toNat 16) 63 56 ≤ k.retry.toNat → exec .skimHoldDone s = .next (r.endSkim k 1)) ∧
            (k.filter ≠ 0 → k.retry.toNat < r.regBits (Reg.trans k.ctx.toNat 16) 63 56 → exec .skimHoldDone s =
              .next ((r.putSkim k { k with st := .copy, filter := 0, retry := k.retry + 1 }).countReg (Reg.trans k.ctx.toNat 48) 63 32)) ∧
            (k.filter = 0 → ∃ u v : State, exec .skimHoldDone s = .next (v.endSkim k 0) ∧
              u = r.writeOut at' 8 (setBits (setBits e 51 15 (k.dst / 2 ^ 15)) 2 2 0).toNat ∧ v.mem = u.mem ∧
              (∀ x ∈ v.cores, ∀ t ∈ x.2.tlb, ¬ (t.ctx = k.ctx ∧ covers false k.page 1 t.level t.page = true)) ∧
              (∀ x ∈ v.mmu.sects, ∀ t ∈ x.2, ¬ (t.ctx = k.ctx ∧ covers false k.page 1 t.level t.page = true)) ∧
              (∀ l ∈ v.coh.l2, inPage (k.src / 2 ^ 15) (128 * l.line) = false) ∧
              ∀ x ∈ v.cores, ∀ l ∈ x.2.l1, inPage (k.src / 2 ^ 15) (128 * l.line) = false))))))

/-- REGISTER_WRITE (R3, R19, R25, R31, R75, R88, R89), and a read of the status of a slot (R92). That HOTT = 0 acts
as 1 (log 59), and which registers are left to events of their own (log 62), are the model's choices, not the spec's. -/
def Obligations.ManagementWrites : Prop :=
  (∀ (o : Nat) (old w : Word) (i : Nat), bit (writtenOver o old w) i =
    (if bit (w1cMask o) i && bit w i then false else if bit (rwMask o) i then bit w i else bit old i)) ∧
  (∀ (s : State),
    let o := s.ev.a
    let w := s.ev.w
    let old := s.reg o
    (s.keyLocked o = true → exec .registerWrite s = .next s) ∧
    (s.keyLocked o = false → delayed o = true → ∃ t : State, exec .registerWrite s = .next t ∧
      t = { s with pkg := { s.pkg with pending := t.pkg.pending } } ∧
      Tab.get none t.pkg.pending o = some (writtenOver o ((Tab.get none s.pkg.pending o).getD old) w)) ∧
    (s.keyLocked o = false → delayed o = false → (o < 0xA0100 ∨ 0xA0190 ≤ o) → (o < 0x100000 ∨ 0x140000 ≤ o) → (o < 0x180000 ∨ 0x1C0000 ≤ o) → o ≠ Reg.mmu 0x30 →
      exec .registerWrite s = .next (s.setReg o (writtenOver o old w))) ∧
    (o = Reg.mmu 0x30 → ∃ t : State, exec .registerWrite s = .next t ∧ t.reg o = writtenOver o old w ∧
      t = { s with mgmt := t.mgmt, mmu := { s.mmu with hotPages := t.mmu.hotPages } } ∧
      ∀ x, x ∈ t.mmu.hotPages ↔ x ∈ s.mmu.hotPages ∨ ∃ y ∈ s.mmu.hot, max 1 (bits (t.reg o) 63 48) ≤ y.2 ∧ y.2 < max 1 (bits old 63 48) ∧
        x = (BitVec.ofNat 12 (y.1 / 2 ^ 36), y.1 % 2 ^ 36)) ∧
    (∀ i, i < 64 →
      let v := s.readRegister (0x1C0000 + 16 * i)
      let x := s.readRegister (0x1C0000 + 16 * i + 8)
      let q := s.qslot i
      bits v 63 62 = (match q.st with
        | .free => 0
        | .restoring => 1
        | .active => 2
        | .saving => 3) ∧
      bits v 61 50 = q.ctx.toNat ∧ bits v 49 34 = q.qh.toNat ∧ bits v 33 26 = q.epri.toNat ∧ bits v 25 0 = 0 ∧
      bits x 63 32 = q.rdix.toNat ∧ bits x 31 0 = q.wrix.toNat) ∧
    (∀ p, p < 18 → o = 0xA0100 + 8 * p → exec .registerWrite s = .next ((s.setReg o (writtenOver o old w)).updatePort p)) ∧
    (∀ (c : BitVec 12), o = Reg.trans c.toNat 0 → ∃ t : State, exec .registerWrite s = .next t ∧ t.reg o = writtenOver o old w ∧
      ((old ^^^ t.reg o) &&& (ones 51 15 ||| 1) ≠ 0 → Tab.get none s.mmu.stale c.toNat = none → Tab.get none t.mmu.stale c.toNat = some old) ∧
      ((old ^^^ t.reg o) &&& (ones 51 15 ||| 1) = 0 ∨ Tab.get none s.mmu.stale c.toNat ≠ none → t.mmu = s.mmu)) ∧
    (∀ (c : BitVec 12), o = Reg.queue c.toNat 0 → ∃ t : State, exec .registerWrite s = .next t ∧ t.reg o = writtenOver o old w ∧
      (bit w 0 = true → t.que = s.que) ∧
      (bit w 0 = false → ∀ i, i < 64 → t.qslot i =
        (if (s.qslot i).ctx = c ∧ ((s.qslot i).st = .active ∨ (s.qslot i).st = .restoring) then { s.qslot i with st := .saving }
         else s.qslot i))))

/-- Decode and encode agree, in both directions (R243, R244, R257; commands R361, R371, R374, R375). -/
def Obligations.RoundTrip : Prop :=
  (∀ (i : Instr) (o : OpInfo), i.info = some o → i.wf = true → ∃ w, encode i = [w] ∧ decode w = .ok i) ∧
  (∀ (i : Instr) (a b : Nat), encodeCmd i = some (a, b) → ∃ w0 w1, encode i = [w0, w1] ∧ decodeCmd w0 w1 = some i) ∧
  (∀ (w : Word) (i : Instr), decode w = .ok i → encode i = [w]) ∧
  (∀ (w0 w1 : Word) (i : Instr), decodeCmd w0 w1 = some i → encode i = [w0, w1])

/-- Words of the spec's encodings and what they stand for (R243, R244, R257, R374); what is no instruction (R258). -/
def Obligations.DecodeWords : Prop :=
  decode 0x40003C0502D1FF09 = .ok (.fadd ⟨⟨0, false, 0, 3, 0xC⟩, .reg 5, .reg 2, .fpc 1, .absent, 9⟩) ∧
  decode 0x200077FFFFFFFFDC = .ok (.br ⟨⟨0, false, 0, 7, 7⟩, .absent, .absent, 0xFFFFDC⟩) ∧
  decode 0x000077010285FF04 = .ok (.add ⟨⟨0, false, 0, 7, 7⟩, .reg 1, .reg 2, .pos 5, .absent, 4⟩) ∧
  decode 0x3000770301CFFF04 = .ok (.vadd ⟨⟨0, false, 0, 7, 7⟩, .reg 3, .reg 1, .neg 15, .absent, 4⟩) ∧
  decode 0x10C07704FFFF000C = .ok (.movsr ⟨⟨0, false, 0, 7, 7⟩, .reg 4, .absent, .absent, 0xC⟩) ∧
  decode 0xA18077FF0209FFFF = .ok (.tlwait ⟨⟨0, false, 0, 7, 7⟩, .absent, .reg 2, .reg 9, .absent, 0xFF⟩) ∧
  decodeCmd 0x2001900000400000 0x1234 = some (.nsend ⟨100, 4, 0x1234⟩) ∧
  (∀ w : Word, w.toNat / 2 ^ 60 = 0xE → decode w = .error .opcode) ∧
  (∀ w : Word, w.toNat / 2 ^ 60 = 0xF → decode w = .error .header)

/-- What step does around exec (log 2): the issue port (R164, R258, R138), an engine (R358), an event (R8, R16), an error detected (R105), a page reported gone (R60), a teardown (R196). The model's choices, not the spec's: whose turn it is (log 2), that the deadline trap comes
before the illegal instruction (log 65), that errors, expanders and teardowns have turns of their own (logs 71, 74, 75), and that a turn whose access has to wait
has not happened (log 77). -/
def Obligations.StepRunsDecoded : Prop :=
  let settle (o : Host.Outcome State Fault Refusal) : Host.Outcome State Fault Refusal :=
    match o with
    | .next t => .next t.settled
    | .fault r => .fault r
    | .refused r => .refused r
  (∀ (s v : State) (c : BitVec 10) (n : BitVec 3) (g : Group) (w : Word),
    (s.agenda = [] ∧ c = s.cur.core ∧ v = s) ∨ (∃ r, s.agenda = .port c :: r ∧ v = { s with agenda := r }) →
    c.toNat < 768 → v.clockRuns c = true → (v.core c).holder = some n → v.group? c n = some g → g.life = .running → g.late = none →
    v.halted g = false → g.inClause = true →
    (∀ x, g.wait = some x → x.kind ≠ 0 ∧ x.kind ≠ 3) →
    let b := v.bring c n
    let u := b.setCore c { b.core c with holder := some n }
    u.fetched u.cur.core u.cur.ctx (instrVa u.cur.pc u.cur.cpos.toNat) = some w →
      (∀ i, decode w = .ok i → step s = settle (v.takeTurn (exec i u))) ∧
      (∀ e, decode w = .error e → step s = .next (v.orHeld (u.undecodable w)).settled ∧
        (u.cur.dline ≠ 0 ∨ u.cur.hmode = true → u.undecodable w = u.illegalInstruction))) ∧
  (∀ (s : State) (i : Instr) (ev : Ev) (r : List Turn), s.agenda = .event i ev :: r → isEvent i = true →
    let v : State := { s with agenda := r }
    (v.eventRuns i ev = true → ofEntryStage i = false → step s = settle (v.takeTurn (exec i { v with ev := ev }))) ∧
    (v.eventRuns i ev = true → ofEntryStage i = true → ∀ t, exec i { v with ev := ev } = .next t →
      step s = .next ({ t with coh := { t.coh with shut := .no } } : State).settled) ∧
    (v.eventRuns i ev = false → step s = .next v.settled)) ∧
  (∀ (s t : State) (pa n : Nat) (wr : Bool),
    (t.coh.shut = .no → s.takeTurn (.next t) = .next t) ∧ (t.coh.shut = .stopped → s.takeTurn (.next t) = .next s) ∧
    (t.coh.shut = .busy pa n wr → s.takeTurn (.next t) = .next (s.askNow .part pa n wr true))) ∧
  (∀ (s : State) (i : Instr) (ev : Ev), ofEntryStage i = false →
    (s.eventRuns i ev = true ↔ s.pkg.entry.held = false ∧ ∀ n ∈ s.islandsOf i ev, s.islandRuns n = true)) ∧
  (∀ (s : State) (r : List Turn),
    (∀ x, s.agenda = .error x :: r → step s = .next (({ s with agenda := r } : State).detectError x).settled) ∧
    (∀ page on, s.agenda = .gone page on :: r →
      step s = settle (({ s with agenda := r } : State).takeTurn (.next (({ s with agenda := r } : State).setGone page on)))) ∧
    (∀ c, s.agenda = .teardown c :: r →
      step s = settle (({ s with agenda := r } : State).takeTurn (.next (({ s with agenda := r } : State).teardown c))))) ∧
  (∀ (s : State) (c : BitVec 10) (x : BitVec 12) (q : Nat) (e : Bool) (k : Nat) (r : List Turn) (m : Cmd),
    s.agenda = .engine c x q e k :: r →
    let v : State := { s with agenda := r }
    (v.coreCtx c x).head (timelineAt q e) = some m → v.engineRuns c x q m = true → bits m.w0 63 60 = min (q / 2) 3 →
      ∀ i, decodeCmd m.w0 m.w1 = some i → step s = settle (v.takeTurn (exec i { v with eng := ⟨c, x, k⟩ }))) ∧
  (∀ (s : State) (ns : Nat) (r : List Turn), s.agenda = .elapse ns :: r →
    step s = .next (({ s with agenda := r } : State).elapse ns).settled)

/-- What reset leaves (R2, R6, R9, R13, R17, R21, R75, R79, R89, R92, R122, R201; the model's choices: logs 9, 11, 13). -/
def Obligations.ResetState : Prop :=
  State.reset.reg Reg.mstat = 0 ∧
  (∀ n, n < 128 → State.reset.regBits (Reg.islandCtl n) 47 40 = 105) ∧
  State.reset.regBits Reg.pycfg 7 0 = 0xCD ∧ State.reset.regBits Reg.pycfg 8 8 = 1 ∧ State.reset.regBits Reg.pycfg 31 16 = 600 ∧
  State.reset.reg 0 = ident ∧
  (∀ k, k < 224 → absentLane k = false →
    State.reset.regBits (Reg.threshold k 0) 63 48 = 0x64 ∧ State.reset.regBits (Reg.threshold k 0) 47 32 = 0xF ∧
    State.reset.regBits (Reg.threshold k 0) 31 0 = 0x10000 ∧ State.reset.regBits (Reg.threshold k 8) 63 32 = 0x100) ∧
  (∀ k, k < 224 → absentLane k = true → State.reset.reg (Reg.threshold k 0) = 0 ∧ State.reset.reg (Reg.threshold k 8) = 0) ∧
  (∀ k, k < 224 → State.reset.reg (Reg.health k 0) = 0 ∧ State.reset.reg (Reg.health k 8) = 0) ∧
  (∀ c : BitVec 12, State.reset.reg (Reg.trans c.toNat 0) = 0 ∧ State.reset.regBits (Reg.trans c.toNat 16) 63 56 = 4 ∧
    State.reset.reg (Reg.queue c.toNat 0) = 0 ∧ State.reset.reg (Reg.queue c.toNat 8) = 0 ∧ State.reset.regBits (Reg.queue c.toNat 16) 63 59 = 6 ∧
    State.reset.reg (Reg.queue c.toNat 24) = 0 ∧ State.reset.regBits (Reg.queue c.toNat 32) 63 56 = 1 ∧
    State.reset.regBits (Reg.sched c.toNat 0) 3 0 = 0xF ∧ State.reset.regBits (Reg.sched c.toNat 8) 63 32 = 0 ∧
    State.reset.viral c = false ∧ State.reset.suspended c = false) ∧
  State.reset.reg (Reg.mmu 0x10) = 0 ∧ State.reset.regBits (Reg.mmu 0x30) 63 48 = 0x40 ∧ State.reset.regBits Reg.schcfg 63 48 = 0x64 ∧
  State.reset.regBits Reg.cohcfg 63 56 = 0x20 ∧ State.reset.timebase = 0 ∧
  (∀ i, i < 64 → (State.reset.qslot i).st = .free) ∧ State.reset.sch.launches = [] ∧ State.reset.coh.l2 = [] ∧ State.reset.mmu.sects = [] ∧ State.reset.mmu.tables = [] ∧
  State.reset.mem = [] ∧ Memory.wf State.reset.mem = true ∧ State.reset.poison = [] ∧ State.reset.cores = [] ∧ State.reset.parked = []

/-- Lines far behind are dropped, and home lines are raised (R202). -/
def Obligations.NoStaleLines : Prop :=
  (∀ (s t : State), step s = .next t → ∀ x ∈ t.cores, ∀ l ∈ x.2.l1, l.st = .s → farBehind l.rts x.2.hiPts = false) ∧
  (∀ x ∈ State.reset.cores, ∀ l ∈ x.2.l1, l.st = .s → farBehind l.rts x.2.hiPts = false) ∧
  (∀ a b : BitVec 48, later48 a b = true ↔ 1 ≤ (a - b).toNat ∧ (a - b).toNat ≤ 2 ^ 47 - 1) ∧
  (∀ a b : BitVec 48, farBehind a b = true ↔ later48 b a = true ∧ 2 ^ 44 < (b - a).toNat) ∧
  (∀ (s : State) (line : Nat),
    let h := Tab.get Home.idle s.coh.homes line
    let hi := Tab.get 0 s.coh.sliceTs (homeSlice line)
    (farBehind h.wts hi = false → s.home line = h) ∧
    (farBehind h.wts hi = true → (s.home line).wts = hi - 0x100000000000 ∧ (s.home line).rts = max48 h.rts (hi - 0x100000000000) ∧
      s.home line = { h with wts := (s.home line).wts, rts := (s.home line).rts }))
end

