-- ==== Sys2Proof/Laws/Tab.lean ====
section
/-! SUPPORT. The laws of sparse tables and of memory: a read after a write, and the canonical form kept; sorting by insertion. -/

theorem List.placeBy_perm {α : Type} (le : α → α → Bool) (a : α) (l : List α) : (List.placeBy le a l).Perm (a :: l) := by
  induction l with
  | nil => exact .refl _
  | cons b r ih =>
    simp only [List.placeBy]
    split
    · exact .refl _
    · exact (ih.cons b).trans (.swap a b r)

theorem List.sortBy_perm {α : Type} (le : α → α → Bool) (l : List α) : (List.sortBy le l).Perm l := by
  induction l with
  | nil => exact .refl _
  | cons a r ih => exact (List.placeBy_perm le a _).trans (ih.cons a)

theorem List.placeBy_pairwise {α : Type} {le : α → α → Bool} (ht : ∀ a b c, le a b = true → le b c = true → le a c = true)
    (hl : ∀ a b, le a b = true ∨ le b a = true) (a : α) (l : List α) (h : l.Pairwise fun x y => le x y = true) :
    (List.placeBy le a l).Pairwise fun x y => le x y = true := by
  induction l with
  | nil => simp [List.placeBy]
  | cons b r ih =>
    rw [List.pairwise_cons] at h
    simp only [List.placeBy]
    split
    · rename_i hb
      refine List.pairwise_cons.2 ⟨fun x hx => ?_, List.pairwise_cons.2 h⟩
      rcases List.mem_cons.1 hx with rfl | hx
      · exact hb
      · exact ht a b x hb (h.1 x hx)
    · rename_i hb
      refine List.pairwise_cons.2 ⟨fun x hx => ?_, ih h.2⟩
      rcases List.mem_cons.1 ((List.placeBy_perm le a r).mem_iff.1 hx) with rfl | hx
      · exact (hl b x).resolve_right hb
      · exact h.1 x hx

theorem List.sortBy_pairwise {α : Type} {le : α → α → Bool} (ht : ∀ a b c, le a b = true → le b c = true → le a c = true)
    (hl : ∀ a b, le a b = true ∨ le b a = true) (l : List α) : (List.sortBy le l).Pairwise fun x y => le x y = true := by
  induction l with
  | nil => exact .nil
  | cons a r ih => exact List.placeBy_pairwise ht hl a _ ih

namespace Sys2Proof.Machine

variable {α : Type}

theorem Tab.get_drop_same (d : α) (t : Tab α) (k : Nat) : Tab.get d (Tab.drop t k) k = d := by
  induction t with
  | nil => rfl
  | cons x r ih =>
    obtain ⟨j, v⟩ := x
    by_cases h : j = k <;> simp [Tab.drop, Tab.get, h, ih]

theorem Tab.get_drop_other (d : α) (t : Tab α) {k n : Nat} (h : n ≠ k) :
    Tab.get d (Tab.drop t k) n = Tab.get d t n := by
  induction t with
  | nil => rfl
  | cons x r ih =>
    obtain ⟨j, v⟩ := x
    by_cases hj : j = k
    · have : j ≠ n := fun e => h (e ▸ hj)
      simp [Tab.drop, Tab.get, hj, ih, hj ▸ this]
    · by_cases hn : j = n <;> simp [Tab.drop, Tab.get, hj, hn, ih, h]

theorem Tab.get_ins_same (d : α) (t : Tab α) (k : Nat) (v : α) (h : ∀ x ∈ t, x.1 ≠ k) :
    Tab.get d (Tab.ins k v t) k = v := by
  induction t with
  | nil => simp [Tab.ins, Tab.get]
  | cons x r ih =>
    obtain ⟨j, w⟩ := x
    have hj : j ≠ k := h (j, w) (by simp)
    have hr : ∀ x ∈ r, x.1 ≠ k := fun x hx => h x (by simp [hx])
    by_cases hk : k < j <;> simp [Tab.ins, Tab.get, hk, hj, ih hr]

theorem Tab.get_ins_other (d : α) (t : Tab α) {k n : Nat} (v : α) (h : n ≠ k) :
    Tab.get d (Tab.ins k v t) n = Tab.get d t n := by
  induction t with
  | nil => simp [Tab.ins, Tab.get, Ne.symm h]
  | cons x r ih =>
    obtain ⟨j, w⟩ := x
    by_cases hk : k < j
    · simp [Tab.ins, Tab.get, hk, Ne.symm h]
    · by_cases hn : j = n
      · subst hn; simp [Tab.ins, Tab.get, hk]
      · simp [Tab.ins, Tab.get, hk, hn, ih]

theorem Tab.drop_no_key (t : Tab α) (k : Nat) : ∀ x ∈ Tab.drop t k, x.1 ≠ k := by
  induction t with
  | nil => simp [Tab.drop]
  | cons x r ih =>
    obtain ⟨j, v⟩ := x
    by_cases hj : j = k
    · simpa [Tab.drop, hj] using ih
    · intro y hy
      simp only [Tab.drop, hj, if_false, List.mem_cons] at hy
      rcases hy with rfl | hy
      · exact hj
      · exact ih y hy

/-- What is set is read. -/
theorem Tab.get_set_same [DecidableEq α] (d : α) (t : Tab α) (k : Nat) (v : α) : Tab.get d (Tab.set d t k v) k = v := by
  by_cases h : v = d
  · simp [Tab.set, h, Tab.get_drop_same]
  · simp [Tab.set, h, Tab.get_ins_same d _ k v (Tab.drop_no_key t k)]

/-- Every other key reads as before. -/
theorem Tab.get_set_other [DecidableEq α] (d : α) (t : Tab α) {k n : Nat} (v : α) (h : n ≠ k) :
    Tab.get d (Tab.set d t k v) n = Tab.get d t n := by
  by_cases hv : v = d
  · simp [Tab.set, hv, Tab.get_drop_other d t h]
  · simp [Tab.set, hv, Tab.get_ins_other d _ v h, Tab.get_drop_other d t h]

/-! ### The canonical form -/

/-- The canonical form, said of the list as a whole. -/
theorem Tab.wf_iff [DecidableEq α] (d : α) (t : Tab α) :
    Tab.wf d t = true ↔ t.Pairwise (fun x y => x.1 < y.1) ∧ ∀ x ∈ t, x.2 ≠ d := by
  induction t with
  | nil => simp [Tab.wf]
  | cons x r ih =>
    obtain ⟨j, v⟩ := x
    cases r with
    | nil => simp [Tab.wf]
    | cons y q =>
      obtain ⟨k, w⟩ := y
      simp only [Tab.wf, Bool.and_eq_true, decide_eq_true_eq, ih, List.pairwise_cons, List.mem_cons]
      constructor
      · rintro ⟨⟨hv, hjk⟩, ⟨hk, hq⟩, hall⟩
        refine ⟨⟨?_, hk, hq⟩, ?_⟩
        · rintro z (rfl | hz)
          · exact hjk
          · exact Nat.lt_trans hjk (hk z hz)
        · rintro z (rfl | hz)
          · exact hv
          · exact hall z hz
      · rintro ⟨⟨hj, hk, hq⟩, hall⟩
        exact ⟨⟨hall (j, v) (Or.inl rfl), hj (k, w) (Or.inl rfl)⟩, ⟨hk, hq⟩, fun z hz => hall z (Or.inr hz)⟩

theorem Tab.drop_sublist (t : Tab α) (k : Nat) : (Tab.drop t k).Sublist t := by
  induction t with
  | nil => simp [Tab.drop]
  | cons x r ih =>
    obtain ⟨j, v⟩ := x
    by_cases hj : j = k
    · simp [Tab.drop, hj]; exact ih.trans (List.sublist_cons_self _ _)
    · simpa [Tab.drop, hj] using ih

theorem Tab.mem_ins (k : Nat) (v : α) (t : Tab α) (x : Nat × α) : x ∈ Tab.ins k v t → x = (k, v) ∨ x ∈ t := by
  induction t with
  | nil => simp [Tab.ins]
  | cons y r ih =>
    obtain ⟨j, w⟩ := y
    by_cases hk : k < j
    · simp [Tab.ins, hk]
    · simp only [Tab.ins, hk, if_false, List.mem_cons]
      rintro (h | h)
      · exact .inr (.inl h)
      · exact (ih h).imp id .inr

theorem Tab.ins_pairwise (k : Nat) (v : α) (t : Tab α) (h : t.Pairwise fun x y => x.1 < y.1) (hk : ∀ x ∈ t, x.1 ≠ k) :
    (Tab.ins k v t).Pairwise fun x y => x.1 < y.1 := by
  induction t with
  | nil => simp [Tab.ins]
  | cons y r ih =>
    obtain ⟨j, w⟩ := y
    have hr : ∀ x ∈ r, x.1 ≠ k := fun x hx => hk x (by simp [hx])
    have hj : j ≠ k := hk (j, w) (by simp)
    rw [List.pairwise_cons] at h
    by_cases hlt : k < j
    · simp only [Tab.ins, hlt, if_true, List.pairwise_cons, List.mem_cons]
      refine ⟨?_, h.1, h.2⟩
      rintro z (rfl | hz)
      · exact hlt
      · exact Nat.lt_trans hlt (h.1 z hz)
    · simp only [Tab.ins, hlt, if_false, List.pairwise_cons]
      refine ⟨fun z hz => ?_, ih h.2 hr⟩
      rcases Tab.mem_ins k v r z hz with rfl | hz
      · show j < k
        omega
      · exact h.1 z hz

/-- A write keeps the canonical form. -/
theorem Tab.wf_set [DecidableEq α] (d : α) (t : Tab α) (k : Nat) (v : α) (h : Tab.wf d t = true) :
    Tab.wf d (Tab.set d t k v) = true := by
  rw [Tab.wf_iff] at h ⊢
  have hp := h.1.sublist (Tab.drop_sublist t k)
  have hm : ∀ x ∈ Tab.drop t k, x.2 ≠ d := fun x hx => h.2 x ((Tab.drop_sublist t k).subset hx)
  by_cases hv : v = d
  · simp only [Tab.set, hv, if_true]
    exact ⟨hp, hm⟩
  · simp only [Tab.set, hv, if_false]
    refine ⟨Tab.ins_pairwise k v _ hp (Tab.drop_no_key t k), fun x hx => ?_⟩
    rcases Tab.mem_ins k v _ x hx with rfl | hx
    · exact hv
    · exact hm x hx

/-! ### Memory -/

theorem Memory.read_write_same (m : Memory) (a : Nat) (b : Byte) : (m.write a b).read a = b := Tab.get_set_same _ m a b

theorem Memory.read_write_other (m : Memory) {a n : Nat} (b : Byte) (h : n ≠ a) : (m.write a b).read n = m.read n :=
  Tab.get_set_other _ m b h

theorem Memory.wf_write (m : Memory) (a : Nat) (b : Byte) (h : m.wf = true) : (m.write a b).wf = true :=
  Tab.wf_set _ m a b h

/-- Every write of memory goes byte by byte and keeps the canonical form. -/
theorem Memory.wf_writeLE (m : Memory) (a n v mask : Nat) (h : m.wf = true) : (m.writeLE a n v mask).wf = true := by
  induction n generalizing m a v mask with
  | zero => exact h
  | succ n ih =>
    unfold Memory.writeLE
    apply ih
    split
    · exact Memory.wf_write m a _ h
    · exact h

/-- Bytes outside the written span read as before. -/
theorem Memory.read_writeLE_outside (m : Memory) (a n v mask x : Nat) (h : x < a ∨ a + n ≤ x) :
    (m.writeLE a n v mask).read x = m.read x := by
  induction n generalizing m a v mask with
  | zero => rfl
  | succ n ih =>
    unfold Memory.writeLE
    rw [ih _ _ _ _ (by omega)]
    split
    · exact Memory.read_write_other m _ (by omega)
    · rfl

end Sys2Proof.Machine
end

