-- ==== Sys2Proof/Laws/State.lean ====
section
/-! SUPPORT. What the operations on State leave: one lemma for each operation and field, and one for each way an instruction ends. -/

namespace Sys2Proof.Machine

/-! ### setCur -/

@[simp] theorem State.setCur_cur (s : State) (g : Group) : (s.setCur g).cur = g := rfl
@[simp] theorem State.setCur_parked (s : State) (g : Group) : (s.setCur g).parked = s.parked := rfl
@[simp] theorem State.setCur_cores (s : State) (g : Group) : (s.setCur g).cores = s.cores := rfl
@[simp] theorem State.setCur_core (s : State) (g : Group) (n : BitVec 10) : (s.setCur g).core n = s.core n := rfl
@[simp] theorem State.setCur_coreCtx (s : State) (g : Group) (n : BitVec 10) (c : BitVec 12) : (s.setCur g).coreCtx n c = s.coreCtx n c := rfl
@[simp] theorem State.setCur_mgmt (s : State) (g : Group) : (s.setCur g).mgmt = s.mgmt := rfl
@[simp] theorem State.setCur_reg (s : State) (g : Group) (o : Nat) : (s.setCur g).reg o = s.reg o := rfl
@[simp] theorem State.setCur_mem (s : State) (g : Group) : (s.setCur g).mem = s.mem := rfl
@[simp] theorem State.setCur_sch (s : State) (g : Group) : (s.setCur g).sch = s.sch := rfl
@[simp] theorem State.setCur_launch (s : State) (g : Group) (k : Nat) : (s.setCur g).launch k = s.launch k := rfl
@[simp] theorem State.setCur_coh (s : State) (g : Group) : (s.setCur g).coh = s.coh := rfl
@[simp] theorem State.setCur_timebase (s : State) (g : Group) : (s.setCur g).timebase = s.timebase := rfl
@[simp] theorem State.setCur_setCur (s : State) (g h : Group) : (s.setCur g).setCur h = s.setCur h := rfl

/-! ### setCore -/

@[simp] theorem State.setCore_cur (s : State) (n : BitVec 10) (x : Core) : (s.setCore n x).cur = s.cur := rfl
@[simp] theorem State.setCore_parked (s : State) (n : BitVec 10) (x : Core) : (s.setCore n x).parked = s.parked := rfl
@[simp] theorem State.setCore_mgmt (s : State) (n : BitVec 10) (x : Core) : (s.setCore n x).mgmt = s.mgmt := rfl
@[simp] theorem State.setCore_reg (s : State) (n : BitVec 10) (x : Core) (o : Nat) : (s.setCore n x).reg o = s.reg o := rfl
@[simp] theorem State.setCore_mem (s : State) (n : BitVec 10) (x : Core) : (s.setCore n x).mem = s.mem := rfl
@[simp] theorem State.setCore_sch (s : State) (n : BitVec 10) (x : Core) : (s.setCore n x).sch = s.sch := rfl
@[simp] theorem State.setCore_launch (s : State) (n : BitVec 10) (x : Core) (k : Nat) : (s.setCore n x).launch k = s.launch k := rfl
@[simp] theorem State.setCore_coh (s : State) (n : BitVec 10) (x : Core) : (s.setCore n x).coh = s.coh := rfl
@[simp] theorem State.setCore_timebase (s : State) (n : BitVec 10) (x : Core) : (s.setCore n x).timebase = s.timebase := rfl
@[simp] theorem State.setCore_core (s : State) (n : BitVec 10) (x : Core) : (s.setCore n x).core n = x :=
  Tab.get_set_same _ _ _ _
theorem State.setCore_core_other (s : State) {n m : BitVec 10} (x : Core) (h : m ≠ n) : (s.setCore n x).core m = s.core m :=
  Tab.get_set_other _ _ _ (fun e => h (BitVec.eq_of_toNat_eq e))

/-! ### setReg -/

@[simp] theorem State.setReg_cur (s : State) (o : Nat) (w : Word) : (s.setReg o w).cur = s.cur := rfl
@[simp] theorem State.setReg_parked (s : State) (o : Nat) (w : Word) : (s.setReg o w).parked = s.parked := rfl
@[simp] theorem State.setReg_core (s : State) (o : Nat) (w : Word) (n : BitVec 10) : (s.setReg o w).core n = s.core n := rfl
@[simp] theorem State.setReg_mem (s : State) (o : Nat) (w : Word) : (s.setReg o w).mem = s.mem := rfl
@[simp] theorem State.setReg_reg (s : State) (o : Nat) (w : Word) : (s.setReg o w).reg o = w := Tab.get_set_same _ _ _ _
theorem State.setReg_reg_other (s : State) {o p : Nat} (w : Word) (h : regReset p = regReset o) (hp : p ≠ o) :
    (s.setReg o w).reg p = s.reg p := by
  unfold State.setReg State.reg
  rw [h]
  exact Tab.get_set_other _ _ _ hp

/-! ### A turn kept from happening (log 77) -/

@[simp] theorem State.shutBy_cur (s : State) (x : Shut) : (s.shutBy x).cur = s.cur := rfl
@[simp] theorem State.shutBy_parked (s : State) (x : Shut) : (s.shutBy x).parked = s.parked := rfl
@[simp] theorem State.shutBy_core (s : State) (x : Shut) (n : BitVec 10) : (s.shutBy x).core n = s.core n := rfl
@[simp] theorem State.shutBy_mgmt (s : State) (x : Shut) : (s.shutBy x).mgmt = s.mgmt := rfl
@[simp] theorem State.shutBy_mem (s : State) (x : Shut) : (s.shutBy x).mem = s.mem := rfl
@[simp] theorem State.shutBy_home (s : State) (x : Shut) (line : Nat) : (s.shutBy x).home line = s.home line := rfl
@[simp] theorem State.shutBy_l2? (s : State) (x : Shut) (line : Nat) : (s.shutBy x).l2? line = s.l2? line := rfl

/-- A turn either happens, or leaves all but what asking outside changes. -/
theorem State.takeTurn_next (s t : State) : s.takeTurn (.next t) = .next t ∧ t.coh.shut = .no ∨ s.takeTurn (.next t) = .next s ∧ t.coh.shut = .stopped ∨
    ∃ pa n wr, s.takeTurn (.next t) = .next (s.askNow .part pa n wr true) ∧ t.coh.shut = .busy pa n wr := by
  unfold State.takeTurn State.orHeld
  cases h : t.coh.shut with
  | no => exact .inl ⟨by simp only [h], rfl⟩
  | stopped => exact .inr (.inl ⟨by simp only [h], rfl⟩)
  | busy pa n wr => exact .inr (.inr ⟨pa, n, wr, by simp only [h], rfl⟩)

/-- A group's own field `sweep`, and a fresh progress: what a beat and a command begin with. -/
@[simp] theorem Group.blank_sweep : Group.blank.sweep = none := rfl
@[simp] theorem Progress.fresh_tookA : Progress.fresh.tookA = false := rfl
@[simp] theorem Progress.fresh_tookB : Progress.fresh.tookB = false := rfl
@[simp] theorem Progress.fresh_want : Progress.fresh.want = none := rfl

/-! ### How an instruction issues and ends -/

/-- Where the conditions of issue hold, an instruction word has its own effect and nothing else. -/
theorem issueChecked_of_issues {i : Instr} {s : State} (h : issues i s = true) (body : State → State) :
    issueChecked i s false body = body s := by
  unfold issues at h
  unfold issueChecked
  split at h
  · exact absurd h (by simp)
  · rename_i o ho
    simp only [Bool.and_eq_true, Bool.or_eq_true, decide_eq_true_eq, Bool.not_eq_true'] at h
    obtain ⟨⟨⟨⟨⟨⟨h1, h2⟩, h3⟩, h4⟩, h5⟩, h6⟩, h7⟩ := h
    have h1' : (decide (s.cur.dline = 0) && !s.cur.hmode && !isYieldOrPhase o) = false := by
      rcases h1 with (h1 | h1) | h1 <;> simp [h1]
      simp_all
    have h6' : (s.cur.region.isSome && !s.cur.hmode && regionForbids o) = false := by
      rcases h6 with (h6 | h6) | h6
      · simp [Option.isNone_iff_eq_none.1 h6]
      · simp [h6]
      · simp [h6]
    try rw [ho]
    show (if _ then _ else if _ then _ else _) = _
    rw [if_neg (by rw [h1']; decide), if_neg (by simp [h2, h3]), if_neg (by simp [h4]), if_neg (by simp [h5]), if_neg (by simp [h6']),
      if_neg (by simp [h7])]

theorem issue_of_issues {i : Instr} {s : State} (h : issues i s = true) (body : State → State) : issue i s body = body s :=
  issueChecked_of_issues h body

theorem State.letGo_cur (s : State) (n : BitVec 10) (k : BitVec 3) : (s.letGo n k).cur = s.cur := by
  simp only [State.letGo]; split <;> rfl

/-- The group moved to its next position, the port let go at the end of a clause. -/
theorem moves_of (s : State) (c : Ctl) (cost : Nat) (g g' : Group) (leaves : Bool)
    (hc : g.core = s.cur.core) (hs : g.slot = s.cur.slot) :
    let u := (s.setCur g).spend cost c
    Moves s ((if leaves then u.letGo g.core g.slot else u).setCur g') c cost leaves g' := by
  intro u
  have hu : ∀ n, u.core n = if n = s.cur.core then { s.core n with spent := (s.core n).spent + (cost + c.st.toNat) } else s.core n := by
    intro n
    show ((s.setCur g).tick g.core (cost + c.st.toNat)).core n = _
    unfold State.tick
    by_cases hn : n = s.cur.core
    · subst hn; rw [hc]; simp
    · rw [State.setCore_core_other _ _ (by rw [hc]; exact hn)]; simp [hn]
  have hcore := hu s.cur.core
  simp only [if_true] at hcore
  cases leaves with
  | false =>
    refine ⟨rfl, rfl, rfl, ?_, ?_⟩
    · simp [hcore]
    · intro n hn; simp [hu, hn]
  | true =>
    simp only [if_true]
    have hl : u.letGo g.core g.slot =
        if (s.core s.cur.core).holder = some s.cur.slot then
          u.setCore s.cur.core { u.core s.cur.core with holder := none } else u := by
      unfold State.letGo
      simp only [hc, hs, hcore]
    rw [hl]
    by_cases hh : (s.core s.cur.core).holder = some s.cur.slot
    · simp only [hh, if_true]
      refine ⟨rfl, rfl, rfl, ?_, ?_⟩
      · simp [hcore, hh]
      · intro n hn
        show (u.setCore _ _).core n = _
        rw [State.setCore_core_other _ _ hn]; simp [hu, hn]
    · simp only [hh, if_false]
      refine ⟨rfl, rfl, rfl, ?_, ?_⟩
      · simp [hcore, hh]
      · intro n hn; simp [hu, hn]

theorem Group.countDown_countRegion (g : Group) :
    g.countDown.countRegion = { g with dline := g.deadlineLess, region := g.countDown.countRegion.region } := by
  by_cases h : g.hmode = true
  · have hd : g.deadlineLess = g.dline := by simp [Group.deadlineLess, h]
    rw [hd]
    unfold Group.countDown
    rw [if_pos h]
    unfold Group.countRegion
    rw [if_pos h]
  · have hd : (if g.dline = 0 then 0 else g.dline - 1) = g.deadlineLess := by
      unfold Group.deadlineLess
      by_cases h0 : g.dline = 0
      · simp [h0]
      · rw [if_neg h0, if_neg (by simp [h]; exact h0)]
    unfold Group.countDown
    rw [if_neg h, hd]
    unfold Group.countRegion
    rw [if_neg h]

theorem Group.countDown_countRegion_isSome (g : Group) : g.countDown.countRegion.region.isSome = g.region.isSome := by
  unfold Group.countDown Group.countRegion
  cases h : g.hmode <;> simp [h]

/-- What retiring leaves: everything `Retires` says. -/
theorem retires_retire (s : State) (c : Ctl) (cost : Nat) (lat : LatchV) (g : Group)
    (hc : g.core = s.cur.core) (hs : g.slot = s.cur.slot) :
    Retires s ((s.setCur g).retire c cost lat) c cost lat g := by
  have key := moves_of s c cost g.countDown.countRegion
    (if g.atLast then g.countDown.countRegion.boundary g.countDown.countRegion.nextHeader else g.countDown.countRegion.past lat)
    g.atLast (by rw [Group.countDown_countRegion]; exact hc) (by rw [Group.countDown_countRegion]; exact hs)
  have hgr := Group.countDown_countRegion g
  have hcp : g.countDown.countRegion.cpos = g.cpos := by rw [hgr]
  have hhd : g.countDown.countRegion.hdr = g.hdr := by rw [hgr]
  have hpc : g.countDown.countRegion.pc = g.pc := by rw [hgr]
  have hic : g.countDown.countRegion.inClause = g.inClause := by rw [hgr]
  have e : (s.setCur g).retire c cost lat =
      (if g.atLast then ((s.setCur g.countDown.countRegion).spend cost c).letGo g.countDown.countRegion.core g.countDown.countRegion.slot
        else (s.setCur g.countDown.countRegion).spend cost c).setCur
      (if g.atLast then g.countDown.countRegion.boundary g.countDown.countRegion.nextHeader else g.countDown.countRegion.past lat) := by
    unfold State.retire State.advance Group.atLast
    show (if g.countDown.countRegion.cpos.toNat = Header.count g.countDown.countRegion.hdr then _ else _) = _
    rw [hcp, hhd]
    by_cases h : g.cpos.toNat = Header.count g.hdr <;> simp [h] <;> rfl
  rw [e]
  unfold Retires
  have hfin : ∀ r, ({ (if g.atLast then g.countDown.countRegion.boundary g.countDown.countRegion.nextHeader
      else g.countDown.countRegion.past lat) with region := r } : Group) = { g.stepped lat with region := r } := by
    intro r
    have hl : g.countDown.countRegion.latches = g.latches := by rw [hgr]
    by_cases h : g.atLast = true
    · simp only [h, if_true, Group.boundary, Group.stepped, Group.nextHeader, hpc, hhd, Bool.not_true, Bool.and_false]
      rw [hgr]
      congr 1
      rw [BitVec.ofNat_mul]; rfl
    · simp only [h, Group.past, Group.stepped, hcp, hl, hic]
      rw [hgr]; simp
  refine ⟨key.outside, ?_, ?_, key.port, key.others⟩
  · rw [← hfin]; exact key.group
  · rw [key.region]
    have := Group.countDown_countRegion_isSome g
    by_cases h : g.atLast = true <;> simp [h, Group.boundary, Group.past, Group.stepped, this]

/-- What a taken transfer leaves. -/
theorem jumps_jump (s : State) (c : Ctl) (target : Word) (g : Group) (hc : g.core = s.cur.core) (hs : g.slot = s.cur.slot) :
    Jumps s ((s.setCur g).jump c target) c target g := by
  have hgr := Group.countDown_countRegion g
  have key := moves_of s c 1 g.countDown.countRegion (g.countDown.countRegion.boundary target) true
    (by rw [hgr]; exact hc) (by rw [hgr]; exact hs)
  refine ⟨key.outside, ?_, ?_, key.port, key.others⟩
  · have hfin : ∀ r, ({ g.countDown.countRegion.boundary target with region := r } : Group) = { g.jumped target with region := r } := by
      intro r
      simp only [Group.boundary, Group.jumped]
      rw [hgr]
    rw [← hfin]; exact key.group
  · refine (key.region).trans ?_
    simp [Group.boundary, Group.jumped, Group.countDown_countRegion_isSome g]

end Sys2Proof.Machine
end

