-- ==== Sys2Proof/Laws/Mem.lean ====
section
/-! SUPPORT. What the operations on memory, homes and the L2 leave alone: registers, groups, queues, the TLBs and the walk cache. -/

namespace Sys2Proof.Machine

/-- `t` differs from `s` only in memory, the caches, the coherence protocol, the snoop filter, and the sampling and skim records of the MMU. -/
structure KeepsControl (s t : State) : Prop where
  cur : t.cur = s.cur
  parked : t.parked = s.parked
  mgmt : t.mgmt = s.mgmt
  sch : t.sch = s.sch
  que : t.que = s.que
  net : t.net = s.net
  cxl : t.cxl = { s.cxl with filter := t.cxl.filter }
  pkg : t.pkg = s.pkg
  ev : t.ev = s.ev
  eng : t.eng = s.eng
  agenda : t.agenda = s.agenda
  timebase : t.timebase = s.timebase
  freeCtr : t.freeCtr = s.freeCtr
  seqCtr : t.seqCtr = s.seqCtr
  tlb : ∀ c, (t.core c).tlb = (s.core c).tlb
  sects : t.mmu.sects = s.mmu.sects
  tables : t.mmu.tables = s.mmu.tables
  stale : t.mmu.stale = s.mmu.stale
  reqs : t.mmu.reqs = s.mmu.reqs
  walks : t.mmu.walks = s.mmu.walks
  verdicts : t.mmu.verdicts = s.mmu.verdicts

theorem KeepsControl.rfl (s : State) : KeepsControl s s := by constructor <;> first | exact Eq.refl _ | exact fun _ => Eq.refl _

theorem KeepsControl.trans {s t u : State} (a : KeepsControl s t) (b : KeepsControl t u) : KeepsControl s u := by
  obtain ⟨a1, a2, a3, a4, a5, a6, a7, a8, a9, a10, a11, a12, a13, a14, a15, a16, a17, a18, a19, a20, a21⟩ := a
  obtain ⟨b1, b2, b3, b4, b5, b6, b7, b8, b9, b10, b11, b12, b13, b14, b15, b16, b17, b18, b19, b20, b21⟩ := b
  constructor <;> first | exact fun c => (b15 c).trans (a15 c) | (rw [b7, a7]) | simp only [*]

/-- A state built from `s` by updates of `mem`, `poison` or `coh`. -/
theorem KeepsControl.of_updates (s : State) (m : Memory) (p : List Nat) (c : Coh) :
    KeepsControl s { s with mem := m, poison := p, coh := c } := by constructor <;> first | exact Eq.refl _ | exact fun _ => Eq.refl _

/-- A core changed in all but its TLB. -/
theorem KeepsControl.of_core (s : State) (n : BitVec 10) (x : Core) (h : x.tlb = (s.core n).tlb) : KeepsControl s (s.setCore n x) := by
  constructor <;> try exact Eq.refl _
  intro c
  by_cases hc : c = n
  · rw [hc, State.setCore_core, h]
  · rw [State.setCore_core_other _ _ hc]

/-- The filter changed. -/
theorem KeepsControl.of_filter (s : State) (f : Tab Filter) : KeepsControl s { s with cxl := { s.cxl with filter := f } } := by
  constructor <;> first | exact Eq.refl _ | exact fun _ => Eq.refl _

theorem shutBy_keeps (s : State) (x : Shut) : KeepsControl s (s.shutBy x) := KeepsControl.of_updates s s.mem s.poison _

theorem needRun_keeps (s : State) (n : Nat) : KeepsControl s (s.needRun n) := by
  unfold State.needRun
  split
  · exact .rfl _
  · exact shutBy_keeps ..

theorem foldl_keeps {α : Type} (f : State → α → State) (h : ∀ s x, KeepsControl s (f s x)) (l : List α) (s : State) :
    KeepsControl s (l.foldl f s) := by
  induction l generalizing s with
  | nil => exact .rfl _
  | cons x r ih => exact (h s x).trans (ih _)

theorem needMedia_keeps (s : State) (line : Nat) : KeepsControl s (s.needMedia line) := foldl_keeps _ needRun_keeps _ s

theorem memWrite_keeps (s : State) (line : Nat) (d : LineData) (m : BitVec 128) (p : BitVec 4) : KeepsControl s (s.memWrite line d m p) :=
  KeepsControl.of_updates s _ _ s.coh

theorem setHome_keeps (s : State) (line : Nat) (h : Home) : KeepsControl s (s.setHome line h) := KeepsControl.of_updates s s.mem s.poison _

theorem memPut_keeps (s : State) (line : Nat) (d : LineData) (m : BitVec 128) (q : BitVec 4) : KeepsControl s (s.memPut line d m q) :=
  KeepsControl.of_updates s _ _ s.coh

theorem reachTarget_keeps (s : State) (line : Nat) (p : TargetAck → Bool) : KeepsControl s (s.reachTarget line p) := by
  unfold State.reachTarget
  dsimp only
  refine KeepsControl.trans (foldl_keeps _ (fun s x => ?_) _ s) (KeepsControl.of_updates _ _ _ _)
  split
  · exact memWrite_keeps ..
  · exact .rfl _

theorem setL2_keeps (s : State) (l : List L2Line) : KeepsControl s (s.setL2 l) := KeepsControl.of_updates s s.mem s.poison _

theorem dropL1_keeps (s : State) (c : BitVec 10) (line : Nat) : KeepsControl s (s.dropL1 c line) :=
  KeepsControl.of_core s c _ rfl

theorem dropMsg_keeps (s : State) (i : Nat) : KeepsControl s (s.dropMsg i) := KeepsControl.of_updates s s.mem s.poison _

theorem send_keeps (s : State) (m : Msg) : KeepsControl s (s.send m) := KeepsControl.of_updates s s.mem s.poison _

theorem touchL2_keeps (s : State) (line : Nat) : KeepsControl s (s.touchL2 line) := by
  unfold State.touchL2
  split
  · exact setL2_keeps _ _
  · exact .rfl _

theorem putHome_keeps (s : State) (line : Nat) (d : LineData) (m : BitVec 128) (p : BitVec 4) : KeepsControl s (s.putHome line d m p) := by
  unfold State.putHome
  split
  · exact setL2_keeps _ _
  · exact (needMedia_keeps ..).trans (memWrite_keeps ..)

theorem takeWriteback_keeps (s : State) (line : Nat) (d : LineData) (m : BitVec 128) (p : BitVec 4) (w r : BitVec 48) :
    KeepsControl s (s.takeWriteback line d m p w r) := (putHome_keeps s line d m p).trans (setHome_keeps ..)

theorem takeOwner_keeps (s : State) (line : Nat) (o : BitVec 10) : KeepsControl s (s.takeOwner line o) := by
  unfold State.takeOwner
  refine KeepsControl.trans ?_ (setHome_keeps ..)
  split
  · exact (needRun_keeps ..).trans ((dropL1_keeps ..).trans (takeWriteback_keeps ..))
  · split
    · split
      · exact (dropMsg_keeps ..).trans (takeWriteback_keeps ..)
      · exact .rfl _
    · exact .rfl _

theorem recall_keeps (s : State) (line : Nat) : KeepsControl s (s.recall line) := by
  unfold State.recall
  dsimp only
  refine (needRun_keeps s (homeIsland line)).trans ?_
  split
  · exact .rfl _
  · exact takeOwner_keeps ..
  · exact shutBy_keeps ..

theorem evictL2_keeps (s : State) (line : Nat) : KeepsControl s (s.evictL2 line) := by
  unfold State.evictL2
  dsimp only
  split
  · exact .rfl _
  · split
    · exact .rfl _
    · rename_i v _
      have hr : KeepsControl s (if (s.home v.line).st.stable = true then s.recall v.line else s) := by
        split
        · exact recall_keeps ..
        · exact .rfl _
      split
      · exact hr
      · exact hr.trans ((needMedia_keeps ..).trans ((reachTarget_keeps ..).trans ((memWrite_keeps ..).trans (setL2_keeps ..))))

/-- An update of the sampling and skim records. -/
theorem KeepsControl.of_sampling (s : State) (k : List Skim) (h : Tab Nat) (p : List (BitVec 12 × Nat)) (n : Nat) :
    KeepsControl s { s with mmu := { s.mmu with skims := k, hot := h, hotPages := p, misses := n } } := by
  constructor <;> first | exact Eq.refl _ | exact fun _ => Eq.refl _

theorem sampleMiss_keeps (s : State) (pa : Nat) : KeepsControl s (s.sampleMiss pa) := by
  unfold State.sampleMiss
  dsimp only
  split
  · exact KeepsControl.of_sampling s s.mmu.skims s.mmu.hot s.mmu.hotPages _
  · split
    · exact KeepsControl.of_sampling s s.mmu.skims s.mmu.hot s.mmu.hotPages _
    · split
      · exact KeepsControl.of_sampling s s.mmu.skims s.mmu.hot s.mmu.hotPages _
      · exact KeepsControl.of_sampling s s.mmu.skims _ _ _

theorem fillL2As_keeps (s : State) (line : Nat) (nc : Bool) : KeepsControl s (s.fillL2As line nc) := by
  unfold State.fillL2As
  dsimp only
  refine (needRun_keeps s (homeIsland line)).trans ?_
  split
  · split
    · exact (needMedia_keeps ..).trans ((reachTarget_keeps ..).trans ((memWrite_keeps ..).trans ((setL2_keeps ..).trans (touchL2_keeps ..))))
    · exact touchL2_keeps ..
  · exact (needMedia_keeps ..).trans ((reachTarget_keeps ..).trans ((evictL2_keeps ..).trans ((sampleMiss_keeps ..).trans (setL2_keeps ..))))

theorem fillL2_keeps (s : State) (line : Nat) : KeepsControl s (s.fillL2 line) := fillL2As_keeps s line false

theorem atHome_keeps (s : State) (line : Nat) : KeepsControl s (s.atHome line) := (recall_keeps s line).trans (fillL2_keeps ..)

theorem stampHome_keeps (s : State) (line : Nat) (t : BitVec 48) : KeepsControl s (s.stampHome line t) :=
  (setHome_keeps s line _).trans (KeepsControl.of_updates _ s.mem s.poison _)

theorem markSkim_keeps (s : State) (line : Nat) : KeepsControl s (s.markSkim line) :=
  KeepsControl.of_sampling s _ s.mmu.hot s.mmu.hotPages s.mmu.misses

theorem writeHomeAs_keeps (s : State) (line : Nat) (nc : Bool) (d : LineData) (m : BitVec 128) (p : BitVec 4) :
    KeepsControl s (s.writeHomeAs line nc d m p).1 :=
  (recall_keeps s line).trans ((fillL2As_keeps ..).trans ((putHome_keeps ..).trans ((stampHome_keeps ..).trans (markSkim_keeps ..))))

theorem writeHome_keeps (s : State) (line : Nat) (d : LineData) (m : BitVec 128) (p : BitVec 4) : KeepsControl s (s.writeHome line d m p).1 :=
  writeHomeAs_keeps s line false d m p

theorem writeTarget_keeps (s : State) (line : Nat) (d : LineData) (m : BitVec 128) (p : BitVec 4) :
    KeepsControl s (s.writeTarget line d m p).1 :=
  (recall_keeps s line).trans ((needMedia_keeps ..).trans ((reachTarget_keeps ..).trans ((setL2_keeps ..).trans ((memWrite_keeps ..).trans
    ((stampHome_keeps ..).trans (markSkim_keeps ..))))))

theorem writeAs_keeps (s : State) (mt : MType) (co : Bool) (line : Nat) (d : LineData) (m : BitVec 128) (p : BitVec 4) :
    KeepsControl s (s.writeAs mt co line d m p).1 := by
  unfold State.writeAs
  split
  · exact writeTarget_keeps ..
  · split
    · exact (recall_keeps s line).trans ((putHome_keeps ..).trans ((stampHome_keeps ..).trans (markSkim_keeps ..)))
    · exact writeHomeAs_keeps ..

theorem readyAs_keeps (s : State) (mt : MType) (co : Bool) (line : Nat) : KeepsControl s (s.readyAs mt co line) := by
  unfold State.readyAs
  dsimp only
  refine (recall_keeps s line).trans ?_
  split
  · split
    · exact .rfl _
    · exact (needMedia_keeps ..).trans (reachTarget_keeps ..)
  · exact fillL2As_keeps ..

theorem readAs_keeps (s : State) (mt : MType) (co : Bool) (line : Nat) : KeepsControl s (s.readAs mt co line).1 := readyAs_keeps ..

theorem clearRsv_keeps (s : State) (line : Nat) (a : Asker) : KeepsControl s (s.clearRsv line a) := setHome_keeps ..

theorem completeAt_keeps (s : State) (line : Nat) (b : Bool) : KeepsControl s (s.completeAt line b) := by
  unfold State.completeAt
  split
  · exact setHome_keeps ..
  · exact .rfl _

theorem servedNow_keeps (s : State) (line : Nat) (w : Waiter) : KeepsControl s (s.servedNow line w) :=
  (clearRsv_keeps ..).trans (completeAt_keeps ..)

theorem passFilter_keeps (s : State) (w : Waiter) (pa : Nat) (wr : Bool) : KeepsControl s (s.passFilter w pa wr) := by
  unfold State.passFilter
  dsimp only
  split
  · split
    · exact KeepsControl.of_filter s _
    · exact .rfl _
  · exact .rfl _

theorem passNow_keeps (s : State) (w : Waiter) (pa : Nat) (wr : Bool) : KeepsControl s (s.passNow w pa wr) :=
  (servedNow_keeps ..).trans (passFilter_keeps ..)

theorem partHome_keeps (s : State) (pa n : Nat) (wr : Bool) : KeepsControl s (s.partHome pa n wr) := by
  unfold State.partHome
  split
  · exact shutBy_keeps ..
  · exact (passNow_keeps ..).trans (atHome_keeps ..)

theorem readPa_keeps (s : State) (pa n : Nat) : KeepsControl s (s.readPa pa n).1 := partHome_keeps ..

theorem writePa_keeps (s : State) (pa n v : Nat) : KeepsControl s (s.writePa pa n v) := (partHome_keeps ..).trans (writeHome_keeps ..)

theorem readWords_keeps (s : State) (pa n : Nat) : KeepsControl s (s.readWords pa n).1 := by
  induction n generalizing s pa with
  | zero => exact .rfl _
  | succ n ih => exact (readPa_keeps s pa 8).trans (ih ..)

theorem writeWords_keeps (s : State) (pa : Nat) (l : List Word) : KeepsControl s (s.writeWords pa l) := by
  induction l generalizing s pa with
  | nil => exact .rfl _
  | cons w r ih => exact (writePa_keeps s pa 8 w.toNat).trans (ih ..)

end Sys2Proof.Machine
end

