-- ==== Sys2Proof/Tests/Slice0.lean ====
section
/-! SUPPORT. The model's own tests: what well-formedness refuses, words written out from the encodings of the spec, single steps with results
worked out from the rules, and witnesses that the hypotheses of the statements can be met. -/

namespace Sys2Proof.Tests

set_option Elab.async false

open Sys2Proof.Machine

/-! ### Small states -/

def all96 : Mask := BitVec.allOnes 96

/-- A group at the first of two instructions of a clause of class `cls`, with every lane live and active. -/
def group (cls : Nat) : Group :=
  { Group.blank with life := .running, inClause := true, pc := 0x1000, hdr := Header.mk cls 2 0, em := all96, live := all96, k := 6 }

def base (g : Group) : State := { State.reset with cur := g }

/-- Registers of a group: s1 = 7, s2 = -1, s3 = the most negative number, s4 = the most positive. -/
def withS (g : Group) : Group := (((g.swrite 1 7).swrite 2 0xFFFFFFFFFFFFFFFF).swrite 3 0x8000000000000000).swrite 4 0x7FFFFFFFFFFFFFFF

/-- v1 = the lane number, v2 = 1.0, v3 = -2.0, v4 = 0x7FFFFFFF. -/
def withV (g : Group) : Group :=
  (((g.vwrite 1 (Vector.ofFn fun i => BitVec.ofNat 32 i.val)).vwrite 2 (Vector.replicate 96 0x3F800000)).vwrite 3
    (Vector.replicate 96 0xC0000000)).vwrite 4 (Vector.replicate 96 0x7FFFFFFF)

def st (cls : Nat) : State := base (withV (withS (group cls)))

/-- The state after, reset where there is none. -/
def after (i : Instr) (s : State) : State :=
  match exec i s with
  | .next t => t
  | _ => State.reset

def stepped (s : State) : State :=
  match step s with
  | .next t => t
  | _ => State.reset

def event (s : State) (a b c : Nat) (w : Word) (flag : Bool) : State :=
  { s with ev := { Ev.none with a := a, b := b, c := c, w := w, flag := flag } }

/-- No hint, no write suppress, no stall, both guards c7. -/
def c0 : Ctl := ⟨0, false, 0, 7, 7⟩

def rr (d a b : Opd) (e : BitVec 8) : RR := ⟨c0, d, a, b, .absent, e⟩
def rr4 (d a b c : Opd) (e : BitVec 8) : RR := ⟨c0, d, a, b, c, e⟩
def i16 (d a b : Opd) (imm : BitVec 16) : I16 := ⟨c0, d, a, b, imm⟩
def i24 (d a : Opd) (imm : BitVec 24) : I24 := ⟨c0, d, a, imm⟩
def i32 (d : Opd) (imm : BitVec 32) : I32 := ⟨c0, d, imm⟩
/-- Nothing but the opcode. -/
def bare : RR := rr .absent .absent .absent 0xFF

/-! ### What well-formedness refuses (R244 to R248, R251 to R253, R257, R400) -/

theorem smoke_fields : (Instr.add (rr (.reg 1) (.reg 2) (.pos 5) 4)).wf = true ∧ (Instr.add (rr (.reg 1) (.rsvd 0x49) (.pos 5) 4)).wf = false ∧
    (Instr.add (rr .absent (.reg 2) (.pos 5) 0)).wf = false ∧ (Instr.add (rr (.pos 1) (.reg 2) (.pos 5) 0)).wf = false ∧
    (Instr.add (rr (.reg 1) (.reg 2) .absent 0)).wf = false ∧ (Instr.add (rr4 (.reg 1) (.reg 2) (.reg 3) (.reg 4) 0)).wf = false ∧
    (Instr.add (rr (.reg 1) .laneIdx (.reg 3) 0)).wf = false ∧ (Instr.add (rr (.reg 1) (.fpc 1) (.reg 3) 0)).wf = false ∧
    (Instr.vadd (rr (.reg 1) .laneIdx (.latch 7) 0)).wf = true ∧ (Instr.vadd (rr (.reg 1) (.fpc 1) (.reg 3) 0)).wf = false := by
  decide +kernel

theorem smoke_control : (Instr.add ⟨⟨1, false, 0, 7, 7⟩, .reg 1, .reg 2, .reg 3, .absent, 0⟩).wf = false ∧
    (Instr.add ⟨⟨0, true, 7, 7, 7⟩, .absent, .reg 2, .reg 3, .absent, 0⟩).wf = true ∧
    (Instr.add ⟨⟨0, true, 0, 7, 7⟩, .reg 1, .reg 2, .reg 3, .absent, 0⟩).wf = false ∧
    (Instr.cmp ⟨⟨0, true, 0, 7, 7⟩, .absent, .reg 2, .reg 3, .absent, 0⟩).wf = false ∧
    (Instr.sld .b32 ⟨⟨3, false, 0, 7, 7⟩, .reg 1, .reg 2, .absent, 0⟩).wf = true := by decide +kernel

theorem smoke_files : (Instr.cmp (rr (.reg 7) (.reg 2) (.reg 3) 0)).wf = true ∧ (Instr.cmp (rr (.reg 8) (.reg 2) (.reg 3) 0)).wf = false ∧
    (Instr.kmov (rr (.reg 4) .absent .absent 0xFF)).wf = true ∧ (Instr.kmov (rr (.reg 5) .absent .absent 0xFF)).wf = false ∧
    (Instr.tlwait (rr .absent (.reg 6) (.reg 1) 0xFF)).wf = true ∧ (Instr.tlwait (rr .absent (.reg 7) (.reg 1) 0xFF)).wf = false ∧
    (Instr.waitc (rr .absent (.reg 7) (.reg 1) 0xFF)).wf = true ∧ (Instr.waitc (rr .absent (.latch 0) (.reg 1) 0xFF)).wf = false ∧
    (Instr.qput (rr (.reg 8) (.reg 1) .absent 0xFF)).wf = true ∧ (Instr.qput (rr (.reg 1) (.reg 1) .absent 0xFF)).wf = false ∧
    (Instr.qget (rr (.reg 1) (.reg 7) .absent 0xFF)).wf = true ∧ (Instr.qget (rr (.reg 1) (.reg 2) .absent 0xFF)).wf = false ∧
    (Instr.enqt (rr .absent (.reg 56) (.reg 1) 0xFF)).wf = true ∧ (Instr.enqt (rr .absent (.reg 4) (.reg 1) 0xFF)).wf = false ∧
    (Instr.vld .b128 (i16 (.reg 60) (.reg 2) .absent 0)).wf = true ∧ (Instr.vld .b128 (i16 (.reg 62) (.reg 2) .absent 0)).wf = false ∧
    (Instr.jtabv (rr .absent (.latch 0) .absent 0xFF)).wf = false ∧ (Instr.spawn (i24 (.reg 61) (.reg 1) 0)).wf = false ∧
    (Instr.phase (i24 (.pos 7) (.reg 1) 0)).wf = true ∧ (Instr.phase (i24 (.pos 8) (.reg 1) 0)).wf = false := by decide +kernel

theorem smoke_modifiers_integer : (Instr.add (rr (.reg 1) (.reg 2) (.reg 3) 1)).wf = false ∧ (Instr.mul (rr (.reg 1) (.reg 2) (.reg 3) 4)).wf = false ∧
    (Instr.clz (rr (.reg 1) (.reg 2) .absent 0)).wf = false ∧ (Instr.cmp (rr (.reg 1) (.reg 2) (.reg 3) 6)).wf = false ∧
    (Instr.bfi (rr4 (.reg 1) (.reg 2) (.reg 3) (.reg 4) 0x50)).wf = false ∧
    (Instr.kset (rr .absent (.reg 2) .absent 8)).wf = false ∧ (Instr.kset (rr .absent (.reg 2) .absent 0)).wf = true ∧
    (Instr.kset (rr .absent .absent .absent 5)).wf = false ∧ (Instr.vbfx (rr4 (.reg 1) (.reg 2) (.reg 3) (.reg 4) 2)).wf = false := by decide +kernel

theorem smoke_modifiers_float : (Instr.fadd (rr (.reg 1) (.reg 2) (.fpc 3) 0x80)).wf = false ∧ (Instr.fadd (rr (.reg 1) (.reg 2) (.fpc 3) 0x7F)).wf = true ∧
    (Instr.fmin (rr (.reg 1) (.reg 2) (.reg 3) 1)).wf = false ∧ (Instr.frcp (rr (.reg 1) (.reg 2) .absent 0x20)).wf = false ∧
    (Instr.frsq (rr (.reg 1) (.reg 2) .absent 1)).wf = false ∧ (Instr.fcmp (rr .absent (.reg 2) (.reg 3) 8)).wf = false ∧
    (Instr.licmp (rr .absent (.reg 2) (.reg 3) 6)).wf = false ∧ (Instr.qdec (rr (.reg 1) (.reg 2) (.reg 3) 0x40)).wf = false ∧
    (Instr.qenc (rr (.reg 1) (.reg 2) .absent 0x80)).wf = false ∧
    (Instr.cvt ⟨⟨0, true, 0, 7, 7⟩, .absent, .reg 2, .absent, .absent, 0x80⟩).wf = false := by decide +kernel

theorem smoke_modifiers_cross : (Instr.vshfl (rr (.reg 1) (.reg 2) (.reg 3) 0x1C)).wf = false ∧ (Instr.vshfl (rr (.reg 1) (.reg 2) (.reg 3) 0x18)).wf = true ∧
    (Instr.vreds (rr (.reg 1) (.reg 2) .absent 0x10)).wf = false ∧ (Instr.vreds (rr (.reg 1) (.reg 2) .absent 0x0B)).wf = false ∧
    (Instr.vreds (rr (.reg 1) (.fpc 1) .absent 0)).wf = false ∧ (Instr.vreds (rr (.reg 1) (.fpc 1) .absent 8)).wf = true ∧
    (Instr.vscan (rr (.reg 1) (.reg 2) .absent 0x40)).wf = false ∧ (Instr.vreds (rr (.reg 1) (.reg 2) .absent 0x20)).wf = false := by decide +kernel

theorem smoke_modifiers_memory : (Instr.satom (rr4 (.reg 1) (.reg 2) .absent (.reg 3) 1)).wf = false ∧
    (Instr.satom (rr4 (.reg 1) (.reg 2) .absent (.reg 3) 0xC0)).wf = false ∧ (Instr.satom (rr4 (.reg 1) (.reg 2) .absent (.fpc 3) 0)).wf = false ∧
    (Instr.satom (rr4 (.reg 1) (.reg 2) .absent (.fpc 3) 0x90)).wf = true ∧ (Instr.vatom (rr4 (.reg 1) (.reg 2) .absent (.reg 4) 8)).wf = false ∧
    (Instr.vred (rr4 .absent (.reg 2) .absent (.reg 4) 0x80)).wf = false ∧ (Instr.scas (rr4 (.reg 1) (.reg 2) .absent (.reg 3) 0x10)).wf = false ∧
    (Instr.vcas (rr4 (.reg 2) (.reg 2) .absent (.reg 3) 8)).wf = false ∧ (Instr.syna (rr4 (.reg 1) (.reg 2) .absent (.reg 3) 8)).wf = false ∧
    (Instr.synw (rr4 (.reg 1) (.reg 2) .absent (.reg 3) 6)).wf = false ∧ (Instr.fence (rr .absent .absent .absent 0)).wf = false ∧
    (Instr.fence (rr .absent .absent .absent 0xE0)).wf = true ∧ (Instr.areg (rr .absent (.reg 1) .absent 1)).wf = false ∧
    (Instr.sweep (rr4 (.reg 1) (.reg 2) (.reg 3) (.reg 4) 0xB)).wf = false := by decide +kernel

theorem smoke_immediates : (Instr.movsr (i16 (.reg 1) .absent .absent 0x27)).wf = true ∧ (Instr.movsr (i16 (.reg 1) .absent .absent 0x28)).wf = false ∧
    (Instr.movsw (i16 .absent (.reg 1) .absent 0xD)).wf = false ∧ (Instr.sysr (i16 (.reg 1) .absent .absent 0x107)).wf = false ∧
    (Instr.sysw (i16 .absent (.reg 1) .absent 0x101)).wf = false ∧ (Instr.yield (i16 .absent .absent .absent 0x80)).wf = false := by decide +kernel

/-! ### Words written out from the encodings (R243, R244, R257, R361, R374) -/

theorem decode_group0 : decode 0x000077010285FF04 = .ok (.add (rr (.reg 1) (.reg 2) (.pos 5) 4)) ∧
    decode 0x074077010203FF02 = .ok (.cmp (rr (.reg 1) (.reg 2) (.reg 3) 2)) := by decide +kernel
theorem decode_group1 : decode 0x10C07704FFFF000C = .ok (.movsr (i16 (.reg 4) .absent .absent 0xC)) ∧
    decode 0x11C077FFFFFFFF19 = .ok (.kset (rr .absent .absent .absent 0x19)) := by decide +kernel
theorem decode_group2 : decode 0x200077FFFFFFFFDC = .ok (.br (i24 .absent .absent 0xFFFFDC)) ∧
    decode 0x220077FFFFFFFFFF = .ok (.join bare) ∧ decode 0x218077FFFF000010 = .ok (.split (i24 .absent .absent 0x10)) := by decide +kernel
theorem decode_group3 : decode 0x3000770301CFFF04 = .ok (.vadd (rr (.reg 3) (.reg 1) (.neg 15) 4)) := by decide +kernel
theorem decode_group4 : decode 0x40003C0502D1FF09 = .ok (.fadd ⟨⟨0, false, 0, 3, 0xC⟩, .reg 5, .reg 2, .fpc 1, .absent, 9⟩) ∧
    decode 0x418077FF02D4FF02 = .ok (.fcmp (rr .absent (.reg 2) (.fpc 4) 2)) := by decide +kernel
theorem decode_group5 : decode 0x53C077060405FF00 = .ok (.limul (rr (.reg 6) (.reg 4) (.reg 5) 0)) ∧
    decode 0x5240770703FFFF41 = .ok (.cvt (rr (.reg 7) (.reg 3) .absent 0x41)) := by decide +kernel
theorem decode_group6 : decode 0x60C0770102FFFF08 = .ok (.vreds (rr (.reg 1) (.reg 2) .absent 8)) := by decide +kernel
theorem decode_group7 : decode 0x7110770402FF0010 = .ok (.sld .b32 ⟨⟨1, false, 0, 7, 7⟩, .reg 4, .reg 2, .absent, 0x10⟩) := by decide +kernel
theorem decode_group8 : decode 0x800077040203FFF0 = .ok (.pld (i16 (.reg 4) (.reg 2) (.reg 3) 0xFFF0)) := by decide +kernel
theorem decode_group9 : decode 0x90C0770402FF0510 = .ok (.satom (rr4 (.reg 4) (.reg 2) .absent (.reg 5) 0x10)) := by decide +kernel
theorem decode_groupA : decode 0xA18077FF0209FFFF = .ok (.tlwait (rr .absent (.reg 2) (.reg 9) 0xFF)) := by decide +kernel
theorem decode_groupB : decode 0xB00077FF02FFFF40 = .ok (.areg (rr .absent (.reg 2) .absent 0x40)) := by decide +kernel
theorem decode_groupC : decode 0xC000770004FFFFFF = .ok (.qput (rr (.reg 0) (.reg 4) .absent 0xFF)) ∧
    decode 0xC10077FF0814FFFF = .ok (.enqt (rr .absent (.reg 8) (.reg 20) 0xFF)) := by decide +kernel
theorem decode_groupD : decode 0xD00077FFFFFF0013 = .ok (.yield (i16 .absent .absent .absent 0x13)) ∧
    decode 0xD040778107000000 = .ok (.phase (i24 (.pos 1) (.reg 7) 0)) ∧ decode 0xD1807703FFFF0100 = .ok (.sysr (i16 (.reg 3) .absent .absent 0x100)) ∧
    decode 0xD1C077FF02FF000C = .ok (.sysw (i16 .absent (.reg 2) .absent 0xC)) := by decide +kernel
theorem decode_refused : decode 0xE00077FFFFFFFFFF = .error .opcode ∧ decode 0xF010000000000000 = .error .header ∧
    decode 0x0FC077FFFFFFFFFF = .error .opcode := by decide +kernel
theorem decode_commands : decodeCmd 0x2001900000400000 0x1234 = some (.nsend ⟨100, 4, 0x1234⟩) ∧
    decodeCmd 0x0204000000000000 0 = some (.mxzero ⟨⟨false, false⟩, 0, true⟩) ∧ decodeCmd 0x0204000000000001 0 = none ∧
    decodeCmd 0x0204000000000000 1 = none ∧
    decodeCmd 0x1312000000000010 0xABCD00010000001F = some (.cpfill ⟨⟨false, false⟩, 1, 0x10, 0x201F, 0xABCD0001⟩) ∧
    decodeCmd 0x1312000000000010 0xABCD00010000201F = none ∧ decodeCmd 0x0000000000000000 0 = none := by decide +kernel

/-! ### One step each: results worked out from the rules -/

def sreg (s : State) (n : BitVec 6) : Word := s.cur.sread n
def lane (s : State) (n : BitVec 6) (i : Fin 96) : BitVec 32 := (s.cur.vread n)[i]

/-- R261 to R263: s1 = 7, s2 = −1, s3 = −2^63, s4 = 2^63 − 1. -/
theorem test_add_wraps : sreg (after (.add (rr (.reg 5) (.reg 4) (.pos 1) 0)) (st 0)) 5 = 0x8000000000000000 ∧
    (after (.add (rr (.reg 5) (.reg 4) (.pos 1) 0)) (st 0)).cur.latches = [.s 0x8000000000000000] ∧
    sreg (after (.add (rr (.reg 5) (.reg 4) (.pos 1) 4)) (st 0)) 5 = 0x7FFFFFFFFFFFFFFF := by decide +kernel
theorem test_sub : sreg (after (.sub (rr (.reg 5) (.reg 1) (.pos 9) 0)) (st 0)) 5 = 0xFFFFFFFFFFFFFFFE := by decide +kernel
theorem test_mul : sreg (after (.mul (rr (.reg 5) (.reg 2) (.pos 3) 0)) (st 0)) 5 = 0xFFFFFFFFFFFFFFFD := by decide +kernel
theorem test_mulh : sreg (after (.mulh (rr (.reg 5) (.reg 2) (.reg 1) 0)) (st 0)) 5 = 0xFFFFFFFFFFFFFFFF ∧
    sreg (after (.mulhu (rr (.reg 5) (.reg 2) (.reg 1) 0)) (st 0)) 5 = 6 := by decide +kernel
theorem test_div_corners : sreg (after (.div (rr (.reg 5) (.reg 1) (.pos 0) 0)) (st 0)) 5 = 0xFFFFFFFFFFFFFFFF ∧
    sreg (after (.div (rr (.reg 5) (.reg 3) (.reg 2) 0)) (st 0)) 5 = 0x8000000000000000 ∧
    sreg (after (.div (rr (.reg 5) (.neg 9) (.pos 2) 0)) (st 0)) 5 = 0xFFFFFFFFFFFFFFFD := by decide +kernel
theorem test_rem_corners : sreg (after (.rem (rr (.reg 5) (.reg 1) (.pos 0) 0)) (st 0)) 5 = 7 ∧
    sreg (after (.rem (rr (.reg 5) (.reg 3) (.reg 2) 0)) (st 0)) 5 = 0 ∧
    sreg (after (.rem (rr (.reg 5) (.neg 9) (.pos 2) 0)) (st 0)) 5 = 0xFFFFFFFFFFFFFFFF := by decide +kernel
theorem test_divu_remu : sreg (after (.divu (rr (.reg 5) (.reg 2) (.pos 10) 0)) (st 0)) 5 = 0x1999999999999999 ∧
    sreg (after (.remu (rr (.reg 5) (.reg 2) (.pos 10) 0)) (st 0)) 5 = 5 := by decide +kernel
theorem test_logic : sreg (after (.and (rr (.reg 5) (.reg 1) (.pos 12) 0)) (st 0)) 5 = 4 ∧
    sreg (after (.or (rr (.reg 5) (.reg 1) (.pos 12) 0)) (st 0)) 5 = 15 ∧ sreg (after (.xor (rr (.reg 5) (.reg 1) (.pos 12) 0)) (st 0)) 5 = 11 ∧
    sreg (after (.andn (rr (.reg 5) (.reg 1) (.pos 12) 0)) (st 0)) 5 = 3 ∧
    sreg (after (.orn (rr (.reg 5) (.reg 1) (.pos 12) 0)) (st 0)) 5 = 0xFFFFFFFFFFFFFFF7 := by decide +kernel
theorem test_shifts : sreg (after (.shl (rr (.reg 5) (.reg 1) (.pos 62) 0)) (st 0)) 5 = 0xC000000000000000 ∧
    sreg (after (.shr (rr (.reg 5) (.reg 3) (.pos 63) 0)) (st 0)) 5 = 1 ∧
    sreg (after (.sra (rr (.reg 5) (.reg 3) (.pos 63) 0)) (st 0)) 5 = 0xFFFFFFFFFFFFFFFF ∧
    sreg (after (.ror (rr (.reg 5) (.reg 1) (.pos 1) 0)) (st 0)) 5 = 0x8000000000000003 ∧
    sreg (after (.shl (rr (.reg 5) (.reg 1) (.reg 2) 0)) (st 0)) 5 = 0x8000000000000000 := by decide +kernel
theorem test_minmax : sreg (after (.min (rr (.reg 5) (.reg 1) (.reg 2) 0)) (st 0)) 5 = 0xFFFFFFFFFFFFFFFF ∧
    sreg (after (.max (rr (.reg 5) (.reg 1) (.reg 2) 0)) (st 0)) 5 = 7 ∧ sreg (after (.minu (rr (.reg 5) (.reg 1) (.reg 2) 0)) (st 0)) 5 = 7 ∧
    sreg (after (.maxu (rr (.reg 5) (.reg 1) (.reg 2) 0)) (st 0)) 5 = 0xFFFFFFFFFFFFFFFF := by decide +kernel
theorem test_counts : sreg (after (.clz (rr (.reg 5) (.reg 1) .absent 0xFF)) (st 0)) 5 = 61 ∧
    sreg (after (.clz (rr (.reg 5) (.pos 0) .absent 0xFF)) (st 0)) 5 = 64 ∧ sreg (after (.ctz (rr (.reg 5) (.reg 3) .absent 0xFF)) (st 0)) 5 = 63 ∧
    sreg (after (.popc (rr (.reg 5) (.reg 2) .absent 0xFF)) (st 0)) 5 = 64 := by decide +kernel
/-- R264: B is the position and C the length; of BFI, C and E. -/
theorem test_fields : sreg (after (.bfxu (rr4 (.reg 5) (.reg 2) (.pos 62) (.pos 5) 0xFF)) (st 0)) 5 = 3 ∧
    sreg (after (.bfx (rr4 (.reg 5) (.reg 1) (.pos 1) (.pos 2) 0xFF)) (st 0)) 5 = 0xFFFFFFFFFFFFFFFF ∧
    sreg (after (.bfi (rr4 (.reg 5) (.reg 2) (.pos 2) (.pos 4) 0x83)) (st 0)) 5 = 0xFFFFFFFFFFFFFFAF := by decide +kernel
theorem test_sel_cmp : sreg (after (.sel (rr4 (.reg 5) (.reg 1) (.reg 2) (.reg 3) 0xFF)) (st 0)) 5 = 0xFFFFFFFFFFFFFFFF ∧
    (after (.cmp (rr (.reg 2) (.reg 2) (.reg 1) 2)) (st 0)).cur.pred 2 = true ∧
    (after (.cmp (rr (.reg 2) (.reg 2) (.reg 1) 4)) (st 0)).cur.pred 2 = false := by decide +kernel

/-- R266 to R270. -/
theorem test_moves : sreg (after (.mov (rr (.reg 5) (.neg 0) .absent 0xFF)) (st 0)) 5 = 0xFFFFFFFFFFFFFFF0 ∧
    sreg (after (.ldk (i32 (.reg 5) 0x80000000)) (st 0)) 5 = 0xFFFFFFFF80000000 ∧
    sreg (after (.ldkh (i32 (.reg 1) 0x12345678)) (st 0)) 1 = 0x1234567800000007 ∧
    sreg (after (.movsr (i16 (.reg 5) .absent .absent 0xF)) (st 0)) 5 = 256 := by decide +kernel
theorem test_predicates : (after (.plog (rr4 (.reg 1) (.reg 7) (.reg 0) (.reg 7) 0x20)) (st 0)).cur.pred 1 = true ∧
    (after (.plog (rr4 (.reg 1) (.reg 7) (.reg 7) (.reg 7) 0x7F)) (st 0)).cur.pred 1 = false ∧
    sreg (after (.kmov (rr (.reg 6) .absent .absent 0xFF)) (st 0)) 6 = 6 ∧
    (after (.kset (rr .absent (.pos 3) .absent 3)) (st 0)).cur.k = 5 ∧ (after (.kset (rr .absent .absent .absent 0x19)) (st 0)).cur.em = 6 := by
  decide +kernel

/-- R245, R271, R272: the target counts from the next clause, here 0x1018; CALL leaves that address in s63. -/
theorem test_transfers :
    (after (.br (i24 .absent .absent 0xFFFFFE)) { st 0 with cur := { (st 0).cur with cpos := 1 } }).cur.pc = 0x1008 ∧
    (after (.call (i24 .absent .absent 4)) { st 0 with cur := { (st 0).cur with cpos := 1 } }).cur.pc = 0x1038 ∧
    sreg (after (.call (i24 .absent .absent 4)) { st 0 with cur := { (st 0).cur with cpos := 1 } }) 63 = 0x1018 ∧
    (after (.ret (rr .absent (.reg 1) .absent 0xFF)) { st 0 with cur := { (st 0).cur with cpos := 1 } }).cur.pc = 7 := by decide +kernel

/-- R285 to R292. -/
theorem test_vector_integer : lane (after (.vadd (rr (.reg 5) (.reg 1) (.neg 15) 0)) (st 1)) 5 0 = 0xFFFFFFFF ∧
    lane (after (.vadd (rr (.reg 5) (.reg 1) (.neg 15) 0)) (st 1)) 5 95 = 94 ∧
    lane (after (.vsub (rr (.reg 5) (.pos 3) .laneIdx 0)) (st 1)) 5 4 = 0xFFFFFFFF ∧
    lane (after (.vmul (rr (.reg 5) (.reg 4) (.pos 2) 0)) (st 2)) 5 9 = 0xFFFFFFFE ∧
    lane (after (.vmulh (rr (.reg 5) (.reg 4) (.pos 4) 0)) (st 1)) 5 9 = 1 ∧
    lane (after (.vmad (rr4 (.reg 5) (.reg 1) (.reg 1) (.pos 5) 0)) (st 1)) 5 10 = 105 := by decide +kernel
theorem test_vector_mask : lane (after (.vadd (rr (.reg 1) (.reg 1) (.pos 9) 0)) (base { (withV (group 1)) with em := 2 })) 1 0 = 0 ∧
    lane (after (.vadd (rr (.reg 1) (.reg 1) (.pos 9) 0)) (base { (withV (group 1)) with em := 2 })) 1 1 = 10 := by decide +kernel
theorem test_vector_shifts : lane (after (.vshl (rr (.reg 5) (.pos 1) (.reg 1) 0)) (st 1)) 5 33 = 2 ∧
    lane (after (.vshr (rr (.reg 5) (.reg 3) (.pos 31) 0)) (st 1)) 5 0 = 1 ∧
    lane (after (.vsra (rr (.reg 5) (.reg 3) (.pos 31) 0)) (st 1)) 5 0 = 0xFFFFFFFF ∧
    lane (after (.vabs (rr (.reg 5) (.neg 9) .absent 0)) (st 1)) 5 0 = 7 ∧
    lane (after (.vclz (rr (.reg 5) (.reg 1) .absent 0)) (st 1)) 5 95 = 25 ∧
    lane (after (.vpopc (rr (.reg 5) (.reg 1) .absent 0)) (st 1)) 5 95 = 6 := by decide +kernel
theorem test_vector_bits : lane (after (.vand (rr (.reg 5) (.reg 1) (.pos 12) 0)) (st 1)) 5 95 = 12 ∧
    lane (after (.vor (rr (.reg 5) (.reg 1) (.pos 32) 0)) (st 1)) 5 95 = 127 ∧ lane (after (.vxor (rr (.reg 5) (.reg 1) (.pos 1) 0)) (st 1)) 5 95 = 94 ∧
    lane (after (.vandn (rr (.reg 5) (.reg 1) (.pos 31) 0)) (st 1)) 5 95 = 64 ∧
    lane (after (.vmin (rr (.reg 5) (.reg 3) (.pos 1) 0)) (st 1)) 5 0 = 0xC0000000 ∧ lane (after (.vmax (rr (.reg 5) (.reg 3) (.pos 1) 0)) (st 1)) 5 0 = 1 ∧
    lane (after (.vminu (rr (.reg 5) (.reg 3) (.pos 1) 0)) (st 1)) 5 0 = 1 ∧
    lane (after (.vmaxu (rr (.reg 5) (.reg 3) (.pos 1) 0)) (st 1)) 5 0 = 0xC0000000 := by decide +kernel
theorem test_vector_rest : (after (.vcmp (rr .absent .laneIdx (.pos 2) 2)) (st 1)).cur.k = 3 ∧
    lane (after (.vsel (rr (.reg 5) (.pos 1) (.pos 2) 0xFF)) (st 1)) 5 0 = 2 ∧ lane (after (.vsel (rr (.reg 5) (.pos 1) (.pos 2) 0xFF)) (st 1)) 5 1 = 1 ∧
    lane (after (.vmov (rr (.reg 5) (.reg 3) .absent 0xFF)) (st 1)) 5 7 = 0xC0000000 ∧
    sreg (after (.vmovs (rr (.reg 5) (.reg 1) (.pos 50) 0xFF)) (st 1)) 5 = 50 := by decide +kernel

/-- R293 to R300: v2 = 1.0, v3 = −2.0. -/
theorem test_fp32 : lane (after (.fadd (rr (.reg 5) (.reg 2) (.reg 3) 0)) (st 1)) 5 0 = 0xBF800000 ∧
    lane (after (.fsub (rr (.reg 5) (.reg 2) (.reg 3) 0)) (st 1)) 5 0 = 0x40400000 ∧ lane (after (.fmul (rr (.reg 5) (.reg 3) (.reg 3) 0)) (st 1)) 5 0 = 0x40800000 ∧
    lane (after (.ffma (rr4 (.reg 5) (.reg 3) (.reg 3) (.reg 2) 0)) (st 1)) 5 0 = 0x40A00000 ∧
    lane (after (.fmin (rr (.reg 5) (.reg 2) (.reg 3) 0)) (st 1)) 5 0 = 0xC0000000 ∧ lane (after (.fmax (rr (.reg 5) (.reg 2) (.reg 3) 0)) (st 1)) 5 0 = 0x3F800000 ∧
    (after (.fcmp (rr .absent (.reg 3) (.reg 2) 2)) (st 1)).cur.k = all96 := by decide +kernel
theorem test_fp32_special : lane (after (.frcp (rr (.reg 5) (.reg 3) .absent 0)) (st 2)) 5 0 = 0xBF000000 ∧
    lane (after (.fsqrt (rr (.reg 5) (.reg 3) .absent 0)) (st 2)) 5 0 = 0x7FC00000 ∧
    (after (.fdiv (rr (.reg 5) (.reg 2) (.pos 0) 4)) (st 2)).cur.gsf = gsfOF ∧
    lane (after (.fdiv (rr (.reg 5) (.reg 2) (.reg 3) 0)) (st 2)) 5 0 = 0xBF000000 ∧
    lane (after (.fexp2 (rr (.reg 5) (.reg 3) .absent 0)) (st 2)) 5 0 = 0x3E800000 ∧
    lane (after (.flog2 (rr (.reg 5) (.reg 2) .absent 0)) (st 2)) 5 0 = 0 := by decide +kernel
/-- R297: an FP64 lane i is the pair of registers; d0 = 1.0 (v7:v6). -/
theorem test_fp64 : lane (after (.dadd (rr (.reg 8) (.reg 6) (.reg 6) 0)) (base ((group 1).vwrite 7 (Vector.replicate 96 0x3FF00000)))) 9 0 = 0x40000000 ∧
    lane (after (.dmul (rr (.reg 8) (.reg 6) (.reg 6) 0)) (base ((group 1).vwrite 7 (Vector.replicate 96 0x40000000)))) 9 0 = 0x40100000 := by decide +kernel
/-- R295: pairs of FP16, here 1.0 and −2.0 in every lane. -/
theorem test_fp16_pairs : lane (after (.hadd2 (rr (.reg 5) (.reg 6) (.reg 6) 0)) (base ((group 1).vwrite 6 (Vector.replicate 96 0xC0003C00)))) 5 0 = 0xC4004000 ∧
    lane (after (.hmul2 (rr (.reg 5) (.reg 6) (.reg 6) 0)) (base ((group 1).vwrite 6 (Vector.replicate 96 0xC0003C00)))) 5 0 = 0x44003C00 := by decide +kernel

/-- R309 to R314. -/
theorem test_cross_lane : lane (after (.vperm (rr (.reg 5) (.reg 1) (.pos 5) 0xFF)) (st 1)) 5 40 = 5 ∧
    lane (after (.vbcast (rr (.reg 5) (.reg 1) (.reg 1) 0xFF)) (st 1)) 5 40 = 7 ∧
    sreg (after (.vballot (rr (.reg 6) (.reg 1) .absent 0xFF)) (st 1)) 6 = 0xFFFFFFFFFFFFFFFE ∧
    sreg (after (.vreds (rr (.reg 5) (.reg 1) .absent 0)) (st 1)) 5 = 4560 ∧
    lane (after (.vscan (rr (.reg 5) (.reg 1) .absent 0)) (st 1)) 5 95 = 4560 := by decide +kernel
/-! ### States and operands that meet the hypotheses of the statements -/

/-- Every scalar form, every move, every vector form with operands its fields allow. -/
def scalarForms : List Instr :=
  let w := rr (.reg 5) (.reg 1) (.reg 2) 0
  let u := rr (.reg 5) (.reg 1) .absent 0xFF
  let t := rr4 (.reg 5) (.reg 1) (.reg 2) (.reg 3) 0xFF
  [.add w, .sub w, .mul w, .mulh w, .mulhu w, .div w, .divu w, .rem w, .remu w, .and w, .or w, .xor w, .andn w, .orn w, .shl w, .shr w,
   .sra w, .ror w, .min w, .max w, .minu w, .maxu w, .clz u, .ctz u, .popc u, .bfx t, .bfxu t, .bfi (rr4 (.reg 5) (.reg 1) (.reg 2) (.reg 3) 0xBF),
   .sel t, .cmp (rr (.reg 7) (.reg 1) (.reg 2) 0xD)]

theorem witness_ScalarIntegerResults : ∀ i ∈ scalarForms, issues i (st 0) = true ∧ (scalarEffect (st 0).cur i).isSome = true := by
  decide +kernel

theorem witness_MoveAndPredicateResults :
    ∀ i ∈ [Instr.mov (rr (.reg 62) (.reg 1) .absent 0xFF), .ldk (i32 (.reg 5) 0), .ldkh (i32 (.reg 5) 0), .movsr (i16 (.reg 5) .absent .absent 0x27),
      .movsw (i16 .absent (.reg 1) .absent 0xC), .plog (rr4 (.reg 1) (.reg 2) (.reg 3) (.reg 7) 0xFF), .kmov (rr (.reg 58) .absent .absent 0xFF),
      .kset (rr .absent (.reg 2) .absent 0x14), .kset (rr .absent .absent .absent 8)],
      issues i (st 0) = true ∧ (moveEffect (st 0) i).isSome = true := by decide +kernel

def vectorForms : List Instr :=
  let w := rr (.reg 5) (.reg 1) (.reg 2) 0
  let s := rr (.reg 5) (.reg 1) (.reg 2) 4
  let u := rr (.reg 5) (.reg 1) .absent 0
  [.vadd w, .vadd s, .vsub w, .vsub s, .vmul s, .vmulh w, .vmad (rr4 (.reg 5) (.reg 1) (.reg 2) (.reg 3) 4), .vand w, .vor w, .vxor w, .vandn w,
   .vshl w, .vshr w, .vsra w, .vmin w, .vmax w, .vminu w, .vmaxu w, .vabs u, .vclz u, .vpopc u, .vbfx (rr4 (.reg 5) (.reg 1) (.reg 2) (.reg 3) 1),
   .vbfi (rr4 (.reg 5) (.reg 1) (.reg 2) (.reg 3) 0x3F), .vsel (rr (.reg 5) (.reg 1) (.reg 2) 0xFF), .vcmp (rr .absent (.reg 1) (.reg 2) 0xD),
   .vmov (rr (.reg 5) (.reg 1) .absent 0xFF), .vaddp (rr (.reg 6) (.reg 2) (.reg 4) 4)]

theorem witness_VectorIntegerResults : ∀ i ∈ vectorForms, issues i (st 1) = true ∧ (vectorEffect (st 1).cur i).isSome = true := by
  decide +kernel

def floatForms : List Instr :=
  let w := rr (.reg 5) (.reg 2) (.reg 3) 0x7F
  let t := rr4 (.reg 5) (.reg 1) (.reg 2) (.reg 3) 0
  let d := rr4 (.reg 6) (.reg 2) (.reg 4) (.reg 8) 0
  let u := rr (.reg 5) (.reg 2) .absent 0
  [.fadd w, .fsub w, .fmul w, .ffma t, .fmin (rr (.reg 5) (.reg 2) (.reg 3) 0), .fmax (rr (.reg 5) (.reg 2) (.reg 3) 0), .fcmp (rr .absent (.reg 2) (.reg 3) 7),
   .fclass (rr (.reg 5) (.reg 2) .absent 0xFF), .hadd2 w, .hmul2 w, .hfma2 t, .dadd (rr (.reg 6) (.reg 2) (.reg 4) 0), .dmul (rr (.reg 6) (.reg 2) (.reg 4) 0),
   .dfma d, .frcp u, .frsq u, .fsqrt u, .fdiv (rr (.reg 5) (.reg 2) (.reg 3) 0), .fexp2 u, .flog2 u, .fsin u, .fcos u, .ftanh u]

theorem witness_VectorFloatResults : ∀ i ∈ floatForms, issues i (st 1) = true ∧ (floatEffect (st 1).cur i).isSome = true := by
  decide +kernel

/-- Slots 0 to 4 of the launch hold FP32, FP16, LI32, INT8 and INT32; slots 5 to 7 nothing. -/
def slotted (cls : Nat) : State :=
  { st cls with sch := { State.reset.sch with launches := [(0, { Launch.none with words := List.replicate 16 0 ++
    [0x0200000000000000, 0, 0x0300000000000000, 0, 0x0900000000000000, 0, 0x0500000000000000, 0, 0x0A00000000000000, 0] })] } }

theorem witness_ConversionResults :
    (∀ i ∈ [Instr.cvt (rr (.reg 6) (.reg 2) .absent 1), .cvti (rr (.reg 5) (.reg 2) .absent 4), .qdec (rr (.reg 5) (.reg 2) (.reg 3) 0x18),
        .qenc (rr (.reg 5) (.reg 2) .absent 3), .licvt (rr (.reg 5) (.reg 2) .absent 2)],
      issues i (slotted 2) = true ∧ (convertEffect (slotted 2) i).isSome = true) ∧
    (∀ i ∈ [Instr.cvt (rr (.reg 6) (.reg 2) .absent 5), .cvti (rr (.reg 5) (.reg 2) .absent 5), .qdec (rr (.reg 5) (.reg 2) (.reg 3) 5),
        .qenc (rr (.reg 5) (.reg 2) .absent 5), .licvt (rr (.reg 5) (.reg 2) .absent 5)],
      issues i (slotted 2) = true ∧ ((slotted 2).slotD (rr (.reg 6) (.reg 2) .absent 5)).malformed = true) ∧
    (∀ i ∈ [Instr.liadd (rr (.reg 5) (.reg 2) (.reg 3) 0), .lisub (rr (.reg 5) (.reg 2) (.reg 3) 0), .limul (rr (.reg 5) (.reg 2) (.reg 3) 0),
        .lidiv (rr (.reg 5) (.reg 2) (.reg 3) 0), .licmp (rr .absent (.reg 2) (.reg 3) 5)],
      issues i (st 2) = true ∧ (levelEffect (st 2).cur i).isSome = true) := by decide +kernel

theorem witness_CrossLaneResults :
    ∀ i ∈ [Instr.vmovs (rr (.reg 5) (.reg 1) (.pos 63) 0xFF), .vperm (rr (.reg 5) (.reg 1) (.reg 2) 0xFF), .vbcast (rr (.reg 5) (.reg 1) (.reg 2) 0xFF),
      .vshfl (rr (.reg 5) (.reg 1) (.reg 2) 0x18), .vreds (rr (.reg 5) (.reg 1) .absent 9), .vscan (rr (.reg 5) (.reg 1) .absent 0x20),
      .vballot (rr (.reg 6) (.reg 1) .absent 0xFF)],
      issues i (st 1) = true ∧ (crossEffect (st 1).cur i).isSome = true := by decide +kernel

theorem witness_RegisterWrites : (59 : BitVec 6).toNat < 60 ∧ (2 : Nat) < 3 ∧ (62 : BitVec 6).toNat = 60 + 2 := by decide

theorem witness_BitCountsAndFields : (1 : Nat) < 2 ^ 64 ∧ (1 : Nat) ≠ 0 ∧ (0 : Nat) < 2 ^ 64 ∧ 2 ^ 64 - 1 < 2 ^ 64 := by decide

/-- The largest FP16 number and the smallest subnormal FP32 one. -/
theorem witness_RoundingKeepsRepresentable : fp16 ∈ [fp64, fp32, fp16, bf16] ∧ 0xFBFF < 2 ^ fp16.width ∧ (fp16.decode 0xFBFF).isNaN = false ∧
    fp16.decode 0xFBFF = .fin true 2047 5 ∧ fp32.decode 1 = .fin false 1 (-149) := by decide +kernel

/-- The group at the last instruction of its clause, the third. -/
def last (s : State) : State := { s with cur := { s.cur with cpos := 2, hdr := Header.mk (Header.cls s.cur.hdr) 3 0 } }

theorem witness_PlainTransfers :
    ∀ i ∈ [Instr.br (i24 .absent .absent 0), .brc (i24 .absent (.pos 0) 0), .brc (i24 .absent (.reg 1) 0), .call (i24 .absent .absent 0x7FFFFF),
      .ret (rr .absent (.reg 1) .absent 0xFF), .bany (i24 .absent .absent 0), .ball (i24 .absent .absent 0), .bnone (i24 .absent .absent 0)],
      issues i (last (st 0)) = true ∧ (transferEffect (last (st 0)).cur i).isSome = true := by decide +kernel

/-- A group whose mask stack holds `n` entries of kind `kind`, under a launch of depth `d`. -/
def stacked (n : Nat) (kind : BitVec 4) (d : Nat) : State :=
  let s := last (st 0)
  { s with
    cur := { s.cur with msdep := BitVec.ofNat 8 n, mstack := List.replicate (min n 8) (stackEntry kind 2 all96) }
    sch := { s.sch with launches := [(0, { Launch.none with words := [0, 0, 0, BitVec.ofNat 64 (d * 2 ^ 28)] })] } }

def jz : I24 := i24 .absent .absent 4

theorem witness_DivergencePushes :
    (issues (.split jz) (stacked 8 0 9) = true ∧ (stacked 8 0 9).cur.stackOk ∧ (stacked 8 0 9).mdepth < 10) ∧
    (issues (.split jz) (stacked 7 0 9) = true ∧ (stacked 7 0 9).cur.stackOk ∧ 7 + 2 ≤ (stacked 7 0 9).mdepth ∧ (stacked 7 0 9).mdepth ≤ 255) ∧
    (issues (.loopm jz) (stacked 9 0 9) = true ∧ (stacked 9 0 9).cur.stackOk ∧ (stacked 9 0 9).mdepth < 10) ∧
    (issues (.loopm jz) (stacked 8 0 9) = true ∧ (stacked 8 0 9).cur.stackOk ∧ 8 + 1 ≤ (stacked 8 0 9).mdepth) ∧
    (issues (.loopm jz) { stacked 8 0 9 with cur := { (stacked 8 0 9).cur with em := 0 } } = true) := by decide +kernel

theorem witness_DivergencePops :
    (issues (.elseM jz) (stacked 0 0 9) = true ∧ (stacked 0 0 9).cur.stackOk ∧ (stacked 0 0 9).cur.msdep = 0) ∧
    (issues (.elseM jz) (stacked 9 2 9) = true ∧ (stacked 9 2 9).cur.stackOk ∧ entryKind ((stacked 9 2 9).entry 0) ≠ 1) ∧
    (issues (.elseM jz) (stacked 9 1 9) = true ∧ (stacked 9 1 9).cur.stackOk ∧ (stacked 9 1 9).cur.msdep ≠ 0 ∧ entryKind ((stacked 9 1 9).entry 0) = 1) ∧
    (issues (.join bare) (stacked 1 3 9) = true ∧ (stacked 1 3 9).cur.stackOk ∧ entryKind ((stacked 1 3 9).entry 0) ∉ [0, 2]) ∧
    (issues (.join bare) (stacked 1 2 9) = true ∧ (stacked 1 2 9).cur.stackOk ∧ (stacked 1 2 9).cur.msdep ≠ 0 ∧ entryKind ((stacked 1 2 9).entry 0) ∈ [0, 2]) := by
  decide +kernel

/-- s6, s7 hold a legal entry, s8, s9 one with its reserved field set. -/
def entryPair (s : State) : State :=
  { s with cur := (((s.cur.swrite 6 5).swrite 7 0x2000000000000000).swrite 8 5).swrite 9 0x2001000000000000 }

theorem witness_MaskStackAccess :
    (issues (.mstr (rr (.reg 6) (.pos 0) .absent 0xFF)) (stacked 1 2 9) = true) ∧
    (issues (.mstw (rr .absent (.reg 6) (.pos 2) 0xFF)) (entryPair (stacked 1 2 9)) = true ∧ (stacked 1 2 9).cur.stackOk ∧
      (stacked 1 2 9).cur.msdep.toNat < 2) ∧
    (let s := entryPair (stacked 1 2 9)
     (issues (.mstw (rr .absent (.reg 6) (.pos 0) 0xFF)) s = true ∧ s.cur.stackOk ∧
      let e : BitVec 128 := (s.cur.srcS2 (.reg 6)).2 ++ (s.cur.srcS2 (.reg 6)).1
      e.toNat / 2 ^ 124 < 4 ∧ e.toNat / 2 ^ 112 % 2 ^ 12 = 0 ∧ 0 < s.cur.msdep.toNat) ∧
     (let e : BitVec 128 := (s.cur.srcS2 (.reg 8)).2 ++ (s.cur.srcS2 (.reg 8)).1
      ¬(e.toNat / 2 ^ 124 < 4 ∧ e.toNat / 2 ^ 112 % 2 ^ 12 = 0))) ∧
    (issues (.mstw (rr .absent (.reg 6) (.pos 9) 0xFF)) (entryPair (stacked 9 2 9)) = true ∧ (stacked 9 2 9).mdepth < 9 + 1) ∧
    (issues (.mstw (rr .absent (.reg 6) (.pos 8) 0xFF)) (entryPair (stacked 8 2 9)) = true ∧ 8 + 1 ≤ (stacked 8 2 9).mdepth) ∧
    issues (.exitl bare) (st 0) = true := by decide +kernel

/-! A state in which the 32 KiB at VA 0x40_0000_0000 lie at PA 2^20, in the first media of either fitting: an -L part finds a live extent
there that context 0 owns. Instruction and table words come from the registered-code window, which is mapped everywhere. -/

def dataVa : Word := 0x4000000000
def mappedMgmt : Tab Word := [(0xB0000, 0x4002), (Reg.trans 0 0, 1)]
def mappedLeaf : Word := 0x10009F
def mappedTlb : TlbEntry := ⟨0, 0x4000000000 / 2 ^ 15, 2, mappedLeaf⟩

/-- Core 0 holds the page's translation. -/
def mapped (s : State) : State := { s with mgmt := mappedMgmt, cores := [(0, { Core.idle with tlb := [mappedTlb] })] }

theorem populated_first (pa : Nat) (h : pa < 2 ^ 27) : populated pa = true := by
  have h1 : decide (pa < Config.mediaBytes) = true := decide_eq_true (Nat.lt_of_lt_of_le h (Nat.le_add_right _ _))
  have h2 : decide (pa < 0x30000000000) = true := decide_eq_true (by omega)
  have h3 : decide (pa < 0x6000000000) = true := decide_eq_true (by omega)
  have h4 : decide (pa < 2 ^ 52) = true := decide_eq_true (by omega)
  cases e : Config.fittingL <;> simp only [populated, h1, h2, h3, h4, e] <;> rfl

theorem extentFault_first (s : State) (pa : Nat) (r : Tab Word) (hm : s.mgmt = (0xB0000, 0x4002) :: r) (h : pa < 2 ^ 27) : s.extentFault 0 pa = none := by
  have h0 : pa / 2 ^ 27 = 0 := Nat.div_eq_of_lt h
  have : s.extentOf pa = some (2, 0) := by
    simp only [State.extentOf, hm, h0, List.find?_cons]
    rfl
  simp [State.extentFault, this]

theorem secondTier_first (pa : Nat) (h : pa < 2 ^ 27) : secondTier pa = false := by
  simp [secondTier]
  omega

theorem lost_first (s : State) (pa : Nat) (h : pa < 2 ^ 27) : s.lost pa = false := by
  simp [State.lost, secondTier_first pa h]

/-- A well-formed leaf of the first media. -/
def lowLeaf (e : Word) (level : Nat) : Bool :=
  Pte.lf e && decide (Pte.pfn e < 2 ^ 27) && decide (bits e 14 11 = 0 ∧ Pte.mtCode e < 4 ∧ Pte.pfn e % 2 ^ pageBits level = 0) &&
    (!Pte.si e || decide (Pte.mtCode e = 1))

theorem lowLeaf_formed (e : Word) (level : Nat) (h : lowLeaf e level = true) : Pte.malformed e level = false := by
  simp only [lowLeaf, Bool.and_eq_true, Bool.or_eq_true, Bool.not_eq_true', decide_eq_true_eq] at h
  obtain ⟨⟨⟨h1, h2⟩, h3, h4, h5⟩, h6⟩ := h
  have s2 : secondTier (Pte.pfn e) = false := secondTier_first _ h2
  have h7 : ¬ 4 ≤ Pte.mtCode e := by omega
  rcases h6 with h6 | h6 <;> simp [Pte.malformed, h1, h3, h5, h6, h7, s2]

/-- A walk that stays in the first media; `.bad 2 2` where it does not. -/
def walkLow (s : State) (va : Word) (tbl : Nat) : Nat → WalkRes
  | 0 => .bad 2 1 0
  | n + 1 =>
    let level := 2 - n
    let a := entryPa va tbl level
    if a < 2 ^ 27 then
      let (e, p) := s.entryAt 0 va level a
      if p then .bad 4 0 0
      else if !Pte.v e then .absent
      else if Pte.lf e then (if lowLeaf e level then .leaf level e a else .bad 2 2 0)
      else if Pte.malformed e level then .bad 2 1 0
      else walkLow s va (Pte.pfn e) n
    else .bad 2 2 0

/-- Entries in the first media can be read while no extent has gone. -/
theorem entryFault_first (s : State) (va : Word) (level a : Nat) (hg : s.cxl.gone = []) (h : a < 2 ^ 27) : s.entryFault 0 va level a = none := by
  simp only [State.entryFault, populated_first _ h, State.unreachable, hg, lost_first s _ h]
  simp

theorem walkLow_eq (s : State) (hg : s.cxl.gone = []) (va : Word) (n : Nat) (tbl : Nat) (h : walkLow s va tbl n ≠ .bad 2 2 0) :
    s.walkFrom 0 va tbl n = walkLow s va tbl n := by
  induction n generalizing tbl with
  | zero => rfl
  | succ n ih =>
    by_cases ha : entryPa va tbl (2 - n) < 2 ^ 27
    · simp only [walkLow, if_pos ha] at h ⊢
      simp only [State.walkFrom, entryFault_first s va _ _ hg ha]
      generalize s.entryAt 0 va (2 - n) (entryPa va tbl (2 - n)) = x at h ⊢
      obtain ⟨e, p⟩ := x
      cases p
      · cases hv : Pte.v e
        · simp
        · cases hl : Pte.lf e
          · cases hm : Pte.malformed e (2 - n)
            · simp only [hv, hl, hm] at h ⊢
              exact ih _ h
            · simp
          · cases hw : lowLeaf e (2 - n)
            · simp [hv, hl, hw] at h
            · simp [lowLeaf_formed _ _ hw]
      · simp
    · simp only [walkLow, if_neg ha] at h
      exact absurd rfl h

/-- The reads of such a walk; none where it leaves the first media. -/
def readLow (s : State) (va : Word) (tbl : Nat) : Nat → Option State
  | 0 => some s
  | n + 1 =>
    let level := 2 - n
    let a := entryPa va tbl level
    if a < 2 ^ 27 then
      let page := va51 va / 2 ^ pageBits level
      let hit := (s.cached? 0 va level).isSome
      let (e, p) := s.entryAt 0 va level a
      let s := if hit then s else s.partHome a 8 false
      if p || !Pte.v e || Pte.lf e || Pte.malformed e level then some s
      else readLow (s.cacheTable ⟨0, level, page, e⟩) va (Pte.pfn e) n
    else none

theorem readLow_eq (va : Word) (n : Nat) (s u : State) (tbl : Nat) (hg : s.cxl.gone = []) (h : readLow s va tbl n = some u) :
    s.readTables 0 va tbl n = u := by
  induction n generalizing tbl s with
  | zero => exact Option.some.inj h
  | succ n ih =>
    by_cases ha : entryPa va tbl (2 - n) < 2 ^ 27
    · simp only [readLow, if_pos ha] at h
      simp only [State.readTables, entryFault_first s va _ _ hg ha, Option.isSome_none, Bool.false_eq_true, if_false]
      generalize s.entryAt 0 va (2 - n) (entryPa va tbl (2 - n)) = x at h ⊢
      obtain ⟨e, p⟩ := x
      have hc : (p || !Pte.v e || Pte.malformed e (2 - n) || Pte.lf e) = (p || !Pte.v e || Pte.lf e || Pte.malformed e (2 - n)) := by
        rw [Bool.or_assoc, Bool.or_comm (Pte.malformed e (2 - n)), ← Bool.or_assoc]
      simp only [hc]
      split at h
      · rename_i hx
        simp only [hx, if_true]
        exact Option.some.inj h
      · rename_i hx
        simp only [hx]
        refine ih _ _ ?_ h
        have hp : (s.partHome (entryPa va tbl (2 - n)) 8 false).cxl.gone = s.cxl.gone := by
          have h := congrArg Cxl.gone (partHome_keeps s (entryPa va tbl (2 - n)) 8 false).cxl
          exact h
        show (if (s.cached? 0 va (2 - n)).isSome = true then s else s.partHome (entryPa va tbl (2 - n)) 8 false).cxl.gone = []
        split <;> simp only [hp, hg]
    · simp only [readLow, if_neg ha] at h
      cases h

def walkOf (s : State) (va : Word) : WalkRes := walkLow s va (s.rootOf 0 va) 3

/-- The leaf a requester finds, cached or, where it has no TLB, by a walk in the first media. -/
def leafLow (s : State) (who : Waiter) (va : Word) : Option (Nat × Word) :=
  match s.tlb? who 0 va with
  | some t => some (t.level, t.leaf)
  | none =>
    match who.core?, walkOf s va with
    | none, .leaf level e _ => if 64 ≤ s.mmu.walks.length then none else some (level, e)
    | _, _ => none

theorem leafLow_eq {s : State} (hg : s.cxl.gone = []) {who : Waiter} {va : Word} {x : Nat × Word} (h : leafLow s who va = some x) :
    s.leafOf who 0 va = some x := by
  unfold leafLow at h
  unfold State.leafOf
  cases ht : s.tlb? who 0 va with
  | some t => simpa only [ht] using h
  | none =>
    cases hw : who.core? with
    | some k => simp only [ht, hw] at h; cases h
    | none =>
      cases hl : walkOf s va with
      | leaf l e a =>
        have hk : s.walk 0 va = .leaf l e a := by
          simp only [State.walk]
          rw [walkLow_eq s hg va 3 _ (by rw [show walkLow s va (s.rootOf 0 va) 3 = _ from hl]; simp)]
          exact hl
        by_cases hn : s.mmu.walks.length < 64
        · have hn' : ¬ 64 ≤ s.mmu.walks.length := by omega
          simp only [ht, hw, hl, hk, hn', decide_false, Option.isSome_none, Bool.or_self, Bool.false_eq_true, if_false] at h ⊢
          exact h
        · have hn' : 64 ≤ s.mmu.walks.length := by omega
          simp only [ht, hw, hl, hn', if_true] at h
          cases h
      | absent => simp only [ht, hw, hl] at h; cases h
      | bad k u => simp only [ht, hw, hl] at h; cases h

/-- The requester finds the mapped page at `va`. -/
def maps (s : State) (who : Waiter) (va : Word) : Bool :=
  decide (s.mgmt.head? = some (0xB0000, 0x4002)) && bit (s.reg (Reg.trans 0 0)) 0 && decide (s.mmu.stale = []) && decide (s.cxl.gone = []) &&
    canonical va && !inCodeWindow va && decide (leafLow s who va = some (2, mappedLeaf))

/-- Where `va` lies in the page. -/
def placeOf (va : Word) : Nat := 2 ^ 20 + va51 va % 2 ^ 15

theorem placeOf_first (va : Word) : placeOf va < 2 ^ 27 := by
  unfold placeOf
  omega

theorem translate_mapped (s : State) (who : Waiter) (va : Word) (k : AccKind) (h : maps s who va = true) :
    s.translate who 0 va k = .ok (placeOf va) .wb false := by
  simp only [maps, Bool.and_eq_true, decide_eq_true_eq, Bool.not_eq_true'] at h
  obtain ⟨⟨⟨⟨⟨⟨hm, hr⟩, hs⟩, hg⟩, hc⟩, hw⟩, ht⟩ := h
  obtain ⟨r, hm⟩ : ∃ r, s.mgmt = (0xB0000, 0x4002) :: r := by
    cases e : s.mgmt with
    | nil => simp [e] at hm
    | cons x r =>
      rw [e] at hm
      exact ⟨r, by rw [Option.some.inj hm]⟩
  have hpa := placeOf_first va
  have hten : s.ten 0 va = true := by
    simp only [State.ten, State.transWord, hs, Tab.get]
    exact hr
  have e1 : Pte.pfn mappedLeaf = 2 ^ 20 := by decide +kernel
  have e2 : Pte.mt mappedLeaf = .wb := by decide +kernel
  have e3 : Pte.w mappedLeaf = true := by decide +kernel
  have e4 : Pte.x mappedLeaf = true := by decide +kernel
  have e5 : pageBits 2 = 15 := rfl
  have e6 : Pte.co mappedLeaf = false := by decide +kernel
  have hsi : Pte.si mappedLeaf = false := by decide +kernel
  have e7 : Pte.pfn mappedLeaf + va51 va % 2 ^ 15 = placeOf va := by rw [e1]; rfl
  have hleaf : s.checkLeaf 0 va k 2 mappedLeaf = .ok (placeOf va) .wb false := by
    simp only [State.checkLeaf, e5, e7, e2, e3, e4, e6, populated_first _ hpa, extentFault_first s _ r hm hpa, lost_first s _ hpa, hg]
    simp
  have hl : s.leafOf who 0 va = some (2, mappedLeaf) := leafLow_eq hg ht
  simp only [State.translate, hc, hw, hten, hl, hsi, hleaf]
  rfl

theorem translateN_mapped (s : State) (who : Waiter) (va : Word) (n : Nat) (k : AccKind) (h : maps s who va = true) :
    s.translateN who 0 va n k = .ok (placeOf va) .wb false := by
  have hp : s.pastCode (placeOf va) n = false := by
    have := placeOf_first va
    simp [State.pastCode]
    omega
  simp only [State.translateN, translate_mapped s who va k h, hp]
  rfl

/-- Such a write is one at the home. -/
theorem writeAs_mapped (s : State) (va : Word) (d : LineData) (m : BitVec 128) (p : BitVec 4) :
    s.writeAs .wb false (placeOf va / 128) d m p = s.writeHome (placeOf va / 128) d m p := by
  have h : secondTier (128 * (placeOf va / 128)) = false := secondTier_first _ (by have := placeOf_first va; omega)
  simp only [State.writeAs, h, Bool.and_false, Bool.false_and, State.writeHome]
  rfl

/-- A lane of the group at the port passes its checks in the mapped page. -/
def clear (s : State) (va : Word) (log : Nat) : Bool :=
  decide (s.cur.ctx = 0) && maps s s.cur.waiter va && decide (va.toNat % 2 ^ log = 0) && !s.awaits s.cur.waiter && !s.mustWait (placeOf va) (2 ^ log) false

theorem checkLane_mapped (s : State) (va : Word) (log : Nat) (k : AccKind) (wr a : Bool) (h : clear s va log = true) :
    s.checkLane va log k wr a = .ok (placeOf va) .wb false := by
  simp only [clear, Bool.and_eq_true, decide_eq_true_eq, Bool.not_eq_true'] at h
  obtain ⟨⟨⟨⟨hx, hm⟩, ha⟩, hw⟩, hf⟩ := h
  simp only [State.checkLane, ha, hw, hx, translateN_mapped s _ va _ k hm, hf, Bool.and_false]
  rfl

/-- Code word `n` of image 0 at `codeWindow + 8·n`; context 0 translates. -/
def withCode (s : State) (l : List Word) : State :=
  { s with cxl := { s.cxl with kernels := [(0, some ⟨0, [], l, false⟩)] } }.setReg (Reg.trans 0 0) 1

def codeVa : Word := 0x3F00000000000

def touches (t : Touch) (n : Nat) : Bool :=
  match t with
  | .ok _ l => l.length == n
  | _ => false

/-- The addresses of `n` lines. -/
def lineVas (va : Word) : Nat → List Word
  | 0 => []
  | n + 1 => va :: lineVas (va + 128) n

/-- An address in the mapped page. -/
def inPage (a : Word) : Bool := canonical a && !inCodeWindow a && decide (va51 a / 2 ^ 15 = 0x4000000000 / 2 ^ 15)

/-- What the mapped page needs of a state, for the requesters of core 0. -/
structure Maps (s : State) : Prop where
  mgmt : s.mgmt.head? = some (0xB0000, 0x4002)
  root : s.reg (Reg.trans 0 0) = 1
  stale : s.mmu.stale = []
  gone : s.cxl.gone = []
  tlb : (s.core 0).tlb = [mappedTlb]

theorem Maps.of_keeps {s t : State} (h : Maps s) (k : KeepsControl s t) : Maps t where
  mgmt := (congrArg List.head? k.mgmt).trans h.mgmt
  root := (congrArg (fun m => Tab.get (regReset (Reg.trans 0 0)) m (Reg.trans 0 0)) k.mgmt).trans h.root
  stale := k.stale.trans h.stale
  gone := (congrArg Cxl.gone k.cxl).trans h.gone
  tlb := (k.tlb 0).trans h.tlb

theorem Maps.find {s : State} (h : Maps s) {who : Waiter} (hw : who.core? = some 0) {a : Word} (ha : inPage a = true) :
    s.tlb? who 0 a = some mappedTlb := by
  simp only [inPage, Bool.and_eq_true, decide_eq_true_eq] at ha
  simp only [State.tlb?, hw, h.tlb, List.find?_cons, TlbEntry.covers, mappedTlb, pageBits, ha.2]
  rfl

theorem Maps.maps {s : State} (h : Maps s) {who : Waiter} (hw : who.core? = some 0) {a : Word} (ha : inPage a = true) : maps s who a = true := by
  have hf := h.find hw ha
  simp only [inPage, Bool.and_eq_true, Bool.not_eq_true', decide_eq_true_eq] at ha
  simp only [Tests.maps, h.mgmt, h.root, h.stale, h.gone, ha.1.1, ha.1.2, leafLow, hf, decide_true]
  rfl

/-- A line written into the mapped page. -/
theorem writeLine_mapped {s : State} (h : Maps s) {who : Waiter} (hw : who.core? = some 0) {va : Word} (ha : inPage va = true) (v : Nat) :
    ∃ u, s.writeLine who 0 va v = .ok u ∧ Maps u.1 := by
  have hp := h.find hw ha
  have ht : Maps (s.touchTlb who 0 va) := by
    have e : (s.core 0).tlb.find? (fun t => t.covers 0 va) = some mappedTlb := by
      have := ha
      simp only [inPage, Bool.and_eq_true, decide_eq_true_eq] at this
      simp only [h.tlb, List.find?_cons, TlbEntry.covers, mappedTlb, pageBits, this.2]
      rfl
    have hu (t : State) : t.noteUse mappedTlb.ctx (if mappedTlb.level = 2 then mappedTlb.page else 0) (if mappedTlb.level = 2 then mappedTlb.leaf else 0) = t := by
      have h2 : secondTier (bits (if mappedTlb.level = 2 then mappedTlb.leaf else 0) 51 15 * 2 ^ 15) = false :=
        secondTier_first _ (by decide +kernel)
      simp only [State.noteUse, h2]
      rfl
    simp only [State.touchTlb, hw, e, hu]
    exact ⟨h.mgmt, h.root, h.stale, h.gone, by
      rw [State.setCore_core, h.tlb]
      exact (by decide +kernel : addEntry mappedTlb [mappedTlb] = [mappedTlb])⟩
  have hn : s.walkNow who 0 va = s ∨ s.walkNow who 0 va = s.touchTlb who 0 va := by
    unfold State.walkNow
    split
    · exact .inl rfl
    · rw [hp]
      exact .inr rfl
  have hm : Maps (s.walkNow who 0 va) := by
    rcases hn with e | e <;> rw [e]
    · exact h
    · exact ht
  have hx := translate_mapped _ who va .engine (hm.maps hw ha)
  have h2 := secondTier_first _ (placeOf_first va)
  have hn : Maps ((s.walkNow who 0 va).passNow who (placeOf va) true) := hm.of_keeps (passNow_keeps ..)
  have hd : ((s.walkNow who 0 va).passNow who (placeOf va) true).markDirty who 0 va = (s.walkNow who 0 va).passNow who (placeOf va) true := by
    have e : Pte.d mappedTlb.leaf = true := by decide +kernel
    simp only [State.markDirty, State.leafNow, State.leafOf, hn.find hw ha, e]
    rfl
  simp only [State.writeLine, hx, h2, hd, Bool.false_and, writeAs_mapped, Bool.false_eq_true, if_false]
  split
  · exact ⟨_, rfl, hm.of_keeps (shutBy_keeps ..)⟩
  · exact ⟨_, rfl, hn.of_keeps (writeHome_keeps ..)⟩

theorem writeLines_mapped (n : Nat) {s : State} (h : Maps s) {who : Waiter} (hw : who.core? = some 0) (va : Word) (ws : List Word)
    (ts : BitVec 48) (ha : ∀ a ∈ lineVas va n, inPage a = true) : ∃ u, s.writeLines who 0 va ws ts n = .ok u := by
  induction n generalizing s va ws ts with
  | zero => exact ⟨(s, ts), rfl⟩
  | succ n ih =>
    obtain ⟨u, hu, hm⟩ := writeLine_mapped h hw (ha va (List.mem_cons_self ..)) (lineOfWords (ws.take 16))
    simp only [State.writeLines, hu]
    exact ih hm _ _ _ fun a h => ha a (List.mem_cons_of_mem _ h)

/-- The state after the walk of a requester without a TLB, or the use of its cached translation. -/
def walked (who : Waiter) (s : State) (va : Word) : State :=
  match s.tlb? who 0 va with
  | some _ => s.touchTlb who 0 va
  | none => (readLow s va (s.rootOf 0 va) 3).getD s

theorem walkNow_mapped {s : State} {who : Waiter} {va : Word} (h : maps s who va = true)
    (hr : s.tlb? who 0 va = none → (readLow s va (s.rootOf 0 va) 3).isSome = true ∧ s.walkBusy 0 va = false) : s.walkNow who 0 va = walked who s va := by
  simp only [maps, Bool.and_eq_true, Bool.not_eq_true', decide_eq_true_eq] at h
  obtain ⟨⟨⟨⟨⟨⟨-, h1⟩, h2⟩, hg⟩, h3⟩, h4⟩, h5⟩ := h
  have hten : s.ten 0 va = true := by
    simp only [State.ten, State.transWord, h2, Tab.get]
    exact h1
  simp only [State.walkNow, walked, h3, h4, hten]
  cases ht : s.tlb? who 0 va with
  | some t => rfl
  | none =>
    obtain ⟨r1, r2⟩ := hr ht
    obtain ⟨u, hu⟩ := Option.isSome_iff_exists.1 r1
    have hc : who.core? = none := by
      unfold leafLow at h5
      rw [ht] at h5
      revert h5
      cases who.core? <;> simp
    have hl : s.leafOf who 0 va = some (2, mappedLeaf) := leafLow_eq hg h5
    have hw : s.walk 0 va = .absent ∨ ∃ e a, s.walk 0 va = .leaf 2 e a ∧ e = mappedLeaf := by
      simp only [State.leafOf, ht, hc, Option.isSome_none, Bool.false_or] at hl
      revert hl
      cases s.walk 0 va with
      | leaf l e a =>
        intro hl
        split at hl
        · cases hl
        · injection hl with hl
          injection hl with h1 h2
          subst h1
          exact .inr ⟨e, a, rfl, h2⟩
      | absent => exact fun _ => .inl rfl
      | bad => intro hl; split at hl <;> cases hl
    have hk : (match s.walk 0 va with
        | .leaf level e _ => (s.walkReads 0 va).fillTlb who 0 va level e
        | _ => s.walkReads 0 va) = s.walkReads 0 va := by
      rcases hw with e | ⟨e, a, hh, rfl⟩
      · rw [e]
      · rw [hh]
        have h2 : secondTier (bits mappedLeaf 51 15 * 2 ^ 15) = false := secondTier_first _ (by decide +kernel)
        simp only [State.fillTlb, State.useEntry, hc, State.noteUse, h2]
        simp
    rw [if_neg (by decide), if_neg (by rw [r2]; decide)]
    exact hk.trans ((readLow_eq va 3 s u _ hg hu).trans (by rw [hu]; rfl))

/-- The state after `n` bytes of the mapped page have been written where nothing is in its way. -/
def wrote (who : Waiter) (s : State) (va : Word) (n v : Nat) : State × BitVec 48 :=
  let t := (walked who s va).passNow who (placeOf va) true
  let lo := placeOf va % 128
  t.writeHome (placeOf va / 128) (BitVec.ofNat 1024 (v * 2 ^ (8 * lo))) (byteMask lo n) 0

/-- Nothing is in its way. -/
def writable (who : Waiter) (s : State) (va : Word) (n : Nat) : Bool :=
  let u := walked who s va
  let t := u.passNow who (placeOf va) true
  maps s who va && ((s.tlb? who 0 va).isSome || ((readLow s va (s.rootOf 0 va) 3).isSome && !s.walkBusy 0 va)) && maps u who va &&
    !u.awaits who && !u.heldNow who (placeOf va) n true false && decide (t.cxl.gone = []) && decide (leafLow t who va = some (2, mappedLeaf))

theorem writeVa_mapped {s : State} {who : Waiter} {va : Word} {n : Nat} (h : writable who s va n = true) (v : Nat) :
    s.writeVa who 0 va n v false = .ok (wrote who s va n v) := by
  simp only [writable, Bool.and_eq_true, Bool.or_eq_true, Bool.not_eq_true', decide_eq_true_eq] at h
  obtain ⟨⟨⟨⟨⟨⟨h1, h0⟩, h2⟩, h3⟩, h4⟩, hg⟩, h5⟩ := h
  have hn : s.walkNow who 0 va = walked who s va := walkNow_mapped h1 fun hn => by
    rcases h0 with h0 | h0
    · rw [hn] at h0
      cases h0
    · exact h0
  have hx := translateN_mapped _ who va n .engine h2
  have hc := secondTier_first _ (placeOf_first va)
  have hd : ((walked who s va).passNow who (placeOf va) true).markDirty who 0 va = (walked who s va).passNow who (placeOf va) true := by
    have e : Pte.d mappedLeaf = true := by decide +kernel
    simp only [State.markDirty, State.leafNow, leafLow_eq hg h5, e]
    rfl
  have hh : (walked who s va).heldAt who (placeOf va) n true false = false := by
    have := placeOf_first va
    simp only [State.heldAt, h4, Bool.and_false]
    rw [if_neg (by omega)]
  have hr : (walked who s va).reach who 0 va n .engine = .ok (placeOf va, .wb, false) := by
    simp only [State.reach, h3, hx, show AccKind.engine.writes = true from rfl, hh]
    rfl
  simp only [State.writeVa, hn, hr, hc, hd, Bool.false_and, writeAs_mapped]
  rfl

/-- The words can be written one after another. -/
def writableAll (who : Waiter) (s : State) (va : Word) : List Word → Bool
  | [] => true
  | w :: r => writable who s va 8 && writableAll who (wrote who s va 8 w.toNat).1 (va + 8) r

theorem writeVaWords_mapped (ws : List Word) {s : State} {who : Waiter} (va : Word) (h : writableAll who s va ws = true) :
    ∃ u, s.writeVaWords who 0 va ws = .ok u := by
  induction ws generalizing s va with
  | nil => exact ⟨s, rfl⟩
  | cons w r ih =>
    simp only [writableAll, Bool.and_eq_true] at h
    simp only [State.writeVaWords, writeVa_mapped h.1]
    exact ih _ h.2

theorem queueWrite_mapped (ws : List Word) {s : State} {who : Waiter} (va : Word) (ts : BitVec 48) (h : writableAll who s va ws = true) :
    ∃ u ts', s.queueWrite who 0 va ts ws = .ok u [] ts' := by
  induction ws generalizing s va ts with
  | nil => exact ⟨s, ts, rfl⟩
  | cons w r ih =>
    simp only [writableAll, Bool.and_eq_true] at h
    simp only [State.queueWrite, writeVa_mapped h.1]
    exact ih _ _ h.2

/-- A dispatch table of two entries in the code window, after the word of a JTABV of v1; the launch's mask stack has depth 9. -/
def dispatch (g : Group) : State :=
  let s := last (withCode (base g) [0, 0x2, 0x3, 0x218077FFFF000010])
  { s with sch := { s.sch with launches := [(0, { Launch.none with words := [0, 0, 0, 9 * 2 ^ 28, 2 * 2 ^ 16, codeVa + 8] })] } }

def jtabvWord : RR := rr .absent (.reg 1) .absent 0xFF

theorem witness_DispatchTable :
    (issues (.jtab (rr .absent (.pos 2) .absent 0xFF)) (dispatch (group 0)) = true ∧ (dispatch (group 0)).dtlen ≤ 2) ∧
    (issues (.jtab (rr .absent (.pos 1) .absent 0xFF)) (dispatch (group 0)) = true ∧
      1 < (dispatch (group 0)).dtlen ∧ touches ((dispatch (group 0)).touchWords ((dispatch (group 0)).dtEntry 1) .load 1) 1 = true) ∧
    issues (.jtabv jtabvWord) (dispatch { withV (group 0) with em := 0 }) = true ∧
    (let s := dispatch { withV (group 0) with em := 4 }
     issues (.jtabv jtabvWord) s = true ∧ s.cur.em.getLsbD 2 = true ∧ s.dtlen ≤ ((s.cur.srcV (.reg 1))[2]).toNat) ∧
    (let s := dispatch { withV (group 0) with em := 2 }
     issues (.jtabv jtabvWord) s = true ∧ (∀ i : Fin 96, s.cur.em.getLsbD i = true → 1 ≤ ((s.cur.srcV (.reg 1))[i]).toNat ∧
       ((s.cur.srcV (.reg 1))[i]).toNat < s.dtlen) ∧ s.cur.em.getLsbD 1 = true ∧ ((s.cur.srcV (.reg 1))[1]).toNat = 1 ∧
     s.cur.msdep.toNat + 1 ≤ s.mdepth ∧ s.mdepth ≤ 255 ∧ touches (s.touchWords (s.dtEntry 1) .load 1) 1 = true ∧ s.cur.stackOk) ∧
    (let s := dispatch { withV (group 0) with em := 2, msdep := 9, mstack := List.replicate 8 0 }
     issues (.jtabv jtabvWord) s = true ∧ s.mdepth < s.cur.msdep.toNat + 1) := by decide +kernel

/-- RET to just after a JTABV of v1, whose entry 0 has run; `m` are the lanes it was issued with. -/
def returning (m : Mask) : State :=
  let s := withCode (dispatch ((withV (group 0)).swrite 5 (codeVa + 8))) [0x214077FF01FFFFFF, 0x2000, 0x3000]
  { s with cur := { s.cur with msdep := 1, mstack := [stackEntry 3 1 m] } }

def retWord : RR := rr .absent (.reg 5) .absent 0xFF

/-- The group after the RET has read the JTABV word. -/
def afterRead (s : State) : State :=
  match s.touchWords (s.cur.srcS (.reg 5) - 8) .fetch 1 with
  | .ok u _ => u.clearVerdicts (.group u.cur.core u.cur.slot)
  | _ => s

def leftLane (s : State) (i : Fin 96) : Bool :=
  (entryMask (s.cur.mstack.getD 0 0)).getLsbD i && (afterRead s).cur.live.getLsbD i &&
    decide (entryNext (s.cur.mstack.getD 0 0) ≤ (((afterRead s).cur.srcV (.reg 1))[i]).toNat)

def readsJtabv (s : State) : Bool :=
  match s.touchWords (s.cur.srcS (.reg 5) - 8) .fetch 1 with
  | .ok u [x] =>
    decide u.cur.stackOk && decide (u.cur.msdep = s.cur.msdep) &&
    (match decode x with
     | .ok (.jtabv r) => decide (r = jtabvWord)
     | _ => false)
  | _ => false

def returns (m : Mask) : Bool :=
  issues (.ret retWord) (returning m) && decide ((returning m).cur.msdep ≠ 0) &&
    decide (entryKind ((returning m).cur.mstack.getD 0 0) = 3) && readsJtabv (returning m)

theorem witness_DispatchTable_read : returns 1 = true ∧ returns 3 = true ∧ returns 4 = true :=
  ⟨by decide +kernel, by decide +kernel, by decide +kernel⟩

theorem witness_DispatchTable_done : ∀ i : Fin 96, leftLane (returning 1) i = false := by decide +kernel

theorem witness_DispatchTable_next : leftLane (returning 3) 1 = true ∧
    (∀ i : Fin 96, leftLane (returning 3) i = true → 1 ≤ (((returning 3).cur.srcV (.reg 1))[i]).toNat) ∧
    1 < (afterRead (returning 3)).dtlen ∧
    touches ((afterRead (returning 3)).touchWords ((afterRead (returning 3)).dtEntry 1) .load 1) 1 = true := by decide +kernel

theorem witness_DispatchTable_past : leftLane (returning 4) 2 = true ∧
    (∀ i : Fin 96, leftLane (returning 4) i = true → 2 ≤ (((returning 4).cur.srcV (.reg 1))[i]).toNat) ∧
    (afterRead (returning 4)).dtlen ≤ 2 := by decide +kernel

/-- A group that EXIT ends: of a launch with two groups left, with one load in flight or none. -/
def leaving (h : Bool) (l : List Access) : State :=
  let s := st 0
  { s with cur := { s.cur with hmode := h, inflight := l }
           sch := { s.sch with launches := [(0, { Launch.none with groups := 2 })] } }

def oneLoad : Access :=
  ⟨7, 0, .load false, 0, 2, [⟨0, dataVa, 2 ^ 20, .wb, 0, 0, 0x80000001, true, none, false⟩, ⟨95, dataVa + 4, 2 ^ 20 + 4, .wb, 0, 0, 5, true, none, false⟩], .v 5 1 false,
    0x1000, 0, true, 0, false, false, false, 0⟩

theorem witness_LeavingEnds : ∀ s ∈ [leaving true [], leaving false [oneLoad], leaving false []],
    issues (.exit bare) s = true ∧ s.cur.life = .running ∧ s.cur.wc = none ∧ s.cur.batch = none ∧ 1 < (s.launch s.cur.launch).groups := by
  decide +kernel

/-- The group of `leaving` fired on the batch slot at 0x4000, beside another slot of the queue; and the last group of launch 1. -/
theorem witness_LeavingEnds_last :
    (let s := leaving false []
     let b := ({ s with cur := { s.cur with batch := some (0x4000, 1, 1) } }).setBatches 0 1 [(0, 0x4000), (1, 0x8000)]
     issues (.exit bare) b = true ∧ b.cur.life = .running ∧ b.cur.wc = none ∧ b.cur.hmode = false ∧ b.cur.inflight = [] ∧
       b.cur.batch = some (0x4000, 1, 1) ∧ 1 < (b.launch b.cur.launch).groups ∧ Tab.wf [] b.sch.batches = true ∧
       (b.batches 0 1).filter (fun y => decide (y.2 ≠ 0x4000)) = [(1, 0x8000)]) ∧
    (∀ e ∈ [none, some (5 : BitVec 8)],
     let s := leaving false []
     let z := { s with cur := { s.cur with launch := 1 }, sch := { s.sch with launches := [(1, { Launch.none with groups := 1, ending := e, cmpl := e.isNone })] } }
     issues (.exit bare) z = true ∧ z.cur.life = .running ∧ z.cur.wc = none ∧ z.cur.hmode = false ∧ z.cur.inflight = [] ∧ z.cur.batch = none ∧
       z.cur.launch ≠ 0 ∧ (let l := z.launch 1; l.groups = 1 ∧ l.finished = false ∧ l.task = false ∧
         (l.ending.isSome = true ∨ l.gx * l.gy * l.gz ≤ l.nextCluster))) := by decide +kernel

/-- Lanes 0 and 95 of a group with s5 = the first mapped address; v6 holds offsets from there. -/
def accessing (cls : Nat) : State :=
  mapped (base { ((withV (withS (group cls))).swrite 5 dataVa).vwrite 6 (Vector.ofFn fun i => BitVec.ofNat 32 (4 * i.val)) with
    em := 0x800000000000000000000001 })

def accessForms : List Instr :=
  [.sld .b128 (i16 (.reg 8) (.reg 5) .absent 0), .sst .u8 (i16 (.reg 1) (.reg 5) .absent 0), .vld .s16 (i16 (.reg 7) (.reg 5) (.reg 6) 0),
   .vst .b32 (i16 (.reg 1) (.reg 5) (.reg 6) 0), .vldb .b64 (i16 (.reg 8) (.reg 5) (.reg 6) 0), .vstb .b32 (i16 (.reg 1) (.reg 5) (.reg 6) 0)]

def atomForms : List Instr :=
  [.vatom (rr4 (.reg 7) (.reg 5) (.reg 6) (.reg 1) 0xB0), .vred (rr4 .absent (.reg 5) (.reg 6) (.reg 1) 0), .vcas (rr4 (.reg 7) (.reg 5) (.reg 6) (.reg 1) 0),
   .satom (rr4 (.reg 6) (.reg 5) .absent (.reg 1) 8), .scas (rr4 (.reg 6) (.reg 5) .absent (.reg 1) 8)]

/-- The form's lanes, where it is a form. -/
def request (g : Group) (i : Instr) : List (BitVec 7 × Word × BitVec 128 × Word) := ((memoryForm g i).map fun x => x.2.2.lanes).getD []

/-- The form issues, and each of its addresses lies in the mapped page. -/
def reaches (s : State) (i : Instr) : Bool :=
  (memoryForm s.cur i).isSome && issues i s && pairsReady s.cur i && !(request s.cur i).isEmpty && !s.cur.inRegion &&
  (request s.cur i).all fun x => maps s s.cur.waiter x.2.1

theorem witness_AccessIssue_forms : (∀ i ∈ accessForms, reaches (accessing 3) i = true) ∧ (∀ i ∈ atomForms, reaches (accessing 4) i = true) ∧
    (accessing 3).cur.counter 0 < 63 ∧
    request { (accessing 3).cur with em := 0 } (.vld .s16 (i16 (.reg 7) (.reg 5) (.reg 6) 0)) = [] := by decide +kernel

/-- Both lanes of a vector load pass their check. -/
theorem witness_AccessIssue : ∀ x ∈ request (accessing 3).cur (.vld .b32 (i16 (.reg 7) (.reg 5) (.reg 6) 0)),
    ∃ pa mt co, (accessing 3).checkLane x.2.1 2 .load false false = .ok pa mt co := by
  have h : request (accessing 3).cur (.vld .b32 (i16 (.reg 7) (.reg 5) (.reg 6) 0)) = [(0, dataVa, 0, 0), (95, dataVa + 380, 0, 0)] := by decide +kernel
  rw [h]
  intro x hx
  fin_cases hx
  · exact ⟨_, _, _, checkLane_mapped _ _ _ _ _ _ (by decide +kernel)⟩
  · exact ⟨_, _, _, checkLane_mapped _ _ _ _ _ _ (by decide +kernel)⟩

/-- Core 0 owns the line at PA 2^20, of timestamps 3 and 9. -/
def ownsLine (s : State) : State :=
  { s with cores := [(0, { s.core 0 with l1 := [⟨8192, .e, 3, 9, 0x0807060504030201, 0xF, 0, 0, false⟩] })] }

/-- A scalar load, store and atomic at the last bytes of the line. -/
theorem witness_NearAccess_forms :
    (∀ i ∈ [Instr.sld .b64 (i16 (.reg 8) (.reg 5) .absent 120), .sst .u8 (i16 (.reg 1) (.reg 5) .absent 127)],
      reaches (ownsLine (accessing 3)) i = true ∧ (request (accessing 3).cur i).length = 1) ∧
    (∀ i ∈ [Instr.satom (rr4 (.reg 6) (.reg 5) .absent (.reg 1) 0), .scas (rr4 (.reg 6) (.reg 5) .absent (.reg 1) 8)],
      reaches (ownsLine (accessing 4)) i = true ∧ (request (accessing 4).cur i).length = 1) ∧
    (let s := ownsLine (accessing 3)
     (s.l1? s.cur.core 8192).isSome = true ∧ s.split 8192 = false ∧ s.cur.life = .running ∧ s.cur.wc = none ∧ s.viral s.cur.ctx = false ∧
     s.cur.inflight = [] ∧ s.cur.counter 0 < 63 ∧ s.cur.counter 1 < 63 ∧ s.cur.counter 5 < 63 ∧ Pte.d mappedTlb.leaf = true) := by decide +kernel

theorem witness_NearAccess : ∀ off ∈ [0, 120, 127], ∃ pa x, 
    (ownsLine (accessing 3)).checkLane (dataVa + BitVec.ofNat 64 off) 0 .store true false = .ok pa .wb false ∧ pa < 2 ^ 52 ∧
      (ownsLine (accessing 3)).l1? 0 (pa / 128) = some x ∧ x.st = .e ∧ x.poison = 0 := by
  intro off h
  refine ⟨_, ⟨8192, .e, 3, 9, 0x0807060504030201, 0xF, 0, 0, false⟩, checkLane_mapped _ _ _ _ _ _ ?_, ?_⟩ <;>
    fin_cases h <;> decide +kernel

theorem witness_AtomicFunctions : ((0x18 : BitVec 8).toNat % 8 = 0 ∧ (0x1C : BitVec 8).toNat % 8 ≠ 0) ∧ 0xC ≤ (0xC0 : BitVec 8).toNat / 16 ∧
    ((0x08 : BitVec 8).getLsbD 3 = true ∧ (7 : BitVec 6).toNat % 2 = 1) := by decide

/-- A vector load with lanes 0 and 95 performed, its latch still in the shift. -/
def loaded : State :=
  { st 3 with cur := { (st 3).cur with inflight := [oneLoad], latches := [.pend 7] }, ev := { Ev.none with c := 7 } }

theorem witness_LoadReturn : loaded.cur.life = .running ∧ loaded.cur.region = none ∧ loaded.ev.a = loaded.cur.core.toNat ∧
    loaded.ev.b = loaded.cur.slot.toNat ∧
    loaded.cur.inflight.find? (fun x => x.id = loaded.ev.c && x.performed && !x.retired && x.dst ≠ .none) = some oneLoad ∧
    (oneLoad.lanes.Pairwise fun x y => x.lane ≠ y.lane) := by decide +kernel

theorem test_load_return : lane (after .loadReturn loaded) 5 0 = 0x80000001 ∧ lane (after .loadReturn loaded) 5 95 = 5 ∧
    lane (after .loadReturn loaded) 5 1 = 0 ∧ (after .loadReturn loaded).cur.inflight.all (fun a => a.retired) = true := by decide +kernel

/-- Lanes 0 and 1 of a group whose team has 4096 bytes of scratchpad from 0, its slices at 8192, four words a lane. -/
def padded : State :=
  let s := st 3
  { s with
    cur := { s.cur with em := 3, spbytes := 4096, slices := 8192, slicew := 4, mswin := 4096 }
    sch := { s.sch with launches := [(0, { Launch.none with words := [0, 0, 0, 9 * 2 ^ 28 + 64 * 2 ^ 12] })]
                        teams := [⟨0, 0, 0, 0, 0, 0, 0, 1, 1, 0, 0, 4096, [], [], 1⟩] } }

/-- The words at the lanes' offsets in v6 and up. -/
def padWord (x : Opd) (imm : BitVec 16) : I16 := i16 x .absent (.reg 6) imm

def padForms (imm : BitVec 16) : List Instr :=
  [.pld (padWord (.reg 5) imm), .pst (padWord (.reg 1) imm), .pldf (padWord (.reg 5) imm), .plde (padWord (.reg 5) imm),
   .pstf (padWord (.reg 1) imm), .pfe (padWord .absent imm), .ptag (padWord (.reg 5) imm), .cld (padWord (.reg 5) imm), .cst (padWord (.reg 1) imm),
   .clde (padWord (.reg 5) imm), .lsl (i16 (.reg 5) .absent .absent 3), .lss (i16 (.reg 1) .absent .absent 3)]

def emptyForms (imm : BitVec 16) : List Instr := [.pste (padWord (.reg 1) imm), .cste (padWord (.reg 1) imm)]

/-- v6 of lane i = d·i. -/
def offsets (d : Nat) (s : State) : State := { s with cur := s.cur.vwrite 6 (Vector.ofFn fun i => BitVec.ofNat 32 (d * i.val)) }

/-- The form issues on lanes 0 and 1 of `s`, and the flags say which lanes have a place. -/
def places (s : State) (i : Instr) : List Bool :=
  if issues i s then ((padForm s i).map fun f => s.cur.activeLanes.map fun j => (f.place j).isSome).getD [] else []

/-- Every word of the cluster's core empty or poisoned. -/
def tagged (w : SpWord) (s : State) : State := { s with cores := [(0, { s.core 0 with spad := [(0, w), (1, w)] })] }

def fits (s : State) (i : Instr) (wait : Bool) : Bool :=
  ((padForm s i).map fun f => s.cur.activeLanes.all fun j =>
    match f.place j with
    | some p => (f.await.all fun b => decide ((s.pad p).full = b) != wait) && (!f.reads || !(s.pad p).poison)
    | none => false).getD false

theorem witness_ScratchpadAccess : (∀ i ∈ padForms 0, places (offsets 4 padded) i = [true, true] ∧ fits (offsets 4 padded) i false = true) ∧
    (∀ i ∈ emptyForms 0, places (offsets 4 padded) i = [true, true] ∧ fits (tagged ⟨0, false, false⟩ (offsets 4 padded)) i false = true ∧
      fits (offsets 4 padded) i true = true) ∧
    padded.cur.life = .running ∧ padded.cur.satisfied = none ∧ padded.cur.counter 2 < 63 ∧ padded.cur.counter 3 < 63 ∧
    padded.cur.mayRelease 2 = true := by decide +kernel

/-- Lane 1 beyond the last byte, or misaligned; no lane active; a full word where an empty one is awaited. -/
theorem witness_ScratchpadAccess_fault : (∀ i ∈ (padForms 0).take 10, places (offsets 8192 padded) i = [true, false]) ∧
    (∀ i ∈ emptyForms 0, places (offsets 2 padded) i = [true, false]) ∧
    places padded (.lsl (i16 (.reg 5) .absent .absent 4)) = [false, false] ∧
    (∀ i ∈ padForms 0, issues i { padded with cur := { padded.cur with em := 0 } } = true) := by decide +kernel

def granted : State := { offsets 4 padded with mgmt := [(Reg.xsgrant 0, 1)] }

theorem witness_ChipScratchpadAccess :
    (∀ i ∈ [Instr.xst (padWord (.reg 1) 0), .xld (padWord (.reg 5) 0)], issues i granted = true ∧
      issues i { granted with cur := { granted.cur with em := 0 } } = true) ∧
    granted.cur.em ≠ 0 ∧ granted.cur.counter 4 < 63 ∧
    (∀ i ∈ granted.cur.activeLanes, (vectorEa granted.cur .absent (.reg 6) 0 i).toNat % 4 = 0 ∧
      (granted.chipReach granted.cur (vectorEa granted.cur .absent (.reg 6) 0 i)).isSome = true ∧
      granted.islandRuns (96 + (vectorEa granted.cur .absent (.reg 6) 0 i).toNat / 4 / 2 ^ 20) = true ∧
      (vectorEa granted.cur .absent (.reg 6) 0 i).toNat / 32 ∉ granted.coh.xpoison) := by decide +kernel

/-- R192: PSTE waits for an empty word; PLDE leaves it empty. -/
theorem test_tags : lane (after (.plde (padWord (.reg 5) 0)) (tagged ⟨77, true, false⟩ (offsets 4 padded))) 5 1 = 0 ∧
    ((after (.plde (padWord (.reg 5) 0)) (tagged ⟨77, true, false⟩ (offsets 4 padded))).pad 1).full = false ∧
    ((after (.pste (padWord (.reg 1) 0)) (tagged ⟨77, false, false⟩ (offsets 4 padded))).pad 1) = ⟨1, true, false⟩ ∧
    (after (.pste (padWord (.reg 1) 0)) (offsets 4 padded)).cur.wait.isSome = true := by decide +kernel

/-- Synchronisation memory of context 0 on, its first variable resident; s5 = 0. -/
def synced (v : Half) : State :=
  let s := st 4
  { s with mgmt := [(Reg.sync 0, 0x3000000001)], coh := { s.coh with sync := [(synKey 0 0, ⟨v, 2, 5⟩)], resident := [synKey 0 0] } }

def synWord (e : BitVec 8) (d : Opd) (c : Opd) : RR := rr4 d (.pos 0) .absent c e

theorem witness_SynchronisationOperations :
    (∀ e ∈ [(0 : BitVec 8), 0x41, 2, 3, 4, 5, 6, 0xC6, 0x9E], issues (.syna (synWord e (.reg 6) (.reg 1))) (synced 7) = true) ∧
    (∀ e ∈ [(0 : BitVec 8), 1, 2, 3, 4, 5], issues (.synw (synWord e (.reg 6) (.reg 1))) (synced 7) = true) ∧
    (synced 7).cur.life = .running ∧ (synced 7).cur.counter 6 < 63 ∧ (synced 7).synFault ((synced 7).cur.srcS (.pos 0)) true = none ∧
    (synced 7).synFault ((synced 7).cur.srcS (.pos 0)) false = none ∧ (synced 7).cur.mayRelease 3 = true ∧ (synced 7).cur.wait = none ∧ (synced 7).parked = [] ∧
    synKey (synced 7).cur.ctx 0 ∈ (synced 7).coh.resident ∧ (synced 7).joinWaits (synced 7).cur.ctx 0 = false ∧ (synced 7).cur.satisfied = none ∧
    (synced 6).syn (synKey 0 0) = ⟨6, 2, 5⟩ := by decide +kernel

/-- SYNW whose wait a store of 7 has met, and what the operations ask of the group and of the island; FN 111b reads. -/
theorem witness_SynchronisationOperations_satisfied :
    (let s := synced 7
     let z := { s with cur := { s.cur with wait := some ⟨14, 0, 0, 0xFF, 0, .synw 0 0 7 0 0 { oneLoad with path := 6, dst := .s 6 1 }⟩ } }
     issues (.synw (synWord 0 (.reg 6) (.reg 1))) z = true ∧ z.cur.life = .running ∧ z.cur.satisfied.isSome = true) ∧
    (synced 7).cur.behind = false ∧ (synced 7).islandRuns 127 = true ∧ (synced 7).cur.released 3 = true ∧ (synced 7).cur.wc = none ∧
    (issues (.syna (synWord 7 (.reg 6) (.reg 1))) (synced 7) = true ∧ (0x9F : BitVec 8).toNat % 8 = 7 ∧ (0x9F : BitVec 8).getLsbD 7 = true) ∧
    2 ^ 32 ≤ (0x100000000 : Word).toNat := by decide +kernel

theorem witness_SynchronisationOperations_fault :
    (∀ i ∈ [Instr.syna (rr4 (.reg 6) (.reg 1) .absent (.reg 1) 0), .synw (rr4 (.reg 6) (.reg 2) .absent (.reg 1) 0)], issues i (synced 7) = true) ∧
    ((synced 7).cur.srcS (.reg 1)).toNat % 4 ≠ 0 ∧ issues (.syna (synWord 0 (.reg 6) (.reg 1))) (st 4) = true ∧
    (st 4).regBits (Reg.sync (st 4).cur.ctx.toNat) 0 0 = 0 := by decide +kernel

/-- R332: subtracting 7 from 6; the wait of SYNW for 7 at 6. -/
theorem test_sync : ((after (.syna (synWord 1 (.reg 6) (.reg 1))) (synced 6)).syn (synKey 0 0)) = ⟨0xFFFFFFFF, 6, 6⟩ ∧
    (after (.synw (synWord 0 (.reg 6) (.reg 1))) (synced 6)).cur.wait.isSome = true ∧
    (after (.synw (synWord 0 (.reg 6) (.reg 1))) (synced 7)).cur.wait.isNone = true := by decide +kernel

/-- A group with one load still to be performed. -/
def pending (cls : Nat) : State := { st cls with cur := { (st cls).cur with inflight := [{ oneLoad with performed := false }] } }

theorem witness_FencesAndWaits :
    (∀ e ∈ [(0x80 : BitVec 8), 0xC0, 0x98, 0xE0], issues (.fence (rr .absent .absent .absent e)) (st 4) = true) ∧
    (st 4).cur.wc = none ∧ (st 4).cur.inflight.all (fun a => a.performed && (3 ≠ 4 || a.acks = 0)) = true ∧
    (issues (.fence (rr .absent .absent .absent 0x98)) (pending 4) = true ∧ (pending 4).cur.wc = none ∧
      (pending 4).cur.inflight.all (fun a => a.performed && (3 ≠ 4 || a.acks = 0)) = false) ∧
    (issues (.tlwait (rr .absent (.reg 6) (.pos 0) 0xFF)) (st 4) = true ∧ issues (.tlwait (rr .absent (.reg 6) (.pos 1) 0xFF)) (st 4) = true ∧
      (st 4).coreCtx (st 4).cur.core (st 4).cur.ctx = CoreCtx.idle) ∧
    (issues (.waitc (rr .absent (.reg 0) (.pos 0) 0xFF)) (pending 4) = true ∧ (pending 4).cur.counter 0 = 1) ∧
    (issues (.waitc (rr .absent (.reg 0) (.pos 1) 0xFF)) (pending 4) = true) := by decide +kernel


def rangeWord (n : Opd) : RR := rr .absent (.reg 5) n 0xFF

/-- The mapped page with core 0 owning its first line, as its home knows. -/
def ranged : State :=
  let s := ownsLine (accessing 4)
  { s with coh := { s.coh with homes := [(8192, { Home.idle with st := .e 0 })] } }

theorem witness_RangeOperations_issue :
    (∀ i ∈ [Instr.rwb (rangeWord (.pos 0)), .rinv (rangeWord (.pos 1)), .rwbi (rangeWord (.reg 1))], issues i ranged = true) ∧
    (∀ i ∈ [Instr.rwb (rr .absent (.reg 2) (.pos 2) 0xFF), .rinv (rr .absent (.reg 3) (.pos 1) 0xFF)], issues i ranged = true) ∧
    (ranged.cur.srcS (.pos 0)).toNat = 0 ∧ 2 ^ 64 < (ranged.cur.srcS (.reg 2)).toNat + 2 ∧ canonical (ranged.cur.srcS (.reg 3)) = false ∧
    (let a := ranged.cur.srcS (.reg 5)
     a.toNat % 128 + 128 ≤ 128 ∧ canonical a = true ∧ canonical (a + 127) = true ∧ (ranged.tlb? ranged.cur.waiter ranged.cur.ctx a).isSome = true ∧
     ranged.cur.life = .running ∧ ranged.cur.wc = none ∧ ranged.cur.inflight = [] ∧ (ranged.l1? ranged.cur.core 8192).isSome = true ∧
     (ranged.home 8192).st = .e ranged.cur.core) := by decide +kernel

/-- 130 bytes from the first line on, the second of whose lines the L1 holds M; a last byte that is not canonical. -/
def rangedTwo : State :=
  let s := ranged
  { s with
    cur := ((s.cur.swrite 7 130).swrite 8 0x3FFFFFFFFFFFF).swrite 9 2
    cores := [(0, { s.core 0 with l1 := (s.core 0).l1 ++ [⟨8193, .m, 0, 0, 0x55, 0xF, 0xFF, 0, false⟩] })] }

theorem witness_RangeOperations_two : (∀ i ∈ [Instr.rwb, .rinv, .rwbi], issues (i (rr .absent (.reg 5) (.reg 7) 0xFF)) rangedTwo = true ∧
      issues (i (rr .absent (.reg 8) (.reg 9) 0xFF)) rangedTwo = true) ∧
    canonical (rangedTwo.cur.srcS (.reg 8)) = true ∧ canonical (rangedTwo.cur.srcS (.reg 8) + 1) = false ∧
    (let s := rangedTwo
     let a := s.cur.srcS (.reg 5)
     canonical a = true ∧ canonical (a + 129) = true ∧ (a.toNat + 130 - 1) / 128 - a.toNat / 128 + 1 = 2 ∧ s.mmu.skims = [] ∧ s.cxl.cuts = [] ∧
     s.cur.life = .running ∧ s.cur.wc = none ∧ s.cur.inflight = [] ∧ s.coh.msgs = [] ∧
     (∀ k ∈ [0, 1], let va : Word := BitVec.ofNat 64 (128 * (a.toNat / 128 + k))
       (s.tlb? s.cur.waiter s.cur.ctx va).isSome = true ∧ maps s s.cur.waiter va = true ∧ placeOf va / 128 = 8192 + k ∧ placeOf va < 2 ^ 52 ∧
       ∀ x ∈ s.l1? s.cur.core (placeOf va / 128), (x.st = .e → (s.home (placeOf va / 128)).st = .e s.cur.core) ∧ (x.st = if k = 0 then .e else .m) ∧
         (k = 1 → x.dirty ≠ 0))) := by decide +kernel

theorem witness_RangeOperations_places (k : Nat) (h : k < 2) :
    rangedTwo.translate rangedTwo.cur.waiter 0 (BitVec.ofNat 64 (128 * (dataVa.toNat / 128 + k))) .load =
      .ok (placeOf (BitVec.ofNat 64 (128 * (dataVa.toNat / 128 + k)))) .wb false :=
  translate_mapped _ _ _ _ (by interval_cases k <;> decide +kernel)

theorem witness_RangeOperations : ∃ pa, ranged.translate ranged.cur.waiter ranged.cur.ctx dataVa .load = .ok pa .wb false :=
  ⟨_, translate_mapped ranged _ dataVa .load (by decide +kernel)⟩

/-- The first line of the mapped page in the L2 with the given locks, and context 0 holding `used` of three locked lines. -/
def locked (l : List (BitVec 12)) (used : Nat) : State :=
  let s := accessing 4
  { s with coh := { s.coh with l2 := [⟨8192, 0, 0, 0, l, false⟩] }, mgmt := mappedMgmt ++ [(Reg.lquota 0, BitVec.ofNat 64 (3 * 2 ^ 48 + used * 2 ^ 32))] }

/-- Twelve other lines of the set locked: every way that may be. -/
def crowded : State :=
  let s := locked [] 2
  { s with coh := { s.coh with l2 := s.coh.l2 ++ [65, 130, 195, 260, 325, 390, 455, 520, 585, 650, 672, 737].map fun k => ⟨8192 + 768 * k, 0, 0, 0, [5], false⟩ } }

def lockWord : RR := rr (.reg 6) (.reg 5) .absent 0xFF

def lockUse (s : State) : Nat × Nat := (bits (s.reg (Reg.lquota 0)) 63 48, bits (s.reg (Reg.lquota 0)) 47 32)

theorem witness_LockOperations :
    (∀ s ∈ [locked [0] 3, locked [] 3, locked [5] 2, locked [] 0], issues (.lock lockWord) s = true ∧ issues (.unlock lockWord) s = true ∧
      s.cur.life = .running ∧ s.cur.counter 5 < 63 ∧ s.awaits s.cur.waiter = false ∧ s.pageHeld (2 ^ 20) false s.seqCtr = false ∧ (s.l2? 8192).isSome = true) ∧
    lockUse (locked [] 3) = (3, 3) ∧ lockUse (locked [5] 2) = (3, 2) ∧ ((0 : BitVec 12) ∈ [(0 : BitVec 12)] ∧ [(0 : BitVec 12)].Nodup) ∧
    (locked [] 0).lockedWays 8192 < 12 ∧ (issues (.lock lockWord) crowded = true ∧ lockUse crowded = (3, 2) ∧ 12 ≤ crowded.lockedWays 8192 ∧
      (crowded.l2? 8192).map (fun l => l.locks) = some []) := by decide +kernel

theorem witness_LockOperations_place (l : List (BitVec 12)) (n : Nat) :
    ∃ pa, (locked l n).translate (locked l n).cur.waiter 0 ((locked l n).cur.srcS (.reg 5)) .load = .ok pa .wb false := by
  have h : (locked l n).cur.srcS (.reg 5) = dataVa := by
    show (accessing 4).cur.srcS (.reg 5) = dataVa
    decide +kernel
  rw [h]
  have m : Maps (locked l n) := ⟨rfl, rfl, rfl, rfl, rfl⟩
  exact ⟨_, translate_mapped _ _ dataVa .load (m.maps rfl (by decide +kernel))⟩

/-- An open region of lanes 0 and 1 with v5 in its checkpoint. -/
def regioned (failed : Bool) (hm : Bool) (d : Nat) : State :=
  let s := st 4
  let l (n : BitVec 7) : RLane := ⟨n, [], [], [], 0, [], failed, [(5, 9), (6, 1)], []⟩
  { s with cur := { s.cur with em := 3, hmode := hm, region := some ⟨3, [l 0, l 1], d, 0, false, 0, 0, false, 0, 0, 0, 0, [], []⟩ } }

theorem witness_RegionInstructions :
    (issues (.areg (rr .absent (.pos 0) .absent 0)) (st 4) = true ∧ (st 4).cur.hmode = false ∧ (st 4).cur.inflight = [] ∧
      (maskBits ((st 4).cur.srcS (.pos 0))).length ≤ 8 ∧ issues (.areg (rr .absent (.reg 4) .absent 0)) (st 4) = true ∧
      8 < (maskBits ((st 4).cur.srcS (.reg 4))).length) ∧
    (∀ i ∈ [Instr.acmt bare, .aabt bare], issues i (regioned true true 0) = true ∧ issues i (st 4) = true ∧ (st 4).cur.region = none ∧
      issues i (regioned true false 1) = true ∧ (regioned true false 1).cur.msdep.toNat ≠ 1) ∧
    (∀ i ∈ [Instr.acmt bare, .aabt bare], issues i (regioned true false 0) = true) ∧
    (regioned true false 0).cur.hmode = false ∧ (regioned true false 0).cur.msdep.toNat = 0 ∧ (regioned true false 0).cur.inflight = [] ∧
    (regioned true false 0).cur.wc = none ∧ (∀ r, (regioned true false 0).cur.region = some r → r.state.all (fun l => l.failed) = true) := by
  refine ⟨by decide +kernel, by decide +kernel, by decide +kernel, rfl, rfl, rfl, rfl, ?_⟩
  intro r h
  cases h
  rfl

/-- ACMT at lane 1, lane 0 having failed: it read the first word of the line that core 0 owns as `val` and wrote two words there; the last lane or not. -/
def committing (val : Half) (ctl : BitVec 4) (more : Bool) : State :=
  let s := ownsLine (accessing 4)
  let l (n : BitVec 7) (failed : Bool) : RLane :=
    ⟨n, [(7, .word 0 1)], [⟨dataVa, 2 ^ 20, val⟩], [], ctl, [⟨dataVa + 8, 2 ^ 20 + 8, true, 3, .word 0 2, 4, .plain⟩], failed, [(7, 9)], []⟩
  { s with cur := { s.cur with em := 7, region := some ⟨7, [l 0 true, l 1 false] ++ (if more then [l 2 false] else []), 0, 0, false, 0, 0, false, 0, 0, 0, 0, [], []⟩ } }

/-- The word unchanged (0x04030201), changed and repairable, changed and not. -/
theorem witness_RegionInstructions_commit : ∀ s ∈ [committing 0x04030201 0 false, committing 5 0 true, committing 5 1 false],
    issues (.acmt bare) s = true ∧ s.cur.life = .running ∧ s.cur.hmode = false ∧ s.cur.msdep.toNat = 0 ∧ s.cur.wc = none ∧ s.viral s.cur.ctx = false ∧
    s.cur.inflight = [] ∧
    (∀ r ∈ s.cur.region, r.ord.getLsbD 1 = false ∧ r.recs = [] ∧ r.long = false ∧ r.committing = false ∧ r.nextLane = 0 ∧
      (∀ m ∈ r.state.take 1, m.failed = true) ∧ (∀ l ∈ r.state[1]?, l.failed = false ∧ l.lane.toNat = 1 ∧ l.reads.length ≤ 4 ∧
        l.writes.length = 1 ∧ (l.repairable 1 [0x04030201] = decide (l.ctl = 0)))) ∧
    (clear s dataVa 2 = true ∧ clear s (dataVa + 8) 3 = true ∧ placeOf dataVa = 2 ^ 20 ∧ placeOf (dataVa + 8) = 2 ^ 20 + 8) ∧
    (∀ x ∈ s.tlb? s.cur.waiter s.cur.ctx (dataVa + 8), Pte.d x.leaf = true) ∧
    (∀ y ∈ s.l1? s.cur.core 8192, y.st = .e ∧ y.poison = 0 ∧ lineBytes y.data 0 4 = 0x04030201) ∧ (s.l1? s.cur.core 8192).isSome = true ∧
    s.split 8192 = false ∧ s.mmu.skims = [] ∧ s.cxl.cuts = [] ∧ (s.filter 32).turn = none ∧ (s.filter 32).holds s.cur.waiter true = false := by
  decide +kernel

theorem witness_RegionInstructions_held (v : Half) (c : BitVec 4) (m co : Bool) (n : Nat) :
    (committing v c m).pageHeld (2 ^ 20) co n = false ∧ (committing v c m).pageHeld (2 ^ 20 + 8) co n = false := by
  cases co <;> exact ⟨rfl, rfl⟩

/-- R350: AABT gives the lanes back what the region found in v5. -/
theorem test_abort : lane (after (.aabt bare) (regioned true false 0)) 5 1 = 9 ∧ lane (after (.aabt bare) (regioned true false 0)) 5 2 = 0 ∧
    (after (.aabt bare) (regioned true false 0)).cur.em = 3 ∧ (after (.aabt bare) (regioned true false 0)).cur.k = 0 := by decide +kernel

theorem witness_RestoreIsTheCheckpoint : ([(5, 9), (6, 1)] : List (BitVec 6 × Half)).Pairwise (fun x y => x.1 ≠ y.1) ∧
    (95 : BitVec 7) = lane7 95 ∧ ((5, 9) : BitVec 6 × Half) ∈ [(5, 9), (6, 1)] ∧ ∀ h : Half, ((7, h) : BitVec 6 × Half) ∉ [(5, 9), (6, 1)] :=
  ⟨by decide, by decide, by decide, fun h => by simp⟩

theorem witness_IssueChecks :
    ((Instr.nop bare).info.isSome = true) ∧
    (let s := { st 6 with cur := { (st 6).cur with dline := 0 } }
     s.cur.dline = 0 ∧ s.cur.hmode = false ∧ ((Instr.nop bare).info.map isYieldOrPhase) = some false) ∧
    (((Instr.add (rr (.reg 1) (.rsvd 0x49) (.reg 2) 0)).info.map OpInfo.ok) = some false) ∧
    ((Instr.add ⟨⟨0, false, 0, 0, 7⟩, .reg 1, .reg 2, .reg 3, .absent, 0⟩).info.map (fun o => o.ok && !opVectorLatch o (st 0).cur &&
      !(st 0).cur.guards o.body.ctl) = some true) ∧
    ((Instr.yield ⟨⟨0, false, 0, 0xF, 7⟩, .absent, .absent, .absent, 0⟩).info.map (fun o => o.ok && !(st 0).cur.guards o.body.ctl) = some true) ∧
    ((Instr.add (rr (.reg 1) (.latch 0) (.reg 2) 0)).info.map (fun o => o.ok && !opVectorLatch o (st 0).cur && opUnderrun o (st 0).cur) = some true) ∧
    ((Instr.sst .b32 (i16 (.reg 1) (.reg 5) .absent 0)).info.map (fun o => o.ok && !opUnderrun o (st 0).cur) = some true) ∧
    ((Instr.fence (rr .absent .absent .absent 0x80)).info.map (fun o => o.ok && regionForbids o) = some true) := by decide +kernel

/-- A launch with trap handler `h`, two groups left; the fault area of context 0 in the mapped page, enabled or not. -/
def trapping (h : Word) (en : Word) : State :=
  let s := mapped (st 6)
  { s with mgmt := mappedMgmt ++ [(Reg.contain 0 0, dataVa ||| en)]
           sch := { s.sch with launches := [(0, { Launch.none with groups := 2, words := [0, 0, 0, 0, 0, 0, h] })] } }

def trapWord : I16 := i16 .absent .absent .absent 5

theorem witness_TrapEntry : issues (.trap trapWord) (trapping 0x2000 1) = true ∧ (trapping 0x2000 1).cur.hmode = false ∧ (trapping 0x2000 1).cur.wc = none ∧
    ((trapping 0x2000 1).launch 0).traph ≠ 0 ∧ (trapping 0x2000 1).tfen 0 = true ∧ (trapping 0x2000 1).frameAddr (trapping 0x2000 1).cur = dataVa := by
  decide +kernel

/-- What TRAP writes its frame from. -/
def trapState : State :=
  let s := trapping 0x2000 1
  let l := s.launch 0
  (s.setLaunch 0 { l with fkind := 0x10, ntrap := satInc l.ntrap }).setCur s.cur.failRegion

/-- The frame can be written: all its lines lie in the mapped page, which is not held, and no load is on its way to it. -/
theorem witness_TrapEntry_frame (ws : List Word) : trapState.frameHeld trapState.cur = false ∧ trapState.cur.frameLoads = false ∧
    ∃ u, trapState.writeLines trapState.cur.waiter trapState.cur.ctx dataVa ws 0 96 = .ok u := by
  have h4 : lineVas dataVa 96 = (List.range 96).map fun k => BitVec.ofNat 64 (0x4000000000 + 128 * k) := by decide +kernel
  have h5 : ((List.range 96).map fun k => BitVec.ofNat 64 (0x4000000000 + 128 * k)).all inPage = true := by decide +kernel
  have h2 : ∀ a ∈ lineVas dataVa 96, inPage a = true := by
    rw [h4]
    exact List.all_eq_true.1 h5
  have hx : trapState.translate trapState.cur.waiter trapState.cur.ctx (trapState.frameAddr trapState.cur) .engine = .ok (placeOf dataVa) .wb false := by
    have e : trapState.frameAddr trapState.cur = dataVa := by decide +kernel
    rw [e]
    exact translate_mapped _ _ _ _ (by decide +kernel)
  have hh : trapState.frameHeld trapState.cur = false := by
    simp only [State.frameHeld, hx]
    decide +kernel
  exact ⟨hh, by decide +kernel, writeLines_mapped 96 (s := trapState) ⟨rfl, by decide +kernel, rfl, rfl, rfl⟩ rfl dataVa ws 0 h2⟩

theorem witness_TrapEntry_words : (15 : Nat) < 16 ∧ (3 : Nat) < 4 ∧ (List.replicate 127 ((96 : BitVec 7), (⟨0, 1, 3, true, false, 0, 0⟩ : FRec))).length < 128 := by
  decide +kernel

theorem witness_TrapEndsLaunch :
    (∀ s ∈ [trapping 0 1, trapping 0x2000 0, { trapping 0x2000 1 with cur := { (trapping 0x2000 1).cur with hmode := true } }],
      issues (.trap trapWord) s = true ∧ s.cur.wc = none ∧ ((s.launch s.cur.launch).traph = 0 ∨ s.tfen s.cur.ctx = false ∨ s.cur.hmode = true)) ∧
    (let s := { trapping 0x2000 1 with cur := { (trapping 0x2000 1).cur with dline := 0 } }
     (Instr.nop bare).info.map isYieldOrPhase = some false ∧ s.cur.wc = none ∧ s.cur.dline = 0 ∧ s.cur.hmode = false) ∧
    (∀ s ∈ [trapping 0 1, { trapping 0 1 with cur := { (trapping 0 1).cur with inflight := [oneLoad] } }],
      s.cur.life = .running ∧ (s.launch s.cur.launch).finished = false ∧ (s.launch s.cur.launch).ending = none ∧
      s.sch.places = [] ∧ 1 < (s.launch s.cur.launch).groups ∧ s.cur.batch = none) := by decide +kernel

/-- R114: TRAP with no handler ends the launch with kind 0x10. -/
theorem test_trap : ((after (.trap trapWord) (trapping 0 1)).launch 0).ending = some 0x10 ∧ (after (.trap trapWord) (trapping 0 1)).cur.life = .none := by
  decide +kernel

theorem witness_VectorPrefetch : (∀ w ∈ [i16 .absent (.reg 5) (.reg 6) 0], issues (.vpf w) (accessing 3) = true ∧
      issues (.vpf w) { accessing 3 with cur := { (accessing 3).cur with em := 0 } } = true) ∧
    (accessing 3).cur.em ≠ 0 ∧ (accessing 3).cur.life = .running ∧ (accessing 3).cur.counter 0 < 63 ∧
    (let s := accessing 3
     let ea (i : Fin 96) : Word := vectorEa s.cur (.reg 5) (.reg 6) 0 i
     let v := s.cur.activeLanes.foldl (fun v i => v.walkNow s.cur.waiter s.cur.ctx (ea i)) s
     ∀ i ∈ s.cur.activeLanes, clear v (ea i) 0 = true ∧ placeOf (ea i) < 2 ^ 52 ∧ v.l1? v.cur.core (placeOf (ea i) / 128) = none) := by decide +kernel

/-- A core with `n` commands in register 0 and two words for QGET in q1; the group holds the first half of a command, or not. -/
def queued (n : Nat) (h : List (BitVec 4 × Word)) : State :=
  let s := st 5
  let c : Cmd := ⟨1, 0, 0, 0, 0, 0, 0, 0, 0, 0, 0, false, 0⟩
  { s with cur := { s.cur with half := h }
           cores := [(0, { Core.idle with ctxs := [(0, { CoreCtx.idle with q0 := List.replicate n c, q1 := [⟨0x8000000, 9⟩, ⟨5, 2⟩] })] })] }

theorem witness_QueueRegisters :
    (∀ s ∈ [queued 16 [], queued 15 [], queued 15 [(0, 0x0204000000000000)]], issues (.qput (rr (.reg 0) (.reg 1) .absent 0xFF)) s = true) ∧
    16 ≤ ((queued 16 []).coreCtx 0 0).depth 0 ∧ ((queued 15 []).coreCtx 0 0).depth 0 < 16 ∧
    ((queued 15 [(0, 7)]).cur.half.find? fun h => h.1 = BitVec.ofNat 4 0) = some (BitVec.ofNat 4 0, 7) ∧
    (∀ n ∈ [(1 : BitVec 6), 3, 7], issues (.qget (rr (.reg 5) (.reg n) .absent 0xFF)) (queued 0 []) = true ∧
      issues (.qtry (rr4 (.reg 5) (.reg n) .absent (.reg 2) 0xFF)) (queued 0 []) = true) ∧
    (((queued 0 []).coreCtx 0 0).popQueue 1)[0]? = some ⟨0x8000000, 9⟩ ∧ (((queued 0 []).coreCtx 0 0).popQueue 3).length ≤ 0 ∧
    (queued 0 []).qgetters 0 0 1 = [] ∧ (queued 0 []).cur.life = .running ∧ (queued 0 []).cur.batch = none ∧ (queued 0 []).cur.dline ≠ 0 := by decide +kernel

/-- The batch slot, read through the code window: its last word and past it. -/
def batched (k : Nat) : State :=
  let s := withCode (queued 0 []) [1, 2, 0xAB]
  { s with cur := { s.cur with batch := some (codeVa, 3, k) } }

/-- The read leaves the state and gives the value. -/
def reads (s : State) (x : Except Xlat (State × Nat)) (v : Nat) : Bool :=
  match x with
  | .ok (u, w) => decide (u = s) && w == v
  | .error _ => false

theorem witness_QueueRegisters_batch :
    (∀ k ∈ [2, 3], issues (.qget (rr (.reg 5) (.reg 7) .absent 0xFF)) (batched k) = true ∧
      issues (.qtry (rr4 (.reg 5) (.reg 7) .absent (.reg 2) 0xFF)) (batched k) = true) ∧
    reads (batched 2) ((batched 2).readVa (batched 2).cur.waiter (batched 2).cur.ctx (codeVa + BitVec.ofNat 64 (8 * 2)) 8) 0xAB = true := by decide +kernel

theorem test_queues : sreg (after (.qget (rr (.reg 5) (.reg 1) .absent 0xFF)) (queued 0 [])) 5 = 0x8000000 ∧
    (after (.qget (rr (.reg 5) (.reg 1) .absent 0xFF)) (queued 0 [])).cur.gsf = gsfOF ∧
    (after (.qget (rr (.reg 5) (.reg 1) .absent 0xFF)) (queued 0 [])).cur.pts = 9 ∧
    sreg (after (.qget (rr (.reg 5) (.reg 7) .absent 0xFF)) (batched 2)) 5 = 0xAB := by decide +kernel

/-- Two stencil records of two FP32 elements in the scratchpad, the second (the source) at `src`, and two more that copy it. -/
def sweepBlock (n : Word) (bits : Word) (src : Word) : List Word :=
  let r (b : Word) : List Word := [b, bits, n, 0, 0, 1, 0, 0]
  r 0 ++ r src ++ r src ++ r src

def sweepingOf (l : List Word) (start : Word) : State :=
  let s := slotted 5
  withCode { s with cur := { ((s.cur.swrite 5 codeVa).swrite 6 start) with spbytes := 4096 } } l

def sweeping (src : Word) (start : Word) : State := sweepingOf (sweepBlock 2 0x9080000000000000 src) start

def sweepWord (e : BitVec 8) : RR := rr4 (.reg 6) (.reg 5) (.fpc 1) (.fpc 1) e

/-- The records are well formed; how far the beat gets: elements, faulting elements, whether it waits. -/
def sweepBeatOf (u : State) (ws : List Word) : Option (Nat × Nat × Bool) :=
    let v := u.setCur { u.cur with sweep := some (numberOf ws) }
    let d := Stencil.ofWords (ws.take 8)
    let t := Stencil.ofWords ((ws.drop 8).take 8)
    let f := v.slotOf u.cur.launch d.fsl
    let e : EngWho := { core := u.cur.core, ctx := u.cur.ctx, tl := 0, grp := some u.cur.slot }
    let start := (u.cur.srcS (.reg 6)).toNat
    let m := min 32 (d.count - start)
    if v.stencilBad u.cur.ctx u.cur.launch d d false || v.stencilBad u.cur.ctx u.cur.launch t d true then none
    else
      let r := sweepCheck e v.cur d f start m (sweepRead e v.cur d [(t, f)] start m ⟨v, [], 0, [], false⟩)
      some (d.count, r.recs.length, r.wait)

def sweepBeat (s : State) : Option (Nat × Nat × Bool) :=
  match State.touchWordsAs 0 s (s.cur.srcS (.reg 5)) .load 32 with
  | .ok u ws => sweepBeatOf (u.clearVerdicts u.cur.waiter) ws
  | _ => none

theorem witness_SweepBeats : issues (.sweep (sweepWord 0)) (sweeping 64 0) = true ∧ (sweeping 64 0).cur.inflight = [] ∧
    ((sweeping 64 0).cur.srcS (.reg 5)).toNat % 64 = 0 ∧ sweepBeat (sweeping 64 0) = some (2, 0, false) ∧ sweepBeat (sweeping 4096 0) = some (2, 2, false) ∧
    sweepBeat (sweeping 64 2) = some (2, 0, false) ∧
    (issues (.sweep { sweepWord 10 with a := .pos 63 }) (sweeping 64 0) = true ∧ ((sweeping 64 0).cur.srcS (.pos 63)).toNat % 64 ≠ 0) ∧
    ((sweeping 64 0).cur.dline ≠ 0 ∧ 0xA < (sweepWord 0xB).e.toNat) := by decide +kernel

/-- A sweep of two beats, from its block and from what it has kept of it, whose elements in memory await a page; records without VAL. -/
theorem witness_SweepBeats_beats :
    (let s := sweepingOf (sweepBlock 33 0x9080000000000000 256) 0
     let bad := sweepingOf (sweepBlock 33 0x1080000000000000 256) 0
     issues (.sweep (sweepWord 0)) s = true ∧ s.cur.sweep = none ∧ s.cur.inflight = [] ∧ sweepBeat s = some (33, 0, false) ∧
     issues (.sweep (sweepWord 0)) bad = true ∧ bad.cur.sweep = none ∧ bad.cur.inflight = [] ∧ sweepBeat bad = none ∧
     (match State.touchWordsAs 0 bad (bad.cur.srcS (.reg 5)) .load 32 with
      | .ok u ws => !(Stencil.ofWords (ws.take 8)).val && decide (u.cur = bad.cur)
      | _ => false) = true) ∧
    (let k := sweepBlock 33 0x9080000000000000 256
     let s := sweepingOf [] 32
     let z := { s with cur := { s.cur with sweep := some (numberOf k) } }
     issues (.sweep (sweepWord 0)) z = true ∧ z.cur.sweep = some (numberOf k) ∧ wordsOf (numberOf k) 32 = k ∧ sweepBeatOf z k = some (33, 0, false) ∧
       z.cur.wc = none ∧ z.storeHeld z.cur 0 = false) ∧
    (let r : List Word := [codeVa, 0x9000000000000000, 2, 0, 0, 1, 0, 0]
     let k := r ++ r ++ r ++ r
     let s := sweepingOf [] 0
     let z := { s with
       cur := { s.cur with sweep := some (numberOf k) }
       mmu := { s.mmu with reqs := [⟨5, 0, 0, false, false, false, [.group 0 0]⟩] } }
     issues (.sweep (sweepWord 0)) z = true ∧ sweepBeatOf z k = some (2, 0, true)) := by decide +kernel

/-- A queue table at PA 0 whose entry 1 is an expert queue and entry 2 a task queue, both enabled, in the L2. -/
def tabled (s : State) : State :=
  let e (i : Nat) (w : Word) : BitVec 1024 := (BitVec.ofNat 1024 (w.toNat * 2 ^ (64 * i)))
  let d : BitVec 1024 := e 8 0x3800000000000000 ||| e 11 0x2000 ||| e 13 0x2000000000000000
  { s with coh := { s.coh with l2 := [⟨0, d, 0, 0, [], false⟩, ⟨1, e 0 0x2800000000000000, 0, 0, [], false⟩] } }

/-- Lane 3 alone, with queue handle `h` in v6. -/
def enqueuing (h : Half) (q : List ExpertQ) : State :=
  let s := tabled (st 5)
  { s with cur := { (s.cur.vwrite 6 (Vector.replicate 96 h)) with em := 8 }, sch := { s.sch with experts := q } }

/-- The queue resident, with `n` tokens of the two it holds and `r` tokens in its ring of 16. -/
def expertQ (n : Nat) (r : BitVec 32) : ExpertQ :=
  ⟨0, 1, #v[0x3800000000000000, 0, 0, 0x2000, 0, 0x2000000000000000, 0, 0], List.replicate n ⟨#v[0, 0, 0, 0], 0⟩, 0, r, 0, none⟩

def enqWord : RR := rr .absent (.reg 8) (.reg 6) 0xFF

theorem witness_EnqueueTokens :
    (∀ s ∈ [enqueuing 1 [], enqueuing 0x10000 [], enqueuing 1 [expertQ 1 0], enqueuing 1 [expertQ 2 0], enqueuing 1 [expertQ 0 16]],
      issues (.enqt enqWord) s = true ∧ s.cur.wait = none ∧ s.cur.wc = none ∧ s.cur.mayRelease 3 = true ∧ s.cur.em = BitVec.ofNat 96 (2 ^ 3)) ∧
    (let e := (enqueuing 1 []).qword 0 1 0
     Qw.type e = 3 ∧ Qw.en e = true ∧ Qw.err e = false ∧ ((enqueuing 1 []).cur.srcV (.reg 6))[3] = 1 ∧
      entryMalformed ((enqueuing 1 []).entryWords 0 1) = false) ∧
    ((enqueuing 1 [expertQ 1 0]).expert? 0 1 = some (expertQ 1 0) ∧ entryMalformed (expertQ 1 0).entry = false ∧ (expertQ 1 0).tokens.length < (expertQ 1 0).rcap ∧
      (expertQ 1 0).ringCount = 0) ∧
    ((expertQ 0 16).ringSize ≤ (expertQ 0 16).ringCount ∧ (expertQ 2 0).rcap ≤ (expertQ 2 0).tokens.length) ∧
    issues (.enqt enqWord) { enqueuing 1 [] with cur := { (enqueuing 1 []).cur with em := 0 } } = true := by decide +kernel

/-- Lanes 3 and 4, with the handles `a` and `b`. -/
def enqueuing2 (a b : Half) (x : Option Wait) : State :=
  let s := enqueuing 1 [expertQ 1 0]
  { s with cur := { ({ s.cur with em := 0x18 }.vwrite 6 ((Vector.replicate 96 a).set 4 b)) with wait := x } }

/-- Several lanes: the first queue has room, the second handle names none; two lanes of one queue; the second of them held. -/
theorem witness_EnqueueTokens_lanes :
    (∀ s ∈ [enqueuing2 1 0x10000 none, enqueuing2 1 1 none, enqueuing2 1 1 (some ⟨15, 1, 1, 0xFF, 0, .enqt 4 8⟩)],
      issues (.enqt enqWord) s = true ∧ s.cur.wc = none ∧ s.cur.mayRelease 3 = true ∧ s.cur.em = BitVec.ofNat 96 (2 ^ 3 + 2 ^ 4) ∧
      s.expert? 0 1 = some (expertQ 1 0) ∧ (expertQ 1 0).lastAt = none ∧ s.enqtAhead s.cur.waiter 0 1 = false) ∧
    ((enqueuing2 1 0x10000 none).cur.srcV (.reg 6))[3] = 1 ∧ ((enqueuing2 1 0x10000 none).cur.srcV (.reg 6))[4] = 0x10000 ∧
    ((enqueuing2 1 1 none).cur.srcV (.reg 6))[4] = 1 ∧
    ((List.finRange 96).all fun i => (enqueuing2 1 1 none).cur.em.getLsbD i.val = (i.val == 3 || i.val == 4)) = true := by decide +kernel

/-- A queue with no room of its own whose ring stands in the mapped page. -/
def ringQ : ExpertQ := { expertQ 2 0 with entry := (expertQ 2 0).entry.set 4 dataVa }

def ringing : State :=
  let s := mapped (enqueuing 1 [ringQ])
  { s with coh := { s.coh with l2 := s.coh.l2 ++ [⟨8192, 0, 0, 0, [], false⟩] } }

theorem witness_EnqueueTokens_ring : issues (.enqt enqWord) ringing = true ∧ ringing.cur.em = BitVec.ofNat 96 (2 ^ 3) ∧ ringing.expert? 0 1 = some ringQ ∧
    Qw.type (ringing.qword 0 1 0) = 3 ∧ Qw.en (ringing.qword 0 1 0) = true ∧ entryMalformed ringQ.entry = false ∧ ringQ.rcap ≤ ringQ.tokens.length ∧
    ringQ.ringCount < ringQ.ringSize ∧
    ∃ x ts, (ringing.raiseClocks ringing.cur 3).queueWrite ringing.cur.waiter 0 (ringQ.entry[4] + 64 * BitVec.ofNat 64 (ringQ.rwrix.toNat % ringQ.ringSize)) 0
      ((spilled (ringing.cur.tokenRecord 8 3)).toList ++ [ringing.clock127, 0, 0, 0]) = .ok x [] ts :=
  ⟨by decide +kernel, by decide +kernel, by decide +kernel, by decide +kernel, by decide +kernel, by decide +kernel, by decide +kernel, by decide +kernel,
    queueWrite_mapped _ _ _ (by decide +kernel)⟩

/-- R149: the token joins the resident queue; a full ring refuses it and the group is due its spill trap. -/
theorem test_enqueue : ((after (.enqt enqWord) (enqueuing 1 [expertQ 1 0])).expert? 0 1).map (fun q => q.tokens.length) = some 2 ∧
    (after (.enqt enqWord) (enqueuing 1 [expertQ 1 0])).cur.k = 8 ∧
    (after (.enqt enqWord) (enqueuing 1 [expertQ 0 16])).cur.k = 0 ∧ (after (.enqt enqWord) (enqueuing 1 [expertQ 0 16])).cur.dueSpill = true := by decide +kernel

/-- A launch with `n` carry sets, two groups. -/
def switching (n : Nat) (s : State) : State :=
  { s with sch := { s.sch with launches := [(0, { Launch.none with groups := 2, words := [0, 0, 0, 0xF000000, BitVec.ofNat 64 (n * 2 ^ 12)] })] } }

def yieldImm (n : BitVec 16) : I16 := i16 .absent .absent .absent n
def phaseImm (n : BitVec 6) (a : Opd) : I24 := i24 (.pos n) a 0

theorem witness_YieldAndPhase_yield :
    issues (.yield (yieldImm 0)) (switching 0 (st 6)) = true ∧ issues (.yield (yieldImm 0x7F)) (switching 2 (st 6)) = true ∧
    issues (.yield (yieldImm 0x1F)) (switching 2 (st 6)) = true ∧ issues (.yield (yieldImm 0x1F)) (last (switching 2 (st 6))) = true ∧
    ((switching 2 (st 6)).launch 0).csetn = 2 ∧ ((switching 0 (st 6)).launch 0).csetn = 0 ∧ (st 6).cur.inClause = true ∧ (st 6).cur.atLast = false := by
  decide +kernel

theorem witness_YieldAndPhase_switch :
    let s := last (switching 2 (st 6))
    s.cur.atLast = true ∧ s.cur.ctx ∉ s.sch.stopping ∧ s.agedRecord s.cur.core = false ∧ s.agedTask s.cur.core = false := by decide +kernel

theorem witness_YieldAndPhase_handler :
    let s := { switching 2 (st 6) with cur := { (st 6).cur with hmode := true } }
    issues (.yield (yieldImm 0)) s = true ∧ issues (.phase (phaseImm 0 (.pos 0))) s = true := by decide +kernel

theorem witness_YieldAndPhase_phase :
    (∀ a ∈ [Opd.pos 0, .pos 4, .reg 2], issues (.phase (phaseImm 7 a)) (switching 2 (st 6)) = true) ∧
    (switching 2 (st 6)).csOk (inlineCs (.pos 7)) = false ∧ (switching 2 (st 6)).csOk (inlineCs (.pos 1)) = true ∧ (switching 2 (st 6)).jcaFault 0 = none ∧
    (let s := last (switching 2 (st 6))
     let t := { s with cur := { s.cur with place := some 31 } }
     issues (.phase (phaseImm 1 (.pos 0))) t = true ∧ t.cur.atLast = true ∧ t.cur.inflight = [] ∧ t.cur.wc = none ∧ t.cur.srcS (.pos 0) = 0) := by
  decide +kernel

theorem test_yield : (after (.yield (yieldImm 0x12)) (switching 2 (st 6))).cur.dline = 768 ∧
    (after (.yield (yieldImm 0x12)) (switching 2 (st 6))).cur.endSwitch = some (0, 1, 0, false) := by decide +kernel

/-- s8 names task queue 2; its indices; the group's launch. -/
def spawning (wr : BitVec 32) (q : Word) : State :=
  let s := tabled (switching 0 (st 6))
  { s with cur := s.cur.swrite 8 q, sch := { s.sch with taskQs := [⟨0, 2, dataVa, 4, 0, 0, wr⟩] } }

def spawnWord : I24 := i24 (.reg 8) (.pos 0) 0

theorem witness_SpawnAndSystem :
    (∀ s ∈ [spawning 16 2, spawning 15 2, spawning 0 1], issues (.spawn spawnWord) s = true ∧ (s.cur.sread 8).toNat < 2 ^ 17 ∧ s.cur.srcS (.pos 0) = 0 ∧
      s.cur.wc = none ∧ s.cur.mayRelease 3 = true) ∧
    (let e := (spawning 16 2).qword 0 2 0
     Qw.type e = 2 ∧ Qw.en e = true ∧ Qw.err e = false) ∧ Qw.type ((spawning 0 1).qword 0 1 0) = 3 ∧
    ((spawning 16 2).taskQ? 0 2).map (fun q => decide (2 ^ q.logsz ≤ (q.wrix - q.rdix).toNat)) = some true ∧
    ((spawning 15 2).taskQ? 0 2).map (fun q => decide ((q.wrix - q.rdix).toNat < 2 ^ q.logsz)) = some true ∧
    issues (.nop bare) (st 6) = true ∧ issues (.sysr (i16 (.reg 5) .absent .absent 0x106)) (st 6) = true ∧ issues (.sysw (i16 .absent (.reg 1) .absent 0xC)) (st 6) = true ∧
    issues (.resume bare) (st 6) = true := by decide +kernel

/-- Its ring stands in the mapped page, the line of its last slot in the L2. -/
def spawnReady : State :=
  let s := spawning 15 2
  { s with mgmt := mappedMgmt, cores := [(0, { s.core 0 with tlb := [mappedTlb] })], coh := { s.coh with l2 := s.coh.l2 ++ [⟨8199, 0, 0, 0, [], false⟩] } }

/-- The record of SPAWN can be written there. -/
theorem witness_SpawnAndSystem_spawn : issues (.spawn spawnWord) spawnReady = true ∧ ((spawnReady.taskQ? 0 2).map fun q => q.slotVa q.wrix) = some (dataVa + 64 * 15) ∧
    ∃ v, (spawnReady.raiseClocks spawnReady.cur 3).writeVaWords spawnReady.cur.waiter 0 (dataVa + 64 * 15)
      (taskRecord (immTarget spawnReady.cur 0) (spawnReady.cur.sread 59) 0 1 0 0x3FF 0 0 (spawnReady.cur.sread 9) (spawnReady.cur.sread 10)
        (spawnReady.cur.sread 11) (spawnReady.launch 0).lseq (spawnReady.launch 0).lqh) = .ok v :=
  ⟨by decide +kernel, by decide +kernel, writeVaWords_mapped _ _ (by decide +kernel)⟩

/-- A handler whose frame and latch image stand in the code window; the frame's PC is 0x4000 and its position 2, and the clause there has the words
`ws`. -/
def resuming (ws : List Word) : State :=
  let s := withCode (st 6) ([0x4000, 0x2000000000000000, 6, 0, 1, 0] ++ List.replicate 1530 0)
  { s with
    cur := { s.cur with hmode := true, image := [.s 5, .none] }, mgmt := [(Reg.trans 0 0, 1), (Reg.contain 0 0, codeVa ||| 1)]
    cores := [(0, { s.core 0 with icache := [⟨0, 128, Vector.ofFn fun i : Fin 16 => ws.getD i.val 0⟩] })] }

def nopWord : Word := 0xD14077FFFFFFFFFF

/-- A clause of three words, one that is malformed at once and one too short for position 2. -/
def clause3 : List Word := [Header.mk 6 3 0, nopWord, nopWord, nopWord]
def clauseBad : List Word := [nopWord]
def clause1 : List Word := [Header.mk 6 1 0, nopWord]

theorem witness_SpawnAndSystem_resume : ∀ ws ∈ [clause3, clauseBad, clause1], issues (.resume bare) (resuming ws) = true ∧ (resuming ws).cur.hmode = true ∧
    (resuming ws).cur.inflight = [] ∧ touches ((resuming ws).touchWords ((resuming ws).frameAddr (resuming ws).cur) .load 48) 48 = true := by decide +kernel

/-- What the frame's words leave. -/
def framed (ws : List Word) : State :=
  match (resuming ws).touchWords ((resuming ws).frameAddr (resuming ws).cur) .load 48 with
  | .ok u _ => u.clearVerdicts u.cur.waiter
  | _ => State.reset

theorem witness_SpawnAndSystem_clause :
    (∀ ws ∈ [clause3, clauseBad, clause1], (framed ws).missing { (framed ws).cur with pc := 0x4000 } = none) ∧
    (framed clause3).clauseWords { (framed clause3).cur with pc := 0x4000 } = some (Header.mk 6 3 0, [nopWord, nopWord, nopWord]) ∧ clauseFault 0x4000 (Header.mk 6 3 0) [nopWord, nopWord, nopWord] = none ∧ 2 ≤ Header.count (Header.mk 6 3 0) ∧
    ((framed clauseBad).clauseWords { (framed clauseBad).cur with pc := 0x4000 }).isSome = true ∧ clauseFault 0x4000 nopWord [] = some 0 ∧ clauseFault 0x4000 (Header.mk 6 1 0) [nopWord] = none ∧
    ((framed clause1).clauseWords { (framed clause1).cur with pc := 0x4000 }).isSome = true ∧ Header.count (Header.mk 6 1 0) < 2 := by decide +kernel

/-! A read of many words through the code window changes nothing but the L1 and succeeds, by induction. -/

/-- The L1 holds only lines of the window, with nothing to write back, and nothing is translated through a TLB. -/
def Clean (s : State) (c : BitVec 10) : Prop := (∀ x ∈ (s.core c).l1, x.st = .m ∧ x.dirty = 0 ∧ x.poison = 0) ∧ (s.core c).tlb = []

def Same (s t : State) (c : BitVec 10) : Prop := t = { s with cores := t.cores } ∧ Clean t c ∧ (t.core c).icache = (s.core c).icache

theorem Same.trans {s t u : State} {c : BitVec 10} (a : Same s t c) (b : Same t u c) : Same s u c := by
  refine ⟨?_, b.2.1, b.2.2.trans a.2.2⟩
  rw [b.1, a.1]

theorem Same.rfl {s : State} {c : BitVec 10} (h : Clean s c) : Same s s c := ⟨Eq.refl s, h, Eq.refl _⟩

theorem Same.of_core {s : State} {c : BitVec 10} (h : Clean s c) (l : List L1Line) (hl : ∀ x ∈ l, x.st = .m ∧ x.dirty = 0 ∧ x.poison = 0) :
    Same s (s.setCore c { s.core c with l1 := l }) c :=
  ⟨Eq.refl _, ⟨by rw [State.setCore_core]; exact hl, by rw [State.setCore_core]; exact h.2⟩, by rw [State.setCore_core]⟩

theorem dropL1_same {s : State} {c : BitVec 10} (h : Clean s c) (line : Nat) : Same s (s.dropL1 c line) c :=
  .of_core h _ fun x hx => h.1 x (List.mem_of_mem_filter hx)

theorem evictL1_same {s : State} {c : BitVec 10} (h : Clean s c) (slot : BitVec 3) (line : Nat) : Same s (s.evictL1 c slot line) c := by
  unfold State.evictL1
  split
  · exact .rfl h
  · rename_i l hl
    obtain ⟨h1, h2, -⟩ := h.1 l (List.mem_of_find?_eq_some hl)
    simp only [h1, h2, State.sendMerge, if_true]
    exact dropL1_same h line

theorem installL1_same {s : State} {c : BitVec 10} (h : Clean s c) (slot : BitVec 3) (l : L1Line) (hl : l.st = .m ∧ l.dirty = 0 ∧ l.poison = 0) :
    Same s (s.installL1 c slot 0 l) c := by
  have d := dropL1_same h l.line
  have e : ∀ u, Same s u c → Same s (u.setCore c { u.core c with l1 := l :: (u.core c).l1 }) c := fun u hu =>
    hu.trans (.of_core hu.2.1 _ fun x hx => by
      rcases List.mem_cons.1 hx with rfl | hx
      · exact hl
      · exact hu.2.1.1 x hx)
  unfold State.installL1
  simp only [show ¬ (0 : BitVec 2) = 1 by decide, if_false]
  split
  · exact e _ d
  · split
    · exact e _ (d.trans (evictL1_same d.2.1 slot _))
    · exact d

theorem installPlain_same {s : State} {c : BitVec 10} (h : Clean s c) (slot : BitVec 3) (line : Nat) (v : BitVec 4) (d : LineData) :
    Same s (s.installPlain c slot 0 line v false d 0) c := by
  unfold State.installPlain
  refine installL1_same h slot _ ?_
  split
  · rename_i x hx
    obtain ⟨h1, h2, h3⟩ := h.1 x (List.mem_of_find?_eq_some hx)
    simp only [h1, h2, h3]
    simp
  · simp

/-- A read of a word of the window is performed at once. -/
theorem performWindow_same {s : State} {g : Group} (h : Clean s g.core) (a : Access) (l : LaneAcc) (ha : a.op = .load false) (hh : a.hint = 0)
    (h1 : 2 ^ 52 ≤ l.pa) (h2 : l.pa < 2 ^ 53) : ∃ u v, s.performWindow g a l = (u, l.finish v) ∧ Same s u g.core := by
  have hl2 : ¬ 2 ^ 53 ≤ 128 * (l.pa / 128) := by omega
  have hl3 : ¬ 2 ^ 53 ≤ l.pa := by omega
  have hlt : ¬ l.pa < 2 ^ 52 := by omega
  have ap (d : LineData) : a.apply l d 0 = .ok (d, 0, 0, lineBytes d (l.pa % 128) a.width) := by
    have e : a.newValue l (lineBytes d (l.pa % 128) a.width) = none := by simp [Access.newValue, ha]
    simp [Access.apply, e]
  have sm (u : State) (d : LineData) : u.applySm g a l d 0 = (u, l.finish (lineBytes d (l.pa % 128) a.width)) := by
    simp only [State.applySm, ap, Access.drops, hlt, decide_false, Bool.and_false, Bool.false_eq_true, if_false, Access.writes, ha]
  unfold State.performWindow
  simp only [hh, show ¬ (0 : BitVec 2) = 3 by decide, if_false]
  cases hx : s.smHit g l with
  | some x =>
    have hx' : s.l1? g.core (l.pa / 128) = some x := by
      unfold State.smHit at hx
      cases e : s.l1? g.core (l.pa / 128) with
      | none => rw [e] at hx; cases hx
      | some y =>
        rw [e] at hx
        simp only [Option.filter] at hx
        split at hx
        · exact hx
        · cases hx
    have hp := (h.1 x (List.mem_of_find?_eq_some hx')).2.2
    have ht : Same s (s.touchHit g.core (l.pa / 128) 0) g.core := by
      unfold State.touchHit
      simp only [show ¬ (0 : BitVec 2) = 1 by decide, show ¬ (0 : BitVec 2) = 2 by decide, if_false, State.touchL1]
      split
      · rename_i y hy
        exact .of_core h _ fun z hz => by
          rcases List.mem_cons.1 hz with rfl | hz
          · exact h.1 z (List.mem_of_find?_eq_some hy)
          · exact h.1 z (List.mem_of_mem_filter hz)
      · exact .rfl h
    simp only [hp, sm]
    exact ⟨_, _, rfl, ht⟩
  | none =>
    simp only [State.heldAt, hl3, hlt, if_false, decide_false, Bool.false_and, Bool.false_eq_true, State.windowLine, hl2, sm]
    exact ⟨_, _, rfl, installPlain_same h ..⟩

theorem touchWords_window (n : Nat) {s : State} (h : Clean s s.cur.core) (hc : s.mmu.sects = []) (hw : s.awaits s.cur.waiter = false)
    (ht : ∀ va, s.ten s.cur.ctx va = true) (top : Nat) (hk : ∀ k, k / 8 < top → (s.codeAt k).isSome = true) (hm : top ≤ 2 ^ 31) (va : Word)
    (ha : codeWindow ≤ va.toNat ∧ va.toNat % 8 = 0 ∧ va.toNat + 8 * n ≤ codeWindow + 8 * top) :
    ∃ u ws, s.touchWords va .load n = .ok u ws ∧ Same s u s.cur.core := by
  induction n generalizing s va with
  | zero => exact ⟨s, [], rfl, .rfl h⟩
  | succ n ih =>
    obtain ⟨a1, a2, a3⟩ := ha
    have hcw : codeWindow = 0x3F00000000000 := rfl
    have h1 : canonical va = true := by
      have : bits va 63 50 = 0 := by
        unfold bits
        rw [Nat.shiftRight_eq_div_pow, Nat.div_eq_of_lt (by omega)]
        rfl
      simp only [canonical, this, decide_true, Bool.true_or]
    have h2 : inCodeWindow va = true := by
      simp only [inCodeWindow, Bool.and_eq_true, decide_eq_true_eq]
      omega
    obtain ⟨w, hw'⟩ := Option.isSome_iff_exists.1 (hk (va.toNat - codeWindow) (by omega))
    have hr : va.toNat - codeWindow < 2 ^ 34 := by omega
    have h5 : (va + 8).toNat = va.toNat + 8 := by
      rw [BitVec.toNat_add]
      exact Nat.mod_eq_of_lt (by
        have : (8 : Word).toNat = 8 := rfl
        omega)
    obtain ⟨off, ho⟩ : ∃ o, o = va.toNat - codeWindow := ⟨_, rfl⟩
    rw [← ho] at hr hw'
    have hpast : s.pastCode (2 ^ 52 + off) (2 ^ 3) = false := by
      have e : 2 ^ 52 + off - 2 ^ 52 + (2 ^ 3 - 1) = off + 7 := by omega
      have e2 := hk (off + 7) (by omega)
      simp only [State.pastCode, e]
      cases hc7 : s.codeAt (off + 7) with
      | none => rw [hc7] at e2; cases e2
      | some _ => simp
    have hx : s.translateN s.cur.waiter s.cur.ctx va (2 ^ 3) .load = .ok (2 ^ 52 + off) .wb false := by
      simp only [State.translateN, State.translate, State.translateCode, h1, ht, h2, ← ho, hw', AccKind.writes]
      simp only [Bool.not_true, Bool.false_eq_true, if_false, if_true, hpast]
    have hl0 : s.checkLane va 3 .load false false = .ok (2 ^ 52 + off) .wb false := by
      have e : ¬ 2 ^ 52 + off < 2 ^ 52 := by omega
      simp only [State.checkLane, show ¬ va.toNat % 2 ^ 3 ≠ 0 by omega, if_false, hw, hx, e, decide_false, Bool.false_and]
      rfl
    have hn : s.touchTlb s.cur.waiter s.cur.ctx va = s := by
      simp only [State.touchTlb, Group.waiter, Waiter.core?, h.2, List.find?_nil, State.tlb?, State.sect, hc, Tab.get]
    obtain ⟨u, v, hu, hs⟩ := performWindow_same (g := s.cur) h
      ⟨0, 0, .load false, 0, 3, laneNow va (2 ^ 52 + off) .wb false 0 :: [], .none, s.cur.pc, s.cur.cpos, false, 0, false,
        decide (s.viral s.cur.ctx), false, s.timebase⟩ (laneNow va (2 ^ 52 + off) .wb false 0) rfl rfl
      (Nat.le_add_right ..) (show 2 ^ 52 + off < 2 ^ 53 by omega)
    have hl : s.laneOf s.cur (.load false) 0 3 (laneNow va (2 ^ 52 + off) .wb false 0) [] false =
        (u, (laneNow va (2 ^ 52 + off) .wb false 0).finish v) := by
      unfold State.laneOf
      exact (if_pos (Nat.le_add_right .. : 2 ^ 52 ≤ 2 ^ 52 + off)).trans hu
    have e := hs.1
    have hcore : u.cur.core = s.cur.core := by rw [e]
    obtain ⟨x, ws, hx2, hs2⟩ := ih (s := u) (by rw [hcore]; exact hs.2.1) (by rw [e]; exact hc) (by rw [e]; exact hw)
      (by rw [e]; exact ht) (by rw [e]; exact hk) (va + 8) (by omega)
    refine ⟨x, (((laneNow va (2 ^ 52 + off) .wb false 0).finish v).res.extractLsb' 0 64) :: ws, ?_, hs.trans (hcore ▸ hs2)⟩
    unfold State.touchWords at hx2 ⊢
    unfold State.touchWordsAs
    simp only [hl0, hn, hl]
    simp only [laneNow, LaneAcc.finish, hx2]
    rfl

/-- What the reads need of the state before the image. -/
def imageable (s : State) : Bool :=
  decide ((s.core s.cur.core).tlb = [] ∧ s.mmu.sects = [] ∧ s.mmu.stale = [] ∧ s.reg (Reg.trans s.cur.ctx.toNat 0) = 1 ∧ s.frameAddr s.cur = codeVa) &&
    !s.cur.behind && !s.awaits s.cur.waiter && (s.core s.cur.core).l1.all (fun x => decide (x.st = .m ∧ x.dirty = 0 ∧ x.poison = 0)) &&
    (match Tab.get none s.cxl.kernels 0 with
     | some k => k.code.length == 1536
     | none => false)

/-- The image can be read, and the clause at the frame's PC is still in the instruction cache, with the same words. -/
theorem image_read {s : State} (h : imageable s = true) : s.cur.behind = false ∧
    ∃ u ws, s.touchWords (s.frameAddr s.cur + 0x1000) .load 1024 = .ok u ws ∧
      u.missing { u.cur with pc := 0x4000 } = s.missing { s.cur with pc := 0x4000 } ∧
      u.clauseWords { u.cur with pc := 0x4000 } = s.clauseWords { s.cur with pc := 0x4000 } := by
  unfold imageable at h
  simp only [Bool.and_eq_true, Bool.not_eq_true', decide_eq_true_eq, List.all_eq_true] at h
  obtain ⟨⟨⟨⟨⟨h1, h2, h3, h4, h5⟩, h6⟩, h7⟩, h8⟩, h9⟩ := h
  suffices hs : ∃ u ws, s.touchWords (s.frameAddr s.cur + 0x1000) .load 1024 = .ok u ws ∧ Same s u s.cur.core by
    obtain ⟨u, ws, hu, hs⟩ := hs
    have hc : u.cur = s.cur := by rw [hs.1]
    have hk (o : Nat) : u.codeAt o = s.codeAt o := by
      rw [hs.1]
      rfl
    have hf (c : BitVec 12) (va : Word) : u.fetched s.cur.core c va = s.fetched s.cur.core c va := by
      simp only [State.fetched, hk, hs.2.2]
    refine ⟨h6, u, ws, hu, ?_, ?_⟩
    · simp only [State.missing, hc, hf]
    · simp only [State.clauseWords, hc, hf]
  refine touchWords_window 1024 ⟨h8, h1⟩ h2 h7 (fun va => ?_) 1536 (fun k hk => ?_) (by decide) _ ?_
  · have e : bit (1 : Word) 0 = true := by decide
    simp only [State.ten, State.transWord, h3, Tab.get]
    exact h4 ▸ e
  · have hz : k / 2 ^ 24 = 0 := by omega
    have hm : k % 2 ^ 24 = k := by omega
    unfold State.codeAt
    rw [hz, hm]
    split
    · rename_i y hy
      rw [hy] at h9
      have hl : y.code.length = 1536 := by simpa using h9
      rw [List.getElem?_eq_getElem (by omega)]
      rfl
    · rename_i hy
      rw [hy] at h9
      exact absurd h9 (by decide)
  · rw [h5]
    decide +kernel

theorem witness_SpawnAndSystem_image : ∀ ws ∈ [clause3, clauseBad, clause1], imageable (framed ws) = true := by decide +kernel

/-- R113: what RESUME takes from the words of a frame and a latch image of zeros. -/
theorem test_resume :
    let g := (resuming clause3).cur.resumeFrom ([0x4000, 0x2000000000000000, 6, 0, 1, 0] ++ List.replicate 42 0) (List.replicate 1024 0)
    g.pc = 0x4000 ∧ g.cpos = 2 ∧ g.hmode = false ∧ g.k = 6 ∧ g.pred 0 = true ∧ g.latches.length = 2 := by decide +kernel

/-! Messages of the mesh about the first line of the mapped page, from access 7 of the group in slot 0 of core 0. -/

def meshMsg (k : MsgKind) (due : Word) : Msg := ⟨k, 8192, 15, 0, 0, 7, 0, due, false⟩

def meshed (k : MsgKind) (h : HomeSt) (due : Word := 0) : State :=
  let s := st 3
  { s with coh := { s.coh with msgs := [meshMsg k due], homes := [(8192, ⟨h, 4, 9, none, 0, false, []⟩)], l2 := [⟨8192, 5, 0, 0, [], false⟩] } }

/-- An atomic addition still to be performed on the line. -/
def farAdd : Access :=
  ⟨7, 5, .atom 0 true, 3, 3, [⟨96, dataVa, 2 ^ 20, .wb, 1, 0, 0, false, none, false⟩], .s 6 1, 0x1000, 0, false, 0, false, false, false, 0⟩

def farMeshed : State := { meshed .far .i with cur := { (st 3).cur with inflight := [farAdd] } }

theorem witness_CoherenceRequests :
    (∀ k ∈ [MsgKind.renewal, .upgrade 4, .upgrade 3, .readEx, .far], (meshed k .i).coh.msgs[0]? = some (meshMsg k 0) ∧ (meshed k .i).commitHolds 8192 = false ∧
      ((meshed k .i).home 8192).st.stable = true ∧ ((meshed k .i).home 8192).rsv = none ∧ ((meshed k .i).home 8192).wts = 4 ∧
      (meshed k .i).split 8192 = false ∧ (meshed k .i).mergeAhead (meshMsg k 0) = false ∧
      (meshed k .i).smOf (meshMsg k 0) = false ∧ (meshed k .i).keepsOut (meshMsg k 0) ((meshed k .i).hintOf (meshMsg k 0)) = false ∧
      (meshed k .i).groups.all (fun g => g.region.isNone) = true ∧ (meshed k .i).l1? 0 8192 = none ∧ (meshed k .i).coh.msgs.length = 1 ∧
      ((meshed k .i).l2? 8192).map (fun l => l.nc) = some false ∧
      farBehind 4 (max48 (Tab.get 0 (meshed k .i).coh.sliceTs (homeSlice 8192)) (max48 9 (max48 ((meshed k .i).ptsOf (meshMsg k 0) + (meshed k .i).lease)
        (4 + (meshed k .i).lease)))) = false ∧
      (∀ wr ∈ [true, false], (meshed k .i).outsideHolds (.group 0 0) (2 ^ 20) 128 wr = false) ∧ ((meshed k .i).l2? 8192).isSome = true) ∧
    ((meshed .renewal (.up 3)).home 8192).st.stable = false ∧ ((meshed .readEx (.e 5)).home 8192).st = .e 5 ∧
    (farMeshed.cur.at 0 0 = true ∧ farMeshed.cur.inflight = [farAdd] ∧ farAdd.id = 7 ∧ farAdd.dropped = false ∧ farAdd.writes = true ∧ farMeshed.outsideHolds (.group 0 0) (farAdd.span (meshMsg .far 0)).1 (farAdd.span (meshMsg .far 0)).2 true = false) ∧
    (meshed (.refusedReq 0 0) .i 0).clock 0 = 0 := by decide +kernel

/-- R205: the addition is performed on the L2 copy at a new timestamp. -/
theorem test_far_atomic : ((after .farAtomicArrival farMeshed).l2? 8192).map (fun l => l.data) = some 6 ∧
    ((after .farAtomicArrival farMeshed).home 8192).wts = 10 ∧ (after .farAtomicArrival farMeshed).coh.msgs = [] := by decide +kernel

/-- The same line in core 3's L1 as well. -/
def held3 (s : State) (x : L1St) : State :=
  { s with cores := [(3, { Core.idle with l1 := [⟨8192, x, 4, 20, 6, 0xF, 0, 0, false⟩] })] }

theorem witness_CoherenceAnswers :
    ((held3 (meshed (.forward 3) (.fw 0 3)) .e).l1? 3 8192).map (fun x => x.st) = some .e ∧
    ((held3 (meshed (.forward 3) (.fw 0 3)) .s).l1? 3 8192).map (fun x => x.st) = some .s ∧
    (∀ k ∈ [MsgKind.answerData 6 0 4 20, .answerGone], ((meshed k (.fw 0 3)).home 8192).st = .fw 0 3 ∧ ((meshed k (.fw 0 3)).l2? 8192).isSome = true ∧
      ∀ x ∈ (meshed k (.fw 0 3)).coh.msgs, x.kind.isWriteback = false) ∧
    (meshed (.grant none 0 4 9) (.up 0)).coh.msgs[0]? = some (meshMsg (.grant none 0 4 9) 0) ∧
    ((meshed .ack (.up 0)).home 8192).st = .up 0 ∧ ((meshed .ack (.rx 0)).home 8192).st = .rx 0 ∧
    ((meshed (.writeback 6 0xF 0 5 20) (.e 0)).home 8192).st = .e 0 ∧ (meshed .ack (.up 0)).commitHolds 8192 = false := by decide +kernel

/-- An acknowledgement of access 7 under way. -/
def acked : State :=
  let s := { loaded with cur := { loaded.cur with inflight := [{ oneLoad with acks := 1 }] } }
  { s with coh := { s.coh with acks := [⟨5, 0, 0, [7], none, false, []⟩] }, ev := { Ev.none with a := 5 } }

/-- A UC store of one lane, to a target of the second tier, that awaits its acknowledgement. -/
def targetStore : Access :=
  ⟨7, 5, .store, 0, 2, [⟨96, 0x4000000010, 2 ^ 48 + 16, .uc, 0xAABBCCDD, 0, 0, false, none, false⟩], .none, 0x1000, 0, false, 1, false, false, false, 0⟩

def targetAcked : State :=
  let s := { loaded with cur := { loaded.cur with inflight := [targetStore] } }
  { s with coh := { s.coh with acks := [⟨5, 0, 0, [7], some (2 ^ 41, 0xAABBCCDD * 2 ^ 128, 0xF0000, 0), false, [(96, 0x4000000010)]⟩] }, ev := { Ev.none with a := 5 } }

theorem witness_CoherenceAnswers_target :
    (acked.coh.acks.find? (fun y => y.id = acked.ev.a) = some ⟨5, 0, 0, [7], none, false, []⟩ ∧ acked.cur.at 0 0 = true ∧
      acked.cur.life = .running ∧ acked.storeHeld acked.cur 7 = false ∧ acked.cur.inflight.all (fun a => !a.open) = true) ∧
    (targetAcked.coh.acks.find? (fun y => y.id = targetAcked.ev.a) =
        some ⟨5, 0, 0, [7], some (2 ^ 41, 0xAABBCCDD * 2 ^ 128, 0xF0000, 0), false, targetStore.lanes.map fun l => (l.lane, l.va)⟩ ∧
      targetAcked.cur.at 0 0 = true ∧ targetAcked.cur.life = .running ∧ targetAcked.coh.acks.length = 1 ∧ targetAcked.coh.msgs = [] ∧
      targetAcked.cur.wc = none ∧ targetAcked.cur.inflight = [targetStore] ∧ targetStore.id = 7 ∧ targetStore.op = .store ∧ targetStore.dst = .none ∧
      targetStore.acks = 1 ∧ targetStore.lanes ≠ [] ∧ targetStore.lanes.all (fun l => decide (l.fault = none)) = true ∧ (targetAcked.home (2 ^ 41)).st = .i) := by
  decide +kernel

/-- R203: only the bytes the mask names are taken from a write-back. -/
theorem test_writeback : ((after .homeWriteback (meshed (.writeback 0x0606 1 0 5 20) (.e 0))).l2? 8192).map (fun l => l.data) = some 6 ∧
    ((after .homeWriteback (meshed (.writeback 0x0605 2 0 5 20) (.e 0))).l2? 8192).map (fun l => l.data) = some 0x605 ∧
    ((after .homeWriteback (meshed (.writeback 6 1 0 5 20) (.e 0))).home 8192).st = .i := by decide +kernel

/-- A group at the boundary of the clause at 0x1000, whose header and instructions the cache holds. -/
def bounded (hdr : Word) (ws : List Word) : State :=
  let s := st 0
  { s with
    cur := { s.cur with inClause := false, hdr := 0 }
    cores := [(0, { Core.idle with icache := [⟨0, 32, Vector.ofFn fun i : Fin 16 => (hdr :: ws).getD i.val 0⟩] })] }

theorem witness_PortEvents_start :
    ((bounded (Header.mk 6 1 0) [nopWord]).core 0).holder = none ∧ (bounded (Header.mk 6 1 0) [nopWord]).clockRuns 0 = true ∧
    (let s := bounded (Header.mk 6 1 0) [nopWord]
     s.cur.life = .running ∧ s.cur.late = none ∧ s.cur.cpos = 0 ∧ s.stopping s.cur = false ∧ s.cur.endSwitch = none ∧ s.cur.dueViral = false ∧
     s.cur.dueBudget = false ∧ s.cur.dueSpill = false ∧ s.cur.wait = none ∧ s.parked = [] ∧ s.halted s.cur = false ∧
     (s.clauseWords s.cur).isSome = true ∧ Header.ok (Header.mk 6 1 0) = true ∧ s.cur.maskWait (Header.mk 6 1 0) = none ∧
     clauseFault s.cur.pc (Header.mk 6 1 0) [nopWord] = none) ∧
    (clauseFault 0x1000 (Header.mk 6 2 0) [nopWord, 0x000077010285FF04 ||| 0x3000000000000000] = some 1) ∧
    (Header.ok nopWord = false ∧ ((bounded nopWord []).clauseWords (bounded nopWord []).cur).isSome = true) ∧
    ({ (pending 0).cur with inClause := false }.maskWait (Header.mk 0 1 1) = some 0) ∧
    ({ Core.idle with holder := some 3 } : Core).holder.isSome = true := by decide +kernel

/-- R254, R258: the clause starts; one whose second word is of a group its class does not allow traps there. -/
theorem test_clause_start : (after .clauseStart (bounded (Header.mk 6 1 0) [nopWord])).cur.inClause = true ∧
    ((after .clauseStart (bounded (Header.mk 6 1 0) [nopWord])).core 0).holder = some 0 ∧
    ((after .clauseStart (bounded (Header.mk 6 2 0) [nopWord, 0x300077010285FF04])).launch 0).fkind = 0x12 := by decide +kernel

/-- Nothing cached, the pc in the code window or with translation off. -/
def missing (ten : Word) (pc : Word) : State :=
  let s := withCode (st 0) [1, 2, 3, 4, 5, 6, 7, 8, 9, 10, 11, 12, 13, 14, 15, 16]
  { s with cur := { s.cur with inClause := false, hdr := 0, pc := pc }, mgmt := [(Reg.trans 0 0, ten)] }

theorem missing_misses (ten pc : Word) (h : pc.toNat % 8 = 0) (hf : (missing ten pc).fetched 0 0 pc = none) :
    (missing ten pc).missing (missing ten pc).cur = some pc := by
  have e : (missing ten pc).cur.pc = pc := rfl
  unfold State.missing
  rw [e, if_neg (by omega), show (missing ten pc).cur.core = 0 from rfl, show (missing ten pc).cur.ctx = 0 from rfl, hf]

theorem witness_PortEvents_fill :
    ((missing 0 0x1000).cur.at 0 0 = true ∧ (missing 0 0x1000).cur.life = .running) ∧ ((missing 1 codeVa).cur.at 0 0 = true ∧ (missing 1 codeVa).cur.life = .running) ∧
    (missing 0 0x1000).missing (missing 0 0x1000).cur = some 0x1000 ∧ (missing 1 codeVa).missing (missing 1 codeVa).cur = some codeVa ∧
    (∃ f, (missing 0 0x1000).checkLane 0x1000 3 .fetch false false = .bad f) ∧
    (missing 1 codeVa).checkLane codeVa 3 .fetch false false = .ok (2 ^ 52) .wb false ∧
    (missing 1 codeVa).heldAt (.group 0 0) (2 ^ 52) 128 false false = false := by
  refine ⟨by decide +kernel, by decide +kernel, missing_misses _ _ (by decide) rfl, missing_misses _ _ (by decide) rfl, ⟨⟨0x1000, 2, 3, false, false, 8, 0⟩, by decide +kernel⟩,
    by decide +kernel, by decide +kernel⟩

theorem witness_PortEvents_watchdog :
    (let s := { bounded (Header.mk 6 1 0) [nopWord] with cur := { (st 0).cur with dline := 0 } }
     s.cur.at 0 0 = true ∧ s.cur.life = .running ∧ s.cur.inClause = true ∧ s.cur.dline = 0 ∧ s.cur.hmode = false ∧ Sys2Proof.Machine.yieldWord (s.waitWord s.cur) = false) ∧
    (st 0).cur.dline ≠ 0 := by decide +kernel

/-- An idle slot 1 on core 0, and a place that is ready for it: one never started, or one whose record stands in memory. -/
def picking (fresh : Bool) : State :=
  let s := padded
  { s with
    sch := { s.sch with places := [⟨0, 4, 0, 0, 2, 0, 0, 0, some 0, 0, false, none, none, 0, Vector.replicate 8 0, 0, [], 1, fresh⟩] }
    ev := { Ev.none with b := 1 } }

theorem witness_PortEvents_pick : (∀ f ∈ [true, false], (picking f).group? 0 1 = none ∧ (picking f).restoreSaved 0 1 = none ∧ (∀ i, i < 1 → (picking f).finds 0 i = false) ∧
      ((picking f).pickPhase 0 1).map (fun p => (p.fresh, p.carve)) = some (f, none) ∧ ((picking f).sch.teams.find? fun t => t.key = 0).map (fun t => t.core) = some 0) ∧
    ((picking true).group? 0 0).isSome = true := by decide +kernel

/-- One parallel launch of two clusters of 16 × 12 cores, to be placed; core 0 is in use or no section is free. -/
def placing (free : Bool) : State :=
  let s := State.reset
  let l : Launch := { Launch.none with words := [0, 0x1234, 2 * 2 ^ 48 + 2 ^ 32 + 2 ^ 16, (15 * 2 ^ 60) + 11 * 2 ^ 56 + 96 * 2 ^ 46 + 2 * 2 ^ 36] }
  { s with sch := { s.sch with launches := [(7, l)] }, mgmt := if free then [] else [(Reg.sched 0 0, 0)] }

theorem witness_SchedulerEvents_place : (placing true).toPlace = [7] ∧ ((placing true).launch 7).concurrent = false ∧ (placing false).tryPlace 7 = none ∧
    (placing false).toPlace = [7] ∧ ((((placing true).sectionOrder 0).filterMap fun z => ((placing true).findRect ((placing true).launch 7) z).map fun p => (z, p)).head?).isSome = true := by
  decide +kernel

def sched (c : Nat) (w1 w3 : Word) (l : List (BitVec 12)) : State :=
  let s := st 0
  { s with mgmt := [(Reg.sched c 8, w1), (Reg.sched c 24, w3)], ev := { Ev.none with a := c }, sch := { s.sch with byFirmware := l } }

theorem witness_SchedulerEvents : (sched 5 0 0x2000000000000000 []).suspended 5 = true ∧ (sched 5 0 0 []).suspended 5 = false ∧ (sched 5 0 0 []).sch.stopping = [] ∧
    (∀ g ∈ (sched 5 0 0 []).groups, g.ctx ≠ 5) ∧ (sched 5 0 0 []).enginesStopped 5 = true ∧ (sched 5 0 0 []).cores = [] ∧
    (let s := { sched 0 0 0 [] with cur := { (sched 0 0 0 []).cur with launch := 1 } }
     s.suspended 0 = false ∧ s.sch.stopping = [] ∧ s.parked = [] ∧ s.cur.ctx = 0 ∧ s.cur.launch ≠ 0 ∧ s.cur.life = .running ∧ s.cur.stopsHere = false) ∧ (sched 5 0 0x2000000000000000 []).sch.saved = [] ∧
    (sched 5 0 0 []).regBits (Reg.sched 5 8) 63 32 = 0 ∧ (sched 5 0x100000000 0 []).othersWait 5 = false ∧
    (sched 5 0x100000000 0 [6]).regBits (Reg.sched 5 8) 63 32 ≠ 0 ∧ (∀ x ∈ (sched 5 0x100000000 0 [6]).sch.byFirmware, (sched 5 0x100000000 0 [6]).suspended x = false ∧ x ≠ 5) := by
  decide +kernel

/-- The same at `now`, with a slice begun at 0. -/
def sliced (w1 w3 : Word) (l : List (BitVec 12)) (now : Word) : State := { sched 5 w1 w3 l with timebase := now }

theorem witness_SchedulerEvents_slice : ((sliced 0 0 [] 999999).timebase - Tab.get 0 (sliced 0 0 [] 999999).sch.sliceAt 5).toNat < (sliced 0 0 [] 999999).sliceNs 5 ∧
    (sliced 0 0 [] 1000000).sliceNs 5 ≤ ((sliced 0 0 [] 1000000).timebase - Tab.get 0 (sliced 0 0 [] 1000000).sch.sliceAt 5).toNat ∧
    (sliced 0 0x2000000000000000 [5] 1000000).suspended 5 = true ∧ 5 ∈ (sliced 0 0x2000000000000000 [5] 1000000).sch.byFirmware ∧
    (sliced 0 0x2000000000000000 [] 1000000).suspended 5 = true ∧ 5 ∉ (sliced 0 0x2000000000000000 [] 1000000).sch.byFirmware ∧
    (∀ x ∈ (sliced 0x100000000 0 [5] 2000000).sch.byFirmware, x = 5) ∧ (sliced 0x100000000 0 [5] 2000000).sch.launches = [] ∧
    ((sliced 0x100000000 0 [6] 2000000).regBits (Reg.sched 5 8) 63 32 ≠ 0 ∧ (∃ x ∈ (sliced 0x100000000 0 [6] 2000000).sch.byFirmware, x ≠ 5) ∧
      (sliced 0x100000000 0 [6] 2000000).sliceNs 5 ≤ ((sliced 0x100000000 0 [6] 2000000).timebase - 0).toNat) ∧
    (let s := st 6
     s.suspended 0 = false ∧ s.sch.stopping = [] ∧ s.parked = [] ∧ s.cur.life = .running ∧ s.cur.ctx = 0 ∧ s.cur.blocked = false) := by decide +kernel

def budget (charge : Nat) : State :=
  { st 0 with ev := { Ev.none with a := 3 }, sch := { State.reset.sch with launches := [(3, { Launch.none with charge := charge, words := [0, 0, 0, 0, 2 ^ 32] })] } }

theorem witness_SchedulerEvents_budget : ((budget 1024).launch 3).charge ≤ 1024 * ((budget 1024).launch 3).wbud ∧
    (((budget 1025).launch 3).wbud ≠ 0 ∧ 1024 * ((budget 1025).launch 3).wbud < ((budget 1025).launch 3).charge ∧ ((budget 1025).launch 3).finished = false ∧
      ((budget 1025).launch 3).ending = none ∧ 3 ∉ (budget 1025).sch.overBudget) := by decide +kernel

/-! Expert queues: queue 1 of context 0 with `n` tokens enqueued at time 1 and `r` in the ring at `ring`, served by task queue 2. -/

def expertAt (n : Nat) (r : BitVec 32) (ring : Word) : ExpertQ :=
  ⟨0, 1, #v[0x3800000000000000, 0, 0, 0x2000000002000, ring, 0x2000000000000000, 0, dataVa + 0x4000], List.replicate n ⟨#v[1, 2, 3, 4], 1⟩, 0, r, 0, some 1⟩

/-- Events of the queue, its table in the L2, in cycle `time` of the island of the schedulers, in a round of its own. -/
def expertly (qs : List ExpertQ) (handle : Nat) (time : Word) : State :=
  let s := withCode (tabled (st 5)) [1, 2, 3, 4, 5, 6, 7, 8]
  { s with ev := { Ev.none with b := handle }, pkg := { s.pkg with islands := [(127, { Island.idle 127 with cycles := time })] }, sch := { s.sch with experts := qs, round := [(0, BitVec.ofNat 16 handle)] } }

def ringOk (q : QAcc) : Bool :=
  match q with
  | .ok u ws _ => u.sch.experts == [expertAt 1 1 codeVa] && ws == [1, 2, 3, 4, 5]
  | _ => false

theorem witness_ExpertQueueEvents_bringIn :
    ((expertly [expertAt 1 0 0] 1 0).expert? 0 1).isSome = true ∧ (expertly [] 1 0).expert? 0 1 = none ∧ (expertly [] 2 0).taskQ? 0 2 = none ∧
    (expertly [] 1 0).ev.flag = false ∧ (expertly [] 1 0).sch.taskQs.length + (expertly [] 1 0).sch.experts.length < 512 ∧
    Qw.type ((expertly [] 2 0).entryWords 0 2)[0] = 2 ∧ Qw.type ((expertly [] 5 0).entryWords 0 5)[0] = 0 ∧
    (let w := (expertly [] 1 0).entryWords 0 1
     Qw.type w[0] = 3 ∧ entryMalformed w = false ∧ bits w[6] 63 32 = bits w[6] 31 0 ∧ (expertly [] 1 0).queueSram + 64 + 40 * bits w[3] 23 12 ≤ 2 ^ 20) := by
  decide +kernel

theorem witness_ExpertQueueEvents_refill :
    ((expertAt 2 1 codeVa).rcap ≤ (expertAt 2 1 codeVa).tokens.length) ∧ ((expertAt 1 1 codeVa).tokens.length < (expertAt 1 1 codeVa).rcap) ∧
    (expertAt 1 1 codeVa).ringCount = 1 ∧ (expertly [expertAt 1 1 codeVa] 1 0).expert? 0 1 = some (expertAt 1 1 codeVa) ∧
    ringOk ((expertly [expertAt 1 1 codeVa] 1 0).queueWords (.queue 0 1) 0 ((expertAt 1 1 codeVa).ringVa (expertAt 1 1 codeVa).rrdix) 5) = true := by decide +kernel

theorem witness_ExpertQueueEvents_age :
    (let s := expertly [expertAt 1 0 0] 1 64
     s.expertRuns (expertAt 1 0 0) = true ∧ (expertAt 1 0 0).aged s.clock127 = true ∧ (0, 1) ∉ s.sch.eligible) ∧
    (expertly [expertAt 1 0 0] 1 0).expertRuns { expertAt 1 0 0 with qh := 5 } = false ∧ (expertAt 0 0 0).aged (expertly [expertAt 0 0 0] 1 64).clock127 = false := by
  decide +kernel

def passes (f : Fire) : Bool :=
  match f with
  | .passed _ => true
  | _ => false

theorem witness_ExpertQueueEvents_round : (expertly [expertAt 1 0 0] 1 64).sch.round = [(0, 1)] ∧ State.reset.sch.round = [] ∧
    passes ((expertly [] 1 64).fire 0 1) = true := by decide +kernel

/-- R154: at its fill, the queue is eligible. -/
theorem test_round : (after .firingRoundStart { expertly [expertAt 1 0 0] 1 64 with sch := { (expertly [expertAt 1 0 0] 1 64).sch with round := [] } }).sch.round = [(0, 1)] := by
  decide +kernel

/-- Its task queue resident in the mapped page, at VA dataVa, with 16 slots; the page's tables at PA 0x8000, 0x10000 and 0x18000, the lines
written in the L2. -/
def firing : State :=
  let s := expertly [expertAt 1 0 0] 1 64
  { s with
    mgmt := [(0xB0000, 0x4002), (Reg.trans 0 0, 0x8001)]
    coh := { s.coh with l2 := s.coh.l2 ++ [⟨256, 0x10001, 0, 0, [], false⟩, ⟨640, 0x18001, 0, 0, [], false⟩, ⟨768, 0x10009F, 0, 0, [], false⟩,
      ⟨8192, 0, 0, 0, [], false⟩, ⟨8320, 0, 0, 0, [], false⟩] }
    sch := { s.sch with taskQs := [⟨0, 2, dataVa, 4, 0, 0, 0⟩] } }

/-- What the record of the firing and the batch hold. -/
def firedRecord : List Word :=
  taskRecord (expertAt 1 0 0).entry[1] (expertAt 1 0 0).entry[2] 0 2 0 (expertAt 1 0 0).aff 0 0 ((expertAt 1 0 0).slotVa 0) (BitVec.ofNat 64 1)
    (BitVec.ofNat 64 (expertAt 1 0 0).qh.toNat) 0 0

def firedBatch (now time : Word) : List Word :=
  batchHeader (expertAt 1 0 0) 1 (!(expertAt 1 0 0).filled now) time (age now 1) ++ [⟨#v[1, 2, 3, 4], 1⟩].flatMap fun (t : Token) => t.words.toList

/-- The queue's turn comes to the firing of its token into slot 0. -/
theorem fire_into (s : State) (e1 : s.refill 0 1 4096 = s) (h : (decide (s.expert? 0 1 = some (expertAt 1 0 0)) && s.eligibleQ (expertAt 1 0 0) &&
      decide ((s.batches 0 1).map Prod.fst = []) && (Qw.type (s.qword 0 (expertAt 1 0 0).tqh 0) = 2 && Qw.en (s.qword 0 (expertAt 1 0 0).tqh 0)) &&
      decide ((expertAt 1 0 0).count s.clock127 = 1) && !(s.taskQ? 0 (expertAt 1 0 0).tqh).all TaskQ.full) = true) : s.fire 0 1 = s.fireInto (expertAt 1 0 0) [⟨#v[1, 2, 3, 4], 1⟩] 0 0 := by
  simp only [Bool.and_eq_true, Bool.not_eq_true', decide_eq_true_eq] at h
  obtain ⟨⟨⟨⟨⟨e2, e3⟩, e4⟩, e5, e6⟩, e7⟩, e8⟩ := h
  unfold State.fire
  rw [e1]
  simp only [e2, e3, show (1 : BitVec 16).toNat = 1 from rfl, e4, e5, e6, e7, e8]
  rfl

/-- A batch is written and its record appended. -/
theorem witness_ExpertQueueEvents_fired : ∃ u, firing.fire 0 1 = .fired u := by
  rw [fire_into firing rfl (by decide +kernel)]
  have e7 : firing.taskQ? 0 (expertAt 1 0 0).tqh = some ⟨0, 2, dataVa, 4, 0, 0, 0⟩ := by decide +kernel
  have f1 : ((⟨0, 2, dataVa, 4, 0, 0, 0⟩ : TaskQ).slotVa (⟨0, 2, dataVa, 4, 0, 0, 0⟩ : TaskQ).wrix) = dataVa := by decide +kernel
  have f2 : (⟨0, 2, dataVa, 4, 0, 0, 0⟩ : TaskQ).full = false := rfl
  obtain ⟨v, hv⟩ : ∃ v, firing.appendTask (.queue (expertAt 1 0 0).ctx (expertAt 1 0 0).qh) (expertAt 1 0 0).ctx (expertAt 1 0 0).tqh firedRecord 0 = .done v := by
    obtain ⟨u, hu⟩ := writeVaWords_mapped (s := firing) (who := .queue 0 1) firedRecord dataVa (by decide +kernel)
    unfold State.appendTask
    rw [show (expertAt 1 0 0).ctx = 0 from rfl, e7]
    simp only [f2, f1]
    rw [show (expertAt 1 0 0).qh = 1 from rfl, hu]
    exact ⟨_, rfl⟩
  obtain ⟨w, ts, hw⟩ := queueWrite_mapped (s := firing) (who := .queue 0 1) (firedBatch firing.clock127 firing.timebase) ((expertAt 1 0 0).slotVa 0) 0
    (by decide +kernel)
  have hw' : firing.queueWrite (.queue (expertAt 1 0 0).ctx (expertAt 1 0 0).qh) (expertAt 1 0 0).ctx ((expertAt 1 0 0).slotVa 0) 0
    (batchHeader (expertAt 1 0 0) 1 (!(expertAt 1 0 0).filled firing.clock127) firing.timebase (age firing.clock127 1) ++
      [⟨#v[1, 2, 3, 4], 1⟩].flatMap fun (t : Token) => t.words.toList) = .ok w [] ts := hw
  unfold firedRecord at hv
  unfold State.fireInto
  simp only [List.length_singleton, hv, hw']
  split <;> exact ⟨_, rfl⟩

/-- The page absent: the record waits. -/
def unmapped : State := { firing with coh := { firing.coh with l2 := firing.coh.l2.take 3 ++ [⟨640, 0, 0, 0, [], false⟩] } }

/-- The walk of a requester without a TLB finds nothing. -/
def absentAt (s : State) (who : Waiter) (va : Word) : Bool :=
  bit (s.reg (Reg.trans 0 0)) 0 && decide (s.mmu.stale = []) && decide (s.cxl.gone = []) && canonical va && !inCodeWindow va && decide (s.tlb? who 0 va = none) &&
    decide (who.core? = none) && decide (walkOf s va = .absent)

theorem translate_absent {s : State} {who : Waiter} {va : Word} (h : absentAt s who va = true) (k : AccKind) : s.translate who 0 va k = .walk va k := by
  simp only [absentAt, Bool.and_eq_true, Bool.not_eq_true', decide_eq_true_eq] at h
  obtain ⟨⟨⟨⟨⟨⟨⟨h1, h2⟩, hg⟩, h3⟩, h4⟩, h5⟩, h6⟩, h7⟩ := h
  have hten : s.ten 0 va = true := by
    simp only [State.ten, State.transWord, h2, Tab.get]
    exact h1
  have hw : s.walk 0 va = .absent := by
    have e : walkLow s va (s.rootOf 0 va) 3 = .absent := h7
    rw [State.walk, walkLow_eq s hg va 3 _ (by rw [e]; simp), e]
  have hl : s.leafOf who 0 va = none := by
    simp only [State.leafOf, h5, h6, hw]
    split <;> rfl
  simp only [State.translate, h3, h4, hten, hl, hw]
  rfl

theorem witness_ExpertQueueEvents_wait : ∃ u, unmapped.fire 0 1 = .wait u := by
  rw [fire_into unmapped rfl (by decide +kernel)]
  have e7 : unmapped.taskQ? 0 (expertAt 1 0 0).tqh = some ⟨0, 2, dataVa, 4, 0, 0, 0⟩ := by decide +kernel
  have f1 : ((⟨0, 2, dataVa, 4, 0, 0, 0⟩ : TaskQ).slotVa (⟨0, 2, dataVa, 4, 0, 0, 0⟩ : TaskQ).wrix) = dataVa := by decide +kernel
  have f2 : (⟨0, 2, dataVa, 4, 0, 0, 0⟩ : TaskQ).full = false := rfl
  have hn : unmapped.walkNow (.queue 0 1) 0 dataVa = (unmapped.walkReads 0 dataVa) := by
    have h : absentAt unmapped (.queue 0 1) dataVa = true := by decide +kernel
    simp only [absentAt, Bool.and_eq_true, Bool.not_eq_true', decide_eq_true_eq] at h
    obtain ⟨⟨⟨⟨⟨⟨⟨h1, h2⟩, hg⟩, h3⟩, h4⟩, h5⟩, h6⟩, h7⟩ := h
    have hten : unmapped.ten 0 dataVa = true := by
      simp only [State.ten, State.transWord, h2, Tab.get]
      exact h1
    have hw : unmapped.walk 0 dataVa = .absent := by
      have e : walkLow unmapped dataVa (unmapped.rootOf 0 dataVa) 3 = .absent := h7
      rw [State.walk, walkLow_eq _ hg _ 3 _ (by rw [e]; simp), e]
    unfold State.walkNow
    rw [h3, h4, hten, h5, hw, if_neg (by decide), if_neg (by decide +kernel)]
  obtain ⟨u, hu⟩ : ∃ u, readLow unmapped dataVa (unmapped.rootOf 0 dataVa) 3 = some u := Option.isSome_iff_exists.1 (by decide +kernel)
  have hr : unmapped.walkReads 0 dataVa = u := readLow_eq dataVa 3 _ _ _ rfl hu
  have ha : absentAt u (.queue 0 1) dataVa = true ∧ u.awaits (.queue 0 1) = false := by
    have e : u = (readLow unmapped dataVa (unmapped.rootOf 0 dataVa) 3).getD unmapped := by rw [hu]; rfl
    rw [e]
    decide +kernel
  have hw (w : Word) (r : List Word) : unmapped.writeVaWords (.queue 0 1) 0 dataVa (w :: r) = .error (.walk dataVa .engine) := by
    simp only [State.writeVaWords, State.writeVa, hn, hr, State.reach, ha.2, State.translateN, translate_absent ha.1]
    rfl
  unfold State.fireInto State.appendTask taskRecord
  rw [show (expertAt 1 0 0).ctx = 0 from rfl, show (expertAt 1 0 0).qh = 1 from rfl]
  simp only [e7, f1, f2, hw]
  exact ⟨_, rfl⟩

/-! Engine commands: one at the head of its stream on core 0 for context 0, pushed by a group with a team reservation of 8,192 bytes. -/

def cmd (w0 : Word) : Cmd := ⟨1, w0, 0, 0, 0, 0, 0, 0, 8192, 0, 0, false, 0⟩

def engined (w0 : Word) (p : Progress) (t : Tile) (f : Core → Core) (s : State := slotted 0) : State :=
  let k : CoreCtx := { CoreCtx.idle with q0 := [cmd w0], q2 := [cmd w0], q4 := [cmd w0], q8 := [cmd w0], prog := Vector.replicate 4 p, rings := Vector.replicate 8 ⟨0, 2, 0, 0⟩ }
  { s with cores := [(0, f { Core.idle with owner := some 0, ctxs := [(0, k)], tiles := Vector.replicate 8 t })] }

def fpTile : Tile := { Tile.zero false with data := [(0, 0x3F800000), (1, 0x40000000)] }
def intTile : Tile := { Tile.zero true with data := [(0, 5)] }
def emptyHeader (r : Core) : Core := { r with spad := [(0, ⟨0, false, false⟩)] }
def ec0 : CmdCtl := ⟨false, false⟩

def mx (s : State) : State := (s.beginCmd 0 (cmd 0)).engage s.eng.core s.eng.ctx
def cp (s : State) : State := s.beginCmd 2 (cmd 0)
def eM : EngWho := { core := 0, ctx := 0, tl := 0 }
def eC : EngWho := { core := 0, ctx := 0, tl := 2 }

/-- The command heads its stream, and the engine may go on with it. -/
def heads (s : State) (tl : Nat) : Bool :=
  !s.suspended s.eng.ctx && s.serves s.eng.core s.eng.ctx && decide (s.headOf tl = some (cmd 0)) && decide (s.eng = ⟨0, 0, 0⟩)

theorem matrix_head (s : State) (h : heads s 0 = true) : MatrixHead s ec0 (cmd 0) (mx s) eM := by
  simp only [heads, Bool.and_eq_true, Bool.not_eq_true', decide_eq_true_eq] at h
  exact ⟨h.1.1.1, h.1.1.2, h.1.2, rfl, by simp [State.stream, h.2, eM, ec0, b2n]⟩

theorem copy_head (s : State) (h : heads s 2 = true) : CopyHead s ec0 (cmd 0) (cp s) eC := by
  simp only [heads, Bool.and_eq_true, Bool.not_eq_true', decide_eq_true_eq] at h
  exact ⟨h.1.1.1, h.1.2, rfl, by simp [State.stream, h.2, eC, ec0, b2n]⟩

def still : Progress := Progress.fresh
def plain (r : Core) : Core := r

theorem witness_EngineCompletion :
    (let k := (engined 0 still fpTile plain).coreCtx 0 0
     k.head 0 = some (cmd 0) ∧ k.finished = [] ∧ (cmd 0).num = k.tl.toList.getD 0 0 + 1 ∧ (cmd 0).w0.getLsbD 54 = false) ∧
    (let k := (engined 0x0040000000000000 still fpTile plain).coreCtx 0 0
     k.head 0 = some (cmd 0x0040000000000000) ∧ (cmd 0x0040000000000000).w0.getLsbD 54 = true) ∧
    (let k := { (engined 0 still fpTile plain).coreCtx 0 0 with tl := Vector.replicate 8 5 }
     k.head 3 = none ∧ k.head 2 = some (cmd 0) ∧ (cmd 0).num ≠ k.tl.toList.getD 2 0 + 1) := by decide +kernel

/-- R179, R359: tl0 reaches 1, and a status word goes to q1. -/
theorem test_completion : ((after (.mxzero ⟨ec0, 0, true⟩) (engined 0x0040000000000000 still fpTile plain)).coreCtx 0 0).tl[0] = 1 ∧
    (((after (.mxzero ⟨ec0, 0, true⟩) (engined 0x0040000000000000 still fpTile plain)).coreCtx 0 0).q1.map fun x => x.word) = [0x100000000] ∧
    ((after (.mxzero ⟨ec0, 0, true⟩) (engined 0 still fpTile plain)).coreCtx 0 0).q1 = [] := by decide +kernel

theorem witness_MatrixCommands_ring :
    (let s := engined 0 still fpTile plain
     heads s 0 = true ∧ (cmd 0).inTeam 0 (4 * 256) = true ∧ (cmd 0).inTeam 4096 (64 * 65536) = false) := by decide +kernel

/-- An INT8 command on slots 3 (INT8): one row and column of 16 elements, a mask of the conditions of R366. -/
def accWord (sla slb : BitVec 3) : Mxacc := ⟨ec0, 0, sla, slb, 0, 1, 0, 0, 0, 0⟩

theorem witness_MatrixCommands_acc :
    (let s := engined 0 still intTile emptyHeader
     let u := mx s
     heads s 0 = true ∧ (u.slotOf 0 3).malformed = false ∧ (u.slotOf 0 3).efmt = 5 ∧ operandBytes 5 1 16 ≤ 64 * ((u.coreCtx 0 0).ring 0).szm1.toNat ∧
      operandBytes 5 1 16 ≤ 64 * ((u.coreCtx 0 0).ring 1).szm1.toNat ∧ ((u.coreCtx 0 0).progress 0).tookA = false ∧ (u.sp 0 ((u.coreCtx 0 0).ring 0).header).full = false ∧
      (s.coreCtx 0 0).progress 0 = still ∧ still.tookB = false ∧ still.want = none ∧
      (u.slotOf 0 6).malformed = true ∧ 64 * ((u.coreCtx 0 0).ring 0).szm1.toNat < operandBytes 5 64 256) := by decide +kernel

theorem witness_MatrixCommands_accTaken :
    (let s := engined 0 { still with tookA := true } intTile plain
     let u := mx s
     heads s 0 = true ∧ ((u.coreCtx 0 0).progress 0).tookA = true ∧ (u.sp 0 ((u.coreCtx 0 0).ring 1).header).full = true ∧
      mxRefusal ((u.core 0).tile 0) (u.slotOf 0 3) (u.slotOf 0 3) [] = none ∧ ((u.coreCtx 0 0).progress 0).poisonA = false ∧
      (u.spBytes 0 (((u.coreCtx 0 0).ring 1).slot ((u.coreCtx 0 0).ring 1).take.toNat + 64) 16).2 = false ∧
      mxRefusal ((u.core 0).tile 0) (u.slotOf 0 0) (u.slotOf 0 3) [] = some 1) := by decide +kernel

/-- The command waits in line for its first slot already, or holds both. -/
theorem witness_MatrixCommands_accWaits :
    (let s := engined 0 { still with want := some ⟨3, 0, 16⟩ } intTile emptyHeader
     heads s 0 = true ∧ (((mx s).coreCtx 0 0).progress 0).want.isSome = true ∧ ((mx s).sp 0 (((mx s).coreCtx 0 0).ring 0).header).full = false) ∧
    (let s := engined 0 { still with tookA := true, tookB := true } intTile emptyHeader
     heads s 0 = true ∧ (((mx s).coreCtx 0 0).progress 0).tookB = true ∧ (((mx s).coreCtx 0 0).progress 0).poisonB = false ∧
       ((mx s).slotOf 0 3).malformed = false ∧ mxRefusal (((mx s).core 0).tile 0) ((mx s).slotOf 0 3) ((mx s).slotOf 0 3) [] = none) ∧
    (let s := engined 0 { still with tookA := true } intTile plain
     (((mx s).coreCtx 0 0).progress 0).tookB = false ∧ (((mx s).coreCtx 0 0).progress 0).want = none) := by decide +kernel

/-- R240: the A slot holds 16 ones and the B slot 16 twos; the element goes from 5 to 37. -/
def accData (r : Core) : Core :=
  { r with spad := (List.range 4).map (fun i => (16 + i, ⟨0x02020202, true, false⟩)) }

theorem test_mxacc : ((after (.mxacc (accWord 3 3)) (engined 0 { still with tookA := true, slotA := 0x01010101010101010101010101010101 } intTile accData)).core 0).tiles[0].at' 0 0 = 37 := by
  decide +kernel

def drainWord (slo : BitVec 3) (rstr : BitVec 18) : Mxdrain := ⟨ec0, 0, slo, 0, 0, 0, 1, rstr, true, 64⟩

theorem witness_MatrixCommands_drain :
    (let s := engined 0 still fpTile plain
     let u := mx s
     heads s 0 = true ∧ (u.slotOf 0 0).malformed = false ∧ (cmd 0).inTeam 64 (2 * 4) = true ∧ drainOk false (u.slotOf 0 0).efmt = true ∧ 2 * 4 ≤ (8 : BitVec 18).toNat ∧
      s.eng.units = 0 ∧ (u.coreCtx 0 0).progress 0 = Progress.fresh ∧ (u.slotOf 0 2).malformed = false ∧ drainOk ((u.core 0).tile 0).int (u.slotOf 0 2).efmt = false ∧
      (5 : BitVec 18).toNat % 4 ≠ 0) := by decide +kernel

/-- R367: two FP32 elements as a row; the tile is cleared. -/
theorem test_mxdrain :
    (let t := after (.mxdrain (drainWord 0 8)) (engined 0 still fpTile plain)
     (t.sp 0 16).data = 0x3F800000 ∧ (t.sp 0 17).data = 0x40000000 ∧ (t.core 0).tiles[0].data = [] ∧ (t.coreCtx 0 0).tl[0] = 1) := by decide +kernel

/-- A group of context 0 on core 5 too; a contribution there. -/
def teamed (armed ordered : Bool) (got want : Nat) : State :=
  let s := engined 0 still { fpTile with armed := armed, ordered := ordered, got := got, want := want } plain
  let y : Contribution := ⟨0, 0, false, 0, false, false, 1, 1, [(0, 0x3F800000)], [], 0, 0, false, 0⟩
  let r := { Core.idle with owner := some 0, arriving := [y], tiles := Vector.replicate 8 { fpTile with armed := armed, ordered := ordered, got := got, want := want } }
  { s with sch := { s.sch with teams := [⟨9, 0, 0, 5, 0, 0, 0, 1, 1, 0, 0, 4096, [], [], 1⟩] }, cores := s.cores ++ [(5, r)], ev := { Ev.none with a := 5 } }

theorem witness_MatrixCommands_dadd :
    (let s := teamed false false 0 0
     let u := mx s
     heads s 0 = true ∧ ((u.coreCtx 0 0).progress 0).begun = false ∧ (∃ t ∈ u.sch.teams, t.core = 5 ∧ 0 < t.alive ∧ (u.launch t.launch).ctx = 0) ∧
      (u.tileOf 5 0 1).int = ((u.core 0).tile 0).int ∧ (∀ t ∈ u.sch.teams, t.core ≠ 7)) ∧
    ((mx (engined 0 still intTile plain)).core 0).tile 0 = intTile := by decide +kernel

theorem witness_MatrixCommands_arm :
    (∀ p ∈ [(false, 0, 0), (true, 0, 2), (true, 2, 2)], heads (engined 0 { still with begun := p.1 } { fpTile with got := p.2.1, want := p.2.2 } plain) 0 = true) ∧
    heads (engined 0 still { fpTile with armed := true } plain) 0 = true ∧ ((mx (engined 0 still fpTile plain)).core 0).staging = 16 := by decide +kernel

theorem witness_MatrixCommands_contribution :
    (∀ p ∈ [(false, false, 0, 0), (true, false, 0, 1), (true, true, 0, 2)],
      let s := teamed p.1 p.2.1 p.2.2.1 p.2.2.2
      ((s.core 5).arriving[0]?).isSome = true ∧ s.suspended 0 = false ∧ s.serves 5 0 = true ∧ ((s.core 5).arriving.all fun y => s.mayAdd 5 y) = true ∧
        ((s.core 5).tile 0).armed = p.1 ∧ ((s.core 5).tile 0).ordered = p.2.1) := by decide +kernel

theorem witness_MatrixCommands_switch : ((teamed false false 0 0).core 6).owner = none ∧ (teamed false false 0 0).suspended 0 = false ∧
    ((teamed false false 0 0).coreCtx 6 0).saved = none ∧ ((mx (teamed false false 0 0)).core 0).owner = some 0 := by decide +kernel

/-- R368: 1.0 added to 1.0 on core 5. -/
theorem test_contribution : ((after .mxdaddContribution (teamed false false 0 0)).core 5).tiles[0].at' 0 0 = 0x40000000 := by decide +kernel

def cpyWord (src dst : BitVec 49) (len : BitVec 16) : Cpy := ⟨ec0, 1, src, 1, dst, len⟩
def gather (idx dst : BitVec 16) (base : Word) : Cpyg := ⟨ec0, 2, 0, idx, dst, BitVec.ofNat 49 (base.toNat / 4)⟩

def copying (p : Progress) (l : List Word) : State := withCode (engined 0 p fpTile accData) l

def loaded4 (a : EngAcc) : Option (Nat × Bool) :=
  match a with
  | .ok _ v p => some (v, p)
  | _ => none

def faulted (a : EngAcc) : Option (BitVec 8) :=
  match a with
  | .fault _ r => some r.kind
  | _ => none

def waits (a : EngAcc) : Bool :=
  match a with
  | .wait _ => true
  | _ => false

theorem witness_CopyCommands_words :
    (let s := copying still []
     let u := cp s
     heads s 2 = true ∧ (u.coreCtx 0 0).progress 2 = Progress.fresh ∧ (cmd 0).core = 0 ∧ s.eng.units = 0 ∧
      (∀ i < 4, (cmd 0).inTeam (4 * (16 + i)) 4 = true ∧ (cmd 0).inTeam (4 * (40 + i)) 4 = true) ∧ 16 + 4 ≤ 40 ∧
      (cmd 0).inTeam (4 * 2048) 4 = false) := by decide +kernel

/-- R372: four words copied; three words filled. -/
theorem test_copy :
    (let t := after (.cpy (cpyWord 16 40 3)) (copying still [])
     ((List.range 5).map fun i => (t.sp 0 (40 + i)).data) = [0x02020202, 0x02020202, 0x02020202, 0x02020202, 0]) ∧
    (let t := after (.cpfill ⟨ec0, 1, 16, 2, 9⟩) (copying still [])
     ((List.range 4).map fun i => (t.sp 0 (16 + i)).data) = [9, 9, 9, 0x02020202]) := by decide +kernel

theorem witness_CopyCommands_gather :
    (let u := cp (copying still [1, 2, 3, 4, 5, 6, 7, 8, 9, 10, 11, 12, 13, 14, 15, 16])
     (cmd 0).inTeam (4 * 20) 4 = true ∧ (cmd 0).inTeam (4 * 30) 4 = true ∧ (vaOf (4 * (gather 20 30 codeVa).base.toNat)) = codeVa ∧ codeVa.toNat % 4 = 0 ∧
      (let u' := u.modProgress 0 0 2 fun p => { p with index := some (u.sp 0 20).data }
       loaded4 (u'.engLoad eC (codeVa + 4 * ((u.sp 0 20).data.setWidth 64)) 4) = some (1, false) ∧
        faulted (u'.engLoad eC (codeVa + 0x1000 + 4 * ((u.sp 0 20).data.setWidth 64)) 4) = some 2) ∧ (1 : BitVec 4).toNat < 2) := by decide +kernel

/-- One record of no element, or of one, in the scratchpad: at 64 (the destination) and at 128. -/
def record (b n : Word) : List Word := [b, 0x9080000000000000, n, 0, 0, 1, 0, 0]
def recordsOf (n : Word) : Nat := lineOfWords (record 64 n ++ record 128 n)

theorem witness_CopyCommands_stencil :
    (let u := cp (copying still (record 64 0 ++ record 128 0))
     heads (copying still (record 64 0 ++ record 128 0)) 2 = true ∧ ((u.coreCtx 0 0).progress 2).begun = false ∧
      (loaded4 (u.readStencil eC (BitVec.ofNat 45 (codeVa.toNat / 64)))).isSome = true ∧
      faulted (u.readStencil eC (BitVec.ofNat 45 (codeVa.toNat / 64 + 64))) = some 2 ∧
      waits (({ u with mmu := { u.mmu with reqs := [⟨5, 0, 0, false, false, false, [eC.waiter]⟩] } } : State).readStencil eC
        (BitVec.ofNat 45 (codeVa.toNat / 64))) = true ∧
      u.stencilBad 0 0 (Stencil.ofWords (record 64 0)) (Stencil.ofWords (record 64 0)) false = false ∧
      u.stencilBad 0 0 (Stencil.ofWords (record 128 0)) (Stencil.ofWords (record 64 0)) true = false ∧ (Stencil.ofWords (record 64 0)).count = 0 ∧
      u.stencilBad 0 0 (Stencil.ofWords [0, 0]) (Stencil.ofWords (record 64 0)) true = true) := by decide +kernel

/-- A record of one element in memory, in the code window. -/
def memRecord : List Word := [codeVa, 0x9000000000000000, 1, 0, 0, 1, 0, 0]

/-- What a store of 5 to the element of a record answers. -/
def storeTo (u : State) (ws : List Word) : EngAcc :=
  let d := Stencil.ofWords ws
  match u.target (cmd 0).asGroup d 2 (d.offset d.ext false 0) true with
  | .ok (g, b) => u.putElems eC (elemBits 2) g [(b, 5, false)]
  | .error r => .fault u r

/-- The state after a store of an element, where it is made. -/
def storedPos (a : EngAcc) : Option Nat :=
  match a with
  | .ok w _ _ => some ((w.coreCtx 0 0).progress 2).pos
  | _ => none

theorem witness_CopyCommands_element :
    (let s := copying { still with begun := true, slotA := recordsOf 1 } []
     let u := cp s
     let p := (u.coreCtx 0 0).progress 2
     let d := Stencil.ofWords (wordsOf (p.slotA / 2 ^ 512) 8)
     heads s 2 = true ∧ p.begun = true ∧ d.count = p.pos + 1 ∧ stencilFmt (u.slotOf 0 0) = true ∧ (u.slotOf 0 0).efmt ≠ 6 ∧ u.coded 0 d = none ∧
      (loaded4 (u.elemLoad eC (cmd 0).asGroup (Stencil.ofWords (wordsOf p.slotA 8)) (u.slotOf 0 0) 0)).isSome = true ∧
      d.fsl = 0 ∧ (u.slotOf 0 0).efmt = 2 ∧ storedPos (storeTo u (record 64 1)) = some 0 ∧ faulted (storeTo u memRecord) = some 2 ∧
      (match u.target (cmd 0).asGroup (Stencil.ofWords memRecord) 2 0 true with
       | .ok _ => true
       | .error _ => false) = true ∧
      (match u.target (cmd 0).asGroup (Stencil.ofWords (record 8192 1)) 2 0 true with
       | .ok _ => 0
       | .error r => r.kind) = 2 ∧
      faulted (u.elemLoad eC (cmd 0).asGroup (Stencil.ofWords (record 8192 1)) (u.slotOf 0 0) 0) = some 2) := by decide +kernel

/-! Connections: connection 4 of context 0, open on port 0 (up), PSZ 0 and VC of TC 3. -/

def netRegs (state mask : Word) (more : Tab Word) : Tab Word :=
  [(Reg.conn 4 0, 0x8000000000000000 ||| (mask <<< 15)), (Reg.conn 4 16, state <<< 12), (Reg.netcfg, 0xABCD000000000000), (Reg.port 0, 0xA000000000000000)] ++ more ++ [(Reg.trans 0 0, 1)]

/-- A command of OPC 20, or 21 where `post`, at the head of the network engine's streams. -/
def netting (post : Bool) (state mask : Word) (more : Tab Word) (k : Conn) : State :=
  let s := withCode (engined (if post then 0x2100000000000000 else 0) still fpTile plain) ((List.range 31).map fun i => BitVec.ofNat 64 i)
  { s with mgmt := netRegs state mask more, net := { s.net with conns := [(4, k)] } }

def keyedConn : Conn := { Conn.idle with keyed := true }

def oneSend (msn : BitVec 16) : TxMsg := ⟨msn, 0, 0, none, none, 0, [⟨0, 1, false, false, 0, 0, false, false⟩]⟩
/-- A message whose first packet has not been sent. -/
def unsentSend : TxMsg := ⟨1, 0, 0, none, none, 0, [⟨0, 0, false, false, 0, 0, false, false⟩]⟩
def partSend : TxMsg := ⟨0, 0, 3, some [1, 2, 3], none, 0, []⟩

theorem witness_NetworkCommands_send :
    ((netting false 1 1 [] keyedConn).headOf 4).isSome = true ∧ canonical 0x8000000000000000 = false ∧ canonical 0x1000 = true ∧
    (netting false 1 1 [] keyedConn).connOpen 4 = true ∧ (netting false 1 1 [] keyedConn).connCtx 4 = 0 ∧ (netting false 0 1 [] keyedConn).connOpen 4 = false ∧
    (netting false 1 1 [(Reg.contain 0 8, 0x8000000000000000)] keyedConn).viral 0 = true ∧ (netting false 1 1 [] keyedConn).viral 0 = false ∧
    (netting false 1 0 [] keyedConn).upPorts 4 = [] ∧ (netting false 1 1 [] keyedConn).upPorts 4 = [0] ∧
    64 ≤ ((netting false 1 1 [] { keyedConn with tx := List.replicate 64 (oneSend 1) }).conn 4).tx.length ∧
    ((netting false 1 1 [] { keyedConn with tx := [unsentSend] }).conn 4).unsent = true ∧
    ((netting false 1 1 [] keyedConn).conn 4).tx.length < 64 ∧ ((netting false 1 1 [] keyedConn).conn 4).unsent = false := by
  decide +kernel

/-- How the read of a first packet ends. -/
def readEnd (x : PacketRead) : Nat :=
  match x with
  | .ok _ d => d.length
  | .wait _ => 1001
  | .fail _ st => 1002 + st

theorem witness_NetworkCommands_read :
    (let s := netting false 1 1 [] keyedConn
     let y (va : Word) : TxMsg := ⟨0, va, 64, none, some ⟨0, 0, 4, 1⟩, 0, []⟩
     readEnd (s.readPacket 4 (y codeVa) 0) = 64 ∧ readEnd (s.readPacket 4 (y (codeVa + 0x1000)) 0) = 1004 ∧
      readEnd (({ s with mmu := { s.mmu with reqs := [⟨5, 0, 0, false, false, false, [.engine 0 0 4]⟩] } } : State).readPacket 4 (y codeVa) 0) = 1001) ∧
    (engined 0x2100000000000000 still fpTile plain).postedBefore 1 0 = true := by decide +kernel

theorem witness_NetworkCommands_frame :
    (let s := netting false 1 1 [] keyedConn
     s.upPorts 4 = [0] ∧ s.connOpen 4 = true ∧ (portIslands 0).all s.islandRuns = true ∧ partSend.cmd = none ∧ partSend.fixed.isSome = true ∧ partSend.len ≤ packetSize (s.connBits 4 61 60) ∧ (s.port 0).waiting = [] ∧
      (s.port 0).canSend (s.transportFrame 4 (s.connBits 4 59 57 / 3) 1 false 0 0 0 (partSend.fixed.getD [])) = true ∧
      (partSend.fixed.getD []).length = partSend.len ∧ (s.conn 4).tx = [] ∧ (s.reg (Reg.conn 4 24)).toNat + 1 < 2 ^ 48) := by decide +kernel

theorem witness_NetworkCommands_post :
    (let s := netting true 1 1 [] keyedConn
     (s.headOf 5).isSome = true ∧ (s.walkRange (.engine 0 0 5) 0 codeVa 64).pinnedRange (.engine 0 0 5) 0 codeVa 64 = false ∧
      (rangePages codeVa 64).all (fun a => !(s.walkRange (.engine 0 0 5) 0 codeVa 64).walkWaits (.engine 0 0 5) 0 a) = true ∧
      s.pinnedRange (.engine 0 0 5) 0 0x8000 0 = true ∧ s.postedBefore 0 4 = false ∧ s.connOpen 4 = true ∧ s.connCtx 4 = 0) := by decide +kernel

def packetWords (s : State) (x : Except Xlat (State × List Word)) : Bool :=
  match x with
  | .ok (_, w) => w.length == 30 && s.eng.core = 0
  | .error _ => false

theorem witness_NetworkCommands_task :
    (let s := netting false 1 1 [] keyedConn
     (s.headOf 6).isSome = true ∧ packetWords s (s.readVaWords (.engine 0 0 6) 0 codeVa 30) = true ∧ packetWords s (s.readVaWords (.engine 0 0 6) 0 (codeVa + 8) 30) = true ∧
      badVa codeVa 256 = false ∧ s.viral 0 = false ∧
      (netting false 1 1 [(Reg.contain 0 8, 0x8000000000000000)] keyedConn).viral 0 = true ∧ ((netting false 1 1 [(Reg.contain 0 8, 0x8000000000000000)] keyedConn).headOf 6).isSome = true ∧ (s.conn 4).keyed = true ∧ (Conn.idle).keyed = false ∧
      ((List.range 64).find? fun j => ((3 : BitVec 3), BitVec.ofNat 6 j) ∉ s.cxl.mailbox) = some 0) ∧
    badVa (codeVa + 8) 256 = true := by decide +kernel

/-- The same with the mapped page, whose leaf is pinned. -/
def pinnedNet : State :=
  let s := netting true 1 1 [] keyedConn
  { s with mgmt := (0xB0000, 0x4002) :: (Reg.trans 0 0, 1) :: s.mgmt, cores := s.cores.map fun x => (x.1, { x.2 with tlb := [mappedTlb] }) }

theorem checkLeaf_mapped {s : State} {who : Waiter} {va : Word} (h : maps s who va = true) : s.checkLeaf 0 va .engine 2 mappedLeaf = .ok (placeOf va) .wb false := by
  have hx := translate_mapped s who va .engine h
  simp only [maps, Bool.and_eq_true, Bool.not_eq_true', decide_eq_true_eq] at h
  obtain ⟨⟨⟨⟨⟨⟨-, h1⟩, h2⟩, hg⟩, h3⟩, h4⟩, h5⟩ := h
  have hten : s.ten 0 va = true := by
    simp only [State.ten, State.transWord, h2, Tab.get]
    exact h1
  have hs : Pte.si mappedLeaf = false := by decide +kernel
  have hl : s.leafOf who 0 va = some (2, mappedLeaf) := leafLow_eq hg h5
  unfold State.translate at hx
  rw [h3, hten, h4, hl, if_neg (by decide), if_neg (by decide), if_neg (by decide)] at hx
  simp only [hs, Bool.false_eq_true, if_false] at hx
  exact hx

theorem pinned_mapped {s : State} {who : Waiter} {va : Word} (h : maps s who va = true) : (s.pinnedAt who 0 va).isSome = true := by
  have hx := checkLeaf_mapped h
  simp only [maps, Bool.and_eq_true, Bool.not_eq_true', decide_eq_true_eq] at h
  obtain ⟨⟨⟨⟨⟨⟨-, h1⟩, h2⟩, hg⟩, h3⟩, h4⟩, h5⟩ := h
  have hten : s.ten 0 va = true := by
    simp only [State.ten, State.transWord, h2, Tab.get]
    exact h1
  have hs : (!Pte.pp mappedLeaf || Pte.si mappedLeaf) = false := by decide +kernel
  have hl : s.leafOf who 0 va = some (2, mappedLeaf) := leafLow_eq hg h5
  have hn : s.leafNow who 0 va = some (2, mappedLeaf) := by
    unfold State.leafNow
    rw [hl]
  unfold State.pinnedAt
  rw [h3, hten, h4, hn, if_neg (by decide)]
  simp only [hs, hx]
  rfl

/-- Its walks made, none of which another waits for, the buffer is pinned; a page whose walk is in progress is waited for. -/
theorem witness_NetworkCommands_pinned : (pinnedNet.walkRange (.engine 0 0 5) 0 dataVa 64).pinnedRange (.engine 0 0 5) 0 dataVa 64 = true ∧
    rangePages dataVa 64 = [dataVa] ∧ (pinnedNet.walkRange (.engine 0 0 5) 0 dataVa 64).walkWaits (.engine 0 0 5) 0 dataVa = false ∧
    (pinnedNet.headOf 5).isSome = true ∧ pinnedNet.connOpen 4 = true ∧ pinnedNet.connCtx 4 = 0 ∧ pinnedNet.postedBefore 0 4 = false := by
  refine ⟨?_, by decide +kernel⟩
  have e : rangePages dataVa 64 = [dataVa] := by decide +kernel
  simp only [State.pinnedRange, e, List.all_cons, List.all_nil, Bool.and_true]
  exact pinned_mapped (by decide +kernel)

def walkingNet : State :=
  let s := netting true 1 1 [] keyedConn
  { s with mmu := { s.mmu with walks := [⟨0, pageOf dataVa, false, false, []⟩] } }

theorem witness_NetworkCommands_walking : (walkingNet.headOf 5).isSome = true ∧ walkingNet.connOpen 4 = true ∧ walkingNet.connCtx 4 = 0 ∧
    walkingNet.postedBefore 0 4 = false ∧ rangePages dataVa 64 = [dataVa] ∧
    (walkingNet.walkRange (.engine 0 0 5) 0 dataVa 64).walkWaits (.engine 0 0 5) 0 dataVa = true := by decide +kernel

/-! The link layer: port 0 with `f` received there. -/

def linkFrame (kind lseq op : Nat) : Frame := ⟨0, 0, 0, 0xABCD, hdrOf [(124, 1), (120, kind), (108, lseq), (96, 0xFFF), (64, 4), (60, op)], 0, [], 0⟩

def linked (f : Frame) (flag discarding : Bool) : State :=
  let s := netting false 1 1 [] keyedConn
  { s with net := { s.net with ports := [(0, { Port.idle with discarding := discarding })] }, ev := { Ev.none with frame := f, flag := flag } }

/-- A health object's event: the port's EN is set. -/
def laned (k : Nat) (port health : Word) : State :=
  { State.reset with ev := { Ev.none with a := k }, mgmt := [(Reg.port 0, port), (Reg.health k 8, health)] }

theorem witness_LinkLayerEvents :
    (∀ f ∈ [linkFrame 0 0 2, linkFrame 0 0 5, linkFrame 0 7 0, linkFrame 1 0 0, linkFrame 2 0 0], ∀ b ∈ [true, false],
      (linked f b b).portUp 0 = true ∧ ((linked f b b).port 0).waiting = [] ∧ ((linked f b b).port 0).discarding = b ∧
        f.etype.toNat = (linked f b b).regBits Reg.netcfg 63 48 ∧ bits f.hdr 127 124 = 1) ∧
    ((((linked (linkFrame 0 0 2) false false).port 0).lack + 1).toNat = 0) ∧ Hdr.lseq (linkFrame 0 0 2).hdr = 0 ∧ Hdr.op (linkFrame 0 0 2).hdr < 5 ∧
    5 ≤ Hdr.op (linkFrame 0 0 5).hdr ∧ Hdr.lseq (linkFrame 0 7 0).hdr = 7 ∧ Hdr.kind (linkFrame 1 0 0).hdr = 1 ∧ Hdr.kind (linkFrame 2 0 0).hdr = 2 ∧
    State.reset.portUp 0 = false := by decide +kernel

/-- A port that has asked for `n` retries in a row, and been asked for as many. -/
def retried (f : Frame) (n : Nat) : State :=
  let s := linked f true false
  { s with net := { s.net with ports := [(0, { Port.idle with asked := n, retries := n })] } }

theorem witness_LinkLayerEvents_retrain : (∀ n ∈ [6, 7], (retried (linkFrame 2 0 0) n).portUp 0 = true ∧ ((retried (linkFrame 2 0 0) n).port 0).waiting = [] ∧
      ((retried (linkFrame 2 0 0) n).port 0).replay = [] ∧ ((retried (linkFrame 2 0 0) n).port 0).asked = n ∧ ((retried (linkFrame 2 0 0) n).port 0).retries = n) ∧
    ∀ y ∈ (retried (linkFrame 2 0 0) 7).net.conns, y.2.tx = [] := by decide +kernel

theorem witness_LinkLayerEvents_lanes :
    (laned 199 0 0).regBits (Reg.health 199 8) 1 1 = 0 ∧ (laned 72 0 2).regBits (Reg.health 72 8) 1 1 = 1 ∧
    ((laned 3 0xA000000000000000 0).portUp 0 = true ∧ (laned 3 0xA000000000000000 0).regBits (Reg.health 3 8) 1 1 = 0) ∧
    (let s := laned 3 0x8000000000000000 2
     s.portUp 0 = false ∧ s.regBits (Reg.port 0) 63 63 = 1 ∧ (s.port 0).retraining &&& ~~~(1#4 <<< 3) = 0 ∧ ∀ i < 4, i ≠ 3 → s.regBits (Reg.health i 8) 1 1 = 0) := by decide +kernel

/-- R27: the frame expected next is received and its LSEQ acknowledged. -/
theorem test_frame : ((after .frameReceive (linked (linkFrame 0 0 2) false false)).port 0).lack = 0 ∧
    (after .frameReceive (linked (linkFrame 0 0 2) false false)).net.inbox = [(0, linkFrame 0 0 2)] ∧
    (after .frameReceive (linked (linkFrame 0 7 2) false false)).net.inbox = [] ∧
    ((after .frameReceive (linked (linkFrame 0 7 2) false false)).port 0).discarding = true := by decide +kernel

/-! Connections. The frame at the head of those received is sealed: its tag is the one of its header and payload. -/

def sealedHdr (op msn pidx len psz : Nat) : BitVec 128 := hdrOf [(124, 1), (64, 4), (60, op), (40, msn), (28, pidx), (15, len), (13, psz), (12, 1)]

def sealedFrame (h : BitVec 128) (ct : List Byte) : Frame := ⟨0, 0, 0, 0xABCD, h, 0, ct, Config.gcmTag 0 (nonceOf 1 0) (hdrBytes h) ct⟩

def receiving (ord : Bool) (rxbase : Word) (h : BitVec 128) (ct : List Byte) (k : Conn) : State :=
  let s := netting false (1 ||| (rxbase <<< 20)) (1 ||| (if ord then 0x800000000000 else 0)) [] k
  { s with net := { s.net with inbox := [(0, sealedFrame h ct)] }, timebase := 1000000 }

/-- It is taken out, and its credits are owed. -/
def taken (s : State) (h : BitVec 128) : State := { s with net := { s.net with inbox := [] } }.owe 0 h

theorem takes_sealed (ord : Bool) (rxbase : Word) (op : Nat) (h : BitVec 128) (ct : List Byte) (k : Conn) (h1 : Hdr.op h = op) (h2 : bits h 79 64 = 4)
    (h3 : (receiving ord rxbase h ct k).connOpen 4 = true) (h4 : bits h 12 12 = 1) (h5 : (receiving ord rxbase h ct k).connBits 4 14 14 = 0)
    (h6 : (receiving ord rxbase h ct k).connKey 4 = 0) (h7 : Hdr.vc h = 0) :
    (receiving ord rxbase h ct k).takeFrame op = .ok (taken (receiving ord rxbase h ct k) h) 4 h (gcmCrypt 0 (nonceOf 1 0) ct) := by
  have e : (receiving ord rxbase h ct k).net.inbox = [(0, sealedFrame h ct)] := rfl
  have c1 : (taken (receiving ord rxbase h ct k) h).connOpen 4 = true := h3
  have c2 : (taken (receiving ord rxbase h ct k) h).connBits 4 14 14 = 0 := h5
  have c3 : (taken (receiving ord rxbase h ct k) h).connKey 4 = 0 := h6
  have ea : (receiving ord rxbase h ct k).ev.a = 0 := rfl
  have eb : (receiving ord rxbase h ct k).ev.b = 0 := rfl
  unfold State.takeFrame
  simp only [e, ea, eb, List.find?_cons, show (sealedFrame h ct).hdr = h from rfl, h1, h2, h4, h7, decide_true, Bool.and_self, List.erase_cons_head]
  rw [show ({ receiving ord rxbase h ct k with net := { (receiving ord rxbase h ct k).net with inbox := [] } } : State).owe 0 h =
    taken (receiving ord rxbase h ct k) h from rfl]
  simp only [c1, c2, c3, gcmOpen, show (sealedFrame h ct).tag = Config.gcmTag 0 (nonceOf 1 0) (hdrBytes h) ct from rfl,
    show (sealedFrame h ct).iv = 0 from rfl, show (sealedFrame h ct).payload = ct from rfl]
  simp

/-- The conditions of `takes_sealed`. -/
def arrives (ord : Bool) (rxbase : Word) (op : Nat) (h : BitVec 128) (k : Conn) : Bool :=
  let s := receiving ord rxbase h [] k
  Hdr.op h == op && bits h 79 64 == 4 && s.connOpen 4 && bits h 12 12 == 1 && s.connBits 4 14 14 == 0 && s.connKey 4 == 0 && Hdr.vc h == 0

theorem takes (ord : Bool) (rxbase : Word) (op : Nat) (h : BitVec 128) (k : Conn) (hf : arrives ord rxbase op h k = true) :
    (receiving ord rxbase h [] k).takeFrame op = .ok (taken (receiving ord rxbase h [] k) h) 4 h [] := by
  simp only [arrives, Bool.and_eq_true, beq_iff_eq] at hf
  exact takes_sealed ord rxbase op h [] k hf.1.1.1.1.1.1 hf.1.1.1.1.1.2 hf.1.1.1.1.2 hf.1.1.1.2 hf.1.1.2 hf.1.2 hf.2

def packet (j : Nat) (sent : Nat) (acked nobuf : Bool) (refused : Bool := false) : Packet := ⟨j, sent, acked, nobuf, 0, 0, refused, false⟩
def twoSend : TxMsg := ⟨1, 0, 1500, none, some ⟨0, 0, 4, 1⟩, 0, [packet 0 1 false false, packet 1 1 false false]⟩
def withTx (l : List TxMsg) : Conn := { keyedConn with tx := l }

theorem witness_ConnectionEvents_answers :
    (∀ p ∈ [(false, 2, 1), (false, 3, 0), (true, 3, 1), (false, 4, 0)], arrives p.1 0 p.2.1 (sealedHdr p.2.1 1 p.2.2 0 0) (withTx [twoSend]) = true) ∧
    (let u := taken (receiving false 0 (sealedHdr 2 1 1 0 0) [] (withTx [twoSend])) (sealedHdr 2 1 1 0 0)
     u.txMsg 4 (Hdr.msn (sealedHdr 2 1 1 0 0)) = some twoSend ∧ Hdr.pidx (sealedHdr 2 1 1 0 0) + 1 = twoSend.packets.length ∧
      Hdr.pidx (sealedHdr 2 1 0 0 0) + 1 ≠ twoSend.packets.length ∧ Hdr.astat (sealedHdr 2 1 1 0 0) = 0 ∧ u.txMsg 4 (Hdr.msn (sealedHdr 2 9 1 0 0)) = none ∧
      u.ordered 4 = false) ∧
    (taken (receiving true 0 (sealedHdr 3 1 1 0 0) [] (withTx [twoSend])) (sealedHdr 3 1 1 0 0)).ordered 4 = true ∧
    arrives false 0 4 (sealedHdr 4 1 0 0 0) (withTx [oneSend 1]) = true ∧ (oneSend 1).msn = Hdr.msn (sealedHdr 4 1 0 0 0) ∧ Hdr.pidx (sealedHdr 4 1 0 0 0) = 0 := by
  decide +kernel

def tookNone (x : Taken) : Bool :=
  match x with
  | .none => true
  | _ => false

def tookBad (x : Taken) : Bool :=
  match x with
  | .discard _ => true
  | _ => false

theorem witness_ConnectionEvents_refused : tookNone ((netting false 1 1 [] keyedConn).takeFrame 2) = true ∧
    tookBad ((receiving false 0 (hdrOf [(124, 1), (64, 5), (60, 2)]) [] keyedConn).takeFrame 2) = true := by decide +kernel

/-- The RTO of netcfg is 100 microseconds and its limit 3 transmissions. -/
def timing (q : Packet) (now : Word) : State :=
  let s := netting false 1 1 [] (withTx [⟨1, 0, 0, none, none, 0, [q]⟩])
  { s with timebase := now, ev := { Ev.none with a := 4, b := 1 }, mgmt := (Reg.netcfg, 0xABCD006403000000) :: s.mgmt }

theorem witness_ConnectionEvents_timers :
    (∀ p ∈ [(packet 0 1 true false, 0), (packet 0 1 false false, 99999), (packet 0 1 false false, 100000), (packet 0 3 false false, 100000), (packet 0 3 false true, 5),
        (packet 0 3 false false true, 100000)],
      (timing p.1 p.2).txMsg 4 1 = some ⟨1, 0, 0, none, none, 0, [p.1]⟩ ∧ (⟨1, 0, 0, none, none, 0, [p.1]⟩ : TxMsg).packet 0 = some p.1) ∧
    (timing (packet 0 1 false false) 100000).regBits Reg.netcfg 47 32 = 100 ∧ (timing (packet 0 1 false false) 100000).regBits Reg.netcfg 31 24 = 3 ∧
    (timing (packet 0 1 false false) 100000).connOpen 4 = true ∧ ({ timing (packet 0 1 false false) 0 with mgmt := [] } : State).connOpen 4 = false := by decide +kernel

def buffered : Conn := { keyedConn with posted := [⟨0x2000, 64, none⟩] }

/-- A DATA or DATAF frame without payload. -/
theorem witness_ConnectionEvents_data :
    (∀ op ∈ [0, 1], arrives false 0 op (sealedHdr op 0 0 0 0) buffered = true ∧ arrives false 0 op (sealedHdr op 0 0 0 3) buffered = true ∧
      arrives false 0 op (sealedHdr op 0 0 5 0) buffered = true ∧ arrives false 0 op (sealedHdr op 64 0 0 0) buffered = true ∧
      arrives true 0 op (sealedHdr op 1 0 0 0) buffered = true ∧ arrives false 0 op (sealedHdr op 0 0 0 0) keyedConn = true) ∧
    (let u := taken (receiving false 0 (sealedHdr 1 0 0 0 0) [] buffered) (sealedHdr 1 0 0 0 0)
     (u.conn 4).done = [] ∧ (u.conn 4).rx = [] ∧ u.ordered 4 = false ∧ u.rxbase 4 = 0 ∧ u.bufferFor 4 0 = some (⟨0x2000, 64, none⟩, none) ∧ u.slotFree = true ∧
      Hdr.psz (sealedHdr 1 0 0 0 0) = 0 ∧ Hdr.psz (sealedHdr 1 0 0 0 3) = 3 ∧ Hdr.len (sealedHdr 1 0 0 5 0) = 5 ∧ (Hdr.msn (sealedHdr 1 64 0 0 0)).toNat = 64) ∧
    (taken (receiving true 0 (sealedHdr 1 1 0 0 0) [] buffered) (sealedHdr 1 1 0 0 0)).ordered 4 = true ∧
    (taken (receiving false 0 (sealedHdr 1 0 0 0 0) [] keyedConn) (sealedHdr 1 0 0 0 0)).bufferFor 4 0 = none := by decide +kernel

theorem witness_ConnectionEvents_placed : let u := taken (receiving false 0 (sealedHdr 1 0 0 0 0) [] buffered) (sealedHdr 1 0 0 0 0)
    u.placeData (⟨0x2000, 64, none⟩ : Posted).waiter (u.connCtx 4) 0x2000 0 0 65 [] = .ok u 0 := rfl

def half : RxMsg := ⟨3, ⟨0x2000, 64, none⟩, [0], 1, none, none, 0, false, false, none, 0, 0⟩

theorem witness_ConnectionEvents_registers :
    (let s (w : Word) (k : Conn) : State := { State.reset with ev := { Ev.none with a := 4, b := 3, w := w }, net := { State.reset.net with conns := [(4, k)] } }
     (s 0 keyedConn).connBits 4 63 63 = 0 ∧ ((s 0 keyedConn).conn 4).keyed = true ∧ bits (0x3000000000000000 : Word) 61 60 = 3 ∧ ((s 0 Conn.idle).conn 4).keyed = false ∧
      ((s 0 { keyedConn with rx := [half] }).conn 4).rx.find? (fun m => m.msn = BitVec.ofNat 16 3) = some half) ∧
    (netting false 1 1 [] keyedConn).connBits 4 63 63 = 1 ∧ ((netting false 1 1 [] keyedConn).conn 4).posted = [] := by decide +kernel

/-! Host queues: queue 1 of context 0 with the table entry `w0`, ring of 16 records at codeVa, indices `idx`; `rec` is its first record, and a
launch record of one cluster of one core follows at codeVa + 256. -/

def launchWords : List Word := [codeVa, 0, 0x0001000100010000, 0x0018000000000000] ++ List.replicate 28 0

def hosted (slots : Tab QSlot) (pend : List PendQ) (rec : List Word) (ev : Word) (w0 : Word := 0x1800000000000000) (idx : Word := 0) (launch : List Word := launchWords) : State :=
  let s := withCode State.reset ((rec ++ List.replicate 32 0).take 32 ++ launch)
  let e (i : Nat) (w : Word) : BitVec 1024 := BitVec.ofNat 1024 (w.toNat * 2 ^ (64 * i))
  { s with
    coh := { s.coh with l2 := [⟨0, e 8 w0 ||| e 9 codeVa ||| e 10 0x2000000000000000 ||| e 11 idx, 0, 0, [], false⟩] }
    mgmt := [(Reg.queue 0 0, 1), (Reg.queue 0 8, 0x0400000000000000), (Reg.sync 0, 1), (Reg.sched 0 0, 1), (Reg.trans 0 0, 1)]
    que := { s.que with slots := slots, pending := pend }
    ev := { Ev.none with w := ev, b := 1 }
    timebase := 200000 }

/-- A slot that maps it. -/
def slotOf1 (st : SlotSt) (wr : BitVec 32) (h : Bool := false) : QSlot := ⟨st, 0, 1, 3, 0, wr, 0, h, 0, [], none⟩
def pend1 : PendQ := ⟨0, 1, 9, 0⟩
def kick (wr : Word) : Word := (1 <<< 48) ||| wr

theorem witness_QueueTableEvents_kick :
    (hosted [(7, slotOf1 .saving 0)] [] [] (kick 3)).queueSlot 0 1 = some 7 ∧
    (let s := hosted [(7, slotOf1 .active 0)] [] [] (kick 16)
     s.queueSlot 0 1 = some 7 ∧ s.qen 0 = true ∧ Qw.type (s.qword 0 1 0) = 1 ∧ Qw.en (s.qword 0 1 0) = true ∧ Qw.err (s.qword 0 1 0) = false ∧
      s.logsz 0 1 = some 4 ∧ bits s.ev.w 31 0 = 16) ∧
    ((State.reset).qen 0 = false ∧ Qw.type ((hosted [] [] [] (kick 0) 0x2800000000000000).qword 0 1 0) = 2 ∧
      Qw.en ((hosted [] [] [] (kick 0) 0x1000000000000000).qword 0 1 0) = false ∧ Qw.err ((hosted [] [] [] (kick 0) 0x1C00000000000000).qword 0 1 0) = true) ∧
    ((hosted [] [] [] (kick 17)).queueSlot 0 1 = none ∧ ¬ ((17 : Nat) ≤ 2 ^ 4)) ∧
    (let s := hosted [] [] [] (kick 3)
     s.queueSlot 0 1 = none ∧ s.logsz 0 1 = some 4) := by decide +kernel

/-- R91: the kick makes the queue pending, and firmware maps it to slot 0 at once. -/
theorem test_kick : ((after .doorbellKick (hosted [] [] [] (kick 3))).qslot 0).st = .restoring ∧ ((after .doorbellKick (hosted [] [] [] (kick 3))).qslot 0).wrix = 3 ∧
    ((after .doorbellKick (hosted [(7, slotOf1 .active 0)] [] [] (kick 3))).qslot 7).wrix = 3 := by decide +kernel

theorem witness_QueueTableEvents_firmware :
    (let s := hosted [] [pend1] [] 0
     s.que.pending = [pend1] ∧ s.quota 0 ≠ 0 ∧ s.qen 0 = true ∧ (∀ j < 64, (s.qslot j).nextQ ≠ some (0, 1)) ∧ s.mapped 0 < s.quota 0 ∧
      ((List.range 64).find? fun j => (s.qslot j).st = .free) = some 0) ∧
    (let full (wr : BitVec 32) : Tab QSlot := (List.range 64).map fun j => (j, { slotOf1 .active wr with qh := 2, mappedAt := if j = 63 then 0 else 199999 })
     let s := hosted (full 0) [pend1] [] 0
     (∀ j < 64, (s.qslot j).st = .active) ∧ s.quantum ≤ (s.timebase - (s.qslot 63).mappedAt).toNat ∧
      (∀ j < 63, (s.timebase - (s.qslot j).mappedAt).toNat < s.quantum) ∧ (s.qslot 63).victimPri < ((satInc pend1.epri).toNat : Int) ∧
      ¬ (({ slotOf1 .active 5 with epri := 200 } : QSlot).victimPri < ((satInc pend1.epri).toNat : Int))) := by decide +kernel

theorem witness_QueueTableEvents_slots :
    ((hosted [(0, slotOf1 .restoring 0)] [] [] 0).qslot 0).st = .restoring ∧ ((hosted [(0, slotOf1 .saving 3)] [] [] 0).qslot 0).held = [] ∧
    (let s := hosted [(0, { slotOf1 .saving 0 with nextQ := some (0, 2) })] [{ pend1 with qh := 2 }] [] 0
     (s.qslot 0).nextQ = some (0, 2) ∧ (s.qslot 0).rdix = (s.qslot 0).wrix ∧ s.que.pending = [{ pend1 with qh := 2 }]) ∧
    (hosted [] [] [] 0 0x1000000000000000).qword 0 1 0 = 0x1000000000000000 := by decide +kernel

theorem witness_QueueTableEvents_ops :
    (let s := hosted [(2, slotOf1 .active 0)] [] [] 0
     Qw.type ((s.setEntry0 0 1 59 false).qword 0 1 0) = 1 ∧ ((s.setEntry0 0 1 59 false).unpend 0 1).queueSlot 0 1 = some 2) ∧
    ((hosted [] [pend1] [] 0).setEntry0 0 1 59 false |>.unpend 0 1).queueSlot 0 1 = none ∧
    Qw.type (((hosted [] [] [] 0 0x2800000000000000).setEntry0 0 1 59 false).qword 0 1 0) = 2 ∧
    (let e := (hosted [] [] [] 0 0x1C00000000000000 3).setEntry0 0 1 58 false
     Qw.type (e.qword 0 1 0) = 1 ∧ e.queueSlot 0 1 = none ∧ bits (e.qword 0 1 3) 63 32 ≠ bits (e.qword 0 1 3) 31 0) := by decide +kernel

theorem witness_QueueTableEvents_rings :
    (let s : State := { hosted [] [] [] 0 with mgmt := [(Reg.queue 0 32, 0x0000020000000000)], que := { State.reset.que with since := [(0, (1, 3000))] } }
     s.regBits (Reg.queue 0 32) 55 40 = 2 ∧ (Tab.get (0, 0) s.que.since 0) = (1, 3000) ∧ 1000 * 2 ≤ (s.timebase - 3000).toNat) ∧
    (State.reset.ringTail 0 = 0 ∧ (BitVec.ofNat 32 (bits (0x0000000500000000 : Word) 63 32) - State.reset.ringTail 0).toNat = 5 ∧ State.reset.que.held = []) := by
  decide +kernel

/-! Records. -/

def recOf (x : NextRec) : Option (Option (List Word) × BitVec 48) :=
  match x with
  | .record _ w q => some (w, q)
  | _ => none

def noRec (x : NextRec) : Bool :=
  match x with
  | .none => true
  | _ => false

def waitRec (x : NextRec) : Bool :=
  match x with
  | .wait _ => true
  | _ => false

def recWords (op : Nat) (b1 b2 b3 : Word) : List Word := [BitVec.ofNat 64 (op * 2 ^ 56), b1, b2, b3, 0, 0, 0, 0]

/-- Slot 0 has one record to read. -/
def recorded (rec : List Word) (launch : List Word := launchWords) (h : Bool := false) : State :=
  hosted [(0, { slotOf1 .active 1 with hwait := h, rdix := b2n h, cseq := b2n h })] [] rec 0 (launch := launch)

theorem witness_CommandRecords_next :
    noRec ((hosted [(0, slotOf1 .active 0)] [] [] 0).nextRecord 0) = true ∧ noRec ((hosted [(0, slotOf1 .saving 1)] [] [] 0).nextRecord 0) = true ∧
    (∀ op ∈ [0, 1, 2, 3], recOf ((recorded (recWords op 0 0 0)).nextRecord 0) = some (some (recWords op 0 0 0), 0) ∧ recordRow (some (recWords op 0 0 0)) = op) ∧
    recOf ((recorded (recWords 2 0 0 0) launchWords true).nextRecord 0) = some (some (recWords 2 0 0 0), 0) ∧
    waitRec (({ recorded [] with cxl := { (recorded []).cxl with kernels := [] } } : State).nextRecord 0) = false ∧
    recOf (({ recorded [] with cxl := { (recorded []).cxl with kernels := [] } } : State).nextRecord 0) = some (none, 0) ∧
    (let s := recorded (recWords 0 0 0 0)
     (s.qslot 0).st = .active ∧ s.ringFull 0 = false ∧ s.qen 0 = true ∧ s.running 0 1 < 16 ∧
      ((recorded (recWords 0 1 0 0)).malformed 0 (recWords 0 1 0 0)) = true) := by decide +kernel

def launchOk (x : LaunchRec) : Option (Nat × Bool) :=
  match x with
  | .ok v l => some (l.gx, v.refusesLaunch l)
  | .bad _ chk => some (chk, true)
  | .wait _ => none

theorem witness_CommandRecords_launch :
    (let s := recorded (recWords 1 (codeVa + 256) 0 0)
     s.malformed 0 (recWords 1 (codeVa + 256) 0 0) = false ∧ launchOk (s.launchRecord 0 1 0 false (codeVa + 256)) = some (1, false) ∧
      launchOk (({ s with mgmt := [(Reg.queue 0 0, 1), (Reg.sched 0 0, 0), (Reg.trans 0 0, 1)] } : State).launchRecord 0 1 0 false (codeVa + 256)) = some (1, true) ∧
      launchOk (s.launchRecord 0 1 0 false (codeVa + 8)) = some (3, true)) := by decide +kernel

def readOf (x : Except Xlat (State × Nat)) : Option Nat :=
  match x with
  | .ok (_, v) => some v
  | _ => none

theorem witness_CommandRecords_waitv :
    (let s := recorded (recWords 2 codeVa 5 0)
     s.malformed 0 (recWords 2 codeVa 5 0) = false ∧ readOf (s.readVa (.queue 0 1) 0 codeVa 8) = some (2 * 2 ^ 56)) ∧
    (recorded []).malformed 0 (recWords 2 4 0 0x2000000000000000) = false ∧ ((recorded []).syn (synKey 0 4)).val = 0 ∧
    (recorded []).malformed 0 (recWords 3 4 7 0x2000000000000000) = false ∧ (recorded []).running 0 1 = 0 := by decide +kernel

/-- SIGNAL to the first word of the mapped page, whose tables and line the L2 holds. -/
def signalling : State :=
  let s := recorded (recWords 3 dataVa 7 0)
  { s with
    mgmt := (0xB0000, 0x4002) :: (Reg.trans 0 0, 0x8001) :: s.mgmt
    coh := { s.coh with l2 := s.coh.l2 ++ [⟨256, 0x10001, 0, 0, [], false⟩, ⟨640, 0x18001, 0, 0, [], false⟩, ⟨768, 0x10009F, 0, 0, [], false⟩,
      ⟨8192, 0, 0, 0, [], false⟩] } }

/-- A WAITV that has begun, over a full event ring. -/
theorem witness_CommandRecords_begun :
    (let s : State := recorded (recWords 2 codeVa 5 0) launchWords true
     let u : State := { s with mgmt := (Reg.queue 0 24, 64) :: s.mgmt, que := { s.que with begun := [(0, 1)] } }
     (u.qslot 0).hwait = true ∧ u.ringFull 0 = true ∧ recOf (u.nextRecord 0) = some (some (recWords 2 codeVa 5 0), 0) ∧ ((0 : BitVec 12), (1 : BitVec 16)) ∈ u.que.begun ∧
       u.malformed 0 (recWords 2 codeVa 5 0) = false) ∧
    (let s : State := recorded (recWords 2 codeVa 5 0)
     let t : State := { s with que := { s.que with slots := [(0, { slotOf1 .active 1 with rdix := 1 })] } }
     (t.qslot 0).rdix ≠ (s.qslot 0).rdix ∧ (t.qslot 0).rdix = (t.qslot 0).wrix) := by decide +kernel

theorem witness_CommandRecords_signal : signalling.malformed 0 (recWords 3 dataVa 7 0) = false ∧ signalling.running 0 1 = 0 ∧
    signalling.reach (.queue 0 1) 0 dataVa 8 .engine = .ok (placeOf dataVa, .wb, false) ∧
    ∃ x, ((signalling.recall 8192).raiseRts 8192 (signalling.partHigh + 1)).writeVa (.queue 0 1) 0 dataVa 8 7 false = .ok x := by
  refine ⟨by decide +kernel, by decide +kernel, ?_, _, writeVa_mapped (by decide +kernel) 7⟩
  have h : (maps signalling (.queue 0 1) dataVa && !signalling.awaits (.queue 0 1) && !signalling.heldAt (.queue 0 1) (placeOf dataVa) 8 true false) = true := by
    decide +kernel
  simp only [Bool.and_eq_true, Bool.not_eq_true'] at h
  simp only [State.reach, h.1.2, translateN_mapped _ _ dataVa 8 .engine h.1.1, show AccKind.engine.writes = true from rfl, h.2]
  rfl

/-- R97: SIGNAL to synchronisation variable 4; WAITV on it then ends. -/
theorem test_signal : ((after .signal (recorded (recWords 3 4 7 0x2000000000000000))).syn (synKey 0 4)).val = 7 ∧
    ((after .waitv (recorded (recWords 2 4 0 0x2000000000000000))).qslot 0).hwait = false ∧
    ((after .waitv (recorded (recWords 2 4 9 0x2000000000000000))).qslot 0).hwait = true := by decide +kernel

/-- R98, R125: the launch is admitted and is to be placed. -/
theorem test_launch : (after .launch (recorded (recWords 1 (codeVa + 256) 0 0))).toPlace = [1] := by decide +kernel

/-! Other heads: extent 0 covers block 0 for context 0, open to head 3, in the state `est`; page 1 has the filter entry `f`. -/

def shared' (est : Word) (f : Tab Filter) (pa : Nat) (l : List Nat := []) : State :=
  { State.reset with
    mgmt := [(Reg.extent 0 0, 0x4000 ||| est), (Reg.extent 0 8, 8)]
    cxl := { State.reset.cxl with filter := f, lostHeads := l }
    ev := { Ev.none with a := 3, b := pa }
    timebase := 200000 }

def entry (st : FState) (vec await : BitVec 64) : Filter := { Filter.idle with st := st, vec := vec, await := await, nextSt := .s, nextVec := 9 }
def onPage (f : Filter) : Tab Filter := [(1, f)]
def pa1 : Nat := 32768

/-- Sixteen entries of one set: pages 65537, 131073, … with the page asked for not among them. -/
def fullSet (await : BitVec 64) : Tab Filter := (List.range 16).map fun i => (65536 * (i + 1) + 1, entry .s 2 await)

theorem witness_HeadsLeasesAndExtents_heads :
    3 ∈ (shared' 2 [] pa1 [3]).cxl.lostHeads ∧ (shared' 2 [] pa1).extentReg pa1 = some (Reg.extent 0 0) ∧ (shared' 2 [] (2 ^ 40)).extentReg (2 ^ 40) = none ∧
    (shared' 3 [] pa1).regBits (Reg.extent 0 0) 1 0 = 3 ∧ bit ((shared' 2 [] pa1).reg (Reg.extent 0 8)) 3 = true ∧ bit ((shared' 2 [] pa1).reg (Reg.extent 0 8)) 4 = false ∧
    (shared' 1 [] pa1).regBits (Reg.extent 0 0) 1 0 = 1 ∧
    (∀ f ∈ [entry .i 0 0, entry .s 1 0, entry .s 9 0, entry .e 8 0, entry .e 1 0], (shared' 2 (onPage f) pa1).filter 1 = f ∧ f.await = 0 ∧
      (shared' 2 (onPage f) pa1).filterVictim 1 = none) ∧
    (entry .s 1 5).await ≠ 0 ∧ ({ entry .s 1 5 with waiting := List.replicate 32 ⟨some 1, none, 0, false, none⟩ } : Filter).waiting.length = 32 ∧
    (shared' 2 (fullSet 1) pa1).filterVictim 1 = some none ∧ (shared' 2 (fullSet 0) pa1).filterVictim 1 = some (some 65537) := by decide +kernel

theorem witness_HeadsLeasesAndExtents_evictions :
    (let s := shared' 2 (onPage (entry .s 9 0)) pa1
     bit (s.filter 1).vec 3 = true ∧ s.ev.flag = false ∧ ((s.filter 1).without 3).vec ≠ 0) ∧
    bit ((shared' 2 (onPage (entry .s 1 0)) pa1).filter 1).vec 3 = false ∧
    ((entry .s 8 0).without 3).vec = 0 ∧ ((entry .s 8 0).without 3).waiting = [] ∧ (entry .s 8 8).await ≠ 0 := by decide +kernel

/-- Answers of head 3 about page 1: `ev.b` is the page. -/
theorem witness_HeadsLeasesAndExtents_answers :
    (let s := shared' 2 (onPage { entry .s 9 9 with since := 0 }) 1
     bit (s.filter 1).await 3 = true ∧ (s.filter 1).await &&& ~~~headBit 3 ≠ 0 ∧ 100000 ≤ (s.timebase - (s.filter 1).since).toNat) ∧
    (let s := shared' 2 (onPage { entry .s 9 8 with since := 150000 }) 1
     (s.filter 1).await &&& ~~~headBit 3 = 0 ∧ (s.filter 1).waiting = [] ∧ (s.filter 1).pending = none ∧ (s.timebase - (s.filter 1).since).toNat < 100000) ∧
    (let r : FReq := ⟨some 5, none, pa1, true, none⟩
     ({ entry .s 9 8 with pending := some r } : Filter).pending = some r ∧ r.head = some 5 ∧ r.pa / 2 ^ 15 = 1) ∧
    (let f (k : Nat) : Filter := { entry .s 9 8 with got := [(3, BitVec.allOnes 128 ^^^ BitVec.ofNat 128 (2 ^ k))] }
     ∀ k ∈ [0, 127], Tab.get 0 (f k).got 3 ||| BitVec.ofNat 128 (2 ^ k) = BitVec.allOnes 128 ∧ Tab.get 0 (f 5).got 3 ||| 1 ≠ BitVec.allOnes 128) := by
  decide +kernel

def leased (cuts : List Nat) (half : Option HalfSt) (flag : Bool) (done : Bool := false) : State :=
  { State.reset with cxl := { State.reset.cxl with cuts := cuts.map fun p => ⟨p, 0, 1, done⟩, halves := match half with
                                | some h => [(1, h)]
                                | none => [] }, ev := { Ev.none with a := 64, flag := flag } }

theorem witness_HeadsLeasesAndExtents_leases :
    (let due (s : State) : Option Cut := s.cxl.cuts.find? fun x => x.page = 64 && !x.done
     due (leased [64] none false) = some ⟨64, 0, 1, false⟩ ∧ due (leased [] none false) = none ∧ due (leased [64] none false true) = none) ∧
    (∀ d ∈ [true, false], ∀ k ∈ [(0 : Nat), 127], (leased [64] none false d).cxl.cuts.find? (fun x => x.page = 64 && !(x.done && x.asked &&& BitVec.ofNat 128 (2 ^ k) ≠ 0)) =
      if d && k == 0 then none else some ⟨64, 0, 1, d⟩) ∧
    (leased [64] none false).busyAt (Sys2Proof.Machine.inPage 64) 0 = false ∧
    (leased [] none false).half 64 = none ∧ (∀ h ∈ [HalfSt.own, .shared, .asked false], (leased [] (some h) true).half 64 = some h) ∧
    (farMeshed.busyAt (Sys2Proof.Machine.inPage 32) 100) = true := by decide +kernel

theorem witness_HeadsLeasesAndExtents_half : populated 64 = true := populated_first _ (by decide)

theorem witness_HeadsLeasesAndExtents_lost : (leased [64] none false).lost (64 * 2 ^ 15) = false := lost_first _ _ (by decide)

def extending (w : Word) (b n : Nat) : State := { State.reset with mgmt := [(Reg.extent 0 0, w)], ev := { Ev.none with b := n, a := b } }

theorem witness_HeadsLeasesAndExtents_add :
    (0 < 1 ∧ (1 : Nat) < 8192) ∧ (extending 0 0 1).regBits (Reg.extent 0 0) 1 0 = 0 ∧ (extending 0x4002 0 1).regBits (Reg.extent 0 0) 1 0 = 2 ∧
    bits ((extending 0x4002 0 1).reg (Reg.extent 0 0)) 26 14 = 1 := by decide +kernel

/-- In every other register of the table nothing stands. -/
theorem extents_free (w : Word) (b n y : Nat) (hy : y < 4096) (h : y ≠ 0) : (extending w b n).reg (Reg.extent y 0) = 0 := by
  have e : Reg.extent 0 0 ≠ Reg.extent y 0 := by simp [Reg.extent]; omega
  have r : regReset (Reg.extent y 0) = 0 := by
    have h1 : Reg.extent y 0 = 0xB0000 + 16 * y := rfl
    unfold regReset
    rw [h1]
    repeat rw [if_neg (by omega)]
  simp only [State.reg, extending, Tab.get, if_neg e, r]

theorem witness_HeadsLeasesAndExtents_first : ∀ y < 4096, (extending 0 0 1).regBits (Reg.extent y 0) 1 0 = 0 := by
  intro y hy
  by_cases h : y = 0
  · rw [h]
    decide +kernel
  · rw [State.regBits, extents_free 0 0 1 y hy h]
    rfl

theorem witness_HeadsLeasesAndExtents_drain :
    (extending 0x4001 0 0).regBits (Reg.extent 0 0) 1 0 = 1 ∧ (extending 0x4002 0 0).regBits (Reg.extent 0 0) 1 0 = 2 ∧
    (extending 0x4003 0 0).regBits (Reg.extent 0 0) 1 0 = 3 ∧ (extending 0x4003 0 0).busyAt (inExtent 0x4003) 0 = false ∧ (extending 0x4003 0 0).headsBusy (inExtent 0x4003) = false := by
  refine ⟨by decide +kernel, by decide +kernel, by decide +kernel, by decide +kernel, by decide +kernel⟩

/-! Task packets: 30 words and the MAC under the key of connection 3968 (head 0), whose key is 0. -/

def packetBody (serial : Word) : List Word := [0x0100000000000000, serial] ++ List.replicate 28 0
def macOf (b : List Word) : BitVec 128 := Config.gcmTag 0 (BitVec.ofNat 96 (3968 * 2 ^ 64 + (b.getD 1 0).toNat)) (bytesOfWords b) []
def taskPacket (serial : Word) : List Word := packetBody serial ++ [(macOf (packetBody serial)).setWidth 64, (macOf (packetBody serial) >>> 64).setWidth 64]

def taskLaunch : List Word := [codeVa, dataVa] ++ launchWords.drop 2

/-- The kernel of hash 0, extent 0 of context 0 open to head 0, and the mapped page with its tables. -/
def intake (w : List Word) : State :=
  { State.reset with
    mgmt := (0xB0000, 0x4002) :: (Reg.trans 0 0, 0x8001) :: [(Reg.extent 0 8, 1)]
    coh := { State.reset.coh with l2 := [⟨256, 0x10001, 0, 0, [], false⟩, ⟨640, 0x18001, 0, 0, [], false⟩, ⟨768, 0x10009F, 0, 0, [], false⟩,
      ⟨8192, 0, 0, 0, [], false⟩, ⟨8193, 0, 0, 0, [], false⟩] }
    net := { State.reset.net with conns := [(3968, { keyedConn with lastSerial := 1 })] }
    cxl := { State.reset.cxl with packets := [(3968, true, w)], kernels := [(0, some ⟨0, taskLaunch, [], false⟩)] } }

theorem mac_words (t : BitVec 128) : BitVec.ofNat 128 ((t.setWidth 64).toNat + 2 ^ 64 * ((t >>> 64).setWidth 64).toNat) = t := by
  apply BitVec.eq_of_toNat_eq
  have := t.isLt
  simp only [BitVec.toNat_ofNat, BitVec.toNat_setWidth, BitVec.toNat_ushiftRight, Nat.shiftRight_eq_div_pow]
  omega

theorem witness_ImagesTasksAndExpanderLoss_accepted : (intake (taskPacket 2)).packetStatus 3968 true (taskPacket 2) = 0 := by
  have d (i : Nat) (hi : i < 30) : (taskPacket 2).getD i 0 = (packetBody 2).getD i 0 := by
    have : i < (packetBody 2).length := hi
    rw [List.getD_eq_getElem?_getD, List.getD_eq_getElem?_getD, taskPacket, List.getElem?_append_left this]
  have m0 : (taskPacket 2).getD 30 0 = (macOf (packetBody 2)).setWidth 64 := rfl
  have m1 : (taskPacket 2).getD 31 0 = (macOf (packetBody 2) >>> 64).setWidth 64 := rfl
  have t30 : (taskPacket 2).take 30 = packetBody 2 := rfl
  have kh : khashOf (taskPacket 2) = 0 := by decide +kernel
  have ko : (intake (taskPacket 2)).kernelOf 0 = some 0 := rfl
  have ck : (intake (taskPacket 2)).connKey 3968 = 0 := by decide +kernel
  have mac : packetMac 0 3968 (taskPacket 2) = macOf (packetBody 2) := by
    simp only [packetMac, gmac, t30, d 1 (by decide)]
    rfl
  unfold State.packetStatus
  have ke : ((intake (taskPacket 2)).conn 3968).keyed = true := by decide +kernel
  simp only [d 0 (by decide), d 1 (by decide), d 8 (by decide), m0, m1, mac_words, ck, mac, kh, ko, ke]
  rw [if_neg (by decide +kernel), if_neg (by simp), if_neg (by decide +kernel), if_neg (by decide), if_neg (by decide +kernel), if_neg (by decide +kernel),
    if_neg (by decide +kernel)]

/-- Bytes can be written from there, line by line. -/
def argsFit (s : State) (va : Word) : Nat → List Byte → Bool
  | 0, _ => true
  | n + 1, l =>
    let m := min l.length (128 - va.toNat % 128)
    l.isEmpty || (writable .intake s va m && argsFit (wrote .intake s va m (leNat (l.take m))).1 (va + BitVec.ofNat 64 m) n (l.drop m))

theorem writeArgs_mapped (n : Nat) {s : State} (va : Word) (ts : BitVec 48) (l : List Byte) (h : argsFit s va n l = true) :
    ∃ u ts', s.writeArgs 0 va ts n l = .ok u ts' := by
  induction n generalizing s va ts l with
  | zero => exact ⟨s, ts, rfl⟩
  | succ n ih =>
    unfold State.writeArgs
    by_cases hl : l.isEmpty = true
    · rw [if_pos hl]
      exact ⟨s, ts, rfl⟩
    · simp only [argsFit, hl, Bool.false_or, Bool.and_eq_true] at h
      rw [if_neg hl]
      simp only [writeVa_mapped h.1]
      exact ih _ _ _ h.2

def taskOf : Launch := { Launch.none with ctx := 0, task := true, words := taskLaunch }

/-- The launch record passes its checks, the launch is not refused, and the arguments go to memory. -/
theorem witness_ImagesTasksAndExpanderLoss_launched :
    launchOk ((intake (taskPacket 2)).checkRecord .intake taskOf) = some (1, false) ∧ taskOf.argb = dataVa ∧
    ∃ v ts, (intake (taskPacket 2)).writeArgs 0 dataVa 0 4 (bytesOfWords (((taskPacket 2).drop 10).take 20)) = .ok v ts := by
  exact ⟨by decide +kernel, by decide +kernel, writeArgs_mapped _ dataVa 0 _ (by decide +kernel)⟩

/-- The task of the packet on its way to its first group; `args` says where its arguments go, `more` is what else holds. -/
def starting (args : Word) (more : State → State := id) : State :=
  let s := intake []
  more { s with cxl := { s.cxl with
    packets := []
    starting := some (⟨3968, true, 0, 2, 0, 0, 0⟩, List.replicate 20 7)
    kernels := [(0, some ⟨0, [codeVa, args] ++ launchWords.drop 2, [], false⟩)] } }

def argsGo (s : State) (a : Word) : Option (Option (BitVec 8)) :=
  match s.writeArgs 0 a 0 4 (bytesOfWords (List.replicate 20 7)) with
  | .ok _ _ => some none
  | .fault _ k => some (some k)
  | .wait _ => none

def startOf (a : Word) : Launch := { taskOf with words := [codeVa, a] ++ launchWords.drop 2 }

/-- Arguments that go to no address; to the code window, while the intake awaits a page; and a context of no section. -/
theorem witness_ImagesTasksAndExpanderLoss_starting :
    (let s := starting 0x8000000000000
     s.cxl.starting.isSome = true ∧ (Tab.get none s.cxl.kernels 0).isSome = true ∧ launchOk (s.checkRecord .intake (startOf 0x8000000000000)) = some (1, false) ∧
     argsGo s 0x8000000000000 = some (some 2)) ∧
    (let s := starting codeVa fun s => { s with mmu := { s.mmu with reqs := [⟨5, 0, 0, false, false, false, [.intake]⟩] } }
     launchOk (s.checkRecord .intake (startOf codeVa)) = some (1, false) ∧ argsGo s codeVa = none) ∧
    (let s := starting codeVa fun s => { s with mgmt := (Reg.sched 0 0, 0) :: s.mgmt }
     launchOk (s.checkRecord .intake (startOf codeVa)) = some (1, true)) ∧
    launchOk ((starting codeVa).checkRecord .intake { taskOf with words := [] }) = some (2, true) ∧
    (let s := starting codeVa
     s.sch.launches = [] ∧ ∃ x, s.cxl.starting = some x ∧ x.1.ctx = 0) ∧ (intake []).cxl.starting = none := by
  refine ⟨by decide +kernel, by decide +kernel, by decide +kernel, by decide +kernel, ⟨rfl, _, rfl, rfl⟩, rfl⟩

/-- Wrong packets: their status is that of the check they fail. -/
theorem witness_ImagesTasksAndExpanderLoss_refused : (intake []).packetStatus 3968 true [] = 1 ∧ bits ((([] : List Word)).getD 0 0) 63 56 ≠ 1 ∧
    (intake (packetBody 2)).packetStatus 3969 true (packetBody 2) = 2 := by decide +kernel

/-- A result for a task that waits since time 5. -/
def awaiting : Await := ⟨7, 9, codeVa, ⟨0, 0, 6, 1⟩, 5, none⟩

def resulting (flag : Bool) (serial : Word) (res : List (Nat × List Word)) (now : Word) : State :=
  let s := netting false 1 1 [] { keyedConn with awaiting := [awaiting] }
  { s with ev := { Ev.none with a := 4, w := serial, flag := flag, words := [9, serial, 0, 0] }, cxl := { s.cxl with results := res }, timebase := now }

theorem witness_ImagesTasksAndExpanderLoss_results :
    ((resulting true 7 [] 0).conn 4).awaiting.find? (fun a => a.serial = (resulting true 7 [] 0).ev.words.getD 1 0) = some awaiting ∧
    ((resulting true 8 [] 0).conn 4).awaiting.find? (fun a => a.serial = (resulting true 8 [] 0).ev.words.getD 1 0) = none ∧
    (resulting false 7 [(4, [9, 7, 0, 0])] 0).cxl.results = [(4, [9, 7, 0, 0])] ∧
    100000000 ≤ ((resulting false 7 [] 100000005).timebase - awaiting.start).toNat ∧
    ((resulting false 7 [] 100000004).timebase - awaiting.start).toNat < 100000000 := by decide +kernel

theorem witness_ImagesTasksAndExpanderLoss_waits : (resulting true 7 [] 0).resultWaits awaiting.cmd awaiting.va = none ∧
    (let s := resulting true 7 [] 0
     ({ s with mmu := { s.mmu with reqs := [⟨5, 0, 0, false, false, false, [.engine 0 0 6]⟩] } } : State).resultWaits awaiting.cmd awaiting.va).isSome = true := by
  have h : ((resulting true 7 [] 0).resultWaits awaiting.cmd awaiting.va).isSome = false := by decide +kernel
  exact ⟨Option.not_isSome_iff_eq_none.1 (by rw [h]; decide), by decide +kernel⟩

/-- A group's atomic at the first byte of the second tier, 10 ms old. -/
def aged : State :=
  let s := farMeshed
  { s with
    cur := { s.cur with inflight := [{ farAdd with lanes := farAdd.lanes.map fun l => { l with pa := 2 ^ 48 } }] }
    ev := { Ev.none with a := (Config.hdmDecoder (2 ^ 48)).toNat }
    timebase := 10000000 + farAdd.since }

theorem witness_ImagesTasksAndExpanderLoss_late (h : Config.fittingL = false) :
    ∃ g ∈ aged.groups, ∃ a ∈ g.inflight, a.pendingAt (inRange aged.ev.a) = true ∧ 10000000 ≤ (aged.timebase - a.since).toNat := by
  refine ⟨aged.cur, List.mem_filter.2 ⟨List.mem_cons_self, by decide +kernel⟩, _, List.mem_singleton.2 rfl, ?_, by decide +kernel⟩
  have e : aged.ev.a = (Config.hdmDecoder (2 ^ 48)).toNat := rfl
  simp [Access.pendingAt, farAdd, inRange, secondTier, h, e]

theorem witness_ImagesTasksAndExpanderLoss_lost :
    (let s : State := { State.reset with mgmt := [(Reg.lostd, 1)] }
     bit (s.reg Reg.lostd) 0 = true ∧ bit (s.reg Reg.lostd) 7 = false ∧ ∀ g ∈ s.groups, g.inflight = []) ∧
    (∀ x ∈ State.reset.sch.launches, x.2.ctx = 5 → x.2.finished = true) ∧
    (∃ x ∈ (placing true).sch.launches, x.2.ctx = 0 ∧ x.2.finished = false) := by decide +kernel

/-- R63: a registered hash is unregistered; its image is let go. -/
theorem test_unregister : (after .imageUnregister { intake [] with ev := { Ev.none with words := List.replicate 6 0 } }).kernelOf 0 = none := by decide +kernel

/-! The package. -/

def packaged (e : Entry) (i : Island) (health : Word) : State :=
  { State.reset with pkg := { State.reset.pkg with entry := e, islands := [(5, i)] }, ev := { Ev.none with a := 5 }, mgmt := [(Reg.health 5 8, health), (Reg.threshold 5 0, 0x0064000F00010000)] }

theorem witness_PackageEvents :
    (packaged ⟨false, true, false, false⟩ (Island.idle 5) 0).pkg.entry.inRange = false ∧
    (let e := (packaged ⟨true, false, false, true⟩ (Island.idle 5) 0).pkg.entry
     e.inRange = true ∧ e.held = true) ∧
    ((packaged ⟨true, false, false, false⟩ { Island.idle 5 with stepTo := 900 } 0).island 5).stepTo = 900 ∧
    ((packaged ⟨true, false, false, false⟩ { Island.idle 5 with held := true } 0).island 5).held = true ∧
    (let s := packaged ⟨false, false, false, false⟩ (Island.idle 5) 0
     (s.island 5).held = false ∧ s.pkg.entry.held = false) ∧
    ((packaged ⟨true, false, false, false⟩ { Island.idle 5 with tripped := true } 0).island 5).tripped = true ∧
    (∀ g ∈ (packaged ⟨true, false, false, false⟩ (Island.idle 5) 0).groups, islandOf g.core ≠ 5) ∧     (packaged ⟨true, false, false, false⟩ (Island.idle 5) 0).ev.islands = [] ∧ (packaged ⟨true, false, false, false⟩ (Island.idle 5) 0).ev.health = [] := by decide +kernel

theorem witness_PackageEvents_lane : absentLane 5 = false ∧ absentLane 199 = false ∧
    (packaged ⟨true, false, false, false⟩ (Island.idle 5) 0).launchesOn 5 = [] ∧
    (∀ f ∈ [(linkFrame 0 0 2), (linkFrame 1 0 0)], (linked f false false).eventRuns .frameReceive Ev.none = true) ∧
    ({ packaged ⟨true, false, false, false⟩ { Island.idle 5 with held := true } 0 with ev := Ev.none }).eventRuns .clauseStart { Ev.none with a := 5 * 8 } = false := by
  refine ⟨by simp [absentLane], by simp [absentLane], by decide +kernel, by decide +kernel, by decide +kernel⟩

def lowEye : HealthSample := ⟨0x63, 0xF, 0, 0⟩
def goodEye : HealthSample := ⟨0x64, 0xF, 0x10000, 0x100⟩

theorem witness_PackageEvents_health :
    (let lim := (packaged ⟨true, false, false, false⟩ (Island.idle 5) 0).reg (Reg.threshold 5 0)
     lowEye.eyeh.toNat < bits lim 63 48 ∧ ¬ (goodEye.eyeh.toNat < bits lim 63 48 ∨ goodEye.eyev.toNat < bits lim 47 32 ∨ bits lim 31 0 < goodEye.fecc.toNat)) ∧
    5 ∉ (packaged ⟨true, false, false, false⟩ (Island.idle 5) 0).pkg.degraded := by decide +kernel

/-- R18: the step down takes the island to 900 MHz. -/
theorem test_step_down : ((after .pyranoStepDown (packaged ⟨true, false, false, false⟩ { Island.idle 5 with stepTo := 900 } 0)).island 5).mhz = 900 := by decide +kernel

/-- Island 5 at 2,000 MHz with TLIM 105 degrees, at `temp` eighths of a degree, nine of its last windows stopped. -/
def heated (temp : Word) : State :=
  { packaged ⟨true, false, false, false⟩ { Island.idle 5 with windows := 0x1FF, tripped := true } 0 with
    mgmt := [(Reg.islandCtl 5, 0x690000000000), (Reg.telemetry 5, temp <<< 20)] }

theorem witness_PackageEvents_trip :
    (let s := heated 920
     s.stopsWanted 5 = 0 ∧ countOnes (((s.island 5).windows <<< 1) ||| BitVec.ofNat 10 (b2n (decide (countOnes (s.island 5).windows 9 < 0)))) 10 = 9 ∧
      s.tlim 5 + 80 ≤ s.tempNow 5) ∧ (heated 839).tempNow 5 < (heated 839).tlim 5 ∧ (heated 840).tlim 5 ≤ (heated 840).tempNow 5 := by decide +kernel

/-! Tables of context 0 at PA 0, 0x8000 and 0x10000, whose first entries lead VA 0 to the 32 KiB page at PA 2^20, pinned or not. -/

def leafOf (pinned : Bool) : Word := if pinned then 0x10009F else 0x10001F

def leafLine : Bool → LineData
  | true => 0x10009F
  | false => 0x10001F

def pagedMgmt (more : Tab Word) : Tab Word := [(Reg.trans 0 0, 3)] ++ more

def paged (pinned : Bool) (mmu : Mmu) (more : Tab Word := []) : State :=
  { State.reset with
    mgmt := pagedMgmt more
    coh := { State.reset.coh with l2 := [⟨0, 0x8001, 0, 0, [], false⟩, ⟨256, 0x10001, 0, 0, [], false⟩, ⟨512, leafLine pinned, 0, 0, [], false⟩] }
    mmu := mmu }

/-- The tables stand as said. -/
def pages (s : State) (p : Bool) : Bool := decide (walkOf s 0 = .leaf 2 (leafOf p) 0x10000)

theorem walk_low {s : State} {va : Word} {r : WalkRes} (hg : s.cxl.gone = []) (h : walkOf s va = r) (hr : r ≠ .bad 2 2 0) : s.walk 0 va = r := by
  have e : walkLow s va (s.rootOf 0 va) 3 = r := h
  rw [State.walk, walkLow_eq s hg va 3 _ (by rw [e]; exact hr), e]

theorem paged_walk (s : State) (hg : s.cxl.gone = []) (p : Bool) (h : pages s p = true) : s.walk 0 0 = .leaf 2 (leafOf p) 0x10000 :=
  walk_low hg (of_decide_eq_true h) (by simp)

def noMmu : Mmu := State.reset.mmu
def walkOf0 : Walk := ⟨0, 0, false, false, [.group 0 0]⟩
def reqOf0 : PageReq := ⟨5, 0, 0, false, false, false, [.group 0 0]⟩
def skimOf0 (st : SkimSt) (leaf : Word) (f : BitVec 256) (retry : BitVec 8) : Skim := ⟨0, 0, st, 2 ^ 20, 2 ^ 21, leaf, f, retry, true, 0⟩

theorem witness_TranslationEvents_walks : pages (paged false { noMmu with walks := [walkOf0] }) false = true ∧
    (paged false { noMmu with walks := [walkOf0] }).mmu.walks.find? (fun w => w.ctx = 0 && w.page = pageOf 0) = some walkOf0 ∧
    (paged false noMmu).mmu.walks.find? (fun w => w.ctx = 0 && w.page = pageOf 0) = none := by decide +kernel

def farVa : Word := 0x200000000000

/-- A walk that finds no page: VA 2^45, whose entry is 0. -/
theorem witness_TranslationEvents_absent :
    (paged false { noMmu with walks := [⟨0, pageOf farVa, false, false, []⟩] } [(Reg.mmu 0, 0)]).walk 0 farVa = .absent :=
  walk_low rfl (by decide +kernel) (by simp)

/-- A walk that meets a malformed entry: a table at the last level. -/
def badTables : State :=
  let s := paged false { noMmu with walks := [walkOf0] }
  { s with coh := { s.coh with l2 := [⟨0, 0x8001, 0, 0, [], false⟩, ⟨256, 0x10001, 0, 0, [], false⟩, ⟨512, 0x18001, 0, 0, [], false⟩] } }

theorem witness_TranslationEvents_bad : badTables.walk 0 0 = .bad 2 1 0 := walk_low rfl (by decide +kernel) (by simp)

theorem witness_TranslationEvents_requests :
    (∃ r ∈ (paged false { noMmu with reqs := [reqOf0] }).mmu.reqs, r.ctx = 0 ∧ r.page = pageOf 0) ∧
    (let f : PageReq → Bool := fun r => r.prid.toNat = bits (0x0000050000000001 : Word) 51 40 && r.ctx.toNat = bits (0x0000050000000001 : Word) 63 52
     (paged false { noMmu with reqs := [reqOf0] }).mmu.reqs.find? f = some reqOf0 ∧ (paged false noMmu).mmu.reqs.find? f = none ∧ bit (0x0000050000000001 : Word) 0 = true ∧
      bit (0x0000050000000000 : Word) 0 = false) ∧
    (paged false { noMmu with inval := some (0, true, 0, 1) }).mmu.inval = some (0, true, 0, 1) ∧ (paged false noMmu).mmu.inval = none ∧
    (∀ a ∈ [true, false], (paged false { noMmu with inval := some (0, a, 0, 1) }).groups.all (fun g => g.inflight.isEmpty) = true) ∧
    (paged false noMmu).mmu.inval = none := by decide +kernel

theorem witness_TranslationEvents_skimRequest : pages (paged false noMmu) false = true ∧ bits ((paged false noMmu).ev.w) 63 52 = 0 ∧
    (paged false noMmu).reg (Reg.mmu 0x20) = 0 ∧ (paged false noMmu).mmu.skims = [] ∧
    (∃ k ∈ (paged false { noMmu with skims := [skimOf0 .copy 0x10001F 0 0] }).mmu.skims, k.ctx = 0 ∧ k.page = pageOf 0) := by decide +kernel

def hotPage (p : Bool) (more : Tab Word) : State := paged p { noMmu with hotPages := [(0, 0)] } more

theorem witness_TranslationEvents_hot :
    (∀ p ∈ [true, false], pages { hotPage p [] with mmu := { (hotPage p []).mmu with hotPages := [] } } p = true ∧ Pte.pp (leafOf p) = p) ∧
    (0, pageOf 0) ∈ (hotPage false []).mmu.hotPages ∧ (0, pageOf 0) ∉ (paged false noMmu).mmu.hotPages ∧
    (hotPage false []).regBits (Reg.trans 0 16) 55 44 = 0 ∧
    (let s := hotPage false [(Reg.trans 0 16, 0x0400400000000000), (Reg.trans 0 32, 0x0001000000000000)]
     s.regBits (Reg.trans 0 0) 1 1 = 1 ∧ s.mmu.skims = [] ∧ s.regBits (Reg.trans 0 16) 55 44 = 4 ∧
      s.regBits (Reg.trans 0 32) 63 48 ≠ s.regBits (Reg.trans 0 32) 47 32) := by decide +kernel

/-- The state after the reads of the walk of VA 0. -/
def afterReads (s : State) : State := (readLow s 0 (s.rootOf 0 0) 3).getD s

theorem reads_after (s : State) (hg : s.cxl.gone = []) (h : (readLow s 0 (s.rootOf 0 0) 3).isSome = true) : s.walkReads 0 0 = afterReads s := by
  obtain ⟨u, hu⟩ := Option.isSome_iff_exists.1 h
  exact (readLow_eq 0 3 s u _ hg hu).trans (by rw [afterReads, hu]; rfl)

/-- What the reads of the walk leave: no skim, or the one under way; SKIMEN and a pool that has a frame, or not. -/
theorem witness_TranslationEvents_reads :
    (∀ s ∈ [paged false noMmu, hotPage false [], hotPage true [], paged false { noMmu with skims := [skimOf0 .copy 0x10001F 0 0] }],
      s.cxl.gone = [] ∧ (readLow s 0 (s.rootOf 0 0) 3).isSome = true) ∧
    (afterReads (paged false noMmu)).mmu.skims = [] ∧ (afterReads (hotPage false [])).poolTake 0 = none ∧
    (∃ k ∈ (afterReads (paged false { noMmu with skims := [skimOf0 .copy 0x10001F 0 0] })).mmu.skims, k.ctx = 0 ∧ k.page = pageOf 0) ∧
    (let s := afterReads (hotPage false [(Reg.trans 0 16, 0x0400400000000000), (Reg.trans 0 32, 0x0001000000000000)])
     s.mmu.skims.length < 16 ∧ s.regBits (Reg.trans 0 0) 1 1 = 1 ∧ (s.poolTake 0).isSome = true) := by decide +kernel

theorem witness_TranslationEvents_pool : ((hotPage false []).poolTake 0).isSome = false ∧
    ((hotPage false [(Reg.trans 0 16, 0x0400400000000000), (Reg.trans 0 32, 0x0001000000000000)]).poolTake 0).isSome = true ∧
    (∀ a ∈ [true, false], (paged false { noMmu with inval := some (0, a, 0, 1) }).invalBusy 0 a 0 1 = false) ∧ farMeshed.invalBusy 0 true 0 1 = true ∧
    (({ State.reset with timebase := 999999 } : State).timebase - State.reset.mmu.decayAt).toNat < 1000000 ∧ Tab.wf 0 State.reset.mmu.hot = true := by
  decide +kernel

def skimming (k : Skim) (p : Bool) : State := paged p { noMmu with skims := [k] }

def holds (p : Bool) (f : BitVec 256) (retry : BitVec 8) : Bool :=
  let k := skimOf0 .hold 0x10001F f retry
  pages (skimming k p) p && decide ((skimming k p).skim? .hold = some k) && decide ((skimming k p).skim? .copy = none)

theorem witness_TranslationEvents_hold : holds false 0 0 = true ∧ holds true 0 0 = true ∧ holds false 1 3 = true ∧ holds false 1 4 = true := by
  refine ⟨by decide +kernel, by decide +kernel, by decide +kernel, by decide +kernel⟩

theorem witness_TranslationEvents_held :
    (skimming (skimOf0 .hold 0x10001F 0 0) false).busyAt (Sys2Proof.Machine.inPage (2 ^ 20 / 2 ^ 15)) 0 = false ∧ Pte.pp (leafOf false) = false ∧ Pte.pp (leafOf true) = true ∧
    leafOf false ||| 4 = 0x10001F ||| 4 ∧ (skimming (skimOf0 .hold 0x10001F 1 4) false).regBits (Reg.trans 0 16) 63 56 = 4 := by
  refine ⟨by decide +kernel, by decide +kernel, by decide +kernel, by decide +kernel, by decide +kernel⟩

theorem witness_TranslationEvents_copy : (skimming (skimOf0 .copy 0x10001F 0 0) false).skim? .copy = some (skimOf0 .copy 0x10001F 0 0) ∧
    (skimming (skimOf0 .copy 0x10001F 0 0) false).skim? .hold = none ∧
    (let k := skimOf0 .copy 0x10001F 0 0
     (skimming k false).copyWaits k = false ∧
       ({ skimming k false with cxl := { State.reset.cxl with halves := [(16384, some .own)] } } : State).copyWaits k = true) := by decide +kernel

/-! Registers, encodings, the step. -/

def written (o : Nat) (w : Word) (m : Tab Word) (slots : Tab QSlot := []) : State :=
  { State.reset with ev := { Ev.none with a := o, w := w }, mgmt := m, que := { State.reset.que with slots := slots } }

theorem witness_ManagementWrites :
    (written (Reg.conn 4 32) 7 [(Reg.conn 4 0, 0x8000000000000000)]).keyLocked (Reg.conn 4 32) = true ∧ (written (Reg.conn 4 32) 7 []).keyLocked (Reg.conn 4 32) = false ∧
    delayed Reg.pycfg = true ∧ delayed (Reg.islandCtl 127) = true ∧ delayed Reg.cohcfg = false ∧ 0x140000 ≤ Reg.cohcfg ∧ 0x1C0000 ≤ Reg.cohcfg ∧ delayed (Reg.port 17) = false ∧
    (written (Reg.trans 9 0) 1 []).keyLocked (Reg.trans 9 0) = false ∧ Tab.get none (written (Reg.trans 9 0) 1 []).mmu.stale 9 = none ∧
    bit (0 : Word) 0 = false ∧ bit (1 : Word) 0 = true := by decide +kernel

theorem test_write_trans : Tab.get none (after .registerWrite (written (Reg.trans 9 0) 1 [])).mmu.stale 9 = some 0 ∧
    (after .registerWrite (written (Reg.trans 9 0) 1 [])).reg (Reg.trans 9 0) = 1 ∧
    ((after .registerWrite (written (Reg.queue 0 0) 0 [] [(3, slotOf1 .active 0)])).qslot 3).st = .saving := by decide +kernel

theorem witness_RoundTrip :
    (Instr.vadd (rr (.reg 63) .laneIdx (.latch 7) 0)).wf = true ∧ (Instr.vadd (rr (.reg 63) .laneIdx (.latch 7) 0)).info.isSome = true ∧
    (encodeCmd (.cpfill ⟨ec0, 1, 0x201F, 0xFFFF, 0xFFFFFFFF⟩)).isSome = true ∧ decode 0x3000770301CFFF04 = .ok (.vadd (rr (.reg 3) (.reg 1) (.neg 15) 4)) ∧
    (decodeCmd 0x2001900000400000 0x1234).isSome = true := by decide +kernel

theorem witness_DecodeWords : (0xE000000000000000 : Word).toNat / 2 ^ 60 = 0xE ∧ (0xFFFFFFFFFFFFFFFF : Word).toNat / 2 ^ 60 = 0xF := by decide +kernel

/-- The group of slot 0 holds the port and its instruction is cached. -/
def stepping (w : Word) : State :=
  let s := bounded (Header.mk 6 1 0) [w]
  let h : Word := Header.mk 6 1 0
  { s with cur := { s.cur with inClause := true, hdr := h }, cores := s.cores.map fun x => (x.1, { x.2 with holder := some 0 }) }

/-- The port's turn meets its conditions, and the word fetched is `w`. -/
def turns (w : Word) : Bool :=
  let s := stepping w
  let u := (s.bring 0 0).setCore 0 { (s.bring 0 0).core 0 with holder := some 0 }
  s.agenda.isEmpty && s.cur.core == 0 && !s.halted s.cur && s.clockRuns 0 && (s.core 0).holder == some 0 && s.cur.at 0 0 && s.cur.life == .running && s.cur.late.isNone &&
    s.cur.inClause && s.cur.wait.isNone && u.fetched u.cur.core u.cur.ctx (instrVa u.cur.pc u.cur.cpos.toNat) == some w && u.cur.dline != 0

theorem witness_StepRunsDecoded : turns nopWord = true ∧ turns 0xEFFFFFFFFFFFFFFF = true := by
  refine ⟨by decide +kernel, by decide +kernel⟩

theorem witness_StepRunsDecoded_engine :
    (let s := engined 0x0204000000000000 still fpTile plain
     ((s.coreCtx 0 0).head (timelineAt 0 false)).isSome = true ∧ s.engineRuns 0 0 0 (cmd 0x0204000000000000) = true ∧
      bits (0x0204000000000000 : Word) 63 60 = min (0 / 2) 3 ∧ (decodeCmd 0x0204000000000000 0).isSome = true ∧ isEvent .resm = true) := by decide +kernel

/-- Events that run, those of the entry stage and another; one that the entry stage holds; a turn that is taken back, or asks outside. -/
theorem witness_StepRunsDecoded_events :
    ((st 0).eventRuns .resm Ev.none = true ∧ ofEntryStage .resm = false ∧ (st 0).eventRuns .coldStart Ev.none = true ∧ ofEntryStage .coldStart = true) ∧
    ({ st 0 with pkg := { (st 0).pkg with entry := { (st 0).pkg.entry with held := true } } } : State).eventRuns .resm Ev.none = false ∧
    (∀ x ∈ [Shut.no, .stopped, .busy 64 8 true], ({ st 0 with coh := { (st 0).coh with shut := x } } : State).coh.shut = x) := by decide +kernel

/-- One step: the NOP of the port runs and the clause ends. -/
theorem test_step : (stepped (stepping nopWord)).cur.pc = 0x1010 ∧ (stepped (stepping nopWord)).cur.inClause = false ∧
    ((stepped (stepping 0xEFFFFFFFFFFFFFFF)).launch 0).fkind = 0x10 := by decide +kernel

def shared1 (rts hi : BitVec 48) : State :=
  { State.reset with cores := [(0, { Core.idle with hiPts := hi, l1 := [⟨5, .s, 0, rts, 0, 0xF, 0, 0, false⟩] })] }

theorem witness_NoStaleLines :
    (∃ x ∈ (stepped (shared1 7 8)).cores, ∃ l ∈ x.2.l1, l.st = .s) ∧ farBehind 7 (7 + 0x100000000001) = true ∧ farBehind 7 (7 + 0x100000000000) = false ∧
    (stepped (shared1 7 (7 + 0x100000000001))).cores.all (fun x => x.2.l1.isEmpty) = true := by decide +kernel

/-- R196: the locks of the context torn down are released and credited, another's stay. -/
theorem test_teardown :
    (let s : State := { st 0 with coh := { (st 0).coh with l2 := [⟨5, 0, 0, 0, [0, 1], false⟩, ⟨6, 0, 0, 0, [0], false⟩] } }
     let t := (s.setRegBits (Reg.lquota 0) 47 32 2).teardown 0
     t.coh.l2.map L2Line.locks = [[1], []] ∧ t.regBits (Reg.lquota 0) 47 32 = 0) := by
  decide +kernel

theorem witness_CanonicalNaN : (fp16.decode 0x7E01).isNaN = true ∧ (fp16.addOp .rne false 0x7E01 0x3C00).val = fp16.canonNaN ∧
    (fp32.decode (fp32.mulOp .rne false 0x7F800000 0).val).isNaN = true ∧ fp16 ∈ [fp64, fp32, fp16, bf16] := by decide +kernel

end Sys2Proof.Tests
end

section
/-! SUPPORT. Fields of a word that is put together from fields, and what a management register holds at reset. -/

namespace Sys2Proof.Machine

/-! ### A field of a word -/

theorem testBit_bits {n : Nat} (w : BitVec n) (hi lo i : Nat) :
    (bits w hi lo).testBit i = (decide (i < hi + 1 - lo) && w.getLsbD (lo + i)) := by
  simp only [bits, Nat.testBit_mod_two_pow, Nat.testBit_shiftRight, BitVec.testBit_toNat]

theorem getLsbD_field (p v j : Nat) : (field p v).getLsbD j = (decide (j < 64) && (decide (p ≤ j) && v.testBit (j - p))) := by
  simp only [field, BitVec.getLsbD_ofNat, Nat.testBit_shiftLeft, ge_iff_le]

@[simp] theorem bits_or {n : Nat} (a b : BitVec n) (hi lo : Nat) : bits (a ||| b) hi lo = bits a hi lo ||| bits b hi lo := by
  apply Nat.eq_of_testBit_eq
  intro i
  simp only [Nat.testBit_or, testBit_bits, BitVec.getLsbD_or, Bool.and_or_distrib_left]

/-- A value that fits its field is read back. -/
theorem bits_field_same {v hi lo : Nat} (hv : v < 2 ^ (hi + 1 - lo)) (hh : hi < 64) : bits (field lo v) hi lo = v := by
  apply Nat.eq_of_testBit_eq
  intro i
  rw [testBit_bits, getLsbD_field, Nat.add_sub_cancel_left]
  by_cases hi' : i < hi + 1 - lo
  · simp [hi', show lo + i < 64 by omega]
  · simp [hi', Nat.testBit_lt_two_pow (Nat.lt_of_lt_of_le hv (Nat.pow_le_pow_right (by decide) (Nat.le_of_not_lt hi')))]

/-- A field placed above the one that is read adds nothing. -/
theorem bits_field_above {p v hi lo : Nat} (h : hi < p) : bits (field p v) hi lo = 0 := by
  apply Nat.eq_of_testBit_eq
  intro i
  rw [testBit_bits, getLsbD_field, Nat.zero_testBit]
  by_cases hi' : i < hi + 1 - lo
  · simp [show ¬ p ≤ lo + i by omega]
  · simp [hi']

/-- A field that ends below the one that is read adds nothing. -/
theorem bits_field_below {p v hi lo : Nat} (k : Nat) (hv : v < 2 ^ k) (h : p + k ≤ lo) : bits (field p v) hi lo = 0 := by
  apply Nat.eq_of_testBit_eq
  intro i
  rw [testBit_bits, getLsbD_field, Nat.zero_testBit,
    Nat.testBit_lt_two_pow (Nat.lt_of_lt_of_le hv (Nat.pow_le_pow_right (by decide) (show k ≤ lo + i - p by omega)))]
  simp

/-! ### The registers at reset -/

theorem State.reset_reg (o : Nat) : State.reset.reg o = regReset o := rfl
theorem State.reset_regBits (o hi lo : Nat) : State.reset.regBits o hi lo = bits (regReset o) hi lo := rfl

/-- The temperature limit of an island, whatever the part's own limits are (R13). -/
theorem regReset_islandCtl_tlim {n : Nat} (h : n < 128) : bits (regReset (Reg.islandCtl n)) 47 40 = 105 := by
  rw [regReset, if_pos (by unfold Reg.islandCtl; omega)]
  have hmax := fun k => (Config.fmaxReset k).isLt
  have hmin := fun k => (Config.fminReset k).isLt
  simp only [bits_or]
  rw [bits_field_above (by decide), bits_field_same (by decide) (by decide), bits_field_below 12 (hmax _) (by decide),
    bits_field_below 12 (hmin _) (by decide)]
  rfl

/-- The thresholds of a lane (R21). -/
theorem regReset_threshold {k w : Nat} (hk : k < 224) (hw : w < 16) : regReset (Reg.threshold k w) =
    if absentLane k then 0 else if w = 0 then field 48 0x64 ||| field 32 0xF ||| 0x10000 else field 32 0x100 := by
  have hd : (Reg.threshold k w - 0x50000) / 16 = k := by unfold Reg.threshold; omega
  have hm : Reg.threshold k w % 16 = w := by unfold Reg.threshold; omega
  have ho : 0x50000 ≤ Reg.threshold k w ∧ Reg.threshold k w < 0x50E00 := by unfold Reg.threshold; omega
  rw [regReset, if_neg (by omega), if_neg (by omega), if_pos ho, hd, hm]

theorem regReset_health {k w : Nat} (hk : k < 224) (hw : w < 16) : regReset (Reg.health k w) = 0 := by
  have ho : 0x40000 ≤ Reg.health k w ∧ Reg.health k w < 0x40E00 := by unfold Reg.health; omega
  rw [regReset, if_neg (by omega), if_neg (by omega), if_neg (by omega), if_neg (by omega), if_neg (by omega), if_neg (by omega),
    if_neg (by omega), if_neg (by omega), if_neg (by omega), if_neg (by omega), if_neg (by omega)]

/-- The translation words of a context (R75). -/
theorem regReset_trans (c : BitVec 12) {w : Nat} (hw : w < 64) :
    regReset (Reg.trans c.toNat w) = if w = 16 then field 56 4 else 0 := by
  have hc := c.isLt
  have hm : Reg.trans c.toNat w % 64 = w := by unfold Reg.trans; omega
  have ho : 0x100000 ≤ Reg.trans c.toNat w ∧ Reg.trans c.toNat w < 0x140000 := by unfold Reg.trans; omega
  rw [regReset, if_neg (by omega), if_neg (by omega), if_neg (by omega), if_neg (by omega), if_pos ho, hm]

/-- The queue words of a context (R89). -/
theorem regReset_queue (c : BitVec 12) {w : Nat} (hw : w < 64) :
    regReset (Reg.queue c.toNat w) = if w = 16 then field 59 6 else if w = 32 then field 56 1 else 0 := by
  have hc := c.isLt
  have hm : Reg.queue c.toNat w % 64 = w := by unfold Reg.queue; omega
  have ho : 0x180000 ≤ Reg.queue c.toNat w ∧ Reg.queue c.toNat w < 0x1C0000 := by unfold Reg.queue; omega
  rw [regReset, if_neg (by omega), if_neg (by omega), if_neg (by omega), if_neg (by omega), if_neg (by omega), if_neg (by omega),
    if_pos ho, hm]

/-- The scheduler words of a context (R122). -/
theorem regReset_sched (c : BitVec 12) {w : Nat} (hw : w < 64) :
    regReset (Reg.sched c.toNat w) = if w = 0 then 0xF else if w = 8 then field 16 0x10 else 0 := by
  have hc := c.isLt
  have hm : Reg.sched c.toNat w % 64 = w := by unfold Reg.sched; omega
  have ho : 0x2210000 ≤ Reg.sched c.toNat w ∧ Reg.sched c.toNat w < 0x2250000 := by unfold Reg.sched; omega
  rw [regReset, if_neg (by omega), if_neg (by omega), if_neg (by omega), if_neg (by omega), if_neg (by omega), if_neg (by omega),
    if_neg (by omega), if_neg (by omega), if_pos ho, hm]

/-- The containment words of a context (R111). -/
theorem regReset_contain (c : BitVec 12) {w : Nat} (hw : w < 64) : regReset (Reg.contain c.toNat w) = 0 := by
  have hc := c.isLt
  have ho : 0x2000000 ≤ Reg.contain c.toNat w ∧ Reg.contain c.toNat w < 0x2040000 := by unfold Reg.contain; omega
  rw [regReset, if_neg (by omega), if_neg (by omega), if_neg (by omega), if_neg (by omega), if_neg (by omega), if_neg (by omega),
    if_neg (by omega), if_neg (by omega), if_neg (by omega), if_neg (by omega), if_neg (by omega)]

theorem reset_thresholds_present {k : Nat} (hk : k < 224) (ha : absentLane k = false) :
    State.reset.regBits (Reg.threshold k 0) 63 48 = 0x64 ∧ State.reset.regBits (Reg.threshold k 0) 47 32 = 0xF ∧
    State.reset.regBits (Reg.threshold k 0) 31 0 = 0x10000 ∧ State.reset.regBits (Reg.threshold k 8) 63 32 = 0x100 := by
  simp only [State.reset_regBits, regReset_threshold hk (show 0 < 16 by decide), regReset_threshold hk (show 8 < 16 by decide), ha]
  decide

theorem reset_thresholds_absent {k : Nat} (hk : k < 224) (ha : absentLane k = true) :
    State.reset.reg (Reg.threshold k 0) = 0 ∧ State.reset.reg (Reg.threshold k 8) = 0 := by
  simp [State.reset_reg, regReset_threshold hk, ha]

/-- The registers of one context at reset. -/
theorem reset_context (c : BitVec 12) :
    State.reset.reg (Reg.trans c.toNat 0) = 0 ∧ State.reset.regBits (Reg.trans c.toNat 16) 63 56 = 4 ∧
    State.reset.reg (Reg.queue c.toNat 0) = 0 ∧ State.reset.reg (Reg.queue c.toNat 8) = 0 ∧ State.reset.regBits (Reg.queue c.toNat 16) 63 59 = 6 ∧
    State.reset.reg (Reg.queue c.toNat 24) = 0 ∧ State.reset.regBits (Reg.queue c.toNat 32) 63 56 = 1 ∧
    State.reset.regBits (Reg.sched c.toNat 0) 3 0 = 0xF ∧ State.reset.regBits (Reg.sched c.toNat 8) 63 32 = 0 ∧
    State.reset.viral c = false ∧ State.reset.suspended c = false := by
  simp only [State.viral, State.suspended, State.reset_reg, State.reset_regBits, regReset_trans c, regReset_queue c, regReset_sched c,
    regReset_contain c, Nat.reduceLT]
  decide

/-- Settles O59: the registers' reset values one kind at a time, the rest by reading `State.reset`. -/
theorem resetState : Obligations.ResetState := by
  unfold Obligations.ResetState
  exact ⟨by decide, fun n hn => regReset_islandCtl_tlim hn, by decide, by decide, by decide, rfl,
    fun k hk ha => reset_thresholds_present hk ha, fun k hk ha => reset_thresholds_absent hk ha,
    fun k hk => ⟨regReset_health hk (by decide), regReset_health hk (by decide)⟩, reset_context,
    by decide, by decide, by decide, by decide, rfl, fun _ _ => rfl, rfl, rfl, rfl, rfl, rfl, rfl, rfl, rfl, rfl⟩

end Sys2Proof.Machine
end

section
/-! SUPPORT. REGISTER_WRITE: what is written over a register, and what follows a write at each kind of offset. -/

namespace Sys2Proof.Machine

/-! ### The word written -/

/-- One bit of a write: cleared by a one where it is W1C, else taken where it is RW, else kept. -/
theorem bool_written : ∀ old rw w w1c : Bool, ((old && !rw || w && rw) && !(w && w1c)) = if w1c && w then false else if rw then w else old := by
  decide

theorem bit_writtenOver (o : Nat) (old w : Word) (i : Nat) : bit (writtenOver o old w) i =
    (if bit (w1cMask o) i && bit w i then false else if bit (rwMask o) i then bit w i else bit old i) := by
  by_cases hi : i < 64
  · simp only [bit, writtenOver, BitVec.getLsbD_and, BitVec.getLsbD_or, BitVec.getLsbD_not, hi, decide_true, Bool.true_and]
    exact bool_written _ _ _ _
  · simp [bit, BitVec.getLsbD_of_ge _ i (Nat.le_of_not_lt hi)]

theorem rwMask_queue (c : BitVec 12) {w : Nat} (hw : w < 64) : rwMask (Reg.queue c.toNat w) = rwQueue w := by
  have hc := c.isLt
  have hm : Reg.queue c.toNat w % 64 = w := by unfold Reg.queue; omega
  have ho : 0x180000 ≤ Reg.queue c.toNat w ∧ Reg.queue c.toNat w < 0x1C0000 := by unfold Reg.queue; omega
  rw [rwMask, if_neg (by omega), if_neg (by unfold Reg.pycfg; omega), if_neg (by omega), if_neg (by omega), if_neg (by unfold Reg.netcfg; omega),
    if_neg (by omega), if_neg (by omega), if_neg (by unfold Reg.mmu; omega), if_neg (by unfold Reg.mmu; omega), if_pos ho, hm]

theorem w1cMask_queue (c : BitVec 12) {w : Nat} (hw : w < 64) : w1cMask (Reg.queue c.toNat w) = if w = 32 then ones 0 0 else 0 := by
  have hc := c.isLt
  have hm : Reg.queue c.toNat w % 64 = w := by unfold Reg.queue; omega
  have ho : 0x180000 ≤ Reg.queue c.toNat w ∧ Reg.queue c.toNat w < 0x1C0000 := by unfold Reg.queue; omega
  simp only [w1cMask, if_neg (show Reg.queue c.toNat w ≠ Reg.mstat by unfold Reg.mstat; omega),
    if_neg (show ¬ (0x40000 ≤ Reg.queue c.toNat w ∧ Reg.queue c.toNat w < 0x40E00 ∧ Reg.queue c.toNat w % 16 = 8) by omega), ho, hm, true_and]

/-- QEN takes the bit written (R89). -/
theorem bit_writtenOver_qen (c : BitVec 12) (old w : Word) : bit (writtenOver (Reg.queue c.toNat 0) old w) 0 = bit w 0 := by
  rw [bit_writtenOver, rwMask_queue c (by decide), w1cMask_queue c (by decide)]
  rfl

/-! ### Which of its cases a write falls under -/

theorem State.keyLocked_of_ge (s : State) {o : Nat} (h : 0xA0000 ≤ o) : s.keyLocked o = false := by
  simp [State.keyLocked, show ¬ o < 0xA0000 by omega]

theorem delayed_of_ge {o : Nat} (h : 0xA0000 ≤ o) : delayed o = false := by
  simp [delayed, Reg.pycfg, show ¬ o = 0x30000 by omega, show ¬ o < 0x20400 by omega]

theorem registerWrite_keyLocked {s : State} (h : s.keyLocked s.ev.a = true) : exec .registerWrite s = .next s := by
  show execRegisterWrite s = _
  rw [execRegisterWrite, if_pos h]

/-- A write that waits for the next refresh (R19) is kept beside the register. -/
theorem registerWrite_delayed {s : State} (hk : s.keyLocked s.ev.a = false) (hd : delayed s.ev.a = true) :
    let new := writtenOver s.ev.a ((Tab.get none s.pkg.pending s.ev.a).getD (s.reg s.ev.a)) s.ev.w
    exec .registerWrite s = .next { s with pkg := { s.pkg with pending := Tab.set none s.pkg.pending s.ev.a (some new) } } := by
  show execRegisterWrite s = _
  simp only [execRegisterWrite, hk, hd, Bool.false_eq_true, if_false, if_true]

/-- A write that takes place at once, and what follows it. -/
theorem registerWrite_now {s : State} (hk : s.keyLocked s.ev.a = false) (hd : delayed s.ev.a = false) : exec .registerWrite s =
    .next ((s.setReg s.ev.a (writtenOver s.ev.a (s.reg s.ev.a) s.ev.w)).afterWrite s.ev.a (s.reg s.ev.a)) := by
  show execRegisterWrite s = _
  rw [execRegisterWrite, if_neg (by simp [hk]), if_neg (by simp [hd])]

theorem registerWrite_above {s : State} (h : 0xA0000 ≤ s.ev.a) : exec .registerWrite s =
    .next ((s.setReg s.ev.a (writtenOver s.ev.a (s.reg s.ev.a) s.ev.w)).afterWrite s.ev.a (s.reg s.ev.a)) :=
  registerWrite_now (s.keyLocked_of_ge h) (delayed_of_ge h)

/-! ### What follows a write, by the kind of the register -/

theorem State.afterWrite_plain (s : State) {o : Nat} (old : Word) (hp : o < 0xA0100 ∨ 0xA0190 ≤ o) (ht : o < 0x100000 ∨ 0x140000 ≤ o)
    (hq : o < 0x180000 ∨ 0x1C0000 ≤ o) (hm : o ≠ Reg.mmu 0x30) : s.afterWrite o old = s := by
  rw [State.afterWrite, if_neg (by omega), if_neg (by omega), if_neg hm, if_neg (by omega)]

theorem State.afterWrite_port (s : State) {p : Nat} (old : Word) (h : p < 18) : s.afterWrite (0xA0100 + 8 * p) old = s.updatePort p := by
  rw [State.afterWrite, if_pos (by omega), show (0xA0100 + 8 * p - 0xA0100) / 8 = p by omega]

/-- The old ROOT and TEN are kept once (R75). -/
theorem State.afterWrite_trans (s : State) (c : BitVec 12) (old : Word) : s.afterWrite (Reg.trans c.toNat 0) old =
    if (old ^^^ s.reg (Reg.trans c.toNat 0)) &&& (ones 51 15 ||| 1) = 0 ∨ Tab.get none s.mmu.stale c.toNat ≠ none then s
    else { s with mmu := { s.mmu with stale := Tab.set none s.mmu.stale c.toNat (some old) } } := by
  have hc := c.isLt
  have ho : 0x100000 ≤ Reg.trans c.toNat 0 ∧ Reg.trans c.toNat 0 < 0x140000 ∧ Reg.trans c.toNat 0 % 64 = 0 := by unfold Reg.trans; omega
  have hn : (Reg.trans c.toNat 0 - 0x100000) / 64 = c.toNat := by unfold Reg.trans; omega
  rw [State.afterWrite, if_neg (by omega), if_pos ho, hn, show ones 0 0 = 1 from rfl]
  simp [Option.isSome_iff_ne_none]

/-- Pages that a lowered HOTT makes candidates (R88): counted at least the new threshold, and less than the old; 0 acts as 1 (log 59). -/
def State.hotReached (s : State) (new old : Word) : List (BitVec 12 × Nat) :=
  (s.mmu.hot.filter fun x => max 1 (bits new 63 48) ≤ x.2 && x.2 < max 1 (bits old 63 48)).map
    fun x => (BitVec.ofNat 12 (x.1 / 2 ^ 36), x.1 % 2 ^ 36)

theorem State.mem_hotReached (s : State) (new old : Word) (x : BitVec 12 × Nat) : x ∈ s.hotReached new old ↔
    ∃ y ∈ s.mmu.hot, max 1 (bits new 63 48) ≤ y.2 ∧ y.2 < max 1 (bits old 63 48) ∧ x = (BitVec.ofNat 12 (y.1 / 2 ^ 36), y.1 % 2 ^ 36) := by
  simp only [State.hotReached, List.mem_map, List.mem_filter, Bool.and_eq_true, decide_eq_true_eq, and_assoc, eq_comm (a := x)]

theorem State.afterWrite_hott (s : State) (old : Word) : s.afterWrite (Reg.mmu 0x30) old =
    { s with mmu := { s.mmu with hotPages := s.mmu.hotPages ++ s.hotReached (s.reg (Reg.mmu 0x30)) old } } := rfl

/-! ### The slots let go by QEN = 0 -/

@[simp] theorem State.setQslot_qslot_same (s : State) (i : Nat) (q : QSlot) : (s.setQslot i q).qslot i = q := Tab.get_set_same _ _ _ _

theorem State.setQslot_qslot_other (s : State) {i j : Nat} (q : QSlot) (h : j ≠ i) : (s.setQslot i q).qslot j = s.qslot j :=
  Tab.get_set_other _ _ _ h

/-- A slot once the context's queues are disabled: SAVING if it maps one of them (R89, log 61). -/
def QSlot.letGoBy (c : BitVec 12) (q : QSlot) : QSlot :=
  if q.ctx = c ∧ (q.st = .active ∨ q.st = .restoring) then { q with st := .saving } else q

/-- One slot let go. -/
def State.letGoSlot (c : BitVec 12) (s : State) (i : Nat) : State :=
  if (s.qslot i).ctx = c && ((s.qslot i).st = .active || (s.qslot i).st = .restoring) then s.setQslot i { s.qslot i with st := .saving } else s

theorem State.letGoSlot_same (c : BitVec 12) (s : State) (i : Nat) : (s.letGoSlot c i).qslot i = (s.qslot i).letGoBy c := by
  unfold State.letGoSlot QSlot.letGoBy
  split <;> simp_all

theorem State.letGoSlot_other (c : BitVec 12) (s : State) {i j : Nat} (h : j ≠ i) : (s.letGoSlot c i).qslot j = s.qslot j := by
  unfold State.letGoSlot
  split
  · exact s.setQslot_qslot_other _ h
  · rfl

theorem State.letGoSlot_mgmt (c : BitVec 12) (s : State) (i : Nat) : (s.letGoSlot c i).mgmt = s.mgmt := by
  unfold State.letGoSlot
  split <;> rfl

/-- After the first n slots have been looked at, these are let go and no other has changed. -/
theorem State.foldl_letGoSlot (c : BitVec 12) (s : State) (n i : Nat) : ((List.range n).foldl (State.letGoSlot c) s).qslot i =
    if i < n then (s.qslot i).letGoBy c else s.qslot i := by
  induction n with
  | zero => rfl
  | succ n ih =>
    rw [List.range_succ, List.foldl_append, List.foldl_cons, List.foldl_nil]
    by_cases hin : i = n
    · subst hin
      rw [State.letGoSlot_same, ih, if_neg (Nat.lt_irrefl i), if_pos (Nat.lt_succ_self i)]
    · rw [State.letGoSlot_other _ _ hin, ih]
      simp only [show i < n + 1 ↔ i < n by omega]

theorem State.unmapContext_qslot (s : State) (c : BitVec 12) {i : Nat} (h : i < 64) :
    (s.unmapContext c).qslot i = (s.qslot i).letGoBy c :=
  (State.foldl_letGoSlot c s 64 i).trans (if_pos h)

theorem State.unmapContext_mgmt (s : State) (c : BitVec 12) : (s.unmapContext c).mgmt = s.mgmt :=
  List.foldlRecOn (motive := fun t : State => t.mgmt = s.mgmt) (List.range 64) (State.letGoSlot c) rfl
    fun t h i _ => (State.letGoSlot_mgmt c t i).trans h

theorem State.afterWrite_queue (s : State) (c : BitVec 12) (old : Word) : s.afterWrite (Reg.queue c.toNat 0) old =
    if bit (s.reg (Reg.queue c.toNat 0)) 0 = false then s.unmapContext c else s := by
  have hc := c.isLt
  have ho : 0x180000 ≤ Reg.queue c.toNat 0 ∧ Reg.queue c.toNat 0 < 0x1C0000 ∧ Reg.queue c.toNat 0 % 64 = 0 := by unfold Reg.queue; omega
  have hn : (Reg.queue c.toNat 0 - 0x180000) / 64 = c.toNat := by unfold Reg.queue; omega
  rw [State.afterWrite, if_neg (by omega), if_neg (by omega), if_neg (by unfold Reg.mmu; omega), hn, BitVec.ofNat_toNat, BitVec.setWidth_eq]
  simp only [ho, true_and]

/-! ### The status of a slot -/

/-- The state of a slot as its status shows it (R92). -/
def SlotSt.code : SlotSt → Nat
  | .free => 0
  | .restoring => 1
  | .active => 2
  | .saving => 3

theorem SlotSt.code_lt (x : SlotSt) : x.code < 4 := by cases x <;> decide

theorem State.readRegister_slot (s : State) {i w : Nat} (hi : i < 64) (hw : w < 16) :
    s.readRegister (0x1C0000 + 16 * i + w) = (s.qslot i).status w := by
  have hwo : writeOnly (0x1C0000 + 16 * i + w) = false := by
    simp only [writeOnly, Bool.or_eq_false_iff, Bool.and_eq_false_iff, decide_eq_false_iff_not]
    unfold Reg.mmu
    omega
  have hr : (0x1C0000 ≤ 0x1C0000 + 16 * i + w && 0x1C0000 + 16 * i + w < 0x1C0400) = true := by
    simp only [Bool.and_eq_true, decide_eq_true_eq]
    omega
  rw [State.readRegister, hwo, if_neg (by decide), if_pos hr, show (0x1C0000 + 16 * i + w - 0x1C0000) / 16 = i by omega,
    show (0x1C0000 + 16 * i + w) % 16 = w by omega]

/-- The fields of the first word of a slot's status (R92). -/
theorem QSlot.status_low (q : QSlot) : bits (q.status 0) 63 62 = q.st.code ∧ bits (q.status 0) 61 50 = q.ctx.toNat ∧
    bits (q.status 0) 49 34 = q.qh.toNat ∧ bits (q.status 0) 33 26 = q.epri.toNat ∧ bits (q.status 0) 25 0 = 0 := by
  have hs : q.status 0 = field 62 q.st.code ||| field 50 q.ctx.toNat ||| field 34 q.qh.toNat ||| field 26 q.epri.toNat := by
    cases h : q.st <;> simp only [QSlot.status, h, SlotSt.code, if_true]
  have hst := q.st.code_lt
  have hc := q.ctx.isLt
  have hq := q.qh.isLt
  have he := q.epri.isLt
  simp only [hs, bits_or]
  refine ⟨?_, ?_, ?_, ?_, ?_⟩
  · rw [bits_field_same hst (by decide), bits_field_below 12 hc (by decide), bits_field_below 16 hq (by decide), bits_field_below 8 he (by decide)]
    simp
  · rw [bits_field_above (by decide), bits_field_same hc (by decide), bits_field_below 16 hq (by decide), bits_field_below 8 he (by decide)]
    simp
  · rw [bits_field_above (by decide), bits_field_above (by decide), bits_field_same hq (by decide), bits_field_below 8 he (by decide)]
    simp
  · rw [bits_field_above (by decide), bits_field_above (by decide), bits_field_above (by decide), bits_field_same he (by decide)]
    simp
  · rw [bits_field_above (by decide), bits_field_above (by decide), bits_field_above (by decide), bits_field_above (by decide)]
    rfl

/-- The indices in the second word of a slot's status (R92). -/
theorem QSlot.status_high (q : QSlot) : bits (q.status 8) 63 32 = q.rdix.toNat ∧ bits (q.status 8) 31 0 = q.wrix.toNat := by
  have hs : q.status 8 = field 32 q.rdix.toNat ||| field 0 q.wrix.toNat := rfl
  have hr := q.rdix.isLt
  have hw := q.wrix.isLt
  simp only [hs, bits_or]
  constructor
  · rw [bits_field_same hr (by decide), bits_field_below 32 hw (by decide)]
    simp
  · rw [bits_field_above (by decide), bits_field_same hw (by decide)]
    simp

/-! ### REGISTER_WRITE at the registers whose writes have effects -/

theorem registerWrite_plain {s : State} (hk : s.keyLocked s.ev.a = false) (hd : delayed s.ev.a = false) (hp : s.ev.a < 0xA0100 ∨ 0xA0190 ≤ s.ev.a)
    (ht : s.ev.a < 0x100000 ∨ 0x140000 ≤ s.ev.a) (hq : s.ev.a < 0x180000 ∨ 0x1C0000 ≤ s.ev.a) (hm : s.ev.a ≠ Reg.mmu 0x30) :
    exec .registerWrite s = .next (s.setReg s.ev.a (writtenOver s.ev.a (s.reg s.ev.a) s.ev.w)) := by
  rw [registerWrite_now hk hd, State.afterWrite_plain _ _ hp ht hq hm]

theorem registerWrite_port {s : State} {p : Nat} (hp : p < 18) (ho : s.ev.a = 0xA0100 + 8 * p) :
    exec .registerWrite s = .next ((s.setReg s.ev.a (writtenOver s.ev.a (s.reg s.ev.a) s.ev.w)).updatePort p) := by
  rw [registerWrite_above (by omega), ho, State.afterWrite_port _ _ hp]

theorem registerWrite_hott {s : State} (ho : s.ev.a = Reg.mmu 0x30) :
    ∃ t : State, exec .registerWrite s = .next t ∧ t.reg s.ev.a = writtenOver s.ev.a (s.reg s.ev.a) s.ev.w ∧
      t = { s with mgmt := t.mgmt, mmu := { s.mmu with hotPages := t.mmu.hotPages } } ∧
      ∀ x, x ∈ t.mmu.hotPages ↔ x ∈ s.mmu.hotPages ∨ ∃ y ∈ s.mmu.hot, max 1 (bits (t.reg s.ev.a) 63 48) ≤ y.2 ∧
        y.2 < max 1 (bits (s.reg s.ev.a) 63 48) ∧ x = (BitVec.ofNat 12 (y.1 / 2 ^ 36), y.1 % 2 ^ 36) := by
  have hge : 0xA0000 ≤ s.ev.a := by rw [ho]; decide
  refine ⟨_, registerWrite_above hge, ?_⟩
  rw [ho, State.afterWrite_hott]
  exact ⟨State.setReg_reg .., rfl, fun x => List.mem_append.trans (or_congr_right (State.mem_hotReached ..))⟩

theorem registerWrite_trans {s : State} (c : BitVec 12) (ho : s.ev.a = Reg.trans c.toNat 0) :
    ∃ t : State, exec .registerWrite s = .next t ∧ t.reg s.ev.a = writtenOver s.ev.a (s.reg s.ev.a) s.ev.w ∧
      ((s.reg s.ev.a ^^^ t.reg s.ev.a) &&& (ones 51 15 ||| 1) ≠ 0 → Tab.get none s.mmu.stale c.toNat = none →
        Tab.get none t.mmu.stale c.toNat = some (s.reg s.ev.a)) ∧
      ((s.reg s.ev.a ^^^ t.reg s.ev.a) &&& (ones 51 15 ||| 1) = 0 ∨ Tab.get none s.mmu.stale c.toNat ≠ none → t.mmu = s.mmu) := by
  have hge : 0xA0000 ≤ s.ev.a := by rw [ho]; unfold Reg.trans; omega
  refine ⟨_, registerWrite_above hge, ?_⟩
  rw [ho, State.afterWrite_trans]
  split
  case isTrue h =>
    rw [State.setReg_reg] at h ⊢
    exact ⟨rfl, fun hne hs => absurd h (not_or.2 ⟨hne, not_not.2 hs⟩), fun _ => rfl⟩
  case isFalse h =>
    have hr := State.setReg_reg s (Reg.trans c.toNat 0) (writtenOver (Reg.trans c.toNat 0) (s.reg (Reg.trans c.toNat 0)) s.ev.w)
    rw [hr] at h
    exact ⟨hr, fun _ _ => Tab.get_set_same none s.mmu.stale c.toNat (some _), fun h' => absurd (hr ▸ h') h⟩

theorem registerWrite_queue {s : State} (c : BitVec 12) (ho : s.ev.a = Reg.queue c.toNat 0) :
    ∃ t : State, exec .registerWrite s = .next t ∧ t.reg s.ev.a = writtenOver s.ev.a (s.reg s.ev.a) s.ev.w ∧
      (bit s.ev.w 0 = true → t.que = s.que) ∧ (bit s.ev.w 0 = false → ∀ i, i < 64 → t.qslot i = (s.qslot i).letGoBy c) := by
  have hge : 0xA0000 ≤ s.ev.a := by rw [ho]; unfold Reg.queue; omega
  refine ⟨_, registerWrite_above hge, ?_⟩
  rw [ho, State.afterWrite_queue, State.setReg_reg, bit_writtenOver_qen]
  cases hb : bit s.ev.w 0 with
  | true => exact ⟨State.setReg_reg .., fun _ => rfl, fun h => absurd h (by decide)⟩
  | false =>
    refine ⟨?_, fun h => absurd h (by decide), fun _ i hi => State.unmapContext_qslot _ _ hi⟩
    rw [if_pos rfl, State.reg, State.unmapContext_mgmt]
    exact State.setReg_reg ..

/-- Settles O55: the word written bit by bit, then the cases of `execRegisterWrite` and of `State.afterWrite`, one lemma each.
That QEN = 0 sends the slots of the context to SAVING is the model's choice (log 61). -/
theorem managementWrites : Obligations.ManagementWrites := by
  unfold Obligations.ManagementWrites
  refine ⟨bit_writtenOver, fun s => ⟨registerWrite_keyLocked, fun hk hd => ⟨_, registerWrite_delayed hk hd, rfl,
    Tab.get_set_same none s.pkg.pending s.ev.a (some _)⟩,
    registerWrite_plain, registerWrite_hott, fun i hi => ?_, fun p => registerWrite_port, registerWrite_trans, registerWrite_queue⟩⟩
  have hv := s.readRegister_slot hi (show 0 < 16 by decide)
  have hx := s.readRegister_slot hi (show 8 < 16 by decide)
  rw [Nat.add_zero] at hv
  obtain ⟨h1, h2, h3, h4, h5⟩ := (s.qslot i).status_low
  obtain ⟨h6, h7⟩ := (s.qslot i).status_high
  simp only [hv, hx]
  refine ⟨?_, h2, h3, h4, h5, h6, h7⟩
  rw [h1]
  cases (s.qslot i).st <;> rfl

end Sys2Proof.Machine
end

section
/-! SUPPORT. What a step is made of: its turn, by the kind of the turn, and what follows every turn. -/

namespace Sys2Proof.Machine

/-! ### The turn of a step -/

/-- The outcome of a turn with what follows it. -/
def settledOutcome (o : Host.Outcome State Fault Refusal) : Host.Outcome State Fault Refusal :=
  match o with
  | .next t => .next t.settled
  | .fault r => .fault r
  | .refused r => .refused r

theorem step_of_turn {s : State} {o : Host.Outcome State Fault Refusal} (h : nextTurn s = o) : step s = settledOutcome o := by
  subst h; rfl

theorem nextTurn_cons {s : State} {t : Turn} {r : List Turn} (h : s.agenda = t :: r) : nextTurn s = turn t { s with agenda := r } := by
  rw [nextTurn, h]

theorem nextTurn_nil {s : State} (h : s.agenda = []) : nextTurn s = portAct s.cur.core s := by
  rw [nextTurn, h]; rfl

/-- With an empty agenda, or a port turn at its head, the turn is the port's. -/
theorem nextTurn_port {s v : State} {c : BitVec 10}
    (h : (s.agenda = [] ∧ c = s.cur.core ∧ v = s) ∨ ∃ r, s.agenda = .port c :: r ∧ v = { s with agenda := r }) :
    nextTurn s = portAct c v := by
  rcases h with ⟨ha, rfl, rfl⟩ | ⟨r, ha, rfl⟩
  · exact nextTurn_nil ha
  · exact nextTurn_cons ha

/-! ### The issue port -/

/-- The group that holds the port of a running core has its turn (R164). -/
theorem portAct_holder {v : State} {c : BitVec 10} {n : BitVec 3} (hc : c.toNat < 768) (hr : v.clockRuns c = true)
    (hh : (v.core c).holder = some n) : portAct c v = v.takeTurn (slotTurn c n v) := by
  rw [portAct, if_neg (by simp [hr, hc]), hh]
  rfl

/-- A running group inside a clause issues, unless it waits for what another agent ends (R164). -/
theorem slotTurn_issues {v : State} {c : BitVec 10} {n : BitVec 3} {g : Group} (hg : v.group? c n = some g) (hl : g.life = .running)
    (hf : g.late = none) (hh : v.halted g = false) (hi : g.inClause = true) (hw : ∀ x, g.wait = some x → x.kind ≠ 0 ∧ x.kind ≠ 3) :
    slotTurn c n v = issueAct ((v.bring c n).setCore c { (v.bring c n).core c with holder := some n }) := by
  rw [slotTurn, hg]
  simp only [hf, hl, hh, hi, Option.isSome_none, Bool.false_eq_true, if_false, if_true, ne_eq, not_true_eq_false]
  cases hx : g.wait with
  | none => rfl
  | some x =>
    obtain ⟨h0, h3⟩ := hw x hx
    exact if_neg (by simp only [decide_eq_false h0, decide_eq_false h3]; decide)

theorem issueAct_decoded {u : State} {w : Word} {i : Instr} (hf : u.fetched u.cur.core u.cur.ctx (instrVa u.cur.pc u.cur.cpos.toNat) = some w)
    (hd : decode w = .ok i) : issueAct u = exec i u := by
  simp only [issueAct, hf, hd]

theorem issueAct_undecodable {u : State} {w : Word} {e : Reject} (hf : u.fetched u.cur.core u.cur.ctx (instrVa u.cur.pc u.cur.cpos.toNat) = some w)
    (hd : decode w = .error e) : issueAct u = .next (u.undecodable w) := by
  simp only [issueAct, hf, hd]

/-- The deadline trap comes first only where the deadline has run out (R138, log 65). -/
theorem undecodable_illegal {u : State} (w : Word) (h : u.cur.dline ≠ 0 ∨ u.cur.hmode = true) : u.undecodable w = u.illegalInstruction := by
  rw [State.undecodable, if_neg]
  rcases h with h | h
  · simp only [decide_eq_false h, Bool.false_and]; decide
  · simp only [h, Bool.not_true, Bool.and_false, Bool.false_and]; decide

/-! ### Events and engines -/

theorem turn_event {i : Instr} {ev : Ev} {v : State} (hi : isEvent i = true) (hr : v.eventRuns i ev = true) : turn (.event i ev) v =
    if ofEntryStage i then mustHappen (exec i { v with ev := ev }) else v.takeTurn (exec i { v with ev := ev }) := by
  rw [turn, hi, hr]; rfl

theorem turn_event_waits {i : Instr} {ev : Ev} {v : State} (hr : v.eventRuns i ev = false) : turn (.event i ev) v = .next v := by
  rw [turn, hr, Bool.and_false]; rfl

/-- An event of no entry stage needs the islands it stands in, and none held by the entry stage (R8, R16). -/
theorem eventRuns_iff {s : State} {i : Instr} {ev : Ev} (h : ofEntryStage i = false) :
    s.eventRuns i ev = true ↔ s.pkg.entry.held = false ∧ ∀ n ∈ s.islandsOf i ev, s.islandRuns n = true := by
  rw [State.eventRuns, h, Bool.false_or, Bool.and_eq_true, List.all_eq_true, Bool.not_eq_true']

theorem engineAct_decoded {v : State} {c : BitVec 10} {x : BitVec 12} {q k : Nat} {e : Bool} {m : Cmd} {i : Instr}
    (hm : (v.coreCtx c x).head (timelineAt q e) = some m) (hr : v.engineRuns c x q m = true) (hq : bits m.w0 63 60 = min (q / 2) 3)
    (hd : decodeCmd m.w0 m.w1 = some i) : engineAct c x q e k v = v.takeTurn (exec i { v with eng := ⟨c, x, k⟩ }) := by
  simp only [engineAct, hm, hr, hq, hd, if_true, Bool.not_true, Bool.false_eq_true, if_false]

/-- Settles O58: a step is its turn and what follows it; the turn by its kind. That the deadline comes before the check of the word (log 65), the turns
of errors, expanders and teardowns (logs 71, 74, 75), whose turn it is (log 2) and which turns are taken back (log 77) are the model's choices. -/
theorem stepRunsDecoded : Obligations.StepRunsDecoded := by
  unfold Obligations.StepRunsDecoded
  refine ⟨fun s v c n g w ha hc hr hh hg hl hf hs hi hw hwd => ?_, fun s i ev r ha hi => ⟨fun hr he => ?_, fun hr he t ht => ?_, fun hr => ?_⟩,
    fun s t pa n wr => ⟨fun h => ?_, fun h => ?_, fun h => ?_⟩, fun s i ev h => eventRuns_iff h,
    fun s r => ⟨fun x ha => ?_, fun page on ha => ?_, fun c ha => ?_⟩,
    fun s c x q e k r m ha hm hr hq i hd => ?_, fun s ns r ha => ?_⟩
  · have hstep : nextTurn s = v.takeTurn (issueAct ((v.bring c n).setCore c { (v.bring c n).core c with holder := some n })) := by
      rw [nextTurn_port ha, portAct_holder hc hr hh, slotTurn_issues hg hl hf hs hi hw]
    refine ⟨fun i hd => ?_, fun e hd => ⟨?_, undecodable_illegal w⟩⟩
    · rw [issueAct_decoded hwd hd] at hstep
      exact step_of_turn hstep
    · rw [issueAct_undecodable hwd hd] at hstep
      exact step_of_turn hstep
  · have ht := turn_event (v := { s with agenda := r }) hi hr
    rw [he] at ht
    exact step_of_turn ((nextTurn_cons ha).trans ht)
  · have hturn := turn_event (v := { s with agenda := r }) hi hr
    rw [he, ht] at hturn
    exact step_of_turn ((nextTurn_cons ha).trans hturn)
  · exact step_of_turn ((nextTurn_cons ha).trans (turn_event_waits hr))
  · rw [State.takeTurn, State.orHeld, h]
  · rw [State.takeTurn, State.orHeld, h]
  · rw [State.takeTurn, State.orHeld, h]
  · exact step_of_turn (nextTurn_cons ha)
  · exact step_of_turn (nextTurn_cons ha)
  · exact step_of_turn (nextTurn_cons ha)
  · exact step_of_turn ((nextTurn_cons ha).trans (engineAct_decoded hm hr hq hd))
  · exact step_of_turn (nextTurn_cons ha)

end Sys2Proof.Machine
end

section
/-! SUPPORT. Accesses that are performed in the step they issue, and the words of the chip scratchpad that XLD and XST name. -/

namespace Sys2Proof.Machine

/-! ### Cycles and lanes of a vector instruction -/

/-- A beat of 32 lanes has an active lane where its part of EM is not zero. -/
theorem bits_ne_zero_iff (m : Mask) (b : Nat) :
    bits m (32 * b + 31) (32 * b) ≠ 0 ↔ (List.range 32).any (fun j => m.getLsbD (32 * b + j)) = true := by
  have hk : 32 * b + 31 + 1 - 32 * b = 32 := by omega
  rw [List.any_eq_true, Ne, ← not_iff_not, not_not]
  constructor
  · rintro h ⟨j, hj, hbit⟩
    have := congrArg (fun n => n.testBit j) h
    simp only [testBit_bits, hk, Nat.zero_testBit, hbit, Bool.and_true, decide_eq_false_iff_not] at this
    exact this (List.mem_range.1 hj)
  · intro h
    apply Nat.eq_of_testBit_eq
    intro j
    rw [testBit_bits, hk, Nat.zero_testBit]
    by_cases hj : j < 32
    · cases hb : m.getLsbD (32 * b + j) with
      | false => simp
      | true => exact absurd ⟨j, List.mem_range.2 hj, hb⟩ h
    · simp [hj]

theorem length_filter_range_three (f : Nat → Bool) : ((List.range 3).filter f).length = b2n (f 0) + b2n (f 1) + b2n (f 2) := by
  rw [show List.range 3 = [0, 1, 2] from rfl]
  simp only [List.filter]
  cases f 0 <;> cases f 1 <;> cases f 2 <;> rfl

theorem Group.cost_eq_vectorCycles (g : Group) : g.cost = vectorCycles g := by
  have h (b : Nat) : b2n (decide (bits g.em (32 * b + 31) (32 * b) ≠ 0)) = b2n ((List.range 32).any fun j => g.em.getLsbD (32 * b + j)) := by
    simp only [bits_ne_zero_iff, Bool.decide_eq_true]
  rw [Group.cost, vectorCycles, length_filter_range_three, ← h 0, ← h 1, ← h 2]
  rfl

theorem Group.cost_inactive {g : Group} (h : g.em = 0) : g.cost = 1 := by
  rw [Group.cost, Group.beats, h]; decide

theorem Group.activeLanes_pairwise (g : Group) : g.activeLanes.Pairwise (· < ·) :=
  (List.pairwise_lt_finRange 96).sublist List.filter_sublist

/-! ### Accesses performed in the step they issue (R180) -/

theorem State.group?_cur {s : State} {c : BitVec 10} {n : BitVec 3} (h : s.cur.at c n = true) : s.group? c n = some s.cur := by
  rw [State.group?, if_pos h]

/-- The group's accesses with those that are counted gone (R180). -/
def Group.settled (g : Group) : Group := { g with inflight := settleFrom [] g.inflight }

/-- Of a running group only its counters are lowered. -/
theorem State.settle_running {s : State} {c : BitVec 10} {n : BitVec 3} (h : s.cur.at c n = true) (hl : s.cur.life = .running) :
    s.settle c n = s.setCur s.cur.settled := by
  have hmod : s.modGroup c n Group.settled = s.setCur s.cur.settled := by rw [State.modGroup, if_pos h]; rfl
  have hgrp : (s.setCur s.cur.settled).group? c n = some s.cur.settled := State.group?_cur (s := s.setCur s.cur.settled) h
  show (match (s.modGroup c n Group.settled).group? c n with
    | some g => if g.life = Life.draining && g.inflight.isEmpty && g.late.isNone then (s.modGroup c n Group.settled).removeGroup c n
      else s.modGroup c n Group.settled
    | none => s.modGroup c n Group.settled) = _
  rw [hmod, hgrp]
  refine if_neg ?_
  rw [show s.cur.settled.life = .running from hl]
  simp

/-- Counters lowered, once the group has moved on. -/
theorem Moves.settle {s t : State} {c : Ctl} {cost : Nat} {leaves : Bool} {g : Group} (h : Moves s t c cost leaves g)
    (hl : g.life = .running) : Moves s (t.settle t.cur.core t.cur.slot) c cost leaves g.settled := by
  obtain ⟨hout, hgrp, hreg, hport, hoth⟩ := h
  have hlife : t.cur.life = .running := by rw [hgrp]; exact hl
  rw [State.settle_running (by simp [Group.at, hlife]) hlife]
  refine ⟨?_, ?_, hreg, hport, hoth⟩
  · rw [hout]; rfl
  · rw [State.setCur_cur, hgrp]; rfl

/-- The access as it stands in flight: performed, with the next stamp and its instruction's place. -/
def Access.issuedIn (a : Access) (s : State) : Access := { a with id := s.seqCtr, performed := true, pc := s.cur.pc, cpos := s.cur.cpos }

/-- What `issueDone` leaves: everything `EntersDone` says, of the access with its stamp. -/
theorem entersDone_issueDone (s : State) (c : Ctl) (cost : Nat) (a : Access) (hl : s.cur.life = .running) :
    EntersDone s (s.issueDone c cost a) c cost (if a.dst = .none then .none else .pend s.seqCtr) (a.issuedIn s) :=
  (retires_retire { s with seqCtr := s.seqCtr + 1 } c cost _ { s.cur with inflight := s.cur.inflight ++ [a.issuedIn s] } rfl rfl).settle hl

/-- One with nothing to return leaves no latch. -/
theorem entersDone_issueDone_none (s : State) (c : Ctl) (cost : Nat) {a : Access} (hl : s.cur.life = .running) (hd : a.dst = .none) :
    EntersDone s (s.issueDone c cost a) c cost .none (a.issuedIn s) := by
  have h := entersDone_issueDone s c cost a hl
  rwa [if_pos hd] at h

/-- One with a destination leaves the latch to it. -/
theorem entersDone_issueDone_pend (s : State) (c : Ctl) (cost : Nat) {a : Access} (hl : s.cur.life = .running) (hd : a.dst ≠ .none) :
    EntersDone s (s.issueDone c cost a) c cost (.pend s.seqCtr) (a.issuedIn s) := by
  have h := entersDone_issueDone s c cost a hl
  rwa [if_neg hd] at h

/-! ### Words of the chip scratchpad (R191) -/

@[simp] theorem State.setXword_xword_same (s : State) (n : Nat) (x : Half) : (s.setXword n x).xword n = x := Tab.get_set_same _ _ _ _

theorem State.setXword_xword_other (s : State) {n k : Nat} (x : Half) (h : k ≠ n) : (s.setXword n x).xword k = s.xword k :=
  Tab.get_set_other _ _ _ h

/-- The lanes of a store written in turn. -/
def State.storeXwords (s : State) (l : List LaneAcc) : State := l.foldl (fun s x => s.setXword x.pa (x.data.extractLsb' 0 32)) s

theorem State.storeXwords_outside (s : State) (l : List LaneAcc) :
    s.storeXwords l = { s with coh := { s.coh with xspad := (s.storeXwords l).coh.xspad } } := by
  induction l generalizing s with
  | nil => rfl
  | cons x r ih => exact ih (s.setXword x.pa (x.data.extractLsb' 0 32))

theorem State.storeXwords_other (s : State) {l : List LaneAcc} {n : Nat} (h : ∀ x ∈ l, x.pa ≠ n) : (s.storeXwords l).xword n = s.xword n := by
  induction l generalizing s with
  | nil => rfl
  | cons x r ih =>
    exact (ih (s.setXword x.pa _) fun y hy => h y (.tail _ hy)).trans (s.setXword_xword_other _ (Ne.symm (h x (.head _))))

/-- The last lane that names a word leaves its data there. -/
theorem State.storeXwords_last (s : State) (l r : List LaneAcc) (x : LaneAcc) (h : ∀ y ∈ r, y.pa ≠ x.pa) :
    (s.storeXwords (l ++ x :: r)).xword x.pa = x.data.extractLsb' 0 32 := by
  rw [State.storeXwords, List.foldl_append]
  exact (State.storeXwords_other _ h).trans (State.setXword_xword_same ..)

/-- The poison of sectors all of whose words the lanes write goes (R106). -/
def State.clearWhole (s : State) (l : List LaneAcc) : State :=
  { s with coh := { s.coh with
    xpoison := s.coh.xpoison.filter fun k => !(List.range 8).all fun j => l.any fun x => x.pa = 8 * k + j } }

theorem State.clearWhole_xword (s : State) (l : List LaneAcc) (n : Nat) : (s.clearWhole l).xword n = s.xword n := rfl

/-- A store to the chip scratchpad changes nothing else. -/
theorem State.store_outside (s : State) (l : List LaneAcc) : (s.storeXwords l).clearWhole l = { s with coh := { s.coh with
    xspad := ((s.storeXwords l).clearWhole l).coh.xspad, xpoison := ((s.storeXwords l).clearWhole l).coh.xpoison } } := by
  rw [State.storeXwords_outside s l]; rfl

/-! ### XLD and XST -/

/-- Every active lane names an aligned word granted to the context. -/
def State.chipGranted (s : State) (w : I16) : Prop :=
  ∀ i ∈ s.cur.activeLanes, (vectorEa s.cur w.a w.b (immWord w) i).toNat % 4 = 0 ∧
    (s.chipReach s.cur (vectorEa s.cur w.a w.b (immWord w) i)).isSome = true

/-- One lane of an access to the chip scratchpad. -/
def chipLane (g : Group) (w : I16) (i : Fin 96) : LaneAcc :=
  ⟨lane7 i, vectorEa g w.a w.b (immWord w) i, (vectorEa g w.a w.b (immWord w) i).toNat / 4, .wb, BitVec.ofNat 128 ((g.srcV w.d)[i]).toNat,
    0, 0, false, none, false⟩

theorem chipReach_of_isSome {s : State} {g : Group} {ea : Word} (h : (s.chipReach g ea).isSome = true) :
    s.chipReach g ea = some (ea.toNat / 4) := by
  unfold State.chipReach at h ⊢
  split at h
  · cases h
  · split at h
    · rename_i h1 h2; rw [if_neg h1, if_pos h2]
    · cases h

theorem scratchLanes_of_granted {s : State} {w : I16} (wr : Bool) (h : s.chipGranted w) :
    scratchLanes s.cur wr (vectorEa s.cur w.a w.b (immWord w)) (s.chipReach s.cur) =
      s.cur.activeLanes.map fun i => (i, .ok ((vectorEa s.cur w.a w.b (immWord w) i).toNat / 4)) := by
  refine List.map_congr_left fun i hi => ?_
  obtain ⟨hal, hre⟩ := h i hi
  simp only [chipReach_of_isSome hre, hal, ne_eq, not_true_eq_false, if_false]

theorem laneFaults_of_ok (l : List (Fin 96)) (p : Fin 96 → Nat) : laneFaults (l.map fun i => (i, .ok (p i))) = [] := by
  simp [laneFaults]

theorem scratchAccs_of_ok (l : List (Fin 96)) (p : Fin 96 → Nat) (ea : Fin 96 → Word) (data : Fin 96 → Half) :
    scratchAccs (l.map fun i => (i, .ok (p i))) ea data =
      l.map fun i => ⟨lane7 i, ea i, p i, .wb, BitVec.ofNat 128 (data i).toNat, 0, 0, false, none, false⟩ := by
  simp [scratchAccs, List.filterMap_map]

/-- The access of XST or XLD with its lanes. -/
def chipAccess (s : State) (w : I16) (wr : Bool) (l : List LaneAcc) : Access :=
  ⟨0, 4, .spad, 0, 2, l, if wr then .none else vectorDst .b32 w.d, 0, 0, false, 0, false, false, false, s.timebase⟩

/-- The lanes of XLD with the words read. -/
def State.loadXwords (s : State) (l : List LaneAcc) : List LaneAcc :=
  l.map fun x => { x with done := true, res := BitVec.ofNat 128 (s.xword x.pa).toNat }

theorem chipRuns_of_islands {s : State} {w : I16}
    (h : ∀ i ∈ s.cur.activeLanes, s.islandRuns (96 + (vectorEa s.cur w.a w.b (immWord w) i).toNat / 4 / 2 ^ 20) = true) :
    s.chipRuns (s.cur.activeLanes.map (chipLane s.cur w)) = true := by
  rw [State.chipRuns, List.all_map, List.all_eq_true]
  exact h

/-- Where no lane faults, and the counter and the slices let it, the access is made. -/
theorem chip_granted_access {s : State} {w : I16} (wr : Bool) (hem : s.cur.em ≠ 0) (hc : s.cur.counter 4 < 63) (hg : s.chipGranted w)
    (hr : s.chipRuns (s.cur.activeLanes.map (chipLane s.cur w)) = true) :
    let l := s.cur.activeLanes.map (chipLane s.cur w)
    let a := chipAccess s w false (l.map fun x =>
      if x.pa / 8 ∈ s.coh.xpoison then { x with fault := some ⟨BitVec.ofNat 64 (x.va.toNat / 32 * 32), 4, 2, false, false, 0, 0⟩ }
      else { x with done := true, res := BitVec.ofNat 128 (s.xword x.pa).toNat })
    chip s w wr =
      if wr then ((s.storeXwords l).clearWhole l).issueDone w.ctl s.cur.cost (chipAccess s w true (l.map fun x => { x with done := true }))
      else if a.lanes.any fun x => x.fault.isSome then s.trapPoison a else s.issueDone w.ctl s.cur.cost a := by
  have hl := scratchLanes_of_granted wr hg
  have hacc : scratchAccs (s.cur.activeLanes.map fun i => (i, .ok ((vectorEa s.cur w.a w.b (immWord w) i).toNat / 4)))
      (vectorEa s.cur w.a w.b (immWord w)) (fun i => (s.cur.srcV w.d)[i]) = s.cur.activeLanes.map (chipLane s.cur w) :=
    scratchAccs_of_ok ..
  simp only [chip, hl, hacc, laneFaults_of_ok, hr]
  rw [if_neg hem, if_neg (by simp), if_neg (by simp [hc])]
  cases wr with
  | true =>
    rw [if_pos rfl, if_pos rfl]
    exact congrArg₂ (fun u a => State.issueDone u w.ctl s.cur.cost a) rfl rfl
  | false =>
    rw [if_neg Bool.false_ne_true, if_neg Bool.false_ne_true]
    rfl

theorem chip_xst {s : State} {w : I16} (hem : s.cur.em ≠ 0) (hc : s.cur.counter 4 < 63) (hg : s.chipGranted w)
    (hr : s.chipRuns (s.cur.activeLanes.map (chipLane s.cur w)) = true) :
    let l := s.cur.activeLanes.map (chipLane s.cur w)
    chip s w true =
      ((s.storeXwords l).clearWhole l).issueDone w.ctl s.cur.cost (chipAccess s w true (l.map fun x => { x with done := true })) :=
  (chip_granted_access true hem hc hg hr).trans (if_pos rfl)

theorem chip_xld {s : State} {w : I16} (hem : s.cur.em ≠ 0) (hc : s.cur.counter 4 < 63) (hg : s.chipGranted w)
    (hr : s.chipRuns (s.cur.activeLanes.map (chipLane s.cur w)) = true)
    (hp : ∀ i ∈ s.cur.activeLanes, (vectorEa s.cur w.a w.b (immWord w) i).toNat / 32 ∉ s.coh.xpoison) :
    chip s w false =
      s.issueDone w.ctl s.cur.cost (chipAccess s w false (s.loadXwords (s.cur.activeLanes.map (chipLane s.cur w)))) := by
  have hlanes : (s.cur.activeLanes.map (chipLane s.cur w)).map (fun x =>
      if x.pa / 8 ∈ s.coh.xpoison then { x with fault := some ⟨BitVec.ofNat 64 (x.va.toNat / 32 * 32), 4, 2, false, false, 0, 0⟩ }
      else { x with done := true, res := BitVec.ofNat 128 (s.xword x.pa).toNat }) = s.loadXwords (s.cur.activeLanes.map (chipLane s.cur w)) := by
    refine List.map_congr_left fun x hx => if_neg ?_
    obtain ⟨i, hi, rfl⟩ := List.mem_map.1 hx
    rw [chipLane, Nat.div_div_eq_div_mul]
    exact hp i hi
  have hfault : ((s.loadXwords (s.cur.activeLanes.map (chipLane s.cur w))).any fun x => x.fault.isSome) = false := by
    simp [State.loadXwords, chipLane]
  have h := chip_granted_access false hem hc hg hr
  simp only [hlanes] at h
  rw [h, if_neg (by decide), if_neg (by rw [chipAccess, hfault]; decide)]

/-- An instruction that issues is well formed (R258). -/
theorem info_ok_of_issues {s : State} {i : Instr} {o : OpInfo} (ho : i.info = some o) (h : issues i s = true) : o.ok = true := by
  rw [issues, ho] at h
  simp only [Bool.and_eq_true] at h
  tauto

/-- XLD names a register of the vector file. -/
theorem xld_dst {s : State} {w : I16} (h : issues (.xld w) s = true) : ∃ n, w.d = .reg n := by
  have hok := info_ok_of_issues (i := .xld w) rfl h
  simp only [OpInfo.ok, Bool.and_eq_true, Body.ctl, Body.d, Bool.false_or, Bool.not_eq_true'] at hok
  obtain ⟨⟨⟨-, hws⟩, hd⟩, -⟩ := hok
  cases hw : w.d with
  | reg n => exact ⟨n, rfl⟩
  | _ => rw [hws, hw] at hd; cases hd

theorem exec_chip {s : State} {w : I16} (wr : Bool) {i : Instr} (hi : i = if wr then .xst w else .xld w) (h : issues i s = true) :
    exec i s = .next (chip s w wr) := by
  subst hi
  cases wr with
  | true => exact congrArg _ (issue_of_issues h _)
  | false => exact congrArg _ (issue_of_issues h _)

theorem chip_inactive {s : State} {w : I16} (wr : Bool) (h : s.cur.em = 0) :
    chip s w wr = s.retire w.ctl 1 (if wr then .none else .v (Vector.replicate 96 0) (Vector.replicate 96 0)) := by
  simp only [chip, h, if_true, Group.cost_inactive h]
  rfl

/-- Two aligned addresses that differ name two words. -/
theorem div_four_ne {a b : Word} (ha : a.toNat % 4 = 0) (hb : b.toNat % 4 = 0) (h : a ≠ b) : a.toNat / 4 ≠ b.toNat / 4 := fun e =>
  h (BitVec.eq_of_toNat_eq (by omega))

/-- The word of the highest lane that names it holds that lane's data. -/
theorem storeXwords_chipLanes {s : State} {w : I16} (hg : s.chipGranted w) {i : Fin 96} (hi : i ∈ s.cur.activeLanes)
    (hlast : ∀ j ∈ s.cur.activeLanes, i < j → vectorEa s.cur w.a w.b (immWord w) j ≠ vectorEa s.cur w.a w.b (immWord w) i) :
    (s.storeXwords (s.cur.activeLanes.map (chipLane s.cur w))).xword ((vectorEa s.cur w.a w.b (immWord w) i).toNat / 4) =
      (s.cur.srcV w.d)[i] := by
  obtain ⟨l, r, hlr⟩ := List.append_of_mem hi
  have hsort := s.cur.activeLanes_pairwise
  rw [hlr, List.pairwise_append, List.pairwise_cons] at hsort
  obtain ⟨-, ⟨hr, -⟩, -⟩ := hsort
  have hmem : ∀ j ∈ r, j ∈ s.cur.activeLanes := fun j hj => by simp [hlr, hj]
  have hpa : ∀ y ∈ r.map (chipLane s.cur w), y.pa ≠ (chipLane s.cur w i).pa := by
    intro y hy
    obtain ⟨j, hj, rfl⟩ := List.mem_map.1 hy
    exact div_four_ne (hg j (hmem j hj)).1 (hg i hi).1 (hlast j (hmem j hj) (hr j hj))
  have h := s.storeXwords_last (l.map (chipLane s.cur w)) (r.map (chipLane s.cur w)) (chipLane s.cur w i) hpa
  rw [← List.map_cons, ← List.map_append, ← hlr] at h
  refine h.trans (BitVec.eq_of_toNat_eq ?_)
  have hlt := ((s.cur.srcV w.d)[i]).isLt
  simp only [chipLane, BitVec.extractLsb'_toNat, BitVec.toNat_ofNat, Nat.shiftRight_zero]
  omega

/-- Settles O22: a chip access with no lane in error is made at once; XST leaves the data of the highest lane of each word, XLD reads. -/
theorem chipScratchpadAccess : Obligations.ChipScratchpadAccess := by
  unfold Obligations.ChipScratchpadAccess
  intro s w wr i hi his hlife ea
  refine ⟨fun hem => ⟨_, exec_chip wr hi his, ?_⟩, fun hem hc hall hpois => ?_⟩
  · rw [chip_inactive wr hem]
    exact retires_retire s w.ctl 1 _ s.cur rfl rfl
  have hg : s.chipGranted w := fun i hi => ⟨(hall i hi).1, (hall i hi).2.1⟩
  have hr := chipRuns_of_islands fun i hi => (hall i hi).2.2
  rw [exec_chip wr hi his, ← Group.cost_eq_vectorCycles]
  cases wr with
  | true =>
    rw [chip_xst hem hc hg hr]
    have hout := s.store_outside (s.cur.activeLanes.map (chipLane s.cur w))
    refine ⟨_, _, _, rfl, entersDone_issueDone_none _ _ _ (by rw [hout]; exact hlife) rfl, hout, fun n hn => ?_,
      fun _ i hi hlast => storeXwords_chipLanes hg hi hlast, fun h => nomatch h⟩
    refine s.storeXwords_other fun x hx => ?_
    obtain ⟨j, hj, rfl⟩ := List.mem_map.1 hx
    exact hn.resolve_left (by decide) j hj
  | false =>
    obtain ⟨r, hd⟩ := xld_dst (hi ▸ his)
    rw [chip_xld hem hc hg hr (hpois rfl)]
    have hdst : (chipAccess s w false (s.loadXwords (s.cur.activeLanes.map (chipLane s.cur w)))).dst ≠ .none := by
      show vectorDst .b32 w.d ≠ .none
      rw [hd]; exact nofun
    refine ⟨s, _, Access.issuedIn _ s, rfl, entersDone_issueDone_pend s _ _ hlife hdst, rfl, fun _ _ => rfl, fun h => (nomatch h),
      fun _ => ⟨rfl, ?_⟩⟩
    simp only [Access.issuedIn, chipAccess, State.loadXwords, List.map_map]
    refine List.map_congr_left fun i hi => ?_
    simp only [Function.comp, chipLane, BitVec.ofNat_toNat]
    rfl

end Sys2Proof.Machine
end

section
/-! SUPPORT. Registers, islands and ports: what is read after a write of the same one and of another. -/

namespace Sys2Proof.Machine

/-! ### Fields of a word (00_scope.md, Notation) -/

theorem getLsbD_setBits {n : Nat} (w : BitVec n) (hi lo v i : Nat) : (setBits w hi lo v).getLsbD i =
    if lo ≤ i ∧ i < hi + 1 ∧ i < n then v.testBit (i - lo) else w.getLsbD i := by
  simp only [setBits, BitVec.getLsbD_or, BitVec.getLsbD_and, BitVec.getLsbD_not, BitVec.getLsbD_ofNat, Nat.testBit_shiftLeft,
    Nat.testBit_two_pow_sub_one, ge_iff_le]
  by_cases hn : i < n
  · by_cases hl : lo ≤ i
    · by_cases hh : i < hi + 1
      · simp [hn, hl, hh, show i - lo < hi + 1 - lo by omega]
      · simp [hn, hl, hh, show ¬ i - lo < hi + 1 - lo by omega]
    · simp [hn, hl]
  · simp [hn, BitVec.getLsbD_of_ge w i (Nat.le_of_not_lt hn)]

/-- The field that is written is read back, as far as the value fits. -/
theorem bits_setBits_same {n : Nat} (w : BitVec n) {hi lo : Nat} (v : Nat) (h : hi < n) :
    bits (setBits w hi lo v) hi lo = v % 2 ^ (hi + 1 - lo) := by
  apply Nat.eq_of_testBit_eq
  intro i
  rw [testBit_bits, getLsbD_setBits, Nat.testBit_mod_two_pow]
  by_cases hi' : i < hi + 1 - lo
  · simp [hi', show lo + i < hi + 1 by omega, show lo + i < n by omega]
  · simp [hi']

/-- A field that shares no bit with the one written is kept. -/
theorem bits_setBits_other {n : Nat} (w : BitVec n) {hi lo hi' lo' : Nat} (v : Nat) (h : hi < lo' ∨ hi' < lo) :
    bits (setBits w hi lo v) hi' lo' = bits w hi' lo' := by
  apply Nat.eq_of_testBit_eq
  intro i
  rw [testBit_bits, testBit_bits, getLsbD_setBits]
  by_cases hi' : i < hi' + 1 - lo'
  · rw [if_neg (by omega)]
  · simp [hi']

theorem bits_lt {n : Nat} (w : BitVec n) (hi lo : Nat) : bits w hi lo < 2 ^ (hi + 1 - lo) := Nat.mod_lt _ (Nat.two_pow_pos _)

/-- A field of one bit is that bit. -/
theorem bits_one {n : Nat} (w : BitVec n) (i : Nat) : bits w i i = b2n (bit w i) := by
  apply Nat.eq_of_testBit_eq
  intro j
  rw [testBit_bits, b2n, bit, show i + 1 - i = 1 by omega]
  cases j with
  | zero => cases w.getLsbD i <;> simp
  | succ j => cases w.getLsbD i <;> simp [Nat.testBit_succ]

theorem b2n_eq_one {b : Bool} : b2n b = 1 ↔ b = true := by cases b <;> decide
theorem b2n_lt_two (b : Bool) : b2n b < 2 := by cases b <;> decide

/-! ### Tables -/

/-- Every other key reads as before, whatever the default that is not listed. -/
theorem Tab.get_set_ne {α : Type} [DecidableEq α] (d e : α) (t : Tab α) {k n : Nat} (v : α) (h : n ≠ k) :
    Tab.get e (Tab.set d t k v) n = Tab.get e t n := by
  unfold Tab.set
  split
  · exact Tab.get_drop_other e t h
  · exact (Tab.get_ins_other e _ v h).trans (Tab.get_drop_other e t h)

/-! ### Registers of the management space -/

theorem State.setReg_reg_ne (s : State) {o p : Nat} (w : Word) (h : p ≠ o) : (s.setReg o w).reg p = s.reg p := Tab.get_set_ne _ _ _ _ h

@[simp] theorem State.setRegBits_reg_same (s : State) (o hi lo v : Nat) : (s.setRegBits o hi lo v).reg o = setBits (s.reg o) hi lo v :=
  State.setReg_reg ..

theorem State.setRegBits_reg_ne (s : State) {o p : Nat} (hi lo v : Nat) (h : p ≠ o) : (s.setRegBits o hi lo v).reg p = s.reg p :=
  State.setReg_reg_ne _ _ h

theorem State.setRegBits_regBits_same (s : State) (o : Nat) {hi lo : Nat} (v : Nat) (h : hi < 64) :
    (s.setRegBits o hi lo v).regBits o hi lo = v % 2 ^ (hi + 1 - lo) := by
  rw [State.regBits, State.setRegBits_reg_same, bits_setBits_same _ _ h]

theorem State.setRegBits_regBits_other (s : State) (o : Nat) {hi lo hi' lo' : Nat} (v : Nat) (h : hi < lo' ∨ hi' < lo) :
    (s.setRegBits o hi lo v).regBits o hi' lo' = s.regBits o hi' lo' := by
  rw [State.regBits, State.setRegBits_reg_same, bits_setBits_other _ _ h]; rfl

theorem State.setRegBits_regBits_ne (s : State) {o p : Nat} (hi lo v hi' lo' : Nat) (h : p ≠ o) :
    (s.setRegBits o hi lo v).regBits p hi' lo' = s.regBits p hi' lo' := by
  rw [State.regBits, State.setRegBits_reg_ne _ _ _ _ h]; rfl

@[simp] theorem State.setRegBits_cur (s : State) (o hi lo v : Nat) : (s.setRegBits o hi lo v).cur = s.cur := rfl
@[simp] theorem State.setRegBits_parked (s : State) (o hi lo v : Nat) : (s.setRegBits o hi lo v).parked = s.parked := rfl
@[simp] theorem State.setRegBits_pkg (s : State) (o hi lo v : Nat) : (s.setRegBits o hi lo v).pkg = s.pkg := rfl
@[simp] theorem State.setRegBits_net (s : State) (o hi lo v : Nat) : (s.setRegBits o hi lo v).net = s.net := rfl
@[simp] theorem State.setRegBits_sch (s : State) (o hi lo v : Nat) : (s.setRegBits o hi lo v).sch = s.sch := rfl
@[simp] theorem State.setRegBits_island (s : State) (o hi lo v n : Nat) : (s.setRegBits o hi lo v).island n = s.island n := rfl
@[simp] theorem State.setRegBits_port (s : State) (o hi lo v p : Nat) : (s.setRegBits o hi lo v).port p = s.port p := rfl
@[simp] theorem State.setReg_island (s : State) (o : Nat) (w : Word) (n : Nat) : (s.setReg o w).island n = s.island n := rfl
@[simp] theorem State.setReg_pkg (s : State) (o : Nat) (w : Word) : (s.setReg o w).pkg = s.pkg := rfl

/-- A write of one register leaves the field of another. -/
theorem State.setReg_regBits_ne (s : State) {o p : Nat} (w : Word) (hi lo : Nat) (h : p ≠ o) : (s.setReg o w).regBits p hi lo = s.regBits p hi lo := by
  rw [State.regBits, State.setReg_reg_ne _ _ h]; rfl

/-! ### Islands -/

@[simp] theorem State.setIsland_reg (s : State) (n : Nat) (x : Island) (o : Nat) : (s.setIsland n x).reg o = s.reg o := rfl
@[simp] theorem State.setIsland_regBits (s : State) (n : Nat) (x : Island) (o hi lo : Nat) :
    (s.setIsland n x).regBits o hi lo = s.regBits o hi lo := rfl
@[simp] theorem State.setIsland_island_same (s : State) (n : Nat) (x : Island) : (s.setIsland n x).island n = x := Tab.get_set_same _ _ _ _
theorem State.setIsland_island_ne (s : State) {n k : Nat} (x : Island) (h : k ≠ n) : (s.setIsland n x).island k = s.island k :=
  Tab.get_set_ne _ _ _ _ h

/-! ### Ports -/

@[simp] theorem State.setPort_reg (s : State) (p : Nat) (x : Port) (o : Nat) : (s.setPort p x).reg o = s.reg o := rfl
@[simp] theorem State.setPort_regBits (s : State) (p : Nat) (x : Port) (o hi lo : Nat) : (s.setPort p x).regBits o hi lo = s.regBits o hi lo := rfl
@[simp] theorem State.setPort_portUp (s : State) (p : Nat) (x : Port) (q : Nat) : (s.setPort p x).portUp q = s.portUp q := rfl
@[simp] theorem State.setPort_port_same (s : State) (p : Nat) (x : Port) : (s.setPort p x).port p = x := Tab.get_set_same _ _ _ _
theorem State.setPort_port_ne (s : State) {p q : Nat} (x : Port) (h : q ≠ p) : (s.setPort p x).port q = s.port q :=
  Tab.get_set_other _ _ _ h

end Sys2Proof.Machine
end

section
/-! SUPPORT. The package: the entry stage, the islands' telemetry, steps and windows, and the health objects. -/

namespace Sys2Proof.Machine

/-! ### Counters in registers -/

theorem State.countReg_outside (s : State) (o hi lo : Nat) : s.countReg o hi lo = { s with mgmt := (s.countReg o hi lo).mgmt } := by
  simp only [State.countReg]
  split <;> rfl

theorem State.countReg_reg_ne (s : State) {o p : Nat} (hi lo : Nat) (h : p ≠ o) : (s.countReg o hi lo).reg p = s.reg p := by
  simp only [State.countReg]
  split
  · exact State.setRegBits_reg_ne _ _ _ _ h
  · rfl

/-- The count saturates. -/
theorem State.countReg_regBits (s : State) (o : Nat) {hi lo : Nat} (h : hi < 64) :
    (s.countReg o hi lo).regBits o hi lo = min (s.regBits o hi lo + 1) (2 ^ (hi + 1 - lo) - 1) := by
  have hlt : s.regBits o hi lo < 2 ^ (hi + 1 - lo) := bits_lt _ _ _
  simp only [State.countReg]
  split
  case isTrue hc => rw [State.setRegBits_regBits_same _ _ _ h, Nat.mod_eq_of_lt hc]; omega
  case isFalse => omega

/-! ### The entry stage (R8, R9) -/

theorem exec_entryOutOfRange (s : State) : exec .entryOutOfRange s = .next { s with pkg := { s.pkg with entry := { s.pkg.entry with
    inRange := false
    pwrbad := true
    timedOut := if s.pkg.entry.inRange then false else s.pkg.entry.timedOut } } } := by
  show execEntryOutOfRange s = _
  cases h : s.pkg.entry.inRange <;> simp [execEntryOutOfRange, State.setEntry', h]

/-- An excursion of the running part that ends in time is counted (R9). -/
theorem entryBackInRange (s : State) : ∃ t : State, exec .entryBackInRange s = .next t ∧
    t = { s with pkg := { s.pkg with entry := { s.pkg.entry with inRange := true, pwrbad := false, timedOut := false } }, mgmt := t.mgmt } ∧
    t.regBits Reg.mstat 47 32 = (if s.pkg.entry.inRange = false ∧ s.pkg.entry.timedOut = false ∧ s.pkg.entry.held = false then
      min (s.regBits Reg.mstat 47 32 + 1) 65535 else s.regBits Reg.mstat 47 32) ∧
    ∀ o, o ≠ Reg.mstat → t.reg o = s.reg o := by
  refine ⟨_, rfl, ?_⟩
  by_cases h : s.pkg.entry.inRange = false ∧ s.pkg.entry.timedOut = false ∧ s.pkg.entry.held = false
  · rw [if_pos (by simp [h]), if_pos h]
    refine ⟨?_, State.countReg_regBits _ Reg.mstat (by decide), fun o ho => State.countReg_reg_ne _ _ _ ho⟩
    rw [State.countReg_outside]; rfl
  · rw [if_neg (by simpa [and_assoc] using h), if_neg h]
    exact ⟨rfl, rfl, fun _ _ => rfl⟩

/-- After 50 µs out of range the islands are reset, but for MSTAT and the media (R9). -/
theorem excursionTimeout {s : State} (hr : s.pkg.entry.inRange = false) (hh : s.pkg.entry.held = false) :
    ∃ t : State, exec .excursionTimeout s = .next t ∧ t.pkg.entry.held = true ∧
      t.reg Reg.mstat = setBits (s.reg Reg.mstat) 0 0 1 ∧ (∀ o, o ≠ Reg.mstat → t.reg o = regReset o) ∧ t.mem = s.mem ∧
      t.cur = State.reset.cur ∧ t.parked = [] ∧ t.cores = State.reset.cores ∧ t.coh = State.reset.coh ∧ t.sch = State.reset.sch := by
  refine ⟨_, rfl, ?_⟩
  rw [if_neg (by simp [hr, hh])]
  refine ⟨rfl, ?_, fun o ho => Tab.get_set_ne _ _ _ _ ho, rfl, rfl, rfl, rfl, rfl, rfl⟩
  exact (Tab.get_set_same ..).trans (State.setRegBits_reg_same ..)

theorem excursionTimeout_none {s : State} (h : s.pkg.entry.inRange = true ∨ s.pkg.entry.held = true) : exec .excursionTimeout s = .next s := by
  show Host.Outcome.next (if _ then _ else _) = _
  rw [if_pos (by simpa using h)]

theorem entryStableTimeout {s : State} (hr : s.pkg.entry.inRange = true) (hh : s.pkg.entry.held = true) :
    exec .entryStableTimeout s = .next { s with pkg := { s.pkg with entry := { s.pkg.entry with held := false } } } := by
  show Host.Outcome.next (if _ then _ else _) = _
  rw [if_pos (by simp [hr, hh])]; rfl

theorem entryStableTimeout_none {s : State} (h : s.pkg.entry.inRange = false ∨ s.pkg.entry.held = false) :
    exec .entryStableTimeout s = .next s := by
  show Host.Outcome.next (if _ then _ else _) = _
  rw [if_neg (by rcases h with h | h <;> simp [h])]

/-! ### Steps of an island (R13 to R16) -/

section
variable {s : State} {n : Nat} (h : n < 96)
include h

theorem lowestStep_core : lowestStep n = 800 := by rw [lowestStep, if_pos (by simp [show n < 112 by omega])]

theorem ceiling_core : s.ceiling n = max 800 (min (s.regBits (Reg.islandCtl n) 39 28) 2000 / 25 * 25) := by
  rw [State.ceiling, lowestStep_core h, ratedMax, if_pos (by simp [show n < 112 by omega])]

theorem ceiling_core_le : s.ceiling n ≤ 2000 := by rw [ceiling_core h]; omega

/-- The step taken: within the limits, a multiple of 25 MHz, the highest that satisfies the condition. -/
theorem highestStep_core (ok : Nat → Bool) :
    800 ≤ s.highestStep n ok ∧ s.highestStep n ok ≤ s.ceiling n ∧ s.highestStep n ok % 25 = 0 ∧
    (ok (s.highestStep n ok) = true ∨ s.highestStep n ok = 800) ∧
    ∀ f, f % 25 = 0 → s.highestStep n ok < f → f ≤ s.ceiling n → ok f = false := by
  have hc : 800 ≤ s.ceiling n ∧ s.ceiling n % 25 = 0 := by rw [ceiling_core h]; omega
  obtain ⟨hlow, hmod⟩ := hc
  rw [State.highestStep, lowestStep_core h, List.find?_map]
  generalize s.ceiling n = c at *
  cases hf : (List.range ((c - 800) / 25 + 1)).find? (ok ∘ fun i => c - 25 * i) with
  | none =>
    refine ⟨Nat.le_refl _, hlow, (by decide : 800 % 25 = 0), .inr rfl, fun f h25 hlt hle => ?_⟩
    have := List.find?_eq_none.1 hf ((c - f) / 25) (List.mem_range.2 (by simp only [Option.map_none, Option.getD_none] at hlt; omega))
    rw [Function.comp, show c - 25 * ((c - f) / 25) = f by omega] at this
    simpa using this
  | some i =>
    rw [List.find?_range_eq_some] at hf
    obtain ⟨hi, hm, hbefore⟩ := hf
    have hlt := List.mem_range.1 hm
    simp only [Option.map_some, Option.getD_some]
    refine ⟨by omega, by omega, by omega, .inl hi, fun f h25 hlt hle => ?_⟩
    have := hbefore ((c - f) / 25) (by omega)
    rw [Function.comp, show c - 25 * ((c - f) / 25) = f by omega] at this
    simpa using this

theorem steps_core :
    let top := max 800 (min (s.regBits (Reg.islandCtl n) 39 28) 2000 / 25 * 25)
    800 ≤ s.ownStep n ∧ s.ownStep n ≤ top ∧ s.ownStep n % 25 = 0 ∧ (s.meetsOwn n (s.ownStep n) 0 = true ∨ s.ownStep n = 800) ∧
    (∀ f, f % 25 = 0 → s.ownStep n < f → f ≤ top → s.meetsOwn n f 0 = false) ∧
    800 ≤ s.capStep n ∧ s.capStep n ≤ top ∧ s.capStep n % 25 = 0 ∧ (s.meetsCap n (s.capStep n) 0 = true ∨ s.capStep n = 800) ∧
    ∀ f, f % 25 = 0 → s.capStep n < f → f ≤ top → s.meetsCap n f 0 = false := by
  intro top
  rw [show top = s.ceiling n from (ceiling_core h).symm]
  obtain ⟨o1, o2, o3, o4, o5⟩ := highestStep_core (s := s) h fun f => s.meetsOwn n f 0
  obtain ⟨c1, c2, c3, c4, c5⟩ := highestStep_core (s := s) h fun f => s.meetsCap n f 0
  exact ⟨o1, o2, o3, o4, o5, c1, c2, c3, c4, c5⟩

end

/-! ### Telemetry (R12 to R14, R17 to R19) -/

/-- The sample as its register shows it, before the evaluation of limits: the supply set, current, temperature, REGF and SEQ one more. -/
def State.sampled (s : State) (n : Nat) (x : IslandSample) : State :=
  s.setReg (Reg.telemetry n) (field 48 (s.island n).supply.toNat ||| field 32 x.curr.toNat ||| field 20 x.temp.toNat |||
    field 16 (b2n (s.island n).held) ||| field 0 ((bits (s.reg (Reg.telemetry n)) 15 0 + 1) % 2 ^ 16))

/-- Fields of a word of five fields. -/
theorem bits_telemetry {a b c d e : Nat} (ha : a < 2 ^ 16) (hb : b < 2 ^ 16) (hc : c < 2 ^ 12) (hd : d < 2 ^ 1) (he : e < 2 ^ 16) :
    let w : Word := field 48 a ||| field 32 b ||| field 20 c ||| field 16 d ||| field 0 e
    bits w 63 48 = a ∧ bits w 47 32 = b ∧ bits w 31 20 = c ∧ bits w 16 16 = d ∧ bits w 15 0 = e := by
  simp only [bits_or]
  refine ⟨?_, ?_, ?_, ?_, ?_⟩
  · rw [bits_field_same ha (by decide), bits_field_below 16 hb (by decide), bits_field_below 12 hc (by decide),
      bits_field_below 1 hd (by decide), bits_field_below 16 he (by decide)]; simp
  · rw [bits_field_above (by decide), bits_field_same hb (by decide), bits_field_below 12 hc (by decide),
      bits_field_below 1 hd (by decide), bits_field_below 16 he (by decide)]; simp
  · rw [bits_field_above (by decide), bits_field_above (by decide), bits_field_same hc (by decide),
      bits_field_below 1 hd (by decide), bits_field_below 16 he (by decide)]; simp
  · rw [bits_field_above (by decide), bits_field_above (by decide), bits_field_above (by decide), bits_field_same hd (by decide),
      bits_field_below 16 he (by decide)]; simp
  · rw [bits_field_above (by decide), bits_field_above (by decide), bits_field_above (by decide), bits_field_above (by decide),
      bits_field_same he (by decide)]; simp

/-- The three limits shown beside a sample, LIMI, LIMC and LIMT. -/
def State.withLimits (s : State) (n : Nat) (limi limc limt : Bool) : State :=
  ((s.setRegBits (Reg.telemetry n) 19 19 (b2n limi)).setRegBits (Reg.telemetry n) 18 18 (b2n limc)).setRegBits (Reg.telemetry n) 17 17 (b2n limt)

theorem State.withLimits_regBits_other (s : State) (n : Nat) (a b c : Bool) {hi lo : Nat} (h : 19 < lo ∨ hi < 17) :
    (s.withLimits n a b c).regBits (Reg.telemetry n) hi lo = s.regBits (Reg.telemetry n) hi lo := by
  rw [State.withLimits, State.setRegBits_regBits_other _ _ _ (by omega), State.setRegBits_regBits_other _ _ _ (by omega),
    State.setRegBits_regBits_other _ _ _ (by omega)]

theorem bit_eq_true_iff {n : Nat} (w : BitVec n) (i : Nat) : bit w i = true ↔ bits w i i = 1 := by
  rw [bits_one, b2n_eq_one]

/-- A flag that is written is read back. -/
theorem State.setRegBits_flag (s : State) (o : Nat) {i : Nat} (b : Bool) (h : i < 64) :
    bit ((s.setRegBits o i i (b2n b)).reg o) i = true ↔ b = true := by
  have hbits := s.setRegBits_regBits_same o (hi := i) (lo := i) (b2n b) h
  rw [show i + 1 - i = 1 by omega, Nat.pow_one, Nat.mod_eq_of_lt (b2n_lt_two b)] at hbits
  exact (bit_eq_true_iff _ _).trans ((Eq.congr_left hbits).trans b2n_eq_one)

/-- Another flag of the register keeps its value. -/
theorem State.setRegBits_flag_other (s : State) (o : Nat) {i j : Nat} (v : Nat) (h : i ≠ j) :
    bit ((s.setRegBits o i i v).reg o) j = bit (s.reg o) j := by
  rw [Bool.eq_iff_iff, bit_eq_true_iff, bit_eq_true_iff, State.setRegBits_reg_same, bits_setBits_other _ _ (Nat.lt_or_gt_of_ne h)]

theorem State.withLimits_bits (s : State) (n : Nat) (a b c : Bool) :
    (bit ((s.withLimits n a b c).reg (Reg.telemetry n)) 19 = true ↔ a = true) ∧ (bit ((s.withLimits n a b c).reg (Reg.telemetry n)) 18 = true ↔ b = true) ∧
    (bit ((s.withLimits n a b c).reg (Reg.telemetry n)) 17 = true ↔ c = true) := by
  refine ⟨?_, ?_, State.setRegBits_flag _ _ c (by decide)⟩
  · rw [State.withLimits, State.setRegBits_flag_other _ _ _ (by decide), State.setRegBits_flag_other _ _ _ (by decide),
      State.setRegBits_flag _ _ a (by decide)]
  · rw [State.withLimits, State.setRegBits_flag_other _ _ _ (by decide), State.setRegBits_flag _ _ b (by decide)]

/-- Pyrano finds the power above the cap (R18). -/
def State.excess (u : State) (n : Nat) : Bool := u.capOn && u.pcap256 n < 256 * u.powerNow n

/-- The island after its controller's and Pyrano's evaluation of `u` (R13, R18, log 69). -/
def State.evaluated (u : State) (n : Nat) : Island :=
  if u.excess n then
    (u.island n).run n (min (u.island n).mhz.toNat (u.ownStep n))
      (max (lowestStep n) (min (min (u.ownStep n) (u.capStep n)) ((u.island n).mhz.toNat - 25)))
  else (u.island n).run n (min (u.ownStep n) (u.capStep n)) 0

/-- A limit holds the island below its ceiling, and no other holds it lower; or windows are stopped and it is not met at the lowest step (R14, R16). -/
def State.limitedBy (u : State) (n mine other : Nat) (meets : Bool) : Bool :=
  (mine < u.ceiling n && mine ≤ other) || ((u.island n).windows ≠ 0 && !meets)

/-- The telemetry of `u` with the limits of its evaluation. -/
def State.limited (u : State) (n : Nat) : State :=
  u.withLimits n (u.limitedBy n (u.ownStep n) (u.capStep n) (u.meetsOwn n (lowestStep n) 0))
    (u.limitedBy n (u.capStep n) (u.ownStep n) (u.meetsCap n (lowestStep n) 0)) (decide (u.tlim n < u.tempNow n))

theorem State.refreshIsland_eq (s : State) {n : Nat} (h : n < 96) (x : IslandSample) :
    s.refreshIsland n x = ((s.sampled n x).limited n).setIsland n ((s.sampled n x).evaluated n) := by
  have hcurr : (if (Config.unusedIsland n && decide (96 ≤ n)) = true then 0 else x.curr.toNat) = x.curr.toNat := by
    rw [if_neg (by simp [h])]
  simp only [State.refreshIsland, hcurr]
  rfl

theorem State.sampled_bits (s : State) (n : Nat) (x : IslandSample) :
    let v := (s.sampled n x).reg (Reg.telemetry n)
    bits v 63 48 = (s.island n).supply.toNat ∧ bits v 47 32 = x.curr.toNat ∧ bits v 31 20 = x.temp.toNat ∧
      bits v 16 16 = b2n (s.island n).held ∧ bits v 15 0 = (bits (s.reg (Reg.telemetry n)) 15 0 + 1) % 2 ^ 16 := by
  rw [State.sampled, State.setReg_reg]
  exact bits_telemetry (s.island n).supply.isLt x.curr.isLt x.temp.isLt (b2n_lt_two _) (Nat.mod_lt _ (by decide))

theorem State.limited_regBits_other (u : State) (n : Nat) {hi lo : Nat} (h : 19 < lo ∨ hi < 17) :
    bits ((u.limited n).reg (Reg.telemetry n)) hi lo = bits (u.reg (Reg.telemetry n)) hi lo :=
  State.withLimits_regBits_other _ _ _ _ _ h

/-- LIMI, LIMC and LIMT of an island none of whose windows is stopped. -/
theorem State.limited_bits (u : State) (n : Nat) :
    let v := (u.limited n).reg (Reg.telemetry n)
    (bit v 17 = true ↔ u.tlim n < u.tempNow n) ∧ ((u.island n).windows = 0 →
      (bit v 19 = true ↔ u.ownStep n < u.ceiling n ∧ u.ownStep n ≤ u.capStep n) ∧
      (bit v 18 = true ↔ u.capStep n < u.ceiling n ∧ u.capStep n ≤ u.ownStep n)) := by
  intro v
  obtain ⟨l19, l18, l17⟩ := u.withLimits_bits n (u.limitedBy n (u.ownStep n) (u.capStep n) (u.meetsOwn n (lowestStep n) 0))
    (u.limitedBy n (u.capStep n) (u.ownStep n) (u.meetsCap n (lowestStep n) 0)) (decide (u.tlim n < u.tempNow n))
  refine ⟨l17.trans decide_eq_true_iff, fun hw => ⟨l19.trans ?_, l18.trans ?_⟩⟩ <;>
    simp only [State.limitedBy, hw, ne_eq, not_true_eq_false, decide_false, Bool.false_and, Bool.or_false, Bool.and_eq_true, decide_eq_true_eq]

theorem Island.run_mhz (i : Island) (n goal : Nat) {f : Nat} (h : f < 2 ^ 12) : (i.run n f goal).mhz.toNat = f :=
  Nat.mod_eq_of_lt h

theorem Island.run_supply (i : Island) (n goal : Nat) {f : Nat} (h : f < 2 ^ 12) :
    (i.run n f goal).supply = Config.supplyFor n (i.run n f goal).mhz.toNat := by
  rw [Island.run_mhz i n goal h]; rfl

/-- The step that a core island takes, or leaves to Pyrano. -/
theorem State.evaluated_core (u : State) {n : Nat} (h : n < 96) :
    (u.excess n = false → (u.evaluated n).mhz.toNat = min (u.ownStep n) (u.capStep n) ∧ (u.evaluated n).stepTo = 0) ∧
    (u.excess n = true → (u.evaluated n).mhz.toNat = min (u.island n).mhz.toNat (u.ownStep n) ∧
      (u.evaluated n).stepTo = max 800 (min (min (u.ownStep n) (u.capStep n)) ((u.island n).mhz.toNat - 25))) ∧
    (u.evaluated n).supply = Config.supplyFor n (u.evaluated n).mhz.toNat := by
  have hown : u.ownStep n ≤ 2000 := Nat.le_trans (highestStep_core h _).2.1 (ceiling_core_le h)
  rw [State.evaluated, lowestStep_core h]
  cases u.excess n with
  | false =>
    rw [if_neg Bool.false_ne_true]
    exact ⟨fun _ => ⟨Island.run_mhz _ _ _ (by omega), rfl⟩, nofun, Island.run_supply _ _ _ (by omega)⟩
  | true =>
    rw [if_pos rfl]
    exact ⟨nofun, fun _ => ⟨Island.run_mhz _ _ _ (by omega), rfl⟩, Island.run_supply _ _ _ (by omega)⟩

theorem State.limited_outside (u : State) (n : Nat) : u.limited n = { u with mgmt := (u.limited n).mgmt } := rfl

theorem State.refreshIsland_telemetry (s : State) {n : Nat} (h : n < 96) (x : IslandSample) :
    (s.refreshIsland n x).reg (Reg.telemetry n) = ((s.sampled n x).limited n).reg (Reg.telemetry n) := by
  rw [State.refreshIsland_eq s h, State.setIsland_reg]

theorem State.refreshIsland_island (s : State) {n : Nat} (h : n < 96) (x : IslandSample) :
    (s.refreshIsland n x).island n = (s.sampled n x).evaluated n := by
  rw [State.refreshIsland_eq s h, State.setIsland_island_same]

/-- A refresh of an island changes its telemetry and its step. -/
theorem State.refreshIsland_outside (s : State) {n : Nat} (h : n < 96) (x : IslandSample) : s.refreshIsland n x =
    { s with mgmt := (s.refreshIsland n x).mgmt, pkg := { s.pkg with islands := (s.refreshIsland n x).pkg.islands } } := by
  rw [State.refreshIsland_eq s h, State.limited_outside]; rfl

/-- A refresh of one sample, after what was written since the last (R12, R19). -/
theorem telemetryRefresh_one {s : State} {x : IslandSample} (h : s.ev.islands = [x]) :
    exec .telemetryRefresh s = .next (s.applyPending.refreshIsland 0 x) := by
  show Host.Outcome.next (((s.ev.islands.take 128).zipIdx).foldl _ _) = _
  rw [h]; rfl

theorem telemetryRefresh_none {s : State} (h : s.ev.islands = []) : exec .telemetryRefresh s = .next s.applyPending := by
  show Host.Outcome.next (((s.ev.islands.take 128).zipIdx).foldl _ _) = _
  rw [h]; rfl

theorem applyPending_reg {s : State} {o : Nat} {w : Word} (h : s.pkg.pending = [(o, some w)]) : s.applyPending.reg o = w := by
  rw [State.applyPending, h]
  exact State.setReg_reg s o w

/-- Pyrano's step down (R18). -/
theorem pyranoStepDown {s : State} (h : (s.island s.ev.a).stepTo ≠ 0) : ∃ t : State, exec .pyranoStepDown s = .next t ∧
    (t.island s.ev.a).mhz.toNat = min (s.island s.ev.a).mhz.toNat (s.island s.ev.a).stepTo ∧ (t.island s.ev.a).stepTo = 0 ∧
    (t.island s.ev.a).supply = Config.supplyFor s.ev.a (min (s.island s.ev.a).mhz.toNat (s.island s.ev.a).stepTo) ∧
    t = { s with pkg := { s.pkg with islands := t.pkg.islands } } ∧ ∀ k, k ≠ s.ev.a → t.island k = s.island k := by
  refine ⟨_, congrArg Host.Outcome.next (if_neg h), ?_⟩
  simp only [State.setIsland_island_same]
  have hlt := (s.island s.ev.a).mhz.isLt
  exact ⟨Island.run_mhz _ _ _ (by omega), rfl, rfl, rfl, fun k hk => State.setIsland_island_ne _ _ hk⟩

/-! ### Clock windows and the trip (R16) -/

/-- The state in which a window has begun, stopped or not. -/
def State.windowed (s : State) (n : Nat) (stop : Bool) (w : BitVec 10) : State :=
  let t := s.setIsland n { s.island n with windows := w, stopped := stop }
  if stop then (t.setRegBits Reg.mstat 2 2 1).setRegBits Reg.mstat 31 24 n else t

theorem islandCtl_ne_mstat (n : Nat) : Reg.islandCtl n ≠ Reg.mstat := by unfold Reg.islandCtl Reg.mstat; omega
theorem telemetry_ne_mstat (n : Nat) : Reg.telemetry n ≠ Reg.mstat := by unfold Reg.telemetry Reg.mstat; omega

section
variable (s : State) (n : Nat) (stop : Bool) (w : BitVec 10)

theorem State.windowed_outside : s.windowed n stop w = { s with mgmt := (s.windowed n stop w).mgmt, pkg := (s.windowed n stop w).pkg } := by
  cases stop <;> rfl

theorem State.windowed_island : (s.windowed n stop w).island n = { s.island n with windows := w, stopped := stop } := by
  cases stop <;> exact State.setIsland_island_same ..

theorem State.windowed_reg {o : Nat} (h : o ≠ Reg.mstat) : (s.windowed n stop w).reg o = s.reg o := by
  cases stop with
  | false => rfl
  | true => exact (State.setRegBits_reg_ne _ _ _ _ h).trans (State.setRegBits_reg_ne _ _ _ _ h)

theorem State.windowed_tlim : (s.windowed n stop w).tlim n = s.tlim n := by
  simp only [State.tlim, State.regBits, State.windowed_reg s n stop w (islandCtl_ne_mstat n)]

theorem State.windowed_tempNow : (s.windowed n stop w).tempNow n = s.tempNow n := by
  simp only [State.tempNow, State.regBits, State.windowed_reg s n stop w (telemetry_ne_mstat n)]

theorem State.windowed_of_not_stop (h : stop = false) :
    s.windowed n stop w = s.setIsland n { s.island n with windows := w, stopped := false } := by
  subst h; rfl

/-- A stopped window shows HOLD and LASTI. -/
theorem State.windowed_mstat (h : stop = true) (hn : n < 128) :
    (s.windowed n stop w).regBits Reg.mstat 2 2 = 1 ∧ (s.windowed n stop w).regBits Reg.mstat 31 24 = n := by
  simp only [State.windowed, if_pos h]
  refine ⟨?_, ?_⟩
  · rw [State.setRegBits_regBits_other _ _ _ (by decide), State.setRegBits_regBits_same _ _ _ (by decide)]; rfl
  · rw [State.setRegBits_regBits_same _ _ _ (by decide)]
    exact Nat.mod_eq_of_lt (by omega)

end

theorem clockWindow_waits {s : State} (h : (s.island s.ev.a).held = true ∨ s.pkg.entry.held = true) : exec .clockWindow s = .next s := by
  refine congrArg Host.Outcome.next (if_pos ?_)
  rcases h with h | h <;> simp [h]

/-- A window of a running island: stopped where it is wanted, and the trip at nine of ten with TEMP 10 degrees above TLIM (R16, log 69). -/
theorem clockWindow_runs {s : State} (hn : s.ev.a < 128) (hi : (s.island s.ev.a).held = false) (he : s.pkg.entry.held = false) :
    let n := s.ev.a
    let stop := decide (countOnes (s.island n).windows 9 < s.stopsWanted n)
    let w := ((s.island n).windows <<< 1) ||| BitVec.ofNat 10 (b2n stop)
    exec .clockWindow s = .next (if countOnes w 10 = 9 ∧ s.tlim n + 80 ≤ s.tempNow n then (s.windowed n stop w).tripIsland n
      else s.windowed n stop w) := by
  intro n stop w
  have h : exec .clockWindow s = .next (if countOnes w 10 = 9 && (s.windowed n stop w).tlim n + 80 ≤ (s.windowed n stop w).tempNow n
      then (s.windowed n stop w).tripIsland n else s.windowed n stop w) := congrArg Host.Outcome.next (if_neg (by simp [hi, he, hn]))
  rw [h, State.windowed_tlim, State.windowed_tempNow]
  simp only [Bool.and_eq_true, decide_eq_true_eq]

theorem islandDown_shows (s : State) (n : Nat) :
    (s.islandDown n).regBits (Reg.telemetry n) 16 16 = 1 ∧ (s.islandDown n).regBits Reg.mstat 1 1 = 1 := by
  simp only [State.islandDown]
  refine ⟨?_, ?_⟩
  · rw [State.setRegBits_regBits_ne _ _ _ _ _ _ (telemetry_ne_mstat n), State.setRegBits_regBits_same _ _ _ (by decide)]; rfl
  · rw [State.setRegBits_regBits_same _ _ _ (by decide)]; rfl

theorem islandDown_idle {s : State} {n : Nat} (h : s.launchesOn n = []) :
    s.islandDown n = ((s.clearIsland n).setRegBits (Reg.telemetry n) 16 16 1).setRegBits Reg.mstat 1 1 1 := by
  simp only [State.islandDown, h, List.foldl_nil]

theorem regulatorFault {s : State} (hn : s.ev.a < 128) : exec .regulatorFault s =
    .next ((s.setIsland s.ev.a { s.island s.ev.a with held := true, regFault := true, stopped := false }).islandDown s.ev.a) :=
  congrArg Host.Outcome.next (if_neg (by omega))

/-- A tripped island leaves reset below TLIM, unless its regulator has failed (R16). -/
theorem islandRelease {s : State} (hn : s.ev.a < 128) (ht : (s.island s.ev.a).tripped = true) (hl : s.tempNow s.ev.a < s.tlim s.ev.a) :
    exec .islandRelease s = .next ((s.setIsland s.ev.a { s.island s.ev.a with
      tripped := false, held := (s.island s.ev.a).regFault, windows := 0, stopped := false }).setRegBits (Reg.telemetry s.ev.a) 16 16
        (b2n (s.island s.ev.a).regFault)) :=
  congrArg Host.Outcome.next (if_pos (by simp [hn, ht, hl]))

theorem islandRelease_none {s : State} (h : (s.island s.ev.a).tripped = false ∨ s.tlim s.ev.a ≤ s.tempNow s.ev.a) :
    exec .islandRelease s = .next s := by
  refine congrArg Host.Outcome.next (if_neg ?_)
  rcases h with h | h
  · simp [h]
  · simp [Int.not_lt.2 h]

/-! ### Health objects (R21, R22) -/

/-- The counts of a window in the registers of its object. -/
def State.healthShown (s : State) (k : Nat) (x : HealthSample) : State :=
  (s.setReg (Reg.health k 0) (field 48 x.eyeh.toNat ||| field 32 x.eyev.toNat ||| field 0 x.fecc.toNat)).setRegBits (Reg.health k 8) 63 32 x.retry.toNat

theorem State.healthShown_threshold (s : State) (k : Nat) (x : HealthSample) {w : Nat} (hw : w < 16) :
    (s.healthShown k x).reg (Reg.threshold k w) = s.reg (Reg.threshold k w) := by
  rw [State.healthShown, State.setRegBits_reg_ne _ _ _ _ (by unfold Reg.threshold Reg.health; omega),
    State.setReg_reg_ne _ _ (by unfold Reg.threshold Reg.health; omega)]

theorem State.healthShown_deg (s : State) (k : Nat) (x : HealthSample) :
    (s.healthShown k x).regBits (Reg.health k 8) 0 0 = s.regBits (Reg.health k 8) 0 0 := by
  rw [State.healthShown, State.setRegBits_regBits_other _ _ _ (by decide), State.setReg_regBits_ne _ _ _ _ (by unfold Reg.health; omega)]

/-- The degrading condition of a window (R22). -/
def State.degrading (s : State) (k : Nat) (x : HealthSample) : Bool :=
  decide (x.eyeh.toNat < bits (s.reg (Reg.threshold k 0)) 63 48 ∨ x.eyev.toNat < bits (s.reg (Reg.threshold k 0)) 47 32 ∨
    bits (s.reg (Reg.threshold k 0)) 31 0 < x.fecc.toNat ∨ s.regBits (Reg.threshold k 8) 63 32 < x.retry.toNat)

/-- The end of a window in `u`, which shows its counts: the condition is kept for the next, and an event sent. -/
def State.healthEnd (u : State) (k : Nat) (bad deg : Bool) : State :=
  let v : State := { u with pkg := { u.pkg with degraded := putSector k bad u.pkg.degraded } }
  if bad && (!decide (k ∈ u.pkg.degraded) || !deg) then (v.setRegBits (Reg.health k 8) 0 0 1).postHealth 1 k else v

theorem healthObject_eq {s : State} {k : Nat} (x : HealthSample) (ha : absentLane k = false) : s.healthObject k x =
    (s.healthShown k x).healthEnd k (s.degrading k x) (decide (s.regBits (Reg.health k 8) 0 0 = 1)) := by
  have h0 := s.healthShown_threshold k x (show 0 < 16 by decide)
  have h8 := s.healthShown_threshold k x (show 8 < 16 by decide)
  have hbad : (x.eyeh.toNat < bits ((s.healthShown k x).reg (Reg.threshold k 0)) 63 48 ||
      x.eyev.toNat < bits ((s.healthShown k x).reg (Reg.threshold k 0)) 47 32 ||
      bits ((s.healthShown k x).reg (Reg.threshold k 0)) 31 0 < x.fecc.toNat ||
      (s.healthShown k x).regBits (Reg.threshold k 8) 63 32 < x.retry.toNat) = s.degrading k x := by
    rw [Bool.eq_iff_iff, State.degrading, decide_eq_true_iff]
    simp only [State.regBits, h0, h8, Bool.or_eq_true, decide_eq_true_eq, or_assoc]
  rw [← hbad, ← s.healthShown_deg k x]
  exact if_neg (by rw [ha]; decide)

/-- An event is sent on the transition, and where DEG was cleared; otherwise none (R22). -/
theorem healthEnd_cases (u : State) (k : Nat) (bad deg : Bool) :
    let v : State := { u with pkg := { u.pkg with degraded := putSector k bad u.pkg.degraded } }
    (bad = true → k ∉ u.pkg.degraded ∨ deg = false → u.healthEnd k bad deg = (v.setRegBits (Reg.health k 8) 0 0 1).postHealth 1 k) ∧
    (bad = false ∨ (k ∈ u.pkg.degraded ∧ deg = true) → u.healthEnd k bad deg = v) := by
  refine ⟨fun hb h => if_pos ?_, fun h => if_neg ?_⟩
  · rcases h with h | h <;> simp [hb, h]
  · rcases h with h | ⟨h, hd⟩
    · simp [h]
    · simp [h, hd]

/-- Every port begins a new window (R28). -/
theorem foldl_window (l : List Nat) (s : State) :
    let t := l.foldl (fun s p => s.setPort p { s.port p with window := 0 }) s
    t = { s with net := { s.net with ports := t.net.ports } } ∧
    ∀ p, t.port p = if p ∈ l then { s.port p with window := 0 } else s.port p := by
  induction l generalizing s with
  | nil => exact ⟨rfl, fun p => by simp⟩
  | cons q r ih =>
    obtain ⟨hout, hport⟩ := ih (s.setPort q { s.port q with window := 0 })
    refine ⟨hout, fun p => (hport p).trans ?_⟩
    by_cases hp : p = q
    · subst hp
      simp
    · rw [State.setPort_port_ne _ _ hp]
      simp [hp]

theorem healthWindow {s u : State} (h : (s.ev.health = [] ∧ u = s) ∨ ∃ x, s.ev.health = [x] ∧ u = s.healthObject 0 (s.laneSample 0 x)) :
    exec .healthWindow s = .next ((List.range 18).foldl (fun s p => s.setPort p { s.port p with window := 0 }) u) := by
  have hu : ((s.ev.health.take 224).zipIdx).foldl (fun s x => s.healthObject x.2 (s.laneSample x.2 x.1)) s = u := by
    rcases h with ⟨h, rfl⟩ | ⟨x, h, rfl⟩ <;> rw [h] <;> rfl
  rw [← hu]; rfl

/-- A refreshed core island: what its telemetry shows, and the step that its controller takes or leaves to Pyrano. -/
theorem refreshIsland_core (s : State) {n : Nat} (hn : n < 96) (x : IslandSample) :
    let u := s.sampled n x
    let own := u.ownStep n
    let cap := u.capStep n
    let c := u.ceiling n
    let i := s.island n
    let t := s.refreshIsland n x
    let v := t.reg (Reg.telemetry n)
    bits v 63 48 = i.supply.toNat ∧ bits v 47 32 = x.curr.toNat ∧ bits v 31 20 = x.temp.toNat ∧ bits v 16 16 = b2n i.held ∧
    bits v 15 0 = (bits (s.reg (Reg.telemetry n)) 15 0 + 1) % 2 ^ 16 ∧ (bit v 17 = true ↔ u.tlim n < u.tempNow n) ∧
    (i.windows = 0 → (bit v 19 = true ↔ own < c ∧ own ≤ cap) ∧ (bit v 18 = true ↔ cap < c ∧ cap ≤ own)) ∧
    (u.excess n = false → (t.island n).mhz.toNat = min own cap ∧ (t.island n).stepTo = 0) ∧
    (u.excess n = true → (t.island n).mhz.toNat = min i.mhz.toNat own ∧ (t.island n).stepTo = max 800 (min (min own cap) (i.mhz.toNat - 25))) ∧
    (t.island n).supply = Config.supplyFor n (t.island n).mhz.toNat ∧
    t = { s with mgmt := t.mgmt, pkg := { s.pkg with islands := t.pkg.islands } } := by
  intro u own cap c i t v
  have hv : v = (u.limited n).reg (Reg.telemetry n) := s.refreshIsland_telemetry hn x
  have hi : t.island n = u.evaluated n := s.refreshIsland_island hn x
  have hother {hi lo : Nat} (h : 19 < lo ∨ hi < 17) : bits v hi lo = bits (u.reg (Reg.telemetry n)) hi lo := by
    rw [hv]; exact u.limited_regBits_other n h
  obtain ⟨f1, f2, f3, f4, f5⟩ := s.sampled_bits n x
  obtain ⟨l17, lw⟩ := u.limited_bits n
  rw [← hv] at l17 lw
  obtain ⟨e1, e2, e3⟩ := u.evaluated_core hn
  rw [← hi] at e1 e2 e3
  exact ⟨(hother (by decide)).trans f1, (hother (by decide)).trans f2, (hother (by decide)).trans f3, (hother (by decide)).trans f4,
    (hother (by decide)).trans f5, l17, lw, e1, e2, e3, s.refreshIsland_outside hn x⟩

/-- PYRANO_STEP_DOWN, CLOCK_WINDOW, REGULATOR_FAULT and ISLAND_RELEASE of one island. -/
theorem islandEvents {s : State} (hlt : s.ev.a < 128) :
    let n := s.ev.a
    let i := s.island n
    (i.stepTo = 0 → exec .pyranoStepDown s = .next s) ∧
    (i.stepTo ≠ 0 → ∃ t : State, exec .pyranoStepDown s = .next t ∧ (t.island n).mhz.toNat = min i.mhz.toNat i.stepTo ∧
      (t.island n).stepTo = 0 ∧ (t.island n).supply = Config.supplyFor n (min i.mhz.toNat i.stepTo) ∧
      t = { s with pkg := { s.pkg with islands := t.pkg.islands } } ∧ ∀ k, k ≠ n → t.island k = s.island k) ∧
    (i.held = true ∨ s.pkg.entry.held = true → exec .clockWindow s = .next s) ∧
    (i.held = false → s.pkg.entry.held = false →
      let stop := decide (countOnes i.windows 9 < s.stopsWanted n)
      let w := (i.windows <<< 1) ||| BitVec.ofNat 10 (b2n stop)
      let trips := countOnes w 10 = 9 ∧ s.tlim n + 80 ≤ s.tempNow n
      (¬ trips → ∃ t : State, exec .clockWindow s = .next t ∧ t.island n = { i with windows := w, stopped := stop } ∧
        (stop = true → t.regBits Reg.mstat 2 2 = 1 ∧ t.regBits Reg.mstat 31 24 = n) ∧
        (stop = false → t = s.setIsland n { i with windows := w, stopped := false })) ∧
      (trips → ∃ u : State, exec .clockWindow s = .next (u.tripIsland n) ∧ u.cur = s.cur ∧ u.parked = s.parked ∧ u.sch = s.sch ∧
        u.island n = { i with windows := w, stopped := stop })) ∧
    (∃ t : State, exec .regulatorFault s = .next t ∧
      t = (s.setIsland n { i with held := true, regFault := true, stopped := false }).islandDown n ∧
      t.regBits (Reg.telemetry n) 16 16 = 1 ∧ t.regBits Reg.mstat 1 1 = 1) ∧
    (i.tripped = true → s.tempNow n < s.tlim n → ∃ t : State, exec .islandRelease s = .next t ∧
      t.island n = { i with tripped := false, held := i.regFault, windows := 0, stopped := false } ∧
      t.regBits (Reg.telemetry n) 16 16 = b2n i.regFault) ∧
    (i.tripped = false ∨ s.tlim n ≤ s.tempNow n → exec .islandRelease s = .next s) := by
  intro n i
  refine ⟨fun h => congrArg Host.Outcome.next (if_pos h), pyranoStepDown, clockWindow_waits, fun hi he => ?_, ?_, fun ht hl => ?_, islandRelease_none⟩
  · intro stop w trips
    have hrun := clockWindow_runs hlt hi he
    refine ⟨fun hn => ⟨_, hrun.trans (congrArg Host.Outcome.next (if_neg hn)), State.windowed_island .., fun hs => ?_, fun hs => ?_⟩,
      fun ht => ⟨_, hrun.trans (congrArg Host.Outcome.next (if_pos ht)), ?_, ?_, ?_, State.windowed_island ..⟩⟩
    · exact State.windowed_mstat _ _ _ _ hs hlt
    · exact State.windowed_of_not_stop _ _ _ _ hs
    · rw [State.windowed_outside]
    · rw [State.windowed_outside]
    · rw [State.windowed_outside]
  · exact ⟨_, regulatorFault hlt, rfl, islandDown_shows _ _⟩
  · refine ⟨_, islandRelease hlt ht hl, State.setIsland_island_same .., ?_⟩
    rw [State.setRegBits_regBits_same _ _ _ (by decide)]
    exact Nat.mod_eq_of_lt (b2n_lt_two _)

/-- Settles O53, clause by clause from the lemmas above. By how much Pyrano steps down and which windows stop (log 69), what an island in reset loses
(log 33) and what a cold start leaves (log 5) are the model's choices. -/
theorem packageEvents : Obligations.PackageEvents := by
  unfold Obligations.PackageEvents
  refine ⟨fun s => ⟨exec_entryOutOfRange s, entryBackInRange s, excursionTimeout_none, excursionTimeout, entryStableTimeout, entryStableTimeout_none, ?_⟩,
    fun s => ⟨telemetryRefresh_none, fun x => telemetryRefresh_one, fun o w => applyPending_reg⟩,
    fun s n hn => steps_core hn, fun s n x hn => ?_, fun s n hn => ?_, fun s n => ?_, fun s k x ha => ?_, fun s u h => ?_⟩
  · exact ⟨_, rfl, fun o => rfl, rfl, rfl, rfl, rfl, rfl⟩
  · exact refreshIsland_core s hn x
  · have hlt : s.ev.a < 128 := by rw [hn]; exact n.isLt
    rw [← hn]
    exact islandEvents hlt
  · exact ⟨rfl, (islandDown_shows s n).1, (islandDown_shows s n).2, islandDown_idle⟩
  · intro u lim bad v
    rw [healthObject_eq x ha]
    obtain ⟨hsend, hnone⟩ := healthEnd_cases (s.healthShown k x) k (s.degrading k x) (decide (s.regBits (Reg.health k 8) 0 0 = 1))
    have hdeg : s.regBits (Reg.health k 8) 0 0 = 0 → decide (s.regBits (Reg.health k 8) 0 0 = 1) = false := fun h => by rw [h]; rfl
    exact ⟨fun hb h => hsend hb (h.imp id hdeg), fun h => hnone (h.imp id fun ⟨hk, hd⟩ => ⟨hk, decide_eq_true hd⟩)⟩
  · obtain ⟨hout, hport⟩ := foldl_window (List.range 18) u
    exact ⟨_, healthWindow h, hout, fun p hp => (hport p).trans (if_pos (List.mem_range.2 hp))⟩

end Sys2Proof.Machine
end

section
/-! SUPPORT. The link layer: what a port sends and takes, and when it goes down and comes up. -/

namespace Sys2Proof.Machine

/-! ### What concerns one port alone -/

/-- From `s` to `t` only port `p`, the wire and the frames received have changed, and free values may have been taken. -/
structure PortOnly (s t : State) (p : Nat) : Prop where
  outside : t = { s with net := { s.net with ports := t.net.ports, wire := t.net.wire, inbox := t.net.inbox }, freeCtr := t.freeCtr }
  others : ∀ q, q ≠ p → t.port q = s.port q

theorem PortOnly.rfl (s : State) (p : Nat) : PortOnly s s p := ⟨Eq.refl _, fun _ _ => Eq.refl _⟩

theorem PortOnly.trans {s t u : State} {p : Nat} (a : PortOnly s t p) (b : PortOnly t u p) : PortOnly s u p :=
  ⟨by rw [b.outside, a.outside], fun q hq => (b.others q hq).trans (a.others q hq)⟩

theorem PortOnly.setPort (s : State) (p : Nat) (x : Port) : PortOnly s (s.setPort p x) p :=
  ⟨Eq.refl _, fun _ hq => State.setPort_port_ne s x hq⟩

theorem PortOnly.wireOut (s : State) (p : Nat) (f : Frame) : PortOnly s (s.wireOut p f) p := ⟨Eq.refl _, fun _ _ => Eq.refl _⟩

theorem PortOnly.freeW (s : State) (p : Nat) : PortOnly s s.freeW.1 p := ⟨Eq.refl _, fun _ _ => Eq.refl _⟩

theorem PortOnly.conns {s t : State} {p : Nat} (h : PortOnly s t p) : t.net.conns = s.net.conns := by rw [h.outside]

theorem PortOnly.mgmt {s t : State} {p : Nat} (h : PortOnly s t p) : t.mgmt = s.mgmt := by rw [h.outside]

@[simp] theorem State.wireOut_port (s : State) (p : Nat) (f : Frame) (q : Nat) : (s.wireOut p f).port q = s.port q := rfl
@[simp] theorem State.wireOut_wire (s : State) (p : Nat) (f : Frame) : (s.wireOut p f).net.wire = s.net.wire ++ [(p, f)] := rfl
@[simp] theorem State.wireOut_inbox (s : State) (p : Nat) (f : Frame) : (s.wireOut p f).net.inbox = s.net.inbox := rfl
@[simp] theorem State.setPort_wire (s : State) (p : Nat) (x : Port) : (s.setPort p x).net.wire = s.net.wire := rfl
@[simp] theorem State.setPort_inbox (s : State) (p : Nat) (x : Port) : (s.setPort p x).net.inbox = s.net.inbox := rfl

/-! ### Frames without a sequence number (R27, R29) -/

theorem bits_ofNat {w n hi lo : Nat} (h : n < 2 ^ w) : bits (BitVec.ofNat w n) hi lo = n / 2 ^ lo % 2 ^ (hi + 1 - lo) := by
  rw [bits, BitVec.toNat_ofNat, Nat.mod_eq_of_lt h, Nat.shiftRight_eq_div_pow]

/-- A header of five fields as a sum. It is stated of any positions, so that no large power has to be evaluated. -/
theorem hdrOf_five (p1 v1 p2 v2 p3 v3 p4 v4 p5 v5 : Nat) : hdrOf [(p1, v1), (p2, v2), (p3, v3), (p4, v4), (p5, v5)] =
    BitVec.ofNat 128 (0 + v1 * 2 ^ p1 + v2 * 2 ^ p2 + v3 * 2 ^ p3 + v4 * 2 ^ p4 + v5 * 2 ^ p5) := rfl

/-- The fields of a header put together from VERSION, KIND, LACK, CVC and CRED. -/
theorem hdrOf_fields {kind lack cvc cred : Nat} (hk : kind < 4) (hl : lack < 4096) (hv : cvc < 4) (hc : cred < 4096) :
    let h := hdrOf [(124, 1), (120, kind), (96, lack), (94, cvc), (82, cred)]
    Hdr.kind h = kind ∧ Hdr.lack h = lack ∧ bits h 95 94 = cvc ∧ bits h 93 82 = cred := by
  have hlt : 0 + 1 * 2 ^ 124 + kind * 2 ^ 120 + lack * 2 ^ 96 + cvc * 2 ^ 94 + cred * 2 ^ 82 < 2 ^ 128 := by omega
  rw [hdrOf_five]
  refine ⟨?_, ?_, ?_, ?_⟩
  · rw [Hdr.kind, bits_ofNat hlt]; omega
  · rw [Hdr.lack, bits_ofNat hlt]; omega
  · rw [bits_ofNat hlt]; omega
  · rw [bits_ofNat hlt]; omega

theorem Port.returns_lt (x : Port) : x.returns.1 < 4 ∧ x.returns.2 < 4096 := by
  unfold Port.returns
  split
  case h_1 i h => exact ⟨List.mem_range.1 (List.mem_of_find?_eq_some h), by show min _ _ < _; omega⟩
  case h_2 => exact ⟨by decide, by decide⟩

/-- A frame of KIND 01 or 10 goes out, with the acknowledgement and the credits owed. -/
theorem linkFrame_eq (s : State) (p : Nat) {kind : Nat} (hk : kind < 4) : ∃ g, s.linkFrame p kind = (s.freeW.1.setPort p (s.port p).pay).wireOut p g ∧
    Hdr.kind g.hdr = kind ∧ Hdr.lack g.hdr = (s.port p).lack.toNat ∧ bits g.hdr 95 94 = (s.port p).returns.1 ∧
    bits g.hdr 93 82 = (s.port p).returns.2 :=
  ⟨_, rfl, hdrOf_fields hk (s.port p).lack.isLt (s.port p).returns_lt.1 (s.port p).returns_lt.2⟩

theorem PortOnly.linkFrame (s : State) (p : Nat) (kind : Nat) : PortOnly s (s.linkFrame p kind) p :=
  (PortOnly.freeW s p).trans ((PortOnly.setPort _ p _).trans (PortOnly.wireOut ..))

/-! ### What a good frame brings (R27, R29) -/

/-- The frames that stay in the replay buffer. -/
def Port.freed (x : Port) (h : BitVec 128) : List Frame :=
  match x.replay.findIdx? fun f => Hdr.lseq f.hdr = Hdr.lack h with
  | some i => x.replay.drop (i + 1)
  | none => x.replay

/-- Retry requests in a row, from none where the buffer has been freed. -/
def Port.again (x : Port) (h : BitVec 128) : Nat := if (x.freed h).length < x.replay.length then 0 else x.retries

/-- The port with its buffer freed and its credits raised. -/
def Port.acked (x : Port) (h : BitVec 128) : Port :=
  { x with
    replay := x.freed h
    credits := put4 x.credits (bits h 95 94) (x.credits.toList.getD (bits h 95 94) 0 + bits h 93 82)
    retries := x.again h }

/-- The port after the frame it expected. -/
def Port.advanced (x : Port) : Port := { x with lack := x.lack + 1, discarding := false, asked := 0 }

/-- The port that owes the peer the credits of one frame more. -/
def Port.owing (x : Port) (h : BitVec 128) : Port :=
  { x with owed := put4 x.owed (Hdr.vc h) (x.owed.toList.getD (Hdr.vc h) 0 + frameCredits h) }

theorem State.owe_eq (s : State) (p : Nat) (h : BitVec 128) : s.owe p h = s.setPort p ((s.port p).owing h) := rfl

theorem State.linkAck_eq (s : State) (p : Nat) (h : BitVec 128) : s.linkAck p h = s.setPort p ((s.port p).acked h) := rfl

/-- Where nothing waits nothing goes out. -/
theorem State.pumpPort_idle {s : State} {p : Nat} (h : (s.port p).waiting = []) : s.pumpPort p = s := by
  rw [State.pumpPort, h]
  split <;> rfl

theorem State.linkTake_idle {s : State} {p : Nat} (h : BitVec 128) (hw : (s.port p).waiting = []) :
    s.linkTake p h = s.setPort p ((s.port p).acked h) := by
  rw [State.linkTake, State.linkAck_eq, State.pumpPort_idle]
  rw [State.setPort_port_same]; exact hw

/-- Frames sent again in order. -/
theorem foldl_wireOut (s : State) (p : Nat) (l : List Frame) :
    let t := l.foldl (fun s f => s.wireOut p f) s
    PortOnly s t p ∧ t.net.wire = s.net.wire ++ l.map (fun g => (p, g)) ∧ t.port p = s.port p := by
  induction l generalizing s with
  | nil => exact ⟨.rfl s p, by simp, rfl⟩
  | cons f r ih =>
    obtain ⟨h1, h2, h3⟩ := ih (s.wireOut p f)
    exact ⟨(PortOnly.wireOut s p f).trans h1, by simpa using h2, h3⟩

/-! ### A port that goes down or comes up (R25, R28, R36) -/

theorem port_ne_health {p k w : Nat} (hk : k < 224) (hw : w < 16) : Reg.health k w ≠ Reg.port p := by unfold Reg.health Reg.port; omega

/-- Packets that wait no longer are marked in their messages; no register changes. -/
theorem foldl_unqueued_reg (l : List (Nat × Frame)) (s : State) (o : Nat) :
    (l.foldl (fun s x => s.unqueued x.1 x.2) s).reg o = s.reg o := by
  induction l generalizing s with
  | nil => rfl
  | cons x r ih =>
    refine (ih (s.unqueued x.1 x.2)).trans ?_
    rw [State.unqueued]
    split <;> rfl

/-- A port goes down where no message is in flight. -/
theorem portDown_idle {s : State} (p : Nat) (h : ∀ y ∈ s.net.conns, y.2.tx = []) :
    (s.portDown p).portUp p = false ∧ ((s.portDown p).port p).replay = [] ∧ ∀ o, o ≠ Reg.port p → (s.portDown p).reg o = s.reg o := by
  have husers : (s.net.conns.filterMap fun x =>
      if s.connOpen x.1 && (s.upPorts x.1).contains p && !x.2.tx.isEmpty then some (x.1, decide ((s.upPorts x.1).head? = some p)) else none) = [] := by
    rw [List.filterMap_eq_nil_iff]
    exact fun y hy => if_neg (by simp [h y hy])
  simp only [State.portDown, husers, List.foldl_nil]
  refine ⟨?_, ?_, fun o ho => ?_⟩
  · rw [State.setPort_portUp, State.portUp, State.setRegBits_regBits_same _ _ _ (by decide)]; rfl
  · rw [State.setPort_port_same]; rfl
  · rw [State.setPort_reg, State.setRegBits_reg_ne _ _ _ _ ho, foldl_unqueued_reg]

/-- The same with every lane to be trained again (R28). -/
theorem retrain_idle {s : State} (p : Nat) (h : ∀ y ∈ s.net.conns, y.2.tx = []) :
    (s.retrain p).portUp p = false ∧ ((s.retrain p).port p).retraining = 15 ∧ ((s.retrain p).port p).replay = [] := by
  obtain ⟨hup, hrep, -⟩ := portDown_idle p h
  simp only [State.retrain, State.setPort_port_same]
  exact ⟨hup, trivial, hrep⟩

/-! ### Events of a port -/

section
variable {s : State}

theorem link_down {i : Instr} (hi : i ∈ [.frameReceive, .creditAckFrame, .retryRequest, .lackTimer]) (h : s.portUp s.ev.a = false) :
    exec i s = .next s := by
  simp only [List.mem_cons, List.not_mem_nil, or_false] at hi
  rcases hi with rfl | rfl | rfl | rfl
  · exact congrArg Host.Outcome.next (if_pos (by simp [h]))
  · exact congrArg Host.Outcome.next (if_neg (by simp [h]))
  · exact congrArg Host.Outcome.next (if_neg (by simp [h]))
  · exact congrArg Host.Outcome.next (if_neg (by simp [h]))

/-- The state in which a retry request has been counted and sent. -/
theorem retryFrame (s : State) (p : Nat) : ∃ g, PortOnly s ((s.countRetry p).linkFrame p 2) p ∧
    ((s.countRetry p).linkFrame p 2).net.wire = s.net.wire ++ [(p, g)] ∧ Hdr.kind g.hdr = 2 ∧ Hdr.lack g.hdr = (s.port p).lack.toNat ∧
    ((s.countRetry p).linkFrame p 2).net.inbox = s.net.inbox ∧
    ((s.countRetry p).linkFrame p 2).port p = { (s.port p).pay with window := (s.port p).window + 1 } := by
  obtain ⟨g, hg, hk, hl, -, -⟩ := linkFrame_eq (s.countRetry p) p (show 2 < 4 by decide)
  have hp : (s.countRetry p).port p = { s.port p with window := (s.port p).window + 1 } := State.setPort_port_same ..
  refine ⟨g, (PortOnly.setPort s p _).trans (PortOnly.linkFrame ..), ?_, hk, ?_, ?_, ?_⟩
  · rw [hg]; rfl
  · rw [hl, hp]
  · rw [hg]; rfl
  · rw [hg, State.wireOut_port, State.setPort_port_same, hp]; rfl

/-- A retry request sent: the port discards until the next frame in order (R28). -/
theorem askRetry_few {p : Nat} (h : (s.port p).asked < 7) : ∃ g, PortOnly s (s.askRetry p) p ∧ (s.askRetry p).net.wire = s.net.wire ++ [(p, g)] ∧
    Hdr.kind g.hdr = 2 ∧ Hdr.lack g.hdr = (s.port p).lack.toNat ∧ (s.askRetry p).net.inbox = s.net.inbox ∧
    (s.askRetry p).port p = { (s.port p).pay with window := (s.port p).window + 1, discarding := true, asked := (s.port p).asked + 1 } := by
  obtain ⟨g, honly, hwire, hk, hl, hin, hport⟩ := retryFrame s p
  have hask : (((s.countRetry p).linkFrame p 2).port p).asked = (s.port p).asked := by rw [hport]; rfl
  have h8 : ¬ 8 ≤ (((s.countRetry p).linkFrame p 2).port p).asked + 1 := by omega
  simp only [State.askRetry, if_neg h8]
  exact ⟨g, honly.trans (PortOnly.setPort ..), hwire, hk, hl, hin, by rw [State.setPort_port_same, hport]; rfl⟩

/-- After the eighth in a row the port retrains (R28). -/
theorem askRetry_eighth {p : Nat} (h : 7 ≤ (s.port p).asked) (hidle : ∀ y ∈ s.net.conns, y.2.tx = []) :
    (s.askRetry p).portUp p = false ∧ ((s.askRetry p).port p).retraining = 15 ∧ ((s.askRetry p).port p).replay = [] := by
  obtain ⟨g, honly, -, -, -, -, hport⟩ := retryFrame s p
  have hask : (((s.countRetry p).linkFrame p 2).port p).asked = (s.port p).asked := by rw [hport]; rfl
  have h8 : 8 ≤ (((s.countRetry p).linkFrame p 2).port p).asked + 1 := by omega
  simp only [State.askRetry, if_pos h8]
  exact retrain_idle p (honly.conns ▸ hidle)

variable (hup : s.portUp s.ev.a = true)
include hup

omit hup in
theorem knownFrame_iff {f : Frame} : s.knownFrame f = true ↔ f.etype.toNat = s.regBits Reg.netcfg 63 48 ∧ bits f.hdr 127 124 = 1 := by
  simp only [State.knownFrame, Bool.and_eq_true, decide_eq_true_eq]

theorem frameReceive_bad (hf : s.ev.flag = true) : exec .frameReceive s = .next (s.askRetry s.ev.a) :=
  congrArg Host.Outcome.next ((if_neg (by simp [hup])).trans (if_pos hf))

theorem frameReceive_unknown (hf : s.ev.flag = false) (h : s.knownFrame s.ev.frame = false ∨ Hdr.kind s.ev.frame.hdr ≠ 0) :
    exec .frameReceive s = .next s := by
  refine congrArg Host.Outcome.next ((if_neg (by simp [hup])).trans ((if_neg (by simp [hf])).trans (if_pos ?_)))
  rcases h with h | h <;> simp [h]

/-- A frame of the transport: out of order it asks for a retry unless the port discards already, in order it is taken (R27, R28). -/
theorem frameReceive_known (hf : s.ev.flag = false) (hk : s.knownFrame s.ev.frame = true) (h0 : Hdr.kind s.ev.frame.hdr = 0) :
    let p := s.ev.a
    let h := s.ev.frame.hdr
    let x := s.port p
    let u := (s.setPort p x.advanced).linkTake p h
    exec .frameReceive s = .next (if Hdr.lseq h ≠ (x.lack + 1).toNat then (if x.discarding then s else s.askRetry p)
      else if 5 ≤ Hdr.op h then u.owe p h else { u with net := { u.net with inbox := u.net.inbox ++ [(p, s.ev.frame)] } }) :=
  congrArg Host.Outcome.next ((if_neg (by simp [hup])).trans ((if_neg (by simp [hf])).trans (if_neg (by simp [hk, h0]))))

omit hup in
/-- The frame next in order, once taken. -/
theorem advanced_linkTake (p : Nat) (h : BitVec 128) (hw : (s.port p).waiting = []) : ∃ u, (s.setPort p (s.port p).advanced).linkTake p h = u ∧
    PortOnly s u p ∧ u.net.wire = s.net.wire ∧ u.net.inbox = s.net.inbox ∧ u.port p = (s.port p).advanced.acked h := by
  have hset := State.setPort_port_same s p (s.port p).advanced
  rw [State.linkTake_idle h (by rw [hset]; exact hw), hset]
  exact ⟨_, rfl, (PortOnly.setPort ..).trans (PortOnly.setPort ..), rfl, rfl, State.setPort_port_same ..⟩

/-- The frame next in order at a port where nothing waits. -/
theorem frameReceive_inOrder (hw : (s.port s.ev.a).waiting = []) (hf : s.ev.flag = false) (hk : s.knownFrame s.ev.frame = true)
    (h0 : Hdr.kind s.ev.frame.hdr = 0) (hs : Hdr.lseq s.ev.frame.hdr = ((s.port s.ev.a).lack + 1).toNat) :
    let p := s.ev.a
    let h := s.ev.frame.hdr
    let y := (s.port p).advanced.acked h
    ∃ t, exec .frameReceive s = .next t ∧ PortOnly s t p ∧ t.net.wire = s.net.wire ∧
      (Hdr.op h < 5 → t.net.inbox = s.net.inbox ++ [(p, s.ev.frame)] ∧ t.port p = y) ∧
      (5 ≤ Hdr.op h → t.net.inbox = s.net.inbox ∧ t.port p = y.owing h) := by
  intro p h y
  have hrun := (frameReceive_known hup hf hk h0).trans (congrArg Host.Outcome.next (if_neg (not_not.2 hs)))
  obtain ⟨u, hu, honly, hwire, hin, hport⟩ := advanced_linkTake p h hw
  rw [hu] at hrun
  by_cases h5 : 5 ≤ Hdr.op h
  · refine ⟨_, hrun.trans (congrArg Host.Outcome.next (if_pos h5)), honly.trans (PortOnly.setPort ..), hwire,
      fun hlt => absurd h5 (Nat.not_le.2 hlt), fun _ => ⟨hin, ?_⟩⟩
    rw [State.owe_eq, State.setPort_port_same, hport]
  · exact ⟨_, hrun.trans (congrArg Host.Outcome.next (if_neg h5)), honly.trans ⟨rfl, fun _ _ => rfl⟩, hwire,
      fun _ => ⟨by rw [← hin], hport⟩, fun hge => absurd hge h5⟩

/-- A KIND 01 frame brings what every good frame brings, and nothing else (R27, R29). -/
theorem creditAckFrame (hw : (s.port s.ev.a).waiting = []) (hk : s.knownFrame s.ev.frame = true) (h1 : Hdr.kind s.ev.frame.hdr = 1) :
    exec .creditAckFrame s = .next (s.setPort s.ev.a ((s.port s.ev.a).acked s.ev.frame.hdr)) :=
  congrArg Host.Outcome.next ((if_pos (by simp [hup, hk, h1])).trans (State.linkTake_idle _ hw))

omit hup in
/-- What a retry request brings is counted and freed first. -/
theorem countRetry_linkAck (p : Nat) (h : BitVec 128) : ∃ u, (s.countRetry p).linkAck p h = u ∧ PortOnly s u p ∧ u.net.wire = s.net.wire ∧
    u.port p = { (s.port p).acked h with window := (s.port p).window + 1 } := by
  refine ⟨_, rfl, (PortOnly.setPort s p _).trans (PortOnly.setPort _ p _), rfl, ?_⟩
  rw [State.linkAck_eq, State.setPort_port_same, State.countRetry, State.setPort_port_same]
  rfl

/-- A KIND 10 frame: the port retrains at the eighth in a row, else sends all it holds again (R28). -/
theorem retryRequest {u : State} (hk : s.knownFrame s.ev.frame = true) (h2 : Hdr.kind s.ev.frame.hdr = 2)
    (hu : (s.countRetry s.ev.a).linkAck s.ev.a s.ev.frame.hdr = u) :
    let p := s.ev.a
    let x := u.port p
    exec .retryRequest s = .next (if 8 ≤ x.retries + 1 then u.retrain p
      else ((x.replay.foldl (fun s f => s.wireOut p f) (u.setPort p { x with retries := x.retries + 1 })).pumpPort p)) := by
  subst hu
  exact congrArg Host.Outcome.next (if_pos (by simp [hup, hk, h2]))

theorem retryRequest_eighth (hk : s.knownFrame s.ev.frame = true) (h2 : Hdr.kind s.ev.frame.hdr = 2)
    (h7 : 7 ≤ (s.port s.ev.a).again s.ev.frame.hdr) (hidle : ∀ y ∈ s.net.conns, y.2.tx = []) :
    ∃ t, exec .retryRequest s = .next t ∧ t.portUp s.ev.a = false ∧ (t.port s.ev.a).retraining = 15 := by
  obtain ⟨u, hu, honly, -, hport⟩ := countRetry_linkAck (s := s) s.ev.a s.ev.frame.hdr
  have h8 : 8 ≤ (u.port s.ev.a).retries + 1 := by rw [hport]; exact Nat.succ_le_succ h7
  obtain ⟨hdown, htrain, -⟩ := retrain_idle s.ev.a (honly.conns ▸ hidle)
  exact ⟨_, (retryRequest hup hk h2 hu).trans (congrArg Host.Outcome.next (if_pos h8)), hdown, htrain⟩

omit hup in
/-- All that the port holds sent again. -/
theorem sentAgain (u : State) (p : Nat) : ∃ v, (u.port p).replay.foldl (fun s f => s.wireOut p f)
      (u.setPort p { u.port p with retries := (u.port p).retries + 1 }) = v ∧ PortOnly u v p ∧
    v.net.wire = u.net.wire ++ (u.port p).replay.map (fun g => (p, g)) ∧ v.port p = { u.port p with retries := (u.port p).retries + 1 } := by
  obtain ⟨honly, hwire, hport⟩ := foldl_wireOut (u.setPort p { u.port p with retries := (u.port p).retries + 1 }) p (u.port p).replay
  exact ⟨_, rfl, (PortOnly.setPort ..).trans honly, hwire, hport.trans (State.setPort_port_same ..)⟩

theorem retryRequest_few (hw : (s.port s.ev.a).waiting = []) (hk : s.knownFrame s.ev.frame = true) (h2 : Hdr.kind s.ev.frame.hdr = 2)
    (h7 : (s.port s.ev.a).again s.ev.frame.hdr < 7) :
    let p := s.ev.a
    let x := s.port p
    let h := s.ev.frame.hdr
    ∃ t, exec .retryRequest s = .next t ∧ PortOnly s t p ∧ t.net.wire = s.net.wire ++ (x.freed h).map (fun g => (p, g)) ∧
      t.port p = { x.acked h with window := x.window + 1, retries := x.again h + 1 } := by
  intro p x h
  obtain ⟨u, hu, honly, hwire, hport⟩ := countRetry_linkAck (s := s) p h
  have h8 : ¬ 8 ≤ (u.port p).retries + 1 := by rw [hport]; exact Nat.not_le.2 (Nat.succ_lt_succ h7)
  have hrun := (retryRequest hup hk h2 hu).trans (congrArg Host.Outcome.next (if_neg h8))
  obtain ⟨v, hv, vonly, vwire, vport⟩ := sentAgain u p
  have hidle : (v.port p).waiting = [] := by rw [vport, hport]; exact hw
  rw [hv, State.pumpPort_idle hidle] at hrun
  refine ⟨v, hrun, honly.trans vonly, ?_, ?_⟩
  · rw [vwire, hwire, hport]; rfl
  · rw [vport, hport]; rfl

/-- KIND 01 at the LACK timer (R27, R29). -/
theorem lackTimer : ∃ t g, exec .lackTimer s = .next t ∧ PortOnly s t s.ev.a ∧ t.net.wire = s.net.wire ++ [(s.ev.a, g)] ∧ Hdr.kind g.hdr = 1 ∧
    Hdr.lack g.hdr = (s.port s.ev.a).lack.toNat ∧ bits g.hdr 95 94 = (s.port s.ev.a).returns.1 ∧ bits g.hdr 93 82 = (s.port s.ev.a).returns.2 ∧
    (t.port s.ev.a).owed = (s.port s.ev.a).pay.owed ∧ t.net.inbox = s.net.inbox := by
  obtain ⟨g, hg, h1, h2, h3, h4⟩ := linkFrame_eq s s.ev.a (show 1 < 4 by decide)
  refine ⟨_, g, congrArg Host.Outcome.next (if_pos hup), PortOnly.linkFrame .., ?_, h1, h2, h3, h4, ?_, ?_⟩
  · rw [hg]; rfl
  · rw [hg, State.wireOut_port, State.setPort_port_same]
  · rw [hg]; rfl

end

/-! ### Event rings leave ports and lanes alone -/

/-- From `s` to `t` no register has changed but the ring words of context 0, and nothing of Kalren. -/
structure RingOnly (s t : State) : Prop where
  net : t.net = s.net
  reg : ∀ o, o ≠ Reg.queue 0 24 → o ≠ Reg.queue 0 32 → t.reg o = s.reg o

theorem RingOnly.trans {s t u : State} (a : RingOnly s t) (b : RingOnly t u) : RingOnly s u :=
  ⟨b.net.trans a.net, fun o h h' => (b.reg o h h').trans (a.reg o h h')⟩

/-- A state that differs in its queues alone. -/
theorem RingOnly.of_que (s : State) (q : Que) : RingOnly s { s with que := q } := ⟨rfl, fun _ _ _ => rfl⟩

theorem State.ringOverflow_reg (s : State) (o : Nat) : (s.ringOverflow 0).reg o = (s.setRegBits (Reg.queue 0 32) 0 0 1).reg o := rfl

theorem RingOnly.ringOverflow (s : State) : RingOnly s (s.ringOverflow 0) :=
  ⟨rfl, fun o _ h => (s.ringOverflow_reg o).trans (State.setRegBits_reg_ne _ _ _ _ h)⟩

theorem RingOnly.considerInterrupt (s : State) : RingOnly s (s.considerInterrupt 0) := by
  simp only [State.considerInterrupt]
  split
  · exact RingOnly.of_que s _
  · exact ⟨rfl, fun _ _ _ => rfl⟩

theorem RingOnly.overflowOrInterrupt (s : State) : RingOnly s (if s.ringFull 0 then s.ringOverflow 0 else s.considerInterrupt 0) := by
  split
  · exact RingOnly.ringOverflow s
  · exact RingOnly.considerInterrupt s

theorem RingOnly.ringTail (s : State) (v : Nat) : RingOnly s (s.setRegBits (Reg.queue 0 24) 31 0 v) :=
  ⟨rfl, fun _ h _ => State.setRegBits_reg_ne _ _ _ _ h⟩

theorem RingOnly.writeWords (s : State) (pa : Nat) (e : List Word) : RingOnly s (s.writeWords pa e) :=
  have h := writeWords_keeps s pa e
  ⟨h.net, fun o _ _ => by rw [State.reg, h.mgmt]; rfl⟩

theorem RingOnly.writeEntry (s : State) (e : List Word) : RingOnly s (s.writeEntry 0 e) :=
  (RingOnly.writeWords s (s.ringEntryPa 0) e).trans ((RingOnly.ringTail _ _).trans ((RingOnly.of_que _ _).trans (RingOnly.overflowOrInterrupt _)))

theorem RingOnly.postEntry (s : State) (e : List Word) : RingOnly s (s.postEntry 0 e) := by
  simp only [State.postEntry]
  split
  · refine RingOnly.trans ?_ (RingOnly.of_que _ _)
    split
    · exact RingOnly.ringOverflow s
    · exact ⟨rfl, fun _ _ _ => rfl⟩
  · exact RingOnly.writeEntry s e

theorem RingOnly.postHealth (s : State) (kind k : Nat) : RingOnly s (s.postHealth kind k) := RingOnly.postEntry ..

/-! ### Lanes (R23) -/

section
variable {s : State}

theorem State.trained_other {k : Nat} (h : 72 ≤ k) : s.trained k = s := if_neg (Nat.not_lt.2 h)

theorem laneDown_none (h : 216 ≤ s.ev.a ∨ absentLane s.ev.a = true ∨ (72 ≤ s.ev.a ∧ s.regBits (Reg.health s.ev.a 8) 1 1 = 1)) :
    exec .laneDown s = .next s := by
  have hk : 72 ≤ s.ev.a := by
    rcases h with h | h | ⟨h, -⟩
    · omega
    · simp only [absentLane, Bool.and_eq_true, decide_eq_true_eq] at h; omega
    · exact h
  refine congrArg Host.Outcome.next ((if_pos ?_).trans (State.trained_other hk))
  rcases h with h | h | ⟨-, h⟩ <;> simp [h]

theorem health_ne_health {k j v w : Nat} (hv : v < 16) (hw : w < 16) (h : k ≠ j ∨ v ≠ w) : Reg.health k v ≠ Reg.health j w := by
  unfold Reg.health; omega

/-- A lane in use goes down: its record, a link event, and the port of a Kalren lane (R23, R101). -/
theorem laneDown_used (h216 : s.ev.a < 216) (ha : absentLane s.ev.a = false) (hd : s.regBits (Reg.health s.ev.a 8) 1 1 = 0) :
    let t := ((s.trained s.ev.a).setRegBits (Reg.health s.ev.a 8) 1 1 1).postHealth 2 s.ev.a
    exec .laneDown s = .next (if s.ev.a < 72 then t.updatePort (s.ev.a / 4) else t) :=
  congrArg Host.Outcome.next (if_neg (by simp [ha, hd, Nat.not_le.2 h216]))

/-- A lane of no Kalren port. -/
theorem laneDown_other (h72 : 72 ≤ s.ev.a) (h216 : s.ev.a < 216) (ha : absentLane s.ev.a = false) (hd : s.regBits (Reg.health s.ev.a 8) 1 1 = 0) :
    exec .laneDown s = .next ((s.setRegBits (Reg.health s.ev.a 8) 1 1 1).postLink 2 s.ev.a 0 (s.regBits (Reg.health s.ev.a 8) 63 32)
      (s.reg (Reg.health s.ev.a 0))) := by
  refine (laneDown_used h216 ha hd).trans (congrArg Host.Outcome.next ((if_neg (Nat.not_lt.2 h72)).trans ?_))
  rw [State.trained_other h72, State.postHealth, State.setRegBits_regBits_other _ _ _ (by decide),
    State.setRegBits_reg_ne _ _ _ _ (health_ne_health (by decide) (by decide) (.inr (by decide)))]

/-- A port whose lanes are not all up goes down. -/
theorem updatePort_down {p : Nat} (hup : s.portUp p = true) (hl : s.lanesUp p = false) : s.updatePort p = s.portDown p :=
  if_pos (by simp [hup, hl])

/-- An enabled port comes up with all four lanes trained. -/
theorem updatePort_up {p : Nat} (hup : s.portUp p = false) (hen : s.regBits (Reg.port p) 63 63 = 1) (hl : s.lanesUp p = true)
    (hr : (s.port p).retraining = 0) : s.updatePort p = s.setRegBits (Reg.port p) 61 61 1 :=
  (if_neg (by simp [hup])).trans (if_pos (by simp [hup, hen, hl, hr]))

theorem lanesUp_false {k : Nat} (h : s.regBits (Reg.health k 8) 1 1 = 1) : s.lanesUp (k / 4) = false := by
  rw [State.lanesUp, List.all_eq_false]
  exact ⟨k % 4, List.mem_range.2 (Nat.mod_lt _ (by decide)), by rw [Nat.div_add_mod, h]; decide⟩

theorem lanesUp_true {p : Nat} (h : ∀ i, i < 4 → s.regBits (Reg.health (4 * p + i) 8) 1 1 = 0) : s.lanesUp p = true := by
  rw [State.lanesUp, List.all_eq_true]
  exact fun i hi => decide_eq_true (h i (List.mem_range.1 hi))

theorem trained_reg (k o : Nat) : (s.trained k).reg o = s.reg o := by
  rw [State.trained]; split <;> rfl

theorem trained_conns (k : Nat) : (s.trained k).net.conns = s.net.conns := by
  rw [State.trained]; split <;> rfl

/-- A Kalren lane that goes down takes its port down (R23). -/
theorem laneDown_kalren (h72 : s.ev.a < 72) (hup : s.portUp (s.ev.a / 4) = true) (hd : s.regBits (Reg.health s.ev.a 8) 1 1 = 0)
    (hidle : ∀ y ∈ s.net.conns, y.2.tx = []) :
    ∃ t, exec .laneDown s = .next t ∧ t.portUp (s.ev.a / 4) = false ∧ t.regBits (Reg.health s.ev.a 8) 1 1 = 1 := by
  have ha : absentLane s.ev.a = false := by simp [absentLane, show ¬ 200 ≤ s.ev.a by omega]
  have hrun := (laneDown_used (by omega) ha hd).trans (congrArg Host.Outcome.next (if_pos h72))
  have hring := RingOnly.postHealth ((s.trained s.ev.a).setRegBits (Reg.health s.ev.a 8) 1 1 1) 2 s.ev.a
  generalize hu : (s.trained s.ev.a).setRegBits (Reg.health s.ev.a 8) 1 1 1 = u at *
  have hreg {o : Nat} (ho : o < 0x180000) : (u.postHealth 2 s.ev.a).reg o = u.reg o :=
    hring.reg o (by unfold Reg.queue; omega) (by unfold Reg.queue; omega)
  have hhealth : (u.postHealth 2 s.ev.a).regBits (Reg.health s.ev.a 8) 1 1 = 1 := by
    rw [State.regBits, hreg (by unfold Reg.health; omega), ← hu]
    exact State.setRegBits_regBits_same _ _ _ (by decide)
  have hport : (u.postHealth 2 s.ev.a).portUp (s.ev.a / 4) = true := by
    rw [State.portUp, State.regBits, hreg (by unfold Reg.port; omega), ← hu,
      State.setRegBits_reg_ne _ _ _ _ (port_ne_health (by omega) (by decide)).symm, trained_reg]
    exact hup
  have hconns : (u.postHealth 2 s.ev.a).net.conns = s.net.conns := by
    rw [hring.net, ← hu, State.setRegBits_net, trained_conns]
  rw [updatePort_down hport (lanesUp_false hhealth)] at hrun
  obtain ⟨hdown, -, hother⟩ := portDown_idle (s := u.postHealth 2 s.ev.a) (s.ev.a / 4) (hconns ▸ hidle)
  refine ⟨_, hrun, hdown, ?_⟩
  rw [State.regBits, hother _ (port_ne_health (by omega) (by decide))]
  exact hhealth

theorem laneRetrain_used (h216 : s.ev.a < 216) :
    let t := (s.trained s.ev.a).setRegBits (Reg.health s.ev.a 8) 1 1 0
    exec .laneRetrain s = .next (if s.ev.a < 72 then t.updatePort (s.ev.a / 4) else t) :=
  congrArg Host.Outcome.next (if_neg (Nat.not_le.2 h216))

theorem laneRetrain_other (h72 : 72 ≤ s.ev.a) (h216 : s.ev.a < 216) :
    exec .laneRetrain s = .next (s.setRegBits (Reg.health s.ev.a 8) 1 1 0) := by
  have hrun := (laneRetrain_used h216).trans (congrArg Host.Outcome.next (if_neg (Nat.not_lt.2 h72)))
  rwa [State.trained_other h72] at hrun

/-- A Kalren lane trained again brings its enabled port up, if it was the last of the four (R23). -/
theorem laneRetrain_kalren (h72 : s.ev.a < 72) (hup : s.portUp (s.ev.a / 4) = false) (hen : s.regBits (Reg.port (s.ev.a / 4)) 63 63 = 1)
    (hr : (s.port (s.ev.a / 4)).retraining &&& ~~~(1#4 <<< (s.ev.a % 4)) = 0)
    (hl : ∀ i, i < 4 → 4 * (s.ev.a / 4) + i ≠ s.ev.a → s.regBits (Reg.health (4 * (s.ev.a / 4) + i) 8) 1 1 = 0) :
    ∃ t, exec .laneRetrain s = .next t ∧ t = { s with mgmt := t.mgmt, net := { s.net with ports := t.net.ports } } ∧
      t.portUp (s.ev.a / 4) = true ∧ t.regBits (Reg.health s.ev.a 8) 1 1 = 0 := by
  have hrun := (laneRetrain_used (s := s) (by omega)).trans (congrArg Host.Outcome.next (if_pos h72))
  have htr : s.trained s.ev.a = s.setPort (s.ev.a / 4) { s.port (s.ev.a / 4) with
    retraining := (s.port (s.ev.a / 4)).retraining &&& ~~~(1#4 <<< (s.ev.a % 4)) } := if_pos h72
  have hne : Reg.port (s.ev.a / 4) ≠ Reg.health s.ev.a 8 := (port_ne_health (by omega) (by decide)).symm
  generalize hu : (s.trained s.ev.a).setRegBits (Reg.health s.ev.a 8) 1 1 0 = u at *
  have hout : u = { s with mgmt := u.mgmt, net := { s.net with ports := u.net.ports } } := by rw [← hu, htr]; rfl
  have hkeep {o : Nat} (ho : o ≠ Reg.health s.ev.a 8) : u.reg o = s.reg o := by
    rw [← hu, State.setRegBits_reg_ne _ _ _ _ ho, trained_reg]
  have hlane : u.regBits (Reg.health s.ev.a 8) 1 1 = 0 := by rw [← hu]; exact State.setRegBits_regBits_same _ _ _ (by decide)
  have hlanes : u.lanesUp (s.ev.a / 4) = true := lanesUp_true fun i hi => by
    by_cases he : 4 * (s.ev.a / 4) + i = s.ev.a
    · rw [he]; exact hlane
    · rw [State.regBits, hkeep (health_ne_health (by decide) (by decide) (.inl he))]
      exact hl i hi he
  have hretr : (u.port (s.ev.a / 4)).retraining = 0 := by
    rw [← hu, State.setRegBits_port, htr, State.setPort_port_same]; exact hr
  have hup' : u.portUp (s.ev.a / 4) = false := by rw [State.portUp, State.regBits, hkeep hne]; exact hup
  have hen' : u.regBits (Reg.port (s.ev.a / 4)) 63 63 = 1 := by rw [State.regBits, hkeep hne]; exact hen
  rw [updatePort_up hup' hen' hlanes hretr] at hrun
  refine ⟨_, hrun, ?_, ?_, ?_⟩
  · rw [hout]; rfl
  · rw [State.portUp, State.setRegBits_regBits_same _ _ _ (by decide)]; rfl
  · rw [State.setRegBits_regBits_ne _ _ _ _ _ _ hne.symm]; exact hlane

end

/-- Settles O47: the events of a port one by one, then those of a lane. How frames wait for the wire and how retries are counted are the model's
choices (log 49). -/
theorem linkLayerEvents : Obligations.LinkLayerEvents := by
  unfold Obligations.LinkLayerEvents
  intro freed credited
  refine ⟨fun s i hi h => link_down hi h, fun s hup hw => ?_, fun s => ?_⟩
  · intro p x f h known only idle again
    have hknown (hk : known) : s.knownFrame f = true := knownFrame_iff.2 hk
    have honly {t : State} (ht : PortOnly s t p) : only t := ⟨ht.outside, ht.others⟩
    refine ⟨fun hf hfew => ?_, fun hf h7 hi => ?_, fun hf hk => ?_, fun hf hk h0 hs => ⟨fun hdis => ?_, fun hdis hfew => ?_⟩,
      fun hf hk h0 hs => ?_, fun hk h1 => ?_, fun hk h2 h7 hi => retryRequest_eighth hup (hknown hk) h2 h7 hi, fun hk h2 h7 => ?_, ?_⟩
    · obtain ⟨g, ho, hwire, hkd, hlk, hin, hport⟩ := askRetry_few (s := s) (p := s.ev.a) hfew
      exact ⟨_, g, frameReceive_bad hup hf, honly ho, hwire, hkd, hlk, by rw [hport], by rw [hport], by rw [hport], hin⟩
    · exact ⟨_, frameReceive_bad hup hf, askRetry_eighth h7 hi⟩
    · exact frameReceive_unknown hup hf (hk.imp (fun hk => Bool.eq_false_iff.2 fun h => hk (knownFrame_iff.1 h)) id)
    · exact (frameReceive_known hup hf (hknown hk) h0).trans (congrArg Host.Outcome.next ((if_pos hs).trans (if_pos hdis)))
    · obtain ⟨g, ho, hwire, hkd, hlk, hin, hport⟩ := askRetry_few (s := s) (p := s.ev.a) hfew
      exact ⟨_, g, (frameReceive_known hup hf (hknown hk) h0).trans (congrArg Host.Outcome.next ((if_pos hs).trans (if_neg (by rw [hdis]; decide)))),
        honly ho, hwire, hkd, by rw [hport], by rw [hport]; rfl, hin⟩
    · obtain ⟨t, hrun, ho, hwire, hlt, hge⟩ := frameReceive_inOrder hup hw hf (hknown hk) h0 hs
      have hport : t.port p = x.advanced.acked h ∨ t.port p = (x.advanced.acked h).owing h :=
        (Nat.lt_or_ge (Hdr.op h) 5).imp (fun h5 => (hlt h5).2) fun h5 => (hge h5).2
      refine ⟨t, hrun, honly ho, hwire, ?_, ?_, ?_, ?_, fun h5 => ⟨(hlt h5).1, by rw [(hlt h5).2]; rfl⟩, fun h5 => ⟨(hge h5).1, by rw [(hge h5).2]; rfl⟩⟩ <;>
        rcases hport with e | e <;> rw [e] <;> rfl
    · exact ⟨_, creditAckFrame hup hw (hknown hk) h1, honly (PortOnly.setPort ..), rfl, rfl, by rw [State.setPort_port_same]; rfl,
        by rw [State.setPort_port_same]; rfl, by rw [State.setPort_port_same]; rfl⟩
    · obtain ⟨t, hrun, ho, hwire, hport⟩ := retryRequest_few hup hw (hknown hk) h2 h7
      exact ⟨t, hrun, honly ho, by rw [hport]; rfl, by rw [hport]; rfl, hwire, by rw [hport]⟩
    · obtain ⟨t, g, hrun, ho, h⟩ := lackTimer hup
      exact ⟨t, g, hrun, honly ho, h⟩
  · intro k
    exact ⟨laneDown_none, fun h72 h216 ha hd => ⟨_, laneDown_other h72 h216 ha hd, rfl⟩, laneDown_kalren,
      fun h => congrArg Host.Outcome.next (if_pos h), fun h72 h216 => laneRetrain_other h72 h216,
      laneRetrain_kalren⟩

end Sys2Proof.Machine
end

section
/-! SUPPORT. Streams of commands and connections: what is read after a write of the same one and of another, and the fields of a transport header. -/

namespace Sys2Proof.Machine

/-! ### What a core holds for a context (R177 to R179, R358) -/

@[simp] theorem State.setCoreCtx_coreCtx_same (s : State) (c : BitVec 10) (x : BitVec 12) (k : CoreCtx) :
    (s.setCoreCtx c x k).coreCtx c x = k := by
  rw [State.coreCtx, State.setCoreCtx, State.setCore_core]
  exact Tab.get_set_same ..

@[simp] theorem State.setCoreCtx_conn (s : State) (c : BitVec 10) (x : BitVec 12) (k : CoreCtx) (n : Nat) :
    (s.setCoreCtx c x k).conn n = s.conn n := rfl

/-- A timeline that advances changes its number and the commands finished ahead of it. -/
theorem CoreCtx.sweepTl_outside (k : CoreCtx) (tl n : Nat) :
    k.sweepTl tl n = { k with tl := (k.sweepTl tl n).tl, finished := (k.sweepTl tl n).finished } := by
  induction n generalizing k with
  | zero => rfl
  | succ n ih =>
    simp only [CoreCtx.sweepTl]
    split
    · rw [ih]
    · rfl

/-- A completion leaves the commands that wait and the records to pop. -/
theorem CoreCtx.complete_queues (k : CoreCtx) (tl : Nat) (num : Word) (flags : BitVec 4) (ts : BitVec 48) :
    (k.complete tl num flags ts).q4 = k.q4 ∧ (k.complete tl num flags ts).q5 = k.q5 := by
  rw [CoreCtx.complete, CoreCtx.sweepTl_outside]
  exact ⟨rfl, rfl⟩

theorem CoreCtx.head_five (k : CoreCtx) : k.head 5 = k.q4.find? fun c => timelineOf 4 c.w0 = 5 := rfl

/-- A command taken out of its queue leaves the records to pop. -/
theorem CoreCtx.take_five_q5 (k : CoreCtx) : (k.take 5).q5 = k.q5 := by
  rw [CoreCtx.take]
  split <;> rfl

theorem endNpost_coreCtx (s : State) (r : CmdRef) (w : Word) (ts : BitVec 48) :
    ((s.endNpost r w ts).coreCtx r.core r.ctx).q5 = (s.coreCtx r.core r.ctx).q5 ++ [⟨w, ts⟩] ∧
    ((s.endNpost r w ts).coreCtx r.core r.ctx).head 5 = (s.coreCtx r.core r.ctx).head 5 := by
  obtain ⟨h4, h5⟩ := (s.coreCtx r.core r.ctx).complete_queues 5 r.num 0 ts
  rw [State.endNpost, State.setCoreCtx_coreCtx_same]
  refine ⟨?_, ?_⟩
  · exact congrArg (· ++ [_]) h5
  · rw [CoreCtx.head_five, CoreCtx.head_five, ← h4]; rfl

/-- The fields of a receive-completion record (R43). -/
theorem recvRecord_fields {c status bytes : Nat} (msn : BitVec 16) (hc : c < 2 ^ 16) (hs : status < 2 ^ 4) (hb : bytes < 2 ^ 28) :
    bits (recvRecord c msn status bytes) 31 28 = status ∧ bits (recvRecord c msn status bytes) 63 48 = c := by
  simp only [recvRecord, bits_or]
  refine ⟨?_, ?_⟩
  · rw [bits_field_above (by decide), bits_field_above (by decide), bits_field_same hs (by decide), bits_field_below 28 hb (by decide)]
    simp
  · rw [bits_field_same hc (by decide), bits_field_below 16 msn.isLt (by decide), bits_field_below 4 hs (by decide),
      bits_field_below 28 hb (by decide)]
    simp

/-! ### Connections -/

@[simp] theorem State.setConn_conn_same (s : State) (c : Nat) (k : Conn) : (s.setConn c k).conn c = k := Tab.get_set_same ..
@[simp] theorem State.modConn_conn_same (s : State) (c : Nat) (f : Conn → Conn) : (s.modConn c f).conn c = f (s.conn c) := Tab.get_set_same ..
theorem State.modConn_conn_ne (s : State) {c n : Nat} (f : Conn → Conn) (h : n ≠ c) : (s.modConn c f).conn n = s.conn n :=
  Tab.get_set_other _ _ _ h

@[simp] theorem State.modConn_coreCtx (s : State) (c : Nat) (f : Conn → Conn) (n : BitVec 10) (x : BitVec 12) :
    (s.modConn c f).coreCtx n x = s.coreCtx n x := rfl

@[simp] theorem State.modConn_mem (s : State) (c : Nat) (f : Conn → Conn) : (s.modConn c f).mem = s.mem := rfl
@[simp] theorem State.setRegBits_mem (s : State) (o hi lo v : Nat) : (s.setRegBits o hi lo v).mem = s.mem := rfl
@[simp] theorem State.setRegBits_conn (s : State) (o hi lo v c : Nat) : (s.setRegBits o hi lo v).conn c = s.conn c := rfl
@[simp] theorem State.setReg_conn (s : State) (o : Nat) (w : Word) (c : Nat) : (s.setReg o w).conn c = s.conn c := rfl

theorem Reg.conn_ne {c v w : Nat} (h : v ≠ w) : Reg.conn c v ≠ Reg.conn c w := by unfold Reg.conn; omega

/-- From `s` to `t` only connection `c` has changed. -/
structure ConnOnly (s t : State) (c : Nat) : Prop where
  outside : t = { s with net := { s.net with conns := t.net.conns } }
  others : ∀ k, k ≠ c → t.conn k = s.conn k

theorem ConnOnly.rfl (s : State) (c : Nat) : ConnOnly s s c := ⟨Eq.refl _, fun _ _ => Eq.refl _⟩

theorem ConnOnly.trans {s t u : State} {c : Nat} (a : ConnOnly s t c) (b : ConnOnly t u c) : ConnOnly s u c :=
  ⟨by rw [b.outside, a.outside], fun k hk => (b.others k hk).trans (a.others k hk)⟩

theorem ConnOnly.modConn (s : State) (c : Nat) (f : Conn → Conn) : ConnOnly s (s.modConn c f) c :=
  ⟨Eq.refl _, fun _ hk => State.modConn_conn_ne s f hk⟩

theorem ConnOnly.modPacket (s : State) (c : Nat) (msn : BitVec 16) (j : Nat) (f : Packet → Packet) : ConnOnly s (s.modPacket c msn j f) c :=
  ConnOnly.modConn ..

/-- The same where registers had been written before. -/
theorem ConnOnly.outside_mgmt {s t : State} {m : Tab Word} {c : Nat} (h : ConnOnly { s with mgmt := m } t c) :
    t = { s with mgmt := t.mgmt, net := { s.net with conns := t.net.conns } } := by rw [h.outside]

theorem ConnOnly.mgmt {s t : State} {c : Nat} (h : ConnOnly s t c) : t.mgmt = s.mgmt := by rw [h.outside]

theorem ConnOnly.port {s t : State} {c : Nat} (h : ConnOnly s t c) (p : Nat) : t.port p = s.port p := by rw [h.outside]; rfl

theorem ConnOnly.wire {s t : State} {c : Nat} (h : ConnOnly s t c) : t.net.wire = s.net.wire := by rw [h.outside]

theorem ConnOnly.islandRuns {s t : State} {c : Nat} (h : ConnOnly s t c) (n : Nat) : t.islandRuns n = s.islandRuns n := by rw [h.outside]; rfl

/-- Registers are read alike in states with one management space. -/
theorem State.reg_congr {s t : State} (h : t.mgmt = s.mgmt) (o : Nat) : t.reg o = s.reg o := by rw [State.reg, h, State.reg]

theorem State.regBits_congr {s t : State} (h : t.mgmt = s.mgmt) (o hi lo : Nat) : t.regBits o hi lo = s.regBits o hi lo := by
  rw [State.regBits, State.reg_congr h, State.regBits]

theorem State.connBits_congr {s t : State} (h : t.mgmt = s.mgmt) (c hi lo : Nat) : t.connBits c hi lo = s.connBits c hi lo :=
  State.regBits_congr h ..

theorem State.connKey_congr {s t : State} (h : t.mgmt = s.mgmt) (c : Nat) : t.connKey c = s.connKey c := by
  simp only [State.connKey, State.reg_congr h]

theorem State.viral_congr {s t : State} (h : t.mgmt = s.mgmt) (x : BitVec 12) : t.viral x = s.viral x := by
  rw [State.viral, State.regBits_congr h, State.viral]

theorem State.transportFrame_congr {s t : State} (h : t.mgmt = s.mgmt) (c vc op : Nat) (retx : Bool) (msn : BitVec 16) (pidx astat : Nat)
    (data : List Byte) : t.transportFrame c vc op retx msn pidx astat data = s.transportFrame c vc op retx msn pidx astat data := by
  simp only [State.transportFrame, State.connBits, State.regBits_congr h]

/-! ### Transport headers (R26) -/

/-- A header of twelve fields as a sum, stated of any positions. -/
theorem hdrOf_twelve (p1 v1 p2 v2 p3 v3 p4 v4 p5 v5 p6 v6 p7 v7 p8 v8 p9 v9 p10 v10 p11 v11 p12 v12 : Nat) :
    hdrOf [(p1, v1), (p2, v2), (p3, v3), (p4, v4), (p5, v5), (p6, v6), (p7, v7), (p8, v8), (p9, v9), (p10, v10), (p11, v11), (p12, v12)] =
    BitVec.ofNat 128 (0 + v1 * 2 ^ p1 + v2 * 2 ^ p2 + v3 * 2 ^ p3 + v4 * 2 ^ p4 + v5 * 2 ^ p5 + v6 * 2 ^ p6 + v7 * 2 ^ p7 + v8 * 2 ^ p8 +
      v9 * 2 ^ p9 + v10 * 2 ^ p10 + v11 * 2 ^ p11 + v12 * 2 ^ p12) := rfl

/-- The fields of a header put together from those of the transport. -/
theorem transportHdr_fields {vc peer op ord retx msn pidx len psz side astat : Nat} (hvc : vc < 4) (hpeer : peer < 4096) (hop : op < 16)
    (hord : ord < 2) (hretx : retx < 2) (hmsn : msn < 65536) (hpidx : pidx < 4096) (hlen : len < 8192) (hpsz : psz < 4) (hside : side < 2)
    (hastat : astat < 16) :
    let h := hdrOf [(124, 1), (122, vc), (64, peer), (60, op), (59, ord), (58, retx), (40, msn), (28, pidx), (15, len), (13, psz), (12, side),
      (8, astat)]
    Hdr.vc h = vc ∧ Hdr.kind h = 0 ∧ Hdr.lseq h = 0 ∧ Hdr.op h = op ∧ (Hdr.msn h).toNat = msn ∧ Hdr.pidx h = pidx ∧ Hdr.len h = len := by
  have hlt : 0 + 1 * 2 ^ 124 + vc * 2 ^ 122 + peer * 2 ^ 64 + op * 2 ^ 60 + ord * 2 ^ 59 + retx * 2 ^ 58 + msn * 2 ^ 40 + pidx * 2 ^ 28 +
      len * 2 ^ 15 + psz * 2 ^ 13 + side * 2 ^ 12 + astat * 2 ^ 8 < 2 ^ 128 := by omega
  rw [hdrOf_twelve]
  refine ⟨?_, ?_, ?_, ?_, ?_, ?_, ?_⟩
  · rw [Hdr.vc, bits_ofNat hlt]; omega
  · rw [Hdr.kind, bits_ofNat hlt]; omega
  · rw [Hdr.lseq, bits_ofNat hlt]; omega
  · rw [Hdr.op, bits_ofNat hlt]; omega
  · rw [Hdr.msn, bits_ofNat hlt, BitVec.toNat_ofNat]; omega
  · rw [Hdr.pidx, bits_ofNat hlt]; omega
  · rw [Hdr.len, bits_ofNat hlt]; omega

/-- A header of four fields as a sum, stated of any positions. -/
theorem hdrOf_four (p1 v1 p2 v2 p3 v3 p4 v4 : Nat) : hdrOf [(p1, v1), (p2, v2), (p3, v3), (p4, v4)] =
    BitVec.ofNat 128 (0 + v1 * 2 ^ p1 + v2 * 2 ^ p2 + v3 * 2 ^ p3 + v4 * 2 ^ p4) := rfl

/-- What the link layer adds to a header: LSEQ, and nothing in the fields of the transport. -/
theorem linkHdr_fields {lseq lack cvc cred : Nat} (hs : lseq < 4096) (hl : lack < 4096) (hv : cvc < 4) (hc : cred < 4096) :
    let h := hdrOf [(108, lseq), (96, lack), (94, cvc), (82, cred)]
    Hdr.lseq h = lseq ∧ Hdr.op h = 0 ∧ bits h 55 40 = 0 ∧ Hdr.pidx h = 0 ∧ Hdr.len h = 0 := by
  have hlt : 0 + lseq * 2 ^ 108 + lack * 2 ^ 96 + cvc * 2 ^ 94 + cred * 2 ^ 82 < 2 ^ 128 := by omega
  rw [hdrOf_four]
  refine ⟨?_, ?_, ?_, ?_, ?_⟩
  · rw [Hdr.lseq, bits_ofNat hlt]; omega
  · rw [Hdr.op, bits_ofNat hlt]; omega
  · rw [bits_ofNat hlt]; omega
  · rw [Hdr.pidx, bits_ofNat hlt]; omega
  · rw [Hdr.len, bits_ofNat hlt]; omega

end Sys2Proof.Machine
end

section
/-! SUPPORT. The commands of the network engine: NSEND and NPOST (R34 to R38, R374), XTASK (R375), and the frame of a message of one packet. -/

namespace Sys2Proof.Machine

/-! ### A frame that leaves (R27, R29, R32) -/

/-- A frame as it leaves port `p`: LSEQ, what the link layer returns, IV and seal. -/
def State.sealedFrame (s : State) (p c : Nat) (f : Frame) : Frame :=
  let x := s.port p
  let h := f.hdr ||| hdrOf [(108, x.lseq.toNat), (96, x.lack.toNat), (94, x.returns.1), (82, x.returns.2)]
  let iv := s.reg (Reg.conn c 24)
  let sealing := gcmSeal (s.connKey c) (nonceOf (s.connBits c 14 14) iv) (hdrBytes h) f.payload
  { f with src := BitVec.ofNat 48 (s.regBits (Reg.port p) 47 0), hdr := h, iv := iv, payload := sealing.1, tag := sealing.2 }

/-- While the IVs last, sending puts the sealed frame on the wire and nothing else. -/
theorem linkSend_wire {s : State} (p : Nat) {c : Nat} (f : Frame) (h : (s.reg (Reg.conn c 24)).toNat + 1 < 2 ^ 48) :
    (s.linkSend p c f).net.wire = s.net.wire ++ [(p, s.sealedFrame p c f)] := by
  simp only [State.linkSend, if_neg (Nat.not_le.2 h)]
  split <;> split <;> rfl

/-- What the link layer adds leaves the fields of the transport, where LSEQ was still zero. -/
theorem sealedFrame_fields (s : State) (p c : Nat) (f : Frame) (h0 : Hdr.lseq f.hdr = 0) :
    let g := (s.sealedFrame p c f).hdr
    Hdr.lseq g = (s.port p).lseq.toNat ∧ Hdr.op g = Hdr.op f.hdr ∧ Hdr.msn g = Hdr.msn f.hdr ∧ Hdr.pidx g = Hdr.pidx f.hdr ∧
      Hdr.len g = Hdr.len f.hdr := by
  obtain ⟨hv, hc⟩ := (s.port p).returns_lt
  obtain ⟨hlseq, hop, hmsn, hpidx, hlen⟩ := linkHdr_fields (s.port p).lseq.isLt (s.port p).lack.isLt hv hc
  simp only [Hdr.lseq, Hdr.op, Hdr.pidx, Hdr.len] at h0 hlseq hop hpidx hlen
  simp only [State.sealedFrame, Hdr.lseq, Hdr.op, Hdr.msn, Hdr.pidx, Hdr.len, bits_or, h0, hlseq, hop, hmsn, hpidx, hlen, Nat.or_zero,
    Nat.zero_or, and_self]

theorem sealedFrame_payload (s : State) (p c : Nat) (f : Frame) :
    (s.sealedFrame p c f).payload = (gcmSeal (s.connKey c) (nonceOf (s.connBits c 14 14) (s.sealedFrame p c f).iv)
      (hdrBytes (s.sealedFrame p c f).hdr) f.payload).1 := rfl

/-- Whether a frame may go depends on its channel and size alone. -/
theorem Port.canSend_congr (x : Port) {f g : Frame} (hv : Hdr.vc f.hdr = Hdr.vc g.hdr) (hk : Hdr.kind f.hdr = Hdr.kind g.hdr)
    (hl : Hdr.len f.hdr = Hdr.len g.hdr) : x.canSend f = x.canSend g := by
  have hb : frameBytes f.hdr = frameBytes g.hdr := by rw [frameBytes, frameBytes, hk, hl]
  rw [Port.canSend, Port.canSend, frameCredits, frameCredits, hb, hv]

/-- No message of the connection belongs to a viral context. -/
theorem viralSend_none {s : State} {c : Nat} (msn : BitVec 16) (h : ∀ m ∈ (s.conn c).tx, ∀ r, m.cmd = some r → s.viral r.ctx = false) :
    s.viralSend c msn = none := by
  rw [State.viralSend]
  split
  case h_1 m hm =>
    split
    case h_1 r hr => rw [h m (List.mem_of_find?_eq_some hm) r hr]; rfl
    case h_2 => rfl
  case h_2 => rfl

/-- A frame handed to a port where nothing waits goes out at once. -/
theorem linkQueue_alone {s : State} {p c : Nat} {f : Frame} (hw : (s.port p).waiting = []) (hr : (portIslands p).all s.islandRuns = true)
    (hc : (s.port p).canSend f = true) (hv : s.viralSend c (Hdr.msn f.hdr) = none) :
    ∃ u, s.linkQueue p c f = u.linkSend p c f ∧ PortOnly s u p ∧ u.port p = s.port p ∧ u.net.wire = s.net.wire := by
  let x : Port := { s.port p with waiting := [(c, f)] }
  let t := s.setPort p x
  have hx : t.port p = x := State.setPort_port_same ..
  have hqueue : s.linkQueue p c f = t.pumpPort p := by simp only [State.linkQueue, hw]; rfl
  have hrun : (portIslands p).all t.islandRuns = true := hr
  have hsend : x.canSend f = true := hc
  have hlive : (if Hdr.carries f.hdr = true then t.viralSend c (Hdr.msn f.hdr) else none) = none := by
    split
    · exact hv
    · rfl
  refine ⟨t.setPort p { x with waiting := [] }, ?_, (PortOnly.setPort ..).trans (PortOnly.setPort ..), ?_, rfl⟩
  · rw [hqueue, State.pumpPort, if_pos hrun, hx]
    simp [State.linkPump, hx, hsend, hlive, x]
  · rw [State.setPort_port_same, ← hw]

/-! ### A message of one packet (R34 to R36) -/

/-- The one port of a connection is chosen, whether it is ordered or not. -/
theorem choosePort_one {s : State} {c p : Nat} (h : s.upPorts c = [p]) :
    ∃ u, s.choosePort c = some (u, p) ∧ ConnOnly s u c ∧ (u.conn c).tx = (s.conn c).tx := by
  simp only [State.choosePort, h]
  split
  · exact ⟨s, rfl, ConnOnly.rfl .., rfl⟩
  · refine ⟨_, ?_, ConnOnly.modConn s c fun k => { k with rr := k.rr + 1 }, ?_⟩
    · simp only [List.length_nil, Nat.zero_add, Nat.mod_one, List.getD_cons_zero]; rfl
    · rw [State.modConn_conn_same]

/-- The first packet of a message, not sent yet. -/
def Packet.unsent : Packet := ⟨0, 0, false, false, 0, 0, false, false⟩

/-- A message of one packet as it is taken up. -/
def TxMsg.single (m : TxMsg) (msn : BitVec 16) : TxMsg := { m with msn := msn, packets := [Packet.unsent] }

theorem packets_one {len size : Nat} (h : len ≤ size) (hs : 0 < size) : max 1 ((len + size - 1) / size) = 1 := by
  have : (len + size - 1) / size < 2 := (Nat.div_lt_iff_lt_mul hs).2 (by omega)
  omega

/-- A message that fits one packet is sent as one. -/
theorem startMsg_one {s : State} {c : Nat} {m : TxMsg} (h : m.len ≤ packetSize (s.connBits c 61 60)) :
    let msn := BitVec.ofNat 16 (s.regBits (Reg.conn c 16) 63 48)
    s.startMsg c m = (s.modConn c fun k => { k with tx := k.tx ++ [m.single msn] }).transmit c msn 0 := by
  have hs : 0 < packetSize (s.connBits c 61 60) := Nat.mul_pos (by decide) (Nat.two_pow_pos _)
  simp only [State.startMsg, packets_one h hs]
  rfl

/-- The bytes of the one packet of a message that holds its own. -/
theorem readPacket_fixed {s : State} {c : Nat} {m : TxMsg} (hf : m.fixed.isSome = true) (hl : (m.fixed.getD []).length = m.len)
    (h : m.len ≤ packetSize (s.connBits c 61 60)) : s.readPacket c m 0 = .ok s (m.fixed.getD []) := by
  obtain ⟨l, hl'⟩ := Option.isSome_iff_exists.1 hf
  rw [hl', Option.getD_some] at hl
  simp only [State.readPacket, hl', Nat.zero_mul, Nat.sub_zero, Nat.min_eq_right h, List.drop_zero, Option.getD_some]
  rw [List.take_of_length_le (Nat.le_of_eq hl)]

/-- The only packet of the only message of an open connection goes to the only port. -/
theorem transmit_one {s : State} {c p : Nat} {m : TxMsg} {data : List Byte} (htx : (s.conn c).tx = [m])
    (hp : m.packets = [Packet.unsent])
    (hopen : s.connOpen c = true) (hlive : ∀ r, m.cmd = some r → s.viral r.ctx = false) (hup : s.upPorts c = [p])
    (hread : s.readPacket c m 0 = .ok s data) :
    ∃ u, s.transmit c m.msn 0 = u.linkQueue p c (s.transportFrame c (s.connBits c 59 57 / 3) 1 false m.msn 0 0 data) ∧ ConnOnly s u c ∧
      ∀ y ∈ (u.conn c).tx, y.cmd = m.cmd := by
  obtain ⟨u, hu, honly, hutx⟩ := choosePort_one hup
  have hfind : (s.conn c).tx.find? (fun y => y.msn = m.msn) = some m := by rw [htx]; simp
  have hviral : s.viralSend c m.msn = none := viralSend_none _ fun y hy r hr => by
    rw [htx, List.mem_singleton] at hy
    exact hlive r (hy ▸ hr)
  refine ⟨u.modPacket c m.msn 0 fun q => { q with queued := true }, ?_, honly.trans (ConnOnly.modPacket ..), fun y hy => ?_⟩
  · have hmgmt := (honly.trans (ConnOnly.modPacket u c m.msn 0 fun q => { q with queued := true })).mgmt
    rw [← State.transportFrame_congr hmgmt, ← State.connBits_congr hmgmt]
    simp only [State.transmit, hfind, hopen, hviral, hup, hread, hu, hp]
    rfl
  · rw [State.modPacket, State.modConn_conn_same, hutx, htx] at hy
    simp only [List.map_cons, List.map_nil, if_true, List.mem_singleton] at hy
    rw [hy]

/-- The fields of a transport frame before it is sealed. -/
theorem transportFrame_fields (s : State) (c : Nat) {vc op pidx astat : Nat} (retx : Bool) (msn : BitVec 16) {data : List Byte} (hvc : vc < 4)
    (hop : op < 16) (hpidx : pidx < 4096) (hastat : astat < 16) (hlen : data.length < 8192) :
    let h := (s.transportFrame c vc op retx msn pidx astat data).hdr
    Hdr.vc h = vc ∧ Hdr.kind h = 0 ∧ Hdr.lseq h = 0 ∧ Hdr.op h = op ∧ (Hdr.msn h).toNat = msn.toNat ∧ Hdr.pidx h = pidx ∧
      Hdr.len h = data.length := by
  have hpeer : s.connBits c 56 45 < 4096 := bits_lt ..
  have hord : s.connBits c 62 62 < 2 := bits_lt ..
  have hpsz : s.connBits c 61 60 < 4 := bits_lt ..
  have hside : s.connBits c 14 14 < 2 := bits_lt ..
  exact transportHdr_fields hvc hpeer hop hord (b2n_lt_two retx) msn.isLt hpidx hlen hpsz hside hastat

section
variable {s : State} {c p : Nat} {m : TxMsg} (hlive : ∀ r, m.cmd = some r → s.viral r.ctx = false) (hup : s.upPorts c = [p])
  (hopen : s.connOpen c = true) (hfixed : m.fixed.isSome = true) (hsize : m.len ≤ packetSize (s.connBits c 61 60))
  (hwait : (s.port p).waiting = []) (hrun : (portIslands p).all s.islandRuns = true)
  (hcan : (s.port p).canSend (s.transportFrame c (s.connBits c 59 57 / 3) 1 false 0 0 0 (m.fixed.getD [])) = true)
  (hlen : (m.fixed.getD []).length = m.len) (hmax : m.len ≤ 4096) (htx : (s.conn c).tx = [])
include hlen hmax

/-- The frame of such a message, before it is sealed. -/
theorem singleFrame_fields (s : State) (c : Nat) (msn : BitVec 16) :
    let h := (s.transportFrame c (s.connBits c 59 57 / 3) 1 false msn 0 0 (m.fixed.getD [])).hdr
    Hdr.vc h = s.connBits c 59 57 / 3 ∧ Hdr.kind h = 0 ∧ Hdr.lseq h = 0 ∧ Hdr.op h = 1 ∧ (Hdr.msn h).toNat = msn.toNat ∧ Hdr.pidx h = 0 ∧
      Hdr.len h = m.len := by
  have hvc : s.connBits c 59 57 / 3 < 4 := by have : s.connBits c 59 57 < 8 := bits_lt _ 59 57; omega
  have h := transportFrame_fields s c (op := 1) (pidx := 0) (astat := 0) false msn hvc (by decide) (by decide) (by decide)
    (show (m.fixed.getD []).length < 8192 by omega)
  rwa [hlen] at h

include hlive hup hopen hfixed hsize hwait hrun hcan htx

/-- A message of one packet that the part holds itself goes straight out of a port where nothing waits, under the next MSN of its connection. -/
theorem startMsg_linkSend : ∃ w : State, s.startMsg c m = w.linkSend p c (s.transportFrame c (s.connBits c 59 57 / 3) 1 false
      (BitVec.ofNat 16 (s.regBits (Reg.conn c 16) 63 48)) 0 0 (m.fixed.getD [])) ∧
    w.mgmt = s.mgmt ∧ w.port p = s.port p ∧ w.net.wire = s.net.wire := by
  let msn := BitVec.ofNat 16 (s.regBits (Reg.conn c 16) 63 48)
  let t := s.modConn c fun k => { k with tx := k.tx ++ [m.single msn] }
  let f := s.transportFrame c (s.connBits c 59 57 / 3) 1 false msn 0 0 (m.fixed.getD [])
  have htx' : (t.conn c).tx = [m.single msn] := by rw [State.modConn_conn_same, htx]; rfl
  have hread : t.readPacket c (m.single msn) 0 = .ok t (m.fixed.getD []) := readPacket_fixed (m := m.single msn) hfixed hlen hsize
  obtain ⟨u, hsend, honly, hcmd⟩ := transmit_one (m := m.single msn) htx' rfl hopen hlive hup hread
  replace hsend : t.transmit c msn 0 = u.linkQueue p c f := hsend
  have hu : ConnOnly s u c := (ConnOnly.modConn s c _).trans honly
  have hcan' : (u.port p).canSend f = true := by
    obtain ⟨gvc, gkind, -, -, -, -, glen⟩ := singleFrame_fields hlen hmax s c 0
    obtain ⟨fvc, fkind, -, -, -, -, flen⟩ := singleFrame_fields hlen hmax s c msn
    rw [hu.port, ← hcan]
    exact Port.canSend_congr _ (fvc.trans gvc.symm) (fkind.trans gkind.symm) (flen.trans glen.symm)
  have hrun' : (portIslands p).all u.islandRuns = true := by rw [← hrun, funext hu.islandRuns]
  have hviral : u.viralSend c (Hdr.msn f.hdr) = none := viralSend_none _ fun y hy r hr => by
    rw [State.viral_congr hu.mgmt]
    exact hlive r ((hcmd y hy).symm.trans hr)
  obtain ⟨w, hw, wonly, wport, wwire⟩ := linkQueue_alone (hu.port p ▸ hwait) hrun' hcan' hviral
  exact ⟨w, (startMsg_one hsize).trans (hsend.trans hw), wonly.mgmt.trans hu.mgmt, wport.trans (hu.port p), wwire.trans hu.wire⟩

/-- Its frame on the wire. -/
theorem startMsg_frame (hiv : (s.reg (Reg.conn c 24)).toNat + 1 < 2 ^ 48) : ∃ f, (s.startMsg c m).net.wire = s.net.wire ++ [(p, f)] ∧
    Hdr.op f.hdr = 1 ∧ (Hdr.msn f.hdr).toNat = s.regBits (Reg.conn c 16) 63 48 ∧ Hdr.pidx f.hdr = 0 ∧ Hdr.len f.hdr = m.len ∧
    Hdr.lseq f.hdr = (s.port p).lseq.toNat ∧ f.iv = s.reg (Reg.conn c 24) ∧
    f.payload = (gcmSeal (s.connKey c) (nonceOf (s.connBits c 14 14) f.iv) (hdrBytes f.hdr) (m.fixed.getD [])).1 := by
  obtain ⟨w, hw, hmgmt, hport, hwire⟩ := startMsg_linkSend hlive hup hopen hfixed hsize hwait hrun hcan hlen hmax htx
  obtain ⟨-, -, flseq, fop, fmsn, fpidx, flen⟩ := singleFrame_fields hlen hmax s c (BitVec.ofNat 16 (s.regBits (Reg.conn c 16) 63 48))
  obtain ⟨slseq, sop, smsn, spidx, slen⟩ := sealedFrame_fields w p c _ flseq
  have hmsn : (BitVec.ofNat 16 (s.regBits (Reg.conn c 16) 63 48)).toNat = s.regBits (Reg.conn c 16) 63 48 := by
    rw [BitVec.toNat_ofNat]
    exact Nat.mod_eq_of_lt (bits_lt _ 63 48)
  refine ⟨w.sealedFrame p c _, ?_, sop.trans fop, ?_, spidx.trans fpidx, slen.trans flen, ?_, State.reg_congr hmgmt _, ?_⟩
  · rw [hw, linkSend_wire p _ (by rw [State.reg_congr hmgmt]; exact hiv), hwire]
  · exact (congrArg BitVec.toNat smsn).trans (fmsn.trans hmsn)
  · rw [slseq, hport]
  · rw [sealedFrame_payload, State.connKey_congr hmgmt, State.connBits_congr hmgmt, State.transportFrame]

end

end Sys2Proof.Machine
end

section
/-! SUPPORT. NSEND and NPOST (R374) and XTASK (R375) at the head of their timeline. -/

namespace Sys2Proof.Machine

/-- A network command whose address or length is refused (R34, R374). -/
abbrev badRange (c : NetCmd) : Prop := canonical c.va = false ∨ 2 ^ 20 < c.len.toNat

/-- A connection that a context cannot use: not open, or of another context (R374). -/
abbrev State.shut (s : State) (n : Nat) (x : BitVec 12) : Prop := s.connOpen n = false ∨ s.connCtx n ≠ x

/-! ### NSEND -/

/-- The message of an NSEND before it has an MSN. -/
def State.nsendMsg (s : State) (c : NetCmd) (m : Cmd) : TxMsg := ⟨0, c.va, c.len.toNat, none, some ⟨s.eng.core, s.eng.ctx, 4, m.num⟩, 0, []⟩

/-- An NSEND by what its first packet reads as. -/
def State.nsendRead (s : State) (c : NetCmd) (m : Cmd) : PacketRead → State
  | .wait u => u
  | .fail u st => u.endNsend s.eng.core s.eng.ctx m c.conn.toNat st
  | .ok u _ => (u.setCoreCtx s.eng.core s.eng.ctx ((u.coreCtx s.eng.core s.eng.ctx).take 4)).startMsg c.conn.toNat (s.nsendMsg c m)

/-- NSEND refused in the order of its checks, held back, or read (R34, R35, R46, R374). -/
theorem nsend_eq {s : State} (c : NetCmd) {m : Cmd} (h : s.headOf 4 = some m) :
    let n := c.conn.toNat
    let x := s.eng.ctx
    exec (.nsend c) s = .next (
      if badRange c then s.endNsend s.eng.core x m n 5
      else if s.shut n x then s.endNsend s.eng.core x m n 9
      else if s.viral x = true then (s.dropWrite x (field 63 1 ||| field 0 n)).endNsend s.eng.core x m n 8
      else if s.upPorts n = [] then s.endNsend s.eng.core x m n 7
      else if 64 ≤ (s.conn n).tx.length ∨ (s.conn n).unsent = true then s
      else s.nsendRead c m (s.readPacket n (s.nsendMsg c m) 0)) := by
  rw [State.headOf] at h
  show execNsend c s = _
  simp only [execNsend, h, Bool.or_eq_true, Bool.not_eq_true', decide_eq_true_eq, List.isEmpty_iff]
  rfl

/-! ### NPOST -/

/-- An NPOST refused: its record, whose MSN is free, and its place in the queue given up (R374). -/
theorem refusePost_leaves (u : State) (core : BitVec 10) (x : BitVec 12) (m : Cmd) {c status : Nat} (hc : c < 2 ^ 16) (hs : status < 2 ^ 4) :
    ∃ t p, u.refusePost core x m c status = t ∧ t = { u with cores := t.cores, freeCtr := u.freeCtr + 1 } ∧
      (t.coreCtx core x).q5 = (u.coreCtx core x).q5 ++ [p] ∧ bits p.word 31 28 = status ∧ bits p.word 63 48 = c ∧
      (t.coreCtx core x).head 5 = ((u.coreCtx core x).take 5).head 5 := by
  let v := (u.setCoreCtx core x ((u.coreCtx core x).take 5)).freeW
  have hv : v.1.coreCtx core x = (u.coreCtx core x).take 5 := State.setCoreCtx_coreCtx_same ..
  obtain ⟨hstatus, hconn⟩ := recvRecord_fields (BitVec.ofNat 16 v.2.toNat) hc hs (show 0 < 2 ^ 28 by decide)
  obtain ⟨hq5, hhead⟩ := endNpost_coreCtx v.1 ⟨core, x, 5, m.num⟩ (recvRecord c (BitVec.ofNat 16 v.2.toNat) status 0) 0
  rw [hv] at hq5 hhead
  exact ⟨_, ⟨_, 0⟩, rfl, rfl, hq5.trans (congrArg (· ++ [_]) (CoreCtx.take_five_q5 _)), hstatus, hconn, hhead⟩

/-- The buffer of an NPOST put behind those posted on its connection (R38, R44). -/
def State.posts (u : State) (core : BitVec 10) (x : BitVec 12) (m : Cmd) (c : NetCmd) : State :=
  (u.setCoreCtx core x ((u.coreCtx core x).take 5)).modConn c.conn.toNat fun k =>
    { k with posted := k.posted ++ [⟨c.va, c.len.toNat, some ⟨core, x, 5, m.num⟩⟩] }

/-- NPOST refused in the order of its checks, held back, or posted (R38, R44, R374). -/
theorem npost_eq {s : State} (c : NetCmd) {m : Cmd} (h : s.headOf 5 = some m) :
    let n := c.conn.toNat
    let x := s.eng.ctx
    let who : Waiter := .engine s.eng.core x 5
    let u := s.walkRange who x c.va c.len.toNat
    exec (.npost c) s = .next (
      if badRange c then s.refusePost s.eng.core x m n 5
      else if s.shut n x then s.refusePost s.eng.core x m n 9
      else if s.postedBefore m.stamp n = true then s
      else if ∃ a ∈ rangePages c.va c.len.toNat, u.walkWaits who x a = true then u
      else if u.pinnedRange who x c.va c.len.toNat = false then u.refusePost s.eng.core x m n 2
      else u.posts s.eng.core x m c) := by
  rw [State.headOf] at h
  show execNpost c s = _
  simp only [execNpost, h, Bool.or_eq_true, Bool.not_eq_true', decide_eq_true_eq, List.any_eq_true]
  rfl

/-! ### XTASK -/

theorem readVaWords_length {s u : State} {who : Waiter} {x : BitVec 12} {va : Word} {n : Nat} {w : List Word}
    (h : s.readVaWords who x va n = .ok (u, w)) : w.length = n := by
  induction n generalizing s va w with
  | zero => cases h; rfl
  | succ n ih =>
    simp only [State.readVaWords] at h
    split at h
    · cases h
    · split at h
      · cases h
      · rename_i hr
        cases h
        exact congrArg (· + 1) (ih hr)

section
variable {s : State} (c : Xtask) {m : Cmd} (h : s.headOf 6 = some m)
include h

/-- In a viral context the packet is not read: the result takes what words can be read (R46, R375). -/
theorem xtask_viral (hv : s.viral s.eng.ctx = true) :
    let n := c.conn.toNat
    let x := s.eng.ctx
    let who : Waiter := .engine s.eng.core x 6
    let a := s.wordNow who x (c.va + 8)
    let b := a.1.wordNow who x (c.va + 72)
    exec (.xtask c) s = .next (b.1.endXtask s.eng.core x m n c.va (((List.replicate 10 0).set 1 a.2).set 9 b.2) 7 fun v =>
      v.dropWrite x (field 63 1 ||| field 0 n)) := by
  rw [State.headOf] at h
  show execXtask c s = _
  simp only [execXtask, h, hv]
  rfl

variable {u : State} {w : List Word} (hv : s.viral s.eng.ctx = false)
  (hr : s.readVaWords (.engine s.eng.core s.eng.ctx 6) s.eng.ctx c.va 30 = .ok (u, w))
include hv hr

/-- A packet at a bad address, or on a connection that cannot send it, is answered at once (R375). -/
theorem xtask_refused (hbad : badVa c.va 256 = true ∨ (u.conn c.conn.toNat).keyed = false ∨
      (c.path = false ∧ (u.connOpen c.conn.toNat = false ∨ u.connCtx c.conn.toNat ≠ s.eng.ctx ∨ u.upPorts c.conn.toNat = []))) :
    exec (.xtask c) s = .next (u.endXtask s.eng.core s.eng.ctx m c.conn.toNat c.va w 0xF id) := by
  rw [State.headOf] at h
  show execXtask c s = _
  simp only [execXtask, h, hv, hr, Bool.false_eq_true, if_false]
  congr 1
  split
  · rfl
  · rename_i hva
    refine if_pos ?_
    rcases hbad with hbad | hbad | ⟨hpath, hbad⟩
    · exact absurd hbad hva
    · simp [hbad]
    · rcases hbad with hbad | hbad | hbad <;> simp [hpath, hbad]

/-- The words of a packet as it is sent: its serial, and the MAC over both. -/
def State.taskPacket (u : State) (n : Nat) (w : List Word) : List Word :=
  let w := w.set 1 (u.conn n).serial
  let mac := packetMac (u.connKey n) (u.connBits n 56 45) w
  w ++ [BitVec.ofNat 64 mac.toNat, BitVec.ofNat 64 (mac.toNat / 2 ^ 64)]

/-- What is kept of a packet until its result comes. -/
def State.taskAwait (u : State) (core : BitVec 10) (x : BitVec 12) (m : Cmd) (c : Xtask) (w : List Word) (i : Nat) : Await :=
  ⟨(u.conn c.conn.toNat).serial, (w.set 1 (u.conn c.conn.toNat).serial).getD 9 0, c.va, ⟨core, x, 6, m.num⟩, u.timebase,
    some (c.dec, BitVec.ofNat 6 i)⟩

/-- A packet handed to a mailbox slot. -/
def State.mails (u : State) (core : BitVec 10) (x : BitVec 12) (m : Cmd) (c : Xtask) (w : List Word) (i : Nat) : State :=
  let n := c.conn.toNat
  let v := (u.setCoreCtx core x ((u.coreCtx core x).take 6)).modConn n fun k =>
    { k with serial := (u.conn n).serial + 1, awaiting := k.awaiting ++ [u.taskAwait core x m c w i] }
  { v with cxl := { v.cxl with
    mailbox := v.cxl.mailbox ++ [(c.dec, BitVec.ofNat 6 i)], ioOut := v.cxl.ioOut ++ [⟨c.dec.toNat, i, u.taskPacket n w⟩] } }

/-- On PATH 1 a packet takes the lowest free mailbox slot (R375). -/
theorem xtask_mailed {i : Nat} (hbad : badVa c.va 256 = false) (hkey : (u.conn c.conn.toNat).keyed = true) (hpath : c.path = true)
    (hslot : ((List.range 64).find? fun j => (c.dec, BitVec.ofNat 6 j) ∉ u.cxl.mailbox) = some i) :
    exec (.xtask c) s = .next (u.mails s.eng.core s.eng.ctx m c w i) := by
  rw [State.headOf] at h
  simp only [decide_not] at hslot
  show execXtask c s = _
  simp only [execXtask, h, hv, hr, hbad, hkey, hpath, hslot, Bool.false_eq_true, if_false]
  rfl

end

/-- Settles O46: the refusals of each command in the order of its checks, then what a command that is taken leaves. -/
theorem networkCommands : Obligations.NetworkCommands := by
  unfold Obligations.NetworkCommands
  refine ⟨?_, ?_, ?_, ?_⟩
  · intro s c m hm n x wrong shut
    have hrun := nsend_eq c hm
    refine ⟨fun hw => ?_, fun hw hs => ?_, fun hw hs hv => ?_, fun hw hs hv hp => ?_, fun hw hs hv hp ht => ?_, fun hw hs hv hp ht hu => ?_⟩
    · rw [hrun, if_pos hw]
    · rw [hrun, if_neg hw, if_pos hs]
    · rw [hrun, if_neg hw, if_neg hs, if_pos hv]
    · rw [hrun, if_neg hw, if_neg hs, if_neg (ne_true_of_eq_false hv), if_pos hp]
    · rw [hrun, if_neg hw, if_neg hs, if_neg (ne_true_of_eq_false hv), if_neg hp, if_pos ht]
    · intro y
      rw [hrun, if_neg hw, if_neg hs, if_neg (ne_true_of_eq_false hv), if_neg hp, if_neg (not_or.2 ⟨Nat.not_le.2 ht, ne_true_of_eq_false hu⟩)]
      refine ⟨fun u hr => ?_, fun u st hr => ?_, fun u d hr => ?_⟩
      · rw [show s.readPacket n (s.nsendMsg c m) 0 = _ from hr]; rfl
      · rw [show s.readPacket n (s.nsendMsg c m) 0 = _ from hr]; rfl
      · rw [show s.readPacket n (s.nsendMsg c m) 0 = _ from hr]; rfl
  · intro s c m _ hlive hup hopen hfixed hsize hwait hrun hcan hlen hmax htx hiv
    exact startMsg_frame hlive hup hopen hfixed hsize hwait hrun hcan hlen hmax htx hiv
  · intro s c m hm n x wrong shut refused who u walking
    have hrun := npost_eq c hm
    have hn : n < 2 ^ 16 := Nat.lt_trans c.conn.isLt (by decide)
    have hrefuse {v : State} {st : Nat} (hst : st < 2 ^ 4) (h : exec (.npost c) s = .next (v.refusePost s.eng.core x m n st)) : refused v st := by
      obtain ⟨t, p, ht, hleft⟩ := refusePost_leaves v s.eng.core x m hn hst
      exact ⟨t, p, h.trans (congrArg _ ht), hleft⟩
    refine ⟨fun hw => hrefuse (by decide) ?_, fun hw hs => hrefuse (by decide) ?_, fun hw hs hb => ?_, fun hw hs hb hk => ?_,
      fun hw hs hb hk hp => hrefuse (by decide) ?_, fun hw hs hb hk hp => ⟨u.posts s.eng.core x m c, ?_, rfl, ?_, fun k hk => ?_, ?_⟩⟩
    · rw [hrun, if_pos hw]
    · rw [hrun, if_neg hw, if_pos hs]
    · rw [hrun, if_neg hw, if_neg hs, if_pos hb]
    · rw [hrun, if_neg hw, if_neg hs, if_neg (ne_true_of_eq_false hb), if_pos hk]
    · rw [hrun, if_neg hw, if_neg hs, if_neg (ne_true_of_eq_false hb), if_neg hk, if_pos hp]
    · rw [hrun, if_neg hw, if_neg hs, if_neg (ne_true_of_eq_false hb), if_neg hk, if_neg (ne_false_of_eq_true hp)]
    · exact State.modConn_conn_same ..
    · exact State.modConn_conn_ne _ _ hk
    · exact State.setCoreCtx_coreCtx_same ..
  · intro s c m hm n x who
    refine ⟨fun u w hv hr hb => xtask_refused c hm hv hr (.inl hb), fun hv => xtask_viral c hm hv,
      fun u w hv hr _ hb => xtask_refused c hm hv hr (.inr hb), fun u w i hv hr hb hk hp hi => ?_⟩
    have hlen := readVaWords_length hr
    refine ⟨u.mails s.eng.core x m c w i, u.taskAwait s.eng.core x m c w i, u.taskPacket n w, xtask_mailed c hm hv hr hb hk hp hi,
      rfl, rfl, rfl, ?_, ?_, ?_, rfl, ?_, rfl, rfl, ?_⟩
    · simp [State.taskPacket, hlen]
    · simp [State.taskPacket, hlen]
    · exact State.modConn_conn_same (u.setCoreCtx s.eng.core x ((u.coreCtx s.eng.core x).take 6)) n fun k =>
        { k with serial := (u.conn n).serial + 1, awaiting := k.awaiting ++ [u.taskAwait s.eng.core x m c w i] }
    · simp [State.taskAwait]
    · exact State.setCoreCtx_coreCtx_same ..

end Sys2Proof.Machine
end

section
/-! SUPPORT. The events of a connection: its key, opening and closing (R30, R31), answers and timers (R37, R40), packets received (R38 to R43). -/

namespace Sys2Proof.Machine

/-! ### Opening and closing (R30, R31) -/

/-- A field within one that is written with zero reads zero. -/
theorem bits_setBits_zero {n : Nat} (w : BitVec n) {hi lo hi' lo' : Nat} (hl : lo ≤ lo') (hh : hi' ≤ hi) :
    bits (setBits w hi lo 0) hi' lo' = 0 := by
  apply Nat.eq_of_testBit_eq
  intro i
  rw [testBit_bits, getLsbD_setBits, Nat.zero_testBit]
  by_cases hi' : i < hi' + 1 - lo'
  · by_cases hn : lo' + i < n
    · rw [if_pos (by omega)]; simp
    · simp [BitVec.getLsbD_of_ge w _ (Nat.le_of_not_lt hn)]
  · simp [hi']

theorem bits_connWord_en (c : Nat) (en : Bool) (w : Word) : bits (connWord c en w) 63 63 = b2n en := by
  rw [connWord, bits_setBits_other _ _ (.inl (by split <;> decide)), bits_setBits_same _ _ (by decide)]
  cases en <;> rfl

theorem bits_connWord_psz (c : Nat) (en : Bool) (w : Word) : bits (connWord c en w) 61 60 = bits w 61 60 := by
  rw [connWord, bits_setBits_other _ _ (.inl (by split <;> decide)), bits_setBits_other _ _ (.inr (by decide))]

/-- A connection in error, with the word written to its control block (R30, R31). -/
def State.connFails (s : State) (c : Nat) (w : Word) (err : Nat) : State :=
  ((s.setReg (Reg.conn c 0) w).setRegBits (Reg.conn c 16) 15 12 2).setRegBits (Reg.conn c 16) 11 8 err

theorem State.connFails_mem (s : State) (c : Nat) (w : Word) (err : Nat) : (s.connFails c w err).mem = s.mem := by
  simp only [State.connFails, State.setRegBits_mem, State.setReg_mem]

theorem State.connFails_fields (s : State) (c : Nat) (w : Word) {err : Nat} (h : err < 16) :
    (s.connFails c w err).regBits (Reg.conn c 16) 15 12 = 2 ∧ (s.connFails c w err).regBits (Reg.conn c 16) 11 8 = err ∧
      (s.connFails c w err).connBits c 63 63 = bits w 63 63 := by
  have hne : Reg.conn c 0 ≠ Reg.conn c 16 := Reg.conn_ne (by decide)
  refine ⟨?_, ?_, ?_⟩
  · rw [State.connFails, State.setRegBits_regBits_other _ _ _ (.inl (by decide)), State.setRegBits_regBits_same _ _ _ (by decide)]
    rfl
  · rw [State.connFails, State.setRegBits_regBits_same _ _ _ (by decide)]
    exact Nat.mod_eq_of_lt h
  · rw [State.connFails, State.connBits, State.setRegBits_regBits_ne _ _ _ _ _ _ hne, State.setRegBits_regBits_ne _ _ _ _ _ _ hne,
      State.regBits, State.setReg_reg]

/-- A connection that opens (R31). -/
def State.connOpens (s : State) (c : Nat) (w : Word) : State :=
  (((s.setReg (Reg.conn c 0) w).setRegBits (Reg.conn c 16) 15 12 1).setRegBits (Reg.conn c 16) 63 32 0).modConn c fun k =>
    { k with rr := 0, posted := [], rx := [], done := [], nextPidx := 0 }

theorem State.connOpens_mem (s : State) (c : Nat) (w : Word) : (s.connOpens c w).mem = s.mem := by
  simp only [State.connOpens, State.modConn_mem, State.setRegBits_mem, State.setReg_mem]

theorem State.connOpens_fields (s : State) (c : Nat) (w : Word) : let t := s.connOpens c w
    t.connOpen c = true ∧ t.connBits c 63 63 = bits w 63 63 ∧ t.rxbase c = 0 ∧ t.regBits (Reg.conn c 16) 63 48 = 0 := by
  intro t
  have hne : Reg.conn c 0 ≠ Reg.conn c 16 := Reg.conn_ne (by decide)
  have hmgmt : t.mgmt = (((s.setReg (Reg.conn c 0) w).setRegBits (Reg.conn c 16) 15 12 1).setRegBits (Reg.conn c 16) 63 32 0).mgmt := rfl
  refine ⟨?_, ?_, ?_, ?_⟩
  · rw [State.connOpen, State.regBits_congr hmgmt, State.setRegBits_regBits_other _ _ _ (.inr (by decide)),
      State.setRegBits_regBits_same _ _ _ (by decide)]
    rfl
  · rw [State.connBits_congr hmgmt, State.connBits, State.setRegBits_regBits_ne _ _ _ _ _ _ hne, State.setRegBits_regBits_ne _ _ _ _ _ _ hne,
      State.regBits, State.setReg_reg]
  · rw [State.rxbase, State.regBits_congr hmgmt, State.regBits, State.setRegBits_reg_same, bits_setBits_zero _ (by decide) (by decide)]
    rfl
  · rw [State.regBits_congr hmgmt, State.regBits, State.setRegBits_reg_same, bits_setBits_zero _ (by decide) (by decide)]

/-- A connection with a new key (R31). -/
def State.takesKey (s : State) (c : Nat) (w : Word) : State :=
  ((s.setReg (Reg.conn c 56) w).setReg (Reg.conn c 24) 0).modConn c fun k => { k with keyed := true, lastSerial := 0, serial := 1 }

theorem State.takesKey_fields (s : State) (c : Nat) (w : Word) : let t := s.takesKey c w
    t = { s with mgmt := t.mgmt, net := { s.net with conns := t.net.conns } } ∧ t.reg (Reg.conn c 56) = w ∧ t.reg (Reg.conn c 24) = 0 ∧
      t.conn c = { s.conn c with keyed := true, lastSerial := 0, serial := 1 } ∧ ∀ k, k ≠ c → t.conn k = s.conn k := by
  intro t
  have hmgmt : t.mgmt = ((s.setReg (Reg.conn c 56) w).setReg (Reg.conn c 24) 0).mgmt := rfl
  refine ⟨ConnOnly.outside_mgmt (ConnOnly.modConn ((s.setReg (Reg.conn c 56) w).setReg (Reg.conn c 24) 0) c _), ?_, ?_, ?_, fun k hk => ?_⟩
  · rw [State.reg_congr hmgmt, State.setReg_reg_ne _ _ (Reg.conn_ne (by decide)), State.setReg_reg]
  · rw [State.reg_congr hmgmt, State.setReg_reg]
  · exact (State.modConn_conn_same ..).trans (by rw [State.setReg_conn, State.setReg_conn])
  · exact (State.modConn_conn_ne _ _ hk).trans (by rw [State.setReg_conn, State.setReg_conn])

section
variable {s : State}

theorem keyWrite_ignored (h : 4096 ≤ s.ev.a ∨ s.connBits s.ev.a 63 63 = 1) : exec .keyWrite s = .next s :=
  congrArg Host.Outcome.next (if_pos (by simpa using h))

/-- The last word of a key, written while the connection is disabled (R31). -/
theorem keyWrite_completes (hc : s.ev.a < 4096) (hen : s.connBits s.ev.a 63 63 = 0) :
    exec .keyWrite s = .next (s.takesKey s.ev.a s.ev.w) :=
  congrArg Host.Outcome.next (if_neg (by simp [hen, hc]))

/-- EN set on a connection that was disabled: refused for its packet size or its key, else open (R30, R31). -/
theorem connEnable_eq (hc : s.ev.a < 4096) (hen : s.connBits s.ev.a 63 63 = 0) : exec .connEnable s = .next (
    if bits s.ev.w 61 60 = 3 then s.connFails s.ev.a (connWord s.ev.a false s.ev.w) 5
    else if (s.conn s.ev.a).keyed = false ∨ 2 ^ 48 ≤ (s.reg (Reg.conn s.ev.a 24)).toNat then s.connFails s.ev.a (connWord s.ev.a true s.ev.w) 6
    else s.connOpens s.ev.a (connWord s.ev.a true s.ev.w)) := by
  refine congrArg Host.Outcome.next ((if_neg (Nat.not_le.2 hc)).trans ((if_neg (by rw [hen]; decide)).trans ?_))
  simp only [bits_connWord_psz, Bool.or_eq_true, Bool.not_eq_true', decide_eq_true_eq]
  rfl

/-- There is no connection beyond 4,095 (R30). -/
theorem connDisable_none (h : 4096 ≤ s.ev.a) : exec .connDisable s = .next s := congrArg Host.Outcome.next (if_pos h)

theorem connEnable_none (h : 4096 ≤ s.ev.a) : exec .connEnable s = .next s := congrArg Host.Outcome.next (if_pos h)

/-- A connection without message in flight has no send to end. -/
theorem endSends_idle {c : Nat} (status : Nat) (h : (s.conn c).tx = []) :
    (s.endSends c status).mgmt = s.mgmt ∧ (s.endSends c status).mem = s.mem ∧ ((s.endSends c status).conn c).posted = (s.conn c).posted := by
  have hposted : ((s.modConn c fun k => { k with tx := [] }).conn c).posted = (s.conn c).posted := by rw [State.modConn_conn_same]
  rw [State.endSends, h]
  exact ⟨rfl, rfl, hposted⟩

/-- What a connection has received and not handed on dropped, with what waits to be sent (R31). -/
def State.connCleared (s : State) (c : Nat) : State :=
  let k := s.conn c
  ({ s with net := { s.net with holdSlots := s.net.holdSlots + (k.rx.filter fun (m : RxMsg) => m.final.isSome).length } } : State).setConn c
    { k with waitTx := [], posted := [], rx := [], done := [], nextPidx := 0 }

theorem State.connCleared_conn (s : State) (c : Nat) : ((s.connCleared c).conn c).rx = [] ∧ ((s.connCleared c).conn c).waitTx = [] := by
  rw [State.connCleared, State.setConn_conn_same]
  exact ⟨rfl, rfl⟩

/-- What EN cleared leaves of a connection without message or post (R31). -/
def State.connCloses (s : State) (c : Nat) (w : Word) : State :=
  (((s.setReg (Reg.conn c 0) (connWord c false w)).endSends c 9).setRegBits (Reg.conn c 16) 15 12 0).connCleared c

theorem State.connCleared_mgmt (s : State) (c : Nat) : (s.connCleared c).mgmt = s.mgmt := rfl
theorem State.connCleared_mem (s : State) (c : Nat) : (s.connCleared c).mem = s.mem := rfl

theorem State.connCloses_fields {c : Nat} (w : Word) (htx : (s.conn c).tx = []) : let t := s.connCloses c w
    t.connOpen c = false ∧ t.connBits c 63 63 = 0 ∧ (t.conn c).rx = [] ∧ (t.conn c).waitTx = [] ∧ t.mem = s.mem := by
  intro t
  let v := ((s.setReg (Reg.conn c 0) (connWord c false w)).endSends c 9).setRegBits (Reg.conn c 16) 15 12 0
  obtain ⟨hmgmt, hmem, -⟩ := endSends_idle (s := s.setReg (Reg.conn c 0) (connWord c false w)) (c := c) 9 htx
  obtain ⟨hrx, hwait⟩ := v.connCleared_conn c
  have ht : t.mgmt = v.mgmt := v.connCleared_mgmt c
  refine ⟨?_, ?_, hrx, hwait, ?_⟩
  · rw [State.connOpen, State.regBits_congr ht, State.setRegBits_regBits_same _ _ _ (by decide)]
    rfl
  · rw [State.connBits_congr ht, State.connBits, State.setRegBits_regBits_ne _ _ _ _ _ _ (Reg.conn_ne (by decide)), State.regBits_congr hmgmt,
      State.regBits, State.setReg_reg, bits_connWord_en]
    rfl
  · exact (State.connCleared_mem ..).trans ((State.setRegBits_mem ..).trans hmem)

/-- EN cleared on a connection without message or post (R31). -/
theorem connDisable_idle (hc : s.ev.a < 4096) (hen : s.connBits s.ev.a 63 63 = 1) (htx : (s.conn s.ev.a).tx = [])
    (hposted : (s.conn s.ev.a).posted = []) : exec .connDisable s = .next (s.connCloses s.ev.a s.ev.w) := by
  obtain ⟨-, -, hpost⟩ := endSends_idle (s := s.setReg (Reg.conn s.ev.a 0) (connWord s.ev.a false s.ev.w)) (c := s.ev.a) 9 htx
  refine congrArg Host.Outcome.next ((if_neg (Nat.not_le.2 hc)).trans ((if_neg (by simp [hen])).trans ?_))
  simp only [State.setRegBits_conn, hpost.trans hposted, State.closePosts]
  rfl

end

/-! ### What the events of a connection are -/

theorem exec_ackReceive (s : State) : exec .ackReceive s = execAckReceive s := rfl
theorem exec_nakReceive (s : State) : exec .nakReceive s = execNakReceive s := rfl
theorem exec_nobufReceive (s : State) : exec .nobufReceive s = execNobufReceive s := rfl
theorem exec_dataPacketReceive (s : State) : exec .dataPacketReceive s = .next (s.receivePacket false) := rfl
theorem exec_datafPacketReceive (s : State) : exec .datafPacketReceive s = .next (s.receivePacket true) := rfl

/-! ### What a frame at the head of those received is (R29, R33) -/

/-- A frame that is discarded has only been counted, and its credits are owed. -/
theorem takeFrame_discard {s u : State} {op : Nat} (h : s.takeFrame op = .discard u) :
    u.net.conns = s.net.conns ∧ u.mem = s.mem ∧ u.cores = s.cores := by
  have hcount (v : State) (o hi lo : Nat) : (v.countReg o hi lo).net.conns = v.net.conns ∧ (v.countReg o hi lo).mem = v.mem ∧
      (v.countReg o hi lo).cores = v.cores := by
    rw [State.countReg_outside]
    exact ⟨rfl, rfl, rfl⟩
  simp only [State.takeFrame] at h
  split at h
  · cases h
  · split at h
    · cases h
    · split at h
      · cases h
        exact ⟨rfl, rfl, rfl⟩
      · split at h
        · cases h
          exact hcount ..
        · split at h
          · cases h
            exact hcount ..
          · cases h

theorem receivePacket_nothing {s u : State} (final : Bool) : (s.takeFrame (b2n final) = .none → s.receivePacket final = s) ∧
    (s.takeFrame (b2n final) = .discard u → s.receivePacket final = u) :=
  ⟨fun ht => by simp only [State.receivePacket, ht], fun ht => by simp only [State.receivePacket, ht]⟩

/-- Where no frame of its kind is taken an event changes nothing, and a discarded one leaves what taking it left. -/
theorem receive_nothing {s u : State} {op : Nat} {i : Instr}
    (hi : (op, i) ∈ [(2, Instr.ackReceive), (3, .nakReceive), (4, .nobufReceive), (0, .dataPacketReceive), (1, .datafPacketReceive)]) :
    (s.takeFrame op = .none → exec i s = .next s) ∧ (s.takeFrame op = .discard u → exec i s = .next u) := by
  simp only [List.mem_cons, List.not_mem_nil, or_false, Prod.mk.injEq] at hi
  rcases hi with ⟨rfl, rfl⟩ | ⟨rfl, rfl⟩ | ⟨rfl, rfl⟩ | ⟨rfl, rfl⟩ | ⟨rfl, rfl⟩
  · rw [exec_ackReceive]
    exact ⟨fun ht => by simp only [execAckReceive, ht], fun ht => by simp only [execAckReceive, ht]⟩
  · rw [exec_nakReceive]
    exact ⟨fun ht => by simp only [execNakReceive, ht], fun ht => by simp only [execNakReceive, ht]⟩
  · rw [exec_nobufReceive]
    exact ⟨fun ht => by simp only [execNobufReceive, ht], fun ht => by simp only [execNobufReceive, ht]⟩
  · rw [exec_dataPacketReceive]
    exact ⟨fun ht => congrArg _ ((receivePacket_nothing (u := u) false).1 ht), fun ht => congrArg _ ((receivePacket_nothing false).2 ht)⟩
  · rw [exec_datafPacketReceive]
    exact ⟨fun ht => congrArg _ ((receivePacket_nothing (u := u) true).1 ht), fun ht => congrArg _ ((receivePacket_nothing true).2 ht)⟩

/-! ### Answers (R37, R40) -/

section
variable {s u : State} {c : Nat} {h : BitVec 128} {d : List Byte}

theorem ackReceive_unknown (ht : s.takeFrame 2 = .ok u c h d) (hm : u.txMsg c (Hdr.msn h) = none) : exec .ackReceive s = .next u := by
  rw [exec_ackReceive]
  simp only [execAckReceive, ht, hm]

theorem ackReceive_early {m : TxMsg} (ht : s.takeFrame 2 = .ok u c h d) (hm : u.txMsg c (Hdr.msn h) = some m)
    (hp : Hdr.pidx h + 1 ≠ m.packets.length) : exec .ackReceive s =
      .next (u.modPacket c m.msn (Hdr.pidx h) fun q => { q with acked := true, nobuf := false, refused := false }) := by
  rw [exec_ackReceive]
  simp only [execAckReceive, ht, hm, if_neg hp]

/-- The acknowledgement of the last packet ends the message, and the command it is of (R37). -/
theorem ackReceive_final {m : TxMsg} {r : CmdRef} (ht : s.takeFrame 2 = .ok u c h d) (hm : u.txMsg c (Hdr.msn h) = some m)
    (hp : Hdr.pidx h + 1 = m.packets.length) (hr : m.cmd = some r) (hs : m.serial = 0) (ha : Hdr.astat h = 0) :
    exec .ackReceive s = .next ((u.modConn c fun k => { k with tx := k.tx.filter fun x => x.msn ≠ m.msn }).setCoreCtx r.core r.ctx
      ((u.coreCtx r.core r.ctx).complete 4 r.num 0 0)) := by
  rw [exec_ackReceive]
  simp only [execAckReceive, ht, hm, if_pos hp, State.endSend, hs, hr, ha, ne_eq, not_true_eq_false, if_false, if_true, State.modConn_coreCtx]

theorem nakReceive_ok (ht : s.takeFrame 3 = .ok u c h d) : exec .nakReceive s = .next (if u.ordered c = true then
    (u.modPacket c (Hdr.msn h) (Hdr.pidx h) fun q => { q with refused := false }).resendFrom c (Hdr.msn h) (Hdr.pidx h) else u) := by
  rw [exec_nakReceive]
  simp only [execNakReceive, ht]

/-- A packet that has been refused waits twice as long as before, at most 64 µs (R37). -/
def Packet.backedOff (q : Packet) (now : Word) : Packet :=
  if q.acked then q else { q with nobuf := true, refused := true, backoff := if q.backoff = 0 then 2 else min 64 (2 * q.backoff), last := now }

theorem nobufReceive_ok (ht : s.takeFrame 4 = .ok u c h d) :
    exec .nobufReceive s = .next (u.modPacket c (Hdr.msn h) (Hdr.pidx h) fun q => q.backedOff u.timebase) := by
  rw [exec_nobufReceive]
  simp only [execNobufReceive, ht]
  rfl

/-- A packet of the only message, which has no other. -/
theorem modPacket_single {m : TxMsg} {q : Packet} (msn : BitVec 16) (j : Nat) (f : Packet → Packet) (htx : (u.conn c).tx = [m]) (hm : m.msn = msn)
    (hq : m.packets = [q]) (hj : q.pidx = j) : ((u.modPacket c msn j f).conn c).tx = [{ m with packets := [f q] }] := by
  rw [State.modPacket, State.modConn_conn_same]
  simp [htx, hm, hq, hj]

end

/-! ### Timers (R37) -/

/-- The timer that an event is of. -/
theorem timer_exec {s : State} {i : Instr} {late : Bool} (h : (i, late) ∈ [(Instr.rtoExpiry, false), (.nobufBackoffExpiry, true)]) :
    exec i s = .next (s.packetTimer late) := by
  simp only [List.mem_cons, List.not_mem_nil, or_false, Prod.mk.injEq] at h
  rcases h with ⟨rfl, rfl⟩ | ⟨rfl, rfl⟩ <;> rfl

/-- A timer sends the packet again, unless it has nothing to do or is not due. -/
theorem packetTimer_eq {s : State} (late : Bool) {m : TxMsg} {q : Packet} (hm : s.txMsg s.ev.a (BitVec.ofNat 16 s.ev.b) = some m)
    (hq : m.packet s.ev.c = some q) :
    let us := if late then q.backoff else s.regBits Reg.netcfg 47 32
    s.packetTimer late = if q.acked = true ∨ q.queued = true ∨ q.nobuf ≠ late ∨ (q.sent ≠ 0 ∧ (s.timebase - q.last).toNat < 1000 * us) then s
      else s.retryPacket s.ev.a (BitVec.ofNat 16 s.ev.b) q := by
  simp only [State.packetTimer, hm, Option.bind_some, hq, Bool.or_eq_true, Bool.and_eq_true, decide_eq_true_eq, or_assoc]

theorem retryPacket_closed {s : State} {c : Nat} (msn : BitVec 16) (q : Packet) (h : s.connOpen c = false) : s.retryPacket c msn q = s := by
  rw [State.retryPacket, h]; rfl

/-- A packet sent before is sent again, or its connection fails after NTRY transmissions. -/
theorem retryPacket_open {s : State} {c : Nat} (msn : BitVec 16) {q : Packet} (h : s.connOpen c = true) (hs : q.sent ≠ 0) :
    s.retryPacket c msn q = if s.regBits Reg.netcfg 31 24 ≤ q.sent then s.failConn c (if q.refused then 4 else 3) else s.transmit c msn q.pidx := by
  simp [State.retryPacket, h, hs]

/-! ### Packets received (R38 to R43) -/

/-- The message of one packet that a buffer has received. -/
def firstPacket (u : State) (msn : BitVec 16) (b : Posted) (final : Bool) (d : List Byte) (ts : BitVec 48) : RxMsg :=
  ⟨msn, b, [0], d.length, if final then some d.length else none, none, d.length, false, false, none, u.timebase, ts⟩

/-- A message of which nothing has been received. -/
def RxMsg.fresh (msn : BitVec 16) (b : Posted) : RxMsg := ⟨msn, b, [], 0, none, none, 0, false, false, none, 0, 0⟩

section
variable {u v : State} {c : Nat} (msn : BitVec 16) {b : Posted} {d : List Byte} {ts : BitVec 48} (size : Nat) (hord : u.ordered c = false)
  (hlen : d.length ≤ b.len) (hplace : u.placeData b.waiter (u.connCtx c) b.va 0 0 65 d = .ok v ts)
include hord hlen hplace

/-- The first packet of a message in a posted buffer is placed whole. -/
theorem placePacket_first (final : Bool) : u.placePacket c { firstPacket u msn b final d 0 with placed := 0 } final 0 d =
    .ok (v.modConn c fun k => { k with ts := max48 k.ts ts }, firstPacket u msn b final d ts) := by
  have hva : b.va + BitVec.ofNat 64 0 = b.va := BitVec.add_zero _
  simp only [State.placePacket, firstPacket, hord, Nat.sub_zero, Nat.min_eq_left hlen, Nat.lt_irrefl, decide_false, Bool.or_false,
    Bool.false_eq_true, if_false, ite_self, List.take_length, hva, hplace, Nat.zero_add]

/-- The only packet of a message completes it (R41). -/
theorem acceptPacket_only : u.acceptPacket c (RxMsg.fresh msn b) true 0 size d = .ok
    (((v.modConn c fun k => { k with ts := max48 k.ts ts }).completeRx c (firstPacket u msn b true d ts) 0).answer c 2 msn 0 0) := by
  have hplaced := placePacket_first msn hord hlen hplace true
  simp only [firstPacket, if_true] at hplaced
  simp only [State.acceptPacket, RxMsg.fresh, Nat.zero_mul, Nat.zero_add, if_true, Nat.le_refl, decide_true, Bool.not_true, Bool.and_false,
    Bool.false_and, Bool.false_eq_true, if_false, hplaced]
  rfl

/-- The first packet of several is kept, and acknowledged (R37, R41). -/
theorem acceptPacket_first : ∃ w : State, u.acceptPacket c (RxMsg.fresh msn b) false 0 size d = .ok (w.answer c 2 msn 0 0) ∧
    ConnOnly (v.modConn c fun k => { k with ts := max48 k.ts ts }) w c ∧
    (w.conn c).rx = firstPacket u msn b false d ts :: (v.conn c).rx.filter fun x => x.msn ≠ msn := by
  let y := v.modConn c fun k => { k with ts := max48 k.ts ts }
  let w := y.modConn c fun k =>
    { k with
      rx := firstPacket u msn b false d ts :: k.rx.filter fun x => x.msn ≠ msn
      nextPidx := if y.ordered c then 1 else k.nextPidx }
  have hplaced := placePacket_first msn hord hlen hplace false
  simp only [firstPacket, Bool.false_eq_true, if_false] at hplaced
  refine ⟨w, ?_, ConnOnly.modConn .., ?_⟩
  · simp only [State.acceptPacket, RxMsg.fresh, Nat.zero_mul, Nat.zero_add, Bool.false_eq_true, if_false, Bool.false_and, hplaced]
    rfl
  · rw [State.modConn_conn_same, State.modConn_conn_same]

end

/-- The conditions under which a packet is the first of its message at a connection (R38 to R40). -/
structure FirstArrival (u : State) (c : Nat) (h : BitVec 128) (d : List Byte) : Prop where
  psz : Hdr.psz h ≠ 3
  len : d.length = Hdr.len h
  max : Hdr.len h ≤ 4096
  done : ∀ x ∈ (u.conn c).done, x.msn ≠ Hdr.msn h
  rx : ∀ m ∈ (u.conn c).rx, m.msn ≠ Hdr.msn h

theorem orWaits_ok (s t : State) : orWaits (.ok t) s = t := rfl

/-- The first packet of a message within reach of RXBASE: in its turn, with a buffer and a free message slot, it is accepted (R38 to R40). -/
def State.startsMessage (s u : State) (c : Nat) (h : BitVec 128) (d : List Byte) (final : Bool) : State :=
  let msn := Hdr.msn h
  let ahead := (msn - u.rxbase c).toNat
  if u.ordered c && (ahead ≠ 0 || Hdr.pidx h ≠ (u.conn c).nextPidx) then u.answer c 3 (u.rxbase c) (u.conn c).nextPidx 0
  else
    match u.bufferFor c ahead with
    | none => u.answer c 4 msn (Hdr.pidx h) 0
    | some (b, own) =>
      if !u.slotFree then u.answer c 4 msn (Hdr.pidx h) 0
      else orWaits (u.acceptPacket c { RxMsg.fresh msn b with own := own } final (Hdr.pidx h) (packetSize (Hdr.psz h)) d) s

section
variable {s u : State} {c : Nat} {h : BitVec 128} {d : List Byte} {final : Bool}

/-- The event that a packet of either kind is received by. -/
theorem data_exec {i : Instr} (hi : (i, final) ∈ [(Instr.dataPacketReceive, false), (.datafPacketReceive, true)]) :
    exec i s = .next (s.receivePacket final) := by
  simp only [List.mem_cons, List.not_mem_nil, or_false, Prod.mk.injEq] at hi
  rcases hi with ⟨rfl, rfl⟩ | ⟨rfl, rfl⟩
  · exact exec_dataPacketReceive s
  · exact exec_datafPacketReceive s

variable (ht : s.takeFrame (b2n final) = .ok u c h d)
include ht

/-- A packet whose header does not fit it is dropped (log 70). -/
theorem receivePacket_malformed (hbad : Hdr.psz h = 3 ∨ d.length ≠ Hdr.len h ∨ 4096 < Hdr.len h) : s.receivePacket final = u := by
  simp only [State.receivePacket, ht]
  exact if_pos (by simpa [or_assoc] using hbad)

variable (hf : FirstArrival u c h d)
include hf

/-- The first packet of a message by how far its MSN is ahead of RXBASE (R40, R45). -/
theorem receivePacket_first : let ahead := (Hdr.msn h - u.rxbase c).toNat
    s.receivePacket final = if 2 ^ 16 - 64 ≤ ahead then u.answer c 2 (Hdr.msn h) (Hdr.pidx h) 0
      else if 64 ≤ ahead then u else s.startsMessage u c h d final := by
  have hdone : (u.conn c).done.find? (fun x => x.msn = Hdr.msn h) = none := List.find?_eq_none.2 fun x hx => by simpa using hf.done x hx
  have hrx : (u.conn c).rx.find? (fun x => x.msn = Hdr.msn h) = none := List.find?_eq_none.2 fun x hx => by simpa using hf.rx x hx
  simp only [State.receivePacket, ht]
  rw [if_neg (by simp [hf.psz, hf.len, hf.max]), hdone, hrx]
  rfl

end

section
variable (s : State) {u : State} {c : Nat} {h : BitVec 128} (d : List Byte) (final : Bool)

/-- Out of order on an ordered connection (R40). -/
theorem startsMessage_disordered (ho : u.ordered c = true) (h0 : (Hdr.msn h - u.rxbase c).toNat ≠ 0 ∨ Hdr.pidx h ≠ (u.conn c).nextPidx) :
    s.startsMessage u c h d final = u.answer c 3 (u.rxbase c) (u.conn c).nextPidx 0 :=
  if_pos (by simpa [ho] using h0)

variable (ho : u.ordered c = false)
include ho

/-- No buffer has been posted for it (R38). -/
theorem startsMessage_unbuffered (hb : u.bufferFor c (Hdr.msn h - u.rxbase c).toNat = none) :
    s.startsMessage u c h d final = u.answer c 4 (Hdr.msn h) (Hdr.pidx h) 0 := by
  rw [State.startsMessage, if_neg (by simp [ho]), hb]

theorem startsMessage_buffered {b : Posted} (hb : u.bufferFor c (Hdr.msn h - u.rxbase c).toNat = some (b, none)) (hslot : u.slotFree = true) :
    s.startsMessage u c h d final =
      orWaits (u.acceptPacket c (RxMsg.fresh (Hdr.msn h) b) final (Hdr.pidx h) (packetSize (Hdr.psz h)) d) s := by
  rw [State.startsMessage, if_neg (by simp [ho]), hb]
  exact if_neg (by simp [hslot])

end

/-! ### Messages abandoned (R42) -/

theorem messageAbandon_eq {s : State} {m : RxMsg} (hm : (s.conn s.ev.a).rx.find? (fun m => m.msn = BitVec.ofNat 16 s.ev.b) = some m) :
    exec .messageAbandon s = .next (if (s.timebase - m.last).toNat < 64000 * s.regBits Reg.netcfg 47 32 then s else s.completeRx s.ev.a m 3) := by
  show execMessageAbandon s = _
  simp only [execMessageAbandon, hm]

/-- Settles O48: the registers of a connection, answers, timers, packets received, then a message abandoned. -/
theorem connectionEvents : Obligations.ConnectionEvents := by
  unfold Obligations.ConnectionEvents
  refine ⟨fun s => ?_, fun s u c h d => ?_, fun s i late m q hi hm hq => ?_, fun s u c h d final i hi ht => ?_⟩
  · intro c
    refine ⟨keyWrite_ignored, fun hc hen => ?_, fun hc => ⟨connEnable_none hc, connDisable_none hc⟩, fun hc hen => ?_,
      fun hc hen htx hposted => ⟨_, connDisable_idle hc hen htx hposted, State.connCloses_fields s.ev.w htx⟩⟩
    · exact ⟨_, keyWrite_completes hc hen, s.takesKey_fields c s.ev.w⟩
    · obtain ⟨t, hrun, ht⟩ : ∃ t, exec .connEnable s = .next t ∧ t = _ := ⟨_, connEnable_eq hc hen, rfl⟩
      refine ⟨t, hrun, ?_, fun h3 => ?_, fun h3 hkey => ?_, fun h3 hkey hiv => ?_⟩
      · rw [ht]
        split
        · exact State.connFails_mem ..
        · split
          · exact State.connFails_mem ..
          · exact State.connOpens_mem ..
      · obtain ⟨hst, herr, hen'⟩ := s.connFails_fields c (connWord c false s.ev.w) (show 5 < 16 by decide)
        rw [ht, if_pos h3]
        exact ⟨by rw [State.connOpen, hst]; rfl, hst, herr, hen'.trans (bits_connWord_en ..)⟩
      · obtain ⟨hst, herr, -⟩ := s.connFails_fields c (connWord c true s.ev.w) (show 6 < 16 by decide)
        rw [ht, if_neg h3, if_pos hkey]
        exact ⟨hst, herr⟩
      · obtain ⟨hopen, hen', hbase, hmsn⟩ := s.connOpens_fields c (connWord c true s.ev.w)
        rw [ht, if_neg h3, if_neg (not_or.2 ⟨ne_false_of_eq_true hkey, Nat.not_le.2 hiv⟩)]
        refine ⟨hopen, hen'.trans (bits_connWord_en ..), hbase, hmsn, ?_, ?_⟩ <;> rw [State.connOpens, State.modConn_conn_same]
  · refine ⟨fun ht => ⟨ackReceive_unknown ht, fun m hm hp => ackReceive_early ht hm hp, fun m r hm hp hr hs ha => ?_⟩,
      fun ht => ⟨fun ho => ?_, fun ho => ?_⟩, fun ht => ?_, fun op i hi => ?_, fun op ht => takeFrame_discard ht⟩
    · refine ⟨_, ackReceive_final ht hm hp hr hs ha, rfl, ?_, State.setCoreCtx_coreCtx_same ..⟩
      rw [State.setCoreCtx_conn, State.modConn_conn_same]
    · rw [nakReceive_ok ht, if_neg (ne_true_of_eq_false ho)]
    · rw [nakReceive_ok ht, if_pos ho]
    · refine ⟨_, nobufReceive_ok ht, rfl, fun k hk => State.modConn_conn_ne _ _ hk, fun m q htx hm hps hq hack => ?_⟩
      refine ⟨_, _, modPacket_single _ _ _ htx hm hps hq, rfl, ?_⟩
      rw [Packet.backedOff, hack]
      exact ⟨rfl, rfl, rfl, rfl⟩
    · exact receive_nothing hi
  · intro us
    rw [timer_exec hi, packetTimer_eq late hm hq]
    refine ⟨fun h => congrArg _ (if_pos h), fun hc => ?_, fun hc ha hqd hn hs hdue => ?_⟩
    · rw [retryPacket_closed _ _ hc, ite_self]
    · have hnow : ¬ (q.acked = true ∨ q.queued = true ∨ q.nobuf ≠ late ∨ (q.sent ≠ 0 ∧ (s.timebase - q.last).toNat < 1000 * us)) :=
        not_or.2 ⟨ne_true_of_eq_false ha, not_or.2 ⟨ne_true_of_eq_false hqd, not_or.2 ⟨not_not.2 hn, fun h => Nat.not_lt.2 hdue h.2⟩⟩⟩
      rw [if_neg hnow, retryPacket_open _ hc hs]
      exact ⟨fun h => congrArg _ (if_pos h), fun h => congrArg _ (if_neg (Nat.not_le.2 h))⟩
  · intro msn ahead
    rw [data_exec hi]
    refine ⟨fun hbad => congrArg _ (receivePacket_malformed ht hbad), fun hp hl hmax hd hr => ?_, fun s m hm => ?_⟩
    · have hrun := receivePacket_first ht ⟨hp, hl, hmax, hd, hr⟩
      have hnear (hlt : ahead < 64) : s.receivePacket final = s.startsMessage u c h d final := by
        rw [hrun, if_neg (Nat.not_le.2 (Nat.lt_trans hlt (by decide))), if_neg (Nat.not_le.2 hlt)]
      refine ⟨fun hge hlt => ?_, fun hge => ?_, fun hlt ho h0 => ?_, fun hlt ho hb => ?_, fun b v ts hlt ho hb hslot hpidx hfit hplace => ?_⟩
      · rw [hrun, if_neg (Nat.not_le.2 hlt), if_pos hge]
      · rw [hrun, if_pos hge]
      · rw [hnear hlt, startsMessage_disordered s d final ho h0]
      · rw [hnear hlt, startsMessage_unbuffered s d final ho hb]
      · intro y
        rw [hnear hlt, startsMessage_buffered s d final ho hb hslot, hpidx]
        refine ⟨fun hfinal => ?_, fun hfinal => ?_⟩ <;> subst hfinal
        · refine ⟨firstPacket u msn b true d ts, ?_, rfl, rfl, rfl, rfl⟩
          rw [acceptPacket_only msn _ ho hfit hplace, orWaits_ok]
        · obtain ⟨w, hw, honly, hrx⟩ := acceptPacket_first msn (packetSize (Hdr.psz h)) ho hfit hplace
          exact ⟨w, by rw [hw, orWaits_ok], honly.outside, _, hrx, rfl, rfl, rfl⟩
    · rw [messageAbandon_eq hm]
      exact ⟨fun h => congrArg _ (if_pos h), fun h => congrArg _ (if_neg (Nat.not_lt.2 h))⟩

end Sys2Proof.Machine
end

section
/-! SUPPORT. What lines dropped without write-back leave alone, and what an entry of an event ring does. -/

namespace Sys2Proof.Machine

/-! ### Lines dropped (R60, R119, R196) -/

/-- From `s` to `t` locks have been released: nothing but lock quotas and L2 lines has changed. -/
structure LocksOnly (s t : State) : Prop where
  outside : t = { s with mgmt := t.mgmt, coh := { s.coh with l2 := t.coh.l2 } }
  reg : ∀ o, (∀ c : BitVec 12, o ≠ Reg.lquota c.toNat) → t.reg o = s.reg o

theorem LocksOnly.rfl (s : State) : LocksOnly s s := ⟨Eq.refl _, fun _ _ => Eq.refl _⟩

theorem LocksOnly.trans {s t u : State} (a : LocksOnly s t) (b : LocksOnly t u) : LocksOnly s u :=
  ⟨by rw [b.outside, a.outside], fun o h => (b.reg o h).trans (a.reg o h)⟩

theorem LocksOnly.foldl {α : Type} (f : State → α → State) (h : ∀ s x, LocksOnly s (f s x)) (l : List α) (s : State) : LocksOnly s (l.foldl f s) := by
  induction l generalizing s with
  | nil => exact .rfl s
  | cons x r ih => exact (h s x).trans (ih _)

theorem LocksOnly.unlockAll (s : State) (line : Nat) : LocksOnly s (s.unlockAll line) := by
  unfold State.unlockAll
  split
  · exact .rfl s
  · refine LocksOnly.trans (LocksOnly.foldl _ (fun u c => ?_) _ s) ⟨Eq.refl _, fun _ _ => Eq.refl _⟩
    exact ⟨Eq.refl _, fun o h => State.setRegBits_reg_ne _ _ _ _ (h c)⟩

/-- The state in which the locks of the lines to be dropped have been released. -/
def State.unlocked (s : State) (p : Nat → Bool) : State := (s.coh.l2.filter fun l => p l.line).foldl (fun s l => s.unlockAll l.line) s

theorem State.unlocked_locksOnly (s : State) (p : Nat → Bool) : LocksOnly s (s.unlocked p) := 
  LocksOnly.foldl (fun u (l : L2Line) => u.unlockAll l.line) (fun u l => .unlockAll u l.line) _ s

/-- Lines dropped leave memory, poison, groups and all that stands outside the caches. -/
theorem discardLines_outside (s : State) (p : Nat → Bool) : s.discardLines p =
    { s with mgmt := (s.discardLines p).mgmt, cores := (s.discardLines p).cores, coh := (s.discardLines p).coh } := by
  show _ = { s with mgmt := (s.unlocked p).mgmt, cores := (s.discardLines p).cores, coh := (s.discardLines p).coh }
  conv_lhs => rw [State.discardLines]; change { s.unlocked p with cores := (s.discardLines p).cores, coh := (s.discardLines p).coh }
  rw [(s.unlocked_locksOnly p).outside]

theorem discardLines_reg (s : State) (p : Nat → Bool) {o : Nat} (h : ∀ c : BitVec 12, o ≠ Reg.lquota c.toNat) : (s.discardLines p).reg o = s.reg o :=
  (s.unlocked_locksOnly p).reg o h

theorem discardLines_l2 (s : State) (p : Nat → Bool) : ∀ l ∈ (s.discardLines p).coh.l2, p l.line = false := fun _ h => by
  simpa using (List.mem_filter.1 h).2

theorem discardLines_l1 (s : State) (p : Nat → Bool) : ∀ y ∈ (s.discardLines p).cores, ∀ l ∈ y.2.l1, p l.line = false := by
  intro y hy l hl
  obtain ⟨x, -, rfl⟩ := List.mem_map.1 hy
  simpa using (List.mem_filter.1 hl).2

theorem lostd_ne_lquota (c : BitVec 12) : Reg.lostd ≠ Reg.lquota c.toNat := by unfold Reg.lostd Reg.lquota; omega

/-! ### Event rings leave CXL but its filter -/

theorem overflowOrInterrupt_outside (s : State) (c : BitVec 12) : let t := if s.ringFull c then s.ringOverflow c else s.considerInterrupt c
    t = { s with mgmt := t.mgmt, que := t.que } := by
  dsimp only
  split
  · rfl
  · simp only [State.considerInterrupt]
    split <;> rfl

/-- An entry written is words of memory written, and the registers and counts of its ring. -/
theorem writeEntry_outside (s : State) (c : BitVec 12) (e : List Word) : s.writeEntry c e =
    { s.writeWords (s.ringEntryPa c) e with mgmt := (s.writeEntry c e).mgmt, que := (s.writeEntry c e).que } :=
  overflowOrInterrupt_outside _ c

theorem postEntry_cxl (s : State) (c : BitVec 12) (e : List Word) : (s.postEntry c e).cxl = { s.cxl with filter := (s.postEntry c e).cxl.filter } := by
  simp only [State.postEntry]
  split
  · split <;> rfl
  · rw [writeEntry_outside]
    exact (writeWords_keeps s (s.ringEntryPa c) e).cxl

end Sys2Proof.Machine
end

section
/-! SUPPORT. Registered images: the checks of a registration, the entry it takes, and what unregistering leaves. -/

namespace Sys2Proof.Machine

/-! ### Registered images (R62, R63) -/

/-- The hash of an image, as its KHASH. -/
def imageHash (m : Image) : BitVec 384 := Config.sha384 (bytesOfWords (m.header ++ m.launch ++ m.code))

/-- The header or a length of an image is wrong. -/
def malformedImage (m : Image) : Bool :=
  let w := m.header.getD 0 0
  bits w 63 32 ≠ 0x4B494D47 || 16 ≤ bits w 31 24 || m.header.length ≠ 8 || (m.header.drop 1).any (fun x => x ≠ 0) ||
    m.launch.length ≠ 32 || bits w 23 0 ≠ m.code.length || 2 ^ 21 < m.code.length || m.ed25519.length ≠ 64 || m.mldsa.length ≠ 3309

/-- A registered image has the hash. -/
def State.registered (s : State) (h : BitVec 384) : Bool := s.cxl.kernels.any fun x => x.2.any fun k => k.khash = h && !k.unregistered

/-- The lowest free entry of the table. -/
def State.freeEntry (s : State) : Option Nat := (List.range 1024).find? fun i => Tab.get none s.cxl.kernels i = none

/-- A status and an entry, from what each check of R63 finds in turn and the free entry. -/
def registerChecks (bad signed sealed known : Bool) (free : Option Nat) : Nat × Nat :=
  if bad then (1, 0) else if !signed then (2, 0) else if !sealed then (3, 0) else if known then (4, 0)
  else match free with
    | some i => (0, i)
    | none => (5, 0)

/-- The status of a registration, its checks in the order of R63. -/
def State.registerStatus (s : State) (m : Image) : Nat :=
  let key := Config.keySlot (BitVec.ofNat 4 (bits (m.header.getD 0 0) 31 24))
  if malformedImage m then 1 else if !Config.ed25519Ok key (imageHash m) m.ed25519 then 2 else if !Config.mldsaOk key (imageHash m) m.mldsa then 3
  else if s.registered (imageHash m) then 4 else if s.freeEntry = none then 5 else 0

theorem imageStatus_checks (s : State) (m : Image) :
    let key := Config.keySlot (BitVec.ofNat 4 (bits (m.header.getD 0 0) 31 24))
    s.imageStatus m = registerChecks (malformedImage m) (Config.ed25519Ok key (imageHash m) m.ed25519)
      (Config.mldsaOk key (imageHash m) m.mldsa) (s.registered (imageHash m)) s.freeEntry := by
  intro key
  unfold State.imageStatus registerChecks
  refine ite_congr (congrArg (· = true) ?_) (fun _ => rfl) fun _ => ite_congr rfl (fun _ => rfl) fun _ => ite_congr rfl (fun _ => rfl) fun _ =>
    ite_congr (congrArg (· = true) ?_) (fun _ => rfl) fun _ => ?_
  · simp only [malformedImage, List.not_all_eq_any_not, decide_not]
  · rw [State.registered]
    congr 1
    funext x
    cases x.2 <;> rfl
  · have hfree : ((List.range 1024).find? fun i => (Tab.get none s.cxl.kernels i).isNone) = s.freeEntry := by
      rw [State.freeEntry]
      congr 1
      funext i
      cases Tab.get none s.cxl.kernels i <;> rfl
    cases h : s.freeEntry with
    | none => simp only [hfree, h]
    | some i => simp only [hfree, h]

theorem imageStatus_eq (s : State) (m : Image) :
    s.imageStatus m = (s.registerStatus m, if s.registerStatus m = 0 then s.freeEntry.getD 0 else 0) := by
  rw [imageStatus_checks]
  unfold State.registerStatus registerChecks
  dsimp only
  split
  · rfl
  · split
    · rfl
    · split
      · rfl
      · split
        · rfl
        · cases s.freeEntry <;> rfl

/-- The table and the L1s after a registration that took entry `i`. -/
def State.withImage (s : State) (m : Image) (i : Nat) : State :=
  { s with
    cxl := { s.cxl with kernels := Tab.set none s.cxl.kernels i (some ⟨imageHash m, m.launch, m.code, false⟩) }
    cores := s.cores.map fun (j, r) => (j, { r with l1 := r.l1.filter fun l =>
      !((2 ^ 52 + i * 2 ^ 24) / 128 ≤ l.line && l.line < (2 ^ 52 + i * 2 ^ 24) / 128 + 2 ^ 17) }) }

theorem imageRegister_eq (s : State) : exec .imageRegister s = .next (
    let t : State := { s with cxl := { s.cxl with mailboxStatus := s.cxl.mailboxStatus ++ [s.registerStatus s.ev.image] } }
    if s.registerStatus s.ev.image = 0 then t.withImage s.ev.image (s.freeEntry.getD 0) else t) := by
  show execImageRegister s = _
  simp only [execImageRegister, imageStatus_eq, ite_not]
  split <;> rfl

theorem withImage_kernels (s : State) (m : Image) (i : Nat) :
    (s.withImage m i).cxl.kernels = Tab.set none s.cxl.kernels i (some ⟨imageHash m, m.launch, m.code, false⟩) := rfl

theorem withImage_entry (s : State) (m : Image) (i : Nat) :
    Tab.get none (s.withImage m i).cxl.kernels i = some ⟨imageHash m, m.launch, m.code, false⟩ := by
  rw [withImage_kernels, Tab.get_set_same]

theorem withImage_entry_ne (s : State) (m : Image) {i j : Nat} (h : j ≠ i) :
    Tab.get none (s.withImage m i).cxl.kernels j = Tab.get none s.cxl.kernels j := by
  rw [withImage_kernels, Tab.get_set_other _ _ _ h]

/-- No L1 keeps a line of the window of an entry that has just been taken. -/
theorem withImage_l1 (s : State) (m : Image) (i : Nat) :
    ∀ x ∈ (s.withImage m i).cores, ∀ l ∈ x.2.l1, (128 * l.line) / 2 ^ 24 ≠ 2 ^ 28 + i := by
  intro x hx l hl
  obtain ⟨y, -, rfl⟩ := List.mem_map.1 hx
  have hline := (List.mem_filter.1 hl).2
  simp only [Bool.not_eq_true', Bool.and_eq_false_iff, decide_eq_false_iff_not] at hline
  omega

theorem imageRegister (s : State) : ∃ t : State, exec .imageRegister s = .next t ∧
    t.cxl.mailboxStatus = s.cxl.mailboxStatus ++ [s.registerStatus s.ev.image] ∧
    t = { s with cxl := { s.cxl with kernels := t.cxl.kernels, mailboxStatus := t.cxl.mailboxStatus }, cores := t.cores } ∧
    (s.registerStatus s.ev.image ≠ 0 → t.cxl.kernels = s.cxl.kernels ∧ t.cores = s.cores) ∧
    (∀ i, s.registerStatus s.ev.image = 0 → s.freeEntry = some i →
      Tab.get none t.cxl.kernels i = some ⟨imageHash s.ev.image, s.ev.image.launch, s.ev.image.code, false⟩ ∧
      (∀ j, j ≠ i → Tab.get none t.cxl.kernels j = Tab.get none s.cxl.kernels j) ∧
      ∀ x ∈ t.cores, ∀ l ∈ x.2.l1, (128 * l.line) / 2 ^ 24 ≠ 2 ^ 28 + i) := by
  refine ⟨_, imageRegister_eq s, ?_⟩
  dsimp only
  by_cases h : s.registerStatus s.ev.image = 0
  · rw [if_pos h]
    refine ⟨rfl, rfl, fun h' => absurd h h', fun i _ hi => ?_⟩
    rw [hi]
    exact ⟨withImage_entry .., fun j hj => withImage_entry_ne _ _ hj, withImage_l1 _ _ i⟩
  · rw [if_neg h]
    exact ⟨rfl, rfl, fun _ => ⟨rfl, rfl⟩, fun _ h' => absurd h' h⟩

/-- The entry of a kernel once the images of a hash are unregistered. -/
def unregister (h : BitVec 384) (x : Nat × Option Kernel) : Nat × Option Kernel :=
  match x.2 with
  | some k => if k.khash = h then (x.1, some { k with unregistered := true }) else x
  | none => x

theorem unregister_fst (h : BitVec 384) (x : Nat × Option Kernel) : (unregister h x).1 = x.1 := by
  obtain ⟨i, k⟩ := x
  cases k with
  | none => rfl
  | some k => by_cases hk : k.khash = h <;> simp [unregister, hk]

theorem unregister_other {h : BitVec 384} (i : Nat) {k : Kernel} (hk : k.khash ≠ h) : unregister h (i, some k) = (i, some k) := if_neg hk

theorem unregistered_of_unregister {h : BitVec 384} {x : Nat × Option Kernel} {k : Kernel} (hx : (unregister h x).2 = some k) (hk : k.khash = h) :
    k.unregistered = true := by
  obtain ⟨i, y⟩ := x
  cases y with
  | none => cases hx
  | some y =>
    by_cases hy : y.khash = h
    · rw [unregister] at hx
      simp only [hy, if_true, Option.some.injEq] at hx
      rw [← hx]
    · rw [unregister_other i hy] at hx
      cases hx
      exact absurd hk hy

theorem kernelOf_eq_none {s : State} {h : BitVec 384} (hs : ∀ x ∈ s.cxl.kernels, ∀ k, x.2 = some k → k.khash = h → k.unregistered = true) :
    s.kernelOf h = none := by
  rw [State.kernelOf, Option.map_eq_none_iff, List.find?_eq_none]
  intro ⟨i, k⟩ hx
  cases k with
  | none => exact Bool.false_ne_true
  | some k =>
    show ¬ (decide (k.khash = h) && !k.unregistered) = true
    by_cases hk : k.khash = h
    · simp [hs _ hx k rfl hk]
    · simp [hk]

/-- The first entry of a key outlives a change and a selection that leave it as it is and every entry its key. -/
theorem Tab.get_filter_map {α : Type} (d : α) (f : Nat × α → Nat × α) (p : Nat × α → Bool) (hf : ∀ x, (f x).1 = x.1) {t : Tab α} {i : Nat}
    {v : α} (hv : Tab.get d t i = v) (hd : v ≠ d) (hfix : f (i, v) = (i, v)) (hp : p (i, v) = true) : Tab.get d ((t.map f).filter p) i = v := by
  induction t with
  | nil => exact absurd hv.symm hd
  | cons x r ih =>
    obtain ⟨j, w⟩ := x
    by_cases hj : j = i
    · have hw : w = v := by simpa [Tab.get, hj] using hv
      rw [List.map_cons, hj, hw, hfix, List.filter_cons_of_pos hp]
      simp [Tab.get]
    · have hr : Tab.get d r i = v := by simpa [Tab.get, hj] using hv
      have hfj : (f (j, w)).1 ≠ i := by rw [hf]; exact hj
      rw [List.map_cons, List.filter_cons]
      split
      · rw [← ih hr]
        simp [Tab.get, hfj]
      · exact ih hr

theorem imageUnregister (s : State) : let h := BitVec.ofNat 384 (leNat (bytesOfWords s.ev.words))
    ∃ t : State, exec .imageUnregister s = .next t ∧ t = { s with cxl := { s.cxl with kernels := t.cxl.kernels } } ∧ t.kernelOf h = none ∧
      ∀ i k, Tab.get none s.cxl.kernels i = some k → k.khash ≠ h → k.unregistered = false → Tab.get none t.cxl.kernels i = some k := by
  intro h
  refine ⟨({ s with cxl := { s.cxl with kernels := s.cxl.kernels.map (unregister h) } } : State).freeKernels, rfl, rfl, ?_, fun i k hk hh hu => ?_⟩
  · refine kernelOf_eq_none fun x hx k hk hkh => ?_
    obtain ⟨y, -, rfl⟩ := List.mem_map.1 (List.mem_filter.1 hx).1
    exact unregistered_of_unregister hk hkh
  · refine Tab.get_filter_map none (unregister h) _ (unregister_fst h) hk (Option.some_ne_none k) (unregister_other i hh) ?_
    simp [hu]

end Sys2Proof.Machine
end

section
/-! SUPPORT. The mailbox and the task intake, results of tasks sent, the loss of an expander's range, and the clearing of LOSTD and VIRAL. -/

namespace Sys2Proof.Machine

/-! ### The mailbox and the intake (R64 to R67, R392) -/

theorem mailboxDoorbell (s : State) (h n : BitVec 6) (ha : s.ev.a = h.toNat) (hb : s.ev.b = n.toNat) :
    let ws := if s.ev.words = [] then Tab.get [] s.cxl.slots (64 * h.toNat + n.toNat) else padTo 32 s.ev.words
    exec .mailboxDoorbell s = .next (if Config.fittingL then { s with cxl := { s.cxl with
      slots := Tab.set [] s.cxl.slots (64 * h.toNat + n.toNat) ws, packets := s.cxl.packets ++ [(3968 + h.toNat, true, padTo 32 ws)] } } else s) := by
  intro ws
  have hlh := h.isLt
  have hln := n.isLt
  show execMailboxDoorbell s = _
  simp only [execMailboxDoorbell, ha, hb, List.isEmpty_iff]
  cases Config.fittingL
  · rfl
  · rw [if_neg (by simp; omega)]
    rfl

theorem taskPacketIntake_idle {s : State} (hs : s.cxl.starting = none) (hp : s.cxl.packets = []) : exec .taskPacketIntake s = .next s := by
  show execTaskPacketIntake s = _
  simp only [execTaskPacketIntake, hs, hp]

theorem taskPacketIntake_starting {s : State} {t : Task} {args : List Word} (hs : s.cxl.starting = some (t, args)) :
    exec .taskPacketIntake s = .next (s.startAdmitted t args) := by
  show execTaskPacketIntake s = _
  simp only [execTaskPacketIntake, hs]

theorem packetStatus_malformed (s : State) (c : Nat) (io : Bool) {w : List Word}
    (h : bits (w.getD 0 0) 63 56 ≠ 1 ∨ 20 < bits (w.getD 0 0) 55 51 ∨ bits (w.getD 8 0) 49 0 ≠ 0) : s.packetStatus c io w = 1 := by
  simp only [State.packetStatus]
  refine if_pos ?_
  simp only [Bool.or_eq_true, decide_eq_true_eq]
  tauto

/-- The task that a packet asks for. -/
def State.packetTask (s : State) (c : Nat) (io : Bool) (w : List Word) : Task :=
  ⟨c, io, w.getD 9 0, w.getD 1 0, BitVec.ofNat 12 (bits (w.getD 0 0) 47 36), (s.kernelOf (khashOf w)).getD 0, 0⟩

theorem taskPacketIntake_packet {s : State} {c : Nat} {io : Bool} {w : List Word} {r : List (Nat × Bool × List Word)}
    (hs : s.cxl.starting = none) (hp : s.cxl.packets = (c, io, w) :: r) :
    let t := s.packetTask c io w
    let a : State := { s with cxl := { s.cxl with packets := r } }
    let b : State := a.modConn c fun n => { n with lastSerial := w.getD 1 0 }
    let args := (w.drop 10).take 20
    exec .taskPacketIntake s = .next (if s.packetStatus c io w ≠ 0 then a.sendResult t (s.packetStatus c io w)
      else ({ b with cxl := { b.cxl with starting := some (t, args) } } : State).startAdmitted t args) := by
  show execTaskPacketIntake s = _
  simp only [execTaskPacketIntake, hs, hp, State.popPacket, List.drop_one, List.tail_cons]
  rfl

section
variable {s : State} {t : Task} (args : List Word)

/-- The launch of a task, before its record is checked. -/
def launchOfTask (t : Task) (n : Kernel) : Launch := { Launch.none with ctx := t.ctx, task := true, words := n.launch }

/-- The task that is starting ends before its launch, with a status. -/
def State.refusesTask (u : State) (t : Task) (st : Nat) : State :=
  (({ u.clearVerdicts .intake with cxl := { u.cxl with starting := none } } : State).sendResult t st).freeKernels

variable {n : Kernel} (hn : Tab.get none s.cxl.kernels t.kernel = some n)
include hn

theorem startAdmitted_wait {u : State} (h : s.checkRecord .intake (launchOfTask t n) = .wait u) : s.startAdmitted t args = u := by
  unfold launchOfTask at h
  simp only [State.startAdmitted, hn, h]

theorem startAdmitted_bad {u : State} {chk : Nat} (h : s.checkRecord .intake (launchOfTask t n) = .bad u chk) :
    s.startAdmitted t args = u.refusesTask t 9 := by
  unfold launchOfTask at h
  simp only [State.startAdmitted, hn, h]
  rfl

variable {u : State} {l : Launch} (h : s.checkRecord .intake (launchOfTask t n) = .ok u l)
include h

theorem startAdmitted_refused (hr : u.refusesLaunch l = true) : s.startAdmitted t args = u.refusesTask t 9 := by
  unfold launchOfTask at h
  simp only [State.startAdmitted, hn, h, hr, if_true]
  rfl

variable (hr : u.refusesLaunch l = false)
include hr

theorem startAdmitted_argsWait {v : State} (hw : u.writeArgs t.ctx l.argb 0 4 (bytesOfWords args) = .wait v) : s.startAdmitted t args = v := by
  unfold launchOfTask at h
  simp only [State.startAdmitted, hn, h, hr, hw, Bool.false_eq_true, if_false]

theorem startAdmitted_argsFault {v : State} {kd : BitVec 8} (hw : u.writeArgs t.ctx l.argb 0 4 (bytesOfWords args) = .fault v kd) :
    s.startAdmitted t args = v.refusesTask t (if kd = 5 then 8 else 9) := by
  unfold launchOfTask at h
  simp only [State.startAdmitted, hn, h, hr, hw, Bool.false_eq_true, if_false]
  rfl

/-- An accepted task has its launch, under a key of its own. -/
theorem startAdmitted_launches {v : State} {ts : BitVec 48} (hw : u.writeArgs t.ctx l.argb 0 4 (bytesOfWords args) = .ok v ts) :
    ∃ (z : State) (key : Nat), s.startAdmitted t args = z ∧ key = v.seqCtr ∧ z.launch key = { l with stamp := key } ∧
      z.cxl.tasks = v.cxl.tasks ++ [{ t with launch := key }] ∧ z.cxl.starting = none ∧ z.cxl.packets = v.cxl.packets ∧ z.net = v.net ∧
      z.mem = v.mem := by
  unfold launchOfTask at h
  refine ⟨_, v.seqCtr, rfl, rfl, ?_⟩
  simp only [State.startAdmitted, hn, h, hr, hw, Bool.false_eq_true, if_false]
  exact ⟨Tab.get_set_same _ _ _ _, rfl, rfl, rfl, rfl, rfl⟩

end

/-! ### Results of tasks sent (R67, R375) -/

theorem padTo_getD (l : List Word) {n i : Nat} (h : i < n) : (padTo n l).getD i 0 = l.getD i 0 := by
  rw [padTo, List.getD_eq_getElem?_getD, List.getD_eq_getElem?_getD, List.getElem?_take_of_lt h]
  by_cases hi : i < l.length
  · rw [List.getElem?_append_left hi]
  · rw [List.getElem?_append_right (Nat.le_of_not_lt hi), List.getElem?_replicate, List.getElem?_eq_none (Nat.le_of_not_lt hi)]
    split <;> rfl

/-- A result for connection `c` that no task awaits changes nothing. -/
theorem giveResult_none {s : State} {c : Nat} {w : List Word} (h : (s.conn c).awaiting.find? (fun a => a.serial = w.getD 1 0) = none) :
    s.giveResult c w = s := by
  simp only [State.giveResult, h]

theorem giveResult_ends {s : State} {c : Nat} {w : List Word} {a : Await} (h : (s.conn c).awaiting.find? (fun a => a.serial = w.getD 1 0) = some a)
    (hr : s.resultWaits a.cmd a.va = none) : s.giveResult c w = s.endTask c a w := by
  simp only [State.giveResult, h, hr]

theorem giveResult_kept {s v : State} {c : Nat} {w : List Word} {a : Await} (h : (s.conn c).awaiting.find? (fun a => a.serial = w.getD 1 0) = some a)
    (hr : s.resultWaits a.cmd a.va = some v) :
    s.giveResult c w = { v with cxl := { v.cxl with results := v.cxl.results ++ [(c, w)] } } := by
  simp only [State.giveResult, h, hr]

theorem taskResultReceive_io {s : State} (h : s.ev.flag = true) : exec .taskResultReceive s = .next (s.giveResult s.ev.a (padTo 4 s.ev.words)) :=
  congrArg Host.Outcome.next (if_pos h)

theorem taskResultReceive_idle {s : State} (h : s.ev.flag = false) (hr : s.cxl.results = []) : exec .taskResultReceive s = .next s := by
  show execTaskResultReceive s = _
  simp only [execTaskResultReceive, h, hr, Bool.false_eq_true, if_false]

theorem taskResultReceive_net {s : State} {c : Nat} {w : List Word} {r : List (Nat × List Word)} (h : s.ev.flag = false)
    (hr : s.cxl.results = (c, w) :: r) :
    exec .taskResultReceive s = .next (({ s with cxl := { s.cxl with results := r } } : State).giveResult c (padTo 4 w)) := by
  show execTaskResultReceive s = _
  simp only [execTaskResultReceive, h, hr, Bool.false_eq_true, if_false]

/-- Messages taken back leave the tasks that are awaited. -/
theorem takeBack_awaiting (s : State) (c : Nat) (msn : BitVec 16) : ((s.takeBack c msn).conn c).awaiting = (s.conn c).awaiting := by
  have h := congrArg Conn.awaiting (State.modConn_conn_same s c fun k => { k with tx := k.tx.filter fun x => x.msn ≠ msn })
  exact h

theorem foldl_takeBack (l : List TxMsg) (c : Nat) (s : State) : let t := l.foldl (fun v m => v.takeBack c m.msn) s
    (t.conn c).awaiting = (s.conn c).awaiting ∧ t.timebase = s.timebase := by
  induction l generalizing s with
  | nil => exact ⟨rfl, rfl⟩
  | cons m r ih => exact ⟨(ih _).1.trans (takeBack_awaiting ..), (ih _).2⟩

/-- XTASK_TIMEOUT: the message is taken back, and the task has a local result (R375). -/
theorem xtaskTimeout_eq {s : State} {a : Await} (h : (s.conn s.ev.a).awaiting.find? (fun a => a.serial = s.ev.w) = some a) :
    let u := ((s.conn s.ev.a).tx.filter fun m => m.serial = a.serial).foldl (fun v m => v.takeBack s.ev.a m.msn) s
    exec .xtaskTimeout s = .next (if (s.timebase - a.start).toNat < 100000000 then s
      else u.giveResult s.ev.a (resultWords a.rtag a.serial 0xF s.timebase)) ∧
    (u.conn s.ev.a).awaiting.find? (fun b => b.serial = (resultWords a.rtag a.serial 0xF s.timebase).getD 1 0) = some a := by
  intro u
  obtain ⟨haw, htime⟩ := foldl_takeBack ((s.conn s.ev.a).tx.filter fun m => m.serial = a.serial) s.ev.a s
  have hserial : a.serial = s.ev.w := by simpa using List.find?_some h
  have hu : (u.conn s.ev.a).awaiting.find? (fun b => b.serial = a.serial) = some a := by
    rw [hserial, ← h]
    exact congrArg _ haw
  refine ⟨?_, hu⟩
  show execXtaskTimeout s = _
  simp only [execXtaskTimeout, h, State.localResult]
  rw [hu, htime]

theorem xtaskTimeout_unknown {s : State} (h : (s.conn s.ev.a).awaiting.find? (fun a => a.serial = s.ev.w) = none) :
    exec .xtaskTimeout s = .next s := by
  show execXtaskTimeout s = _
  simp only [execXtaskTimeout, h]

/-! ### The loss of an expander's range (R118, R119) -/

section
variable (s : State)

theorem hdmRangeLoss_exec : exec .hdmRangeLoss s = .next (s.loseRange s.ev.a) := rfl

theorem hdmRequestTimeout_eq : exec .hdmRequestTimeout s = if ∃ g ∈ s.groups, ∃ a ∈ g.inflight, a.pendingAt (inRange s.ev.a) = true ∧
    10000000 ≤ (s.timebase - a.since).toNat then exec .hdmRangeLoss s else .next s := by
  show execHdmRequestTimeout s = _
  simp only [execHdmRequestTimeout, List.any_eq_true, Bool.and_eq_true, decide_eq_true_eq]
  split <;> rfl

theorem loseRange_none {d : Nat} (h : 8 ≤ d ∨ bit (s.reg Reg.lostd) d = true) : s.loseRange d = s := by
  refine if_pos ?_
  rcases h with h | h <;> simp [h]

theorem loseRange_ofFittingL {d : Nat} (h : Config.fittingL = true) : s.loseRange d = s := if_pos (by simp [h])

/-- The range is marked lost, its lines are dropped, and every group's accesses there fail; cuts of its pages end. -/
def State.rangeDropped (d : Nat) : State := (s.setRegBits Reg.lostd d d 1).discardLines fun l => inRange d (128 * l)

def State.accessesFailed (d : Nat) : State :=
  (s.setRegBits Reg.lostd d d 1).groups.foldl (fun v g => v.failAccesses (s.setRegBits Reg.lostd d d 1) g (inRange d) 6 (BitVec.ofNat 4 d))
    (s.rangeDropped d)

theorem loseRange_eq {d : Nat} (hf : Config.fittingL = false) (hd : d < 8) (hb : bit (s.reg Reg.lostd) d = false) :
    s.loseRange d = ({ s.accessesFailed d with cxl := { (s.accessesFailed d).cxl with
      cuts := (s.accessesFailed d).cxl.cuts.filter fun k => !inRange d (k.page * 2 ^ 15) } } : State).postLink 3 0 d 0 0 :=
  if_neg (by simp [hf, hb]; omega)

theorem rangeDropped_lostd {d : Nat} (hd : d < 8) : bit ((s.rangeDropped d).reg Reg.lostd) d = true := by
  rw [State.rangeDropped, discardLines_reg _ _ lostd_ne_lquota]
  exact (s.setRegBits_flag Reg.lostd true (Nat.lt_trans hd (by decide))).2 rfl

end

/-- A link event leaves the lease cuts. -/
theorem postLink_cuts (s : State) (lkind obj dec retry : Nat) (snap : Word) : (s.postLink lkind obj dec retry snap).cxl.cuts = s.cxl.cuts := by
  rw [State.postLink, postEntry_cxl]

/-! ### LOSTD and VIRAL cleared (R117, R119) -/

theorem lostdClear (s : State) : ∃ t : State, exec .lostdClear s = .next t ∧ t = { s with mgmt := t.mgmt } ∧
    (∀ d, d < 8 → bit (t.reg Reg.lostd) d = (bit (s.reg Reg.lostd) d && !bit s.ev.w d)) ∧ ∀ o, o ≠ Reg.lostd → t.reg o = s.reg o := by
  refine ⟨_, rfl, rfl, fun d hd => ?_, fun o ho => State.setRegBits_reg_ne _ _ _ _ ho⟩
  rw [State.setRegBits_reg_same, bit, getLsbD_setBits, if_pos ⟨Nat.zero_le d, hd, by omega⟩, Nat.sub_zero, testBit_bits]
  simp [hd, show d < 64 by omega, bit]

/-- The context is no longer viral, and what was kept of its entry is gone. -/
def State.viralCleared (s : State) (c : BitVec 12) : State :=
  { s.setRegBits (Reg.contain c.toNat 8) 63 63 0 with sch := { s.sch with viralAt := Tab.set none s.sch.viralAt c.toNat none } }

theorem viralCleared_viral (s : State) (c : BitVec 12) : (s.viralCleared c).viral c = false := by
  have h0 : (s.viralCleared c).regBits (Reg.contain c.toNat 8) 63 63 = 0 := s.setRegBits_regBits_same _ 0 (by decide)
  rw [State.viral, h0]
  rfl

theorem viralCleared_reg (s : State) (c : BitVec 12) {o : Nat} (h : o ≠ Reg.contain c.toNat 8) : (s.viralCleared c).reg o = s.reg o :=
  s.setRegBits_reg_ne _ _ _ h

section
variable {s : State} {c : BitVec 12} (ha : s.ev.a = c.toNat)
include ha

theorem vclr_refused (h : (∃ x ∈ s.sch.launches, x.2.ctx = c ∧ x.2.finished = false) ∨ (∃ x, s.cxl.starting = some x ∧ x.1.ctx = c)) :
    exec .vclr s = .next (s.countReg (Reg.contain c.toNat 24) 31 0) := by
  show execVclr s = _
  simp only [execVclr, ha, BitVec.ofNat_toNat, BitVec.setWidth_eq]
  refine congrArg Host.Outcome.next (if_pos ?_)
  simpa [Option.any_eq_true] using h

theorem vclr_allowed (hl : ∀ x ∈ s.sch.launches, x.2.ctx = c → x.2.finished = true) (hs : ∀ x, s.cxl.starting = some x → x.1.ctx ≠ c) :
    exec .vclr s = .next (s.viralCleared c) := by
  show execVclr s = _
  simp only [execVclr, ha, BitVec.ofNat_toNat, BitVec.setWidth_eq]
  refine congrArg Host.Outcome.next (if_neg ?_)
  simpa [Option.any_eq_true] using ⟨fun k l => hl (k, l), fun x l => hs (x, l)⟩

end

/-- Settles O52: images, the mailbox, the intake and its tasks, results, the loss of a range, LOSTD, then VIRAL. -/
theorem imagesTasksAndExpanderLoss : Obligations.ImagesTasksAndExpanderLoss := by
  unfold Obligations.ImagesTasksAndExpanderLoss
  refine ⟨imageRegister, imageUnregister, mailboxDoorbell, fun s => taskPacketIntake_idle, fun s t args => taskPacketIntake_starting,
    fun s c io w r hs hp => ?_, fun s t args n hn => ?_, fun s => ?_, fun s => ?_, lostdClear,
    fun s c ha => ⟨vclr_refused ha, fun hl hs => ⟨_, vclr_allowed ha hl hs, viralCleared_viral s c, rfl, fun o => viralCleared_reg s c⟩⟩⟩
  · intro ctx k t args b
    have hrun := taskPacketIntake_packet hs hp
    exact ⟨packetStatus_malformed s c io, fun h => hrun.trans (congrArg _ (if_pos h)), fun h => hrun.trans (congrArg _ (if_neg (not_not.2 h)))⟩
  · exact ⟨fun u h => startAdmitted_wait args hn h, fun u chk h => startAdmitted_bad args hn h, fun u l h => ⟨startAdmitted_refused args hn h,
      fun hr => ⟨fun v hw => startAdmitted_argsWait args hn h hr hw, fun v kd hw => startAdmitted_argsFault args hn h hr hw,
        fun v ts hw => startAdmitted_launches args hn h hr hw⟩⟩⟩
  · have hser (w : List Word) : (padTo 4 w).getD 1 0 = w.getD 1 0 := padTo_getD w (by decide)
    refine ⟨fun hf h => ?_, fun a hf h => ?_, taskResultReceive_idle, fun c w r hf hr => ?_, xtaskTimeout_unknown, fun a h => ?_⟩
    · rw [taskResultReceive_io hf, giveResult_none (by rw [hser]; exact h)]
    · rw [taskResultReceive_io hf]
      rw [← hser] at h
      exact ⟨fun hw => congrArg _ (giveResult_ends h hw), fun v hw => congrArg _ (giveResult_kept h hw)⟩
    · intro u
      rw [taskResultReceive_net hf hr, ← hser]
      exact ⟨fun h => congrArg _ (giveResult_none h),
        fun a h => ⟨fun hw => congrArg _ (giveResult_ends h hw), fun v hw => congrArg _ (giveResult_kept h hw)⟩⟩
    · obtain ⟨hrun, hu⟩ := xtaskTimeout_eq h
      rw [hrun]
      refine ⟨fun hlt => congrArg _ (if_pos hlt), fun hge => ?_⟩
      intro u w
      rw [if_neg (Nat.not_lt.2 hge)]
      exact ⟨fun hw => congrArg _ (giveResult_ends hu hw), fun v hw => congrArg _ (giveResult_kept hu hw)⟩
  · intro d late
    refine ⟨fun h => (hdmRequestTimeout_eq s).trans (if_pos h), fun h => (hdmRequestTimeout_eq s).trans (if_neg h),
      fun h => congrArg _ (loseRange_none s h), fun hd hb => ⟨s.loseRange d, rfl, loseRange_ofFittingL s, fun hf => ?_⟩⟩
    intro s0 u v
    refine ⟨rangeDropped_lostd s hd, fun p hp => ?_, loseRange_eq s hf hd hb⟩
    rw [loseRange_eq s hf hd hb, postLink_cuts] at hp
    simpa using (List.mem_filter.1 hp).2

end Sys2Proof.Machine
end

section
/-! SUPPORT. What is outside the part on CXL: the page snoop filter, lease cuts, halves of lines that the host takes, and extents. -/

namespace Sys2Proof.Machine

/-! ### The page snoop filter (R50 to R52) -/

@[simp] theorem State.setFilter_filter_same (s : State) (page : Nat) (f : Filter) : (s.setFilter page f).filter page = f := Tab.get_set_same _ _ _ _

theorem foldl_headSend (l : List HeadMsg) (s : State) :
    l.foldl State.headSend s = { s with cxl := { s.cxl with headOut := s.cxl.headOut ++ l } } := by
  induction l generalizing s with
  | nil => simp
  | cons m r ih => rw [List.foldl_cons, ih, State.headSend]; simp

/-- The messages of a page snoop, head by head. -/
def snoopMsgs (page : Nat) (v : BitVec 64) (inv : Bool) : List HeadMsg :=
  (headsOf v).flatMap fun h => (List.range 128).map fun b => .snoop h page b inv

/-- A page snoop: the messages sent, and the entry that awaits their answers. -/
theorem snoopHeads_eq (s : State) (page : Nat) (v : BitVec 64) (inv : Bool) (f : Filter) : s.snoopHeads page v inv f =
    ({ s with cxl := { s.cxl with headOut := s.cxl.headOut ++ snoopMsgs page v inv } } : State).setFilter page
      { f with await := v, since := s.timebase, got := [] } := by
  have h : (headsOf v).foldl (fun s h => (List.range 128).foldl (fun s b => s.headSend (.snoop h page b inv)) s) s =
      (snoopMsgs page v inv).foldl State.headSend s := by
    rw [snoopMsgs, List.foldl_flatMap]
    simp only [List.foldl_map]
  rw [State.snoopHeads, h, foldl_headSend]

theorem mem_putSector (x : Nat) (l : List Nat) : x ∈ putSector x true l := by
  induction l with
  | nil => exact List.mem_singleton.2 rfl
  | cons y r ih =>
    simp only [putSector]
    split
    · exact List.mem_cons_self
    · split
      · rename_i h; exact h ▸ List.mem_cons_self
      · exact List.mem_cons_of_mem _ ih

theorem bit_of_lt (f : BitVec 64) (h : BitVec 6) : (decide (64 ≤ h.toNat) || !bit f h.toNat) = !bit f h.toNat := by
  rw [decide_eq_false (Nat.not_le.2 h.isLt), Bool.false_or]

section
variable {s : State} {h : BitVec 6} (ha : s.ev.a = h.toNat)
include ha

theorem headEvictionReport_eq : exec .headEvictionReport s = .next (if bit (s.filter (s.ev.b / 2 ^ 15)).vec h.toNat = false then s else
    let u := if s.ev.flag then s.writeOut (s.ev.b / 64 * 64) 64 (leNat s.ev.bytes) else s
    let g := (u.filter (s.ev.b / 2 ^ 15)).without h.toNat
    if g.await = 0 then u.putFilter (s.ev.b / 2 ^ 15) g else u.setFilter (s.ev.b / 2 ^ 15) g) := by
  show execHeadEvictionReport s = _
  simp only [execHeadEvictionReport, ha, bit_of_lt, Bool.not_eq_true']

theorem birspReceive_eq : exec .birspReceive s = .next (
    let page := s.ev.b
    let k := s.ev.c
    let f := s.filter page
    let u := s.writePieces page (s.ev.words.map fun w => BitVec.ofNat 64 (4 * k + w.toNat % 4)) s.ev.bytes
    let got := Tab.get 0 f.got h.toNat ||| BitVec.ofNat 128 (2 ^ k)
    if 128 ≤ k ∨ bit f.await h.toNat = false then s else
      (u.setFilter page { u.filter page with
        got := Tab.set 0 f.got h.toNat got, await := if got = BitVec.allOnes 128 then f.await &&& ~~~headBit h.toNat else f.await }).filterDone page) := by
  show execBirspReceive s = _
  have hlt := h.isLt
  simp only [execBirspReceive, ha, decide_eq_false (Nat.not_le.2 hlt), Bool.false_or, Bool.or_eq_true, decide_eq_true_eq, Bool.not_eq_true']

theorem snoopTimeout_eq : exec .snoopTimeout s = .next (
    let f := s.filter s.ev.b
    let lost : State := ({ s with cxl := { s.cxl with lostHeads := putSector h.toNat true s.cxl.lostHeads } } : State).dropResults h.toNat
    if bit f.await h.toNat = false ∨ (s.timebase - f.since).toNat < 100000 then s else
      (lost.setFilter s.ev.b { f.without h.toNat with await := f.await &&& ~~~headBit h.toNat }).filterDone s.ev.b) := by
  show execSnoopTimeout s = _
  have hlt := h.isLt
  simp only [execSnoopTimeout, ha, decide_eq_false (Nat.not_le.2 hlt), Bool.false_or, Bool.or_eq_true, decide_eq_true_eq, Bool.not_eq_true']

end

theorem putFilter_used {f : Filter} (s : State) (page : Nat) (h : f.vec ≠ 0) : s.putFilter page f = s.setFilter page { f with stamp := s.seqCtr } := by
  have hv : (f.vec = 0) = False := eq_false h
  simp only [State.putFilter, hv, decide_false, Bool.false_and, Bool.false_eq_true, if_false]

theorem putFilter_idle {f : Filter} (s : State) (page : Nat) (h : f.vec = 0) (hw : f.waiting = []) (ht : f.turn = none) :
    s.putFilter page f = s.setFilter page Filter.idle := by
  simp [State.putFilter, h, hw, ht]

theorem filterDone_awaits {s : State} {page : Nat} (h : (s.filter page).await ≠ 0) : s.filterDone page = s := if_pos h

/-- The entry as the end of its snoop leaves it, with the turn of a requester of the part. -/
def Filter.answered (f : Filter) (turn : Option (Waiter × Bool)) : Filter :=
  { f with st := f.nextSt, vec := f.nextVec, pending := none, got := [], turn := turn }

theorem filterDone_none {s : State} {page : Nat} (h : (s.filter page).await = 0) (hp : (s.filter page).pending = none) :
    s.filterDone page = s.putFilter page ((s.filter page).answered none) := by
  unfold State.filterDone
  rw [if_neg (not_not.2 h), hp]
  rfl

theorem filterDone_local {s : State} {page : Nat} {r : FReq} (h : (s.filter page).await = 0) (hp : (s.filter page).pending = some r)
    (hr : r.head = none) : s.filterDone page =
      s.putFilter page ((s.filter page).answered (if r.who = some .part then none else r.who.map fun w => (w, r.excl))) := by
  unfold State.filterDone
  rw [if_neg (not_not.2 h), hp]
  by_cases hw : r.who = some .part
  · simp only [Option.bind_some, hr, hw, Option.map_none, ne_eq, not_true_eq_false, decide_false, Bool.and_false, Bool.false_eq_true, if_false, if_true]
    rfl
  · simp only [Option.bind_some, hr, hw, Option.map_none, ne_eq, not_false_eq_true, decide_true, Bool.and_true, Option.isNone_none, if_true, if_false]
    rfl

theorem filterDone_head {s : State} {page : Nat} {r : FReq} {n : BitVec 6} (h : (s.filter page).await = 0) (hp : (s.filter page).pending = some r)
    (hr : r.head = some n) (hpa : r.pa / 2 ^ 15 = page) : s.filterDone page = (s.putFilter page ((s.filter page).answered none)).serveHead n r := by
  unfold State.filterDone
  rw [if_neg (not_not.2 h), hp]
  simp only [Option.bind_some, hr, Option.map_some, if_pos hpa]
  rfl

/-! ### Lease cuts and halves (R53 to R57) -/

theorem putCut_cuts (s : State) (x : Cut) : (s.putCut x).cxl.cuts = (s.cxl.cuts.filter fun y => y.page ≠ x.page) ++
    if x.done = true ∧ x.asked = BitVec.allOnes 128 then [] else [x] := by
  simp only [State.putCut, Bool.and_eq_true, decide_eq_true_eq]
  by_cases h : x.done = true ∧ x.asked = BitVec.allOnes 128
  · simp only [if_pos h, List.append_nil]
  · simp only [if_neg h]

@[simp] theorem State.setHalf_half (s : State) (pa : Nat) (x : Option HalfSt) : (s.setHalf pa x).half pa = x := Tab.get_set_same _ _ _ _

theorem half_of_div {s : State} {pa q : Nat} (h : pa / 64 = q / 64) : s.half pa = s.half q := by rw [State.half, h, State.half]

theorem split_of_half {s : State} {pa : Nat} (h : (s.half pa).isSome = true) : s.split (pa / 128) = true := by
  by_cases hp : pa / 64 % 2 = 0
  · rw [State.split, half_of_div (q := pa) (show 128 * (pa / 128) / 64 = pa / 64 by omega), h]
    rfl
  · rw [State.split, half_of_div (pa := 128 * (pa / 128) + 64) (q := pa) (by omega), h, Bool.or_true]

/-- The line cut, and its half marked as being taken. -/
def State.halfCut (s : State) (pa : Nat) : State := (s.cutLine (pa / 128) true).setHalf pa (some .taking)

theorem takeHalf_eq (s : State) {pa : Nat} (h : s.half pa = some .taking) : s.takeHalf (pa / 64) =
    if s.busyAt (inHalf (pa / 64)) s.seqCtr = true then s else (s.cutLine (pa / 128) true).setHalf pa (some .own) := by
  have hpa : 64 * (pa / 64) / 64 = pa / 64 := by omega
  have hset (u : State) (x : Option HalfSt) : u.setHalf (64 * (pa / 64)) x = u.setHalf pa x := by rw [State.setHalf, hpa, State.setHalf]
  have hl : pa / 64 / 2 = pa / 128 := by omega
  rw [State.takeHalf, half_of_div hpa, h, hset, hl]
  cases s.busyAt (inHalf (pa / 64)) s.seqCtr <;> simp

theorem hostTakeHalf_none {s : State} (h : 2 ^ 48 ≤ s.ev.a ∨ populated s.ev.a = false ∨ (s.half s.ev.a).isSome = true) :
    exec .hostTakeHalf s = .next s := by
  refine congrArg Host.Outcome.next (if_pos ?_)
  simp only [Bool.or_eq_true, decide_eq_true_eq, Bool.not_eq_true']
  tauto

theorem hostTakeHalf_eq {s : State} (hl : s.ev.a < 2 ^ 48) (hp : populated s.ev.a = true) (hh : s.half s.ev.a = none) :
    let u := s.halfCut s.ev.a
    exec .hostTakeHalf s = .next (if Config.fittingL then s
      else if u.busyAt (inHalf (s.ev.a / 64)) u.seqCtr = true then u else (u.cutLine (s.ev.a / 128) true).setHalf s.ev.a (some .own)) := by
  intro u
  show execHostTakeHalf s = _
  simp only [execHostTakeHalf, hp, hh, Option.isSome_none, decide_eq_false (Nat.not_le.2 hl), Bool.not_true, Bool.or_false]
  rw [← takeHalf_eq u (State.setHalf_half ..)]
  rfl

theorem outHome_keeps (s : State) (line : Nat) : KeepsControl s (s.outHome line) := by
  unfold State.outHome
  split
  · exact shutBy_keeps ..
  · exact (servedNow_keeps ..).trans (atHome_keeps ..)

theorem writeOut_keeps (s : State) (pa n v : Nat) : KeepsControl s (s.writeOut pa n v) := (outHome_keeps s _).trans (writeHome_keeps ..)

theorem hostReleaseHalf_none {s : State} (h : s.half s.ev.a = none) : exec .hostReleaseHalf s = .next s := by
  show execHostReleaseHalf s = _
  simp only [execHostReleaseHalf, h]

theorem hostReleaseHalf_eq {s : State} {x : HalfSt} (h : s.half s.ev.a = some x) :
    let u := if s.ev.bytes = [] then s else s.writeOut (s.ev.a / 64 * 64) 64 (leNat s.ev.bytes)
    exec .hostReleaseHalf s = .next (u.setHalf s.ev.a
      (if s.ev.flag && x = .asked false then some .shared else if s.ev.flag && x = .own then some .own else none)) := by
  show execHostReleaseHalf s = _
  have hev : (if s.ev.bytes = [] then s else s.writeOut (s.ev.a / 64 * 64) 64 (leNat s.ev.bytes)).ev = s.ev := by
    split
    · rfl
    · exact (writeOut_keeps ..).ev
  simp only [execHostReleaseHalf, h, List.isEmpty_iff, hev]

theorem bisnpReceive_late {s : State} (h : 128 ≤ s.ev.b) : exec .bisnpReceive s = .next s :=
  congrArg Host.Outcome.next (if_pos (by simp [h]))

section
variable {s : State} (hb : s.ev.b < 128)
include hb

theorem bisnpReceive_first (h : (s.cxl.cuts.find? fun x => x.page = s.ev.a && !(x.done && x.asked &&& BitVec.ofNat 128 (2 ^ s.ev.b) ≠ 0)) = none) :
    exec .bisnpReceive s = .next (if Config.fittingL then s else
      ((({ s with seqCtr := s.seqCtr + 1 } : State).sendBuffers s.ev.a).cutPage s.ev.a).putCut
        ⟨s.ev.a, s.seqCtr, BitVec.ofNat 128 (2 ^ s.ev.b), false⟩) := by
  show execBisnpReceive s = _
  simp only [execBisnpReceive, h, decide_eq_false (Nat.not_le.2 hb), Bool.or_false]
  rfl

theorem bisnpReceive_more {x : Cut}
    (h : (s.cxl.cuts.find? fun x => x.page = s.ev.a && !(x.done && x.asked &&& BitVec.ofNat 128 (2 ^ s.ev.b) ≠ 0)) = some x) :
    let u := s.putCut { x with asked := x.asked ||| BitVec.ofNat 128 (2 ^ s.ev.b) }
    exec .bisnpReceive s = .next (if Config.fittingL then s else if x.done then u.headSend (.answer s.ev.a s.ev.b) else u) := by
  show execBisnpReceive s = _
  simp only [execBisnpReceive, h, decide_eq_false (Nat.not_le.2 hb), Bool.or_false]
  rfl

end

/-! ### Extents (R58 to R60) -/

/-- The blocks of an add overlap those of extent `x`, which is not free. -/
def State.overlaps (s : State) (x : Nat) : Bool :=
  bits (s.reg (Reg.extent x 0)) 1 0 ≠ 0 && s.ev.a < bits (s.reg (Reg.extent x 0)) 63 27 + bits (s.reg (Reg.extent x 0)) 26 14 &&
    bits (s.reg (Reg.extent x 0)) 63 27 < s.ev.a + s.ev.b

theorem State.overlaps_iff (s : State) {x : Nat} : s.overlaps x = true ↔ s.regBits (Reg.extent x 0) 1 0 ≠ 0 ∧
    s.ev.a < bits (s.reg (Reg.extent x 0)) 63 27 + bits (s.reg (Reg.extent x 0)) 26 14 ∧ bits (s.reg (Reg.extent x 0)) 63 27 < s.ev.a + s.ev.b := by
  simp only [State.overlaps, Bool.and_eq_true, decide_eq_true_eq, and_assoc]
  rfl

/-- The record of an extent that is being added. -/
def State.extentAdded (s : State) (x : Nat) : State :=
  (s.setReg (Reg.extent x 0) (field 27 s.ev.a ||| field 14 s.ev.b ||| field 2 (s.ev.c % 4096) ||| 1)).setReg (Reg.extent x 8) s.ev.w

section
variable {s : State} (h0 : 0 < s.ev.b) (hn : s.ev.b < 8192) (hb : s.ev.a < 2 ^ 37)
include h0 hn hb

theorem dcAddExtent_guard : (!Config.fittingL || s.ev.b = 0 || 8192 ≤ s.ev.b || 2 ^ 37 ≤ s.ev.a) = !Config.fittingL := by
  rw [decide_eq_false (Nat.pos_iff_ne_zero.1 h0), decide_eq_false (Nat.not_le.2 hn), decide_eq_false (Nat.not_le.2 hb)]
  simp only [Bool.or_false]

theorem dcAddExtent_refused (h : (∃ x, x < 4096 ∧ s.overlaps x = true) ∨ ∀ x, x < 4096 → s.regBits (Reg.extent x 0) 1 0 ≠ 0) :
    exec .dcAddExtent s = .next (if Config.fittingL then s.headSend .refused else s) := by
  show execDcAddExtent s = _
  unfold execDcAddExtent
  dsimp only
  rw [dcAddExtent_guard h0 hn hb]
  cases Config.fittingL with
  | false => rfl
  | true =>
    refine congrArg Host.Outcome.next ((if_neg Bool.false_ne_true).trans ?_)
    by_cases hov : ((List.range 4096).any fun x => s.overlaps x) = true
    · exact if_pos hov
    · refine (if_neg hov).trans ?_
      have hfull : ((List.range 4096).find? fun x => s.regBits (Reg.extent x 0) 1 0 = 0) = none := by
        refine List.find?_eq_none.2 fun x hx => ?_
        rcases h with ⟨y, hy, hyo⟩ | h
        · exact absurd (List.any_eq_true.2 ⟨y, List.mem_range.2 hy, hyo⟩) hov
        · simpa using h x (List.mem_range.1 hx)
      rw [hfull]
      rfl

theorem dcAddExtent_added {x : Nat} (hx : x < 4096) (hno : ∀ y, y < 4096 → s.overlaps y = false) (hf : s.regBits (Reg.extent x 0) 1 0 = 0)
    (hlow : ∀ y, y < x → s.regBits (Reg.extent y 0) 1 0 ≠ 0) :
    exec .dcAddExtent s = .next (if Config.fittingL then s.extentAdded x else s) := by
  show execDcAddExtent s = _
  unfold execDcAddExtent
  dsimp only
  rw [dcAddExtent_guard h0 hn hb]
  cases Config.fittingL with
  | false => rfl
  | true =>
    refine congrArg Host.Outcome.next ((if_neg Bool.false_ne_true).trans ?_)
    have hov : ¬ ((List.range 4096).any fun x => s.overlaps x) = true := fun h => by
      obtain ⟨y, hy, hyo⟩ := List.any_eq_true.1 h
      exact Bool.false_ne_true ((hno y (List.mem_range.1 hy)).symm.trans hyo)
    refine (if_neg hov).trans ?_
    have hfirst : ((List.range 4096).find? fun x => s.regBits (Reg.extent x 0) 1 0 = 0) = some x := by
      rw [List.find?_range_eq_some]
      exact ⟨decide_eq_true hf, List.mem_range.2 hx, fun y hy => by simpa using hlow y hy⟩
    rw [hfirst]
    rfl

end

section
variable {s : State} (x : BitVec 12) (ha : s.ev.a = x.toNat)
include ha

theorem zeroFillDone_none (h : s.regBits (Reg.extent x.toNat 0) 1 0 ≠ 1) : exec .zeroFillDone s = .next s := by
  refine congrArg Host.Outcome.next (if_pos ?_)
  rw [ha]
  simpa using .inr h

theorem dcReleaseExtent_eq : exec .dcReleaseExtent s = .next (if Config.fittingL then
    if s.regBits (Reg.extent x.toNat 0) 1 0 ≠ 2 then s.headSend .refused else s.setRegBits (Reg.extent x.toNat 0) 1 0 3 else s) := by
  show execDcReleaseExtent s = _
  simp only [execDcReleaseExtent, ha, decide_eq_false (Nat.not_le.2 (show x.toNat < 4096 from x.isLt)), Bool.false_or, decide_eq_true_eq]
  cases Config.fittingL <;> rfl

theorem releaseDrainDone_none (h : s.regBits (Reg.extent x.toNat 0) 1 0 ≠ 3 ∨ s.busyAt (inExtent (s.reg (Reg.extent x.toNat 0))) s.seqCtr = true ∨
    s.headsBusy (inExtent (s.reg (Reg.extent x.toNat 0))) = true) : exec .releaseDrainDone s = .next s := by
  refine congrArg Host.Outcome.next (if_pos ?_)
  rw [ha]
  simp only [Bool.or_eq_true, decide_eq_true_eq]
  rcases h with h | h | h
  · exact .inl (.inl (.inr h))
  · exact .inl (.inr h)
  · exact .inr h

end

theorem discardLines_mem (s : State) (p : Nat → Bool) : (s.discardLines p).mem = s.mem := by rw [discardLines_outside]
theorem discardLines_poison (s : State) (p : Nat → Bool) : (s.discardLines p).poison = s.poison := by rw [discardLines_outside]
theorem discardLines_ev (s : State) (p : Nat → Bool) : (s.discardLines p).ev = s.ev := by rw [discardLines_outside]
theorem discardLines_cxl (s : State) (p : Nat → Bool) : (s.discardLines p).cxl = s.cxl := by rw [discardLines_outside]

@[simp] theorem State.headSend_regBits (s : State) (m : HeadMsg) (o hi lo : Nat) : (s.headSend m).regBits o hi lo = s.regBits o hi lo := rfl

section
variable (s : State) (x : Nat)

/-- The addresses of an extent, by its record. -/
def State.extentAt : Nat → Bool := inExtent (s.reg (Reg.extent x 0))

/-- No cache holds a line of the extent any longer. -/
def State.extentDropped : State := s.discardLines fun l => s.extentAt x (128 * l)

/-- The extent's bytes are zero and not poisoned (R59). -/
def State.extentZeroed : State :=
  { s.extentDropped x with
    mem := (s.extentDropped x).mem.filter fun y => !s.extentAt x y.1
    poison := (s.extentDropped x).poison.filter fun y => !s.extentAt x (32 * y) }

/-- No entry of the filter is of the extent's pages (R60). -/
def State.extentUntracked : State :=
  { s.extentDropped x with cxl := { (s.extentDropped x).cxl with
    filter := (s.extentDropped x).cxl.filter.filter fun y => !s.extentAt x (y.1 * 2 ^ 15) } }

/-- The add of an extent acknowledged, and the release of one (R59, R60). -/
def State.extentLive : State := ((s.extentZeroed x).setRegBits (Reg.extent x 0) 1 0 2).headSend (.added x)

def State.extentFreed : State := ((s.extentUntracked x).setRegBits (Reg.extent x 0) 1 0 0).headSend (.released x)

theorem extentLive_state : (s.extentLive x).regBits (Reg.extent x 0) 1 0 = 2 := by
  rw [State.extentLive, State.headSend_regBits, State.setRegBits_regBits_same _ _ _ (by decide)]
  rfl

theorem extentFreed_state : (s.extentFreed x).regBits (Reg.extent x 0) 1 0 = 0 := by
  rw [State.extentFreed, State.headSend_regBits, State.setRegBits_regBits_same _ _ _ (by decide)]
  rfl

theorem extentLive_mem : (s.extentLive x).mem = s.mem.filter fun y => !s.extentAt x y.1 := by
  show (s.extentDropped x).mem.filter _ = _
  rw [State.extentDropped, discardLines_mem]

theorem extentLive_poison : (s.extentLive x).poison = s.poison.filter fun y => !s.extentAt x (32 * y) := by
  show (s.extentDropped x).poison.filter _ = _
  rw [State.extentDropped, discardLines_poison]

theorem extentLive_headOut : (s.extentLive x).cxl.headOut = s.cxl.headOut ++ [.added x] := by
  show (s.extentDropped x).cxl.headOut ++ _ = _
  rw [State.extentDropped, discardLines_cxl]

theorem extentFreed_headOut : (s.extentFreed x).cxl.headOut = s.cxl.headOut ++ [.released x] := by
  show (s.extentDropped x).cxl.headOut ++ _ = _
  rw [State.extentDropped, discardLines_cxl]

theorem extentFreed_mem : (s.extentFreed x).mem = s.mem := by
  show (s.extentDropped x).mem = _
  rw [State.extentDropped, discardLines_mem]

theorem extentFreed_l2 : ∀ l ∈ (s.extentFreed x).coh.l2, s.extentAt x (128 * l.line) = false :=
  discardLines_l2 s fun l => s.extentAt x (128 * l)

theorem extentFreed_l1 : ∀ y ∈ (s.extentFreed x).cores, ∀ l ∈ y.2.l1, s.extentAt x (128 * l.line) = false :=
  discardLines_l1 s fun l => s.extentAt x (128 * l)

theorem extentFreed_filter : ∀ y ∈ (s.extentFreed x).cxl.filter, s.extentAt x (y.1 * 2 ^ 15) = false := fun y hy => by
  have h : y ∈ (s.extentDropped x).cxl.filter.filter fun y => !s.extentAt x (y.1 * 2 ^ 15) := hy
  simpa using (List.mem_filter.1 h).2

end

section
variable {s : State} {x : BitVec 12} (ha : s.ev.a = x.toNat)
include ha

theorem extentDropped_ev : (s.extentDropped x.toNat).ev.a = x.toNat := by rw [State.extentDropped, discardLines_ev, ha]

theorem zeroFillDone_live (h : s.regBits (Reg.extent x.toNat 0) 1 0 = 1) : exec .zeroFillDone s = .next (s.extentLive x.toNat) := by
  have hlt : x.toNat < 4096 := x.isLt
  show execZeroFillDone s = _
  unfold execZeroFillDone
  dsimp only
  rw [ha]
  rw [if_neg (by simpa using ⟨hlt, h⟩)]
  exact congrArg (fun n => Host.Outcome.next (((s.extentZeroed x.toNat).setRegBits (Reg.extent x.toNat 0) 1 0 2).headSend (.added n))) (extentDropped_ev ha)

theorem releaseDrainDone_freed (h : s.regBits (Reg.extent x.toNat 0) 1 0 = 3) (hb : s.busyAt (inExtent (s.reg (Reg.extent x.toNat 0))) s.seqCtr = false)
    (hh : s.headsBusy (inExtent (s.reg (Reg.extent x.toNat 0))) = false) : exec .releaseDrainDone s = .next (s.extentFreed x.toNat) := by
  have hlt : x.toNat < 4096 := x.isLt
  show execReleaseDrainDone s = _
  unfold execReleaseDrainDone
  dsimp only
  rw [ha]
  rw [hb, hh, if_neg (by simpa using ⟨hlt, h⟩)]
  exact congrArg (fun n => Host.Outcome.next (((s.extentUntracked x.toNat).setRegBits (Reg.extent x.toNat 0) 1 0 0).headSend (.released n)))
    (extentDropped_ev ha)

end

end Sys2Proof.Machine
end

section
/-! SUPPORT. Operations on groups, launches and lines leave the event of the turn. -/

namespace Sys2Proof.Machine

theorem foldl_ev {α : Type} {f : State → α → State} (h : ∀ s x, (f s x).ev = s.ev) (l : List α) (s : State) : (l.foldl f s).ev = s.ev := by
  induction l generalizing s with
  | nil => rfl
  | cons x r ih => exact (ih _).trans (h s x)

theorem modGroup_ev (s : State) (c : BitVec 10) (n : BitVec 3) (f : Group → Group) : (s.modGroup c n f).ev = s.ev := by
  unfold State.modGroup
  split <;> rfl

theorem letGo_ev (s : State) (c : BitVec 10) (n : BitVec 3) : (s.letGo c n).ev = s.ev := by
  simp only [State.letGo]
  split <;> rfl

theorem freeBatch_ev (s : State) (c : BitVec 12) (va : Word) : (s.freeBatch c va).ev = s.ev := by
  refine foldl_ev (fun u x => ?_) _ s
  dsimp only
  split
  · rfl
  · exact (writePa_keeps ..).ev

theorem postEntry_ev (s : State) (c : BitVec 12) (e : List Word) : (s.postEntry c e).ev = s.ev := by
  simp only [State.postEntry]
  split
  · split <;> rfl
  · rw [writeEntry_outside]
    exact (writeWords_keeps ..).ev

theorem sendResult_ev (s : State) (t : Task) (st : Nat) : (s.sendResult t st).ev = s.ev := by
  unfold State.sendResult
  dsimp only
  split_ifs <;> rfl

theorem finishLaunch_ev (s : State) (k : Nat) : (s.finishLaunch k).ev = s.ev := by
  simp only [State.finishLaunch]
  split
  · rfl
  · split
    · split
      · exact sendResult_ev ..
      · rfl
    · split
      · exact postEntry_ev ..
      · rfl

theorem checkLaunch_ev (s : State) (k : Nat) : (s.checkLaunch k).ev = s.ev := by
  simp only [State.checkLaunch]
  split
  · exact finishLaunch_ev s k
  · rfl

theorem releaseGroup_ev (s : State) (g : Group) : (s.releaseGroup g).ev = s.ev := by
  have hbatch : (match g.batch with
      | some (va, _, _) => s.freeBatch g.ctx va
      | none => s).ev = s.ev := by
    split
    · exact freeBatch_ev ..
    · rfl
  refine (checkLaunch_ev _ _).trans (Eq.trans ?_ hbatch)
  split <;> rfl

theorem removeGroup_ev (s : State) (c : BitVec 10) (n : BitVec 3) : (s.removeGroup c n).ev = s.ev := by
  unfold State.removeGroup
  split
  · rfl
  · exact (releaseGroup_ev _ _).trans ((modGroup_ev _ c n _).trans (letGo_ev s c n))

theorem settle_ev (s : State) (c : BitVec 10) (n : BitVec 3) : (s.settle c n).ev = s.ev := by
  simp only [State.settle]
  split
  · split
    · exact (removeGroup_ev _ c n).trans (modGroup_ev s c n _)
    · exact modGroup_ev s c n _
  · exact modGroup_ev s c n _

theorem concludeStore_ev (s : State) (c : BitVec 10) (n : BitVec 3) (i : Nat) : (s.concludeStore c n i).ev = s.ev := by
  unfold State.concludeStore
  split
  · rfl
  · split
    · rfl
    · exact modGroup_ev s c n _

theorem awaitAck_ev (s : State) (c : BitVec 10) (n : BitVec 3) (accs : List Nat) (line : Nat) (d : LineData) (m : BitVec 128) (p : BitVec 4) (home : Bool)
    (lanes : List (BitVec 7 × Word)) : (s.awaitAck c n accs line d m p home lanes).ev = s.ev :=
  (foldl_ev (f := fun s i => s.modAccess c n i fun a => { a with acks := a.acks + 1 }) (fun s _ => modGroup_ev s c n _) accs _).trans rfl

theorem raisePts_ev (s : State) (c : BitVec 10) (n : BitVec 3) (t : BitVec 48) : (s.raisePts c n t).ev = s.ev := modGroup_ev s c n _

theorem performMerge_ev (s : State) (m : Msg) : (s.performMerge m).ev = s.ev := by
  unfold State.performMerge
  split
  · dsimp only
    have hrecall : (s.recall m.line).ev = s.ev := (recall_keeps ..).ev
    have hfill (nc : Bool) : ((s.recall m.line).fillL2As m.line nc).ev = s.ev := ((recall_keeps ..).trans (fillL2As_keeps ..)).ev
    have hput (u : State) (d : LineData) (mask : BitVec 128) (p : BitVec 4) (ts : BitVec 48) :
        (((u.putHome m.line d mask p).stampHome m.line ts).markSkim m.line).ev = u.ev :=
      ((putHome_keeps ..).trans ((stampHome_keeps ..).trans (markSkim_keeps ..))).ev
    split
    · exact (raisePts_ev ..).trans ((hput ..).trans hrecall)
    · split
      · split
        · exact ((needMedia_keeps ..).trans ((reachTarget_keeps ..).trans (memWrite_keeps ..))).ev.trans ((hput ..).trans (hfill _))
        · exact (awaitAck_ev ..).trans ((hput ..).trans (hfill _))
      · exact (hput ..).trans (hfill _)
  · rfl

theorem flushMerges_ev (s : State) (mine : Msg → Bool) : (s.flushMerges mine).ev = s.ev := by
  refine (foldl_ev (fun u m => ?_) _ _).trans (foldl_ev performMerge_ev _ _)
  split
  · exact (settle_ev ..).trans (foldl_ev (fun v i => concludeStore_ev v m.core m.slot i) _ u)
  · rfl

theorem cutL1_ev (s : State) (c : BitVec 10) (line : Nat) (all : Bool) : (s.cutL1 c line all).ev = s.ev := by
  simp only [State.cutL1]
  split
  · rfl
  · split
    · rfl
    · split
      · exact performMerge_ev _ _
      · rfl

theorem flushL2_ev (s : State) (line : Nat) : (s.flushL2 line).ev = s.ev := by
  unfold State.flushL2
  split
  · rfl
  · have h : (s.unlockAll line).ev = s.ev := by rw [(LocksOnly.unlockAll s line).outside]
    exact ((needMedia_keeps ..).trans ((reachTarget_keeps ..).trans ((memWrite_keeps ..).trans (setL2_keeps ..)))).ev.trans h

theorem cutLine_ev (s : State) (line : Nat) (all : Bool) : (s.cutLine line all).ev = s.ev := by
  have h (l : Tab Core) : (l.foldl (fun u (x : Nat × Core) => u.cutL1 (BitVec.ofNat 10 x.1) line all)
      ((s.recall line).flushMerges fun m => m.line = line)).ev = s.ev :=
    (foldl_ev (fun u x => cutL1_ev u _ line all) _ _).trans ((flushMerges_ev ..).trans (recall_keeps ..).ev)
  simp only [State.cutLine]
  split
  · split
    · exact h _
    · exact (flushL2_ev ..).trans (h _)
  · exact h _

theorem cutPage_ev (s : State) (page : Nat) : (s.cutPage page).ev = s.ev := foldl_ev (fun u l => cutLine_ev u l false) _ s

/-! ### LEASE_CUT_COMPLETE (R53, R54) -/

theorem foldl_answers (p : Nat → Bool) (page : Nat) (l : List Nat) (s : State) :
    l.foldl (fun s b => if p b then s.headSend (.answer page b) else s) s =
      { s with cxl := { s.cxl with headOut := s.cxl.headOut ++ (l.filter p).map fun b => HeadMsg.answer page b } } := by
  induction l generalizing s with
  | nil => simp
  | cons b r ih =>
    rw [List.foldl_cons, ih]
    cases hb : p b <;> simp [hb, State.headSend]

theorem leaseCutComplete_none {s : State} (h : (s.cxl.cuts.find? fun x => x.page = s.ev.a && !x.done) = none) : exec .leaseCutComplete s = .next s := by
  show execLeaseCutComplete s = _
  simp only [execLeaseCutComplete, h]

theorem leaseCutComplete_busy {s : State} {x : Cut} (h : (s.cxl.cuts.find? fun x => x.page = s.ev.a && !x.done) = some x)
    (hb : s.busyAt (inPage s.ev.a) x.since = true) : exec .leaseCutComplete s = .next s := by
  show execLeaseCutComplete s = _
  simp only [execLeaseCutComplete, h, hb, if_true]

/-- The page of a cut that is done, its messages answered. -/
def State.cutAnswered (s : State) (page : Nat) (x : Cut) : State :=
  let u := (s.cutPage page).putCut { x with done := true }
  { u with cxl := { u.cxl with headOut := u.cxl.headOut ++ ((List.range 128).filter fun b => bit x.asked b).map fun b => HeadMsg.answer page b } }

theorem leaseCutComplete_done {s : State} {x : Cut} (h : (s.cxl.cuts.find? fun x => x.page = s.ev.a && !x.done) = some x)
    (hb : s.busyAt (inPage s.ev.a) x.since = false) : exec .leaseCutComplete s =
      .next (((s.cutAnswered s.ev.a x).writePieces s.ev.a s.ev.words s.ev.bytes).cutPage s.ev.a) := by
  have hev : (s.cutAnswered s.ev.a x).ev = s.ev := cutPage_ev s s.ev.a
  show execLeaseCutComplete s = _
  simp only [execLeaseCutComplete, h, hb, Bool.false_eq_true, if_false, foldl_answers]
  show Host.Outcome.next (((s.cutAnswered s.ev.a x).writePieces s.ev.a (s.cutAnswered s.ev.a x).ev.words (s.cutAnswered s.ev.a x).ev.bytes).cutPage
    s.ev.a) = _
  rw [hev]

end Sys2Proof.Machine
end

section
/-! SUPPORT. The statement about heads, leases and extents, by the fitting: it holds of an -H part, where no head has access, and fails of an -L part,
where a head's access without coherence (R218) is served past the filter. -/

namespace Sys2Proof.Machine

theorem bit_ne_zero {n i : Nat} {w : BitVec n} (h : bit w i = true) : w ≠ 0 := fun e => by simp [e, bit] at h

/-! ### Heads (R50 to R52, R59) -/

/-- The entry after the end of a snoop for nobody, where nobody waits. -/
theorem putFilter_answered {f : Filter} (u : State) (page : Nat) (hw : f.waiting = []) : (u.putFilter page (f.answered none)).filter page =
    if f.nextVec = 0 then Filter.idle else { f.answered none with stamp := u.seqCtr } := by
  by_cases hv : f.nextVec = 0
  · rw [if_pos hv, putFilter_idle u page (f := f.answered none) hv hw rfl, State.setFilter_filter_same]
  · rw [if_neg hv, putFilter_used u page (f := f.answered none) hv, State.setFilter_filter_same]

section
variable {s : State} {h : BitVec 6} (ha : s.ev.a = h.toNat)

theorem headAccess_none (hn : Config.fittingL = false ∨ s.ev.a ∈ s.cxl.lostHeads) (excl nc : Bool) (d : Option (List Byte)) :
    s.headAccess excl nc d = s := by
  refine if_pos ?_
  rcases hn with hn | hn <;> simp [hn]

/-- On an -H part no head has access, and a lost head has none on either. -/
theorem headReads_none (hn : Config.fittingL = false ∨ s.ev.a ∈ s.cxl.lostHeads) :
    exec .headReadShared s = .next s ∧ exec .headReadExclusive s = .next s :=
  ⟨congrArg _ (headAccess_none hn ..), congrArg _ (headAccess_none hn ..)⟩

include ha

theorem headEvictionReport_none (hb : bit (s.filter (s.ev.b / 2 ^ 15)).vec h.toNat = false) : exec .headEvictionReport s = .next s := by
  rw [headEvictionReport_eq ha, if_pos hb]

/-- A head that an entry records leaves it. -/
theorem headEvictionReport_leaves (hb : bit (s.filter (s.ev.b / 2 ^ 15)).vec h.toNat = true) :
    let page := s.ev.b / 2 ^ 15
    let u := if s.ev.flag then s.writeOut (s.ev.b / 64 * 64) 64 (leNat s.ev.bytes) else s
    let g := (u.filter page).without h.toNat
    ((u.filter page).await ≠ 0 → exec .headEvictionReport s = .next (u.setFilter page g)) ∧
    ((u.filter page).await = 0 → g.vec ≠ 0 → exec .headEvictionReport s = .next (u.setFilter page { g with stamp := u.seqCtr })) ∧
    ((u.filter page).await = 0 → g.vec = 0 → g.waiting = [] → g.turn = none →
      exec .headEvictionReport s = .next (u.setFilter page Filter.idle)) := by
  intro page u g
  rw [headEvictionReport_eq ha, if_neg (ne_false_of_eq_true hb)]
  exact ⟨fun haw => congrArg _ (if_neg haw), fun haw hv => congrArg _ ((if_pos haw).trans (putFilter_used _ _ hv)),
    fun haw hv hw ht => congrArg _ ((if_pos haw).trans (putFilter_idle _ _ hv hw ht))⟩

/-- The last answer gives the entry its next state, and the request is served or has its turn; any other is recorded. -/
theorem birspReceive_answers (hb : bit (s.filter s.ev.b).await h.toNat = true) (hk : s.ev.c < 128) :
    let page := s.ev.b
    let k := s.ev.c
    let f := s.filter page
    let rest := f.await &&& ~~~headBit h.toNat
    let got := Tab.get 0 f.got h.toNat ||| BitVec.ofNat 128 (2 ^ k)
    let u := s.writePieces page (s.ev.words.map fun w => BitVec.ofNat 64 (4 * k + w.toNat % 4)) s.ev.bytes
    let g : Filter := { u.filter page with
      got := Tab.set 0 f.got h.toNat got, await := if got = BitVec.allOnes 128 then rest else f.await }
    (got ≠ BitVec.allOnes 128 ∨ rest ≠ 0 → exec .birspReceive s = .next (u.setFilter page g)) ∧
    (got = BitVec.allOnes 128 → rest = 0 →
      let y (x : Option (Waiter × Bool)) := (u.setFilter page g).putFilter page
        { g with st := g.nextSt, vec := g.nextVec, pending := none, got := [], turn := x }
      (g.pending = none → exec .birspReceive s = .next (y none)) ∧
      (∀ r, g.pending = some r → r.head = none → exec .birspReceive s =
        .next (y (if r.who = some .part then none else r.who.map fun w => (w, r.excl)))) ∧
      (∀ r n, g.pending = some r → r.head = some n → r.pa / 2 ^ 15 = page → exec .birspReceive s = .next ((y none).serveHead n r))) := by
  intro page k f rest got u g
  have hrun : exec .birspReceive s = .next ((u.setFilter page g).filterDone page) := by
    rw [birspReceive_eq ha]
    exact congrArg _ (if_neg (not_or.2 ⟨Nat.not_le.2 hk, ne_false_of_eq_true hb⟩))
  have hself : (u.setFilter page g).filter page = g := State.setFilter_filter_same ..
  rw [hrun]
  refine ⟨fun hmore => congrArg _ (filterDone_awaits ?_), fun hall hrest => ?_⟩
  · rw [hself]
    show (if got = BitVec.allOnes 128 then rest else f.await) ≠ 0
    split
    · rename_i hall
      exact hmore.resolve_left (not_not.2 hall)
    · exact bit_ne_zero hb
  · have haw : ((u.setFilter page g).filter page).await = 0 := by
      rw [hself]
      exact (if_pos hall).trans hrest
    intro y
    refine ⟨fun hp => congrArg _ ?_, fun r hp hr => congrArg _ ?_, fun r n hp hr hpa => congrArg _ ?_⟩
    · rw [filterDone_none haw (by rw [hself]; exact hp), hself]
      rfl
    · rw [filterDone_local haw (by rw [hself]; exact hp) hr, hself]
      rfl
    · rw [filterDone_head haw (by rw [hself]; exact hp) hr hpa, hself]
      rfl

/-- A head that has not answered in time is lost, and leaves the entry (R52, R120). -/
theorem snoopTimeout_loses (hb : bit (s.filter s.ev.b).await h.toNat = true) (hlate : 100000 ≤ (s.timebase - (s.filter s.ev.b).since).toNat) :
    let page := s.ev.b
    let f := s.filter page
    let rest := f.await &&& ~~~headBit h.toNat
    let lost : State := ({ s with cxl := { s.cxl with lostHeads := putSector h.toNat true s.cxl.lostHeads } } : State).dropResults h.toNat
    (rest ≠ 0 → exec .snoopTimeout s = .next (lost.setFilter page { f.without h.toNat with await := rest })) ∧
    (rest = 0 → f.waiting = [] → f.pending = none → ∃ t : State, exec .snoopTimeout s = .next t ∧ t.filter page =
      (if f.nextVec &&& ~~~headBit h.toNat = 0 then Filter.idle else
        { f.without h.toNat with
          await := 0, st := f.nextSt, vec := f.nextVec &&& ~~~headBit h.toNat, got := [], turn := none,
          stamp := s.seqCtr })) := by
  intro page f rest lost
  have hrun : exec .snoopTimeout s = .next ((lost.setFilter page { f.without h.toNat with await := rest }).filterDone page) := by
    rw [snoopTimeout_eq ha]
    exact congrArg _ (if_neg (not_or.2 ⟨ne_false_of_eq_true hb, Nat.not_lt.2 hlate⟩))
  have hself : (lost.setFilter page { f.without h.toNat with await := rest }).filter page = { f.without h.toNat with await := rest } :=
    State.setFilter_filter_same ..
  rw [hrun]
  refine ⟨fun hrest => congrArg _ (filterDone_awaits (by rw [hself]; exact hrest)), fun hrest hw hp => ⟨_, rfl, ?_⟩⟩
  rw [filterDone_none (by rw [hself]; exact hrest) (by rw [hself]; exact hp), hself, putFilter_answered _ _ (by exact hw)]
  simp only [Filter.answered, Filter.without, hrest, hp]
  rfl

end

/-! ### The statement by the fitting -/

theorem headsLeasesAndExtents_ofFittingH (hf : Config.fittingL = false) : Obligations.HeadsLeasesAndExtents := by
  unfold Obligations.HeadsLeasesAndExtents
  refine ⟨fun s page v inv f => ?_, fun s h ha => ?_, fun s h ha => ?_, fun s => ?_, fun s => ?_, fun s x ha => ?_⟩
  · rw [snoopHeads_eq]
    exact ⟨rfl, State.setFilter_filter_same ..⟩
  · refine ⟨fun hl => headReads_none (.inr (by rw [ha]; exact hl)), fun ins excl data _ hi => ?_, headEvictionReport_none ha, headEvictionReport_leaves ha⟩
    obtain ⟨hshared, hexclusive⟩ := headReads_none (s := s) (.inl hf)
    have hstay : exec ins s = .next s := by
      simp only [List.mem_cons, Prod.mk.injEq, List.not_mem_nil, or_false] at hi
      rcases hi with ⟨rfl, -⟩ | ⟨rfl, -⟩
      · exact hshared
      · exact hexclusive
    simp only [hstay, hf, Bool.false_eq_true, if_false, implies_true, and_self]
  · refine ⟨fun hb => ?_, fun hk => ?_, fun hb => ⟨fun hk => (birspReceive_answers ha hb hk).1, fun hk => (birspReceive_answers ha hb hk).2,
      fun hlt => ?_, fun hlate => ⟨mem_putSector .., snoopTimeout_loses ha hb hlate⟩⟩⟩
    · rw [birspReceive_eq ha, snoopTimeout_eq ha]
      exact ⟨congrArg _ (if_pos (.inr hb)), congrArg _ (if_pos (.inl hb))⟩
    · rw [birspReceive_eq ha]
      exact congrArg _ (if_pos (.inl hk))
    · rw [snoopTimeout_eq ha]
      exact congrArg _ (if_pos (.inr hlt))
  · refine ⟨putCut_cuts s, bisnpReceive_late, bisnpReceive_first, fun x hb => bisnpReceive_more hb, leaseCutComplete_none,
      fun x hx => ⟨leaseCutComplete_busy hx, fun hb => ⟨s.cutAnswered s.ev.a x, rfl, leaseCutComplete_done hx hb⟩⟩, hostTakeHalf_none,
      fun hl hp hh => ?_, hostReleaseHalf_none, fun x hx => ?_⟩
    · refine ⟨split_of_half (by rw [State.setHalf_half]; rfl), fun hb => ?_, fun hb => ?_⟩
      · rw [hostTakeHalf_eq hl hp hh]
        exact congrArg (fun t => Host.Outcome.next (if Config.fittingL then s else t)) (if_pos hb)
      · refine ⟨((s.halfCut s.ev.a).cutLine (s.ev.a / 128) true).setHalf s.ev.a (some .own), ?_, State.setHalf_half .., rfl⟩
        rw [hostTakeHalf_eq hl hp hh]
        exact congrArg (fun t => Host.Outcome.next (if Config.fittingL then s else t)) (if_neg (ne_true_of_eq_false hb))
    · intro u
      rw [hostReleaseHalf_eq hx]
      refine ⟨fun hfl he => ?_, fun hfl he => ?_, fun hn => ?_⟩
      · rw [hfl, he]; rfl
      · rw [hfl, he]; rfl
      · have h1 : (s.ev.flag && x = .asked false) = false := by rcases hn with hn | ⟨hn, -⟩ <;> simp [hn]
        have h2 : (s.ev.flag && x = .own) = false := by rcases hn with hn | ⟨-, hn⟩ <;> simp [hn]
        rw [h1, h2]
        rfl
  · refine ⟨fun h0 hn hb h => ?_, fun x h0 hn hb hno hx hs hlow => ?_⟩
    · refine dcAddExtent_refused h0 hn hb (h.imp (fun hx => ?_) id)
      obtain ⟨x, hx, hs, hl, hr⟩ := hx
      exact ⟨x, hx, s.overlaps_iff.2 ⟨hs, hl, hr⟩⟩
    · refine dcAddExtent_added h0 hn hb hx (fun y hy => Bool.eq_false_iff.2 fun ho => ?_) hs hlow
      obtain ⟨hy0, hl, hr⟩ := s.overlaps_iff.1 ho
      exact (hno y hy hy0).elim (Nat.not_le.2 hr) (Nat.not_le.2 hl)
  · refine ⟨zeroFillDone_none x ha, fun h => ?_, fun h => ?_, fun h => ?_, releaseDrainDone_none x ha, fun h hb hh => ?_⟩
    · refine ⟨_, zeroFillDone_live ha h, extentLive_state s _, fun y hy => ?_, fun y hy => ?_, fun y hy => ?_, extentLive_headOut s _⟩
      · rw [extentLive_mem, List.mem_filter] at hy
        simpa [State.extentAt] using hy.2
      · rw [extentLive_poison, List.mem_filter] at hy
        simpa [State.extentAt] using hy.2
      · rw [extentLive_mem, List.mem_filter]
        simp [State.extentAt, hy]
    · rw [dcReleaseExtent_eq x ha, if_pos h]
    · rw [dcReleaseExtent_eq x ha, if_neg (not_not.2 h)]
    · exact ⟨_, releaseDrainDone_freed ha h hb hh, extentFreed_state s _, extentFreed_mem s _, extentFreed_l2 s _, extentFreed_headOut s _,
        extentFreed_l1 s _, extentFreed_filter s _⟩

/-- A head's read without coherence, in a live extent that admits it, is served whatever the filter holds of the page (R218). -/
theorem headReadShared_noncoherent {s : State} {h : BitVec 6} {o : Nat} (hf : Config.fittingL = true) (ha : s.ev.a = h.toNat)
    (hl : h.toNat ∉ s.cxl.lostHeads) (ho : s.extentReg s.ev.b = some o) (hlive : s.regBits o 1 0 = 2) (hopen : bit (s.reg (o + 8)) h.toNat = true)
    (hc : s.ev.c = 1) : exec .headReadShared s = .next (s.serveHead h ⟨some h, none, s.ev.b, false, none⟩) := by
  show execHeadReadShared s = _
  have hlt := h.isLt
  simp only [execHeadReadShared, State.headAccess, hf, ha, ho, hlive, hopen, hc, hl, decide_false, decide_true, Bool.not_true, Bool.or_false,
    decide_eq_false (Nat.not_le.2 hlt), Bool.false_eq_true, ne_eq, not_true_eq_false, if_false, if_true, BitVec.ofNat_toNat, BitVec.setWidth_eq,
    show ¬ (2 = 3) by decide]

/-- A read that is served has its answer sent. -/
theorem serveHead_read_headOut (s : State) (h : BitVec 6) (r : FReq) (hr : r.data = none) :
    (s.serveHead h r).cxl.headOut = s.cxl.headOut ++ [.data h.toNat (r.pa / 64 * 64) (leBytes (s.readOut (r.pa / 64 * 64) 64).2 64)] := by
  have hkeep : (s.readOut (r.pa / 64 * 64) 64).1.cxl.headOut = s.cxl.headOut := by
    show (s.outHome (r.pa / 64 * 64 / 128)).cxl.headOut = _
    rw [(outHome_keeps s (r.pa / 64 * 64 / 128)).cxl]
  simp only [State.serveHead, hr]
  show (s.readOut (r.pa / 64 * 64) 64).1.cxl.headOut ++ _ = _
  rw [hkeep]

/-- Head 3 reads the first bytes of extent 0, which is live and admits it, without coherence, while the filter awaits an answer about the page. -/
def noncoherentRead : State :=
  { State.reset with
    mgmt := [(Reg.extent 0 0, 0x4002), (Reg.extent 0 8, 8)]
    cxl := { State.reset.cxl with filter := [(0, { Filter.idle with await := 1 })] }
    ev := { Ev.none with a := 3, b := 0, c := 1 } }

/-- On an -L part the statement fails: the read of `noncoherentRead` is answered, where it says that it waits at the filter. -/
theorem not_headsLeasesAndExtents_ofFittingL (hf : Config.fittingL = true) : ¬ Obligations.HeadsLeasesAndExtents := by
  intro hall
  obtain ⟨-, hheads, -⟩ := hall
  obtain ⟨-, hreads, -⟩ := hheads noncoherentRead 3 rfl
  obtain ⟨-, hextent⟩ := hreads .headReadShared false none (by decide) List.mem_cons_self
  obtain ⟨-, -, hlive⟩ := hextent (Reg.extent 0 0) (by decide +kernel)
  obtain ⟨hwaits, -⟩ := hlive (by decide +kernel) (by decide +kernel)
  have hsays := hwaits (fun hfree => absurd hfree.1 (by decide +kernel)) (by decide +kernel)
  have hdoes := headReadShared_noncoherent (s := noncoherentRead) (h := 3) (o := Reg.extent 0 0) hf rfl (by decide) (by decide +kernel)
    (by decide +kernel) (by decide +kernel) rfl
  rw [hdoes, if_pos hf] at hsays
  injection hsays with hsays
  have hout := serveHead_read_headOut noncoherentRead 3 ⟨some 3, none, 0, false, none⟩ rfl
  exact absurd (hout.symm.trans (congrArg (fun t : State => t.cxl.headOut) hsays)) (by simp [State.setFilter])

/-- The statement says which fitting the part has, a constant of Config without a value, so that neither it nor its negation can be proved. -/
theorem headsLeasesAndExtents_iff_fittingH : Obligations.HeadsLeasesAndExtents ↔ Config.fittingL = false :=
  ⟨fun h => Bool.eq_false_iff.2 fun hf => not_headsLeasesAndExtents_ofFittingL hf h, headsLeasesAndExtents_ofFittingH⟩

end Sys2Proof.Machine
end

section
/-! SUPPORT. Cached translations (R76): what a fill leaves on a core and keeps elsewhere, and what the reads of a walk leave alone. -/

namespace Sys2Proof.Machine

/-! ### One fill -/

theorem noteUse_outside (s : State) (c : BitVec 12) (page : Nat) (leaf : Word) :
    s.noteUse c page leaf = { s with mmu := { s.mmu with lastUse := (s.noteUse c page leaf).mmu.lastUse } } := by
  unfold State.noteUse
  dsimp only
  split <;> rfl

/-- The tracker of R88 takes note of frames of the second tier only. -/
theorem noteUse_first {s : State} {c : BitVec 12} {page : Nat} {leaf : Word} (h : secondTier (bits leaf 51 15 * 2 ^ 15) = false) :
    s.noteUse c page leaf = s := if_pos (by rw [h]; rfl)

theorem noteUse_second {s : State} {c : BitVec 12} {page : Nat} {leaf : Word} (h : secondTier (bits leaf 51 15 * 2 ^ 15) = true)
    (hs : bit leaf 6 = false) : Tab.get none (s.noteUse c page leaf).mmu.lastUse (bits leaf 51 15) = some (c, page) := by
  unfold State.noteUse
  rw [if_neg (by rw [h, hs]; exact Bool.false_ne_true)]
  exact Tab.get_set_same none s.mmu.lastUse (bits leaf 51 15) (some (c, page))

/-- A state after the use of a translation has been noted, where that is to be (R88). -/
def State.noted (s : State) (t : TlbEntry) : State := if t.level = 2 then s.noteUse t.ctx t.page t.leaf else s

theorem noted_outside (s : State) (t : TlbEntry) : s.noted t = { s with mmu := { s.mmu with lastUse := (s.noted t).mmu.lastUse } } := by
  unfold State.noted
  split
  · exact noteUse_outside ..
  · rfl

theorem noted_core (s : State) (t : TlbEntry) (k : BitVec 10) : (s.noted t).core k = s.core k := by rw [noted_outside]; rfl

theorem useEntry_of_core {s : State} {who : Waiter} {t : TlbEntry} {k : BitVec 10} (h : who.core? = some k) :
    let u := (s.noted t).setCore k { s.core k with tlb := (addEntry t (s.core k).tlb).take 64 }
    let sects := Tab.set [] u.mmu.sects (sectionOf k) (trimSet t.set (addEntry t (u.sect (sectionOf k))) 8)
    s.useEntry who t = { u with mmu := { u.mmu with sects := sects } } := by
  rw [← noted_core s t k]
  simp only [State.useEntry, h]
  rfl

theorem useEntry_of_noCore {s : State} {who : Waiter} {t : TlbEntry} (h : who.core? = none) : s.useEntry who t = s.noted t := by
  simp only [State.useEntry, h]
  rfl

theorem useEntry_outside (s : State) (who : Waiter) (t : TlbEntry) : s.useEntry who t = { s with
    cores := (s.useEntry who t).cores
    mmu := { s.mmu with sects := (s.useEntry who t).mmu.sects, lastUse := (s.noted t).mmu.lastUse } } := by
  cases h : who.core? with
  | none =>
    rw [useEntry_of_noCore h, noted_outside]
  | some k =>
    rw [useEntry_of_core h, noted_outside]
    rfl

/-- A 32 KiB leaf of the second tier, no aperture, is noted as the last translation to its frame (R88). -/
theorem useEntry_notes (s : State) (who : Waiter) {t : TlbEntry} (hl : t.level = 2) (h : secondTier (bits t.leaf 51 15 * 2 ^ 15) = true)
    (hs : bit t.leaf 6 = false) : Tab.get none (s.useEntry who t).mmu.lastUse (bits t.leaf 51 15) = some (t.ctx, t.page) := by
  rw [useEntry_outside, State.noted, if_pos hl]
  exact noteUse_second h hs

/-- The core TLB of `k` answers `va` with the entry `t`. -/
def State.answers (s : State) (k : BitVec 10) (c : BitVec 12) (va : Word) (t : TlbEntry) : Prop :=
  ((s.core k).tlb.find? fun x => x.covers c va) = some t

theorem tlb?_of_answers {s : State} {who : Waiter} {k : BitVec 10} {c : BitVec 12} {va : Word} {t : TlbEntry} (hk : who.core? = some k)
    (h : s.answers k c va t) : s.tlb? who c va = some t := by
  unfold State.answers at h
  simp only [State.tlb?, hk, h]

/-- An entry just used is the first that its core finds. -/
theorem useEntry_answers {s : State} {who : Waiter} {k : BitVec 10} {c : BitVec 12} {va : Word} {t : TlbEntry} (hk : who.core? = some k)
    (ht : t.covers c va = true) : (s.useEntry who t).answers k c va t := by
  rw [useEntry_of_core hk]
  show (((s.noted t).setCore k { s.core k with tlb := (addEntry t (s.core k).tlb).take 64 }).core k).tlb.find? _ = _
  rw [State.setCore_core]
  exact List.find?_cons_of_pos ht

/-- The use of the same entry by another requester keeps the answer. -/
theorem answers_useEntry {s : State} {k : BitVec 10} {c : BitVec 12} {va : Word} {t : TlbEntry} (who : Waiter) (ht : t.covers c va = true)
    (h : s.answers k c va t) : (s.useEntry who t).answers k c va t := by
  cases hw : who.core? with
  | none =>
    rw [useEntry_of_noCore hw, State.answers, noted_core]
    exact h
  | some j =>
    by_cases hj : k = j
    · exact useEntry_answers (hw.trans (congrArg some hj.symm)) ht
    · rw [useEntry_of_core hw]
      show (((s.noted t).setCore j _).core k).tlb.find? _ = _
      rw [State.setCore_core_other _ _ hj, noted_core]
      exact h

/-! ### A translation filled for all who waited -/

/-- An entry filled in for requesters one after another. -/
def State.usedByAll (s : State) (l : List Waiter) (t : TlbEntry) : State := l.foldl (fun u who => u.useEntry who t) s

theorem usedByAll_cons (s : State) (who : Waiter) (l : List Waiter) (t : TlbEntry) :
    s.usedByAll (who :: l) t = (s.useEntry who t).usedByAll l t := rfl

theorem answers_usedByAll {s : State} {k : BitVec 10} {c : BitVec 12} {va : Word} {t : TlbEntry} (l : List Waiter) (ht : t.covers c va = true)
    (h : s.answers k c va t) : (s.usedByAll l t).answers k c va t := by
  induction l generalizing s with
  | nil => exact h
  | cons who l ih => exact ih (answers_useEntry who ht h)

theorem usedByAll_answers {s : State} {who : Waiter} {k : BitVec 10} {c : BitVec 12} {va : Word} {t : TlbEntry} {l : List Waiter} (hw : who ∈ l)
    (hk : who.core? = some k) (ht : t.covers c va = true) : (s.usedByAll l t).answers k c va t := by
  induction l generalizing s with
  | nil => cases hw
  | cons x l ih =>
    rcases List.mem_cons.1 hw with rfl | hw
    · exact answers_usedByAll l ht (useEntry_answers hk ht)
    · exact ih hw

theorem usedByAll_outside (s : State) (l : List Waiter) (t : TlbEntry) : s.usedByAll l t = { s with
    cores := (s.usedByAll l t).cores
    mmu := { s.mmu with sects := (s.usedByAll l t).mmu.sects, lastUse := (s.usedByAll l t).mmu.lastUse } } := by
  induction l generalizing s with
  | nil => rfl
  | cons who l ih =>
    rw [usedByAll_cons, ih, useEntry_outside]

/-- A translation that the tracker takes no note of leaves its record. -/
theorem usedByAll_lastUse {s : State} (l : List Waiter) {t : TlbEntry} (h : secondTier (bits t.leaf 51 15 * 2 ^ 15) = false) :
    (s.usedByAll l t).mmu.lastUse = s.mmu.lastUse := by
  induction l generalizing s with
  | nil => rfl
  | cons who l ih =>
    rw [usedByAll_cons, ih, useEntry_outside]
    show (s.noted t).mmu.lastUse = _
    rw [State.noted, noteUse_first h, ite_self]

/-- The frame of a fill for all, as the walks that it ends leave it. -/
theorem usedByAll_frame (u : State) (walks : List Walk) (l : List Waiter) {t : TlbEntry} (h : secondTier (bits t.leaf 51 15 * 2 ^ 15) = false) :
    let v := ({ u with mmu := { u.mmu with walks := walks } } : State).usedByAll l t
    v = { u with cores := v.cores, mmu := { u.mmu with walks := v.mmu.walks, sects := v.mmu.sects } } ∧ v.mmu.walks = walks := by
  intro v
  have hout : v = _ := usedByAll_outside ..
  have hlast : v.mmu.lastUse = u.mmu.lastUse := usedByAll_lastUse l h
  rw [show State.usedByAll _ l t = v from rfl, hlast] at hout
  have hwalks : v.mmu.walks = walks := by rw [hout]
  refine ⟨?_, hwalks⟩
  rw [hwalks]
  exact hout

/-! ### The reads of a walk -/

theorem readTables_walks (s : State) (c : BitVec 12) (va : Word) (tbl n : Nat) : (s.readTables c va tbl n).mmu.walks = s.mmu.walks := by
  induction n generalizing s tbl with
  | zero => rfl
  | succ n ih =>
    simp only [State.readTables]
    have hread : ∀ a (b : Bool), (if b then s else s.partHome a 8 false).mmu.walks = s.mmu.walks := fun a b => by
      cases b
      · exact (partHome_keeps s a 8 false).walks
      · rfl
    split
    · rfl
    · split
      · exact hread ..
      · exact (ih ..).trans (hread ..)

theorem walkReads_walks (s : State) (c : BitVec 12) (va : Word) : (s.walkReads c va).mmu.walks = s.mmu.walks := readTables_walks ..

end Sys2Proof.Machine
end

section
/-! SUPPORT. The events of walks, invalidations and page requests (R75 to R80). -/

namespace Sys2Proof.Machine

/-! ### PAGE_WALK_COMPLETE (R76, R78) -/

/-- A walk whose page lies inside the leaf found for an address. -/
def Walk.inside (x : Walk) (c : BitVec 12) (va : Word) (level : Nat) : Bool :=
  x.ctx = c && x.page / 2 ^ (pageBits level - 15) = va51 va / 2 ^ pageBits level

theorem Walk.inside_iff (x : Walk) (c : BitVec 12) (va : Word) (level : Nat) :
    x.inside c va level = true ↔ x.ctx = c ∧ x.page / 2 ^ (pageBits level - 15) = va51 va / 2 ^ pageBits level := by
  simp [Walk.inside]

/-- The entry that a leaf found for an address fills in covers it. -/
theorem leafEntry_covers (c : BitVec 12) (va : Word) (level : Nat) (e : Word) :
    (⟨c, va51 va / 2 ^ pageBits level, level, e⟩ : TlbEntry).covers c va = true := by simp [TlbEntry.covers]

section
variable {s : State} {c : BitVec 12} (ha : s.ev.a = c.toNat)
include ha

theorem pageWalkComplete_none (h : ((s.mmu.walks.take 64).find? fun w => w.ctx = c && w.page = pageOf s.ev.w) = none) :
    exec .pageWalkComplete s = .next s := by
  show execPageWalkComplete s = _
  simp only [execPageWalkComplete, ha, BitVec.ofNat_toNat, BitVec.setWidth_eq, h]

variable {w : Walk} (hw : ((s.mmu.walks.take 64).find? fun w => w.ctx = c && w.page = pageOf s.ev.w) = some w)
include hw

/-- A leaf is filled in for every miss inside it, and their walks are over. -/
theorem pageWalkComplete_leaf {level : Nat} {e : Word} {a : Nat} (h : s.walk c s.ev.w = .leaf level e a) :
    let u := s.walkReads c s.ev.w
    exec .pageWalkComplete s = .next
      (({ u with mmu := { u.mmu with walks := s.mmu.walks.filter fun x => !x.inside c s.ev.w level } } : State).usedByAll
        ((s.mmu.walks.filter fun x => x.inside c s.ev.w level).flatMap Walk.waiters) ⟨c, va51 s.ev.w / 2 ^ pageBits level, level, e⟩) := by
  intro u
  rw [← walkReads_walks s c s.ev.w]
  show execPageWalkComplete s = _
  simp only [execPageWalkComplete, ha, BitVec.ofNat_toNat, BitVec.setWidth_eq, hw, h]
  rfl

theorem pageWalkComplete_absent (h : s.walk c s.ev.w = .absent) :
    let u := s.walkReads c s.ev.w
    exec .pageWalkComplete s = .next
      (({ u with mmu := { u.mmu with walks := u.mmu.walks.filter fun x => x ≠ w } } : State).pageRequest w.waiters c s.ev.w w.wr w.fx false) := by
  intro u
  show execPageWalkComplete s = _
  simp only [execPageWalkComplete, ha, BitVec.ofNat_toNat, BitVec.setWidth_eq, hw, h, ne_eq, decide_not]
  rfl

theorem pageWalkComplete_bad {kd : BitVec 8} {sub dec : BitVec 4} (h : s.walk c s.ev.w = .bad kd sub dec) :
    let u := s.walkReads c s.ev.w
    exec .pageWalkComplete s = .next { u with mmu := { u.mmu with walks := u.mmu.walks.filter fun x => x ≠ w } } := by
  intro u
  show execPageWalkComplete s = _
  simp only [execPageWalkComplete, ha, BitVec.ofNat_toNat, BitVec.setWidth_eq, hw, h, ne_eq, decide_not]
  rfl

/-- What a leaf leaves, where the tracker takes no note of it: the walks inside it are over, and everyone who waited finds it. -/
theorem pageWalkComplete_fills {level : Nat} {e : Word} {a : Nat} (h : s.walk c s.ev.w = .leaf level e a)
    (hfirst : secondTier (bits e 51 15 * 2 ^ 15) = false) :
    let u := s.walkReads c s.ev.w
    let inside : Walk → Prop := fun x => x.ctx = c ∧ x.page / 2 ^ (pageBits level - 15) = va51 s.ev.w / 2 ^ pageBits level
    ∃ t : State, exec .pageWalkComplete s = .next t ∧
      t = { u with cores := t.cores, mmu := { u.mmu with walks := t.mmu.walks, sects := t.mmu.sects } } ∧
      (∀ x ∈ s.mmu.walks, inside x → ∀ who ∈ x.waiters, who.core? ≠ none →
        t.tlb? who c s.ev.w = some ⟨c, va51 s.ev.w / 2 ^ pageBits level, level, e⟩) ∧
      (∀ x, x ∈ t.mmu.walks ↔ x ∈ s.mmu.walks ∧ ¬ inside x) := by
  intro u inside
  obtain ⟨hframe, hwalks⟩ := usedByAll_frame u (s.mmu.walks.filter fun x => !x.inside c s.ev.w level)
    ((s.mmu.walks.filter fun x => x.inside c s.ev.w level).flatMap Walk.waiters) (t := ⟨c, va51 s.ev.w / 2 ^ pageBits level, level, e⟩) hfirst
  refine ⟨_, pageWalkComplete_leaf ha hw h, hframe, fun x hx hin who hwho hcore => ?_, fun x => ?_⟩
  · obtain ⟨k, hk⟩ := Option.ne_none_iff_exists'.1 hcore
    exact tlb?_of_answers hk (usedByAll_answers (List.mem_flatMap.2
      ⟨x, List.mem_filter.2 ⟨hx, (x.inside_iff ..).2 hin⟩, hwho⟩) hk (leafEntry_covers ..))
  · rw [hwalks, List.mem_filter, Bool.not_eq_true', ← Bool.not_eq_true, Walk.inside_iff]

end

/-! ### Page requests (R78) -/

/-- An access to a page that has been asked for joins its request. -/
theorem pageRequest_joins {s : State} {c : BitVec 12} {va : Word} (h : ∃ r ∈ s.mmu.reqs, r.ctx = c ∧ r.page = pageOf va) (who : List Waiter)
    (wr fx perm : Bool) : ∃ t : State, s.pageRequest who c va wr fx perm = t ∧
      t = { s with mmu := { s.mmu with reqs := t.mmu.reqs } } ∧ t.mmu.reqs.length = s.mmu.reqs.length ∧
      ∀ r ∈ t.mmu.reqs, r.ctx = c → r.page = pageOf va → ∀ x ∈ who, x ∈ r.waiters := by
  have hany : (s.mmu.reqs.any fun r => r.ctx = c && r.page = pageOf va) = true := by simpa using h
  refine ⟨_, rfl, ?_⟩
  rw [State.pageRequest, if_pos hany]
  refine ⟨rfl, List.length_map .., fun r hr hc hp x hx => ?_⟩
  obtain ⟨q, -, rfl⟩ := List.mem_map.1 hr
  by_cases hq : (q.ctx = c && q.page = pageOf va) = true
  · simp only [hq, if_true, List.mem_append, List.mem_filter]
    by_cases hxq : x ∈ q.waiters
    · exact .inl hxq
    · exact .inr ⟨hx, by simpa using hxq⟩
  · simp only [hq] at hc hp
    exact absurd (by simp [show q.ctx = c from hc, show q.page = pageOf va from hp]) hq

theorem pgresp_none {s : State} (h : (s.mmu.reqs.find? fun r => r.prid.toNat = bits s.ev.w 51 40 && r.ctx.toNat = bits s.ev.w 63 52) = none) :
    exec .pgresp s = .next s := by
  show execPgresp s = _
  simp only [execPgresp, h]

theorem pgresp_some {s : State} {r : PageReq}
    (h : (s.mmu.reqs.find? fun r => r.prid.toNat = bits s.ev.w 51 40 && r.ctx.toNat = bits s.ev.w 63 52) = some r) :
    exec .pgresp s = .next { s with mmu := { s.mmu with
      reqs := s.mmu.reqs.erase r
      verdicts := if bit s.ev.w 0 then s.mmu.verdicts ++ r.waiters.map fun x => (x, r.ctx, r.page) else s.mmu.verdicts } } := by
  show execPgresp s = _
  simp only [execPgresp, h]

/-! ### Invalidation (R75, R79, R80) -/

theorem mmuInvalidate_busy {s : State} (h : s.mmu.inval ≠ none) : exec .mmuInvalidate s = .next s :=
  congrArg _ (if_pos (Option.isSome_iff_ne_none.2 h))

theorem mmuInvalidate_starts {s : State} (h : s.mmu.inval = none) : exec .mmuInvalidate s = .next
    (({ s with mmu := { s.mmu with
      inval := some (BitVec.ofNat 12 (bits s.ev.w 63 52), bit s.ev.w 51, pageOf (s.reg (Reg.mmu 0)), bits s.ev.w 31 0) } } : State).setRegBits
      (Reg.mmu 0x10) 0 0 1) :=
  congrArg _ (if_neg (by simp [h]))

theorem invalidationComplete_none {s : State} (h : s.mmu.inval = none) : exec .invalidationComplete s = .next s := by
  show execInvalidationComplete s = _
  simp only [execInvalidationComplete, h]

theorem invalidationComplete_busy {s : State} {c : BitVec 12} {all : Bool} {first n : Nat} (h : s.mmu.inval = some (c, all, first, n))
    (hb : s.invalBusy c all first n = true) : exec .invalidationComplete s = .next s := by
  show execInvalidationComplete s = _
  simp only [execInvalidationComplete, h, hb, if_true]

/-- The state in which the translations and the cached instructions of an invalidation have gone. -/
def State.invalidated (s : State) (c : BitVec 12) (all : Bool) (first n : Nat) : State :=
  let u := (s.dropIcache c fun line => covers all first n 2 (line % 2 ^ 44 / 256)).dropEntries c all first n
  ({ u with mmu := { u.mmu with
    inval := none
    stale := if all then Tab.set none s.mmu.stale c.toNat none else s.mmu.stale } } : State).setRegBits (Reg.mmu 0x10) 0 0 0

theorem invalidationComplete_done {s : State} {c : BitVec 12} {all : Bool} {first n : Nat} (h : s.mmu.inval = some (c, all, first, n))
    (hb : s.invalBusy c all first n = false) : exec .invalidationComplete s = .next (s.invalidated c all first n) := by
  show execInvalidationComplete s = _
  simp only [execInvalidationComplete, h, hb, Bool.false_eq_true, if_false]
  rfl

/-- A table all of whose entries are changed in a way that keeps the default. -/
theorem Tab.get_map {α : Type} (d : α) (f : α → α) (hd : f d = d) (t : Tab α) (k : Nat) :
    Tab.get d (t.map fun x => (x.1, f x.2)) k = f (Tab.get d t k) := by
  induction t with
  | nil => exact hd.symm
  | cons x r ih =>
    obtain ⟨j, v⟩ := x
    by_cases hj : j = k
    · simp [Tab.get, hj]
    · simpa [Tab.get, hj] using ih

theorem kept_iff (d c : BitVec 12) (b : Bool) : (!(decide (d = c) && b)) = true ↔ ¬ (d = c ∧ b = true) := by
  by_cases h : d = c <;> simp [h]

/-- Entries of a list of translations that an invalidation drops are gone, the others stay. -/
theorem mem_keptEntries (c : BitVec 12) (all : Bool) (first n : Nat) (l : List TlbEntry) (e : TlbEntry) :
    e ∈ (l.filter fun t => !(t.ctx = c && covers all first n t.level t.page)) ↔
      e ∈ l ∧ ¬ (e.ctx = c ∧ covers all first n e.level e.page = true) := by
  rw [List.mem_filter, kept_iff]

theorem dropEntries_tlb (s : State) (c : BitVec 12) (all : Bool) (first n : Nat) (k : BitVec 10) :
    ((s.dropEntries c all first n).core k).tlb = (s.core k).tlb.filter fun t => !(t.ctx = c && covers all first n t.level t.page) :=
  congrArg Core.tlb (Tab.get_map Core.idle
    (fun x => { x with tlb := x.tlb.filter fun t => !(t.ctx = c && covers all first n t.level t.page) }) rfl s.cores k.toNat)

theorem dropEntries_sect (s : State) (c : BitVec 12) (all : Bool) (first n : Nat) (k : Nat) :
    (s.dropEntries c all first n).sect k = (s.sect k).filter fun t => !(t.ctx = c && covers all first n t.level t.page) :=
  Tab.get_map [] (fun (l : List TlbEntry) => l.filter fun t => !(t.ctx = c && covers all first n t.level t.page)) rfl s.mmu.sects k

theorem dropEntries_cores (s : State) (c : BitVec 12) (all : Bool) (first n : Nat) :
    ∀ x ∈ (s.dropEntries c all first n).cores, ∀ t ∈ x.2.tlb, ¬ (t.ctx = c ∧ covers all first n t.level t.page = true) := by
  intro x hx t ht
  obtain ⟨y, -, rfl⟩ := List.mem_map.1 hx
  exact ((mem_keptEntries ..).1 ht).2

theorem dropEntries_sects (s : State) (c : BitVec 12) (all : Bool) (first n : Nat) :
    ∀ x ∈ (s.dropEntries c all first n).mmu.sects, ∀ t ∈ x.2, ¬ (t.ctx = c ∧ covers all first n t.level t.page = true) := by
  intro x hx t ht
  obtain ⟨y, -, rfl⟩ := List.mem_map.1 hx
  exact ((mem_keptEntries ..).1 ht).2

/-- A cached instruction line that `dropIcache` leaves, when the TLBs have been swept as well. -/
theorem dropEntries_dropIcache_icache (s : State) (c : BitVec 12) (p : Nat → Bool) (all : Bool) (first n : Nat) :
    ∀ x ∈ ((s.dropIcache c p).dropEntries c all first n).cores, ∀ l ∈ x.2.icache, l.ctx = c → p l.line = false := by
  intro x hx l hl hc
  obtain ⟨y, hy, rfl⟩ := List.mem_map.1 hx
  obtain ⟨z, -, rfl⟩ := List.mem_map.1 hy
  simpa [hc] using (List.mem_filter.1 hl).2

theorem dropIcache_tlb (s : State) (c : BitVec 12) (p : Nat → Bool) (k : BitVec 10) : ((s.dropIcache c p).core k).tlb = (s.core k).tlb :=
  (congrArg Core.tlb
    (Tab.get_map Core.idle (fun x => { x with icache := x.icache.filter fun l => !(l.ctx = c && p l.line) }) rfl s.cores k.toNat)).trans rfl

section
variable (s : State) (c : BitVec 12) (all : Bool) (first n : Nat)

theorem invalidated_ibusy : (s.invalidated c all first n).regBits (Reg.mmu 0x10) 0 0 = 0 :=
  State.setRegBits_regBits_same _ _ _ (by decide)

theorem invalidated_tlb (k : BitVec 10) (e : TlbEntry) : e ∈ ((s.invalidated c all first n).core k).tlb ↔
    e ∈ (s.core k).tlb ∧ ¬ (e.ctx = c ∧ covers all first n e.level e.page = true) := by
  rw [← mem_keptEntries, ← dropIcache_tlb s c fun line => covers all first n 2 (line % 2 ^ 44 / 256), ← dropEntries_tlb]
  rfl

theorem invalidated_sect (k : Nat) (e : TlbEntry) : e ∈ (s.invalidated c all first n).sect k ↔
    e ∈ s.sect k ∧ ¬ (e.ctx = c ∧ covers all first n e.level e.page = true) := by
  rw [← mem_keptEntries, ← dropEntries_sect]
  rfl

theorem invalidated_tables (e : TableEntry) : e ∈ (s.invalidated c all first n).mmu.tables ↔
    e ∈ s.mmu.tables ∧ ¬ (e.ctx = c ∧ covers all first n e.level e.page = true) := by
  show e ∈ (s.mmu.tables.filter fun t => !(t.ctx = c && covers all first n t.level t.page)) ↔ _
  rw [List.mem_filter, kept_iff]

theorem invalidated_icache : ∀ x ∈ (s.invalidated c all first n).cores, ∀ l ∈ x.2.icache, l.ctx = c →
    covers all first n 2 (l.line % 2 ^ 44 / 256) = false :=
  dropEntries_dropIcache_icache s c (fun line => covers all first n 2 (line % 2 ^ 44 / 256)) all first n

/-- After an invalidation of the whole context only its new ROOT and TEN are used (R75). -/
theorem invalidated_stale : (s.invalidated c all first n).mmu.stale = if all then Tab.set none s.mmu.stale c.toNat none else s.mmu.stale := rfl

end

end Sys2Proof.Machine
end

section
/-! SUPPORT. Skims and the hot-page tracker (R85 to R88). -/

namespace Sys2Proof.Machine

/-! ### A skim starts (R85) -/

/-- An address that is translated, as one that names a page to skim has to be (R71, R75). -/
def State.translated (s : State) (c : BitVec 12) (va : Word) : Prop := canonical va = true ∧ inCodeWindow va = false ∧ s.ten c va = true

/-- A skim of the page of an address is under way. -/
def State.skimmed (s : State) (c : BitVec 12) (va : Word) : Prop := ∃ k ∈ s.mmu.skims, k.ctx = c ∧ k.page = pageOf va

theorem skimmed_iff (s : State) (c : BitVec 12) (va : Word) :
    (s.mmu.skims.any fun k => k.ctx = c && k.page = pageOf va) = true ↔ s.skimmed c va := by simp [State.skimmed]

theorem not_skimmed_iff (s : State) (c : BitVec 12) (va : Word) :
    (s.mmu.skims.any fun k => k.ctx = c && k.page = pageOf va) = false ↔ ∀ k ∈ s.mmu.skims, ¬ (k.ctx = c ∧ k.page = pageOf va) := by
  rw [← Bool.not_eq_true, skimmed_iff, State.skimmed]
  push Not
  rfl

theorem translated_iff (s : State) (c : BitVec 12) (va : Word) :
    (!canonical va || inCodeWindow va || !s.ten c va) = false ↔ s.translated c va := by
  simp [State.translated, and_assoc]

section
variable {s : State} {c : BitVec 12} {va : Word} (dst : Nat) (req : Bool)

theorem startSkim_untranslated (h : ¬ s.translated c va) : s.startSkim c va dst req = s := by
  rw [← translated_iff, Bool.not_eq_false] at h
  exact if_pos h

/-- Only a 32 KiB page is skimmed. -/
theorem startSkim_noPage (h : s.translated c va) (hw : ∀ e a, s.walk c va ≠ .leaf 2 e a) : s.startSkim c va dst req = s.walkReads c va := by
  rw [State.startSkim, if_neg (by rw [(translated_iff s c va).2 h]; exact Bool.false_ne_true)]
  simp only

variable (h : s.translated c va) {e : Word} {a : Nat} (hw : s.walk c va = .leaf 2 e a)
include h hw

theorem startSkim_leaf :
    let u := s.walkReads c va
    s.startSkim c va dst req =
      if Config.fittingL || u.mmu.skims.any (fun k => k.ctx = c && k.page = pageOf va) then u
      else { u with mmu := { u.mmu with skims := u.mmu.skims ++ [⟨c, pageOf va, .copy, Pte.pfn e, dst, e, 0, 0, req, 0⟩] } } := by
  rw [State.startSkim, if_neg (by rw [(translated_iff s c va).2 h]; exact Bool.false_ne_true), hw]
  rfl

theorem startSkim_starts (hk : ∀ k ∈ (s.walkReads c va).mmu.skims, ¬ (k.ctx = c ∧ k.page = pageOf va)) :
    let u := s.walkReads c va
    s.startSkim c va dst req = if Config.fittingL then u else { u with mmu := { u.mmu with skims := u.mmu.skims ++
      [⟨c, pageOf va, .copy, Pte.pfn e, dst, e, 0, 0, req, 0⟩] } } := by
  rw [startSkim_leaf dst req h hw, (not_skimmed_iff ..).2 hk, Bool.or_false]

omit hw in
/-- A page is skimmed once at a time. -/
theorem startSkim_skimmed (hk : (s.walkReads c va).skimmed c va) : s.startSkim c va dst req = s.walkReads c va := by
  by_cases hw : ∃ e a, s.walk c va = .leaf 2 e a
  · obtain ⟨e, a, hw⟩ := hw
    exact (startSkim_leaf dst req h hw).trans (if_pos (by rw [(skimmed_iff ..).2 hk, Bool.or_true]))
  · exact startSkim_noPage dst req h fun e a he => hw ⟨e, a, he⟩

end

theorem skimRequest_eq (s : State) : exec .skimRequest s = .next
    (s.startSkim (BitVec.ofNat 12 (bits s.ev.w 63 52)) (s.reg (Reg.mmu 0x20)) (bits s.ev.w 51 15 * 2 ^ 15) true) := rfl

/-! ### The promotion pool (R75) and the candidates of the tracker (R88) -/

section
variable (s : State) (c : BitVec 12)

theorem poolTake_empty (h : s.regBits (Reg.trans c.toNat 16) 55 44 = 0 ∨
    s.regBits (Reg.trans c.toNat 32) 63 48 = s.regBits (Reg.trans c.toNat 32) 47 32) : s.poolTake c = none := by
  unfold State.poolTake
  exact if_pos (by rw [Bool.or_eq_true, decide_eq_true_eq, decide_eq_true_eq]; exact h)

theorem poolTake_some (hn : s.regBits (Reg.trans c.toNat 16) 55 44 ≠ 0)
    (h : s.regBits (Reg.trans c.toNat 32) 63 48 ≠ s.regBits (Reg.trans c.toNat 32) 47 32) :
    let n := s.regBits (Reg.trans c.toNat 16) 55 44
    let head := s.regBits (Reg.trans c.toNat 32) 63 48
    let x := s.readWord (s.poolEntry c (head % n))
    s.poolTake c = some (x.1.setRegBits (Reg.trans c.toNat 32) 63 48 ((head + 1) % n), x.2.toNat * 2 ^ 15) := by
  unfold State.poolTake
  exact if_neg (by rw [Bool.or_eq_true, decide_eq_true_eq, decide_eq_true_eq]; exact not_or.2 ⟨hn, h⟩)

end

/-- The state after a page has been taken from the tracker's candidates. -/
def State.untracked (s : State) (c : BitVec 12) : State :=
  { s with mmu := { s.mmu with hotPages := s.mmu.hotPages.erase (c, pageOf s.ev.w) } }

/-- What a candidate comes to, by what the walk to its page has found. -/
def State.candidate (v : State) (c : BitVec 12) (va : Word) : WalkRes → State
  | .leaf 2 e _ =>
    if Pte.pp e then v.countReg (Reg.trans c.toNat 48) 31 0
    else if v.regBits (Reg.trans c.toNat 0) 1 1 = 0 || 16 ≤ v.mmu.skims.length ||
        v.mmu.skims.any (fun k => k.ctx = c && k.page = pageOf va) then v
    else
      match v.poolTake c with
      | some (x, f) => x.startSkim c va f false
      | none => v
  | _ => v

section
variable {v : State} {c : BitVec 12} {va : Word}

theorem candidate_noPage {r : WalkRes} (h : ∀ e a, r ≠ .leaf 2 e a) : v.candidate c va r = v := by
  unfold State.candidate
  split
  · exact (h _ _ rfl).elim
  · rfl

variable {e : Word} (a : Nat)

theorem candidate_pinned (hp : Pte.pp e = true) : v.candidate c va (.leaf 2 e a) = v.countReg (Reg.trans c.toNat 48) 31 0 := if_pos hp

/-- A candidate for which no skim can start is dropped. -/
theorem candidate_dropped (hp : Pte.pp e = false)
    (h : v.regBits (Reg.trans c.toNat 0) 1 1 = 0 ∨ 16 ≤ v.mmu.skims.length ∨ v.skimmed c va ∨ v.poolTake c = none) :
    v.candidate c va (.leaf 2 e a) = v := by
  simp only [State.candidate, hp, Bool.false_eq_true, if_false]
  split
  · rfl
  · rename_i hgo
    simp only [Bool.or_eq_true, decide_eq_true_eq, skimmed_iff, not_or] at hgo
    obtain ⟨⟨hen, hroom⟩, hnew⟩ := hgo
    rw [((h.resolve_left hen).resolve_left hroom).resolve_left hnew]

theorem candidate_starts (hp : Pte.pp e = false) (hen : v.regBits (Reg.trans c.toNat 0) 1 1 = 1) (hroom : v.mmu.skims.length < 16)
    (hnew : ∀ k ∈ v.mmu.skims, ¬ (k.ctx = c ∧ k.page = pageOf va)) {x : State} {f : Nat} (hpool : v.poolTake c = some (x, f)) :
    v.candidate c va (.leaf 2 e a) = x.startSkim c va f false := by
  simp only [State.candidate, hp, hen, Nat.not_le.2 hroom, (not_skimmed_iff ..).2 hnew, hpool, Nat.one_ne_zero, decide_false, Bool.or_self,
    Bool.false_eq_true, if_false]

end

section
variable {s : State} {c : BitVec 12} (ha : s.ev.a = c.toNat)
include ha

theorem hotPageCandidate_none (h : (c, pageOf s.ev.w) ∉ s.mmu.hotPages) : exec .hotPageCandidate s = .next s := by
  obtain rfl : c = BitVec.ofNat 12 s.ev.a := by rw [ha, BitVec.ofNat_toNat, BitVec.setWidth_eq]
  exact congrArg _ (if_pos (by rw [decide_eq_false h]; rfl))

/-- A candidate's page is walked to. -/
theorem hotPageCandidate_some (h : (c, pageOf s.ev.w) ∈ s.mmu.hotPages) : exec .hotPageCandidate s = .next
    (((s.untracked c).walkReads c s.ev.w).candidate c s.ev.w ((s.untracked c).walk c s.ev.w)) := by
  obtain rfl : c = BitVec.ofNat 12 s.ev.a := by rw [ha, BitVec.ofNat_toNat, BitVec.setWidth_eq]
  exact congrArg _ (if_neg (by rw [decide_eq_true h]; exact Bool.false_ne_true))

end

/-! ### The counts of the tracker halved (R88) -/

def halved (t : Tab Nat) : Tab Nat := (t.map fun x => (x.1, x.2 / 2)).filter fun x => x.2 ≠ 0

theorem halved_wf {t : Tab Nat} (h : Tab.wf 0 t = true) : Tab.wf 0 (halved t) = true := by
  obtain ⟨hkeys, -⟩ := (Tab.wf_iff 0 t).1 h
  have hmap : (t.map fun x => (x.1, x.2 / 2)).Pairwise fun x y => x.1 < y.1 := List.pairwise_map.2 hkeys
  refine (Tab.wf_iff 0 _).2 ⟨hmap.filter _, fun x hx => ?_⟩
  simpa using (List.mem_filter.1 hx).2

/-- A key that is listed nowhere reads as the default. -/
theorem Tab.get_unlisted {α : Type} (d : α) {t : Tab α} {k : Nat} (h : ∀ x ∈ t, x.1 ≠ k) : Tab.get d t k = d := by
  induction t with
  | nil => rfl
  | cons x r ih =>
    rw [Tab.get, if_neg (h x List.mem_cons_self)]
    exact ih fun y hy => h y (List.mem_cons_of_mem _ hy)

theorem get_halved {t : Tab Nat} (h : Tab.wf 0 t = true) (k : Nat) : Tab.get 0 (halved t) k = Tab.get 0 t k / 2 := by
  obtain ⟨hkeys, -⟩ := (Tab.wf_iff 0 t).1 h
  clear h
  induction t with
  | nil => simp [halved, Tab.get]
  | cons x r ih =>
    obtain ⟨j, v⟩ := x
    obtain ⟨hlater, hkeys⟩ := List.pairwise_cons.1 hkeys
    have ih := ih hkeys
    by_cases hv : v / 2 = 0
    · have hdrop : halved ((j, v) :: r) = halved r := by simp [halved, hv]
      rw [hdrop, ih, Tab.get]
      split
      · rw [Tab.get_unlisted 0 fun y hy => ?_, hv]
        have := hlater y hy
        omega
      · rfl
    · have hkeep : halved ((j, v) :: r) = (j, v / 2) :: halved r := by simp [halved, hv]
      rw [hkeep, Tab.get, Tab.get, ih]
      split <;> rfl

theorem hotPageDecay_early {s : State} (h : (s.timebase - s.mmu.decayAt).toNat < 1000000) : exec .hotPageDecay s = .next s :=
  congrArg _ (if_pos h)

theorem hotPageDecay_due {s : State} (h : 1000000 ≤ (s.timebase - s.mmu.decayAt).toNat) : exec .hotPageDecay s =
    .next { s with mmu := { s.mmu with hot := halved s.mmu.hot, decayAt := s.mmu.decayAt + 1000000 } } :=
  congrArg _ (if_neg (Nat.not_lt.2 h))

/-! ### SKIM_COPY_DONE (R85) -/

theorem skimCopyDone_none {s : State} (h : s.skim? .copy = none) : exec .skimCopyDone s = .next s := by
  show execSkimCopyDone s = _
  simp only [execSkimCopyDone, h]

theorem skimCopyDone_waits {s : State} {k : Skim} (h : s.skim? .copy = some k) (hk : s.copyWaits k = true) :
    exec .skimCopyDone s = .next ((s.copyHalves k).foldl (fun s x => s.askHalves x.1 64 x.2) s) := by
  show execSkimCopyDone s = _
  simp only [execSkimCopyDone, h, hk, if_true]

/-- The copy made, with a stamp: earlier stores to the page have gone to the home before it. -/
def State.skimCopied (s : State) (k : Skim) : State × Nat :=
  ((((s.sendBuffers (k.src / 2 ^ 15)).flushMerges fun m => m.line / 256 = k.src / 2 ^ 15).flushMasked (k.src / 2 ^ 15)).copyFrame
    k.src k.dst 256).stamp

theorem skimCopyDone_holds {s : State} {k k' : Skim} (h : s.skim? .copy = some k) (hk : s.copyWaits k = false)
    (hk' : (s.skimCopied k).1.skim? .copy = some k') :
    exec .skimCopyDone s = .next ((s.skimCopied k).1.putSkim k' { k' with st := .hold, since := (s.skimCopied k).2 }) := by
  show execSkimCopyDone s = _
  simp only [execSkimCopyDone, h, hk, Bool.false_eq_true, if_false]
  unfold State.skimCopied at hk' ⊢
  generalize State.copyFrame _ _ _ _ = u at hk' ⊢
  simp only [hk']

/-! ### SKIM_HOLD_DONE (R85, R86) -/

/-- Lines dropped leave the TLBs of the cores. -/
theorem discardLines_tlb (s : State) (p : Nat → Bool) : ∀ x ∈ (s.discardLines p).cores, ∃ y ∈ s.cores, x.2.tlb = y.2.tlb := by
  intro x hx
  obtain ⟨y, hy, rfl⟩ := List.mem_map.1 hx
  refine ⟨y, ?_, rfl⟩
  have hcores : (s.unlocked p).cores = s.cores := by rw [(s.unlocked_locksOnly p).outside]
  exact hcores ▸ hy

section
variable (u : State) (c : BitVec 12) (all : Bool) (first n : Nat) (p : Nat → Bool)

theorem switched_mem : ((u.dropEntries c all first n).discardLines p).mem = u.mem := by
  rw [discardLines_mem]
  rfl

theorem switched_tlb : ∀ x ∈ ((u.dropEntries c all first n).discardLines p).cores, ∀ t ∈ x.2.tlb,
    ¬ (t.ctx = c ∧ covers all first n t.level t.page = true) := by
  intro x hx t ht
  obtain ⟨y, hy, htlb⟩ := discardLines_tlb _ p x hx
  exact dropEntries_cores u c all first n y hy t (htlb ▸ ht)

theorem switched_sects : ∀ x ∈ ((u.dropEntries c all first n).discardLines p).mmu.sects, ∀ t ∈ x.2,
    ¬ (t.ctx = c ∧ covers all first n t.level t.page = true) := by
  rw [discardLines_outside]
  exact dropEntries_sects u c all first n

end

theorem skimHoldDone_none {s : State} (h : s.skim? .hold = none) : exec .skimHoldDone s = .next s := by
  show execSkimHoldDone s = _
  simp only [execSkimHoldDone, h]

section
variable {s : State} {k : Skim} (h : s.skim? .hold = some k)
include h

theorem skimHoldDone_busy (hb : s.busyAt (inPage (k.src / 2 ^ 15)) k.since = true) : exec .skimHoldDone s = .next s := by
  show execSkimHoldDone s = _
  simp only [execSkimHoldDone, h, hb, if_true]

variable (hb : s.busyAt (inPage (k.src / 2 ^ 15)) k.since = false)
include hb

theorem skimHoldDone_noPage (hw : ∀ e a, s.walk k.ctx (vaOf (k.page * 2 ^ 15)) ≠ .leaf 2 e a) :
    exec .skimHoldDone s = .next ((s.walkReads k.ctx (vaOf (k.page * 2 ^ 15))).endSkim k 2) := by
  show execSkimHoldDone s = _
  simp only [execSkimHoldDone, h, hb, Bool.false_eq_true, if_false]

variable {e : Word} {a : Nat} (hw : s.walk k.ctx (vaOf (k.page * 2 ^ 15)) = .leaf 2 e a)
include hw

/-- A page whose leaf has changed, or been pinned, is left where it is. -/
theorem skimHoldDone_changed (he : e ||| 4 ≠ k.leaf ||| 4 ∨ Pte.pp e = true) :
    exec .skimHoldDone s = .next ((s.walkReads k.ctx (vaOf (k.page * 2 ^ 15))).endSkim k 2) := by
  show execSkimHoldDone s = _
  simp only [execSkimHoldDone, h, hb, hw, Bool.false_eq_true, if_false]
  exact congrArg _ (if_pos (by simpa using he))

/-- CHECK of a leaf as it was, by what has been written since the copy began and how often it has been made. -/
theorem skimHoldDone_checked (he : e ||| 4 = k.leaf ||| 4) (hp : Pte.pp e = false) :
    let r := s.walkReads k.ctx (vaOf (k.page * 2 ^ 15))
    exec .skimHoldDone s = .next (
      if k.filter = 0 then
        (((r.writeOut a 8 (setBits (setBits e 51 15 (k.dst / 2 ^ 15)) 2 2 0).toNat).dropEntries k.ctx false k.page 1).discardLines
          fun l => inPage (k.src / 2 ^ 15) (128 * l)).endSkim k 0
      else if k.retry.toNat < r.regBits (Reg.trans k.ctx.toNat 16) 63 56 then
        (r.putSkim k { k with st := .copy, filter := 0, retry := k.retry + 1 }).countReg (Reg.trans k.ctx.toNat 48) 63 32
      else r.endSkim k 1) := by
  intro r
  show execSkimHoldDone s = _
  simp only [execSkimHoldDone, h, hb, hw, Bool.false_eq_true, if_false]
  exact congrArg _ (if_neg (by rw [hp, decide_eq_false (not_not.2 he)]; exact Bool.false_ne_true))

/-- SWITCH: the leaf has the new frame, and no translation of the page and no line of the old frame is left. -/
theorem skimHoldDone_switches (he : e ||| 4 = k.leaf ||| 4) (hp : Pte.pp e = false) (hf : k.filter = 0) :
    let r := s.walkReads k.ctx (vaOf (k.page * 2 ^ 15))
    ∃ u v : State, exec .skimHoldDone s = .next (v.endSkim k 0) ∧
      u = r.writeOut a 8 (setBits (setBits e 51 15 (k.dst / 2 ^ 15)) 2 2 0).toNat ∧ v.mem = u.mem ∧
      (∀ x ∈ v.cores, ∀ t ∈ x.2.tlb, ¬ (t.ctx = k.ctx ∧ covers false k.page 1 t.level t.page = true)) ∧
      (∀ x ∈ v.mmu.sects, ∀ t ∈ x.2, ¬ (t.ctx = k.ctx ∧ covers false k.page 1 t.level t.page = true)) ∧
      (∀ l ∈ v.coh.l2, inPage (k.src / 2 ^ 15) (128 * l.line) = false) ∧
      ∀ x ∈ v.cores, ∀ l ∈ x.2.l1, inPage (k.src / 2 ^ 15) (128 * l.line) = false := by
  intro r
  exact ⟨_, _, (skimHoldDone_checked h hb hw he hp).trans (congrArg _ (if_pos hf)), rfl, switched_mem .., switched_tlb _ _ _ _ _ _,
    switched_sects _ _ _ _ _ _, discardLines_l2 _ _, discardLines_l1 _ _⟩

end

end Sys2Proof.Machine
end

section
/-! SUPPORT. The statement about translation, by the fitting: it holds of an -L part, which has no second tier, and fails of an -H part, where a
leaf of the second tier is also noted as the last translation to its frame, for the hot-page tracker (R88). -/

namespace Sys2Proof.Machine

/-! ### The -L part -/

theorem secondTier_ofFittingL (hf : Config.fittingL = true) (pa : Nat) : secondTier pa = false := by
  rw [secondTier, hf, Bool.not_true, Bool.and_false]

/-- On an -L part every clause of the statement holds. -/
theorem translationEvents_ofFittingL (hf : Config.fittingL = true) : Obligations.TranslationEvents := by
  unfold Obligations.TranslationEvents
  refine ⟨fun s c ha => ?_, fun s who c va wr fx perm h => pageRequest_joins h who wr fx perm, fun s => ?_, fun s => ?_, fun s c => ?_,
    fun s c ha => ?_, fun s => ?_, fun s => ?_⟩
  · exact ⟨pageWalkComplete_none ha, fun w hw => ⟨fun level e a h => pageWalkComplete_fills ha hw h (secondTier_ofFittingL hf _),
      pageWalkComplete_absent ha hw, fun _ _ _ => pageWalkComplete_bad ha hw⟩⟩
  · refine ⟨mmuInvalidate_busy, fun h => ⟨_, mmuInvalidate_starts h, State.setRegBits_regBits_same _ _ _ (by decide), rfl, rfl⟩,
      invalidationComplete_none, fun c all first n h => ⟨invalidationComplete_busy h, fun hb => ?_⟩, ?_⟩
    · exact ⟨_, invalidationComplete_done h hb, rfl, invalidated_ibusy s c all first n, invalidated_tlb s c all first n,
        invalidated_sect s c all first n, invalidated_tables s c all first n, invalidated_icache s c all first n,
        fun hall => by rw [invalidated_stale, if_pos hall, Tab.get_set_same],
        fun hpart => by rw [invalidated_stale, hpart]; rfl, rfl⟩
    · rintro f rfl
      exact ⟨pgresp_none, fun r hr => ⟨_, pgresp_some hr, rfl, fun hv => if_neg (by simp [hv]), fun hv => if_pos hv⟩⟩
  · refine ⟨fun h => ?_, fun hn h => ?_, fun hn e a hw hk => ?_⟩
    · exact (skimRequest_eq s).trans (congrArg _ (startSkim_untranslated _ _ h))
    · refine (skimRequest_eq s).trans (congrArg _ ?_)
      rcases h with hw | hk
      · exact startSkim_noPage _ _ hn hw
      · exact startSkim_skimmed _ _ hn hk
    · exact (skimRequest_eq s).trans (congrArg _ (startSkim_starts _ _ hn hw hk))
  · exact ⟨poolTake_empty s c, poolTake_some s c⟩
  · refine ⟨hotPageCandidate_none ha, fun h => ?_⟩
    have hnext := hotPageCandidate_some ha h
    refine ⟨fun hw => hnext.trans (congrArg _ (candidate_noPage hw)), fun e a hw => ?_⟩
    rw [show (s.untracked c).walk c s.ev.w = _ from hw] at hnext
    exact ⟨fun hp => hnext.trans (congrArg _ (candidate_pinned a hp)), fun hp hno => hnext.trans (congrArg _ (candidate_dropped a hp hno)),
      fun hp hen hroom hnew x f hpool => hnext.trans (congrArg _ (candidate_starts a hp hen hroom hnew hpool))⟩
  · exact ⟨hotPageDecay_early, fun h => ⟨_, hotPageDecay_due h, rfl, fun hwf => ⟨halved_wf hwf, get_halved hwf⟩⟩⟩
  · refine ⟨skimCopyDone_none, fun k h hk => skimCopyDone_waits h hk, fun k k' h hk hk' => skimCopyDone_holds h hk hk', skimHoldDone_none,
      fun k h => ⟨skimHoldDone_busy h, fun hb => ⟨skimHoldDone_noPage h hb, fun e a hw => ?_⟩⟩⟩
    refine ⟨skimHoldDone_changed h hb hw, fun he hp => ?_⟩
    refine ⟨fun hf hr => ?_, fun hf hr => ?_, skimHoldDone_switches h hb hw he hp⟩
    · exact (skimHoldDone_checked h hb hw he hp).trans (congrArg _ ((if_neg hf).trans (if_neg (Nat.not_lt.2 hr))))
    · exact (skimHoldDone_checked h hb hw he hp).trans (congrArg _ ((if_neg hf).trans (if_pos hr)))

/-! ### The -H part -/

section
variable {s : State} {c : BitVec 12} {va : Word} {tbl n : Nat} {e : Word}

theorem entryFault_none {level a : Nat} (hp : populated a = true) (hu : s.unreachable a = none) : s.entryFault c va level a = none := by
  simp [State.entryFault, hp, hu]

variable (hf : s.entryFault c va (2 - n) (entryPa va tbl (2 - n)) = none)
  (he : s.entryAt c va (2 - n) (entryPa va tbl (2 - n)) = (e, false)) (hv : Pte.v e = true) (hm : Pte.malformed e (2 - n) = false)
include hf he hv hm

/-- A walk goes on through the entry of a table. -/
theorem walkFrom_table (hl : Pte.lf e = false) : s.walkFrom c va tbl (n + 1) = s.walkFrom c va (Pte.pfn e) n := by
  simp [State.walkFrom, hf, he, hv, hm, hl]

theorem walkFrom_leaf (hl : Pte.lf e = true) : s.walkFrom c va tbl (n + 1) = .leaf (2 - n) e (entryPa va tbl (2 - n)) := by
  simp [State.walkFrom, hf, he, hv, hm, hl]

/-- An entry that the walk cache holds is not read, and becomes the most recent there. -/
theorem readTables_cached (hl : Pte.lf e = false) (hc : (s.cached? c va (2 - n)).isSome = true) : s.readTables c va tbl (n + 1) =
    (s.cacheTable ⟨c, 2 - n, va51 va / 2 ^ pageBits (2 - n), e⟩).readTables c va (Pte.pfn e) n := by
  simp [State.readTables, hf, he, hv, hm, hl, hc]

theorem readTables_leaf (hl : Pte.lf e = true) (hc : s.cached? c va (2 - n) = none) :
    s.readTables c va tbl (n + 1) = s.partHome (entryPa va tbl (2 - n)) 8 false := by
  simp [State.readTables, hf, he, hv, hm, hl, hc]

end

/-- The leaf of a 32 KiB page at 2^48, where the second tier begins: V, LF, D, W, X and type SM. -/
def farLeaf : Word := 0x100000000011F

/-- The walk of VA 0, for which the group of slot 0 of core 0 waits. -/
def farWaits : Walk := ⟨0, 0, false, false, [.group 0 0]⟩

/-- Context 0 has its tables at 0, 0x8000 and 0x10000, and the walk cache holds the entries of the first two that lead VA 0 to `farLeaf`. -/
def farTables (tables : List TableEntry) : State :=
  { State.reset with
    mgmt := [(Reg.trans 0 0, 1)]
    mmu := { State.reset.mmu with walks := [farWaits], tables := tables }
    coh := { State.reset.coh with l2 := [⟨512, 0x100000000011F, 0, 0, [], false⟩] } }

def farTop : TableEntry := ⟨0, 0, 0, 0x8001⟩
def farMiddle : TableEntry := ⟨0, 1, 0, 0x10001⟩

def farWalk : State := farTables [farTop, farMiddle]

theorem farWalk_found : ((farWalk.mmu.walks.take 64).find? fun w => w.ctx = 0 && w.page = pageOf farWalk.ev.w) = some farWaits := by
  decide +kernel

section
variable (hf : Config.fittingL = false)
include hf

theorem populated_media_ofFittingH {pa : Nat} (h : pa < 0x6000000000) : populated pa = true := by
  rw [populated, decide_eq_true (show pa < 2 ^ 52 by omega), hf, decide_eq_true h]
  rfl

theorem secondTier_ofFittingH {pa : Nat} (h : 2 ^ 48 ≤ pa) : secondTier pa = true := by
  rw [secondTier, decide_eq_true h, hf]
  rfl

theorem farLeaf_formed : Pte.malformed farLeaf 2 = false := by
  have hs : secondTier (Pte.pfn farLeaf) = true := secondTier_ofFittingH hf (by decide)
  simp only [Pte.malformed, hs]
  decide

/-- The tables can be read. -/
theorem farTables_readable (tables : List TableEntry) (level : Nat) {a : Nat} (h : a < 0x6000000000) :
    (farTables tables).entryFault 0 0 level a = none := by
  have hs : secondTier a = false := by
    rw [secondTier, decide_eq_false (by omega)]
    rfl
  have hl : (farTables tables).lost a = false := by
    rw [State.lost, hs]
    rfl
  refine entryFault_none (populated_media_ofFittingH hf h) ?_
  rw [State.unreachable, if_neg (by simp [farTables, State.reset]), hl]
  rfl

theorem farWalk_walk : farWalk.walk 0 0 = .leaf 2 farLeaf 0x10000 := by
  have hr (level : Nat) {a : Nat} (h : a < 0x6000000000) : farWalk.entryFault 0 0 level a = none := farTables_readable hf _ level h
  calc farWalk.walkFrom 0 0 0 3
    _ = farWalk.walkFrom 0 0 0x8000 2 :=
      walkFrom_table (n := 2) (e := 0x8001) (hr _ (by decide)) (by decide +kernel) (by decide) (by decide) (by decide)
    _ = farWalk.walkFrom 0 0 0x10000 1 :=
      walkFrom_table (n := 1) (e := 0x10001) (hr _ (by decide)) (by decide +kernel) (by decide) (by decide) (by decide)
    _ = .leaf 2 farLeaf 0x10000 :=
      walkFrom_leaf (n := 0) (e := farLeaf) (hr _ (by decide)) (by decide +kernel) (by decide) (farLeaf_formed hf) (by decide)

theorem farWalk_reads : farWalk.walkReads 0 0 = (farTables [farMiddle, farTop]).partHome 0x10000 8 false := by
  have hr (tables : List TableEntry) (level : Nat) {a : Nat} (h : a < 0x6000000000) : (farTables tables).entryFault 0 0 level a = none :=
    farTables_readable hf tables level h
  calc farWalk.readTables 0 0 0 3
    _ = farWalk.readTables 0 0 0x8000 2 :=
      readTables_cached (n := 2) (e := 0x8001) (hr _ _ (by decide)) (by decide +kernel) (by decide) (by decide) (by decide) (by decide +kernel)
    _ = (farTables [farMiddle, farTop]).readTables 0 0 0x10000 1 :=
      readTables_cached (n := 1) (e := 0x10001) (hr _ _ (by decide)) (by decide +kernel) (by decide) (by decide) (by decide) (by decide +kernel)
    _ = (farTables [farMiddle, farTop]).partHome 0x10000 8 false :=
      readTables_leaf (n := 0) (e := farLeaf) (hr _ _ (by decide)) (by decide +kernel) (by decide) (farLeaf_formed hf) (by decide)
        (by decide +kernel)

/-- The reads of the walk note no translation. -/
theorem farWalk_reads_lastUse : (farWalk.walkReads 0 0).mmu.lastUse = [] := by
  rw [farWalk_reads hf]
  decide +kernel

/-- On an -H part the statement fails: the leaf that `farWalk` finds is filled in and also noted as the last translation to its frame, where the
statement says that of the MMU only the walks and the TLBs change. -/
theorem not_translationEvents_ofFittingH : ¬ Obligations.TranslationEvents := by
  intro hall
  obtain ⟨hwalks, -⟩ := hall
  obtain ⟨-, hfound⟩ := hwalks farWalk 0 rfl
  obtain ⟨hleaf, -⟩ := hfound farWaits farWalk_found
  obtain ⟨t, hnext, hframe, -⟩ := hleaf 2 farLeaf 0x10000 (farWalk_walk hf)
  have hsays : t.mmu.lastUse = [] := by
    rw [hframe]
    exact farWalk_reads_lastUse hf
  rw [pageWalkComplete_leaf (s := farWalk) (c := 0) rfl farWalk_found (farWalk_walk hf)] at hnext
  injection hnext with hnext
  have hfar : secondTier (bits farLeaf 51 15 * 2 ^ 15) = true := secondTier_ofFittingH hf (by decide)
  have hdoes : Tab.get none t.mmu.lastUse (bits farLeaf 51 15) = some (0, 0) := by
    rw [← hnext]
    exact useEntry_notes _ (.group 0 0) (t := ⟨0, 0, 2, farLeaf⟩) rfl hfar (by decide)
  rw [hsays] at hdoes
  cases hdoes

end

/-- The statement says which fitting the part has, a constant of Config without a value, so that neither it nor its negation can be proved. -/
theorem translationEvents_iff_fittingL : Obligations.TranslationEvents ↔ Config.fittingL = true :=
  ⟨fun h => by_contra fun hf => not_translationEvents_ofFittingH (Bool.eq_false_iff.2 hf) h, translationEvents_ofFittingL⟩

end Sys2Proof.Machine
end

section
/-! SUPPORT. EXIT (R282): what a group that leaves releases (R123, R159), and the end of the last group's launch (R100, R145). -/

namespace Sys2Proof.Machine

/-! ### Batch slots freed (R159) -/

section
variable {α : Type}

/-- What a listed key reads is listed there. -/
theorem Tab.mem_of_get {d : α} {t : Tab α} {k : Nat} (h : Tab.get d t k ≠ d) : (k, Tab.get d t k) ∈ t := by
  induction t with
  | nil => exact absurd rfl h
  | cons x r ih =>
    obtain ⟨j, v⟩ := x
    by_cases hj : j = k
    · simp [Tab.get, hj]
    · simp only [Tab.get, hj, if_false] at h ⊢
      exact List.mem_cons_of_mem _ (ih h)

/-- In a table with rising keys every entry is what its key reads. -/
theorem Tab.get_of_mem (d : α) {t : Tab α} (ht : t.Pairwise fun x y => x.1 < y.1) {x : Nat × α} (hx : x ∈ t) : Tab.get d t x.1 = x.2 := by
  induction t with
  | nil => cases hx
  | cons y r ih =>
    obtain ⟨hy, hr⟩ := List.pairwise_cons.1 ht
    obtain rfl | hxr := List.mem_cons.1 hx
    · simp [Tab.get]
    · simp [Tab.get, (hy x hxr).ne, ih hr hxr]

variable [DecidableEq α] (d : α) (f : α → α)

/-- The entries of `l` written over the table `t`, each changed by `f`. -/
def Tab.setAll (l t : Tab α) : Tab α := l.foldl (fun t x => Tab.set d t x.1 (f x.2)) t

/-- A key that is not among those written reads as before. -/
theorem Tab.get_setAll_other {l : Tab α} (t : Tab α) {k : Nat} (h : ∀ x ∈ l, x.1 ≠ k) : Tab.get d (Tab.setAll d f l t) k = Tab.get d t k := by
  induction l generalizing t with
  | nil => rfl
  | cons x r ih =>
    exact (ih _ fun y hy => h y (List.mem_cons_of_mem _ hy)).trans (Tab.get_set_other _ _ _ (h x List.mem_cons_self).symm)

/-- A key that is written reads as one of the entries written there. -/
theorem Tab.get_setAll_mem {l : Tab α} (t : Tab α) {k : Nat} (h : ∃ x ∈ l, x.1 = k) :
    ∃ x ∈ l, x.1 = k ∧ Tab.get d (Tab.setAll d f l t) k = f x.2 := by
  induction l generalizing t with
  | nil => simp at h
  | cons x r ih =>
    by_cases hr : ∃ y ∈ r, y.1 = k
    · obtain ⟨y, hy, hk, hget⟩ := ih (Tab.set d t x.1 (f x.2)) hr
      exact ⟨y, List.mem_cons_of_mem _ hy, hk, hget⟩
    · have hx : x.1 = k := by
        obtain ⟨y, hy, hk⟩ := h
        obtain rfl | hyr := List.mem_cons.1 hy
        · exact hk
        · exact absurd ⟨y, hyr, hk⟩ hr
      refine ⟨x, List.mem_cons_self, hx, ?_⟩
      refine (Tab.get_setAll_other d f _ fun y hy hk => hr ⟨y, hy, hk⟩).trans ?_
      subst hx
      exact Tab.get_set_same _ _ _ _

end

/-- The queues of a context that use the batch slot at `va`, with the slots they use. -/
def usersOf (c : BitVec 12) (va : Word) (t : Tab (List (Nat × Word))) : Tab (List (Nat × Word)) :=
  t.filter fun x => x.1 / 2 ^ 16 = c.toNat && x.2.any fun y => y.2 = va

/-- The table of batch slots in use with the one at `va` freed. -/
def batchFreed (c : BitVec 12) (va : Word) (t : Tab (List (Nat × Word))) : Tab (List (Nat × Word)) :=
  Tab.setAll [] (List.filter fun y => y.2 ≠ va) (usersOf c va t) t

theorem batchFreed_none_left (c : BitVec 12) (va : Word) (t : Tab (List (Nat × Word))) {k : Nat} (hk : k / 2 ^ 16 = c.toNat) :
    ∀ y ∈ Tab.get [] (batchFreed c va t) k, y.2 ≠ va := by
  intro y hy
  by_cases hu : ∃ x ∈ usersOf c va t, x.1 = k
  · obtain ⟨x, -, -, hget⟩ := Tab.get_setAll_mem [] (List.filter fun y => y.2 ≠ va) t hu
    rw [batchFreed, hget] at hy
    simpa using (List.mem_filter.1 hy).2
  · rw [batchFreed, Tab.get_setAll_other _ _ _ fun x hx hxk => hu ⟨x, hx, hxk⟩] at hy
    rintro rfl
    have hin : (k, Tab.get [] t k) ∈ t := Tab.mem_of_get (List.ne_nil_of_mem hy)
    refine hu ⟨_, List.mem_filter.2 ⟨hin, ?_⟩, rfl⟩
    simpa using ⟨hk, y.1, hy⟩

/-- In the canonical form the other slots of the queue stay as they are. -/
theorem batchFreed_get (c : BitVec 12) (va : Word) {t : Tab (List (Nat × Word))} (ht : Tab.wf [] t = true) {k : Nat} (hk : k / 2 ^ 16 = c.toNat) :
    Tab.get [] (batchFreed c va t) k = (Tab.get [] t k).filter fun y => decide (y.2 ≠ va) := by
  obtain ⟨hkeys, -⟩ := (Tab.wf_iff [] t).1 ht
  by_cases hu : ∃ x ∈ usersOf c va t, x.1 = k
  · obtain ⟨x, hx, rfl, hget⟩ := Tab.get_setAll_mem [] (List.filter fun y => y.2 ≠ va) t hu
    rw [batchFreed, hget, Tab.get_of_mem [] hkeys (List.mem_of_mem_filter hx)]
  · have hget : Tab.get [] (batchFreed c va t) k = Tab.get [] t k := Tab.get_setAll_other _ _ _ fun x hx hxk => hu ⟨x, hx, hxk⟩
    have hleft := batchFreed_none_left c va t hk
    rw [hget] at hleft ⊢
    exact (List.filter_eq_self.2 fun y hy => decide_eq_true (hleft y hy)).symm

/-- From `s` to `t` the batch slots in use have become `b`, and the entries of their queues may show it. -/
structure BatchesBecome (b : Tab (List (Nat × Word))) (s t : State) : Prop where
  cur : t.cur = s.cur
  parked : t.parked = s.parked
  sch : t.sch = { s.sch with batches := b }

/-- The slots of one queue freed, and shown in its entry where it is not resident (R146). -/
def State.freeBatchOf (c : BitVec 12) (va : Word) (s : State) (x : Nat × List (Nat × Word)) : State :=
  let h := x.1 % 2 ^ 16
  let l := x.2.filter fun y => y.2 ≠ va
  let s := s.setBatches c h l
  if s.sch.experts.any fun q => q.ctx = c && q.qh.toNat = h then s
  else s.setQword c (BitVec.ofNat 16 h) 5 (setBits (s.qword c (BitVec.ofNat 16 h) 5) 54 48 l.length)

theorem freeBatch_eq (s : State) (c : BitVec 12) (va : Word) : s.freeBatch c va = (usersOf c va s.sch.batches).foldl (State.freeBatchOf c va) s := rfl

theorem freeBatchOf_becomes {c : BitVec 12} (va : Word) {b : Tab (List (Nat × Word))} {s t : State} (h : BatchesBecome b s t)
    {x : Nat × List (Nat × Word)} (hx : x.1 / 2 ^ 16 = c.toNat) :
    BatchesBecome (Tab.set [] b x.1 (x.2.filter fun y => y.2 ≠ va)) s (t.freeBatchOf c va x) := by
  obtain ⟨hcur, hparked, hsch⟩ := h
  have hkey : c.toNat * 2 ^ 16 + x.1 % 2 ^ 16 = x.1 := by rw [← hx]; exact Nat.div_add_mod' x.1 (2 ^ 16)
  have hset : (t.setBatches c (x.1 % 2 ^ 16) (x.2.filter fun y => y.2 ≠ va)).sch =
      { s.sch with batches := Tab.set [] b x.1 (x.2.filter fun y => y.2 ≠ va) } := by
    rw [State.setBatches, hkey, hsch]
  unfold State.freeBatchOf
  dsimp only
  split
  · exact ⟨hcur, hparked, hset⟩
  · exact ⟨(writePa_keeps ..).cur.trans hcur, (writePa_keeps ..).parked.trans hparked, (writePa_keeps ..).sch.trans hset⟩

theorem freeBatch_becomes (s : State) (c : BitVec 12) (va : Word) : BatchesBecome (batchFreed c va s.sch.batches) s (s.freeBatch c va) := by
  have hfold : ∀ (l b : Tab (List (Nat × Word))) (t : State), (∀ x ∈ l, x.1 / 2 ^ 16 = c.toNat) → BatchesBecome b s t →
      BatchesBecome (Tab.setAll [] (List.filter fun y => y.2 ≠ va) l b) s (l.foldl (State.freeBatchOf c va) t) := by
    intro l
    induction l with
    | nil => exact fun b t _ h => h
    | cons x r ih => exact fun b t hl h => ih _ _ (fun y hy => hl y (List.mem_cons_of_mem _ hy)) (freeBatchOf_becomes va h (hl x List.mem_cons_self))
  rw [freeBatch_eq]
  refine hfold _ _ s (fun x hx => ?_) ⟨rfl, rfl, rfl⟩
  have hmine := (List.mem_filter.1 hx).2
  rw [Bool.and_eq_true] at hmine
  exact of_decide_eq_true hmine.1

/-! ### The launch of a group that is gone (R100, R145) -/

@[simp] theorem State.setLaunch_launch_same (s : State) (k : Nat) (l : Launch) : (s.setLaunch k l).launch k = l := Tab.get_set_same _ _ _ _

theorem launchLess_running {s : State} {k : Nat} (h : 1 < (s.launch k).groups) :
    s.launchLess k = s.setLaunch k { s.launch k with groups := (s.launch k).groups - 1 } := by
  refine if_neg ?_
  rw [State.setLaunch_launch_same]
  simp only [Bool.and_eq_true, decide_eq_true_eq]
  omega

/-- The launch is over, and its teams are gone. -/
def State.launchOver (s : State) (k : Nat) : State :=
  let s := s.setLaunch k { s.launch k with finished := true }
  { s with sch := { s.sch with teams := s.sch.teams.filter fun t => t.launch ≠ k } }

theorem launchOver_launch (s : State) (k : Nat) : (s.launchOver k).launch k = { s.launch k with finished := true } :=
  s.setLaunch_launch_same k _

theorem launchOver_teams (s : State) (k : Nat) : ∀ x ∈ (s.launchOver k).sch.teams, x.launch ≠ k := fun _ hx => by
  simpa using (List.mem_filter.1 hx).2

/-- The end of a launch that a command started: its completion record, where it asks for one or its status is not 0 (R100). -/
theorem finishLaunch_command {s : State} {k : Nat} (hf : (s.launch k).finished = false) (ht : (s.launch k).task = false) :
    let l := s.launch k
    let st := endStatus (s.viral l.ctx) l.ending
    s.finishLaunch k = if l.cmpl || st ≠ 0 then
      (s.launchOver k).postCompletion l.ctx 0 l.lseq.toNat l.lqh.toNat st l.fkind.toNat l.ntrap.toNat 0 else s.launchOver k := by
  rw [State.finishLaunch]
  dsimp only
  rw [if_neg (by simp [hf]), if_neg (by simp [ht])]
  rfl

/-- The last group of a launch that has nothing left to place finishes it. -/
theorem launchLess_last {s : State} {k : Nat} (hk : k ≠ 0) (hg : (s.launch k).groups = 1) (hf : (s.launch k).finished = false)
    (hp : (s.launch k).ending.isSome = true ∨ (s.launch k).unplaced = false) :
    s.launchLess k = (s.setLaunch k { s.launch k with groups := 0 }).finishLaunch k := by
  have hz : { s.launch k with groups := (s.launch k).groups - 1 } = { s.launch k with groups := 0 } := by rw [hg]
  rw [State.launchLess, hz]
  refine if_pos ?_
  rw [State.setLaunch_launch_same]
  have hplaced : ({ s.launch k with groups := 0 } : Launch).unplaced = (s.launch k).unplaced := rfl
  rw [hplaced, hf]
  rcases hp with hp | hp <;> simp [hp, hk]

/-! ### What a group held is released (R123, R159) -/

/-- The team of a group has one group fewer, unless it is a task group. -/
def State.teamLeft (s : State) (g : Group) : State := if g.idx = 8 then s else s.teamLess g.team

theorem teamLeft_outside (s : State) (g : Group) : s.teamLeft g = { s with sch := { s.sch with teams := (s.teamLeft g).sch.teams } } := by
  unfold State.teamLeft
  split <;> rfl

theorem teamLeft_launch (s : State) (g : Group) (k : Nat) : (s.teamLeft g).launch k = s.launch k := by
  rw [teamLeft_outside]
  rfl

theorem releaseGroup_noBatch (s : State) {g : Group} (h : g.batch = none) : s.releaseGroup g = (s.teamLeft g).launchLess g.launch := by
  simp only [State.releaseGroup, h]
  rfl

theorem releaseGroup_batch (s : State) {g : Group} {va : Word} {n m : Nat} (h : g.batch = some (va, n, m)) :
    s.releaseGroup g = ((s.freeBatch g.ctx va).teamLeft g).launchLess g.launch := by
  simp only [State.releaseGroup, h]
  rfl

/-! ### EXIT of a group with no write-combining buffer (R282) -/

section
variable {s : State} {c : BitVec 10} {n : BitVec 3} (hat : s.cur.at c n = true)
include hat

theorem sendWc_none (hw : s.cur.wc = none) : s.sendWc c n = s := by
  simp only [State.sendWc, State.group?_cur hat, hw]

/-- A group with accesses in flight drains. -/
theorem leave_inflight (hw : s.cur.wc = none) (hi : s.cur.inflight ≠ []) :
    s.leave c n = (s.letGo c n).setCur { s.cur with life := .draining, inClause := false, latches := [], wait := none } := by
  have hcur := State.letGo_cur s c n
  have hat' : (s.letGo c n).cur.at c n = true := by rw [hcur]; exact hat
  have hw' : (s.letGo c n).cur.wc = none := by rw [hcur]; exact hw
  have hi' : (s.letGo c n).cur.inflight.isEmpty = false := by rw [hcur]; simpa using hi
  simp only [State.leave, sendWc_none hat' hw', State.group?_cur hat', hi', Bool.false_eq_true, if_false, State.modGroup, hat', if_true]
  rw [hcur]
  rfl

/-- The state in which the slot is empty, before what its group held is released. -/
def State.vacated (s : State) (c : BitVec 10) (n : BitVec 3) : State :=
  ((s.letGo c n).forgetWaiter (.group c n)).setCur { Group.blank with core := s.cur.core, slot := s.cur.slot }

theorem removeGroup_cur : s.removeGroup c n = (s.vacated c n).releaseGroup s.cur := by
  have hcur : ((s.letGo c n).forgetWaiter (.group c n)).cur = s.cur := State.letGo_cur s c n
  have hat' : ((s.letGo c n).forgetWaiter (.group c n)).cur.at c n = true := by rw [hcur]; exact hat
  simp only [State.removeGroup, State.group?_cur hat, State.modGroup, hat', if_true]
  rw [hcur]
  rfl

/-- A group with nothing in flight is gone. -/
theorem leave_idle (hw : s.cur.wc = none) (hi : s.cur.inflight = []) : s.leave c n = ((s.letGo c n).vacated c n).releaseGroup s.cur := by
  have hcur := State.letGo_cur s c n
  have hat' : (s.letGo c n).cur.at c n = true := by rw [hcur]; exact hat
  have hw' : (s.letGo c n).cur.wc = none := by rw [hcur]; exact hw
  have hi' : (s.letGo c n).cur.inflight.isEmpty = true := by rw [hcur, hi]; rfl
  simp only [State.leave, sendWc_none hat' hw', State.group?_cur hat', hi', if_true]
  rw [removeGroup_cur hat', hcur]

end

section
variable {s : State} {w : RR} (h : issues (.exit w) s = true)

/-- The group counted past EXIT, its cycles spent, its mask stack discarded (R282). -/
def State.exiting (s : State) (w : RR) : State :=
  let u := (s.setCur s.cur.countDown.countRegion).spend 1 w.ctl
  u.setCur { u.cur with mstack := [], msdep := 0 }

theorem exiting_cur (s : State) (w : RR) : (s.exiting w).cur =
    { s.cur with dline := s.cur.deadlineLess, region := (s.exiting w).cur.region, mstack := [], msdep := 0 } := by
  show ({ s.cur.countDown.countRegion with mstack := [], msdep := 0 } : Group) = { s.cur with
    dline := s.cur.deadlineLess, region := s.cur.countDown.countRegion.region, mstack := [], msdep := 0 }
  rw [Group.countDown_countRegion]

/-- The slot of a group that has executed EXIT, empty. -/
def State.exited (s : State) (w : RR) : State := ((s.exiting w).letGo s.cur.core s.cur.slot).vacated s.cur.core s.cur.slot

theorem exited_outside (s : State) (w : RR) : s.exited w = { s with
    cur := { Group.blank with core := s.cur.core, slot := s.cur.slot }, cores := (s.exited w).cores, coh := (s.exited w).coh,
    cxl := (s.exited w).cxl, mmu := (s.exited w).mmu } := by
  have hcore : (s.exiting w).cur.core = s.cur.core := by rw [exiting_cur]
  have hslot : (s.exiting w).cur.slot = s.cur.slot := by rw [exiting_cur]
  have hletGo (t : State) (c : BitVec 10) (n : BitVec 3) : t.letGo c n = { t with cores := (t.letGo c n).cores } := by
    simp only [State.letGo]
    split <;> rfl
  unfold State.exited State.vacated
  rw [State.letGo_cur, hcore, hslot, hletGo, hletGo (s.exiting w)]
  rfl

include h

theorem exit_handler (hm : s.cur.hmode = true) : exec (.exit w) s = .next (s.endByTrap s.cur.hkind) := by
  show execExit w s = _
  rw [execExit, issue_of_issues h, if_pos hm]

variable (hl : s.cur.life = .running) (hw : s.cur.wc = none) (hm : s.cur.hmode = false)
include hl hw hm

theorem exit_leaves : exec (.exit w) s = .next ((s.exiting w).leave s.cur.core s.cur.slot) := by
  show execExit w s = _
  rw [execExit, issue_of_issues h, if_neg (by simp [hm])]
  have hgrp := s.cur.countDown_countRegion
  have hcur : ((s.setCur s.cur.countDown.countRegion).spend 1 w.ctl).cur = s.cur.countDown.countRegion := rfl
  have hsent : ((s.setCur s.cur.countDown.countRegion).spend 1 w.ctl).sendWc ((s.setCur s.cur.countDown.countRegion).spend 1 w.ctl).cur.core
      ((s.setCur s.cur.countDown.countRegion).spend 1 w.ctl).cur.slot = (s.setCur s.cur.countDown.countRegion).spend 1 w.ctl := by
    refine sendWc_none ?_ ?_
    · rw [hcur]
      have hlife : s.cur.countDown.countRegion.life = .running := by rw [hgrp]; exact hl
      simp [Group.at, hlife]
    · rw [hcur, hgrp]
      exact hw
  have hcore : (s.exiting w).cur.core = s.cur.core := by rw [exiting_cur]
  have hslot : (s.exiting w).cur.slot = s.cur.slot := by rw [exiting_cur]
  simp only [hsent]
  show Host.Outcome.next ((s.exiting w).leave (s.exiting w).cur.core (s.exiting w).cur.slot) = _
  rw [hcore, hslot]

theorem exit_inflight (hi : s.cur.inflight ≠ []) : exec (.exit w) s = .next (((s.exiting w).letGo s.cur.core s.cur.slot).setCur
    { (s.exiting w).cur with life := .draining, inClause := false, latches := [], wait := none }) := by
  have hcur := exiting_cur s w
  have hat : (s.exiting w).cur.at s.cur.core s.cur.slot = true := by rw [hcur]; simp [Group.at, hl]
  have hwc : (s.exiting w).cur.wc = none := by rw [hcur]; exact hw
  rw [exit_leaves h hl hw hm, leave_inflight hat hwc (by rw [hcur]; exact hi)]

theorem exit_idle (hi : s.cur.inflight = []) : exec (.exit w) s = .next ((s.exited w).releaseGroup (s.exiting w).cur) := by
  have hcur := exiting_cur s w
  have hat : (s.exiting w).cur.at s.cur.core s.cur.slot = true := by rw [hcur]; simp [Group.at, hl]
  have hwc : (s.exiting w).cur.wc = none := by rw [hcur]; exact hw
  rw [exit_leaves h hl hw hm, leave_idle hat hwc (by rw [hcur]; exact hi)]
  rfl

theorem exit_drains (hi : s.cur.inflight ≠ []) : ∃ t, exec (.exit w) s = .next t ∧ t = { s with cur := t.cur, cores := t.cores } ∧
    t.cur = { s.cur with
      dline := s.cur.deadlineLess, region := t.cur.region, mstack := [], msdep := 0
      life := .draining, inClause := false, latches := [], wait := none } := by
  refine ⟨_, exit_inflight h hl hw hm hi, ?_, ?_⟩
  · simp only [State.letGo]
    split <;> rfl
  · rw [State.setCur_cur, exiting_cur]

theorem exit_one_less (hi : s.cur.inflight = []) (hb : s.cur.batch = none) (hg : 1 < (s.launch s.cur.launch).groups) :
    ∃ t, exec (.exit w) s = .next t ∧ t.cur = { Group.blank with core := s.cur.core, slot := s.cur.slot } ∧ t.mem = s.mem ∧ t.mgmt = s.mgmt ∧
      t.parked = s.parked ∧ (t.launch s.cur.launch).groups = (s.launch s.cur.launch).groups - 1 := by
  have hgone := exited_outside s w
  have hb' : (s.exiting w).cur.batch = none := by rw [exiting_cur]; exact hb
  have hk : (s.exiting w).cur.launch = s.cur.launch := by rw [exiting_cur]
  have hlaunch : ((s.exited w).teamLeft (s.exiting w).cur).launch s.cur.launch = s.launch s.cur.launch := by
    rw [teamLeft_launch, hgone]
    rfl
  refine ⟨_, exit_idle h hl hw hm hi, ?_⟩
  rw [releaseGroup_noBatch _ hb', hk, launchLess_running (by rw [hlaunch]; exact hg), hlaunch, teamLeft_outside, hgone]
  refine ⟨rfl, rfl, rfl, rfl, ?_⟩
  rw [State.setLaunch_launch_same]

theorem exit_frees_batch (va : Word) (b m : Nat) (hi : s.cur.inflight = []) (hb : s.cur.batch = some (va, b, m))
    (hg : 1 < (s.launch s.cur.launch).groups) :
    ∃ t, exec (.exit w) s = .next t ∧ t.cur = { Group.blank with core := s.cur.core, slot := s.cur.slot } ∧ t.parked = s.parked ∧
      (t.launch s.cur.launch).groups = (s.launch s.cur.launch).groups - 1 ∧ t.sch.batches = batchFreed s.cur.ctx va s.sch.batches := by
  have hgone := exited_outside s w
  have hb' : (s.exiting w).cur.batch = some (va, b, m) := by rw [exiting_cur]; exact hb
  have hk : (s.exiting w).cur.launch = s.cur.launch := by rw [exiting_cur]
  have hctx : (s.exiting w).cur.ctx = s.cur.ctx := by rw [exiting_cur]
  obtain ⟨hcur, hparked, hsch⟩ := freeBatch_becomes (s.exited w) s.cur.ctx va
  have hschs : (s.exited w).sch = s.sch := by rw [hgone]
  rw [hschs] at hsch
  generalize hx : (s.exited w).freeBatch s.cur.ctx va = x at hcur hparked hsch
  have hlaunch : (x.teamLeft (s.exiting w).cur).launch s.cur.launch = s.launch s.cur.launch := by
    rw [teamLeft_launch, State.launch, hsch]
    rfl
  refine ⟨_, exit_idle h hl hw hm hi, ?_⟩
  rw [releaseGroup_batch _ hb', hk, hctx, hx, launchLess_running (by rw [hlaunch]; exact hg), hlaunch, teamLeft_outside]
  refine ⟨?_, ?_, ?_, ?_⟩
  · exact hcur.trans (by rw [hgone])
  · exact hparked.trans (by rw [hgone])
  · rw [State.setLaunch_launch_same]
  · exact congrArg Sch.batches hsch

end

/-- STATUS of a launch that a command started (R145), as a table by the kind of the fault that ended it. -/
theorem endStatus_eq (viral : Bool) (e : Option (BitVec 8)) : endStatus viral e = match e with
    | none => if viral then 6 else 0
    | some k => if k = 0xFF then 7 else if k = 0x16 then 5 else if viral then 6 else if k = 5 ∨ k = 6 then 8 else 4 := by
  unfold endStatus
  split
  · rfl
  · rfl
  · rename_i k hk
    simp only [show k ≠ 0xFF from hk, if_false, Bool.or_eq_true, decide_eq_true_eq]

/-- The state in which the launch of a group that has executed EXIT is over, before its completion record is posted. -/
def State.exitedLast (s : State) (w : RR) : State :=
  (((s.exited w).teamLeft (s.exiting w).cur).setLaunch s.cur.launch { s.launch s.cur.launch with groups := 0 }).launchOver s.cur.launch

theorem exitedLast_outside (s : State) (w : RR) : s.exitedLast w = { s with
    cur := { Group.blank with core := s.cur.core, slot := s.cur.slot }, cores := (s.exitedLast w).cores, coh := (s.exitedLast w).coh,
    cxl := (s.exitedLast w).cxl, mmu := (s.exitedLast w).mmu, sch := (s.exitedLast w).sch } := by
  unfold State.exitedLast
  rw [teamLeft_outside, exited_outside]
  rfl

section
variable {s : State} {w : RR} (h : issues (.exit w) s = true) (hl : s.cur.life = .running) (hw : s.cur.wc = none) (hm : s.cur.hmode = false)
include h hl hw hm

theorem exit_last {l : Launch} (hlaunch : s.launch s.cur.launch = l) {st : Nat} (hst : endStatus (s.viral l.ctx) l.ending = st)
    (hi : s.cur.inflight = []) (hb : s.cur.batch = none) (hk : s.cur.launch ≠ 0) (hg : l.groups = 1) (hf : l.finished = false) (ht : l.task = false)
    (hp : l.ending.isSome = true ∨ l.unplaced = false) : exec (.exit w) s = .next (if l.cmpl = true ∨ st ≠ 0 then
      (s.exitedLast w).postCompletion l.ctx 0 l.lseq.toNat l.lqh.toNat st l.fkind.toNat l.ntrap.toNat 0 else s.exitedLast w) := by
  subst hst
  have hb' : (s.exiting w).cur.batch = none := by rw [exiting_cur]; exact hb
  have hk' : (s.exiting w).cur.launch = s.cur.launch := by rw [exiting_cur]
  have hleft : ((s.exited w).teamLeft (s.exiting w).cur).launch s.cur.launch = l := by
    rw [teamLeft_launch, exited_outside]
    exact hlaunch
  have hviral : (((s.exited w).teamLeft (s.exiting w).cur).setLaunch s.cur.launch { l with groups := 0 }).viral l.ctx = s.viral l.ctx := by
    rw [teamLeft_outside, exited_outside]
    rfl
  have hend := finishLaunch_command (s := ((s.exited w).teamLeft (s.exiting w).cur).setLaunch s.cur.launch { l with groups := 0 }) (k := s.cur.launch)
    (by rw [State.setLaunch_launch_same]; exact hf) (by rw [State.setLaunch_launch_same]; exact ht)
  simp only [State.setLaunch_launch_same, hviral, Bool.or_eq_true, decide_eq_true_eq] at hend
  rw [exit_idle h hl hw hm hi, releaseGroup_noBatch _ hb', hk', launchLess_last hk (by rw [hleft]; exact hg) (by rw [hleft]; exact hf)
    (by rw [hleft]; exact hp), hleft, hend, State.exitedLast, hlaunch]

end

/-- Settles O16: EXIT comes to `State.leave`, and what a group that is gone held is released by the cases of `State.releaseGroup`: its batch slot by
`batchFreed`, its part of the launch by `launchLess_running` or, with the last group, `launchLess_last`. -/
theorem leavingEnds : Obligations.LeavingEnds := by
  unfold Obligations.LeavingEnds
  intro s w h hl hw
  refine ⟨exit_handler h, exit_drains h hl hw, exit_one_less h hl hw, fun va b m hm hi hb hg => ?_, ?_⟩
  · obtain ⟨t, hnext, hcur, hparked, hgroups, hbatches⟩ := exit_frees_batch h hl hw hm va b m hi hb hg
    refine ⟨t, hnext, hcur, hparked, hgroups, fun q hq => ?_⟩
    have hkey : (s.cur.ctx.toNat * 2 ^ 16 + q) / 2 ^ 16 = s.cur.ctx.toNat := by omega
    rw [State.batches, hbatches]
    exact ⟨batchFreed_none_left _ _ _ hkey, fun ht => batchFreed_get _ _ ht hkey⟩
  · intro l hm hi hb hk hg hf ht hp viral status
    have hplaced : l.ending.isSome = true ∨ l.unplaced = false := hp.imp_right fun h => by simpa [Launch.unplaced] using h
    have hstatus : endStatus (s.viral l.ctx) l.ending = status := by rw [endStatus_eq]; rfl
    have hgone := exitedLast_outside s w
    refine ⟨s.exitedLast w, _, exit_last h hl hw hm rfl hstatus hi hb hk hg hf ht hplaced, ?_, ?_, ?_, ?_, ?_, launchOver_teams _ _, rfl⟩
    · rw [hgone]
    · rw [hgone]
    · rw [hgone]
    · rw [hgone]
    · exact (launchOver_launch _ _).trans (by rw [State.setLaunch_launch_same])

end Sys2Proof.Machine
end

section
/-! SUPPORT. Slots and pending queues (R92 to R94): what is read after a queue is pended, unpended or mapped, and an evaluation of firmware with at
most one candidate. -/

namespace Sys2Proof.Machine

/-! ### The newest data of a line does not depend on the queues -/

/-- The state with other queues. -/
def State.withQue (s : State) (q : Que) : State := { s with que := q }

section
variable (s : State) (q : Que)

theorem needRun_withQue (n : Nat) : (s.withQue q).needRun n = (s.needRun n).withQue q := by
  simp only [State.needRun, show (s.withQue q).islandRuns n = s.islandRuns n from rfl]
  split <;> rfl

theorem needMedia_withQue (line : Nat) : (s.withQue q).needMedia line = (s.needMedia line).withQue q :=
  List.foldl_hom (fun t : State => t.withQue q) fun t n => needRun_withQue t q n

theorem memWrite_withQue (line : Nat) (d : LineData) (m : BitVec 128) (p : BitVec 4) :
    (s.withQue q).memWrite line d m p = (s.memWrite line d m p).withQue q := by
  rw [State.memWrite, show (s.withQue q).memPoison line = s.memPoison line from rfl]
  simp only [State.memPut, State.withQue, State.memWrite]

theorem putHome_withQue (line : Nat) (d : LineData) (m : BitVec 128) (p : BitVec 4) :
    (s.withQue q).putHome line d m p = (s.putHome line d m p).withQue q := by
  simp only [State.putHome, show (s.withQue q).l2? line = s.l2? line from rfl, needMedia_withQue, memWrite_withQue]
  split <;> rfl

theorem takeWriteback_withQue (line : Nat) (d : LineData) (m : BitVec 128) (p : BitVec 4) (w r : BitVec 48) :
    (s.withQue q).takeWriteback line d m p w r = (s.takeWriteback line d m p w r).withQue q := by
  simp only [State.takeWriteback, putHome_withQue]
  rfl

theorem takeOwner_withQue (line : Nat) (o : BitVec 10) : (s.withQue q).takeOwner line o = (s.takeOwner line o).withQue q := by
  have hwb (t : State) (c : BitVec 10) (l : L1Line) : ((t.withQue q).dropL1 c line).takeWriteback line l.data (BitVec.allOnes 128) l.poison l.wts l.rts =
      ((t.dropL1 c line).takeWriteback line l.data (BitVec.allOnes 128) l.poison l.wts l.rts).withQue q := takeWriteback_withQue (t.dropL1 c line) q ..
  have hmsg (i : Nat) (d : LineData) (m : BitVec 128) (p : BitVec 4) (w r : BitVec 48) : ((s.withQue q).dropMsg i).takeWriteback line d m p w r =
      ((s.dropMsg i).takeWriteback line d m p w r).withQue q := takeWriteback_withQue (s.dropMsg i) q ..
  simp only [State.takeOwner, show (s.withQue q).l1? o line = s.l1? o line from rfl, needRun_withQue, hwb, hmsg,
    show (s.withQue q).findMsg line o MsgKind.isWriteback = s.findMsg line o MsgKind.isWriteback from rfl, show (s.withQue q).coh = s.coh from rfl]
  split
  · rfl
  · split
    · split <;> rfl
    · rfl

/-- The write that an acknowledgement awaits, if there is one, in memory. -/
def State.ackWritten (s : State) (x : TargetAck) : State :=
  match x.write with
  | some (l, d, m, q) => s.memWrite l d m q
  | none => s

theorem ackWritten_withQue (x : TargetAck) : (s.withQue q).ackWritten x = (s.ackWritten x).withQue q := by
  unfold State.ackWritten
  split
  · exact memWrite_withQue ..
  · rfl

theorem reachTarget_eq (line : Nat) (p : TargetAck → Bool) : s.reachTarget line p =
    let mine (x : TargetAck) : Bool := x.home && (x.write.any fun w => decide (w.1 = line)) && p x
    let t := (s.coh.acks.filter mine).foldl State.ackWritten s
    { t with coh := { t.coh with acks := t.coh.acks.map fun x => if mine x then { x with write := none } else x } } := rfl

theorem reachTarget_withQue (line : Nat) (p : TargetAck → Bool) : (s.withQue q).reachTarget line p = (s.reachTarget line p).withQue q := by
  have hfold (l : List TargetAck) : l.foldl State.ackWritten (s.withQue q) = (l.foldl State.ackWritten s).withQue q :=
    List.foldl_hom (fun t : State => t.withQue q) fun t x => ackWritten_withQue t q x
  simp only [reachTarget_eq, show (s.withQue q).coh = s.coh from rfl, hfold]
  rfl

/-- The line's newest data taken in at its home, from its owner or from a message between them. -/
def State.takenIn (s : State) (line : Nat) : State :=
  match (s.home line).st with
  | .i => s
  | .e o => s.takeOwner line o
  | .up o | .rx o => if (s.findMsg line o (· == MsgKind.ack)).isSome then s.takeOwner line o else s
  | .fw o q =>
    match (s.findMsg line o MsgKind.isAnswer).bind fun i => (s.coh.msgs[i]?).map Msg.kind with
    | some (.answerData d p w r) => s.takeWriteback line d (BitVec.allOnes 128) p w r
    | _ => s.takeOwner line q

theorem takenIn_withQue (line : Nat) : (s.withQue q).takenIn line = (s.takenIn line).withQue q := by
  have hanswer (o : BitVec 10) (f : MsgKind → Bool) : (s.withQue q).findMsg line o f = s.findMsg line o f := rfl
  simp only [State.takenIn, show (s.withQue q).home line = s.home line from rfl, takeOwner_withQue, takeWriteback_withQue, hanswer,
    show (s.withQue q).coh = s.coh from rfl]
  split
  · rfl
  · rfl
  · split <;> rfl
  · split <;> rfl
  · split <;> rfl

theorem freshLine_eq (line : Nat) : s.freshLine line =
    (if ((s.takenIn line).l2? line).isSome then s.takenIn line else (s.takenIn line).reachTarget line fun _ => true).homeData line := rfl

/-- The newest data of a line is the same with other queues. -/
theorem freshLine_withQue (line : Nat) : (s.withQue q).freshLine line = s.freshLine line := by
  rw [freshLine_eq, freshLine_eq, takenIn_withQue, reachTarget_withQue, show ((s.takenIn line).withQue q).l2? line = (s.takenIn line).l2? line from rfl]
  split <;> rfl

theorem qword_withQue (c : BitVec 12) (h : BitVec 16) (i : Nat) : (s.withQue q).qword c h i = s.qword c h i := by
  unfold State.qword State.peek
  rw [freshLine_withQue]
  rfl

theorem setQslot_qword (i : Nat) (x : QSlot) (c : BitVec 12) (h : BitVec 16) (j : Nat) : (s.setQslot i x).qword c h j = s.qword c h j :=
  qword_withQue s _ c h j

end
/-! ### Pending queues (R91, R94) -/

theorem setPendingBit_que (s : State) (c : BitVec 12) (h : BitVec 16) (b : Bool) : (s.setPendingBit c h b).que = s.que := (writePa_keeps ..).que

theorem unpend_que (s : State) (c : BitVec 12) (h : BitVec 16) :
    (s.unpend c h).que = { s.que with pending := s.que.pending.filter fun p => !(p.ctx = c && p.qh = h) } := by
  show ({ (s.setPendingBit c h false).que with pending := _ } : Que) = _
  rw [setPendingBit_que]

theorem pend_mem {s u : State} {c : BitVec 12} {h : BitVec 16} (hu : u = s.pend c h) : ∃ p ∈ u.que.pending, p.ctx = c ∧ p.qh = h := by
  subst hu
  unfold State.pend
  dsimp only
  split
  · rename_i hp
    simpa using hp
  · exact ⟨_, List.mem_append_right _ (List.mem_singleton_self _), rfl, rfl⟩

/-! ### Slots (R93) -/

theorem unmapSlot_active {s : State} {i : Nat} (h : (s.qslot i).st = .active) : s.unmapSlot i = s.setQslot i { s.qslot i with st := .saving } := if_pos h

theorem mapQueue_que (s : State) (i : Nat) (c : BitVec 12) (h : BitVec 16) : ∃ q : QSlot, q.st = .restoring ∧ q.ctx = c ∧ q.qh = h ∧
    (s.mapQueue i c h).que = { (s.unpend c h).que with slots := Tab.set QSlot.idle (s.unpend c h).que.slots i q } :=
  ⟨_, rfl, rfl, rfl, rfl⟩

theorem mapQueue_qslot (s : State) (i : Nat) (c : BitVec 12) (h : BitVec 16) :
    ((s.mapQueue i c h).qslot i).st = .restoring ∧ ((s.mapQueue i c h).qslot i).ctx = c ∧ ((s.mapQueue i c h).qslot i).qh = h := by
  obtain ⟨q, hst, hctx, hqh, hque⟩ := mapQueue_que s i c h
  have hq : (s.mapQueue i c h).qslot i = q := by rw [State.qslot, hque]; exact Tab.get_set_same _ _ _ _
  rw [hq]
  exact ⟨hst, hctx, hqh⟩

theorem mapQueue_pending (s : State) (i : Nat) (c : BitVec 12) (h : BitVec 16) :
    (s.mapQueue i c h).que.pending = s.que.pending.filter fun p => !(p.ctx = c && p.qh = h) := by
  obtain ⟨q, -, -, -, hque⟩ := mapQueue_que s i c h
  rw [hque, unpend_que]

/-! ### Firmware's evaluation (R94) -/

/-- The queues for which slots are being saved. -/
def State.comingQueues (s : State) : List (BitVec 12 × BitVec 16) := (List.range 64).filterMap fun i => (s.qslot i).nextQ

/-- The candidates of an evaluation (R94 step 1) that have not been passed over. -/
def State.candidates (s : State) (passed : List (BitVec 12 × BitVec 16)) : List PendQ :=
  s.que.pending.filter fun p => s.quota p.ctx ≠ 0 && s.qen p.ctx && !(decide ((p.ctx, p.qh) ∈ passed)) && !(decide ((p.ctx, p.qh) ∈ s.comingQueues))

/-- The lowest free slot. -/
def State.freeQslot (s : State) : Option Nat := (List.range 64).find? fun i => (s.qslot i).st = .free

/-- The slots that may be saved for the candidate `p` (R94 step 3); `room` says that its context may map one more queue. -/
def State.victims (s : State) (p : PendQ) (room : Bool) : List Nat :=
  (List.range 64).filter fun i => (s.qslot i).st = .active && (room || (s.qslot i).ctx = p.ctx) && s.quantum ≤ (s.timebase - (s.qslot i).mappedAt).toNat

/-- The order of victims (R94 step 3). -/
def State.victimBefore (s : State) (a b : Nat) : Bool :=
  (s.qslot a).victimPri < (s.qslot b).victimPri || ((s.qslot a).victimPri = (s.qslot b).victimPri &&
    ((s.qslot a).mappedAt < (s.qslot b).mappedAt || ((s.qslot a).mappedAt = (s.qslot b).mappedAt && a ≤ b)))

/-- What an evaluation does for its first candidate, and then for the rest. -/
def State.evaluateFor (s : State) (passed : List (BitVec 12 × BitVec 16)) (n : Nat) : Option PendQ → State
  | none => s
  | some p =>
    match s.freeQslot, decide (s.claimed p.ctx < s.quota p.ctx) with
    | some i, true => (s.mapQueue i p.ctx p.qh).evaluate passed n
    | _, room =>
      match ((s.victims p room).sortBy s.victimBefore).head? with
      | none => s.evaluate ((p.ctx, p.qh) :: passed) n
      | some v =>
        if (s.qslot v).victimPri < (p.epri.toNat : Int) then
          ((s.setQslot v { s.qslot v with nextQ := some (p.ctx, p.qh) }).unmapSlot v).evaluate passed n
        else s.evaluate ((p.ctx, p.qh) :: passed) n

section
variable {s : State} {passed : List (BitVec 12 × BitVec 16)} {n : Nat}

theorem evaluate_succ : s.evaluate passed (n + 1) = s.evaluateFor passed n ((s.candidates passed).sortBy PendQ.before).head? := rfl

/-- Without a candidate nothing is mapped. -/
theorem evaluate_idle (h : s.candidates passed = []) : s.evaluate passed n = s := by
  cases n with
  | zero => rfl
  | succ n => rw [evaluate_succ, h]; rfl

variable {p : PendQ} (h : s.candidates passed = [p])
include h

theorem evaluate_sole : s.evaluate passed (n + 1) = s.evaluateFor passed n (some p) := by
  rw [evaluate_succ, h]
  rfl

variable (hroom : s.claimed p.ctx < s.quota p.ctx)
include hroom

/-- The sole candidate takes the lowest free slot. -/
theorem evaluate_maps {i : Nat} (hf : s.freeQslot = some i) : s.evaluate passed (n + 1) = (s.mapQueue i p.ctx p.qh).evaluate passed n := by
  rw [evaluate_sole h]
  simp only [State.evaluateFor, hf, hroom, decide_true]

variable {v : Nat} (hf : s.freeQslot = none) (hv : s.victims p true = [v])
include hf hv

/-- With no free slot, the one victim below the sole candidate is saved for it. -/
theorem evaluate_displaces (hlow : (s.qslot v).victimPri < (p.epri.toNat : Int)) :
    s.evaluate passed (n + 1) = ((s.setQslot v { s.qslot v with nextQ := some (p.ctx, p.qh) }).unmapSlot v).evaluate passed n := by
  rw [evaluate_sole h]
  simp only [State.evaluateFor, hf, hroom, decide_true, hv, List.sortBy, List.placeBy, List.head?, hlow, if_true]

/-- The sole candidate is passed over where the one victim is not below it. -/
theorem evaluate_passes (hlow : (p.epri.toNat : Int) ≤ (s.qslot v).victimPri) :
    s.evaluate passed (n + 1) = s.evaluate ((p.ctx, p.qh) :: passed) n := by
  rw [evaluate_sole h]
  simp only [State.evaluateFor, hf, hroom, decide_true, hv, List.sortBy, List.placeBy, List.head?, if_neg (not_lt.2 hlow)]

end

/-- Firmware that wakes with nothing pending, or only queues of contexts whose quota is 0, does nothing. -/
theorem wakeFirmware_idle {s : State} (h : ∀ p ∈ s.que.pending, s.quota p.ctx = 0) : s.wakeFirmware = s :=
  evaluate_idle (List.filter_eq_nil_iff.2 fun p hp => by simp [h p hp])

section
variable {s : State} {p : PendQ} (hp : s.que.pending = [p])
include hp

/-- A queue that has been passed over, or for which a slot is being saved, is no candidate. -/
theorem candidates_none {passed : List (BitVec 12 × BitVec 16)} (h : (p.ctx, p.qh) ∈ passed ∨ ∃ j, j < 64 ∧ (s.qslot j).nextQ = some (p.ctx, p.qh)) :
    s.candidates passed = [] := by
  rw [State.candidates, hp]
  refine List.filter_eq_nil_iff.2 fun q hq => ?_
  obtain rfl := List.mem_singleton.1 hq
  obtain h | ⟨j, hj, hnext⟩ := h
  · simp [h]
  · have hcoming : (q.ctx, q.qh) ∈ s.comingQueues := List.mem_filterMap.2 ⟨j, List.mem_range.2 hj, hnext⟩
    simp [hcoming]

theorem wakeFirmware_eq : s.wakeFirmware = s.evaluate [] (64 + 1) := by
  rw [State.wakeFirmware, hp]
  rfl

variable (hquota : s.quota p.ctx ≠ 0) (hqen : s.qen p.ctx = true) (hnext : ∀ j, j < 64 → (s.qslot j).nextQ ≠ some (p.ctx, p.qh))
include hquota hqen hnext

theorem candidates_sole : s.candidates [] = [p] := by
  have hcoming : (p.ctx, p.qh) ∉ s.comingQueues := by
    intro hm
    obtain ⟨j, hj, hsome⟩ := List.mem_filterMap.1 hm
    exact hnext j (List.mem_range.1 hj) hsome
  rw [State.candidates, hp]
  exact List.filter_eq_self.2 fun q hq => by
    obtain rfl := List.mem_singleton.1 hq
    simp [hquota, hqen, hcoming]

variable (hroom : s.claimed p.ctx < s.quota p.ctx)
include hroom

theorem wakeFirmware_maps {i : Nat} (hf : s.freeQslot = some i) : s.wakeFirmware = s.mapQueue i p.ctx p.qh := by
  have hnone : (s.mapQueue i p.ctx p.qh).que.pending = [] := by rw [mapQueue_pending, hp]; simp
  rw [wakeFirmware_eq hp, evaluate_maps (candidates_sole hp hquota hqen hnext) hroom hf]
  exact evaluate_idle (by rw [State.candidates, hnone]; rfl)

variable {v : Nat} (hf : s.freeQslot = none) (hv : s.victims p true = [v])
include hf hv

theorem wakeFirmware_displaces (hv64 : v < 64) (hact : (s.qslot v).st = .active) (hlow : (s.qslot v).victimPri < (p.epri.toNat : Int)) :
    s.wakeFirmware = (s.setQslot v { s.qslot v with nextQ := some (p.ctx, p.qh) }).setQslot v
      { s.qslot v with st := .saving, nextQ := some (p.ctx, p.qh) } := by
  have hunmap : (s.setQslot v { s.qslot v with nextQ := some (p.ctx, p.qh) }).unmapSlot v =
      (s.setQslot v { s.qslot v with nextQ := some (p.ctx, p.qh) }).setQslot v { s.qslot v with st := .saving, nextQ := some (p.ctx, p.qh) } := by
    rw [unmapSlot_active (by rw [State.setQslot_qslot_same]; exact hact), State.setQslot_qslot_same]
  rw [wakeFirmware_eq hp, evaluate_displaces (candidates_sole hp hquota hqen hnext) hroom hf hv hlow, hunmap]
  refine evaluate_idle (candidates_none (s := State.setQslot (State.setQslot s v _) v _) hp (.inr ⟨v, hv64, ?_⟩))
  rw [State.setQslot_qslot_same]

theorem wakeFirmware_passes (hlow : (p.epri.toNat : Int) ≤ (s.qslot v).victimPri) : s.wakeFirmware = s := by
  rw [wakeFirmware_eq hp, evaluate_passes (candidates_sole hp hquota hqen hnext) hroom hf hv hlow]
  exact evaluate_idle (candidates_none hp (.inl List.mem_cons_self))

end

/-- No slot is free. -/
theorem freeQslot_none {s : State} (h : ∀ j, j < 64 → (s.qslot j).st ≠ .free) : s.freeQslot = none :=
  List.find?_eq_none.2 fun j hj => by simpa using h j (List.mem_range.1 hj)

theorem filter_range_sole {n v : Nat} {q : Nat → Bool} (hv : v < n) (hq : q v = true) (h : ∀ j, j < n → j ≠ v → q j = false) :
    (List.range n).filter q = [v] := by
  have heq : (List.range n).filter q = (List.range n).filter fun j => decide (j = v) := by
    refine List.filter_congr fun j hj => ?_
    by_cases hj' : j = v
    · simp [hj', hq]
    · simp [hj', h j (List.mem_range.1 hj) hj']
  rw [heq, List.filter_eq, List.count_eq_one_of_mem List.nodup_range (List.mem_range.2 hv)]
  rfl

/-- The one victim: the only slot ACTIVE for a quantum. -/
theorem victims_sole {s : State} (p : PendQ) {v : Nat} (hv : v < 64) (hact : (s.qslot v).st = .active)
    (hold : s.quantum ≤ (s.timebase - (s.qslot v).mappedAt).toNat)
    (h : ∀ j, j < 64 → j ≠ v → (s.qslot j).st ≠ .active ∨ (s.timebase - (s.qslot j).mappedAt).toNat < s.quantum) : s.victims p true = [v] := by
  refine filter_range_sole hv ?_ fun j hj hne => ?_
  · simp only [hact, decide_true, Bool.true_or, Bool.true_and, decide_eq_true_eq]
    exact hold
  · obtain hst | hyoung := h j hj hne
    · simp [hst]
    · simp only [decide_eq_false (Nat.not_le.2 hyoung), Bool.and_false]

/-! ### Kicks (R91) -/

/-- A kick that is ignored: the context's queues are disabled, the queue is no command queue, is disabled or in error, or the index goes back (R91). -/
def State.ignoresKick (s : State) (c : BitVec 12) (h : BitVec 16) (new wr : BitVec 32) : Prop :=
  s.qen c = false ∨ Qw.type (s.qword c h 0) ≠ 1 ∨ Qw.en (s.qword c h 0) = false ∨ Qw.err (s.qword c h 0) = true ∨ 2 ^ 31 ≤ (new - wr).toNat

theorem ignoresKick_iff {s : State} {c : BitVec 12} {h : BitVec 16} {new wr : BitVec 32} :
    (!s.qen c || Qw.type (s.qword c h 0) ≠ 1 || !Qw.en (s.qword c h 0) || Qw.err (s.qword c h 0) || 2 ^ 31 ≤ (new - wr).toNat) = true ↔
      s.ignoresKick c h new wr := by
  simp only [State.ignoresKick, Bool.or_eq_true, Bool.not_eq_true', decide_eq_true_eq, or_assoc]

theorem not_ignoresKick {s : State} {c : BitVec 12} {h : BitVec 16} {new wr : BitVec 32} (hqen : s.qen c = true) (ht : Qw.type (s.qword c h 0) = 1)
    (hen : Qw.en (s.qword c h 0) = true) (herr : Qw.err (s.qword c h 0) = false) (hfwd : (new - wr).toNat < 2 ^ 31) : ¬ s.ignoresKick c h new wr := by
  rintro (h | h | h | h | h)
  · simp [hqen] at h
  · exact h ht
  · simp [hen] at h
  · simp [herr] at h
  · exact Nat.not_le.2 hfwd h

section
variable {s : State} {c : BitVec 12} {w : Word} {h : BitVec 16} (hh : BitVec.ofNat 16 (bits w 63 48) = h)
  {new : BitVec 32} (hnew : BitVec.ofNat 32 (bits w 31 0) = new)
include hh hnew

/-! A kick of a mapped queue. -/

section
variable {i : Nat} (hi : s.queueSlot c h = some i)
include hi

theorem applyKick_mapped_ignored (hk : s.ignoresKick c h new (s.qslot i).wrix) : s.applyKick c w = s.countReg (Reg.queue c.toNat 48) 63 32 := by
  simp only [State.applyKick, hh, hnew, hi]
  exact if_pos (ignoresKick_iff.2 hk)

variable (hk : ¬ s.ignoresKick c h new (s.qslot i).wrix)
include hk

theorem applyKick_mapped_taken {l : Nat} (hl : s.logsz c h = some l) (hroom : (new - (s.qslot i).rdix).toNat ≤ 2 ^ l) :
    s.applyKick c w = s.setQslot i { s.qslot i with wrix := new } := by
  simp only [State.applyKick, hh, hnew, hi]
  rw [if_neg (mt ignoresKick_iff.1 hk)]
  simp only [hl, if_neg (not_lt.2 hroom)]

/-- A ring size out of range, or an index beyond the ring, stops the queue (R91). -/
theorem applyKick_mapped_bad (hbad : s.logsz c h = none ∨ ∃ l, s.logsz c h = some l ∧ 2 ^ l < (new - (s.qslot i).rdix).toNat) :
    s.applyKick c w = (s.queueError c h).postCompletion c 0 (s.qslot i).cseq.toNat h.toNat 10 0 0 0 := by
  simp only [State.applyKick, hh, hnew, hi]
  rw [if_neg (mt ignoresKick_iff.1 hk)]
  obtain hl | ⟨l, hl, hfar⟩ := hbad
  · simp only [hl]
  · simp only [hl, if_pos hfar]

end

/-! A kick of a queue that no slot maps: its indices are those of its entry (R90). -/

section
variable (hi : s.queueSlot c h = none)
include hi

theorem applyKick_unmapped_ignored (hk : s.ignoresKick c h new (BitVec.ofNat 32 (bits (s.qword c h 3) 31 0))) :
    s.applyKick c w = s.countReg (Reg.queue c.toNat 48) 63 32 := by
  simp only [State.applyKick, hh, hnew, hi]
  exact if_pos (ignoresKick_iff.2 hk)

theorem applyKick_unmapped_taken (hk : ¬ s.ignoresKick c h new (BitVec.ofNat 32 (bits (s.qword c h 3) 31 0))) {l : Nat} (hl : s.logsz c h = some l)
    (hroom : (new - BitVec.ofNat 32 (bits (s.qword c h 3) 63 32)).toNat ≤ 2 ^ l) :
    s.applyKick c w = ((s.setQword c h 3 (setBits (s.qword c h 3) 31 0 new.toNat)).pend c h).wakeFirmware := by
  simp only [State.applyKick, hh, hnew, hi]
  rw [if_neg (mt ignoresKick_iff.1 hk)]
  simp only [hl, if_neg (not_lt.2 hroom)]

end

end

/-! ### DOORBELL_KICK -/

section
variable {s : State} {c : BitVec 12} (ha : s.ev.a = c.toNat)
include ha

/-- A kick of a queue whose slot is being saved is held (R93). -/
theorem doorbellKick_held {i : Nat} (hi : s.queueSlot c (BitVec.ofNat 16 (bits s.ev.w 63 48)) = some i) (hst : (s.qslot i).st = .saving) :
    exec .doorbellKick s = .next (s.setQslot i { s.qslot i with held := (s.qslot i).held ++ [s.ev.w] }) := by
  show execDoorbellKick s = _
  simp only [execDoorbellKick, ha, BitVec.ofNat_toNat, BitVec.setWidth_eq, hi, hst, if_true]

theorem doorbellKick_applied (hst : ∀ i, s.queueSlot c (BitVec.ofNat 16 (bits s.ev.w 63 48)) = some i → (s.qslot i).st ≠ .saving) :
    exec .doorbellKick s = .next (s.applyKick c s.ev.w) := by
  show execDoorbellKick s = _
  simp only [execDoorbellKick, ha, BitVec.ofNat_toNat, BitVec.setWidth_eq]
  split
  · rename_i i hi
    rw [if_neg (hst i hi)]
  · rfl

end

/-! ### QUANTUM_BOUNDARY (R94) -/

/-- The pending queues one quantum older. -/
def State.aged (s : State) : State := { s with que := { s.que with pending := s.que.pending.map fun p => { p with epri := satInc p.epri } } }

theorem quantumBoundary_exec (s : State) : exec .quantumBoundary s = .next s.aged.wakeFirmware := rfl

theorem quantumBoundary_idle {s : State} (h : s.que.pending = []) : exec .quantumBoundary s = .next s := by
  have hage : s.aged = s := by
    rw [State.aged, h, List.map_nil, ← h]
  rw [quantumBoundary_exec, hage, wakeFirmware_idle (by simp [h])]

/-- The sole pending queue, one quantum older. -/
def State.agedTo (s : State) (p : PendQ) : State := { s with que := { s.que with pending := [{ p with epri := satInc p.epri }] } }

section
variable {s : State} {p : PendQ} (hp : s.que.pending = [p]) (hquota : s.quota p.ctx ≠ 0) (hqen : s.qen p.ctx = true)
  (hnext : ∀ j, j < 64 → (s.qslot j).nextQ ≠ some (p.ctx, p.qh)) (hroom : s.claimed p.ctx < s.quota p.ctx)
include hp

theorem quantumBoundary_sole : exec .quantumBoundary s = .next (s.agedTo p).wakeFirmware := by
  rw [quantumBoundary_exec, State.aged, hp]
  rfl

include hquota hqen hnext hroom

/-- The sole candidate takes the lowest free slot. -/
theorem quantumBoundary_maps {i : Nat} (hf : s.freeQslot = some i) : ∃ t : State, exec .quantumBoundary s = .next t ∧
    t = (s.agedTo p).mapQueue i p.ctx p.qh ∧ (t.qslot i).st = .restoring ∧ (t.qslot i).ctx = p.ctx ∧ (t.qslot i).qh = p.qh ∧ t.que.pending = [] := by
  have hwake : (s.agedTo p).wakeFirmware = (s.agedTo p).mapQueue i p.ctx p.qh :=
    wakeFirmware_maps (s := s.agedTo p) (p := { p with epri := satInc p.epri }) rfl hquota hqen hnext hroom hf
  obtain ⟨hst, hctx, hqh⟩ := mapQueue_qslot (s.agedTo p) i p.ctx p.qh
  refine ⟨_, quantumBoundary_sole hp, hwake, ?_⟩
  rw [hwake]
  refine ⟨hst, hctx, hqh, ?_⟩
  rw [mapQueue_pending]
  simp [State.agedTo]

variable {v : Nat} (hv : v < 64) (hfull : ∀ j, j < 64 → (s.qslot j).st ≠ .free) (hact : (s.qslot v).st = .active)
  (hold : s.quantum ≤ (s.timebase - (s.qslot v).mappedAt).toNat)
  (hyoung : ∀ j, j < 64 → j ≠ v → (s.qslot j).st ≠ .active ∨ (s.timebase - (s.qslot j).mappedAt).toNat < s.quantum)
include hv hfull hact hold hyoung

theorem quantumBoundary_displaces (hlow : (s.qslot v).victimPri < ((satInc p.epri).toNat : Int)) : ∃ t : State, exec .quantumBoundary s = .next t ∧
    t.qslot v = { s.qslot v with st := .saving, nextQ := some (p.ctx, p.qh) } ∧
    t = { s.agedTo p with que := { (s.agedTo p).que with slots := t.que.slots } } := by
  have hwake := wakeFirmware_displaces (s := s.agedTo p) (p := { p with epri := satInc p.epri }) rfl hquota hqen hnext hroom (freeQslot_none hfull)
    (victims_sole _ hv hact hold hyoung) hv hact hlow
  refine ⟨_, quantumBoundary_sole hp, ?_⟩
  rw [hwake]
  exact ⟨State.setQslot_qslot_same .., rfl⟩

theorem quantumBoundary_passes (hlow : ((satInc p.epri).toNat : Int) ≤ (s.qslot v).victimPri) : exec .quantumBoundary s = .next (s.agedTo p) := by
  have hwake := wakeFirmware_passes (s := s.agedTo p) (p := { p with epri := satInc p.epri }) rfl hquota hqen hnext hroom (freeQslot_none hfull)
    (victims_sole _ hv hact hold hyoung) hlow
  rw [quantumBoundary_sole hp, hwake]

end

/-! ### SLOT_RESTORE_DONE and SLOT_SAVE_DONE (R93) -/

section
variable {s : State}

theorem slotRestoreDone_idle (h : (s.qslot s.ev.a).st ≠ .restoring) : exec .slotRestoreDone s = .next s := congrArg _ (if_pos h)

/-- The slot of ev.a restored. -/
def State.restored (s : State) : State := s.setQslot s.ev.a { s.qslot s.ev.a with st := .active, mappedAt := s.timebase }

theorem slotRestoreDone_restored (h : (s.qslot s.ev.a).st = .restoring) : exec .slotRestoreDone s =
    .next (if !Qw.en (s.qword (s.qslot s.ev.a).ctx (s.qslot s.ev.a).qh 0) || Qw.err (s.qword (s.qslot s.ev.a).ctx (s.qslot s.ev.a).qh 0)
      then s.restored.unmapSlot s.ev.a else s.restored) := by
  show execSlotRestoreDone s = _
  rw [execSlotRestoreDone, if_neg (not_not.2 h)]
  simp only [setQslot_qword]
  rfl

theorem slotSaveDone_idle (h : (s.qslot s.ev.a).st ≠ .saving) : exec .slotSaveDone s = .next s := congrArg _ (if_pos h)

/-- The entry of the queue of slot `i` written back, and the slot free. -/
def State.savedSlot (s : State) (i : Nat) : State :=
  let q := s.qslot i
  ((((s.setQword q.ctx q.qh 3 (field 32 q.rdix.toNat ||| field 0 q.wrix.toNat)).setQword q.ctx q.qh 4
    (field 16 q.cseq.toNat)).setQword q.ctx q.qh 5 (field 63 (b2n q.hwait))).setQslot i QSlot.idle).countMapped q.ctx

/-- A queue whose ring holds records, and which may start them, is pending again. -/
def State.pendSaved (s : State) (q : QSlot) : State :=
  if q.rdix ≠ q.wrix && Qw.en (s.qword q.ctx q.qh 0) && !Qw.err (s.qword q.ctx q.qh 0) then s.pend q.ctx q.qh else s

/-- The slot taken by the queue it was saved for, if its context may still map one. -/
def State.handSlot (s : State) (i : Nat) : Option (BitVec 12 × BitVec 16) → State
  | none => s
  | some (c, h) => if s.qen c && s.claimed c < s.quota c && s.que.pending.any (fun p => p.ctx = c && p.qh = h) then s.mapQueue i c h else s

theorem slotSaveDone_saved (h : (s.qslot s.ev.a).st = .saving) (hheld : (s.qslot s.ev.a).held = []) : exec .slotSaveDone s =
    .next (((s.savedSlot s.ev.a).pendSaved (s.qslot s.ev.a)).handSlot s.ev.a (s.qslot s.ev.a).nextQ) := by
  show execSlotSaveDone s = _
  rw [execSlotSaveDone, if_neg (not_not.2 h), hheld]
  cases (s.qslot s.ev.a).nextQ <;> rfl

theorem slotRestoreDone_active (h : (s.qslot s.ev.a).st = .restoring) (hen : Qw.en (s.qword (s.qslot s.ev.a).ctx (s.qslot s.ev.a).qh 0) = true)
    (herr : Qw.err (s.qword (s.qslot s.ev.a).ctx (s.qslot s.ev.a).qh 0) = false) : exec .slotRestoreDone s = .next s.restored := by
  rw [slotRestoreDone_restored h, if_neg (by simp [hen, herr])]

/-- A queue disabled or in error meanwhile is saved again. -/
theorem slotRestoreDone_saving (h : (s.qslot s.ev.a).st = .restoring)
    (hbad : Qw.en (s.qword (s.qslot s.ev.a).ctx (s.qslot s.ev.a).qh 0) = false ∨ Qw.err (s.qword (s.qslot s.ev.a).ctx (s.qslot s.ev.a).qh 0) = true) :
    ∃ t : State, exec .slotRestoreDone s = .next t ∧ t.qslot s.ev.a = { s.qslot s.ev.a with st := .saving, mappedAt := s.timebase } ∧
      t = { s with que := { s.que with slots := t.que.slots } } := by
  have hslot : s.restored.qslot s.ev.a = { s.qslot s.ev.a with st := .active, mappedAt := s.timebase } := State.setQslot_qslot_same ..
  refine ⟨_, (slotRestoreDone_restored h).trans (congrArg _ (if_pos (by simpa using hbad))), ?_⟩
  rw [unmapSlot_active (by rw [hslot]), hslot]
  exact ⟨State.setQslot_qslot_same .., rfl⟩

section
variable (h : (s.qslot s.ev.a).st = .saving) (hheld : (s.qslot s.ev.a).held = [])
include h hheld

theorem slotSaveDone_freed (hnext : (s.qslot s.ev.a).nextQ = none) (hidle : (s.qslot s.ev.a).rdix = (s.qslot s.ev.a).wrix ∨
    Qw.en ((s.savedSlot s.ev.a).qword (s.qslot s.ev.a).ctx (s.qslot s.ev.a).qh 0) = false ∨
    Qw.err ((s.savedSlot s.ev.a).qword (s.qslot s.ev.a).ctx (s.qslot s.ev.a).qh 0) = true) : exec .slotSaveDone s = .next (s.savedSlot s.ev.a) := by
  have hpend : (s.savedSlot s.ev.a).pendSaved (s.qslot s.ev.a) = s.savedSlot s.ev.a := by
    refine if_neg ?_
    obtain hidle | hidle | hidle := hidle <;> simp [hidle]
  rw [slotSaveDone_saved h hheld, hpend, hnext]
  rfl

/-- A queue whose ring holds records is pending again. -/
theorem slotSaveDone_pends (hnext : (s.qslot s.ev.a).nextQ = none) (hring : (s.qslot s.ev.a).rdix ≠ (s.qslot s.ev.a).wrix)
    (hen : Qw.en ((s.savedSlot s.ev.a).qword (s.qslot s.ev.a).ctx (s.qslot s.ev.a).qh 0) = true)
    (herr : Qw.err ((s.savedSlot s.ev.a).qword (s.qslot s.ev.a).ctx (s.qslot s.ev.a).qh 0) = false) :
    exec .slotSaveDone s = .next ((s.savedSlot s.ev.a).pend (s.qslot s.ev.a).ctx (s.qslot s.ev.a).qh) := by
  have hpend : (s.savedSlot s.ev.a).pendSaved (s.qslot s.ev.a) = (s.savedSlot s.ev.a).pend (s.qslot s.ev.a).ctx (s.qslot s.ev.a).qh :=
    if_pos (by simp [hring, hen, herr])
  rw [slotSaveDone_saved h hheld, hpend, hnext]
  rfl

/-- The queue for which the slot was saved takes it where QEN and QUOTA allow. -/
theorem slotSaveDone_handed {c : BitVec 12} {q : BitVec 16} (hnext : (s.qslot s.ev.a).nextQ = some (c, q))
    (hring : (s.qslot s.ev.a).rdix = (s.qslot s.ev.a).wrix) (hpending : ∃ p ∈ (s.savedSlot s.ev.a).que.pending, p.ctx = c ∧ p.qh = q) :
    exec .slotSaveDone s = .next (if (s.savedSlot s.ev.a).qen c && (s.savedSlot s.ev.a).claimed c < (s.savedSlot s.ev.a).quota c
      then (s.savedSlot s.ev.a).mapQueue s.ev.a c q else s.savedSlot s.ev.a) := by
  have hpend : (s.savedSlot s.ev.a).pendSaved (s.qslot s.ev.a) = s.savedSlot s.ev.a := if_neg (by simp [hring])
  have hany : ((s.savedSlot s.ev.a).que.pending.any fun p => p.ctx = c && p.qh = q) = true := by simpa using hpending
  rw [slotSaveDone_saved h hheld, hpend, hnext]
  simp only [State.handSlot, hany, Bool.and_true]

end

end

/-! ### Queue operations (R95) -/

section
variable {s : State} {c : BitVec 12} {h : BitVec 16} (ha : s.ev.a = c.toNat) (hb : s.ev.b = h.toNat)
include ha hb

theorem qopDisable_other (ht : Qw.type ((s.setEntry0 c h 59 false).qword c h 0) ≠ 1) : exec .qopDisable s = .next (s.setEntry0 c h 59 false) := by
  show execQopDisable s = _
  simp only [execQopDisable, ha, hb, BitVec.ofNat_toNat, BitVec.setWidth_eq]
  rw [if_pos ht]

theorem qopDisable_unmapped (ht : Qw.type ((s.setEntry0 c h 59 false).qword c h 0) = 1)
    (hi : ((s.setEntry0 c h 59 false).unpend c h).queueSlot c h = none) : exec .qopDisable s = .next ((s.setEntry0 c h 59 false).unpend c h) := by
  show execQopDisable s = _
  simp only [execQopDisable, ha, hb, BitVec.ofNat_toNat, BitVec.setWidth_eq]
  rw [if_neg (not_not.2 ht)]
  simp only [hi]

/-- The slot of a queue that is disabled is saved (R93). -/
theorem qopDisable_mapped {i : Nat} (ht : Qw.type ((s.setEntry0 c h 59 false).qword c h 0) = 1)
    (hi : ((s.setEntry0 c h 59 false).unpend c h).queueSlot c h = some i) (hact : (((s.setEntry0 c h 59 false).unpend c h).qslot i).st = .active) :
    exec .qopDisable s = .next (((s.setEntry0 c h 59 false).unpend c h).setQslot i
      { ((s.setEntry0 c h 59 false).unpend c h).qslot i with st := .saving }) := by
  show execQopDisable s = _
  simp only [execQopDisable, ha, hb, BitVec.ofNat_toNat, BitVec.setWidth_eq]
  rw [if_neg (not_not.2 ht)]
  simp only [hi, unmapSlot_active hact]

theorem qopEnable_eq : exec .qopEnable s = .next (s.setEntry0 c h 59 true) := by
  show execQopEnable s = _
  simp only [execQopEnable, ha, hb, BitVec.ofNat_toNat, BitVec.setWidth_eq]

theorem qopClearError_pends (ht : Qw.type ((s.setEntry0 c h 58 false).qword c h 0) = 1) (hi : (s.setEntry0 c h 58 false).queueSlot c h = none)
    (hring : bits ((s.setEntry0 c h 58 false).qword c h 3) 63 32 ≠ bits ((s.setEntry0 c h 58 false).qword c h 3) 31 0) :
    exec .qopClearError s = .next ((s.setEntry0 c h 58 false).pend c h) := by
  show execQopClearError s = _
  simp only [execQopClearError, ha, hb, BitVec.ofNat_toNat, BitVec.setWidth_eq]
  rw [if_pos (by simp [ht, hi, hring])]

theorem qopClearError_else (h' : Qw.type ((s.setEntry0 c h 58 false).qword c h 0) ≠ 1 ∨ (s.setEntry0 c h 58 false).queueSlot c h ≠ none ∨
    bits ((s.setEntry0 c h 58 false).qword c h 3) 63 32 = bits ((s.setEntry0 c h 58 false).qword c h 3) 31 0) :
    exec .qopClearError s = .next (s.setEntry0 c h 58 false) := by
  show execQopClearError s = _
  simp only [execQopClearError, ha, hb, BitVec.ofNat_toNat, BitVec.setWidth_eq]
  refine congrArg _ (if_neg ?_)
  obtain ht | hi | hring := h'
  · simp [ht]
  · simp [Option.isNone_iff_eq_none, hi]
  · simp [hring]

end

/-! ### INTERRUPT_TIMER and ERHEAD_WRITE (R103, R104) -/

section
variable {s : State} {c : BitVec 12} (ha : s.ev.a = c.toNat)
include ha

theorem interruptTimer_interrupts (hi : s.regBits (Reg.queue c.toNat 32) 55 40 ≠ 0) (hn : (Tab.get (0, 0) s.que.since c.toNat).1 ≠ 0)
    (ht : 1000 * s.regBits (Reg.queue c.toNat 32) 55 40 ≤ (s.timebase - (Tab.get (0, 0) s.que.since c.toNat).2).toNat) :
    exec .interruptTimer s = .next (s.interrupt c) := by
  show execInterruptTimer s = _
  simp only [execInterruptTimer, ha, BitVec.ofNat_toNat, BitVec.setWidth_eq]
  rw [if_pos ?_]
  simp only [Bool.and_eq_true, decide_eq_true_eq]
  exact ⟨⟨hi, hn⟩, ht⟩

theorem interruptTimer_idle (h : s.regBits (Reg.queue c.toNat 32) 55 40 = 0 ∨ (Tab.get (0, 0) s.que.since c.toNat).1 = 0 ∨
    (s.timebase - (Tab.get (0, 0) s.que.since c.toNat).2).toNat < 1000 * s.regBits (Reg.queue c.toNat 32) 55 40) : exec .interruptTimer s = .next s := by
  show execInterruptTimer s = _
  simp only [execInterruptTimer, ha, BitVec.ofNat_toNat, BitVec.setWidth_eq]
  rw [if_neg ?_]
  simp only [Bool.and_eq_true, decide_eq_true_eq]
  rintro ⟨⟨hi, hn⟩, ht⟩
  obtain h | h | h := h
  · exact hi h
  · exact hn h
  · exact Nat.not_le.2 h ht

/-- A head ahead of ERTAIL is ignored (R104). -/
theorem erheadWrite_ahead (h0 : 0 < (BitVec.ofNat 32 (bits s.ev.w 63 32) - s.ringTail c).toNat)
    (h1 : (BitVec.ofNat 32 (bits s.ev.w 63 32) - s.ringTail c).toNat < 2 ^ 31) : exec .erheadWrite s = .next s := by
  show execErheadWrite s = _
  simp only [execErheadWrite, ha, BitVec.ofNat_toNat, BitVec.setWidth_eq]
  rw [if_pos (by simp only [Bool.and_eq_true, decide_eq_true_eq]; exact ⟨h0, h1⟩)]

omit ha in
/-- Without held entries of the context none is written. -/
theorem drainHeld_none {t : State} (hheld : ∀ x ∈ t.que.held, x.1 ≠ c) (n : Nat) : t.drainHeld c n = t := by
  have hfind : t.que.held.find? (fun h => h.1 = c) = none := List.find?_eq_none.2 fun x hx => by simpa using hheld x hx
  cases n with
  | zero => rfl
  | succ n =>
    simp only [State.drainHeld, hfind]
    split <;> rfl

theorem erheadWrite_taken (h : (BitVec.ofNat 32 (bits s.ev.w 63 32) - s.ringTail c).toNat = 0 ∨
      2 ^ 31 ≤ (BitVec.ofNat 32 (bits s.ev.w 63 32) - s.ringTail c).toNat) (hheld : ∀ x ∈ s.que.held, x.1 ≠ c) :
    exec .erheadWrite s = .next (s.setRegBits (Reg.queue c.toNat 24) 63 32 (BitVec.ofNat 32 (bits s.ev.w 63 32)).toNat) := by
  show execErheadWrite s = _
  simp only [execErheadWrite, ha, BitVec.ofNat_toNat, BitVec.setWidth_eq]
  rw [if_neg (by simp only [Bool.and_eq_true, decide_eq_true_eq]; omega)]
  exact congrArg Host.Outcome.next (drainHeld_none (t := s.setRegBits _ _ _ _) hheld _)

end

/-- Settles O49: kicks by the slot of their queue, an evaluation with one candidate, then each event of the slots, of queue
operations and of rings. The order of an evaluation and what a restored slot holds are the model's choice (log 54). -/
theorem queueTableEvents : Obligations.QueueTableEvents := by
  unfold Obligations.QueueTableEvents
  refine ⟨fun s c ha => ?_, fun s => quantumBoundary_idle, fun s p hp hquota hqen hnext hroom => ?_, fun s => ?_, fun s c h ha hb => ?_,
    fun s c ha => ?_⟩
  · intro w h new w0
    refine ⟨fun i => doorbellKick_held ha, fun i hi hst => ?_, fun hi => ?_⟩
    · have hrun := doorbellKick_applied ha fun j hj => by
        obtain rfl := Option.some.inj (hj.symm.trans hi)
        exact hst
      refine ⟨fun hk => hrun.trans (congrArg Host.Outcome.next (applyKick_mapped_ignored rfl rfl hi hk)), fun hqen ht hen herr hfwd => ?_⟩
      have hk : ¬ s.ignoresKick c h new (s.qslot i).wrix := not_ignoresKick hqen ht hen herr hfwd
      exact ⟨fun l hl hroom => hrun.trans (congrArg Host.Outcome.next (applyKick_mapped_taken rfl rfl hi hk hl hroom)),
        fun hbad => hrun.trans (congrArg Host.Outcome.next (applyKick_mapped_bad rfl rfl hi hk hbad))⟩
    · have hrun := doorbellKick_applied ha fun j hj => absurd (hj.symm.trans hi) (by simp)
      refine ⟨fun hk => hrun.trans (congrArg Host.Outcome.next (applyKick_unmapped_ignored rfl rfl hi hk)), fun hqen ht hen herr hfwd l hl hroom => ?_⟩
      intro u
      have hpended : exec .doorbellKick s = .next u.wakeFirmware :=
        hrun.trans (congrArg Host.Outcome.next (applyKick_unmapped_taken rfl rfl hi (not_ignoresKick hqen ht hen herr hfwd) hl hroom))
      exact ⟨hpended, pend_mem (u := u) rfl, fun hquota => hpended.trans (congrArg Host.Outcome.next (wakeFirmware_idle (s := u) hquota))⟩
  · exact ⟨fun i hf => quantumBoundary_maps hp hquota hqen hnext hroom hf,
      fun v hv hfull hact hold hyoung => ⟨quantumBoundary_displaces hp hquota hqen hnext hroom hv hfull hact hold hyoung,
        quantumBoundary_passes hp hquota hqen hnext hroom hv hfull hact hold hyoung⟩⟩
  · refine ⟨slotRestoreDone_idle, slotRestoreDone_active, slotRestoreDone_saving, slotSaveDone_idle, fun hst hheld => ?_⟩
    refine ⟨slotSaveDone_freed hst hheld, slotSaveDone_pends hst hheld, fun c h hnext hring hpending => ?_,
      fun hnone => wakeFirmware_idle (by simp [hnone])⟩
    have hrun := slotSaveDone_handed hst hheld hnext hring hpending
    refine ⟨fun hqen hroom => hrun.trans (congrArg Host.Outcome.next (if_pos ?_)), fun hno => hrun.trans (congrArg Host.Outcome.next (if_neg ?_))⟩
    · exact Bool.and_eq_true_iff.2 ⟨hqen, decide_eq_true hroom⟩
    · rw [Bool.and_eq_true, decide_eq_true_eq]
      rintro ⟨hqen, hroom⟩
      exact hno.elim (fun h => Bool.noConfusion (h.symm.trans hqen)) (Nat.not_le.2 hroom)
  · exact ⟨qopDisable_other ha hb, qopDisable_unmapped ha hb, fun i => qopDisable_mapped ha hb, qopEnable_eq ha hb, qopClearError_pends ha hb,
      qopClearError_else ha hb⟩
  · refine ⟨fun hi hn ht => ⟨s.interrupt c, interruptTimer_interrupts ha hi hn ht, rfl, rfl, Tab.get_set_same (0, 0) s.que.since c.toNat (0, 0)⟩,
      interruptTimer_idle ha, erheadWrite_ahead ha, erheadWrite_taken ha⟩

end Sys2Proof.Machine
end

section
/-! SUPPORT. Command records (R93 to R99): which record a slot reads, what becomes of one, and what each command does. -/

namespace Sys2Proof.Machine

/-! ### The record a slot reads (R93, R95, R104) -/

section
variable {s : State} {i : Nat}

theorem nextRecord_unmapped (h : (s.qslot i).st ≠ .active ∨ s.qen (s.qslot i).ctx = false) : s.nextRecord i = .none :=
  if_pos (by simpa using h)

/-- A full event ring, an empty ring and 16 launches of the queue each start nothing. -/
theorem nextRecord_held (hw : (s.qslot i).hwait = false)
    (h : s.ringFull (s.qslot i).ctx = true ∨ (s.qslot i).rdix = (s.qslot i).wrix ∨ 16 ≤ s.running (s.qslot i).ctx (s.qslot i).qh) :
    s.nextRecord i = .none := by
  have hheld : (!(s.qslot i).hwait && (s.ringFull (s.qslot i).ctx || (s.qslot i).rdix = (s.qslot i).wrix ||
      16 ≤ s.running (s.qslot i).ctx (s.qslot i).qh)) = true := by
    simpa [hw, or_assoc] using h
  unfold State.nextRecord
  dsimp only
  rw [if_pos hheld, ite_self]

variable (hst : (s.qslot i).st = .active) (hqen : s.qen (s.qslot i).ctx = true) {u : State} {w : List Word}
include hst hqen

/-- A record read for the first time is passed: it counts as waiting until it is done. -/
theorem nextRecord_new (hw : (s.qslot i).hwait = false) (hfull : s.ringFull (s.qslot i).ctx = false) (hring : (s.qslot i).rdix ≠ (s.qslot i).wrix)
    (hrun : s.running (s.qslot i).ctx (s.qslot i).qh < 16)
    (hread : s.readVaWords (.queue (s.qslot i).ctx (s.qslot i).qh) (s.qslot i).ctx (s.qword (s.qslot i).ctx (s.qslot i).qh 1 +
      BitVec.ofNat 64 (64 * ((s.qslot i).rdix.toNat % 2 ^ bits (s.qword (s.qslot i).ctx (s.qslot i).qh 2) 63 59))) 8 = .ok (u, w)) :
    s.nextRecord i = .record (u.setQslot i { u.qslot i with rdix := (s.qslot i).rdix + 1, cseq := (s.qslot i).cseq + 1, hwait := true }) (some w)
      (s.qslot i).cseq := by
  have hgo : ¬ (s.ringFull (s.qslot i).ctx || (s.qslot i).rdix = (s.qslot i).wrix || 16 ≤ s.running (s.qslot i).ctx (s.qslot i).qh) = true := by
    simp [hfull, hring, hrun]
  simp only [State.nextRecord, hst, hqen, hw, hread, hgo, ne_eq, not_true_eq_false, decide_false, Bool.not_true, Bool.or_false, Bool.not_false,
    Bool.true_and, Bool.false_eq_true, if_false]

/-- A record that waits is read again. -/
theorem nextRecord_again (hw : (s.qslot i).hwait = true)
    (hread : s.readVaWords (.queue (s.qslot i).ctx (s.qslot i).qh) (s.qslot i).ctx (s.qword (s.qslot i).ctx (s.qslot i).qh 1 +
      BitVec.ofNat 64 (64 * (((s.qslot i).rdix - 1).toNat % 2 ^ bits (s.qword (s.qslot i).ctx (s.qslot i).qh 2) 63 59))) 8 = .ok (u, w)) :
    s.nextRecord i = .record u (some w) ((s.qslot i).cseq - 1) := by
  simp only [State.nextRecord, hst, hqen, hw, hread, ne_eq, not_true_eq_false, decide_false, Bool.not_true, Bool.or_false,
    Bool.false_and, Bool.false_eq_true, if_false, if_true]

end

/-! ### What becomes of a record (R96, R104) -/

section
variable {s u : State} {op : Nat} {f : State → Nat → List Word → BitVec 48 → State} {w : Option (List Word)} {seq : BitVec 48}

theorem onRecord_none (h : s.nextRecord s.ev.a = .none) : s.onRecord op f = s := by
  simp only [State.onRecord, h]

theorem onRecord_wait (h : s.nextRecord s.ev.a = .wait u) : s.onRecord op f = u := by
  simp only [State.onRecord, h]

variable (h : s.nextRecord s.ev.a = .record u w seq)
include h

theorem onRecord_other (hop : recordRow w ≠ op) : s.onRecord op f = s := by
  simp only [State.onRecord, h, if_pos hop]

theorem onRecord_dealt (hop : recordRow w = op) : s.onRecord op f = s.wakeEmpty (u.dealRecord s.ev.a op w seq f) s.ev.a := by
  simp only [State.onRecord, h, hop, ne_eq, not_true_eq_false, if_false]

end

section
variable {u : State} {i op : Nat} {f : State → Nat → List Word → BitVec 48 → State} {w : List Word} {seq : BitVec 48}

theorem dealRecord_malformed (hm : u.malformed (u.qslot i).ctx w = true) : u.dealRecord i op (some w) seq f = u.badRecord i seq := by
  simp only [State.dealRecord, hm, if_true]

variable (hm : u.malformed (u.qslot i).ctx w = false)
include hm

/-- BAR and SIGNAL wait for the launches of the queue (R96). -/
theorem dealRecord_waits (hbar : bit (w.getD 0 0) 54 = true ∨ op = 3) (hrun : u.running (u.qslot i).ctx (u.qslot i).qh ≠ 0) :
    u.dealRecord i op (some w) seq f = u := by
  simp only [State.dealRecord, hm, Bool.false_eq_true, if_false]
  exact if_pos (by simpa [hrun] using hbar)

/-- A full event ring starts none, but for a WAITV that has started (R104). -/
theorem dealRecord_full (hop : op ≠ 2 ∨ ((u.qslot i).ctx, (u.qslot i).qh) ∉ u.que.begun) (hfull : u.ringFull (u.qslot i).ctx = true) :
    u.dealRecord i op (some w) seq f = u := by
  have hheld : (u.ringFull (u.qslot i).ctx && !(op = 2 && u.begun (u.qslot i))) = true := by
    rw [hfull, State.begun]
    obtain hop | hop := hop <;> simp [hop]
  simp only [State.dealRecord, hm, Bool.false_eq_true, if_false, if_pos hheld, ite_self]

theorem dealRecord_starts (hbar : bit (w.getD 0 0) 54 = true ∨ op = 3 → u.running (u.qslot i).ctx (u.qslot i).qh = 0)
    (hfull : u.ringFull (u.qslot i).ctx = false ∨ op = 2 ∧ ((u.qslot i).ctx, (u.qslot i).qh) ∈ u.que.begun) :
    u.dealRecord i op (some w) seq f = f u i w seq := by
  have hgo : ¬ (u.ringFull (u.qslot i).ctx && !(op = 2 && u.begun (u.qslot i))) = true := by
    rw [State.begun]
    obtain hfull | ⟨hop, hbegun⟩ := hfull
    · simp [hfull]
    · simp [hop, hbegun]
  have hfree : ¬ ((bit (w.getD 0 0) 54 || op = 3) && u.running (u.qslot i).ctx (u.qslot i).qh ≠ 0) = true := by
    simpa using hbar
  simp only [State.dealRecord, hm, Bool.false_eq_true, if_false, if_neg hgo, if_neg hfree]

end

/-- Each command is dealt with by `State.onRecord`, at the row of its OP. -/
theorem command_onRecord {ins : Instr} {op : Nat} (h : (ins, op) ∈ [(Instr.cmdNop, 0), (.launch, 1), (.waitv, 2), (.signal, 3)]) :
    ∃ f : State → Nat → List Word → BitVec 48 → State, ∀ s, exec ins s = .next (s.onRecord op f) := by
  simp only [List.mem_cons, Prod.mk.injEq, List.not_mem_nil, or_false] at h
  obtain ⟨rfl, rfl⟩ | ⟨rfl, rfl⟩ | ⟨rfl, rfl⟩ | ⟨rfl, rfl⟩ := h
  · exact ⟨_, fun _ => rfl⟩
  · exact ⟨_, fun _ => rfl⟩
  · exact ⟨_, fun _ => rfl⟩
  · exact ⟨_, fun _ => rfl⟩

/-! ### The commands (R96 to R99) -/

theorem recordRow_command {w0 : Word} {r : List Word} {op : Nat} (h : bits w0 63 56 = op) (hop : op < 4) : recordRow (some (w0 :: r)) = op := by
  subst h
  exact if_neg (Nat.not_le.2 hop)

/-- The store of a SIGNAL to a variable: a release at `.sys` of the whole part (R215). -/
def State.signalled (s : State) (key new : Nat) : State :=
  let v := s.synIn key
  let ts := max48 s.partHigh ((v.syn key).rts + 1)
  ({ v with sch := { v.sch with partClock := max48 v.sch.partClock ts } } : State).setSyn key ⟨BitVec.ofNat 32 new, ts, ts⟩

section
variable {s u : State} {w0 w1 w2 w3 : Word} {r : List Word} {seq : BitVec 48}
  (hn : s.nextRecord s.ev.a = .record u (some (w0 :: w1 :: w2 :: w3 :: r)) seq)
  (hm : u.malformed (u.qslot s.ev.a).ctx (w0 :: w1 :: w2 :: w3 :: r) = false)
  (hbar : bit w0 54 = true → u.running (u.qslot s.ev.a).ctx (u.qslot s.ev.a).qh = 0)
  (hfull : u.ringFull (u.qslot s.ev.a).ctx = false ∨ bits w0 63 56 = 2 ∧ ((u.qslot s.ev.a).ctx, (u.qslot s.ev.a).qh) ∈ u.que.begun)
include hn hm hbar hfull

/-- A command that is well formed, and that neither BAR nor its event ring holds back, has its own effect. -/
theorem onRecord_starts {op : Nat} {f : State → Nat → List Word → BitVec 48 → State} (hop : bits w0 63 56 = op) (h4 : op < 4)
    (hsig : op ≠ 3 ∨ u.running (u.qslot s.ev.a).ctx (u.qslot s.ev.a).qh = 0) :
    s.onRecord op f = s.wakeEmpty (f u s.ev.a (w0 :: w1 :: w2 :: w3 :: r) seq) s.ev.a := by
  rw [onRecord_dealt hn (recordRow_command hop h4), dealRecord_starts hm (fun h => h.elim hbar hsig.neg_resolve_left) (hop ▸ hfull)]

theorem cmdNop_done (hop : bits w0 63 56 = 0) : exec .cmdNop s = .next (s.wakeEmpty (u.commandDone s.ev.a seq (bit w0 55)) s.ev.a) := by
  show Host.Outcome.next (s.onRecord 0 _) = _
  rw [onRecord_starts hn hm hbar hfull hop (by decide) (.inl (by decide))]
  rfl

theorem waitv_tried (hop : bits w0 63 56 = 2) :
    exec .waitv s = .next (s.wakeEmpty (u.tryWaitv s.ev.a (w0 :: w1 :: w2 :: w3 :: r) seq) s.ev.a) := by
  show Host.Outcome.next (s.onRecord 2 _) = _
  rw [onRecord_starts hn hm hbar hfull hop (by decide) (.inl (by decide))]

section
variable (hop : bits w0 63 56 = 1) {v : State}
include hop

/-- A launch record whose page is awaited: a record without BAR stays at RDIX (R90). -/
theorem launch_waits (hl : u.launchRecord (u.qslot s.ev.a).ctx (u.qslot s.ev.a).qh seq (bit w0 55) w1 = .wait v) :
    exec .launch s = .next (s.wakeEmpty (if bit w0 54 then v else v.unpass s.ev.a) s.ev.a) := by
  show Host.Outcome.next (s.onRecord 1 _) = _
  rw [onRecord_starts hn hm hbar hfull hop (by decide) (.inl (by decide))]
  simp only [cmplOf, List.getD_cons_zero, List.getD_cons_succ, hl]

theorem launch_bad {chk : Nat} (hl : u.launchRecord (u.qslot s.ev.a).ctx (u.qslot s.ev.a).qh seq (bit w0 55) w1 = .bad v chk) :
    exec .launch s = .next (s.wakeEmpty ((v.recordDone s.ev.a).postCompletion (u.qslot s.ev.a).ctx 0 seq.toNat (u.qslot s.ev.a).qh.toNat 2 0 0 chk)
      s.ev.a) := by
  show Host.Outcome.next (s.onRecord 1 _) = _
  rw [onRecord_starts hn hm hbar hfull hop (by decide) (.inl (by decide))]
  simp only [cmplOf, List.getD_cons_zero, List.getD_cons_succ, hl]

variable {l : Launch} (hl : u.launchRecord (u.qslot s.ev.a).ctx (u.qslot s.ev.a).qh seq (bit w0 55) w1 = .ok v l)
include hl

theorem launch_refused (href : v.refusesLaunch l = true) :
    exec .launch s = .next (s.wakeEmpty ((v.recordDone s.ev.a).postCompletion (u.qslot s.ev.a).ctx 0 seq.toNat (u.qslot s.ev.a).qh.toNat 3 0 0 0)
      s.ev.a) := by
  show Host.Outcome.next (s.onRecord 1 _) = _
  rw [onRecord_starts hn hm hbar hfull hop (by decide) (.inl (by decide))]
  simp only [cmplOf, List.getD_cons_zero, List.getD_cons_succ, hl, href, if_true]

theorem launch_admitted (href : v.refusesLaunch l = false) :
    exec .launch s = .next (s.wakeEmpty ((v.recordDone s.ev.a).admitLaunch l).1 s.ev.a) := by
  show Host.Outcome.next (s.onRecord 1 _) = _
  rw [onRecord_starts hn hm hbar hfull hop (by decide) (.inl (by decide))]
  simp only [cmplOf, List.getD_cons_zero, List.getD_cons_succ, hl, href, Bool.false_eq_true, if_false]

end

section
variable (hop : bits w0 63 56 = 3) (hrun : u.running (u.qslot s.ev.a).ctx (u.qslot s.ev.a).qh = 0)
include hop hrun

theorem signal_variable (hvar : bit w3 61 = true) {key : Nat} (hkey : key = synKey (u.qslot s.ev.a).ctx w1.toNat) {y : State}
    (hy : y = u.signalled key (bits w2 31 0)) : exec .signal s = .next (s.wakeEmpty (((if bits w2 31 0 = 0 ∧
      y.joinWaits (u.qslot s.ev.a).ctx w1.toNat = true then y.endRound (u.qslot s.ev.a).ctx w1.toNat else y).synWake key).commandDone s.ev.a seq
      (bit w0 55)) s.ev.a) := by
  subst hy hkey
  show Host.Outcome.next (s.onRecord 3 _) = _
  rw [onRecord_starts hn hm hbar hfull hop (by decide) (.inr hrun)]
  simp only [List.getD_cons_zero, List.getD_cons_succ, hvar, if_true, cmplOf, Bool.and_eq_true, decide_eq_true_eq]
  rfl

theorem signal_memory {pa : Nat} {mt : MType} {co : Bool} (hmem : bit w3 61 = false)
    (hreach : u.reach (.queue (u.qslot s.ev.a).ctx (u.qslot s.ev.a).qh) (u.qslot s.ev.a).ctx w1 8 .engine = .ok (pa, mt, co)) {z : State} {ts : BitVec 48}
    (hwrite : ((u.recall (pa / 128)).raiseRts (pa / 128) (u.partHigh + 1)).writeVa (.queue (u.qslot s.ev.a).ctx (u.qslot s.ev.a).qh)
      (u.qslot s.ev.a).ctx w1 8 w2.toNat false = .ok (z, ts)) :
    exec .signal s = .next (s.wakeEmpty (({ z with sch := { z.sch with partClock := max48 z.sch.partClock ts } } : State).commandDone s.ev.a seq
      (bit w0 55)) s.ev.a) := by
  show Host.Outcome.next (s.onRecord 3 _) = _
  rw [onRecord_starts hn hm hbar hfull hop (by decide) (.inr hrun)]
  simp only [List.getD_cons_zero, List.getD_cons_succ, hmem, Bool.false_eq_true, if_false, cmplOf, hreach, hwrite]

end

end

/-- A launch admitted takes the next stamp for its key, and no cached instruction of its context is left (R259). -/
theorem admitLaunch_leaves (s : State) (l : Launch) : (s.admitLaunch l).1.seqCtr = s.seqCtr + 1 ∧
    (s.admitLaunch l).1.launch s.seqCtr = { l with stamp := s.seqCtr } ∧ ∀ x ∈ (s.admitLaunch l).1.cores, ∀ y ∈ x.2.icache, y.ctx ≠ l.ctx := by
  refine ⟨rfl, Tab.get_set_same Launch.none s.sch.launches s.seqCtr _, fun x hx y hy => ?_⟩
  obtain ⟨z, -, rfl⟩ := List.mem_map.1 hx
  simpa using (List.mem_filter.1 hy).2

/-! ### WAITV -/

/-- The state in which the WAITV of a slot has started. -/
def State.begunIn (u : State) (q : QSlot) : State :=
  { u with que := { u.que with begun := if (q.ctx, q.qh) ∈ u.que.begun then u.que.begun else u.que.begun ++ [(q.ctx, q.qh)] } }

section
variable {u : State} {i : Nat} {w0 w1 w2 w3 : Word} {r : List Word} {seq : BitVec 48} {v : State} {x : Nat}

/-- WAITV on memory: the word at the VA is compared with VALUE. -/
theorem tryWaitv_memory (hmem : bit w3 61 = false)
    (hread : (u.begunIn (u.qslot i)).readVa (.queue (u.qslot i).ctx (u.qslot i).qh) (u.qslot i).ctx w1 8 = .ok (v, x)) :
    u.tryWaitv i (w0 :: w1 :: w2 :: w3 :: r) seq =
      if (if bit w3 62 = true then x = w2.toNat else w2.toNat ≤ x) then v.commandDone i seq (bit w0 55) else v := by
  have hread' : State.readVa { u with que := { u.que with begun := if u.begun (u.qslot i) then u.que.begun else
      u.que.begun ++ [((u.qslot i).ctx, (u.qslot i).qh)] } } (.queue (u.qslot i).ctx (u.qslot i).qh) (u.qslot i).ctx w1 8 = .ok (v, x) := by
    simpa [State.begun, State.begunIn] using hread
  simp only [State.tryWaitv, List.getD_cons_zero, List.getD_cons_succ, State.look, hmem, Bool.false_eq_true, if_false, hread', cmplOf]
  cases bit w3 62 <;> simp

/-- WAITV on a variable. -/
theorem tryWaitv_variable (hvar : bit w3 61 = true) (hv : v = (u.begunIn (u.qslot i)).synIn (synKey (u.qslot i).ctx w1.toNat))
    (hx : x = (v.syn (synKey (u.qslot i).ctx w1.toNat)).val.toNat) :
    u.tryWaitv i (w0 :: w1 :: w2 :: w3 :: r) seq =
      if (if bit w3 62 = true then x = bits w2 31 0 else bits w2 31 0 ≤ x) then v.commandDone i seq (bit w0 55) else v := by
  subst hv hx
  have hbegun : ({ u with que := { u.que with begun := if u.begun (u.qslot i) then u.que.begun else
      u.que.begun ++ [((u.qslot i).ctx, (u.qslot i).qh)] } } : State) = u.begunIn (u.qslot i) := by
    simp [State.begun, State.begunIn]
  simp only [State.tryWaitv, List.getD_cons_zero, List.getD_cons_succ, State.look, hvar, if_true, hbegun, cmplOf]
  cases bit w3 62 <;> simp

end

/-- Settles O50: the record a slot reads, what becomes of one at its command, then each command that starts. Which
command a slot starts, the reading of a waiting record again and the key are the model's choices (logs 53, 54). -/
theorem commandRecords : Obligations.CommandRecords := by
  unfold Obligations.CommandRecords
  refine ⟨fun s i => ?_, fun ins op s hins => ?_, fun s => ⟨fun hw => ?_, fun hw => ?_⟩, fun s u w0 w1 w2 w3 r seq => ?_⟩
  · refine ⟨nextRecord_unmapped, nextRecord_held, fun hst hqen => ⟨fun u w hw hfull hring hrun hread => ?_, fun u w => nextRecord_again hst hqen⟩,
      fun seq => ⟨rfl, rfl, rfl⟩, fun t => ⟨fun hpassed hempty => if_pos ?_, fun h => if_neg ?_⟩⟩
    · exact ⟨_, nextRecord_new hst hqen hw hfull hring hrun hread, State.setQslot_qslot_same ..⟩
    · exact Bool.and_eq_true_iff.2 ⟨decide_eq_true hpassed, decide_eq_true hempty⟩
    · obtain h | h := h <;> simp [h]
  · obtain ⟨f, hf⟩ := command_onRecord hins
    refine ⟨fun hn => ?_, fun u hn => ?_, fun u w seq hn => ⟨fun hop => ?_, fun hw hop => ?_⟩, fun u w seq hn hop => ⟨fun hm => ?_,
      fun hm hbar hrun => ?_, fun hm hop' hfull => ?_⟩⟩
    · rw [hf, onRecord_none hn]
    · rw [hf, onRecord_wait hn]
    · rw [hf, onRecord_other hn hop]
    · subst hw hop
      rw [hf, onRecord_dealt hn (show recordRow none = 0 from rfl)]
      rfl
    · rw [hf, onRecord_dealt hn hop, dealRecord_malformed hm]
    · rw [hf, onRecord_dealt hn hop, dealRecord_waits hm hbar hrun]
    · rw [hf, onRecord_dealt hn hop, dealRecord_full hm hop' hfull]
  · exact congrArg Host.Outcome.next (if_pos (by simp [hw]))
  · exact congrArg Host.Outcome.next (if_neg (by simp [hw]))
  · intro i q cmpl hn hm hbar hfull who after u1
    refine ⟨cmdNop_done hn hm hbar hfull, fun hop => ⟨fun v => launch_waits hn hm hbar hfull hop, fun v chk => launch_bad hn hm hbar hfull hop,
      fun v l hl => ⟨launch_refused hn hm hbar hfull hop hl, fun href => ?_⟩⟩, fun hop => ⟨fun v x hmem hread => ?_, fun hvar => ?_⟩,
      fun hop hrun => ⟨fun hvar => signal_variable hn hm hbar hfull hop hrun hvar rfl rfl,
        fun pa mt co hmem hreach z ts => signal_memory hn hm hbar hfull hop hrun hmem hreach⟩⟩
    · obtain ⟨hctr, hlaunch, hcache⟩ := admitLaunch_leaves (v.recordDone i) l
      exact ⟨_, _, launch_admitted hn hm hbar hfull hop hl href, rfl, hctr, hlaunch, hcache⟩
    · have hrun := waitv_tried hn hm hbar hfull hop
      rw [tryWaitv_memory hmem hread] at hrun
      exact ⟨fun hmet => hrun.trans (by rw [if_pos hmet]), fun hmet => hrun.trans (by rw [if_neg hmet])⟩
    · intro v x
      have hrun := waitv_tried hn hm hbar hfull hop
      rw [tryWaitv_variable (v := v) (x := x) hvar rfl rfl] at hrun
      exact ⟨fun hmet => hrun.trans (by rw [if_pos hmet]), fun hmet => hrun.trans (by rw [if_neg hmet])⟩

end Sys2Proof.Machine
end

section
/-! SUPPORT. How groups and their clauses start: the port, the line that a clause lacks, the deadline, and the record picked for a slot. -/

namespace Sys2Proof.Machine

/-! ### CLAUSE_START (R164, R181, R254, R258) -/

/-- The group at the port stands at a clause boundary with nothing due there, and its core is free, running, and has no other group. -/
structure State.AloneAtBoundary (s : State) : Prop where
  free : (s.core s.cur.core).holder = none
  runs : s.clockRuns s.cur.core = true
  life : s.cur.life = .running
  outside : s.cur.inClause = false
  late : s.cur.late = none
  cpos : s.cur.cpos = 0
  stopping : s.stopping s.cur = false
  endSwitch : s.cur.endSwitch = none
  dueViral : s.cur.dueViral = false
  dueBudget : s.cur.dueBudget = false
  dueSpill : s.cur.dueSpill = false
  wait : s.cur.wait = none
  halted : s.halted s.cur = false
  others : ∀ x ∈ s.parked, x.core ≠ s.cur.core

section
variable {s : State} {hd : Word} {ws : List Word} (h : s.AloneAtBoundary)
include h

theorem State.AloneAtBoundary.at_slot : s.cur.at s.cur.core s.cur.slot = true := by
  simp [Group.at, h.life]

/-- It is the one group that can act when the port is free. -/
theorem State.AloneAtBoundary.starters (hw : s.clauseWords s.cur = some (hd, ws)) :
    s.groups.filter (fun g => s.atStart s.cur.core g || s.readyInside g s.cur.core) = [s.cur] := by
  have hcur : s.atStart s.cur.core s.cur = true := by
    simp [State.atStart, h.life, h.outside, h.late, h.halted, hw, h.wait]
  have hpark : (s.parked.filter fun g => g.life ≠ .none).filter (fun g => s.atStart s.cur.core g || s.readyInside g s.cur.core) = [] := by
    rw [List.filter_eq_nil_iff]
    intro g hg
    have hcore := h.others g (List.mem_of_mem_filter hg)
    simp [State.atStart, State.readyInside, hcore]
  rw [State.groups, List.filter_cons_of_pos (by simp [h.life]), List.filter_cons_of_pos (by simp [hcur]), hpark]

/-- Nothing is due at the boundary, so that the next clause is looked at. -/
theorem State.AloneAtBoundary.startClause_eq : s.startClause = s.enterClause := by
  have hswitch : s.doSwitch = s := by simp [State.doSwitch, h.endSwitch]
  have hasync : s.asyncTrap = none := by
    simp [State.asyncTrap, h.dueViral, h.dueBudget, h.dueSpill]
  simp [State.startClause, h.cpos, h.stopping, hswitch, h.life, h.endSwitch, hasync]

/-- The free port goes to it. -/
theorem clauseStart_alone (ha : s.ev.a = s.cur.core.toNat) (hw : s.clauseWords s.cur = some (hd, ws)) :
    exec .clauseStart s = .next s.enterClause.1 := by
  have hready : s.readyInside s.cur s.cur.core = false := by simp [State.readyInside, h.outside]
  have hbring : s.bring s.cur.core s.cur.slot = s := if_pos h.at_slot
  show execClauseStart s = _
  have hc : BitVec.ofNat 10 s.ev.a = s.cur.core := by rw [ha]; simp
  simp only [execClauseStart, hc, h.free, h.runs, h.starters hw, portOrder, List.sortBy, List.placeBy, List.takeWhile, hready, List.map,
    State.startFirst, hbring, h.startClause_eq, Option.isSome_none, Bool.not_true, Bool.or_self, Bool.not_false, Bool.false_eq_true, if_false, ite_self]

end

theorem clauseStart_busy {s : State} (h : (s.core (BitVec.ofNat 10 s.ev.a)).holder.isSome = true) : exec .clauseStart s = .next s :=
  congrArg Host.Outcome.next (if_pos (by rw [h, Bool.true_or]))

section
variable {s : State} {hd : Word} {ws : List Word} (hw : s.clauseWords s.cur = some (hd, ws))
include hw

theorem enterClause_badHeader (h : Header.ok hd = false ∨ s.cur.pc.toNat % 8 ≠ 0) :
    s.enterClause.1 = s.trapAt s.cur.pc 0 .group 0x12 [] := by
  have hbad : (!Header.ok hd || decide (s.cur.pc.toNat % 8 ≠ 0)) = true := by
    obtain h | h := h <;> simp [h]
  simp only [State.enterClause, hw, hbad, if_true]

variable (hok : Header.ok hd = true) (hpc : s.cur.pc.toNat % 8 = 0)
include hok hpc

theorem enterClause_waits {p : Nat} (h0 : s.cur.cpos = 0) (hm : s.cur.maskWait hd = some p) :
    s.enterClause.1 = (if (Header.wait hd).testBit 1 then s.sendWc s.cur.core s.cur.slot else s).block 2 (BitVec.ofNat 64 p) 0 0xFF .retry := by
  simp [State.enterClause, hw, hok, hpc, h0, hm]

variable (hm : s.cur.maskWait hd = none)
include hm

theorem enterClause_faults {p : Nat} (hp : clauseFault s.cur.pc hd ws = some p) :
    s.enterClause.1 = s.trapAt s.cur.pc (BitVec.ofNat 4 p) .group 0x12 [] := by
  simp [State.enterClause, hw, hok, hpc, hm, hp]

theorem enterClause_starts (h0 : s.cur.cpos = 0) (hp : clauseFault s.cur.pc hd ws = none) :
    s.enterClause.1 = ({ s with seqCtr := s.seqCtr + 1 }.setCur { s.cur with
        inClause := true, hdr := hd, lastStart := s.seqCtr, wait := none, latches := [] }).setCore s.cur.core
      { s.core s.cur.core with holder := some s.cur.slot } := by
  simp [State.enterClause, hw, hok, hpc, hm, hp, h0, State.stamp]
  rfl

end

/-! The write-combining buffer sent -/

/-- One access of a group at the port changed. -/
theorem modAccess_cur {s : State} {c : BitVec 10} {n : BitVec 3} (h : s.cur.at c n = true) (i : Nat) (f : Access → Access) :
    s.modAccess c n i f = s.setCur { s.cur with inflight := s.cur.inflight.map fun a => if a.id = i then f a else a } :=
  if_pos h

theorem foldl_modAccess_wc {c : BitVec 10} {n : BitVec 3} (l : List Nat) (f : Access → Access) {s : State} (h : s.cur.at c n = true) :
    (l.foldl (fun s i => s.modAccess c n i f) s).cur.wc = s.cur.wc := by
  induction l generalizing s with
  | nil => rfl
  | cons i r ih =>
    rw [List.foldl_cons, modAccess_cur h, ih (by exact h)]
    rfl

theorem awaitAck_wc {s : State} {c : BitVec 10} {n : BitVec 3} (h : s.cur.at c n = true) (l : List Nat) (line : Nat) (d : LineData)
    (m : BitVec 128) (p : BitVec 4) (home : Bool) (lanes : List (BitVec 7 × Word)) :
    (s.awaitAck c n l line d m p home lanes).cur.wc = s.cur.wc := by
  simp only [State.awaitAck, State.stamp]
  exact foldl_modAccess_wc _ _ (by exact h)

theorem sendWc_wc {s : State} {c : BitVec 10} {n : BitVec 3} (h : s.cur.at c n = true) : (s.sendWc c n).cur.wc = none := by
  cases hb : s.cur.wc with
  | none => rw [sendWc_none h hb, hb]
  | some b =>
    have hmod : s.modGroup c n (fun g => { g with wc := none }) = s.setCur { s.cur with wc := none } := if_pos h
    simp only [State.sendWc, State.group?_cur h, hb, hmod]
    split
    · exact awaitAck_wc (s := s.setCur { s.cur with wc := none }) h ..
    · rfl

theorem waitAt_cur (s : State) (kind : BitVec 4) (obj expect : Word) (lane : BitVec 8) (pend : Pend) :
    ∃ x, (s.waitAt kind obj expect lane pend).cur = { s.cur with wait := some x } ∧ x.kind = kind ∧ x.obj = obj :=
  ⟨_, rfl, rfl, rfl⟩

/-- A group blocked at its instruction differs in its wait alone. -/
theorem block_cur (s : State) (kind : BitVec 4) (obj expect : Word) (lane : BitVec 8) (pend : Pend) :
    ∃ x, (s.block kind obj expect lane pend).cur = { s.cur with wait := some x } ∧ x.kind = kind ∧ x.obj = obj := by
  obtain ⟨x, hcur, hx⟩ := waitAt_cur (s.letGo s.cur.core s.cur.slot) kind obj expect lane pend
  rw [State.letGo_cur] at hcur
  exact ⟨x, hcur, hx⟩

theorem bring_at {s : State} {c : BitVec 10} {n : BitVec 3} (h : s.cur.at c n = true) : s.bring c n = s := if_pos h

/-! ### INSTRUCTION_CACHE_FILL (R164, R259) -/

section
variable {s : State} {va : Word} (hat : s.cur.at (BitVec.ofNat 10 s.ev.a) (BitVec.ofNat 3 s.ev.b) = true)
include hat

variable (hl : s.cur.life = .running) (hm : s.missing s.cur = some va)
include hl hm

theorem instructionCacheFill_faults {f : FRec}
    (hf : s.checkLane (va - BitVec.ofNat 64 (va.toNat % 8)) 3 .fetch false false = .bad f) : exec .instructionCacheFill s =
      .next (((s.walkFault f.addr f.kind).clearVerdicts s.cur.waiter).trapAt s.cur.pc s.cur.cpos .lane f.kind [(96, f)]) := by
  show execInstructionCacheFill s = _
  simp [execInstructionCacheFill, State.group?_cur hat, hl, hm, bring_at hat, State.fetchInto, hf]

/-- The state in which the line of `va`, which lies at `pa`, is put into the instruction cache, and the line. -/
def State.fetchedAt (s : State) (va : Word) (pa : Nat) (co : Bool) : State × LineData :=
  let v := ((s.clearVerdicts s.cur.waiter).touchTlb s.cur.waiter s.cur.ctx va).plainLine s.cur.waiter (pa / 128) (!co)
  (if pa < 2 ^ 52 then v.1.passNow s.cur.waiter pa false else v.1, v.2.1)

/-- A wait that a fill ends: only that for the line itself. -/
def Group.filled (g : Group) : Group :=
  { g with wait := match g.wait with
      | some w => if w.kind = 15 then none else some w
      | none => none }

theorem instructionCacheFill_fills {pa : Nat} {mt : MType} {co : Bool}
    (hc : s.checkLane (va - BitVec.ofNat 64 (va.toNat % 8)) 3 .fetch false false = .ok pa mt co)
    (hh : s.heldAt s.cur.waiter pa 128 false co = false) : exec .instructionCacheFill s =
      .next (((s.fetchedAt va pa co).1.fillIcache s.cur.core s.cur.ctx (va.toNat / 128) (s.fetchedAt va pa co).2).setCur
        (s.fetchedAt va pa co).1.cur.filled) := by
  show execInstructionCacheFill s = _
  simp [execInstructionCacheFill, State.group?_cur hat, hl, hm, bring_at hat, State.fetchInto, hc, hh, State.fetchedAt, Group.filled]
  rfl

end

/-- What a fill leaves of the instruction cache of the core. -/
theorem fillIcache_icache (s : State) (c : BitVec 10) (ctx : BitVec 12) (line : Nat) (d : LineData) :
    ∃ l : ILine, ((s.fillIcache c ctx line d).core c).icache =
        (l :: (s.core c).icache.filter fun x => !(x.ctx = ctx && x.line = line)).take 256 ∧ l.ctx = ctx ∧ l.line = line ∧
      ∀ i : Fin 16, l.words[i] = d.extractLsb' (64 * i.val) 64 := by
  refine ⟨⟨ctx, line, Vector.ofFn fun i : Fin 16 => BitVec.ofNat 64 (bits d (64 * i.val + 63) (64 * i.val))⟩, ?_, rfl, rfl, fun i => ?_⟩
  · simp only [State.fillIcache, State.setCore_core]
  · refine BitVec.eq_of_toNat_eq ?_
    simp [bits, show 64 * i.val + 63 + 1 - 64 * i.val = 64 by omega]

/-! ### WATCHDOG_EXPIRY (R138) -/

section
variable {s : State} (hat : s.cur.at (BitVec.ofNat 10 s.ev.a) (BitVec.ofNat 3 s.ev.b) = true)
include hat

theorem watchdogExpiry_traps (hl : s.cur.life = .running) (hc : s.cur.inClause = true) (hd : s.cur.dline = 0) (hh : s.cur.hmode = false)
    (hy : yieldWord (s.waitWord s.cur) = false) : exec .watchdogExpiry s = .next (s.trap .group 0x16 []) := by
  show execWatchdogExpiry s = _
  simp [execWatchdogExpiry, State.group?_cur hat, hl, hc, hd, hh, hy, bring_at hat]

theorem watchdogExpiry_idle (h : s.cur.dline ≠ 0 ∨ s.cur.hmode = true ∨ yieldWord (s.waitWord s.cur) = true) :
    exec .watchdogExpiry s = .next s := by
  show execWatchdogExpiry s = _
  have hno : (decide (s.cur.life = .running) && s.cur.inClause && decide (s.cur.dline = 0) && !s.cur.hmode && !yieldWord (s.waitWord s.cur)) = false := by
    obtain h | h | h := h
    · rw [decide_eq_false h, Bool.and_false, Bool.false_and, Bool.false_and]
    · rw [h, Bool.not_true, Bool.and_false, Bool.false_and]
    · rw [h, Bool.not_true, Bool.and_false]
  simp only [execWatchdogExpiry, State.group?_cur hat, hno, Bool.false_eq_true, if_false]

end

/-! ### Scalar registers written one after another (R168) -/

section
variable {g : Group} {n m : BitVec 6}

/-- s0 to s59 and s63 hold what was written to them; s60 to s62 show EM. -/
theorem swrite_plain (h : n.toNat < 60 ∨ n = 63) (w : Word) : g.swrite n w = { g with sregs := g.sregs.set n.toNat w n.isLt } := by
  have h60 : n ≠ 60 := by rintro rfl; simp at h
  have h61 : n ≠ 61 := by rintro rfl; simp at h
  have h62 : n ≠ 62 := by rintro rfl; simp at h
  rw [Group.swrite, if_neg h60, if_neg h61, if_neg h62]

theorem sread_plain (h : n.toNat < 60 ∨ n = 63) : g.sread n = g.sregs[n.toNat] := by
  have h60 : n ≠ 60 := by rintro rfl; simp at h
  have h61 : n ≠ 61 := by rintro rfl; simp at h
  have h62 : n ≠ 62 := by rintro rfl; simp at h
  rw [Group.sread, if_neg h60, if_neg h61, if_neg h62]

theorem sread_swrite_same (h : n.toNat < 60 ∨ n = 63) (w : Word) : (g.swrite n w).sread n = w := by
  rw [sread_plain h, swrite_plain h]
  exact Vector.getElem_set_self _

/-- A write changes the registers and EM alone. -/
theorem swrite_outside (g : Group) (n : BitVec 6) (w : Word) :
    ∃ r e, g.swrite n w = { g with sregs := r, em := e } := by
  unfold Group.swrite Group.setEm
  split
  · exact ⟨_, _, rfl⟩
  split
  · exact ⟨_, _, rfl⟩
  split <;> exact ⟨_, _, rfl⟩

theorem sread_swrite_other (h : m.toNat < 60 ∨ m = 63) (hne : n ≠ m) (w : Word) : (g.swrite n w).sread m = g.sread m := by
  have hsame (e : Mask) : ({ g with em := e } : Group).sread m = g.sread m := by rw [sread_plain h, sread_plain h]
  unfold Group.swrite
  split
  · exact hsame _
  split
  · exact hsame _
  split
  · exact hsame _
  · rw [sread_plain h, sread_plain h]
    exact Vector.getElem_set_ne n.isLt m.isLt (fun e => hne (BitVec.eq_of_toNat_eq e))

end

/-- Registers written in the order of a list. -/
def Group.swriteAll (g : Group) (l : List (BitVec 6 × Word)) : Group := l.foldl (fun g x => g.swrite x.1 x.2) g

theorem swriteAll_cons (g : Group) (x : BitVec 6 × Word) (l : List (BitVec 6 × Word)) : g.swriteAll (x :: l) = (g.swrite x.1 x.2).swriteAll l := rfl

theorem swriteAll_outside (g : Group) (l : List (BitVec 6 × Word)) : ∃ r e, g.swriteAll l = { g with sregs := r, em := e } := by
  induction l generalizing g with
  | nil => exact ⟨_, _, rfl⟩
  | cons x l ih =>
    obtain ⟨r, e, hx⟩ := swrite_outside g x.1 x.2
    obtain ⟨r', e', hl⟩ := ih (g.swrite x.1 x.2)
    exact ⟨r', e', by rw [swriteAll_cons, hl, hx]⟩

section
variable {m : BitVec 6} (h : m.toNat < 60 ∨ m = 63)
include h

theorem swriteAll_sread_other (g : Group) (l : List (BitVec 6 × Word)) (hl : ∀ x ∈ l, x.1 ≠ m) : (g.swriteAll l).sread m = g.sread m := by
  induction l generalizing g with
  | nil => rfl
  | cons x l ih =>
    rw [swriteAll_cons, ih _ (fun y hy => hl y (List.mem_cons_of_mem _ hy)), sread_swrite_other h (hl x List.mem_cons_self)]

theorem swriteAll_sread_mem (g : Group) {l : List (BitVec 6 × Word)} {w : Word} (hl : l.Pairwise fun x y => x.1 ≠ y.1) (hm : (m, w) ∈ l) :
    (g.swriteAll l).sread m = w := by
  induction l generalizing g with
  | nil => cases hm
  | cons x l ih =>
    rw [List.pairwise_cons] at hl
    rw [swriteAll_cons]
    rcases List.mem_cons.1 hm with rfl | hm
    · rw [swriteAll_sread_other h _ _ (fun y hy => (hl.1 y hy).symm), sread_swrite_same h]
    · exact ih _ hl.2 hm

end

/-! ### RECORD_PICK (R128, R134, R137) -/

section
variable {s : State} {g : Group}

theorem group?_none (h : s.group? g.core g.slot = none) :
    s.cur.at g.core g.slot = false ∧ ∀ x ∈ s.parked, x.at g.core g.slot = false := by
  rw [State.group?] at h
  split at h
  · cases h
  · exact ⟨Bool.not_eq_true _ ▸ ‹¬ _›, fun x hx => by simpa using List.find?_eq_none.1 h x hx⟩

theorem group?_congr {t : State} (hc : t.cur = s.cur) (hp : t.parked = s.parked) (c : BitVec 10) (n : BitVec 3) : t.group? c n = s.group? c n := by
  rw [State.group?, State.group?, hc, hp]

/-- A group put into an idle slot is the group of the slot. -/
theorem addGroup_group? (h : s.group? g.core g.slot = none) (hl : g.life ≠ .none) : (s.addGroup g).group? g.core g.slot = some g := by
  obtain ⟨hcur, hpark⟩ := group?_none h
  have hat : g.at g.core g.slot = true := by simp [Group.at, hl]
  unfold State.addGroup
  dsimp only
  split
  · exact State.group?_cur hat
  · have hpark' : (s.parked.filter fun x => !(x.core = g.core && x.slot = g.slot && x.life = .none)).find? (fun x => x.at g.core g.slot) = none :=
      List.find?_eq_none.2 fun x hx => by simp [hpark x (List.mem_of_mem_filter hx)]
    rw [State.group?, if_neg (by simp [hcur]), List.find?_append, hpark', Option.none_or]
    exact List.find?_cons_of_pos hat

theorem addGroup_outside (s : State) (g : Group) : s.addGroup g = { s with cur := (s.addGroup g).cur, parked := (s.addGroup g).parked } := by
  unfold State.addGroup
  dsimp only
  split <;> rfl

end

theorem recordPick_occupied {s : State} {c : BitVec 10} {n : BitVec 3} (ha : s.ev.a = c.toNat) (hb : s.ev.b = n.toNat)
    (h : (s.group? c n).isSome = true) : exec .recordPick s = .next s := by
  show execRecordPick s = _
  have hidle : s.slotIdle c n.toNat = false := by
    rw [State.slotIdle, BitVec.ofNat_toNat, BitVec.setWidth_eq, ← Option.not_isSome, h, Bool.not_true]
  simp [execRecordPick, ha, hb, Nat.mod_eq_of_lt n.isLt, hidle]

/-- The record of the place is taken. -/
def State.unplace (s : State) (p : RecPlace) : State := { s with sch := { s.sch with places := s.sch.places.erase p } }

section
variable {s : State} {c : BitVec 10} {n : BitVec 3} {p : RecPlace} (ha : s.ev.a = c.toNat) (hb : s.ev.b = n.toNat)
  (hidle : s.group? c n = none) (hsaved : s.restoreSaved c n.toNat = none) (hlow : ∀ i, i < n.toNat → s.finds c i = false)
  (hpick : s.pickPhase c n.toNat = some p)
include ha hb hidle hsaved hlow hpick

theorem recordPick_starts : exec .recordPick s = .next (s.startPhase c n.toNat p) := by
  show execRecordPick s = _
  have hi : s.slotIdle c n.toNat = true := by
    rw [State.slotIdle, BitVec.ofNat_toNat, BitVec.setWidth_eq, hidle, Option.isNone_none]
  have hany : ((List.range n.toNat).any fun i => s.finds c i) = false := by
    rw [List.any_eq_false]
    intro i h
    simp [hlow i (List.mem_range.1 h)]
  simp [execRecordPick, ha, hb, Nat.mod_eq_of_lt n.isLt, hi, hsaved, hany, hpick]

end

/-! What a group holds at its start (R128) -/

section
variable (l : Launch) (launch : Nat) (t : Team) (i slot place : Nat)

/-- The group of a record before the registers of its place are restored. -/
def RecPlace.starting (p : RecPlace) (l : Launch) (t : Team) (slot : Nat) : Group :=
  { startGroup l p.launch t (if p.idx = 8 then 0 else p.idx.toNat) slot p.place.toNat with
    idx := p.idx, dueViral := bit p.due 0, dueBudget := bit p.due 1, dueSpill := bit p.due 2, spills := p.spills }

theorem startGroup_sregs : (startGroup l launch t i slot place).sregs = Group.blank.sregs.set 0 l.argb := by
  rw [startGroup, swrite_plain (.inl (by decide))]
  rfl

/-- All but the registers is as the launch and the team have it. -/
theorem startGroup_fields : (startGroup l launch t i slot place).core = t.core ∧
    (startGroup l launch t i slot place).slot = BitVec.ofNat 3 slot ∧ (startGroup l launch t i slot place).ctx = l.ctx ∧
    (startGroup l launch t i slot place).life = .running ∧ (startGroup l launch t i slot place).launch = launch ∧
    (startGroup l launch t i slot place).pc = l.entry ∧ (startGroup l launch t i slot place).dline = l.deadline ∧
    (startGroup l launch t i slot place).em = firstLanes l.nlane ∧ (startGroup l launch t i slot place).live = firstLanes l.nlane := by
  rw [startGroup, swrite_plain (.inl (by decide))]
  exact ⟨rfl, rfl, rfl, rfl, rfl, rfl, rfl, rfl, rfl⟩
end

/-- EM at a start has the lanes of the launch (R128). -/
theorem firstLanes_getLsbD (n : Nat) (i : Fin 96) : (firstLanes n).getLsbD i = decide (i.val < n) := by
  rw [firstLanes, BitVec.getLsbD_ofNat, Nat.testBit_two_pow_sub_one, decide_eq_true i.isLt, Bool.true_and]

theorem deadline_toNat (l : Launch) : l.deadline.toNat = (l.ymax + 1) * 256 := by
  have h : l.ymax < 16 := bits_lt ..
  rw [Launch.deadline, BitVec.toNat_ofNat, Nat.mod_eq_of_lt (by omega)]

/-- Three words joined as a mask of 96 lanes. -/
theorem joinedMask_eq (lo hi : Word) : BitVec.ofNat 96 (lo.toNat + 2 ^ 64 * bits hi 31 0) = hi.setWidth 32 ++ lo := by
  refine BitVec.eq_of_toNat_eq ?_
  have h : bits hi 31 0 < 2 ^ 32 := bits_lt ..
  have hset : (hi.setWidth 32).toNat = bits hi 31 0 := by simp [bits]
  rw [BitVec.toNat_append, Nat.shiftLeft_eq, ← Nat.shiftLeft_eq, ← Nat.shiftLeft_add_eq_or_of_lt lo.isLt, hset, BitVec.toNat_ofNat, Nat.shiftLeft_eq,
    Nat.mod_eq_of_lt (by omega)]
  omega

/-! The registers of a place (R134) -/

/-- The scalar registers that a place keeps, each with its word. -/
def placeRegs (ws : List Word) (smask : Word) : List (BitVec 6 × Word) :=
  (maskRegs smask).zipIdx.map fun x => (BitVec.ofNat 6 x.1, ws.getD (32 + x.2) 0)

theorem maskRegs_lt {m : Word} {r : Nat} (h : r ∈ maskRegs m) : r < 64 := List.mem_range.1 (List.mem_filter.1 h).1

theorem ofNat6_inj {r q : Nat} (hr : r < 64) (hq : q < 64) (h : BitVec.ofNat 6 r = BitVec.ofNat 6 q) : r = q := by
  simpa [Nat.mod_eq_of_lt hr, Nat.mod_eq_of_lt hq] using congrArg BitVec.toNat h

theorem placeRegs_mem {ws : List Word} {smask : Word} {x : BitVec 6 × Word} :
    x ∈ placeRegs ws smask ↔ ∃ j r, (maskRegs smask)[j]? = some r ∧ x = (BitVec.ofNat 6 r, ws.getD (32 + j) 0) := by
  simp only [placeRegs, List.mem_map, Prod.exists, List.mk_mem_zipIdx_iff_getElem?]
  constructor
  · rintro ⟨r, j, h, rfl⟩
    exact ⟨j, r, h, rfl⟩
  · rintro ⟨j, r, h, rfl⟩
    exact ⟨r, j, h, rfl⟩

/-- No register is kept twice. -/
theorem placeRegs_pairwise (ws : List Word) (smask : Word) : (placeRegs ws smask).Pairwise fun x y => x.1 ≠ y.1 := by
  have hnodup : (maskRegs smask).Nodup := List.nodup_range.filter _
  rw [placeRegs, List.pairwise_map, List.pairwise_iff_getElem]
  intro i j hi hj hij heq
  simp only [List.getElem_zipIdx] at heq
  rw [List.length_zipIdx] at hi hj
  have := ofNat6_inj (maskRegs_lt (List.getElem_mem hi)) (maskRegs_lt (List.getElem_mem hj)) heq
  exact absurd (hnodup.getElem_inj_iff.1 this) (by omega)

/-- The mask of running lanes that a place keeps, before it is cut to the live ones. -/
def placeEm (ws : List Word) : Mask :=
  BitVec.ofNat 96 (bits (ws.getD 11 0) 31 0 + 2 ^ 32 * bits (ws.getD 12 0) 31 0 + 2 ^ 64 * bits (ws.getD 13 0) 31 0)

/-- The fixed part of a place: everything but the registers that its masks name. -/
def Group.fixedOfPlace (g : Group) (ws : List Word) : Group :=
  let w (i : Nat) : Word := ws.getD i 0
  let live : Mask := (w 4).setWidth 32 ++ w 3
  { g with
    pc := w 0, live := live
    em := placeEm ws &&& live
    k := (w 9).setWidth 32 ++ w 8
    preds := (w 10).setWidth 7, msdep := BitVec.ofNat 8 (bits (w 10) 63 56)
    mstack := (entriesOf ((ws.drop 16).take 16)).take (min (bits (w 10) 63 56) 8) }

theorem foldl_vregs {α : Type} (l : List α) (f : α → Vector Lanes 64 → Vector Lanes 64) (g : Group) :
    ∃ v, l.foldl (fun (g : Group) x => { g with vregs := f x g.vregs }) g = { g with vregs := v } := by
  induction l generalizing g with
  | nil => exact ⟨_, rfl⟩
  | cons x l ih =>
    obtain ⟨v, hv⟩ := ih { g with vregs := f x g.vregs }
    exact ⟨v, hv⟩

theorem fromPlace_eq (g : Group) (ws : List Word) (smask vmask : Word) : ∃ v, g.fromPlace ws smask vmask =
    { (((g.fixedOfPlace ws).swriteAll (placeRegs ws smask)).swrite 59 (ws.getD 14 0)) with em := (g.fixedOfPlace ws).em, vregs := v } := by
  have hk : BitVec.ofNat 96 ((ws.getD 8 0).toNat + 2 ^ 64 * bits (ws.getD 9 0) 31 0) = (ws.getD 9 0).setWidth 32 ++ ws.getD 8 0 := joinedMask_eq ..
  have hlive : BitVec.ofNat 96 ((ws.getD 3 0).toNat + 2 ^ 64 * bits (ws.getD 4 0) 31 0) = (ws.getD 4 0).setWidth 32 ++ ws.getD 3 0 := joinedMask_eq ..
  have hpred : BitVec.ofNat 7 (ws.getD 10 0).toNat = (ws.getD 10 0).setWidth 7 := BitVec.ofNat_toNat ..
  unfold Group.fromPlace
  simp only [hk, hlive, hpred]
  obtain ⟨v, hv⟩ := foldl_vregs (maskRegs vmask).zipIdx (fun x a => a.set! x.1 (vectorOf ((ws.drop (64 + 48 * x.2)).take 48)))
    { (((g.fixedOfPlace ws).swriteAll (placeRegs ws smask)).swrite 59 (ws.getD 14 0)) with em := (g.fixedOfPlace ws).em }
  refine ⟨v, Eq.trans ?_ hv⟩
  rw [Group.swriteAll, placeRegs, List.foldl_map]
  rfl

/-- What the restored group holds, whatever the masks name. -/
theorem fromPlace_outside (g : Group) (ws : List Word) (smask vmask : Word) : ∃ r v,
    g.fromPlace ws smask vmask = { g.fixedOfPlace ws with sregs := r, vregs := v } := by
  obtain ⟨v, hv⟩ := fromPlace_eq g ws smask vmask
  obtain ⟨r, e, hr⟩ := swriteAll_outside (g.fixedOfPlace ws) (placeRegs ws smask)
  obtain ⟨r', e', hr'⟩ := swrite_outside { g.fixedOfPlace ws with sregs := r, em := e } 59 (ws.getD 14 0)
  exact ⟨r', v, by rw [hv, hr, hr']⟩

theorem sread_em_vregs {m : BitVec 6} (h : m.toNat < 60 ∨ m = 63) (g : Group) (e : Mask) (v : Vector Lanes 64) :
    ({ g with em := e, vregs := v } : Group).sread m = g.sread m := by rw [sread_plain h, sread_plain h]

section
variable (g : Group) (ws : List Word) (smask vmask : Word)

theorem fromPlace_sread_59 : (g.fromPlace ws smask vmask).sread 59 = ws.getD 14 0 := by
  obtain ⟨v, hv⟩ := fromPlace_eq g ws smask vmask
  have hplain : (59 : BitVec 6).toNat < 60 ∨ (59 : BitVec 6) = 63 := by decide
  rw [hv]
  exact (sread_em_vregs hplain ..).trans (sread_swrite_same hplain _)

/-- The other plain registers are those of the mask's writes. -/
theorem fromPlace_sread {m : BitVec 6} (h : m.toNat < 59 ∨ m = 63) :
    (g.fromPlace ws smask vmask).sread m = ((g.fixedOfPlace ws).swriteAll (placeRegs ws smask)).sread m := by
  obtain ⟨v, hv⟩ := fromPlace_eq g ws smask vmask
  have hplain : m.toNat < 60 ∨ m = 63 := h.imp_left (by omega)
  have hne : (59 : BitVec 6) ≠ m := by
    rintro rfl
    revert h
    decide
  rw [hv]
  exact (sread_em_vregs hplain ..).trans (sread_swrite_other hplain hne _)

variable {r : Nat} (h : r < 59 ∨ r = 63)
include h

theorem ofNat6_plain : (BitVec.ofNat 6 r).toNat < 59 ∨ BitVec.ofNat 6 r = 63 := by
  rcases h with h | rfl
  · exact .inl (by rw [BitVec.toNat_ofNat]; omega)
  · exact .inr rfl

theorem fromPlace_sread_listed {j : Nat} (hj : (maskRegs smask)[j]? = some r) :
    (g.fromPlace ws smask vmask).sread (BitVec.ofNat 6 r) = ws.getD (32 + j) 0 := by
  have hp := ofNat6_plain h
  rw [fromPlace_sread g ws smask vmask hp]
  exact swriteAll_sread_mem (hp.imp_left (by omega)) _ (placeRegs_pairwise ws smask) (placeRegs_mem.2 ⟨j, r, hj, rfl⟩)

theorem fromPlace_sread_unlisted (hr : r ∉ maskRegs smask) (hz : g.sregs = Vector.replicate 64 0) :
    (g.fromPlace ws smask vmask).sread (BitVec.ofNat 6 r) = 0 := by
  have hp := ofNat6_plain h
  have hplain : (BitVec.ofNat 6 r).toNat < 60 ∨ BitVec.ofNat 6 r = 63 := hp.imp_left (by omega)
  rw [fromPlace_sread g ws smask vmask hp, swriteAll_sread_other hplain, sread_plain hplain]
  · have hregs : (g.fixedOfPlace ws).sregs = Vector.replicate 64 0 := hz
    simp only [hregs, Vector.getElem_replicate]
  · intro x hx heq
    obtain ⟨j, q, hq, rfl⟩ := placeRegs_mem.1 hx
    have hmem := List.mem_of_getElem? hq
    have : q = r := ofNat6_inj (maskRegs_lt hmem) (by omega) heq
    exact hr (this ▸ hmem)

end

theorem getLines_keeps (s : State) (pa n : Nat) : KeepsControl s (s.getLines pa n).1 := by
  induction n generalizing s pa with
  | zero => exact .rfl _
  | succ n ih => exact (readPa_keeps s pa 128).trans (ih ..)

/-- A group started from its launch alone (R128). -/
theorem startPhase_fresh {s : State} {c : BitVec 10} {p : RecPlace} {t : Team} (slot : Nat) (ht : (s.sch.teams.find? fun t => t.key = p.team) = some t)
    (hf : p.fresh = true) : ∃ x, s.startPhase c slot p = (s.unplace p).addGroup { p.starting (s.launch p.launch) t slot with pts := x } := by
  refine ⟨if (s.launch p.launch).task then s.sch.partClock else 0, ?_⟩
  simp only [State.startPhase, ht, hf, if_true]
  rfl

/-- The group of a record with its place's registers, before its clock. -/
def RecPlace.restored (p : RecPlace) (l : Launch) (t : Team) (slot : Nat) (ws : List Word) : Group :=
  { ({ p.starting l t slot with sregs := Vector.replicate 64 0 } : Group).fromPlace ws p.smask p.vmask with tlown := p.tlown, batch := p.batch }

/-- A group restored from its record's place in the carve of its team (R134). -/
theorem startPhase_restored {s : State} {c : BitVec 10} {p : RecPlace} {t : Team} (slot : Nat) (ht : (s.sch.teams.find? fun t => t.key = p.team) = some t)
    (hf : p.fresh = false) (hcarve : p.carve = none) :
    let x := (s.unplace p).getLines (s.placeAddr c p.place.toNat) 32
    ∃ y, s.startPhase c slot p = x.1.addGroup { p.restored (s.launch p.launch) t slot x.2 with pts := y } := by
  dsimp only
  have hread : (({ s with sch := { s.sch with places := s.sch.places.erase p } } : State).getLines (s.placeAddr c p.place.toNat) 32) =
    (s.unplace p).getLines (s.placeAddr c p.place.toNat) 32 := rfl
  have hplace : ({ s with sch := { s.sch with places := s.sch.places.erase p } } : State).placeAddr c p.place.toNat = s.placeAddr c p.place.toNat := rfl
  simp only [State.startPhase, ht, hf, hcarve, Bool.false_eq_true, if_false, hplace, hread]
  generalize (s.unplace p).getLines (s.placeAddr c p.place.toNat) 32 = x
  obtain ⟨u, ws⟩ := x
  refine ⟨if p.acquire then max48 p.pts u.sch.partClock else p.pts, ?_⟩
  unfold RecPlace.restored RecPlace.starting
  dsimp only

/-! ### The statement's four parts -/

theorem clauseStart_spec (s : State) (hd : Word) (ws : List Word) :
    let g := s.cur
    ((s.core (BitVec.ofNat 10 s.ev.a)).holder.isSome = true → exec .clauseStart s = .next s) ∧
    (s.AloneAtBoundary → s.ev.a = g.core.toNat → s.clauseWords g = some (hd, ws) →
      (Header.ok hd = false ∨ g.pc.toNat % 8 ≠ 0 → exec .clauseStart s = .next (s.trapAt g.pc 0 .group 0x12 [])) ∧
      (Header.ok hd = true → g.pc.toNat % 8 = 0 →
        (∀ p, g.maskWait hd = some p → ∃ u t x, exec .clauseStart s = .next t ∧
          u = (if (Header.wait hd).testBit 1 then s.sendWc g.core g.slot else s) ∧ t.cur = { u.cur with wait := some x } ∧ x.kind = 2 ∧
          x.obj = BitVec.ofNat 64 p ∧ ((Header.wait hd).testBit 1 = true → t.cur.wc = none)) ∧
        (g.maskWait hd = none → ∀ p, clauseFault g.pc hd ws = some p →
          exec .clauseStart s = .next (s.trapAt g.pc (BitVec.ofNat 4 p) .group 0x12 [])) ∧
        (g.maskWait hd = none → clauseFault g.pc hd ws = none → ∃ t, exec .clauseStart s = .next t ∧
          t = { s with cur := t.cur, cores := t.cores, seqCtr := s.seqCtr + 1 } ∧
          t.cur = { g with inClause := true, hdr := hd, lastStart := s.seqCtr, wait := none, latches := [] } ∧
          t.core g.core = { s.core g.core with holder := some g.slot } ∧ ∀ n, n ≠ g.core → t.core n = s.core n))) := by
  refine ⟨clauseStart_busy, fun h ha hw => ?_⟩
  rw [clauseStart_alone h ha hw]
  refine ⟨fun hbad => by rw [enterClause_badHeader hw hbad], fun hok hpc => ⟨fun p hm => ?_, fun hm p hp => ?_, fun hm hp => ?_⟩⟩
  · rw [enterClause_waits hw hok hpc h.cpos hm]
    obtain ⟨x, hcur, hkind, hobj⟩ := block_cur (if (Header.wait hd).testBit 1 then s.sendWc s.cur.core s.cur.slot else s) 2 (BitVec.ofNat 64 p) 0 0xFF .retry
    refine ⟨_, _, x, rfl, rfl, hcur, hkind, hobj, fun hgs => ?_⟩
    rw [hcur, if_pos hgs]
    exact sendWc_wc h.at_slot
  · rw [enterClause_faults hw hok hpc hm hp]
  · rw [enterClause_starts hw hok hpc hm h.cpos hp]
    exact ⟨_, rfl, rfl, rfl, State.setCore_core .., fun n hn => State.setCore_core_other _ _ hn⟩

theorem instructionCacheFill_spec (s : State) (va : Word) (hat : s.cur.at (BitVec.ofNat 10 s.ev.a) (BitVec.ofNat 3 s.ev.b) = true)
    (hl : s.cur.life = .running) (hm : s.missing s.cur = some va) (pa : Nat) (mt : MType) (co : Bool)
    (hc : s.checkLane (va - BitVec.ofNat 64 (va.toNat % 8)) 3 .fetch false false = .ok pa mt co)
    (hh : s.heldAt s.cur.waiter pa 128 false co = false) : ∃ t v u l, exec .instructionCacheFill s = .next t ∧
      v = (((s.clearVerdicts s.cur.waiter).touchTlb s.cur.waiter s.cur.ctx va).plainLine s.cur.waiter (pa / 128) (!co)) ∧
      u = (if pa < 2 ^ 52 then v.1.passNow s.cur.waiter pa false else v.1) ∧
      t.cur = { u.cur with wait := t.cur.wait } ∧ t = { u with cur := t.cur, cores := t.cores } ∧
      (t.core s.cur.core).icache = (l :: (u.core s.cur.core).icache.filter fun x => !(x.ctx = s.cur.ctx && x.line = va.toNat / 128)).take 256 ∧
      l.ctx = s.cur.ctx ∧ l.line = va.toNat / 128 ∧
      ∀ i : Fin 16, l.words[i] = v.2.1.extractLsb' (64 * i.val) 64 := by
  obtain ⟨l, hic, hctx, hline, hwords⟩ := fillIcache_icache (s.fetchedAt va pa co).1 s.cur.core s.cur.ctx (va.toNat / 128) (s.fetchedAt va pa co).2
  exact ⟨_, _, _, l, instructionCacheFill_fills hat hl hm hc hh, rfl, rfl, rfl, rfl, hic, hctx, hline, hwords⟩

/-- A group put into the slot c, n of a state with the same groups. -/
theorem addGroup_slot {s u : State} {c : BitVec 10} {n : BitVec 3} (hidle : s.group? c n = none) (hcur : u.cur = s.cur) (hparked : u.parked = s.parked)
    {g : Group} (hc : g.core = c) (hn : g.slot = n) (hl : g.life = .running) : (u.addGroup g).group? c n = some g := by
  subst hc hn
  exact addGroup_group? ((group?_congr hcur hparked ..).trans hidle) (by rw [hl]; decide)

section
variable (p : RecPlace) (l : Launch) (t : Team) (n : BitVec 3)

/-- What a starting group has of its launch, its record and its team, and what it has of the blank group. -/
theorem starting_fields : ∃ g : Group, p.starting l t n.toNat = { g with
      core := t.core, slot := n, ctx := l.ctx, life := .running, launch := p.launch, pc := l.entry, cpos := 0, live := firstLanes l.nlane
      em := firstLanes l.nlane, dline := l.deadline, sregs := Group.blank.sregs.set 0 l.argb, vregs := Group.blank.vregs, k := 0, preds := 0
      msdep := 0, mstack := [], latches := [], gsf := 0, hmode := false, inClause := false } := by
  have hslot : BitVec.ofNat 3 n.toNat = n := by simp
  refine ⟨p.starting l t n.toNat, ?_⟩
  simp only [RecPlace.starting, startGroup, swrite_plain (n := 0) (.inl (by decide)), hslot]
  rfl

/-- The group of a record as its place has it. -/
theorem restored_fields (ws : List Word) : ∃ g : Group, p.restored l t n.toNat ws = { g with
      core := t.core, slot := n, life := .running, pc := ws.getD 0 0, cpos := 0, live := (ws.getD 4 0).setWidth 32 ++ ws.getD 3 0
      em := placeEm ws &&& ((ws.getD 4 0).setWidth 32 ++ ws.getD 3 0), k := (ws.getD 9 0).setWidth 32 ++ ws.getD 8 0, preds := (ws.getD 10 0).setWidth 7
      latches := [], gsf := 0, dline := l.deadline, tlown := p.tlown } := by
  obtain ⟨g, hg⟩ := starting_fields p l t n
  obtain ⟨r, v, hz⟩ := fromPlace_outside { p.starting l t n.toNat with sregs := Vector.replicate 64 0 } ws p.smask p.vmask
  refine ⟨p.restored l t n.toNat ws, ?_⟩
  rw [RecPlace.restored, hz, hg]
  rfl

theorem restored_sread_59 (ws : List Word) : (p.restored l t n.toNat ws).sread 59 = ws.getD 14 0 := fromPlace_sread_59 ..

theorem restored_sread_listed (ws : List Word) {j r : Nat} (h : r < 59 ∨ r = 63) (hj : (maskRegs p.smask)[j]? = some r) :
    (p.restored l t n.toNat ws).sread (BitVec.ofNat 6 r) = ws.getD (32 + j) 0 := fromPlace_sread_listed _ _ _ _ h hj

theorem restored_sread_unlisted (ws : List Word) {r : Nat} (h : r < 59 ∨ r = 63) (hr : r ∉ maskRegs p.smask) :
    (p.restored l t n.toNat ws).sread (BitVec.ofNat 6 r) = 0 :=
  fromPlace_sread_unlisted _ _ _ _ h hr rfl

end

section
variable {s : State} {c : BitVec 10} {n : BitVec 3} {p : RecPlace} {tm : Team} (ha : s.ev.a = c.toNat) (hb : s.ev.b = n.toNat)
  (hidle : s.group? c n = none) (hsaved : s.restoreSaved c n.toNat = none) (hlow : ∀ i, i < n.toNat → s.finds c i = false)
  (hpick : s.pickPhase c n.toNat = some p) (ht : (s.sch.teams.find? fun t => t.key = p.team) = some tm) (hcore : tm.core = c)
include ha hb hidle hsaved hlow hpick ht hcore

theorem recordPick_fresh (hf : p.fresh = true) : let l := s.launch p.launch
    ∃ t g, exec .recordPick s = .next t ∧ t.group? c n = some g ∧ t.sch.places = s.sch.places.erase p ∧ t.mem = s.mem ∧
        g.pc = l.entry ∧ g.cpos = 0 ∧ g.ctx = l.ctx ∧ g.launch = p.launch ∧ g.life = .running ∧ g.hmode = false ∧ g.inClause = false ∧
        (∀ i : Fin 96, g.em.getLsbD i = decide (i.val < l.nlane)) ∧ g.live = g.em ∧ g.sread 0 = l.argb ∧
        (∀ r : BitVec 6, r ≠ 0 → r.toNat < 60 ∨ r = 63 → g.sread r = 0) ∧ g.k = 0 ∧ (∀ i, i < 7 → g.pred i = false) ∧ g.msdep = 0 ∧
        g.mstack = [] ∧ g.latches = [] ∧ g.gsf = 0 ∧ (∀ r (i : Fin 96), (g.vread r)[i] = 0) ∧ g.dline.toNat = (l.ymax + 1) * 256 := by
  obtain ⟨x, hx⟩ := startPhase_fresh (c := c) n.toNat ht hf
  obtain ⟨g, hg⟩ := starting_fields p (s.launch p.launch) tm n
  rw [recordPick_starts ha hb hidle hsaved hlow hpick, hx, hg]
  refine ⟨_, _, rfl, addGroup_slot (u := s.unplace p) hidle rfl rfl hcore rfl rfl, ?_, ?_, rfl, rfl, rfl, rfl, rfl, rfl, rfl, firstLanes_getLsbD _, rfl, ?_, ?_, rfl, ?_,
    rfl, rfl, rfl, rfl, ?_, deadline_toNat _⟩
  · rw [addGroup_outside]
    rfl
  · rw [addGroup_outside]
    rfl
  · rw [sread_plain (.inl (by decide))]
    exact Vector.getElem_set_self _
  · intro r hr hplain
    rw [sread_plain hplain]
    have hne : 0 ≠ r.toNat := fun h => hr (BitVec.eq_of_toNat_eq h.symm)
    refine (Vector.getElem_set_ne (by decide) r.isLt hne).trans ?_
    exact Vector.getElem_replicate ..
  · intro i hi
    simp [Group.pred, bit, show i ≠ 7 by omega]
  · intro r i
    simp [Group.vread, Group.blank]

theorem recordPick_restored (hf : p.fresh = false) (hcarve : p.carve = none) : let l := s.launch p.launch
    let ws := ((s.unplace p).getLines (s.placeAddr c p.place.toNat) 32).2
        ∃ t g, exec .recordPick s = .next t ∧ t.group? c n = some g ∧ g.pc = ws.getD 0 0 ∧ g.cpos = 0 ∧
          g.live = (ws.getD 4 0).setWidth 32 ++ ws.getD 3 0 ∧ g.em &&& g.live = g.em ∧ g.k = (ws.getD 9 0).setWidth 32 ++ ws.getD 8 0 ∧
          g.preds = (ws.getD 10 0).setWidth 7 ∧ g.sread 59 = ws.getD 14 0 ∧ g.latches = [] ∧ g.gsf = 0 ∧ g.tlown = p.tlown ∧
          (∀ j r : Nat, (maskRegs p.smask)[j]? = some r → r < 59 ∨ r = 63 → g.sread (BitVec.ofNat 6 r) = ws.getD (32 + j) 0) ∧
          (∀ r : Nat, r < 59 ∨ r = 63 → r ∉ maskRegs p.smask → g.sread (BitVec.ofNat 6 r) = 0) ∧ g.dline.toNat = (l.ymax + 1) * 256 := by
  have hkeeps := getLines_keeps (s.unplace p) (s.placeAddr c p.place.toNat) 32
  obtain ⟨y, hy⟩ := startPhase_restored (c := c) n.toNat ht hf hcarve
  dsimp only
  generalize (s.unplace p).getLines (s.placeAddr c p.place.toNat) 32 = x at hkeeps hy ⊢
  obtain ⟨u, ws⟩ := x
  obtain ⟨g, hg⟩ := restored_fields p (s.launch p.launch) tm n ws
  have h59 := restored_sread_59 p (s.launch p.launch) tm n ws
  have hin (j r : Nat) (hj : (maskRegs p.smask)[j]? = some r) (hr : r < 59 ∨ r = 63) :=
    restored_sread_listed p (s.launch p.launch) tm n ws hr hj
  have hnot (r : Nat) (hr : r < 59 ∨ r = 63) (hm : r ∉ maskRegs p.smask) := restored_sread_unlisted p (s.launch p.launch) tm n ws hr hm
  rw [recordPick_starts ha hb hidle hsaved hlow hpick, hy]
  dsimp only
  rw [hg] at h59 hin hnot ⊢
  exact ⟨_, _, rfl, addGroup_slot (u := u) hidle hkeeps.cur hkeeps.parked hcore rfl rfl, rfl, rfl, rfl, by rw [BitVec.and_assoc, BitVec.and_self],
    rfl, rfl, h59, rfl, rfl, rfl, hin, hnot, deadline_toNat _⟩

end

/-- Settles O40: the group at the port alone at its boundary, the line that its clause lacks, its deadline, and the record picked for its slot. -/
theorem portEvents : Obligations.PortEvents := by
  unfold Obligations.PortEvents
  refine ⟨fun s hd ws ha => ?_, fun s va hat hl hm => ⟨fun f hf => instructionCacheFill_faults hat hl hm hf, instructionCacheFill_spec s va hat hl hm⟩,
    fun s hat => ⟨watchdogExpiry_traps hat, watchdogExpiry_idle hat⟩,
    fun s c n ha hb => ⟨recordPick_occupied ha hb, fun p tm hidle hsaved hlow hpick ht hcore =>
      ⟨recordPick_fresh ha hb hidle hsaved hlow hpick ht hcore, recordPick_restored ha hb hidle hsaved hlow hpick ht hcore⟩⟩⟩
  obtain ⟨hbusy, halone⟩ := clauseStart_spec s hd ws
  refine ⟨hbusy, fun hfree hruns hcore hlife hout hlate hcpos hstop hend hviral hbudget hspill hwait hhalt hothers hw => ?_⟩
  have hc : BitVec.ofNat 10 s.ev.a = s.cur.core := by rw [← hcore]; simp
  exact halone ⟨hc ▸ hfree, hruns, hlife, hout, hlate, hcpos, hstop, hend, hviral, hbudget, hspill, hwait, hhalt, hothers⟩ hcore.symm hw

end Sys2Proof.Machine
end

section
/-! SUPPORT. The copy engine (R371 to R373): words put into the scratchpad one after another, and the elements of stencil records. -/

namespace Sys2Proof.Machine

/-! ### A command of the copy engine at its turn -/

section
variable {s u : State} {k : CmdCtl} {q : Cmd} {e : EngWho} (h : CopyHead s k q u e)
include h

/-- The engine acts on the command at the head of its stream, now begun. -/
theorem CopyHead.onStream_eq (f : State → EngWho → Cmd → State) : s.onStream 2 k f = f u e { q with started := true } := by
  obtain ⟨hruns, hhead, rfl, rfl⟩ := h
  rw [State.headOf] at hhead
  simp only [State.onStream, hruns, hhead, Bool.false_eq_true, if_false]
  rfl

theorem CopyHead.tl_lt : e.tl < 4 := by
  obtain ⟨-, -, -, rfl⟩ := h
  show 2 + b2n k.ectx < 4
  cases k.ectx <;> decide

theorem CopyHead.grp_none : e.grp = none := by
  obtain ⟨-, -, -, rfl⟩ := h
  rfl

theorem CopyHead.units_eq : u.eng = s.eng := by
  obtain ⟨-, -, rfl, -⟩ := h
  rfl

end

/-! Progress and scratchpad words -/

section
variable (s : State) (c : BitVec 10) (x : BitVec 12)

theorem CoreCtx.setProgress_progress (k : CoreCtx) {tl : Nat} (h : tl < 4) (p : Progress) : (k.setProgress tl p).progress tl = p := by
  simp [CoreCtx.progress, CoreCtx.setProgress, h, List.getD]

theorem modProgress_progress {tl : Nat} (h : tl < 4) (f : Progress → Progress) :
    ((s.modProgress c x tl f).coreCtx c x).progress tl = f ((s.coreCtx c x).progress tl) := by
  rw [State.modProgress, State.setCoreCtx_coreCtx_same, CoreCtx.setProgress_progress _ h]

theorem modProgress_core_other {k : BitVec 10} (h : k ≠ c) (tl : Nat) (f : Progress → Progress) : (s.modProgress c x tl f).core k = s.core k :=
  State.setCore_core_other _ _ h

@[simp] theorem modProgress_sp (tl : Nat) (f : Progress → Progress) (k : BitVec 10) (i : Nat) : (s.modProgress c x tl f).sp k i = s.sp k i := by
  by_cases h : k = c
  · subst h
    simp [State.modProgress, State.setCoreCtx, State.sp]
  · rw [State.sp, modProgress_core_other s c x h, State.sp]

@[simp] theorem putSp_sp_same (i : Nat) (w : SpWord) : (s.putSp c i w).sp c i = w := by
  simp [State.putSp, State.sp, Tab.get_set_same]

theorem putSp_sp_other {i j : Nat} (h : j ≠ i) (w : SpWord) : (s.putSp c i w).sp c j = s.sp c j := by
  simp [State.putSp, State.sp, Tab.get_set_other _ _ _ h]

theorem putSp_core_other {k : BitVec 10} (h : k ≠ c) (i : Nat) (w : SpWord) : (s.putSp c i w).core k = s.core k :=
  State.setCore_core_other _ _ h

@[simp] theorem putSp_coreCtx (i : Nat) (w : SpWord) : (s.putSp c i w).coreCtx c x = s.coreCtx c x := by
  simp [State.putSp, State.coreCtx]

/-- One word read by its bytes. -/
theorem spBytes_word (i : Nat) : s.spBytes c (4 * i) 4 = ((s.sp c i).data.toNat, (s.sp c i).poison) := by
  have hw : 4 * i / 4 = i := by omega
  have hn : (4 * i + 4 + 3) / 4 - i = 1 := by omega
  have hm : 4 * i % 4 = 0 := by omega
  have hlt := (s.sp c i).data.isLt
  simp only [State.spBytes, hw, hn, hm, List.range_one, List.foldr_cons, List.foldr_nil, List.any_cons, List.any_nil, Bool.or_false, Nat.add_zero,
    Nat.mul_zero, Nat.pow_zero, Nat.div_one, Prod.mk.injEq, and_true]
  omega

end

/-- A word written whole takes the value and its poison. -/
theorem written_whole (x : SpWord) (v : Nat) (q : Bool) : x.written 32 [(0, v, q)] = { x with data := BitVec.ofNat 32 v, poison := q } := by
  have hdata : setBits x.data 31 0 v = BitVec.ofNat 32 v := by
    refine BitVec.eq_of_getLsbD_eq fun i hi => ?_
    rw [getLsbD_setBits, if_pos ⟨Nat.zero_le _, hi, hi⟩, BitVec.getLsbD_ofNat, decide_eq_true hi, Bool.true_and, Nat.sub_zero]
  have hcover : Writes.cover 32 32 [(0, v, q)] = BitVec.allOnes 32 := by simp only [Writes.cover, List.foldl_cons, List.foldl_nil]; decide
  simp only [SpWord.written, hcover, Writes.onto, Writes.poisoned, List.foldl_cons, List.foldl_nil, List.any_cons, List.any_nil]
  simp [hdata]

/-! ### Words copied into the scratchpad (R372) -/

section
variable {k : Copying} {e : EngWho} {c : BitVec 10} {s : State} {i m j : Nat}

/-- One word of a scratchpad target is gathered, as the next goes to another word. -/
theorem gatherWords_one {t : State} {v : Nat} {q : Bool} (hd : k.dst s i = some (.sp c (4 * j))) (hs : k.src s i = .ok t v q)
    (hnext : m ≠ 0 → ∀ p, k.dst t (i + 1) = some p → p.target.1 ≠ .word c j) :
    gatherWords k e (.word c j) s i [] (m + 1) = (t, [(0, v, q)], .all) := by
  have ht : (Place.sp c (4 * j)).target = (.word c j, 0) := by
    simp [Place.target]
  have hrest : gatherWords k e (.word c j) t (i + 1) [(0, v, q)] m = (t, [(0, v, q)], .all) := by
    cases m with
    | zero => rfl
    | succ m =>
      rw [gatherWords]
      cases hp : k.dst t (i + 1) with
      | none => rfl
      | some p => simp only [hnext (Nat.succ_ne_zero m) p hp, ne_eq, not_false_eq_true, if_true]
  rw [gatherWords, hd]
  simp only [ht, ne_eq, not_true_eq_false, if_false, hs, List.nil_append, Writes.poisoned]
  cases k.from' t i <;> simp only [List.isEmpty_nil, Bool.true_or, if_true, List.find?_nil, List.any_nil, Bool.or_false, hrest]

/-- The fault of a word is that of the gathering. -/
theorem gatherWords_fault {t : State} {r : FRec} (hd : k.dst s i = some (.sp c (4 * j))) (hs : k.src s i = .fault t r) :
    gatherWords k e (.word c j) s i [] (m + 1) = (t, [], .fault r.kind) := by
  have ht : (Place.sp c (4 * j)).target = (.word c j, 0) := by
    simp [Place.target]
  rw [gatherWords, hd]
  simp only [ht, ne_eq, not_true_eq_false, if_false, hs]

/-- The state after one word has been written and counted. -/
def State.wordPut (t : State) (e : EngWho) (c : BitVec 10) (j v : Nat) (q : Bool) : State :=
  (t.putSp c j { t.sp c j with data := BitVec.ofNat 32 v, poison := q }).modProgress e.core e.ctx e.tl fun p => { p with pos := p.pos + 1 }

variable {n units fuel : Nat} (hpos : ((s.coreCtx e.core e.ctx).progress e.tl).pos = i) (hi : i < n) (hu : units ≠ 0)
  (hd : k.dst s i = some (.sp c (4 * j)))
include hpos hi hu hd

theorem copyWords_step {t : State} {v : Nat} {q : Bool} (hs : k.src s i = .ok t v q)
    (hnext : i + 1 < n → ∀ p, k.dst t (i + 1) = some p → p.target.1 ≠ .word c j) :
    copyWords k e n s units (fuel + 1) = copyWords k e n (t.wordPut e c j v q) (units - 1) fuel := by
  have ht : (Place.sp c (4 * j)).target.1 = .word c j := by simp [Place.target]
  have hgo : (decide (n ≤ i) || decide (units = 0)) = false := by simp [hu, hi]
  obtain ⟨m, hm⟩ : ∃ m, n - i = m + 1 := ⟨n - i - 1, by omega⟩
  have hput : t.putWords e (.word c j) [(0, v, q)] = .ok (t.putSp c j ((t.sp c j).written 32 [(0, v, q)])) 0 false := rfl
  rw [copyWords]
  simp only [hpos, hgo, Bool.false_eq_true, if_false, hd, ht, hm, gatherWords_one hd hs (m := m) (fun h => hnext (by omega)), hput, written_whole, List.length_singleton]
  rfl

theorem copyWords_fault {t : State} {r : FRec} (hs : k.src s i = .fault t r) :
    copyWords k e n s units (fuel + 1) = (t.modProgress e.core e.ctx e.tl fun p => { p with pos := p.pos + 0 }, some r.kind) := by
  have ht : (Place.sp c (4 * j)).target.1 = .word c j := by simp [Place.target]
  have hgo : (decide (n ≤ i) || decide (units = 0)) = false := by simp [hu, hi]
  obtain ⟨m, hm⟩ : ∃ m, n - i = m + 1 := ⟨n - i - 1, by omega⟩
  have hput : t.putWords e (.word c j) [] = .ok t 0 false := rfl
  rw [copyWords]
  simp only [hpos, hgo, Bool.false_eq_true, if_false, hd, ht, hm, gatherWords_fault hd hs, hput, List.length_nil]

end

/-! ### A range of words -/

/-- `t` is `s` with the words b + i to b + n − 1 of a core's scratchpad written. -/
structure WordsPut (c : BitVec 10) (b i n : Nat) (val : Nat → Half) (poi : Nat → Bool) (s t : State) : Prop where
  outside : t = { s with cores := t.cores }
  inside : ∀ j, i ≤ j → j < n → t.sp c (b + j) = { s.sp c (b + j) with data := val j, poison := poi j }
  kept : ∀ j, j < b + i ∨ b + n ≤ j → t.sp c j = s.sp c j
  cores : ∀ k, k ≠ c → t.core k = s.core k

section
variable {k : Copying} {e : EngWho} {b i n : Nat} {val : Nat → Half} {poi : Nat → Bool} {s : State}

theorem WordsPut.nil (h : n ≤ i) : WordsPut e.core b i n val poi s s :=
  ⟨rfl, fun j h1 h2 => by omega, fun _ _ => rfl, fun _ _ => rfl⟩

theorem WordsPut.cons {t : State} (h : i < n)
    (ht : WordsPut e.core b (i + 1) n val poi (s.wordPut e e.core (b + i) (val i).toNat (poi i)) t) : WordsPut e.core b i n val poi s t := by
  have hother (j : Nat) (hj : j ≠ b + i) : (s.wordPut e e.core (b + i) (val i).toNat (poi i)).sp e.core j = s.sp e.core j := by
    rw [State.wordPut, modProgress_sp, putSp_sp_other _ _ hj]
  refine ⟨ht.outside, fun j hij hjn => ?_, fun j hj => ?_, fun k hk => ?_⟩
  · rcases Nat.eq_or_lt_of_le hij with rfl | hlt
    · rw [ht.kept _ (.inl (by omega)), State.wordPut, modProgress_sp, putSp_sp_same, BitVec.ofNat_toNat, BitVec.setWidth_eq]
    · rw [ht.inside j hlt hjn, hother _ (by omega)]
  · rw [ht.kept j (by omega), hother j (by omega)]
  · rw [ht.cores k hk, State.wordPut, modProgress_core_other _ _ _ hk, putSp_core_other _ _ hk]

/-- Words come one after another, each read where what was written before it leaves it as it was. -/
theorem copyWords_range (htl : e.tl < 4) (hpos : ((s.coreCtx e.core e.ctx).progress e.tl).pos = i) (hin : i ≤ n)
    (hd : ∀ (t : State) j, j < n → k.dst t j = some (.sp e.core (4 * (b + j))))
    (hs : ∀ (t : State) j, i ≤ j → j < n → (∀ x, x < b ∨ b + n ≤ x → t.sp e.core x = s.sp e.core x) → k.src t j = .ok t (val j).toNat (poi j)) :
    ∃ t, copyWords k e n s (n - i) (n - i) = (t, none) ∧ ((t.coreCtx e.core e.ctx).progress e.tl).pos = n ∧ WordsPut e.core b i n val poi s t := by
  obtain ⟨m, hm⟩ : ∃ m, n - i = m := ⟨_, rfl⟩
  rw [hm]
  induction m generalizing s i with
  | zero => exact ⟨s, rfl, by omega, .nil (by omega)⟩
  | succ m ih =>
    have hi : i < n := by omega
    have hword : (Place.sp e.core (4 * (b + (i + 1)))).target.1 ≠ .word e.core (b + i) := by
      simp only [Place.target, ne_eq, Target.word.injEq, true_and]
      omega
    have hstep := copyWords_step (fuel := m) hpos hi (Nat.succ_ne_zero m) (hd s i hi) (hs s i (Nat.le_refl i) hi fun _ _ => rfl)
      (fun h p hp => by cases (hd s (i + 1) h).symm.trans hp; exact hword)
    have hone : ((s.wordPut e e.core (b + i) (val i).toNat (poi i)).coreCtx e.core e.ctx).progress e.tl =
        { (s.coreCtx e.core e.ctx).progress e.tl with pos := i + 1 } := by
      rw [State.wordPut, modProgress_progress _ _ _ htl, putSp_coreCtx, hpos]
    have hkept (x : Nat) (hx : x < b ∨ b + n ≤ x) : (s.wordPut e e.core (b + i) (val i).toNat (poi i)).sp e.core x = s.sp e.core x := by
      rw [State.wordPut, modProgress_sp, putSp_sp_other _ _ (by omega)]
    obtain ⟨t, hrun, hend, hput⟩ := ih (s := s.wordPut e e.core (b + i) (val i).toNat (poi i)) (i := i + 1) (by rw [hone]) (by omega)
      (fun t j h1 h2 h3 => hs t j (by omega) h2 fun x hx => (h3 x hx).trans (hkept x hx)) (by omega)
    exact ⟨t, hstep.trans hrun, hend, hput.cons hi⟩

/-- A copy from its beginning to its end, in one turn. -/
theorem runCopy_range (htl : e.tl < 4) (hunits : s.eng.units = 0) (hpos : ((s.coreCtx e.core e.ctx).progress e.tl).pos = 0)
    (hd : ∀ (t : State) j, j < n → k.dst t j = some (.sp e.core (4 * (b + j))))
    (hs : ∀ (t : State) j, j < n → (∀ x, x < b ∨ b + n ≤ x → t.sp e.core x = s.sp e.core x) → k.src t j = .ok t (val j).toNat (poi j)) :
    ∃ t, s.runCopy e n k = t.done e 0 0 ∧ WordsPut e.core b 0 n val poi s t := by
  obtain ⟨t, hrun, hend, hput⟩ := copyWords_range htl hpos (Nat.zero_le n) hd (fun t j _ => hs t j)
  refine ⟨t, ?_, hput⟩
  have hleft : ¬ n < n := Nat.lt_irrefl n
  simp only [State.runCopy, hunits, hpos, hrun, hend, hleft, if_true, if_false, stOk]

end

/-! ### The commands -/

section
variable {s u : State} {q : Cmd} {e : EngWho}

theorem fieldAddr_word {f : BitVec 49} {i n : Nat} (hn : n ≤ 2 ^ 16) (hi : i < n) : (wordAt (fieldAddr 1 f) i).toNat = 4 * (f.toNat + i) := by
  have hf := f.isLt
  have h1 : fieldAddr 1 f = BitVec.ofNat 64 (4 * f.toNat) := rfl
  rw [wordAt, h1, BitVec.toNat_add, BitVec.toNat_ofNat, BitVec.toNat_ofNat]
  omega

/-- A word of a range in the core scratchpad of the command's group. -/
theorem placeOf_word {f : BitVec 49} {i n : Nat} (hn : n ≤ 2 ^ 16) (hi : i < n) :
    s.placeOf q 1 (wordAt (fieldAddr 1 f) i) = if q.inTeam (4 * (f.toNat + i)) 4 then some (.sp q.core (4 * (f.toNat + i))) else none := by
  have h := fieldAddr_word (f := f) hn hi
  show (if q.inTeam (wordAt (fieldAddr 1 f) i).toNat 4 then some (Place.sp q.core (wordAt (fieldAddr 1 f) i).toNat) else none) = _
  rw [h]

theorem rangeOk_words {f : BitVec 49} {n : Nat} (hn : n ≤ 2 ^ 16) :
    s.rangeOk q 1 (fieldAddr 1 f) n = true ↔ ∀ i, i < n → q.inTeam (4 * (f.toNat + i)) 4 = true := by
  have hspace : decide ((1 : BitVec 2) = 0) = false := by decide
  rw [State.rangeOk, hspace, Bool.false_or, List.all_eq_true]
  refine ⟨fun h i hi => ?_, fun h i hi => ?_⟩
  · have h := h i (List.mem_range.2 hi)
    rw [← wordAt, placeOf_word hn hi] at h
    by_contra hno
    simp [hno] at h
  · rw [List.mem_range] at hi
    rw [← wordAt, placeOf_word hn hi, if_pos (h i hi), Option.isSome_some]

end

/-! ### CPY and CPFILL -/

/-- A progress of which nothing is done. -/
theorem fresh_pos {p : Progress} (h : p = Progress.fresh) : p.pos = 0 ∧ p.begun = false ∧ p.index = none := by
  subst h
  exact ⟨rfl, rfl, rfl⟩

/-- The words of a CPY (R372) as `execCpy` copies them. -/
def cpyCopying (c : Cpy) (e : EngWho) (q : Cmd) : Copying where
  src s i := match s.placeOf q c.ssp (wordAt (fieldAddr c.ssp c.src) i) with
    | some p => s.placeLoad e p 4
    | none => .fault s ⟨wordAt (fieldAddr c.ssp c.src) i, 2, 2, false, false, 2, 0⟩
  dst s i := s.placeOf q c.dsp (wordAt (fieldAddr c.dsp c.dsta) i)
  from' s i := s.placeOf q c.ssp (wordAt (fieldAddr c.ssp c.src) i)

/-- The words of a CPFILL. -/
def cpfillCopying (c : Cpfill) (q : Cmd) : Copying where
  src s _ := .ok s c.pat.toNat false
  dst s i := s.placeOf q c.dsp (wordAt (fieldAddr c.dsp c.dsta) i)

section
variable {s u : State} {q : Cmd} {e : EngWho}

theorem execCpy_eq {c : Cpy} (h : CopyHead s c.ctl q u e) (hfresh : (u.coreCtx e.core e.ctx).progress e.tl = Progress.fresh) :
    exec (.cpy c) s = .next (if (!u.rangeOk { q with started := true } c.ssp (fieldAddr c.ssp c.src) (c.len.toNat + 1) ||
        !u.rangeOk { q with started := true } c.dsp (fieldAddr c.dsp c.dsta) (c.len.toNat + 1)) = true then u.badCmd e
      else u.runCopy e (c.len.toNat + 1) (cpyCopying c e { q with started := true })) := by
  show execCpy c s = _
  simp only [execCpy, h.onStream_eq, (fresh_pos hfresh).1, decide_true, Bool.true_and]
  rfl

theorem execCpfill_eq {c : Cpfill} (h : CopyHead s c.ctl q u e) (hfresh : (u.coreCtx e.core e.ctx).progress e.tl = Progress.fresh) :
    exec (.cpfill c) s = .next (if (!u.rangeOk { q with started := true } c.dsp (fieldAddr c.dsp c.dsta) (c.len.toNat + 1)) = true then u.badCmd e
      else u.runCopy e (c.len.toNat + 1) (cpfillCopying c { q with started := true })) := by
  show execCpfill c s = _
  simp only [execCpfill, h.onStream_eq, (fresh_pos hfresh).1, decide_true, Bool.true_and]
  rfl

/-- A range in the team reservation, for the command as it is begun. -/
theorem rangeOk_started {f : BitVec 49} {n : Nat} (hn : n ≤ 2 ^ 16) :
    u.rangeOk { q with started := true } 1 (fieldAddr 1 f) n = true ↔ ∀ i, i < n → q.inTeam (4 * (f.toNat + i)) 4 = true := rangeOk_words hn

theorem placeOf_started (hcore : q.core = e.core) {f : BitVec 49} {i n : Nat} (hn : n ≤ 2 ^ 16) (hi : i < n) (hin : q.inTeam (4 * (f.toNat + i)) 4 = true) :
    s.placeOf { q with started := true } 1 (wordAt (fieldAddr 1 f) i) = some (.sp e.core (4 * (f.toNat + i))) := by
  rw [placeOf_word hn hi, ← hcore]
  exact if_pos hin

theorem cpy_outside {c : Cpy} (h : CopyHead s c.ctl q u e) (hfresh : (u.coreCtx e.core e.ctx).progress e.tl = Progress.fresh)
    (hssp : c.ssp = 1) (hdsp : c.dsp = 1)
    (hout : ∃ i, i < c.len.toNat + 1 ∧ (q.inTeam (4 * (c.src.toNat + i)) 4 = false ∨ q.inTeam (4 * (c.dsta.toNat + i)) 4 = false)) :
    exec (.cpy c) s = .next (u.done e 1 0) := by
  have hn : c.len.toNat + 1 ≤ 2 ^ 16 := c.len.isLt
  obtain ⟨i, hi, hout⟩ := hout
  rw [execCpy_eq h hfresh, hssp, hdsp]
  refine congrArg Host.Outcome.next (if_pos ?_)
  rw [Bool.or_eq_true, Bool.not_eq_true', Bool.not_eq_true', ← Bool.not_eq_true, ← Bool.not_eq_true, rangeOk_started hn, rangeOk_started hn]
  exact hout.imp (fun ho hall => Bool.noConfusion (ho.symm.trans (hall i hi))) (fun ho hall => Bool.noConfusion (ho.symm.trans (hall i hi)))

theorem cpy_copies {c : Cpy} (h : CopyHead s c.ctl q u e) (hfresh : (u.coreCtx e.core e.ctx).progress e.tl = Progress.fresh)
    (hssp : c.ssp = 1) (hdsp : c.dsp = 1) (hcore : q.core = e.core) (hunits : s.eng.units = 0)
    (hin : ∀ i, i < c.len.toNat + 1 → q.inTeam (4 * (c.src.toNat + i)) 4 = true ∧ q.inTeam (4 * (c.dsta.toNat + i)) 4 = true)
    (hapart : c.src.toNat + (c.len.toNat + 1) ≤ c.dsta.toNat ∨ c.dsta.toNat + (c.len.toNat + 1) ≤ c.src.toNat) :
    ∃ v, exec (.cpy c) s = .next (v.done e 0 0) ∧ WordsPut e.core c.dsta.toNat 0 (c.len.toNat + 1)
      (fun i => (u.sp e.core (c.src.toNat + i)).data) (fun i => (u.sp e.core (c.src.toNat + i)).poison) u v := by
  have hn : c.len.toNat + 1 ≤ 2 ^ 16 := c.len.isLt
  have hsrc (t : State) (j : Nat) (hj : j < c.len.toNat + 1)
      (hsame : ∀ x, x < c.dsta.toNat ∨ c.dsta.toNat + (c.len.toNat + 1) ≤ x → t.sp e.core x = u.sp e.core x) :
      (cpyCopying c e { q with started := true }).src t j = .ok t (u.sp e.core (c.src.toNat + j)).data.toNat (u.sp e.core (c.src.toNat + j)).poison := by
    simp only [cpyCopying, hssp, placeOf_started hcore hn hj (hin j hj).1, State.placeLoad, spBytes_word, hsame (c.src.toNat + j) (by omega)]
  obtain ⟨v, hrun, hput⟩ := runCopy_range (s := u) (b := c.dsta.toNat) h.tl_lt (by rw [h.units_eq, hunits]) (fresh_pos hfresh).1
    (fun t j hj => by simp only [cpyCopying, hdsp, placeOf_started hcore hn hj (hin j hj).2]) hsrc
  refine ⟨v, ?_, hput⟩
  rw [execCpy_eq h hfresh, ← hrun, hssp, hdsp, (rangeOk_started hn).2 fun i hi => (hin i hi).1, (rangeOk_started hn).2 fun i hi => (hin i hi).2]
  rfl

theorem cpfill_outside {c : Cpfill} (h : CopyHead s c.ctl q u e) (hfresh : (u.coreCtx e.core e.ctx).progress e.tl = Progress.fresh)
    (hdsp : c.dsp = 1) (hout : ∃ i, i < c.len.toNat + 1 ∧ q.inTeam (4 * (c.dsta.toNat + i)) 4 = false) :
    exec (.cpfill c) s = .next (u.done e 1 0) := by
  obtain ⟨i, hi, hout⟩ := hout
  rw [execCpfill_eq h hfresh, hdsp]
  refine congrArg Host.Outcome.next (if_pos ?_)
  rw [Bool.not_eq_true', ← Bool.not_eq_true, rangeOk_started c.len.isLt]
  exact fun hall => Bool.noConfusion (hout.symm.trans (hall i hi))

theorem cpfill_fills {c : Cpfill} (h : CopyHead s c.ctl q u e) (hfresh : (u.coreCtx e.core e.ctx).progress e.tl = Progress.fresh)
    (hdsp : c.dsp = 1) (hcore : q.core = e.core) (hunits : s.eng.units = 0)
    (hin : ∀ i, i < c.len.toNat + 1 → q.inTeam (4 * (c.dsta.toNat + i)) 4 = true) :
    ∃ v, exec (.cpfill c) s = .next (v.done e 0 0) ∧ WordsPut e.core c.dsta.toNat 0 (c.len.toNat + 1) (fun _ => c.pat) (fun _ => false) u v := by
  have hn : c.len.toNat + 1 ≤ 2 ^ 16 := c.len.isLt
  obtain ⟨v, hrun, hput⟩ := runCopy_range (s := u) (b := c.dsta.toNat) (k := cpfillCopying c { q with started := true }) h.tl_lt
    (by rw [h.units_eq, hunits]) (fresh_pos hfresh).1
    (fun t j hj => by simp only [cpfillCopying, hdsp, placeOf_started hcore hn hj (hin j hj)]) (fun _ _ _ _ => rfl)
  refine ⟨v, ?_, hput⟩
  rw [execCpfill_eq h hfresh, ← hrun, hdsp, (rangeOk_started hn).2 hin]
  rfl
/-! ### CPYG -/

theorem cpyg_bad {c : Cpyg} (h : CopyHead s c.ctl q u e)
    (hbad : c.esz.toNat < 2 ∨ 12 < c.esz.toNat ∨ (vaOf (4 * c.base.toNat)).toNat % 2 ^ c.esz.toNat ≠ 0 ∨
      q.inTeam (4 * c.idx.toNat) (4 * (c.nim1.toNat + 1)) = false ∨ q.inTeam (4 * c.dstw.toNat) (2 ^ c.esz.toNat * (c.nim1.toNat + 1)) = false) :
    exec (.cpyg c) s = .next (u.done e 1 0) := by
  have hrefused : (decide (c.esz < 2) || decide (12 < c.esz.toNat) || decide ((vaOf (4 * c.base.toNat)).toNat % 2 ^ c.esz.toNat ≠ 0) ||
      !q.inTeam (4 * c.idx.toNat) (4 * (c.nim1.toNat + 1)) || !q.inTeam (4 * c.dstw.toNat) (2 ^ c.esz.toNat * (c.nim1.toNat + 1))) = true := by
    have hlt : c.esz < 2 ↔ c.esz.toNat < 2 := BitVec.lt_def
    simpa only [Bool.or_eq_true, decide_eq_true_eq, Bool.not_eq_true', hlt, or_assoc] using hbad
  show execCpyg c s = _
  simp only [execCpyg, h.onStream_eq]
  exact congrArg Host.Outcome.next (if_pos hrefused)

/-- How the first word of the first element goes: the index read at its word, then the element at it. -/
theorem gatherWord_first {c : Cpyg} (hfresh : (u.coreCtx e.core e.ctx).progress e.tl = Progress.fresh) (hcore : q.core = e.core)
    {x0 : Half} (hx : x0 = (u.sp e.core c.idx.toNat).data) :
    gatherWord c { q with started := true } e 4 u 0 =
      match (u.modProgress e.core e.ctx e.tl fun p => { p with index := some x0 }).engLoad e (vaOf (4 * c.base.toNat) + 4 * (x0.setWidth 64)) 4 with
      | .ok v x p => .ok (v.modProgress e.core e.ctx e.tl fun p => { p with index := none }) x p
      | r => r := by
  have haddr : BitVec.ofNat 64 (x0.toNat * 4 + 4 * 0 % 4) = 4 * x0.setWidth 64 := by
    refine BitVec.eq_of_toNat_eq ?_
    have := x0.isLt
    rw [BitVec.toNat_ofNat, BitVec.toNat_mul, BitVec.toNat_setWidth, show (4 : Word).toNat = 4 from rfl]
    omega
  subst hx
  simp only [gatherWord, (fresh_pos hfresh).2.2, hcore]
  rw [show c.idx.toNat + 4 * 0 / 4 = c.idx.toNat by omega, haddr]
  rfl

section
variable {c : Cpyg} (h : CopyHead s c.ctl q u e) (hfresh : (u.coreCtx e.core e.ctx).progress e.tl = Progress.fresh) (hcore : q.core = e.core)
  (hunits : s.eng.units = 0) (hesz : c.esz = 2) (hn : c.nim1 = 0) (hbase : (vaOf (4 * c.base.toNat)).toNat % 4 = 0)
  (hidx : q.inTeam (4 * c.idx.toNat) 4 = true) (hdst : q.inTeam (4 * c.dstw.toNat) 4 = true)
include h hesz hn hbase hidx hdst

/-- One element of four bytes is one word. -/
theorem cpyg_single : exec (.cpyg c) s = .next (u.runCopy e 1
    { src := gatherWord c { q with started := true } e 4, dst := fun _ i => some (.sp q.core (4 * c.dstw.toNat + 4 * i)) }) := by
  have hok : (decide ((2 : BitVec 4) < 2) || decide (12 < (2 : BitVec 4).toNat) || decide ((vaOf (4 * c.base.toNat)).toNat % 4 ≠ 0) ||
      !q.inTeam (4 * c.idx.toNat) (4 * 1) || !q.inTeam (4 * c.dstw.toNat) (4 * 1)) = false := by
    rw [hidx, hdst, hbase]
    rfl
  show execCpyg c s = _
  simp only [execCpyg, h.onStream_eq, hesz, hn]
  exact congrArg Host.Outcome.next (if_neg (by rw [Bool.not_eq_true]; exact hok))

include hfresh hcore hunits

theorem cpyg_loads {v : State} {x : Nat} {p : Bool} {x0 : Half} (hx : x0 = (u.sp e.core c.idx.toNat).data)
    (hload : (u.modProgress e.core e.ctx e.tl fun p => { p with index := some x0 }).engLoad e (vaOf (4 * c.base.toNat) + 4 * (x0.setWidth 64)) 4 = .ok v x p) :
    ∃ y : State, exec (.cpyg c) s = .next (y.done e 0 0) ∧ y = { v with cores := y.cores } ∧
        (y.sp e.core c.dstw.toNat).data = BitVec.ofNat 32 x ∧ ∀ i, i ≠ c.dstw.toNat → y.sp e.core i = v.sp e.core i := by
  have hword := gatherWord_first (c := c) hfresh hcore hx
  rw [hload] at hword
  dsimp only at hword
  obtain ⟨w, hw⟩ : ∃ w, w = v.modProgress e.core e.ctx e.tl fun p => { p with index := none } := ⟨_, rfl⟩
  rw [← hw] at hword
  have hstep := copyWords_step (k := { src := gatherWord c { q with started := true } e 4, dst := fun _ i => some (.sp q.core (4 * c.dstw.toNat + 4 * i)) })
    (n := 1) (units := 1) (fuel := 0) (c := q.core) (j := c.dstw.toNat) (fresh_pos hfresh).1 Nat.one_pos Nat.one_ne_zero rfl hword (fun hlt => absurd hlt (by omega))
  have hpos := modProgress_progress (w.putSp q.core c.dstw.toNat { w.sp q.core c.dstw.toNat with data := BitVec.ofNat 32 x, poison := p }) e.core e.ctx h.tl_lt
    fun p => { p with pos := p.pos + 1 }
  refine ⟨w.wordPut e q.core c.dstw.toNat x p, ?_, by rw [hw]; rfl, ?_, fun i hi => ?_⟩
  · have heng : u.eng.units = 0 := by rw [h.units_eq, hunits]
    have hend : ¬ (((w.wordPut e q.core c.dstw.toNat x p).coreCtx e.core e.ctx).progress e.tl).pos < 1 := by
      rw [State.wordPut, hpos]
      simp
    rw [cpyg_single h hesz hn hbase hidx hdst]
    simp only [State.runCopy, heng, (fresh_pos hfresh).1, if_true, Nat.sub_zero, hstep]
    simp only [copyWords, hend, if_false, stOk]
  · rw [State.wordPut, modProgress_sp, hcore, putSp_sp_same]
  · rw [State.wordPut, modProgress_sp, hcore, putSp_sp_other _ _ hi, hw, modProgress_sp]

theorem cpyg_faults {v : State} {r : FRec} {x0 : Half} (hx : x0 = (u.sp e.core c.idx.toNat).data)
    (hload : (u.modProgress e.core e.ctx e.tl fun p => { p with index := some x0 }).engLoad e (vaOf (4 * c.base.toNat) + 4 * (x0.setWidth 64)) 4 = .fault v r) :
    ∃ y : State, exec (.cpyg c) s = .next (y.done e 2 r.kind.toNat) ∧ y = { v with cores := y.cores } ∧
        ∀ i, y.sp e.core i = v.sp e.core i := by
  have hword := gatherWord_first (c := c) hfresh hcore hx
  rw [hload] at hword
  dsimp only at hword
  have hstep := copyWords_fault (k := { src := gatherWord c { q with started := true } e 4, dst := fun _ i => some (.sp q.core (4 * c.dstw.toNat + 4 * i)) })
    (n := 1) (units := 1) (fuel := 0) (c := q.core) (j := c.dstw.toNat) (fresh_pos hfresh).1 Nat.one_pos Nat.one_ne_zero rfl hword
  have heng : u.eng.units = 0 := by rw [h.units_eq, hunits]
  refine ⟨v.modProgress e.core e.ctx e.tl fun p => { p with pos := p.pos + 0 }, ?_, rfl, fun i => modProgress_sp ..⟩
  rw [cpyg_single h hesz hn hbase hidx hdst]
  simp only [State.runCopy, heng, (fresh_pos hfresh).1, if_true, Nat.sub_zero, hstep, stFault]

end

end

/-! ### CPYS -/

/-- What is loaded fits the bytes asked for. -/
theorem engLoad_lt {s v : State} {e : EngWho} {va : Word} {n x : Nat} {p : Bool} (hg : e.grp = none) (hn : 0 < n) (h : s.engLoad e va n = .ok v x p) :
    x < 2 ^ (8 * n) := by
  unfold State.engLoad at h
  rw [hg] at h
  split at h
  · next t pa mt co _ =>
    simp only [EngAcc.ok.injEq] at h
    obtain ⟨-, rfl, -⟩ := h
    refine (bits_lt ..).trans_le (Nat.pow_le_pow_right Nat.two_pos ?_)
    omega
  · cases h
  · cases h

/-- What ends a copy of `n` elements. -/
def copyEnds (e : EngWho) (n : Nat) (x : State × Option (BitVec 8)) : State :=
  match x.2 with
  | some k => x.1.done e stFault k.toNat
  | none => if ((x.1.coreCtx e.core e.ctx).progress e.tl).pos < n then x.1 else x.1.done e stOk 0

/-- The elements of a CPYS from the position reached on, and what ends it. -/
def cpysRun (q : Cmd) (e : EngWho) (s : State) : State :=
  let both := ((s.coreCtx e.core e.ctx).progress e.tl).slotA
  let src := Stencil.ofWords (wordsOf both 8)
  let dst := Stencil.ofWords (wordsOf (both / 2 ^ 512) 8)
  let left := dst.count - ((s.coreCtx e.core e.ctx).progress e.tl).pos
  copyEnds e dst.count
    (copyElems s e q.asGroup dst src (s.slotOf q.launch dst.fsl) (s.slotOf q.launch src.fsl) (if s.eng.units = 0 then left else s.eng.units) left)

/-- No element is left. -/
theorem cpysRun_ends {s : State} {q : Cmd} {e : EngWho}
    (hn : (Stencil.ofWords (wordsOf (((s.coreCtx e.core e.ctx).progress e.tl).slotA / 2 ^ 512) 8)).count ≤ ((s.coreCtx e.core e.ctx).progress e.tl).pos) :
    cpysRun q e s = s.done e 0 0 := by
  simp only [cpysRun, Nat.sub_eq_zero_of_le hn, copyElems, copyEnds, Nat.not_lt.2 hn, if_false, stOk]

section
variable {u : State} {e : EngWho} {g : Group} {src dst : Stencil} {fs fd : Slot} {i : Nat}

/-- One element gathered, with the flags of its conversion. -/
theorem gatherElems_one {t : Target} {b : Nat} (hi : i < dst.count) (ht : u.target g dst fd.efmt (dst.offset dst.ext false i) true = .ok (t, b)) :
    ∃ f : Nat → BitVec 5, gatherElems e g dst src fd fs t u i [] 0 1 = match u.elemLoad e g src fs (src.offset dst.ext true i) with
      | .fault s r => (s, [], 0, .fault r.kind)
      | .wait s => (s, [], 0, .wait)
      | .ok s v a => (s, [(b, (elemOfF32 fd (elemToF32 fs v).1).1, a)], f v, .all) := by
  refine ⟨fun v => 0 ||| (elemToF32 fs v).2 ||| (elemOfF32 fd (elemToF32 fs v).1).2, ?_⟩
  have hgo : decide (dst.count ≤ i) = false := decide_eq_false (by omega)
  rw [gatherElems]
  simp only [ht, hgo, ne_eq, not_true_eq_false, decide_false, List.isEmpty_nil, Bool.not_true, Bool.false_and, Bool.or_self, Bool.false_eq_true, if_false]
  cases u.elemLoad e g src fs (src.offset dst.ext true i) <;> rfl

variable (hpos : ((u.coreCtx e.core e.ctx).progress e.tl).pos = i) (hlast : dst.count = i + 1)
include hpos hlast

/-- The last element: where it goes breaks a rule. -/
theorem copyElems_badTarget {r : FRec} (ht : u.target g dst fd.efmt (dst.offset dst.ext false i) true = .error r) :
    copyElems u e g dst src fd fs 1 1 = (u, some r.kind) := by
  have hgo : (decide (i + 1 ≤ i) || decide (1 = 0)) = false := by simp
  rw [copyElems]
  simp only [hpos, hlast, hgo, ht, Bool.false_eq_true, if_false]

variable {t : Target} {b : Nat} (ht : u.target g dst fd.efmt (dst.offset dst.ext false i) true = .ok (t, b))
include ht

theorem copyElems_loadFaults {v : State} {r : FRec} (hload : u.elemLoad e g src fs (src.offset dst.ext true i) = .fault v r) :
    ∃ f, copyElems u e g dst src fd fs 1 1 = (v.modProgress e.core e.ctx e.tl f, some r.kind) := by
  have hgo : (decide (i + 1 ≤ i) || decide (1 = 0)) = false := by simp
  obtain ⟨f, hf⟩ := gatherElems_one (e := e) (src := src) (fs := fs) (show i < dst.count by omega) ht
  rw [hload] at hf
  have hput : v.putElems e (elemBits fd.efmt) t [] = .ok v 0 false := rfl
  refine ⟨fun p => { p with pos := p.pos + 0, flags := p.flags ||| cmdFlags 0 }, ?_⟩
  rw [copyElems]
  simp only [hpos, hgo, ht, hlast, Nat.add_sub_cancel_left, hf, hput, Bool.false_eq_true, if_false, List.length_nil]

variable {v : State} {x : Nat} {a : Bool} (hload : u.elemLoad e g src fs (src.offset dst.ext true i) = .ok v x a)
include hload

theorem copyElems_storeFaults {w : State} {r : FRec}
    (hput : v.putElems e (elemBits fd.efmt) t [(b, (elemOfF32 fd (elemToF32 fs x).1).1, a)] = .fault w r) :
    copyElems u e g dst src fd fs 1 1 = (w, some r.kind) := by
  have hgo : (decide (i + 1 ≤ i) || decide (1 = 0)) = false := by simp
  obtain ⟨f, hf⟩ := gatherElems_one (e := e) (src := src) (fs := fs) (show i < dst.count by omega) ht
  rw [hload] at hf
  rw [copyElems]
  simp only [hpos, hgo, ht, hlast, Nat.add_sub_cancel_left, hf, hput, Bool.false_eq_true, if_false]

theorem copyElems_stores {w : State} {b1 : Nat} {b2 : Bool}
    (hput : v.putElems e (elemBits fd.efmt) t [(b, (elemOfF32 fd (elemToF32 fs x).1).1, a)] = .ok w b1 b2) :
    ∃ f : Progress → Progress, copyElems u e g dst src fd fs 1 1 = (w.modProgress e.core e.ctx e.tl f, none) ∧ ∀ p, (f p).pos = p.pos + 1 := by
  have hgo : (decide (i + 1 ≤ i) || decide (1 = 0)) = false := by simp
  obtain ⟨f, hf⟩ := gatherElems_one (e := e) (src := src) (fs := fs) (show i < dst.count by omega) ht
  rw [hload] at hf
  refine ⟨fun p => { p with pos := p.pos + 1, flags := p.flags ||| cmdFlags (f x) }, ?_, fun _ => rfl⟩
  rw [copyElems]
  simp only [hpos, hgo, ht, hlast, Nat.add_sub_cancel_left, hf, hput, Bool.false_eq_true, if_false, List.length_singleton]
  rfl

end

section
variable {u : State} {q : Cmd} {e : EngWho}

/-- One element left, in a turn without a limit. -/
theorem cpysRun_last {p : Progress} (hp : (u.coreCtx e.core e.ctx).progress e.tl = p) (hunits : u.eng.units = 0)
    (hlast : (Stencil.ofWords (wordsOf (p.slotA / 2 ^ 512) 8)).count = p.pos + 1) : let src := Stencil.ofWords (wordsOf p.slotA 8)
    let dst := Stencil.ofWords (wordsOf (p.slotA / 2 ^ 512) 8)
    cpysRun q e u = copyEnds e (p.pos + 1) (copyElems u e q.asGroup dst src (u.slotOf q.launch dst.fsl) (u.slotOf q.launch src.fsl) 1 1) := by
  simp only [cpysRun, hp, hunits, hlast, Nat.add_sub_cancel_left, if_true]

end

section
variable {s u : State} {q : Cmd} {e : EngWho} {c : Cpys} (h : CopyHead s c.ctl q u e)
include h

theorem cpys_goesOn (hb : ((u.coreCtx e.core e.ctx).progress e.tl).begun = true) : exec (.cpys c) s = .next (cpysRun q e u) := by
  show execCpys c s = _
  simp only [execCpys, h.onStream_eq, hb, if_true]
  rfl

section
variable (hb : ((u.coreCtx e.core e.ctx).progress e.tl).begun = false)
include hb

theorem cpys_starts : exec (.cpys c) s = .next (match u.readStencil e c.sstn with
    | .fault s r => s.done e stFault r.kind.toNat
    | .wait s => s
    | .ok s a _ =>
      match s.readStencil e c.dstn with
      | .fault s r => s.done e stFault r.kind.toNat
      | .wait s => s
      | .ok s b _ =>
        if s.stencilBad e.ctx q.launch (Stencil.ofWords (wordsOf b 8)) (Stencil.ofWords (wordsOf b 8)) false ||
            s.stencilBad e.ctx q.launch (Stencil.ofWords (wordsOf a 8)) (Stencil.ofWords (wordsOf b 8)) true then s.badCmd e
        else cpysRun q e (s.modProgress e.core e.ctx e.tl fun p => { p with begun := true, slotA := a + 2 ^ 512 * b })) := by
  show execCpys c s = _
  simp only [execCpys, h.onStream_eq, hb, Bool.false_eq_true, if_false]
  rfl

theorem cpys_none {v w : State} {a b : Nat} {p p' : Bool} (ha : u.readStencil e c.sstn = .ok v a p) (hb' : v.readStencil e c.dstn = .ok w b p')
    (hdst : w.stencilBad e.ctx q.launch (Stencil.ofWords (wordsOf b 8)) (Stencil.ofWords (wordsOf b 8)) false = false)
    (hsrc : w.stencilBad e.ctx q.launch (Stencil.ofWords (wordsOf a 8)) (Stencil.ofWords (wordsOf b 8)) true = false)
    (hcount : (Stencil.ofWords (wordsOf b 8)).count = 0) : ∃ y : State, exec (.cpys c) s = .next (y.done e 0 0) ∧ y = { w with cores := y.cores } := by
  have hlt : a < 2 ^ (8 * 64) := engLoad_lt h.grp_none (by decide) ha
  have hhigh : (a + 2 ^ 512 * b) / 2 ^ 512 = b := by
    rw [Nat.add_mul_div_left _ _ (Nat.two_pow_pos 512), Nat.div_eq_of_lt hlt, Nat.zero_add]
  have hprog := modProgress_progress w e.core e.ctx h.tl_lt fun p => { p with begun := true, slotA := a + 2 ^ 512 * b }
  refine ⟨w.modProgress e.core e.ctx e.tl fun p => { p with begun := true, slotA := a + 2 ^ 512 * b }, ?_, rfl⟩
  rw [cpys_starts h hb, ha]
  simp only [hb', hdst, hsrc, Bool.or_self, Bool.false_eq_true, if_false]
  rw [cpysRun_ends]
  rw [hprog, hhigh, hcount]
  exact Nat.zero_le _

end

/-- The last element of a CPYS, by where it goes, what is loaded and what is stored. -/
theorem cpys_last (hunits : s.eng.units = 0) (hb : ((u.coreCtx e.core e.ctx).progress e.tl).begun = true) :
    let p := (u.coreCtx e.core e.ctx).progress e.tl
    let src := Stencil.ofWords (wordsOf p.slotA 8)
    let dst := Stencil.ofWords (wordsOf (p.slotA / 2 ^ 512) 8)
    let fs := u.slotOf q.launch src.fsl
    let fd := u.slotOf q.launch dst.fsl
    let o := dst.offset dst.ext false p.pos
    dst.count = p.pos + 1 →
    (∀ r, u.target q.asGroup dst fd.efmt o true = .error r → exec (.cpys c) s = .next (u.done e 2 r.kind.toNat)) ∧
    (∀ g b, u.target q.asGroup dst fd.efmt o true = .ok (g, b) →
      (∀ v r, u.elemLoad e q.asGroup src fs (src.offset dst.ext true p.pos) = .fault v r → ∃ y : State,
        exec (.cpys c) s = .next (y.done e 2 r.kind.toNat) ∧ y = { v with cores := y.cores } ∧ ∀ i, y.sp e.core i = v.sp e.core i) ∧
      (∀ v x a, u.elemLoad e q.asGroup src fs (src.offset dst.ext true p.pos) = .ok v x a →
        let code := (elemOfF32 fd (elemToF32 fs x).1).1
        (∀ w r, v.putElems e (elemBits fd.efmt) g [(b, code, a)] = .fault w r → exec (.cpys c) s = .next (w.done e 2 r.kind.toNat)) ∧
        ∀ w b1 b2, v.putElems e (elemBits fd.efmt) g [(b, code, a)] = .ok w b1 b2 →
          ((w.coreCtx e.core e.ctx).progress e.tl).pos = p.pos →
          ∃ y : State, exec (.cpys c) s = .next (y.done e 0 0) ∧ y = { w with cores := y.cores } ∧ ∀ k i, y.sp k i = w.sp k i)) := by
  intro p src dst fs fd o hlast
  have hrun := cpysRun_last (q := q) (e := e) (u := u) rfl (by rw [h.units_eq, hunits]) hlast
  rw [cpys_goesOn h hb, hrun]
  refine ⟨fun r ht => ?_, fun g b ht => ⟨fun v r hload => ?_, fun v x a hload => ⟨fun w r hput => ?_, fun w b1 b2 hput hw => ?_⟩⟩⟩
  · rw [copyElems_badTarget rfl hlast ht]
    rfl
  · obtain ⟨f, hf⟩ := copyElems_loadFaults rfl hlast ht hload
    rw [hf]
    exact ⟨_, rfl, rfl, fun i => modProgress_sp ..⟩
  · rw [copyElems_storeFaults rfl hlast ht hload hput]
    rfl
  · obtain ⟨f, hf, hpos⟩ := copyElems_stores rfl hlast ht hload hput
    have hprog := modProgress_progress w e.core e.ctx h.tl_lt f
    rw [hf]
    refine ⟨w.modProgress e.core e.ctx e.tl f, congrArg Host.Outcome.next (if_neg ?_), rfl, fun k i => modProgress_sp ..⟩
    rw [hprog, hpos, hw]
    exact Nat.lt_irrefl _

end

/-- Settles O45: words of the scratchpad copied one after another, an element gathered by its index, and the elements of two stencil records. -/
theorem copyCommands : Obligations.CopyCommands := by
  unfold Obligations.CopyCommands
  refine ⟨fun s u e q c h hfresh hssp hdsp hcore hunits => ⟨cpy_outside h hfresh hssp hdsp, fun hin hapart => ?_⟩,
    fun s u e q c h hfresh hdsp hcore hunits => ⟨cpfill_outside h hfresh hdsp, fun hin => ?_⟩,
    fun s u e q c h hfresh hcore hunits => ⟨cpyg_bad h,
      fun v x p hesz hn hbase hidx hdst hload => cpyg_loads h hfresh hcore hunits hesz hn hbase hidx hdst rfl hload,
      fun v r hesz hn hbase hidx hdst hload => cpyg_faults h hfresh hcore hunits hesz hn hbase hidx hdst rfl hload⟩,
    fun s u e q c h hb => ⟨fun v r ha => by rw [cpys_starts h hb, ha]; rfl, fun v ha => by rw [cpys_starts h hb, ha],
      fun v a p w b p' ha hb' => ⟨fun hbad => ?_, cpys_none h hb ha hb'⟩⟩,
    fun s u e q c h hunits => fun hb => cpys_last h hunits hb⟩
  · obtain ⟨v, hrun, hput⟩ := cpy_copies h hfresh hssp hdsp hcore hunits hin hapart
    refine ⟨v, hrun, hput.outside, fun i hi => ?_, fun i hi => hput.kept i (by omega), hput.cores⟩
    rw [hput.inside i (Nat.zero_le i) hi]
    exact ⟨rfl, rfl, rfl⟩
  · obtain ⟨v, hrun, hput⟩ := cpfill_fills h hfresh hdsp hcore hunits hin
    refine ⟨v, hrun, hput.outside, fun i hi => ?_, fun i hi => hput.kept i (by omega)⟩
    rw [hput.inside i (Nat.zero_le i) hi]
    exact ⟨rfl, rfl⟩
  · rw [cpys_starts h hb, ha]
    simp only [hb']
    exact congrArg Host.Outcome.next (if_pos ((Bool.or_eq_true _ _).mpr hbad))

end Sys2Proof.Machine
end

section
/-! SUPPORT. The statements about trap entry and SPAWN fail of a state whose port shows a slot empty that a group beside it holds: the buffer of that
group is sent in place of one of the port's. -/

namespace Sys2Proof.Machine

/-! ### The page at VA 0x40_0000_0000 -/

/-- Of the pages of context 0: D, A, X, W, R and V set, WB, at PA 2^20. -/
def pageEntry : TlbEntry := ⟨0, 0x4000000000 / 2 ^ 15, 2, 0x10009F⟩

/-- An address of the page. -/
def inMappedPage (a : Word) : Bool := canonical a && !inCodeWindow a && decide (va51 a / 2 ^ 15 = 0x4000000000 / 2 ^ 15)

theorem inMappedPage_parts {a : Word} (ha : inMappedPage a = true) : canonical a = true ∧ inCodeWindow a = false ∧ va51 a / 2 ^ 15 = 0x4000000000 / 2 ^ 15 := by
  simpa only [inMappedPage, Bool.and_eq_true, Bool.not_eq_true', decide_eq_true_eq, and_assoc] using ha

/-- Where it lies. -/
def mappedPa (a : Word) : Nat := 2 ^ 20 + va51 a % 2 ^ 15

theorem mappedPa_lt (a : Word) : mappedPa a < 2 ^ 27 := by
  unfold mappedPa
  omega

/-- The translation stands in the TLB of core 0; on a part with extents, a live one that context 0 owns covers the page. -/
structure State.MapsPage (s : State) : Prop where
  mgmt : s.mgmt.head? = some (0xB0000, 0x4002)
  root : s.reg (Reg.trans 0 0) = 1
  stale : s.mmu.stale = []
  gone : s.cxl.gone = []
  tlb : (s.core 0).tlb = [pageEntry]

/-! The first media of either fitting -/

theorem populated_low {pa : Nat} (h : pa < 2 ^ 27) : populated pa = true := by
  have hmedia : decide (pa < Config.mediaBytes) = true := decide_eq_true (Nat.lt_of_lt_of_le h (Nat.le_add_right _ _))
  have hl : decide (pa < 0x30000000000) = true := decide_eq_true (by omega)
  have hh : decide (pa < 0x6000000000) = true := decide_eq_true (by omega)
  have hpa : decide (pa < 2 ^ 52) = true := decide_eq_true (by omega)
  unfold populated
  rw [hmedia, hl, hh, hpa]
  cases Config.fittingL <;> rfl

theorem secondTier_low {pa : Nat} (h : pa < 2 ^ 27) : secondTier pa = false := by
  rw [secondTier, decide_eq_false (by omega), Bool.false_and]

section
variable {s : State} (h : s.MapsPage)
include h

theorem State.MapsPage.of_keeps {t : State} (k : KeepsControl s t) : t.MapsPage where
  mgmt := (congrArg List.head? k.mgmt).trans h.mgmt
  root := (congrArg (fun m => Tab.get (regReset (Reg.trans 0 0)) m (Reg.trans 0 0)) k.mgmt).trans h.root
  stale := k.stale.trans h.stale
  gone := (congrArg Cxl.gone k.cxl).trans h.gone
  tlb := (k.tlb 0).trans h.tlb

theorem State.MapsPage.extentFault_none {pa : Nat} (hpa : pa < 2 ^ 27) : s.extentFault 0 pa = none := by
  obtain ⟨r, hr⟩ : ∃ r, s.mgmt = (0xB0000, 0x4002) :: r := List.head?_eq_some_iff.1 h.mgmt
  have hext : s.extentOf pa = some (2, 0) := by
    simp only [State.extentOf, hr, Nat.div_eq_of_lt hpa, List.find?_cons]
    rfl
  simp [State.extentFault, hext]

theorem State.MapsPage.ten_true (a : Word) : s.ten 0 a = true := by
  have hbit : bit (s.reg (Reg.trans 0 0)) 0 = true := by rw [h.root]; rfl
  simp only [State.ten, State.transWord, h.stale, Tab.get]
  exact hbit

theorem State.MapsPage.find {a : Word} (ha : inMappedPage a = true) : (s.core 0).tlb.find? (fun t => t.covers 0 a) = some pageEntry := by
  obtain ⟨-, -, hpage⟩ := inMappedPage_parts ha
  simp only [h.tlb, List.find?_cons, TlbEntry.covers, pageEntry, pageBits, hpage]
  rfl

variable {who : Waiter} (hw : who.core? = some 0) {a : Word} (ha : inMappedPage a = true)
include hw ha

theorem State.MapsPage.tlb_eq : s.tlb? who 0 a = some pageEntry := by
  simp only [State.tlb?, hw, h.find ha]

theorem State.MapsPage.translate_eq (k : AccKind) : s.translate who 0 a k = .ok (mappedPa a) .wb false := by
  obtain ⟨hc, hcode, -⟩ := inMappedPage_parts ha
  have hpa := mappedPa_lt a
  have hat : Pte.pfn pageEntry.leaf + va51 a % 2 ^ pageBits 2 = mappedPa a := by
    rw [show Pte.pfn pageEntry.leaf = 2 ^ 20 by decide +kernel]
    rfl
  have hleaf : s.checkLeaf 0 a k 2 pageEntry.leaf = .ok (mappedPa a) .wb false := by
    have hlost : s.lost (mappedPa a) = false := by rw [State.lost, secondTier_low hpa, Bool.false_and]
    have hmt : Pte.mt pageEntry.leaf = .wb := by decide +kernel
    have hwr : Pte.w pageEntry.leaf = true := by decide +kernel
    have hx : Pte.x pageEntry.leaf = true := by decide +kernel
    have hco : Pte.co pageEntry.leaf = false := by decide +kernel
    simp only [State.checkLeaf, hat, hmt, hwr, hx, hco, populated_low hpa, h.extentFault_none hpa, hlost, h.gone]
    simp
  have hsi : Pte.si pageEntry.leaf = false := by decide +kernel
  have hl : s.leafOf who 0 a = some (2, pageEntry.leaf) := by rw [State.leafOf, h.tlb_eq hw ha]; rfl
  simp only [State.translate, hc, hcode, h.ten_true a, hl, hsi, hleaf]
  rfl

/-- A use of the translation leaves it the most recent, as it was. -/
theorem State.MapsPage.walkNow_eq : s.walkNow who 0 a = s.setCore 0 (s.core 0) := by
  obtain ⟨hc, hcode, -⟩ := inMappedPage_parts ha
  have hsame : { s.core 0 with tlb := addEntry pageEntry (s.core 0).tlb } = s.core 0 := by
    rw [h.tlb, show addEntry pageEntry [pageEntry] = [pageEntry] by decide +kernel, ← h.tlb]
  have hnote (t : State) : t.noteUse pageEntry.ctx (if pageEntry.level = 2 then pageEntry.page else 0) (if pageEntry.level = 2 then pageEntry.leaf else 0) = t :=
    noteUse_first (secondTier_low (by decide +kernel))
  have htouch : s.touchTlb who 0 a = s.setCore 0 (s.core 0) := by
    simp only [State.touchTlb, hw, h.find ha, hnote, hsame]
  simp only [State.walkNow, hc, hcode, h.ten_true a, h.tlb_eq hw ha, htouch]
  rfl

theorem State.MapsPage.walkNow_keeps : KeepsControl s (s.walkNow who 0 a) := by
  rw [h.walkNow_eq hw ha]
  exact KeepsControl.of_core s 0 _ rfl

/-- D is set in it already. -/
theorem State.MapsPage.markDirty_eq : s.markDirty who 0 a = s := by
  have hl : s.leafNow who 0 a = some (2, pageEntry.leaf) := by
    rw [State.leafNow, State.leafOf, h.tlb_eq hw ha]
    rfl
  have hd : Pte.d pageEntry.leaf = true := by decide +kernel
  simp only [State.markDirty, hl, hd, Bool.true_or, if_true]

/-- A line of a frame is written there. -/
theorem State.MapsPage.writeLine_ok (v : Nat) : ∃ u, s.writeLine who 0 a v = .ok u ∧ KeepsControl s u.1 := by
  have hk := h.walkNow_keeps hw ha
  have hm := h.of_keeps hk
  have hpass := passNow_keeps (s.walkNow who 0 a) who (mappedPa a) true
  simp only [State.writeLine, hm.translate_eq hw ha, secondTier_low (mappedPa_lt a), (hm.of_keeps hpass).markDirty_eq hw ha, Bool.false_and,
    Bool.false_eq_true, if_false]
  split
  · exact ⟨_, rfl, hk.trans (shutBy_keeps ..)⟩
  · exact ⟨_, rfl, (hk.trans hpass).trans (writeAs_keeps ..)⟩

end

/-- The lines of a frame are written one after another. -/
theorem State.MapsPage.writeLines_ok {who : Waiter} (hw : who.core? = some 0) (n : Nat) {s : State} (h : s.MapsPage) (a : Word) (ws : List Word)
    (ts : BitVec 48) (ha : ∀ i, i < n → inMappedPage (a + BitVec.ofNat 64 (128 * i)) = true) :
    ∃ u, s.writeLines who 0 a ws ts n = .ok u ∧ KeepsControl s u.1 := by
  induction n generalizing s a ws ts with
  | zero => exact ⟨(s, ts), rfl, .rfl s⟩
  | succ n ih =>
    have h0 : inMappedPage a = true := by simpa using ha 0 (Nat.succ_pos n)
    obtain ⟨u, hu, hk⟩ := h.writeLine_ok hw h0 (lineOfWords (ws.take 16))
    obtain ⟨v, hv, hk'⟩ := ih (h.of_keeps hk) (a + 128) (ws.drop 16) (max48 ts u.2) fun i hi => by
      have hnext := ha (i + 1) (by omega)
      rwa [show 128 * (i + 1) = 128 + 128 * i by omega, BitVec.ofNat_add, ← BitVec.add_assoc] at hnext
    refine ⟨v, ?_, hk.trans hk'⟩
    simp only [State.writeLines, hu]
    exact hv

/-! ### A buffer in the slot of a group that is gone (O30, O37) -/

/-- The buffer of a group that is not at the port is sent; it holds no access. -/
theorem sendWc_parked {s : State} {c : BitVec 10} {n : BitVec 3} {g : Group} {b : WcBuf} (hcur : s.cur.at c n = false) (hp : s.parked = [g])
    (hg : g.at c n = true) (hb : g.wc = some b) (hids : b.ids = []) (hfar : secondTier (128 * b.line) = false) : s.sendWc c n =
      ({ s with parked := [{ g with wc := none }], seqCtr := s.seqCtr + 1 } : State).send ⟨.merge b.data b.mask 0 [] true, b.line, 15, c, n, s.seqCtr, 0, 0, false⟩ := by
  have hgroup : s.group? c n = some g := by
    simp [State.group?, hcur, hp, hg]
  have hmod : s.modGroup c n (fun g => { g with wc := none }) = { s with parked := [{ g with wc := none }] } := by
    rw [State.modGroup, hcur, hp, List.map_cons, if_pos hg]
    rfl
  simp only [State.sendWc, hgroup, hb, hmod, hfar, hids, State.stamp, Bool.false_eq_true, if_false]

/-- No group beside the port has a buffer. -/
def State.ParkedSent (s : State) : Prop := ∀ x ∈ s.parked, x.wc = none

theorem raisePts_parkedSent {s : State} (h : s.ParkedSent) (c : BitVec 10) (n : BitVec 3) (t : BitVec 48) : (s.raisePts c n t).ParkedSent := by
  have hmod : (s.modGroup c n fun g => { g with pts := max48 g.pts t }).ParkedSent := by
    unfold State.modGroup
    split
    · exact h
    · intro x hx
      obtain ⟨y, hy, rfl⟩ := List.mem_map.1 hx
      split
      · exact h y hy
      · exact h y hy
  exact hmod

theorem letGo_parked (s : State) (c : BitVec 10) (n : BitVec 3) : (s.letGo c n).parked = s.parked := by
  simp only [State.letGo]
  split <;> rfl

/-- The state that a trap is taken in: it is counted, and the buffer is sent. -/
def State.trapCounted (s : State) (kind : BitVec 8) : State :=
  let u := s.countTrap kind
  (u.setCur u.cur.failRegion).sendWc u.cur.core u.cur.slot

/-- A trap that is taken leaves the groups beside the port as its frame and its clock leave them. -/
theorem trapAt_parked {s u v : State} {kind : BitVec 8} {pc : Word} {cpos : BitVec 4} {cls : TrapClass} {recs : List (BitVec 7 × FRec)} {ts : BitVec 48}
    (hu : s.trapCounted kind = u) (hends : u.trapEnds u.cur kind = false) (hheld : u.frameHeld u.cur = false) (hloads : u.cur.frameLoads = false)
    (hw : u.writeLines u.cur.waiter u.cur.ctx (u.frameAddr u.cur) (frameWords u.cur u.timebase pc cpos.toNat cls.code kind recs) 0 96 = .ok (v, ts)) :
    (s.trapAt pc cpos cls kind recs).parked = (v.raisePts u.cur.core u.cur.slot ts).parked := by
  have hstate : ((s.countTrap kind).setCur (s.countTrap kind).cur.failRegion).sendWc (s.countTrap kind).cur.core (s.countTrap kind).cur.slot = u := hu
  simp only [State.trapAt, hstate, hends, hheld, hloads, hw, Bool.or_self, Bool.false_eq_true, if_false]
  rw [State.setCur_parked, letGo_parked, (passFilter_keeps ..).parked]

/-! ### TRAP where the port shows no group (R112)

Neither statement asks that the group at the port holds its slot (`life` other than `none`); what acts on the group of a slot then acts on another. -/

/-- Slot 0 of core 0 has a group, beside the port, with a buffer; the port shows the slot empty. Launch 0 has a handler, and the fault area of
context 0 stands in the mapped page. -/
def slotTwice : State :=
  { State.reset with
    cur := { Group.blank with dline := 100 }
    parked := [{ Group.blank with life := .running, wc := some ⟨0, 0, 0, []⟩ }]
    mgmt := [(0xB0000, 0x4002), (Reg.trans 0 0, 1), (Reg.contain 0 0, 0x4000000001)]
    cores := [(0, { Core.idle with tlb := [pageEntry] })]
    sch := { State.reset.sch with launches := [(0, { Launch.none with groups := 2, words := [0, 0, 0, 0, 0, 0, 0x2000] })] } }

/-- TRAP, always executed. -/
def trapAlways : I16 := ⟨⟨0, false, 0, 7, 7⟩, .absent, .absent, .absent, 5⟩

/-- TRAP is counted. -/
def slotTwiceCounted : State := (slotTwice.countTrap 0x10).setCur slotTwice.cur.failRegion

/-- The trap is counted and the buffer sent. -/
def slotTwiceSent : State := slotTwice.trapCounted 0x10

theorem slotTwiceSent_eq : slotTwiceSent =
    ({ slotTwiceCounted with parked := [{ Group.blank with life := .running }], seqCtr := 2 } : State).send ⟨.merge 0 0 0 [] true, 0, 15, 0, 0, 1, 0, 0, false⟩ :=
  sendWc_parked (s := slotTwiceCounted) (c := 0) (n := 0) (g := { Group.blank with life := .running, wc := some ⟨0, 0, 0, []⟩ }) (by decide +kernel) rfl
    (by decide +kernel) rfl rfl (secondTier_low (by decide))

theorem slotTwiceCounted_maps : slotTwiceCounted.MapsPage := ⟨rfl, by decide +kernel, rfl, rfl, rfl⟩

theorem slotTwiceSent_maps : slotTwiceSent.MapsPage := by
  rw [slotTwiceSent_eq]
  exact ⟨rfl, by decide +kernel, rfl, rfl, rfl⟩

theorem frame_mapped (i : Nat) (hi : i < 96) : inMappedPage (0x4000000000 + BitVec.ofNat 64 (128 * i)) = true := by
  have hall : ∀ i : Fin 96, inMappedPage (0x4000000000 + BitVec.ofNat 64 (128 * i.val)) = true := by decide +kernel
  exact hall ⟨i, hi⟩

theorem slotTwiceCounted_notHeld : slotTwiceCounted.frameHeld slotTwiceCounted.cur = false := by
  have hx := slotTwiceCounted_maps.translate_eq (who := slotTwiceCounted.cur.waiter) (a := 0x4000000000) rfl (by decide +kernel) .engine
  have hf : slotTwiceCounted.frameAddr slotTwiceCounted.cur = 0x4000000000 := by decide +kernel
  simp only [State.frameHeld, hf, show slotTwiceCounted.cur.ctx = 0 from rfl, hx]
  decide +kernel

theorem slotTwiceSent_notHeld : slotTwiceSent.frameHeld slotTwiceSent.cur = false := by
  have hx := slotTwiceSent_maps.translate_eq (who := slotTwiceSent.cur.waiter) (a := 0x4000000000) (by decide +kernel) (by decide +kernel) .engine
  have hf : slotTwiceSent.frameAddr slotTwiceSent.cur = 0x4000000000 := by decide +kernel
  simp only [State.frameHeld, hf, show slotTwiceSent.cur.ctx = 0 by decide +kernel, hx]
  decide +kernel

/-- Its trap is taken, and the buffer beside the port has been sent for it. -/
theorem slotTwice_traps : ∃ t, exec (.trap trapAlways) slotTwice = .next t ∧ t.ParkedSent := by
  obtain ⟨v, hv, hk⟩ := slotTwiceSent_maps.writeLines_ok (who := slotTwiceSent.cur.waiter) (by decide +kernel) 96 0x4000000000
    (frameWords slotTwiceSent.cur slotTwiceSent.timebase slotTwice.cur.pc slotTwice.cur.cpos.toNat 2 0x10 []) 0 frame_mapped
  have hsent : v.1.ParkedSent := by
    intro x hx
    rw [hk.parked, slotTwiceSent_eq] at hx
    rw [List.mem_singleton.1 hx]
    rfl
  have hexec : exec (.trap trapAlways) slotTwice = .next (slotTwice.trap .group 0x10 []) := by
    show execTrap trapAlways slotTwice = _
    rw [execTrap, issue_of_issues (by decide +kernel)]
  have hframe : slotTwiceSent.frameAddr slotTwiceSent.cur = 0x4000000000 := by decide +kernel
  have hctx : slotTwiceSent.cur.ctx = 0 := by decide +kernel
  refine ⟨_, hexec, fun x hx => ?_⟩
  rw [State.trap, trapAt_parked (u := slotTwiceSent) (v := v.1) (ts := v.2) rfl (by decide +kernel) slotTwiceSent_notHeld (by decide +kernel)
    (by rw [hframe, hctx]; exact hv)] at hx
  exact raisePts_parkedSent hsent _ _ _ x hx

/-- Refutes O30: where the port shows a slot empty that a group beside it holds, the trap sends that group's buffer, and the state after is not the one
the frame was written in. -/
theorem not_trapEntry : ¬ Obligations.TrapEntry := by
  unfold Obligations.TrapEntry
  rintro ⟨h, -⟩
  obtain ⟨u, hu, hk⟩ := slotTwiceCounted_maps.writeLines_ok (who := slotTwice.cur.waiter) rfl 96 0x4000000000
    (frameWords slotTwiceCounted.cur slotTwice.timebase slotTwice.cur.pc slotTwice.cur.cpos.toNat 2 0x10 []) 0 frame_mapped
  have hframe : slotTwice.frameAddr slotTwice.cur = 0x4000000000 := by decide +kernel
  obtain ⟨t, hexec, hout, -⟩ := h slotTwice u.1 trapAlways (by decide +kernel) rfl rfl (by decide +kernel) (by decide +kernel) slotTwiceCounted_notHeld rfl u.2
    (by rw [hframe]; exact hu)
  obtain ⟨t', hexec', hsent⟩ := slotTwice_traps
  obtain rfl : t' = t := Host.Outcome.next.inj (hexec'.symm.trans hexec)
  have hparked : t'.parked = slotTwice.parked := by
    rw [hout]
    exact hk.parked
  have hwc := hsent { Group.blank with life := .running, wc := some ⟨0, 0, 0, []⟩ } (by rw [hparked]; exact List.mem_singleton_self _)
  cases hwc

/-! ### Words of a record written in the mapped page -/

section
variable {s : State} (h : s.MapsPage) {who : Waiter} (hw : who.core? = some 0) {a : Word} (ha : inMappedPage a = true)
include h hw ha

theorem State.MapsPage.translateN_eq (n : Nat) (k : AccKind) : s.translateN who 0 a n k = .ok (mappedPa a) .wb false := by
  have hpast : s.pastCode (mappedPa a) n = false := by
    have := mappedPa_lt a
    rw [State.pastCode, decide_eq_false (by omega), Bool.false_and, Bool.false_and]
  simp only [State.translateN, h.translate_eq hw ha, hpast, Bool.false_eq_true, if_false]

theorem State.MapsPage.writeVa_ok {n : Nat} (hreq : s.mmu.reqs = []) (hheld : (s.setCore 0 (s.core 0)).heldAt who (mappedPa a) n true false = false) (v : Nat) :
    s.writeVa who 0 a n v false = .ok (((s.setCore 0 (s.core 0)).passNow who (mappedPa a) true).writeAs .wb false (mappedPa a / 128)
      (BitVec.ofNat 1024 (v * 2 ^ (8 * (mappedPa a % 128)))) (byteMask (mappedPa a % 128) n) 0) := by
  have hm : (s.setCore 0 (s.core 0)).MapsPage := h.of_keeps (KeepsControl.of_core s 0 _ rfl)
  have hawaits : (s.setCore 0 (s.core 0)).awaits who = false := by
    show s.mmu.reqs.any _ = false
    rw [hreq]
    rfl
  simp only [State.writeVa, h.walkNow_eq hw ha, State.reach, hawaits, hm.translateN_eq hw ha, show AccKind.engine.writes = true from rfl, hheld,
    secondTier_low (mappedPa_lt a), (hm.of_keeps (passNow_keeps ..)).markDirty_eq hw ha, Bool.false_and, Bool.false_eq_true, if_false]

theorem State.MapsPage.writeVa_held {n : Nat} (hheld : (s.setCore 0 (s.core 0)).heldAt who (mappedPa a) n true false = true) (v : Nat) :
    s.writeVa who 0 a n v false = .error (.walk a .engine) := by
  have hm : (s.setCore 0 (s.core 0)).MapsPage := h.of_keeps (KeepsControl.of_core s 0 _ rfl)
  simp only [State.writeVa, h.walkNow_eq hw ha, State.reach, hm.translateN_eq hw ha, show AccKind.engine.writes = true from rfl, hheld, if_true, ite_self]

end

/-- The words can be written one after another. -/
def admitsWords (who : Waiter) (s : State) (a : Word) : List Word → Bool
  | [] => true
  | w :: r => inMappedPage a && !(s.setCore 0 (s.core 0)).heldAt who (mappedPa a) 8 true false &&
    admitsWords who (((s.setCore 0 (s.core 0)).passNow who (mappedPa a) true).writeAs .wb false (mappedPa a / 128)
      (BitVec.ofNat 1024 (w.toNat * 2 ^ (8 * (mappedPa a % 128)))) (byteMask (mappedPa a % 128) 8) 0).1 (a + 8) r

theorem State.MapsPage.writeVaWords_ok {who : Waiter} (hw : who.core? = some 0) (ws : List Word) {s : State} (h : s.MapsPage) (hreq : s.mmu.reqs = []) (a : Word)
    (hall : admitsWords who s a ws = true) : ∃ v, s.writeVaWords who 0 a ws = .ok v ∧ KeepsControl s v := by
  induction ws generalizing s a with
  | nil => exact ⟨s, rfl, .rfl s⟩
  | cons w r ih =>
    simp only [admitsWords, Bool.and_eq_true, Bool.not_eq_true'] at hall
    obtain ⟨⟨ha, hheld⟩, hrest⟩ := hall
    have hk := ((KeepsControl.of_core s 0 (s.core 0) rfl).trans (passNow_keeps _ who (mappedPa a) true)).trans
      (writeAs_keeps _ .wb false (mappedPa a / 128) (BitVec.ofNat 1024 (w.toNat * 2 ^ (8 * (mappedPa a % 128)))) (byteMask (mappedPa a % 128) 8) 0)
    obtain ⟨v, hv, hkv⟩ := ih (h.of_keeps hk) (hk.reqs.trans hreq) (a + 8) hrest
    refine ⟨v, ?_, hk.trans hkv⟩
    simp only [State.writeVaWords, h.writeVa_ok hw ha hreq hheld]
    exact hv

/-! ### SPAWN where the port shows no group (R383) -/

/-- As in `slotTwice`; task queue 2 has room in the mapped page, of which a skim is held from the stamp that the sent buffer takes. -/
def spawnTwice : State :=
  { slotTwice with
    cur := ({ Group.blank with dline := 100 } : Group).swrite 8 2
    coh := { State.reset.coh with l2 := [⟨1, 0x2800000000000000, 0, 0, [], false⟩, ⟨8199, 0, 0, 0, [], false⟩] }
    mmu := { State.reset.mmu with skims := [⟨0, 0, .hold, 2 ^ 20, 0, 0, 0, 0, false, 2⟩] }
    sch := { slotTwice.sch with taskQs := [⟨0, 2, 0x4000000000, 4, 0, 0, 15⟩] } }

/-- SPAWN to the queue that s8 names, its continuation not held back. -/
def spawnAlways : I24 := ⟨⟨0, false, 0, 7, 7⟩, .reg 8, .pos 0, 0⟩

def spawnRecord : List Word := taskRecord (immTarget spawnTwice.cur 0) 0 0 1 0 0x3FF 0 0 0 0 0 0 0

theorem spawnTwice_maps : (spawnTwice.raiseClocks spawnTwice.cur 3).MapsPage := ⟨rfl, by decide +kernel, rfl, rfl, by decide +kernel⟩

theorem spawnTwice_writes : ∃ v, (spawnTwice.raiseClocks spawnTwice.cur 3).writeVaWords (.group 0 0) 0 (0x4000000000 + 64 * 15) spawnRecord = .ok v ∧
    KeepsControl (spawnTwice.raiseClocks spawnTwice.cur 3) v :=
  spawnTwice_maps.writeVaWords_ok rfl _ rfl _ (by decide +kernel)

/-- The buffer sent, and the clocks of the scopes raised. -/
def spawnReleased : State := (spawnTwice.sendWc 0 0).raiseClocks (spawnTwice.sendWc 0 0).cur 3

theorem spawnTwice_sent : spawnTwice.sendWc 0 0 =
    ({ spawnTwice with parked := [{ Group.blank with life := .running }], seqCtr := 2 } : State).send ⟨.merge 0 0 0 [] true, 0, 15, 0, 0, 1, 0, 0, false⟩ :=
  sendWc_parked (s := spawnTwice) (c := 0) (n := 0) (g := { Group.blank with life := .running, wc := some ⟨0, 0, 0, []⟩ }) (by decide +kernel) rfl
    (by decide +kernel) rfl rfl (secondTier_low (by decide))

theorem spawnReleased_maps : spawnReleased.MapsPage := by
  rw [spawnReleased, spawnTwice_sent]
  exact ⟨rfl, by decide +kernel, rfl, rfl, by decide +kernel⟩

/-- The record is not written: its page is held. -/
theorem spawnReleased_held : spawnReleased.writeVaWords (.group 0 0) 0 (0x4000000000 + 64 * 15) spawnRecord = .error (.walk (0x4000000000 + 64 * 15) .engine) := by
  have hhead : spawnReleased.writeVa (.group 0 0) 0 (0x4000000000 + 64 * 15) 8 (spawnRecord.headD 0).toNat false = .error (.walk (0x4000000000 + 64 * 15) .engine) :=
    spawnReleased_maps.writeVa_held rfl (by decide +kernel) (by decide +kernel) _
  have hrecord : spawnRecord = spawnRecord.headD 0 :: spawnRecord.tail := rfl
  rw [hrecord]
  simp only [State.writeVaWords, hhead]

theorem spawnReleased_stalls : spawnReleased.stall (.group 0 0) 0 (0x4000000000 + 64 * 15) (.walk (0x4000000000 + 64 * 15) .engine) 64 = .wait spawnReleased := by
  have hnot : spawnReleased.unresolvableX (.group 0 0) 0 (.walk (0x4000000000 + 64 * 15) .engine) = false := by decide +kernel
  have hx := spawnReleased_maps.translate_eq (who := .group 0 0) (a := 0x4000000000 + 64 * 15) rfl (by decide +kernel) .engine
  have hhold : spawnReleased.mustWait (mappedPa (0x4000000000 + 64 * 15)) 64 false = true := by decide +kernel
  have hlow := mappedPa_lt (0x4000000000 + 64 * 15)
  have hask : spawnReleased.askAt (.group 0 0) (mappedPa (0x4000000000 + 64 * 15)) 64 true false = spawnReleased := by
    rw [State.askAt, if_neg (by omega), if_neg (by omega), State.askNow, if_pos hhold]
  simp only [State.stall, hnot, State.awaitX, State.awaitPage, hx, show AccKind.engine.writes = true from rfl, hask, Bool.false_eq_true, if_false]

theorem spawnReleased_appends : spawnReleased.appendTask (.group 0 0) 0 2 spawnRecord 0 = .wait spawnReleased := by
  have hq : spawnReleased.taskQ? 0 2 = some ⟨0, 2, 0x4000000000, 4, 0, 0, 15⟩ := by decide +kernel
  have hroom : (⟨0, 2, 0x4000000000, 4, 0, 0, 15⟩ : TaskQ).full = false := by decide
  have hslot : (⟨0, 2, 0x4000000000, 4, 0, 0, 15⟩ : TaskQ).slotVa 15 = 0x4000000000 + 64 * 15 := by decide
  simp only [State.appendTask, hq, hroom, hslot, spawnReleased_held, spawnReleased_stalls, Bool.false_eq_true, if_false]

/-- The group waits for the page, with nothing appended. -/
theorem spawnTwice_pauses : exec (.spawn spawnAlways) spawnTwice = .next spawnReleased.pause := by
  have hbits : bits (spawnTwice.cur.sread (regOf spawnAlways.d)) 63 17 = 0 := by decide +kernel
  have hfault : spawnTwice.jcaFault (spawnTwice.cur.srcS spawnAlways.a) = none := by decide +kernel
  have hqueue : BitVec.ofNat 16 (bits (spawnTwice.cur.sread (regOf spawnAlways.d)) 15 0) = 2 := by decide +kernel
  have hjca : (spawnTwice.cur.srcS spawnAlways.a).toNat = 0 := by decide +kernel
  have hentry : spawnTwice.taskEntryOk spawnTwice.cur.ctx 2 = true := by decide +kernel
  have hrecord : taskRecord (spawnTwice.cur.target spawnAlways.imm) (spawnTwice.cur.sread 59) 0 1 0
      (if bit (spawnTwice.cur.sread (regOf spawnAlways.d)) 16 = true then spawnTwice.cur.core.toNat else 0x3FF) 0 0
      (spawnTwice.cur.sread (regOf spawnAlways.d + 1)) (spawnTwice.cur.sread (regOf spawnAlways.d + 2))
      (spawnTwice.cur.sread (regOf spawnAlways.d + 3)) (spawnTwice.launch spawnTwice.cur.launch).lseq
      (spawnTwice.launch spawnTwice.cur.launch).lqh = spawnRecord := by decide +kernel
  have hreleased : (spawnTwice.sendWc spawnTwice.cur.core spawnTwice.cur.slot).cur.released 3 = true := by decide +kernel
  have happend : ((spawnTwice.sendWc spawnTwice.cur.core spawnTwice.cur.slot).raiseClocks
      (spawnTwice.sendWc spawnTwice.cur.core spawnTwice.cur.slot).cur 3).appendTask (.group spawnTwice.cur.core spawnTwice.cur.slot)
      spawnTwice.cur.ctx 2 spawnRecord 0 = .wait spawnReleased := spawnReleased_appends
  show execSpawn spawnAlways spawnTwice = _
  rw [execSpawn, issue_of_issues (by decide +kernel)]
  simp only [hbits, hfault, hqueue, hentry, hjca, hrecord, State.withRelease, hreleased, happend, ne_eq, not_true_eq_false, if_false, if_true, Bool.not_true,
    Bool.false_eq_true]

/-- Refutes O37: where the port shows a slot empty that a group beside it holds, SPAWN sends that group's buffer, and the stamp this takes holds
the page of the ring: no record is appended. -/
theorem not_spawnAndSystem : ¬ Obligations.SpawnAndSystem := by
  unfold Obligations.SpawnAndSystem
  rintro ⟨h, -⟩
  obtain ⟨v, hv, hk⟩ := spawnTwice_writes
  obtain ⟨happend, -⟩ := h spawnTwice spawnAlways 8 (by decide +kernel) rfl (by decide +kernel) (by decide +kernel) rfl (by decide +kernel)
  obtain ⟨y, t, r, hexec, hret, -, htasks, -⟩ := (happend (by decide +kernel)).2 ⟨0, 2, 0x4000000000, 4, 0, 0, 15⟩ _ v
    (by decide +kernel) (by decide +kernel) rfl hv
  obtain rfl : spawnReleased.pause = t := Host.Outcome.next.inj (spawnTwice_pauses.symm.trans hexec)
  have hsch : spawnReleased.pause.sch.tasks = y.sch.tasks := by rw [hret.outside]
  have hnone : spawnReleased.pause.sch.tasks = [] := by decide +kernel
  rw [htasks, hnone] at hsch
  exact absurd hsch.symm (List.append_ne_nil_of_right_ne_nil _ (List.cons_ne_nil _ _))

end Sys2Proof.Machine
end

section
/-! SUPPORT. The checks at issue (R258): every instruction word goes through them, and what each leaves. -/

namespace Sys2Proof.Machine

/-! ### Every instruction word issues through the checks -/

theorem exec_eq_issue {i : Instr} {o : OpInfo} (h : i.info = some o) (hown : ownChecks i = false) (s : State) :
    ∃ body, exec i s = .next (issue i s body) := by
  cases i <;> cases h
  case cvt | cvti | qdec | qenc | licvt | sweep | qput | qget | qtry | yield | phase => exact nomatch hown
  all_goals exact ⟨_, rfl⟩

theorem convert1_eq_issueChecked (i : Instr) (w : RR) (s : State) (accept : Slot → Slot → Bool) (conv : Slot → Slot → Nat → Nat × BitVec 5) :
    ∃ bad body, convert1 i w s accept conv = issueChecked i s bad body := by
  unfold convert1
  exact ⟨_, _, rfl⟩

/-- With an operand check of its own, `bad` where it fails (log 41). -/
theorem exec_eq_issueChecked {i : Instr} (hown : ownChecks i = true) (s : State) :
    ∃ bad body, exec i s = .next (issueChecked i s bad body) := by
  cases i
  case cvt w | cvti w | qenc w | licvt w =>
    obtain ⟨bad, body, h⟩ := convert1_eq_issueChecked _ w s _ _
    exact ⟨bad, body, congrArg Host.Outcome.next h⟩
  case qdec | sweep | qput | qget | qtry | yield | phase => exact ⟨_, _, rfl⟩
  all_goals exact nomatch hown

/-! ### A false guard (R250) -/

/-- What a move of the group at the port leaves does not depend on how its region is tracked. -/
theorem Moves.of_region {s t : State} {c : Ctl} {cost : Nat} {leaves : Bool} {g h : Group} (m : Moves s t c cost leaves g)
    (hg : { g with region := h.region } = h) (hr : h.region.isSome = g.region.isSome) : Moves s t c cost leaves h :=
  ⟨m.outside, m.group.trans (by rw [← hg]), m.region.trans hr.symm, m.port, m.others⟩

/-- The group past its instruction, its deadline not counted (R138, R174, R175). -/
theorem moves_advance (s : State) (c : Ctl) (cost : Nat) (lat : LatchV) (g : Group) (hc : g.core = s.cur.core) (hs : g.slot = s.cur.slot) :
    Moves s (((s.setCur g).spend cost c).advance lat) c cost g.atLast { g.stepped lat with dline := g.dline } := by
  have key := moves_of s c cost g (if g.atLast then g.boundary g.nextHeader else g.past lat) g.atLast hc hs
  have hadv : ((s.setCur g).spend cost c).advance lat =
      (if g.atLast then ((s.setCur g).spend cost c).letGo g.core g.slot else (s.setCur g).spend cost c).setCur
        (if g.atLast then g.boundary g.nextHeader else g.past lat) := by
    unfold State.advance Group.atLast
    show (if g.cpos.toNat = Header.count g.hdr then _ else _) = _
    by_cases h : g.cpos.toNat = Header.count g.hdr <;> simp [h] <;> rfl
  rw [hadv]
  by_cases h : g.atLast = true
  · refine key.of_region ?_ ?_
    · simp [h, Group.boundary, Group.stepped, Group.nextHeader, BitVec.ofNat_mul]
    · simp [h, Group.boundary, Group.stepped]
  · refine key.of_region ?_ ?_
    · simp [h, Group.past, Group.stepped]
    · simp [h, Group.past, Group.stepped]

theorem Group.countRegion_eq (g : Group) : g.countRegion = { g with region := g.countRegion.region } := by
  unfold Group.countRegion
  split <;> rfl

theorem Group.countRegion_isSome (g : Group) : g.countRegion.region.isSome = g.region.isSome := by
  unfold Group.countRegion
  split <;> simp

theorem moves_skipped (s : State) (c : Ctl) :
    Moves s (((s.setCur s.cur.countRegion).spend 1 c).advance .none) c 1 s.cur.atLast { s.cur.stepped .none with dline := s.cur.dline } := by
  have he := s.cur.countRegion_eq
  have key := moves_advance s c 1 .none s.cur.countRegion (by rw [he]) (by rw [he])
  have hat : s.cur.countRegion.atLast = s.cur.atLast := by rw [he]; rfl
  rw [hat] at key
  refine key.of_region ?_ s.cur.countRegion_isSome.symm
  rw [he]; rfl

/-! ### The checks one by one -/

/-- What a word whose guards are false leaves (R138, R250). -/
def Skips (s t : State) (o : OpInfo) : Prop :=
  if isYieldOrPhase o then Moves s t o.body.ctl 1 s.cur.atLast { s.cur.stepped .none with dline := s.cur.dline }
  else Retires s t o.body.ctl 1 (latchZero o.latch) s.cur

section
variable {i : Instr} {s : State} {o : OpInfo} {bad : Bool} (ho : i.info = some o) (body : State → State)
include ho

theorem issueChecked_late (hd : s.cur.dline = 0) (hh : s.cur.hmode = false) (hy : isYieldOrPhase o = false) :
    issueChecked i s bad body = s.trap .group 0x16 [] := by
  simp [issueChecked, ho, hd, hh, hy]

variable (hlate : ¬(s.cur.dline = 0 ∧ s.cur.hmode = false ∧ isYieldOrPhase o = false))
include hlate

/-- Past the deadline's check. -/
theorem issueChecked_inTime : issueChecked i s bad body =
    if !o.ok || opVectorLatch o s.cur || bad then s.illegalOperand
    else if !s.cur.guards o.body.ctl then
      if isYieldOrPhase o then ((s.setCur s.cur.countRegion).spend 1 o.body.ctl).advance .none
      else s.retire o.body.ctl 1 (latchZero o.latch)
    else if opUnderrun o s.cur then s.trap .group 0x13 []
    else if s.cur.region.isSome && !s.cur.hmode && regionForbids o then s.trap .group 0x17 []
    else if opHazard o s.cur then s.hold
    else body s := by
  have hl : ¬(s.cur.dline = 0 && !s.cur.hmode && !isYieldOrPhase o) = true := by simpa [and_assoc] using hlate
  simp only [issueChecked, ho, if_neg hl]

theorem issueChecked_wrong (h : o.ok = false ∨ opVectorLatch o s.cur = true ∨ bad = true) :
    issueChecked i s bad body = s.trap .group 0x11 [] := by
  rw [issueChecked_inTime ho body hlate, if_pos (by rcases h with h | h | h <;> simp [h])]
  rfl

variable (hok : ¬(o.ok = false ∨ opVectorLatch o s.cur = true))
include hok

/-- Past the operand checks. -/
theorem issueChecked_right : issueChecked i s false body =
    if !s.cur.guards o.body.ctl then
      if isYieldOrPhase o then ((s.setCur s.cur.countRegion).spend 1 o.body.ctl).advance .none
      else s.retire o.body.ctl 1 (latchZero o.latch)
    else if opUnderrun o s.cur then s.trap .group 0x13 []
    else if s.cur.region.isSome && !s.cur.hmode && regionForbids o then s.trap .group 0x17 []
    else if opHazard o s.cur then s.hold
    else body s := by
  rw [issueChecked_inTime ho body hlate, if_neg (by simpa using hok)]

theorem issueChecked_skipped (hg : s.cur.guards o.body.ctl = false) : Skips s (issueChecked i s false body) o := by
  rw [issueChecked_right ho body hlate hok, hg]
  unfold Skips
  split
  · exact moves_skipped s o.body.ctl
  · exact retires_retire s o.body.ctl 1 (latchZero o.latch) s.cur rfl rfl

variable (hg : ¬s.cur.guards o.body.ctl = false)
include hg

theorem issueChecked_underrun (hu : opUnderrun o s.cur = true) : issueChecked i s false body = s.trap .group 0x13 [] := by
  rw [issueChecked_right ho body hlate hok]
  simp [hg, hu]

theorem issueChecked_misuse (hu : opUnderrun o s.cur = false)
    (hm : s.cur.region.isSome = true ∧ s.cur.hmode = false ∧ regionForbids o = true) : issueChecked i s false body = s.trap .group 0x17 [] := by
  obtain ⟨hr, hh, hf⟩ := hm
  rw [issueChecked_right ho body hlate hok]
  simp [hg, hu, hr, hh, hf]

theorem issues_of_checks (hu : opUnderrun o s.cur = false) (hm : ¬(s.cur.region.isSome = true ∧ s.cur.hmode = false ∧ regionForbids o = true))
    (hz : opHazard o s.cur = false) : issues i s = true := by
  simp only [not_and_or, not_or, Bool.not_eq_false, Bool.not_eq_true] at hlate hok hg hm
  obtain ⟨hok, hv⟩ := hok
  have hd : (decide (s.cur.dline ≠ 0) || s.cur.hmode || isYieldOrPhase o) = true := by simpa [or_assoc] using hlate
  have hr : (s.cur.region.isNone || s.cur.hmode || !regionForbids o) = true := by
    simpa [or_assoc, Option.isNone_iff_eq_none] using hm
  simp only [issues, ho, hu, hz, hok, hv, hg, hd, hr, Bool.not_false, Bool.and_self]

end

/-! ### The statement -/

/-- Settles O29: every instruction word goes through `issueChecked`, whose checks come one after another; one with an operand check of its own may fail
that first. That the deadline comes before all of them (log 65) and an instruction's own check with the operand checks (log 41) is the model's choice. -/
theorem issueChecks : Obligations.IssueChecks := by
  intro s i o ho
  have checked : ∃ bad body, exec i s = .next (issueChecked i s bad body) ∧ (ownChecks i = false → bad = false) := by
    cases hown : ownChecks i with
    | false =>
      obtain ⟨body, h⟩ := exec_eq_issue ho hown s
      exact ⟨false, body, h, fun _ => rfl⟩
    | true =>
      obtain ⟨bad, body, h⟩ := exec_eq_issueChecked hown s
      exact ⟨bad, body, h, nofun⟩
  obtain ⟨bad, body, hexec, hbad⟩ := checked
  rw [hexec]
  refine ⟨fun ⟨hd, hh, hy⟩ => ?_, ?_, ?_, ?_, ?_, ?_, ?_, ?_⟩
  · rw [issueChecked_late ho body hd hh hy]
  · intro hlate hwrong
    rw [issueChecked_wrong ho body hlate (hwrong.elim .inl fun h => .inr (.inl h))]
  · intro hlate hok _ hg
    cases bad with
    | true => exact .inl (by rw [issueChecked_wrong ho body hlate (.inr (.inr rfl))])
    | false => exact .inr ⟨_, rfl, issueChecked_skipped ho body hlate hok hg⟩
  · intro hlate hok _ hg hwhy
    cases bad with
    | true => exact .inl (by rw [issueChecked_wrong ho body hlate (.inr (.inr rfl))])
    | false =>
      refine .inr ?_
      cases hu : opUnderrun o s.cur with
      | true => rw [issueChecked_underrun ho body hlate hok hg hu]; rfl
      | false => rw [issueChecked_misuse ho body hlate hok hg hu (hwhy.resolve_left (by simp [hu]))]; rfl
  · intro hlate hok hown hg
    rw [hbad hown]
    exact ⟨_, rfl, issueChecked_skipped ho body hlate hok hg⟩
  · intro hlate hok hown hg hu
    rw [hbad hown, issueChecked_underrun ho body hlate hok hg hu]
  · intro hlate hok hown hg hu hm
    rw [hbad hown, issueChecked_misuse ho body hlate hok hg hu hm]
  · exact fun hlate hok hg hu hm hz => issues_of_checks ho hlate hok hg hu hm hz

end Sys2Proof.Machine
end

section
/-! SUPPORT. What the scheduler has is left alone by reads and writes of memory and by entries of the event rings. -/

namespace Sys2Proof.Machine

/-- From `s` to `t` no group and nothing of the scheduler has changed. -/
structure KeepsSched (s t : State) : Prop where
  cur : t.cur = s.cur
  parked : t.parked = s.parked
  sch : t.sch = s.sch

theorem KeepsSched.rfl (s : State) : KeepsSched s s := ⟨Eq.refl _, Eq.refl _, Eq.refl _⟩

theorem KeepsSched.trans {s t u : State} (a : KeepsSched s t) (b : KeepsSched t u) : KeepsSched s u :=
  ⟨b.cur.trans a.cur, b.parked.trans a.parked, b.sch.trans a.sch⟩

theorem KeepsControl.sched {s t : State} (k : KeepsControl s t) : KeepsSched s t := ⟨k.cur, k.parked, k.sch⟩

theorem foldl_keepsSched {α : Type} (f : State → α → State) (h : ∀ s x, KeepsSched s (f s x)) (l : List α) (s : State) :
    KeepsSched s (l.foldl f s) := by
  induction l generalizing s with
  | nil => exact .rfl _
  | cons x r ih => exact (h s x).trans (ih _)

theorem writePa_keepsSched (s : State) (pa n v : Nat) : KeepsSched s (s.writePa pa n v) := (writePa_keeps ..).sched

theorem putLines_keepsControl (s : State) (pa : Nat) (ws : List Word) (n : Nat) : KeepsControl s (s.putLines pa ws n) := by
  induction n generalizing s pa ws with
  | zero => exact .rfl _
  | succ n ih => exact (writePa_keeps ..).trans (ih ..)

theorem postEntry_keepsSched (s : State) (c : BitVec 12) (e : List Word) : KeepsSched s (s.postEntry c e) := by
  simp only [State.postEntry]
  split
  · split <;> exact ⟨rfl, rfl, rfl⟩
  · rw [writeEntry_outside]
    have k := writeWords_keeps s (s.ringEntryPa c) e
    exact ⟨k.cur, k.parked, k.sch⟩

theorem saveOpaque_keepsSched (s : State) (a n : Nat) : KeepsSched s (s.saveOpaque a n) := by
  induction n generalizing s a with
  | zero => exact .rfl _
  | succ n ih =>
    refine KeepsSched.trans ?_ (ih ..)
    exact KeepsSched.trans (t := { s with freeCtr := s.freeCtr + 16 }) ⟨rfl, rfl, rfl⟩ (writePa_keepsSched ..)

theorem setCore_keepsSched (s : State) (c : BitVec 10) (x : Core) : KeepsSched s (s.setCore c x) := ⟨rfl, rfl, rfl⟩

theorem saveTiles_keepsSched (s : State) (c : BitVec 10) : KeepsSched s (s.saveTiles c) := by
  simp only [State.saveTiles]
  split
  · exact .rfl s
  · refine KeepsSched.trans (foldl_keepsSched _ (fun u i => ?_) _ s) ((saveOpaque_keepsSched ..).trans
      ((setCore_keepsSched ..).trans (setCore_keepsSched ..)))
    exact foldl_keepsSched _ (fun v j => writePa_keepsSched ..) _ u

theorem saveEngines_keepsSched (s : State) (c : BitVec 12) (i : Nat) : KeepsSched s (s.saveEngines c i) := by
  have hlines (u : State) (a n : Nat) (ws : List Word) : KeepsSched u (u.putLines a ws n) := (putLines_keepsControl ..).sched
  simp only [State.saveEngines]
  refine KeepsSched.trans ?_ ((saveOpaque_keepsSched ..).trans (hlines ..))
  split
  · exact saveTiles_keepsSched ..
  · refine KeepsSched.trans ?_ (saveOpaque_keepsSched ..)
    split
    · exact .rfl s
    · exact hlines ..

end Sys2Proof.Machine
end

section
/-! SUPPORT. CLUSTER_PLACE (R126): a team placed on one core leaves room on the others, so that the teams of a rectangle are placed as if each were the
first. -/

namespace Sys2Proof.Machine

/-! ### Room on a core that is left alone (R123, R188) -/

/-- From `s` to `t` the core `c` has the same carves and places in use, and launches have changed in their count of groups alone. -/
structure SameRoom (c : BitVec 10) (s t : State) : Prop where
  launch : ∀ k, t.launch k = { s.launch k with groups := (t.launch k).groups }
  carves : t.carves c = s.carves c
  places : t.usedPlaces c = s.usedPlaces c

namespace SameRoom
variable {c : BitVec 10} {s t u : State}

theorem rfl (c : BitVec 10) (s : State) : SameRoom c s s := ⟨fun _ => Eq.refl _, Eq.refl _, Eq.refl _⟩

theorem trans (a : SameRoom c s t) (b : SameRoom c t u) : SameRoom c s u :=
  ⟨fun k => by rw [b.launch, a.launch], b.carves.trans a.carves, b.places.trans a.places⟩

theorem firstFit (h : SameRoom c s t) (n : Nat) : t.firstFit c n = s.firstFit c n := by
  simp only [State.firstFit, h.carves]

theorem freePlaces (h : SameRoom c s t) : t.freePlaces c = s.freePlaces c := by
  simp only [State.freePlaces, h.places]

/-- What the launch record of a launch says is what it said. -/
theorem record (h : SameRoom c s t) (k : Nat) : (t.launch k).need = (s.launch k).need ∧ (t.launch k).team = (s.launch k).team ∧
    (t.launch k).nextCluster = (s.launch k).nextCluster := by
  rw [h.launch k]
  exact ⟨Eq.refl _, Eq.refl _, Eq.refl _⟩

end SameRoom

section
variable {c : BitVec 10} (s : State)

theorem sameRoom_zeroCarve (n : BitVec 10) (b m : Nat) : SameRoom c s (s.zeroCarve n b m) := ⟨fun _ => rfl, rfl, rfl⟩

theorem sameRoom_stamp : SameRoom c s s.stamp.1 := ⟨fun _ => rfl, rfl, rfl⟩

theorem sameRoom_addTeam {t : Team} (h : t.core ≠ c) : SameRoom c s { s with sch := { s.sch with teams := s.sch.teams ++ [t] } } := by
  refine ⟨fun _ => rfl, ?_, ?_⟩
  · show (s.sch.teams ++ [t]).filterMap _ ++ _ ++ _ ++ _ = _
    rw [List.filterMap_append]
    simp [h, State.carves]
    rfl
  · show (s.sch.teams ++ [t]).flatMap _ ++ _ ++ _ ++ _ = _
    rw [List.flatMap_append]
    simp [h, State.usedPlaces]
    rfl

theorem sameRoom_addPlace {p : RecPlace} (h : p.core ≠ c) : SameRoom c s { s with sch := { s.sch with places := s.sch.places ++ [p] } } := by
  refine ⟨fun _ => rfl, ?_, ?_⟩
  · show _ ++ (s.sch.places ++ [p]).filterMap _ = _
    rw [List.filterMap_append]
    simp [h, State.carves]
    rfl
  · show _ ++ (s.sch.places ++ [p]).filterMap _ = _
    rw [List.filterMap_append]
    simp [h, State.usedPlaces]
    rfl

theorem launch_setGroups (k m n : Nat) : (s.setLaunch k { s.launch k with groups := n }).launch m =
    { s.launch m with groups := ((s.setLaunch k { s.launch k with groups := n }).launch m).groups } := by
  by_cases h : m = k
  · rw [h, State.setLaunch_launch_same]
  · have hother : (s.setLaunch k { s.launch k with groups := n }).launch m = s.launch m := Tab.get_set_other _ _ _ h
    rw [hother]

theorem sameRoom_setGroups (k n : Nat) : SameRoom c s (s.setLaunch k { s.launch k with groups := n }) := by
  have hl := fun m => launch_setGroups s k m n
  refine ⟨hl, ?_, rfl⟩
  have hw (m : Nat) : ((s.setLaunch k { s.launch k with groups := n }).launch m).window = (s.launch m).window := by rw [hl]; rfl
  have hs (m : Nat) : ((s.setLaunch k { s.launch k with groups := n }).launch m).slices = (s.launch m).slices := by rw [hl]; rfl
  simp only [State.carves, hw, hs]
  rfl

/-- What is read of a group where it is one. -/
def Group.ifLive {β : Type} (f : Group → Option β) (g : Group) : Option β := if g.life ≠ .none then f g else none

theorem groups_filterMap {β : Type} (f : Group → Option β) : s.groups.filterMap f = (s.cur :: s.parked).filterMap (Group.ifLive f) := by
  simp only [State.groups, List.filterMap_filter, decide_eq_true_eq]
  rfl

/-- What is read of the groups one by one is the same with a group added of which nothing is read. -/
theorem addGroup_filterMap {β : Type} (f : Group → Option β) {g : Group} (h : f g = none) :
    (s.addGroup g).groups.filterMap f = s.groups.filterMap f := by
  have hg : Group.ifLive f g = none := by rw [Group.ifLive, h, ite_self]
  have hdrop (l : List Group) : (l.filter fun x => !(x.core = g.core && x.slot = g.slot && x.life = .none)).filterMap (Group.ifLive f) =
      l.filterMap (Group.ifLive f) := by
    rw [List.filterMap_filter]
    refine List.filterMap_congr fun x _ => ?_
    by_cases hx : x.life = .none <;> simp [Group.ifLive, hx]
  rw [groups_filterMap, groups_filterMap]
  unfold State.addGroup
  dsimp only
  split
  next hhere =>
    have hcur : Group.ifLive f s.cur = none := by
      simp only [Bool.and_eq_true, decide_eq_true_eq] at hhere
      simp [Group.ifLive, hhere.2]
    rw [List.filterMap_cons_none hg, List.filterMap_cons_none hcur, hdrop]
  next => rw [List.filterMap_cons, List.filterMap_cons, List.filterMap_append, List.filterMap_cons_none hg, List.filterMap_nil, List.append_nil, hdrop]

theorem sameRoom_addGroup {g : Group} (h : g.core ≠ c) : SameRoom c s (s.addGroup g) := by
  have hsch : (s.addGroup g).sch = s.sch := by rw [addGroup_outside]
  have hlaunch (k : Nat) : (s.addGroup g).launch k = s.launch k := by rw [addGroup_outside]; rfl
  refine ⟨fun k => by rw [hlaunch], ?_, ?_⟩
  · simp only [State.carves, hsch, hlaunch]
    rw [addGroup_filterMap s _ (by simp [h])]
  · simp only [State.usedPlaces, hsch]
    rw [addGroup_filterMap s _ (by simp [h])]

end

/-! ### A team placed (R123) -/

/-- The team that `placeTeam` adds. -/
def State.newTeam (s : State) (k cluster : Nat) (c : BitVec 10) (pos x0 y0 sec : Nat) : Team :=
  let l := s.launch k
  let free := (List.range 8).filter fun i => !(i ∈ s.stamp.1.reservedSlots c)
  let order := (free.filter fun i => s.stamp.1.slotIdle c i) ++ free.filter fun i => !s.stamp.1.slotIdle c i
  ⟨s.stamp.2, k, cluster, c, pos, x0, y0, l.cw, l.chh, sec, (s.firstFit c l.need).getD 0, l.need, (s.stamp.1.freePlaces c).take l.team,
    if l.reserves then order.take l.team else [], l.team⟩

/-- One group of a placed team, in its slot or as a ready record. -/
def State.placeMember (l : Launch) (k key : Nat) (t : Team) (s : State) (i : Nat) : State :=
  let p := t.places.getD i 0
  let c := t.core
  match t.reserved[i]? with
  | some slot =>
    if s.slotIdle c slot then s.addGroup { startGroup l k t i slot p with pts := if l.task then s.sch.partClock else 0 }
    else { s with sch := { s.sch with places := s.sch.places ++
      [(⟨c, BitVec.ofNat 5 p, k, key, BitVec.ofNat 4 i, 0, 0, 0, some (s.clock c), 0, false, none, none, 0,
        Vector.replicate 8 0, 0, [], s.seqCtr, true⟩ : RecPlace)] } }
  | none => { s with sch := { s.sch with places := s.sch.places ++
      [(⟨c, BitVec.ofNat 5 p, k, key, BitVec.ofNat 4 i, 0, 0, 0, some (s.clock c), 0, false, none, none, 0,
        Vector.replicate 8 0, 0, [], s.seqCtr, true⟩ : RecPlace)] } }

/-- The state with the carve zeroed and the team added, its groups counted but not placed. -/
def State.teamAdded (s : State) (k : Nat) (t : Team) : State :=
  let u := s.stamp.1.zeroCarve t.core t.base t.bytes
  let v : State := { u with sch := { u.sch with teams := u.sch.teams ++ [t] } }
  v.setLaunch k { s.launch k with groups := (s.launch k).groups + t.alive }

theorem placeTeam_eq (s : State) (k cluster : Nat) (c : BitVec 10) (pos x0 y0 sec : Nat) :
    let t := s.newTeam k cluster c pos x0 y0 sec
    s.placeTeam k cluster c pos x0 y0 sec = (List.range t.alive).foldl (State.placeMember (s.launch k) k t.key t) (s.teamAdded k t) := rfl

theorem startGroup_core (l : Launch) (k : Nat) (t : Team) (i slot p : Nat) : (startGroup l k t i slot p).core = t.core := rfl

section
variable (l : Launch) (k key : Nat) (t : Team) (s : State)

theorem placeMember_teams (i : Nat) : (State.placeMember l k key t s i).sch.teams = s.sch.teams := by
  simp only [State.placeMember]
  split
  · split
    · rw [addGroup_outside]
    · rfl
  · rfl

theorem placeMember_sameRoom {c : BitVec 10} (h : t.core ≠ c) (i : Nat) : SameRoom c s (State.placeMember l k key t s i) := by
  simp only [State.placeMember]
  split
  · split
    · exact sameRoom_addGroup s h
    · exact sameRoom_addPlace s h
  · exact sameRoom_addPlace s h

theorem teamAdded_sameRoom {c : BitVec 10} (h : t.core ≠ c) : SameRoom c s (s.teamAdded k t) :=
  (sameRoom_stamp s).trans ((sameRoom_zeroCarve _ t.core t.base t.bytes).trans ((sameRoom_addTeam _ h).trans (sameRoom_setGroups _ k _)))

end

/-- A team placed on a core leaves the room of another. -/
theorem placeTeam_sameRoom (s : State) (k cluster : Nat) {n c : BitVec 10} (h : n ≠ c) (pos x0 y0 sec : Nat) :
    SameRoom c s (s.placeTeam k cluster n pos x0 y0 sec) := by
  rw [placeTeam_eq]
  have hfold : ∀ (r : List Nat) (u : State), SameRoom c s u →
      SameRoom c s (r.foldl (State.placeMember (s.launch k) k (s.newTeam k cluster n pos x0 y0 sec).key (s.newTeam k cluster n pos x0 y0 sec)) u) := by
    intro r
    induction r with
    | nil => exact fun _ hu => hu
    | cons i r ih => exact fun u hu => ih _ (hu.trans (placeMember_sameRoom _ _ _ _ _ h i))
  exact hfold _ _ (teamAdded_sameRoom k _ s h)

theorem placeTeam_teams (s : State) (k cluster : Nat) (n : BitVec 10) (pos x0 y0 sec : Nat) :
    (s.placeTeam k cluster n pos x0 y0 sec).sch.teams = s.sch.teams ++ [s.newTeam k cluster n pos x0 y0 sec] := by
  rw [placeTeam_eq]
  have hfold : ∀ (r : List Nat) (u : State),
      (r.foldl (State.placeMember (s.launch k) k (s.newTeam k cluster n pos x0 y0 sec).key (s.newTeam k cluster n pos x0 y0 sec)) u).sch.teams = u.sch.teams := by
    intro r
    induction r with
    | nil => exact fun _ => rfl
    | cons i r ih => exact fun u => (ih _).trans (placeMember_teams ..)
  exact hfold ..

/-- What the placement of a cluster says of a team: it is as if it were the only one placed in `s`. -/
def PlacedAlone (s : State) (k cluster : Nat) (a : Team) : Prop :=
  a.launch = k ∧ a.cluster = cluster ∧ a.bytes = (s.launch k).need ∧ a.alive = (s.launch k).team ∧
  s.firstFit a.core (s.launch k).need = some a.base ∧ a.places = (s.freePlaces a.core).take (s.launch k).team

theorem newTeam_placedAlone {s u : State} {k cluster : Nat} {c : BitVec 10} (h : SameRoom c s u)
    (hfit : (s.firstFit c (s.launch k).need).isSome = true) (pos x0 y0 sec : Nat) : PlacedAlone s k cluster (u.newTeam k cluster c pos x0 y0 sec) := by
  obtain ⟨hneed, hteam, -⟩ := h.record k
  obtain ⟨b, hb⟩ := Option.isSome_iff_exists.1 hfit
  refine ⟨rfl, rfl, hneed, hteam, ?_, ?_⟩
  · show _ = some ((u.firstFit c (u.launch k).need).getD 0)
    rw [hneed, h.firstFit, hb]
    exact hb
  · show ((u.stamp.1.freePlaces c).take (u.launch k).team) = _
    rw [hteam, (h.trans (sameRoom_stamp u)).freePlaces]
    rfl

/-- Teams placed on cores one after another are placed as if each were alone, where the cores differ. -/
theorem placeTeams_placedAlone {s : State} {k cluster x0 y0 sec : Nat} (l : List (BitVec 10 × Nat)) (hl : (l.map Prod.fst).Nodup)
    (hfit : ∀ c ∈ l.map Prod.fst, (s.firstFit c (s.launch k).need).isSome = true) (u : State) (hu : ∀ c ∈ l.map Prod.fst, SameRoom c s u) :
    ∃ ts, (l.foldl (fun s c => s.placeTeam k cluster c.1 c.2 x0 y0 sec) u).sch.teams = u.sch.teams ++ ts ∧ ts.map (fun a => a.core) = l.map Prod.fst ∧
      ∀ a ∈ ts, PlacedAlone s k cluster a := by
  induction l generalizing u with
  | nil => exact ⟨[], by simp, rfl, by simp⟩
  | cons x r ih =>
    obtain ⟨hx, hr⟩ := List.nodup_cons.1 hl
    have hsame : ∀ c ∈ r.map Prod.fst, SameRoom c s (u.placeTeam k cluster x.1 x.2 x0 y0 sec) := fun c hc =>
      (hu c (List.mem_cons_of_mem _ hc)).trans (placeTeam_sameRoom u k cluster (fun e => hx (by rw [e]; exact hc)) x.2 x0 y0 sec)
    obtain ⟨ts, hteams, hcores, halone⟩ := ih hr (fun c hc => hfit c (List.mem_cons_of_mem _ hc)) _ hsame
    refine ⟨u.newTeam k cluster x.1 x.2 x0 y0 sec :: ts, ?_, ?_, ?_⟩
    · rw [List.foldl_cons, hteams, placeTeam_teams, List.append_assoc]
      rfl
    · rw [List.map_cons, List.map_cons, hcores]
      rfl
    · intro a ha
      obtain rfl | ha := List.mem_cons.1 ha
      · exact newTeam_placedAlone (hu x.1 List.mem_cons_self) (hfit x.1 List.mem_cons_self) x.2 x0 y0 sec
      · exact halone a ha

/-! ### A cluster placed (R126) -/

/-- The cores of a rectangle that lies within its section are different ones. -/
theorem rectCores_nodup {sec x y w h : Nat} (hs : sec < 4) (hx : x + w ≤ 16) (hy : y + h ≤ 12) : (rectCores sec x y w h).Nodup := by
  unfold rectCores
  refine List.Nodup.map_on (fun i hi j hj e => ?_) List.nodup_range
  rw [List.mem_range] at hi hj
  have hw : 0 < w := Nat.pos_of_ne_zero fun e => by simp [e] at hi
  have hrow : ∀ n, n < w * h → n / w < h := fun n hn => Nat.div_lt_of_lt_mul hn
  have hcol : ∀ n, n % w < w := fun n => Nat.mod_lt _ hw
  have hlt : ∀ n, n < w * h → 192 * sec + 16 * (y + n / w) + x + n % w < 2 ^ 10 := fun n hn => by
    have := hrow n hn
    have := hcol n
    omega
  have hi2 := hcol i
  have hj2 := hcol j
  have e' := congrArg BitVec.toNat e
  rw [BitVec.toNat_ofNat, BitVec.toNat_ofNat, Nat.mod_eq_of_lt (hlt i hi), Nat.mod_eq_of_lt (hlt j hj)] at e'
  have hdiv : i / w = j / w := by omega
  have hmod : i % w = j % w := by omega
  rw [← Nat.div_add_mod i w, ← Nat.div_add_mod j w, hdiv, hmod]

theorem sectionOrder_lt (s : State) (c : BitVec 12) : ∀ sec ∈ s.sectionOrder c, sec < 4 := by
  intro sec h
  obtain ⟨p, hp, rfl⟩ := List.mem_map.1 h
  obtain ⟨i, hi, rfl⟩ := List.mem_map.1 ((List.sortBy_perm _ _).mem_iff.1 hp)
  exact List.mem_range.1 (List.mem_filter.1 hi).1

/-- A rectangle found lies within its section, and a team fits on each of its cores. -/
theorem findRect_some {s : State} {l : Launch} {sec x y : Nat} (h : s.findRect l sec = some (x, y)) :
    x + l.cw ≤ 16 ∧ y + l.chh ≤ 12 ∧ ∀ c ∈ rectCores sec x y l.cw l.chh, s.teamFits l c = true := by
  unfold State.findRect at h
  have hall := List.find?_some h
  have hmem := List.mem_of_find?_eq_some h
  simp only [List.mem_flatMap, List.mem_map, List.mem_range, Prod.mk.injEq] at hmem
  obtain ⟨y', hy, x', hx, rfl, rfl⟩ := hmem
  exact ⟨by omega, by omega, fun c hc => List.all_eq_true.1 hall c hc⟩

/-- The first section and rectangle with room (log 38). -/
def State.firstRect (s : State) (k : Nat) : Option (Nat × Nat × Nat) :=
  ((s.sectionOrder (s.launch k).ctx).filterMap fun z => (s.findRect (s.launch k) z).map fun p => (z, p)).head?

theorem firstRect_some {s : State} {k sec x y : Nat} (h : s.firstRect k = some (sec, x, y)) : sec < 4 ∧ s.findRect (s.launch k) sec = some (x, y) := by
  have hmem := List.mem_of_mem_head? (Option.mem_def.2 h)
  obtain ⟨z, hz, hrect⟩ := List.mem_filterMap.1 hmem
  obtain ⟨p, hp, heq⟩ := Option.map_eq_some_iff.1 hrect
  obtain ⟨rfl, rfl⟩ := Prod.mk.inj heq
  exact ⟨sectionOrder_lt s _ _ hz, hp⟩

theorem placeCluster_places {s : State} {k sec x y : Nat} (h : s.firstRect k = some (sec, x, y)) :
    ∃ t ts, s.placeCluster k = some t ∧ t.sch.teams = s.sch.teams ++ ts ∧
      ts.map (fun a => a.core) = rectCores sec x y (s.launch k).cw (s.launch k).chh ∧
      (t.launch k).nextCluster = (s.launch k).nextCluster + 1 ∧ ∀ a ∈ ts, PlacedAlone s k (s.launch k).nextCluster a := by
  obtain ⟨hsec, hrect⟩ := firstRect_some h
  obtain ⟨hx, hy, hfits⟩ := findRect_some hrect
  have hfst : (rectCores sec x y (s.launch k).cw (s.launch k).chh).zipIdx.map Prod.fst = rectCores sec x y (s.launch k).cw (s.launch k).chh :=
    List.zipIdx_map_fst ..
  obtain ⟨ts, hteams, hcores, halone⟩ := placeTeams_placedAlone (s := s) (k := k) (cluster := (s.launch k).nextCluster) (x0 := x) (y0 := y) (sec := sec)
    (rectCores sec x y (s.launch k).cw (s.launch k).chh).zipIdx (by rw [hfst]; exact rectCores_nodup hsec hx hy)
    (fun c hc => by
      have := hfits c (by rwa [hfst] at hc)
      simp only [State.teamFits, Bool.and_eq_true] at this
      exact this.1.1) s (fun c _ => .rfl c s)
  unfold State.firstRect at h
  simp only [State.placeCluster, h]
  exact ⟨_, ts, rfl, hteams, hcores.trans hfst, by rw [State.setLaunch_launch_same], halone⟩

theorem tryPlace_cluster {s : State} {k : Nat} (h : (s.launch k).concurrent = false) : s.tryPlace k = s.placeCluster k :=
  if_neg (by simp [h])

/-- Launches that are not concurrent and find no room hold nothing back. -/
theorem placeFirst_noRoom {s : State} (l : List Nat) (hroom : ∀ k ∈ l, s.tryPlace k = none) (hconc : ∀ k ∈ l, (s.launch k).concurrent = false) :
    s.placeFirst [] l = s := by
  induction l with
  | nil => rfl
  | cons k r ih =>
    simp only [State.placeFirst, List.not_mem_nil, if_false, hroom k List.mem_cons_self, hconc k List.mem_cons_self, Bool.false_eq_true]
    exact ih (fun k hk => hroom k (List.mem_cons_of_mem _ hk)) fun k hk => hconc k (List.mem_cons_of_mem _ hk)

theorem placeFirst_first {s t : State} {k : Nat} (r : List Nat) (h : s.tryPlace k = some t) : s.placeFirst [] (k :: r) = t := by
  simp only [State.placeFirst, List.not_mem_nil, if_false, h]

end Sys2Proof.Machine
end

section
/-! SUPPORT. Pre-emption and slices (R140 to R143): PREQ, RESM and SLICE_END. -/

namespace Sys2Proof.Machine

theorem foldl_fixed_of_mem {α β : Type} {f : β → α → β} {b : β} {l : List α} (h : ∀ a ∈ l, f b a = b) : l.foldl f b = b := by
  induction l with
  | nil => rfl
  | cons a r ih =>
    rw [List.foldl_cons, h a List.mem_cons_self]
    exact ih fun x hx => h x (List.mem_cons_of_mem _ hx)

theorem sched_ne {a b : Nat} (c d : BitVec 12) (ha : a < 64) (hb : b < 64) (h : a ≠ b) : Reg.sched c.toNat a ≠ Reg.sched d.toNat b := by
  unfold Reg.sched
  omega

/-! ### Engines at a command boundary (R140) -/

/-- The entry of one key changed. -/
theorem Tab.get_mapAt {α : Type} (d : α) (f : α → α) (hd : f d = d) (t : Tab α) (k : Nat) :
    Tab.get d (t.map fun x => (x.1, if x.1 = k then f x.2 else x.2)) k = f (Tab.get d t k) := by
  induction t with
  | nil => exact hd.symm
  | cons x r ih =>
    obtain ⟨j, v⟩ := x
    by_cases h : j = k
    · simp [Tab.get, h]
    · simp only [List.map_cons, Tab.get, h, if_false]
      exact ih

theorem unstart_started {k : CoreCtx} (h : (k.q0.any fun x => x.started) = false) : (k.unstart.q0.any fun x => x.started) = false := by
  rw [List.any_eq_false] at h ⊢
  intro x hx
  obtain ⟨y, hy, rfl⟩ := List.mem_map.1 hx
  split
  · simp
  · exact h y hy

/-- Commands of the context that have begun and done nothing have not begun. -/
def State.unstarted (s : State) (c : BitVec 12) : State :=
  { s with cores := s.cores.map fun (i, r) =>
    (i, { r with ctxs := r.ctxs.map fun (j, k) => (j, if j = c.toNat then k.unstart else k) }) }

theorem unstarted_enginesStopped {s : State} {c : BitVec 12} (h : s.enginesStopped c = true) : (s.unstarted c).enginesStopped c = true := by
  unfold State.enginesStopped at h ⊢
  rw [List.all_eq_true] at h ⊢
  intro x hx
  obtain ⟨y, hy, rfl⟩ := List.mem_map.1 hx
  have hold := h y hy
  rw [Bool.not_eq_true'] at hold ⊢
  exact (congrArg (fun k : CoreCtx => k.q0.any fun x => x.started) (Tab.get_mapAt CoreCtx.idle CoreCtx.unstart rfl y.2.ctxs c.toNat)).trans
    (unstart_started hold)

/-! ### A context stops (R140, R141) -/

theorem stopBlocked_none {s : State} {c : BitVec 12} (h : ∀ g ∈ s.groups, g.ctx = c → g.stopsHere = false) : s.stopBlocked c = s := by
  have hnone : (s.groups.filter fun g => g.ctx = c && g.stopsHere) = [] := by
    rw [List.filter_eq_nil_iff]
    intro g hg
    by_cases hc : g.ctx = c
    · simp [h g hg hc]
    · simp [hc]
  rw [State.stopBlocked, hnone]
  rfl

/-- What the engines of a context hold is saved, core by core. -/
def State.enginesSaved (s : State) (c : BitVec 12) : State :=
  s.cores.foldl (fun s x => if x.2.owner = some c || x.2.ctxs.any (fun y => y.1 = c.toNat) then s.saveEngines c x.1 else s) s

theorem enginesSaved_keepsSched (s : State) (c : BitVec 12) : KeepsSched s (s.enginesSaved c) := by
  refine foldl_keepsSched _ (fun u x => ?_) _ s
  split
  · exact saveEngines_keepsSched ..
  · exact .rfl u

theorem enginesSaved_unused {s : State} {c : BitVec 12} (ho : ∀ x ∈ s.cores, x.2.owner ≠ some c) (hc : ∀ x ∈ s.cores, ∀ y ∈ x.2.ctxs, y.1 ≠ c.toNat) :
    s.enginesSaved c = s := by
  refine foldl_fixed_of_mem fun x hx => if_neg ?_
  simp only [Bool.or_eq_true, decide_eq_true_eq, List.any_eq_true, not_or, not_exists, not_and]
  exact ⟨ho x hx, hc x hx⟩

/-- Groups and engines of the context have stopped: it is suspended, and counted (R140). -/
def State.suspend (s : State) (c : BitVec 12) : State :=
  let s := (s.setRegBits (Reg.sched c.toNat 24) 61 61 1).countReg (Reg.sched c.toNat 16) 31 0
  { s with sch := { s.sch with stopping := s.sch.stopping.filter fun x => x ≠ c } }

theorem suspend_suspended (s : State) (c : BitVec 12) : (s.suspend c).suspended c = true := by
  have hreg : (s.suspend c).reg (Reg.sched c.toNat 24) = (s.setRegBits (Reg.sched c.toNat 24) 61 61 1).reg (Reg.sched c.toNat 24) :=
    State.countReg_reg_ne _ _ _ (sched_ne c c (by decide) (by decide) (by decide))
  have hset := State.setRegBits_regBits_same s (Reg.sched c.toNat 24) (hi := 61) (lo := 61) 1 (by decide)
  rw [State.suspended, decide_eq_true_eq, State.regBits, hreg]
  exact hset

theorem suspend_outside (s : State) (c : BitVec 12) : s.suspend c =
    { s with mgmt := (s.suspend c).mgmt, sch := { s.sch with stopping := s.sch.stopping.filter fun x => x ≠ c } } := by
  unfold State.suspend
  dsimp only
  rw [State.countReg_outside]
  rfl

/-- Step 4 of R140 on the named parts. -/
theorem settleStop_eq (s : State) (c : BitVec 12) : s.settleStop c =
    let u := (s.stopBlocked c).unstarted c
    if (u.groups.any fun g => g.ctx = c && g.launch ≠ 0) || !u.enginesStopped c then u else (u.enginesSaved c).suspend c := rfl

section
variable {s : State} {c : BitVec 12}

theorem settleStop_stops (hg : ∀ g ∈ s.groups, g.ctx ≠ c) (he : s.enginesStopped c = true) :
    s.settleStop c = ((s.unstarted c).enginesSaved c).suspend c := by
  have hgone : ((s.unstarted c).groups.any fun g => g.ctx = c && g.launch ≠ 0) = false :=
    List.any_eq_false.2 fun g h => by simp [hg g h]
  rw [settleStop_eq, stopBlocked_none fun g h e => absurd e (hg g h)]
  dsimp only
  rw [hgone, unstarted_enginesStopped he]
  rfl

/-- A group that does not stop where it stands keeps the context from being suspended. -/
theorem settleStop_waits {g : Group} (hg : g ∈ s.groups) (hc : g.ctx = c) (hl : g.launch ≠ 0) (hs : ∀ x ∈ s.groups, x.ctx = c → x.stopsHere = false) :
    s.settleStop c = s.unstarted c := by
  have hany : ((s.unstarted c).groups.any fun g => g.ctx = c && g.launch ≠ 0) = true :=
    List.any_eq_true.2 ⟨g, hg, by simp [hc, hl]⟩
  rw [settleStop_eq, stopBlocked_none hs]
  dsimp only
  rw [hany]
  rfl

/-- The context is being pre-empted. -/
def State.noteStopping (s : State) (c : BitVec 12) : State := { s with sch := { s.sch with stopping := s.sch.stopping ++ [c] } }

theorem beginStop_ignored (h : s.suspended c = true ∨ c ∈ s.sch.stopping) : s.beginStop c = s :=
  if_pos (by simpa using h)

theorem beginStop_begins (hs : s.suspended c = false) (hn : c ∉ s.sch.stopping) : s.beginStop c = (s.noteStopping c).settleStop c :=
  if_neg (by simp [hs, hn])

/-- A context with nothing running is suspended at once. -/
theorem beginStop_suspends (hs : s.suspended c = false) (hn : c ∉ s.sch.stopping) (hg : ∀ g ∈ s.groups, g.ctx ≠ c) (he : s.enginesStopped c = true) :
    (s.beginStop c).suspended c = true ∧ c ∉ (s.beginStop c).sch.stopping ∧ (s.beginStop c).cur = s.cur ∧ (s.beginStop c).parked = s.parked := by
  have k := enginesSaved_keepsSched ((s.noteStopping c).unstarted c) c
  rw [beginStop_begins hs hn, settleStop_stops (s := s.noteStopping c) hg he]
  refine ⟨suspend_suspended .., ?_, ?_, ?_⟩
  · rw [suspend_outside]
    simp
  · rw [suspend_outside]
    exact k.cur
  · rw [suspend_outside]
    exact k.parked

/-- One that has used no engine has nothing to save. -/
theorem beginStop_unused (hs : s.suspended c = false) (hn : c ∉ s.sch.stopping) (hg : ∀ g ∈ s.groups, g.ctx ≠ c) (he : s.enginesStopped c = true)
    (ho : ∀ x ∈ s.cores, x.2.owner ≠ some c) (hc : ∀ x ∈ s.cores, ∀ y ∈ x.2.ctxs, y.1 ≠ c.toNat) :
    (s.beginStop c).mem = s.mem ∧ (s.beginStop c).coh = s.coh := by
  have hsaved : ((s.noteStopping c).unstarted c).enginesSaved c = (s.noteStopping c).unstarted c := by
    refine enginesSaved_unused (fun x hx => ?_) fun x hx y hy => ?_
    · obtain ⟨z, hz, rfl⟩ := List.mem_map.1 hx
      exact ho z hz
    · obtain ⟨z, hz, rfl⟩ := List.mem_map.1 hx
      obtain ⟨w, hw, rfl⟩ := List.mem_map.1 hy
      exact hc z hz w hw
  rw [beginStop_begins hs hn, settleStop_stops (s := s.noteStopping c) hg he, hsaved, suspend_outside]
  exact ⟨rfl, rfl⟩

/-! ### A slice begins, and a context runs again (R140, R143) -/

/-- Charges of the launches of a context at zero. -/
def chargesReset (c : BitVec 12) (l : Tab Launch) : Tab Launch := l.map fun x => (x.1, if x.2.ctx = c then { x.2 with charge := 0 } else x.2)

theorem beginSlice_outside (s : State) (c : BitVec 12) : s.beginSlice c = { s with
    sch := { s.sch with launches := chargesReset c s.sch.launches, sliceAt := Tab.set 0 s.sch.sliceAt c.toNat s.timebase }
    mgmt := (s.setRegBits (Reg.sched c.toNat 16) 63 32 0).mgmt } := rfl

theorem beginSlice_reg (s : State) (c : BitVec 12) {o : Nat} (h : o ≠ Reg.sched c.toNat 16) : (s.beginSlice c).reg o = s.reg o :=
  State.setRegBits_reg_ne s 63 32 0 h

theorem beginSlice_suspended (s : State) (c d : BitVec 12) : (s.beginSlice c).suspended d = s.suspended d := by
  rw [State.suspended, State.regBits, beginSlice_reg _ _ (sched_ne d c (by decide) (by decide) (by decide))]
  rfl

theorem beginSlice_charges (s : State) (c : BitVec 12) : (s.beginSlice c).regBits (Reg.sched c.toNat 16) 63 32 = 0 :=
  (State.setRegBits_regBits_same s (Reg.sched c.toNat 16) (hi := 63) (lo := 32) 0 (by decide)).trans (Nat.zero_mod _)

theorem beginSlice_launch_ctx (s : State) (c : BitVec 12) (k : Nat) : ((s.beginSlice c).launch k).ctx = (s.launch k).ctx := by
  have hget : (s.beginSlice c).launch k = (fun l : Launch => if l.ctx = c then { l with charge := 0 } else l) (s.launch k) :=
    Tab.get_map Launch.none (fun l : Launch => if l.ctx = c then { l with charge := 0 } else l) (by split <;> rfl) s.sch.launches k
  rw [hget]
  dsimp only
  split <;> rfl

theorem chargesReset_zero (c : BitVec 12) (l : Tab Launch) : ∀ x ∈ chargesReset c l, x.2.ctx = c → x.2.charge = 0 := by
  intro x hx
  obtain ⟨y, -, rfl⟩ := List.mem_map.1 hx
  dsimp only
  split
  · exact fun _ => rfl
  · exact fun h => absurd h ‹_›

theorem chargesReset_unplaced (c : BitVec 12) {l : Tab Launch} (h : ∀ x ∈ l, x.2.unplaced = false) : ∀ x ∈ chargesReset c l, x.2.unplaced = false := by
  intro x hx
  obtain ⟨y, hy, rfl⟩ := List.mem_map.1 hx
  dsimp only
  split
  · exact h y hy
  · exact h y hy

theorem resumeCtx_ignored (h : s.suspended c = false) : s.resumeCtx c = s := if_pos (by simp [h])

/-- The context of no saved group and no launch over its budget runs again. -/
def State.resumed (s : State) (c : BitVec 12) : State :=
  let s := (s.beginSlice c).setRegBits (Reg.sched c.toNat 24) 61 61 0
  { s with sch := { s.sch with byFirmware := s.sch.byFirmware.filter fun x => x ≠ c } }

/-- Groups of the launches of the context that are over their budget are marked. -/
def State.markedOver (s : State) (c : BitVec 12) : State :=
  (s.sch.overBudget.filter fun k => (s.launch k).ctx = c).foldl (fun s k => s.markBudget k) s

theorem markedOver_none (hb : ∀ k ∈ s.sch.overBudget, (s.launch k).ctx ≠ c) : s.markedOver c = s := by
  have hnone : (s.sch.overBudget.filter fun k => (s.launch k).ctx = c) = [] := by
    rw [List.filter_eq_nil_iff]
    intro k hk
    simpa using hb k hk
  rw [State.markedOver, hnone]
  rfl

/-- Saved groups of the context whose slot is idle go back to it. -/
def State.savedRestored (s : State) (c : BitVec 12) : State :=
  (s.sch.saved.filter fun g => g.ctx = c).foldl (fun s g =>
    if s.slotIdle g.core g.slot.toNat then (s.restoreSaved g.core g.slot.toNat).getD s else s) s

theorem savedRestored_none (hs : ∀ g ∈ s.sch.saved, g.ctx ≠ c) : s.savedRestored c = s := by
  have hnone : (s.sch.saved.filter fun g => g.ctx = c) = [] := by
    rw [List.filter_eq_nil_iff]
    intro g hg
    simpa using hs g hg
  rw [State.savedRestored, hnone]
  rfl

theorem resumeCtx_suspended (h : s.suspended c = true) : s.resumeCtx c = ((s.resumed c).markedOver c).savedRestored c :=
  if_neg (by simp [h])

theorem resumeCtx_resumes (h : s.suspended c = true) (hs : ∀ g ∈ s.sch.saved, g.ctx ≠ c) (hb : ∀ k ∈ s.sch.overBudget, (s.launch k).ctx ≠ c) :
    s.resumeCtx c = s.resumed c := by
  have hover : (s.resumed c).markedOver c = s.resumed c :=
    markedOver_none fun k hk => (beginSlice_launch_ctx s c k).trans_ne (hb k hk)
  rw [resumeCtx_suspended h, hover]
  exact savedRestored_none hs

theorem resumed_suspended (s : State) (c : BitVec 12) : (s.resumed c).suspended c = false := by
  have hset := State.setRegBits_regBits_same (s.beginSlice c) (Reg.sched c.toNat 24) (hi := 61) (lo := 61) 0 (by decide)
  rw [State.suspended, decide_eq_false_iff_not]
  intro h
  exact absurd ((show _ = _ from hset).symm.trans h) (by decide)

theorem resumed_charges (s : State) (c : BitVec 12) : (s.resumed c).regBits (Reg.sched c.toNat 16) 63 32 = 0 :=
  (State.setRegBits_regBits_ne (s.beginSlice c) 61 61 0 63 32 (sched_ne c c (by decide) (by decide) (by decide))).trans (beginSlice_charges s c)

end

/-! ### The end of a slice (R143) -/

/-- Where no launch has a cluster left to place, nobody waits for room. -/
theorem othersWait_none {s : State} (h : ∀ x ∈ s.sch.launches, x.2.unplaced = false) (c : BitVec 12) : s.othersWait c = false := by
  have hnone : s.toPlace = [] := by
    have hfilter : (s.sch.launches.filter fun x => x.2.unplaced && x.2.ending.isNone && !x.2.finished && !s.suspended x.2.ctx &&
        !(x.2.ctx ∈ s.sch.stopping)) = [] := by
      rw [List.filter_eq_nil_iff]
      intro x hx
      simp [h x hx]
    rw [State.toPlace, hfilter]
    rfl
  rw [State.othersWait, hnone]
  rfl

/-- The context is among those that firmware pre-empted. -/
def State.byFirmwareWith (s : State) (c : BitVec 12) : State :=
  { s with sch := { s.sch with byFirmware := if c ∈ s.sch.byFirmware then s.sch.byFirmware else s.sch.byFirmware ++ [c] } }

section
variable {s : State} {c : BitVec 12} (ha : s.ev.a = c.toNat)
include ha

theorem evContext : BitVec.ofNat 12 s.ev.a = c := by rw [ha, BitVec.ofNat_toNat, BitVec.setWidth_eq]

theorem exec_preq : exec .preq s = .next (s.beginStop c) := by rw [← evContext ha]; rfl

theorem exec_resm : exec .resm s = .next (s.resumeCtx c) := by rw [← evContext ha]; rfl

theorem exec_sliceEnd_early (h : (s.timebase - Tab.get 0 s.sch.sliceAt c.toNat).toNat < s.sliceNs c) : exec .sliceEnd s = .next s := by
  rw [← evContext ha] at h
  exact congrArg Host.Outcome.next (if_pos h)

theorem exec_sliceEnd_suspended (h : s.suspended c = true) (hf : c ∉ s.sch.byFirmware) : exec .sliceEnd s = .next s := by
  rw [← evContext ha] at h hf
  refine congrArg Host.Outcome.next ?_
  dsimp only
  rw [if_pos h, if_neg hf, ite_self]

theorem exec_sliceEnd_runsAgain (h : s.suspended c = true) (hf : c ∈ s.sch.byFirmware)
    (hn : s.sliceNs c ≤ (s.timebase - Tab.get 0 s.sch.sliceAt c.toNat).toNat) : exec .sliceEnd s = exec .resm s := by
  rw [exec_resm ha]
  rw [← evContext ha] at *
  refine congrArg Host.Outcome.next ?_
  dsimp only
  rw [if_neg (Nat.not_lt.2 hn), if_pos h, if_pos hf]

/-- A running context whose slice is over has another; with SLICE = 0, or nobody else waiting, that is all. -/
theorem exec_sliceEnd_again (h : s.suspended c = false) (hn : s.sliceNs c ≤ (s.timebase - Tab.get 0 s.sch.sliceAt c.toNat).toNat)
    (hw : s.regBits (Reg.sched c.toNat 8) 63 32 = 0 ∨
      ((∀ x ∈ s.sch.byFirmware, x = c) ∧ ∀ x ∈ s.sch.launches, x.2.unplaced = false)) : exec .sliceEnd s = .next (s.beginSlice c) := by
  have hslice : (s.beginSlice c).regBits (Reg.sched c.toNat 8) 63 32 = s.regBits (Reg.sched c.toNat 8) 63 32 := by
    rw [State.regBits, beginSlice_reg _ _ (sched_ne c c (by decide) (by decide) (by decide))]
    rfl
  have hnobody : (s.beginSlice c).regBits (Reg.sched c.toNat 8) 63 32 ≠ 0 →
      ((s.beginSlice c).othersWait c || (s.beginSlice c).sch.byFirmware.any fun x => x ≠ c) = false := by
    intro hne
    obtain ⟨hf, hl⟩ := hw.resolve_left (hslice ▸ hne)
    rw [othersWait_none (chargesReset_unplaced c hl), Bool.false_or, List.any_eq_false]
    exact fun x hx => by simp [hf x hx]
  rw [← evContext ha] at *
  refine congrArg Host.Outcome.next ?_
  dsimp only
  rw [if_neg (Nat.not_lt.2 hn), h, if_neg Bool.false_ne_true]
  split
  · rfl
  next hne => rw [hnobody hne, if_neg Bool.false_ne_true]

/-- The firmware pre-empted another context, and all it pre-empted run: this one is pre-empted. -/
theorem exec_sliceEnd_preempts (h : s.suspended c = false) (hn : s.sliceNs c ≤ (s.timebase - Tab.get 0 s.sch.sliceAt c.toNat).toNat)
    (hs : s.regBits (Reg.sched c.toNat 8) 63 32 ≠ 0) (hx : ∃ x ∈ s.sch.byFirmware, x ≠ c) (hrun : ∀ x ∈ s.sch.byFirmware, s.suspended x = false) :
    exec .sliceEnd s = .next (((s.beginSlice c).byFirmwareWith c).beginStop c) := by
  have hslice : (s.beginSlice c).regBits (Reg.sched c.toNat 8) 63 32 = s.regBits (Reg.sched c.toNat 8) 63 32 := by
    rw [State.regBits, beginSlice_reg _ _ (sched_ne c c (by decide) (by decide) (by decide))]
    rfl
  have hwaits : ((s.beginSlice c).othersWait c || (s.beginSlice c).sch.byFirmware.any fun x => x ≠ c) = true := by
    obtain ⟨x, hmem, hne⟩ := hx
    rw [Bool.or_eq_true]
    exact .inr (List.any_eq_true.2 ⟨x, hmem, by simpa using hne⟩)
  have hresumed : ((s.beginSlice c).sch.byFirmware.filter fun x => x ≠ c).foldl (fun s x => s.resumeCtx x) (s.beginSlice c) = s.beginSlice c :=
    foldl_fixed_of_mem fun x hx => resumeCtx_ignored (by rw [beginSlice_suspended]; exact hrun x (List.mem_filter.1 hx).1)
  rw [← hslice] at hs
  rw [← evContext ha] at *
  refine congrArg Host.Outcome.next ?_
  dsimp only
  rw [if_neg (Nat.not_lt.2 hn), h, if_neg Bool.false_ne_true, if_neg hs, hwaits, if_pos rfl, hresumed]
  rfl

end
end Sys2Proof.Machine
end

section
/-! SUPPORT. WAITING_BUDGET_EXCEEDED (R143, R144). -/

namespace Sys2Proof.Machine

theorem snapshot_keepsSched (s : State) (k : Nat) : KeepsSched s (s.snapshot k) :=
  foldl_keepsSched _ (fun u e => postEntry_keepsSched u _ e) _ s

/-- A launch over its budget, whether its snapshot is due or not. -/
def State.noteOver (s : State) (k : Nat) : State := { s with sch := { s.sch with overBudget := s.sch.overBudget ++ [k] } }

theorem exec_waitingBudget_none {s : State} (h : (s.launch s.ev.a).wbud = 0 ∨ (s.launch s.ev.a).charge ≤ 1024 * (s.launch s.ev.a).wbud ∨
    (s.launch s.ev.a).finished = true ∨ (s.launch s.ev.a).ending.isSome = true ∨ s.ev.a ∈ s.sch.overBudget) :
    exec .waitingBudgetExceeded s = .next s := by
  refine congrArg Host.Outcome.next (if_pos ?_)
  simp only [Bool.or_eq_true, decide_eq_true_eq]
  tauto

theorem exec_waitingBudget_over {s : State} (hw : (s.launch s.ev.a).wbud ≠ 0) (hc : 1024 * (s.launch s.ev.a).wbud < (s.launch s.ev.a).charge)
    (hf : (s.launch s.ev.a).finished = false) (he : (s.launch s.ev.a).ending = none) (ho : s.ev.a ∉ s.sch.overBudget) :
    exec .waitingBudgetExceeded s = .next ((s.snapshot s.ev.a).noteOver s.ev.a).stopOverBudget := by
  refine congrArg Host.Outcome.next (if_neg ?_)
  simp [hw, hf, he, ho, Nat.not_le.2 hc]

/-- While entries of the snapshot are still to be written, the context goes on. -/
theorem stopOverBudget_held {s : State} {k : Nat} (h : s.sch.overBudget = []) (hheld : ∃ e ∈ s.que.held, e.1 = (s.launch k).ctx) :
    (s.noteOver k).stopOverBudget = s.noteOver k := by
  have hone : (s.noteOver k).sch.overBudget = [k] := by
    show s.sch.overBudget ++ [k] = [k]
    rw [h]
    rfl
  have hany : ((s.noteOver k).que.held.any fun e => e.1 = ((s.noteOver k).launch k).ctx) = true := by
    obtain ⟨e, hmem, heq⟩ := hheld
    exact List.any_eq_true.2 ⟨e, hmem, by rw [heq]; exact decide_eq_true rfl⟩
  rw [State.stopOverBudget, hone, List.foldl_cons, List.foldl_nil]
  exact if_pos (by rw [hany, Bool.or_true])

end Sys2Proof.Machine
end

section

namespace Sys2Proof.Machine

/-- Settles O41, event by event: a cluster's teams are placed each as if alone (the cores of a rectangle differ), a context stops once nothing of it
runs, and a slice begins with its charges at zero. The first section and rectangle with room (log 38) and firmware's next slice (log 34) are the model's
choices. -/
theorem schedulerEvents : Obligations.SchedulerEvents := by
  unfold Obligations.SchedulerEvents
  refine ⟨?_, ?_, ?_, ?_⟩
  · intro s k r hk hconc ⟨hroom, hrest⟩
    show Host.Outcome.next (s.placeFirst [] s.toPlace) = _
    rw [hk, placeFirst_noRoom _ hroom (List.forall_mem_cons.2 ⟨hconc, hrest⟩)]
  · intro s k sec x y r hk hconc hrect
    obtain ⟨t, ts, ht, hteams, hcores, hnext, halone⟩ := placeCluster_places (s := s) hrect
    refine ⟨t, ts, ?_, hteams, hcores, hnext, halone⟩
    show Host.Outcome.next (s.placeFirst [] s.toPlace) = _
    rw [hk, placeFirst_first r ((tryPlace_cluster hconc).trans ht)]
  · intro s c ha
    rw [exec_preq ha, exec_resm ha]
    refine ⟨fun h => by rw [beginStop_ignored h], ?_, ?_, fun h => by rw [resumeCtx_ignored h], ?_, exec_sliceEnd_early ha,
      exec_sliceEnd_suspended ha, fun hs hf hn => (exec_sliceEnd_runsAgain ha hs hf hn).trans (exec_resm ha), ?_, ?_⟩
    · intro hs hn hg he ho
      obtain ⟨hsusp, hstop, hcur, hparked⟩ := beginStop_suspends hs hn hg he
      exact ⟨_, rfl, hsusp, hstop, hcur, hparked, beginStop_unused hs hn hg he ho⟩
    · intro g hs hn hp hcur hl hc hlaunch hstay
      have hgroups : (s.noteStopping c).groups = [g] := by
        show (s.cur :: s.parked).filter _ = _
        rw [hp, hcur, List.filter_cons_of_pos (by simp [hl]), List.filter_nil]
      have hwaits : (s.noteStopping c).settleStop c = (s.noteStopping c).unstarted c :=
        settleStop_waits (by rw [hgroups]; exact List.mem_singleton_self g) hc hlaunch
          (by rw [hgroups]; exact fun x hx _ => by rw [List.mem_singleton.1 hx]; exact hstay)
      refine ⟨_, rfl, ?_⟩
      rw [beginStop_begins hs hn, hwaits]
      exact ⟨hs, rfl, hcur, rfl, rfl⟩
    · intro hs hsaved hbudget
      rw [resumeCtx_resumes hs hsaved hbudget]
      exact ⟨_, rfl, resumed_suspended s c, rfl, rfl, rfl, rfl, Tab.get_set_same .., chargesReset_zero c s.sch.launches, resumed_charges s c⟩
    · intro hn hs hw
      exact ⟨_, exec_sliceEnd_again ha hs hn hw, beginSlice_outside s c, beginSlice_charges s c, Tab.get_set_same .., rfl⟩
    · intro hn hslice hx hs hstop hrun hg he ho
      exact ⟨_, exec_sliceEnd_preempts ha hs hn hslice hx hrun,
        (beginStop_suspends (s := (s.beginSlice c).byFirmwareWith c) ((beginSlice_suspended s c c).trans hs) hstop hg he).1⟩
  · intro s
    refine ⟨exec_waitingBudget_none, fun hw hc hf he ho => ⟨_, _, exec_waitingBudget_over hw hc hf he ho, rfl, rfl, fun hnone hheld => ?_⟩⟩
    have hsch : (s.snapshot s.ev.a).sch = s.sch := (snapshot_keepsSched s s.ev.a).sch
    have hlaunch : (s.snapshot s.ev.a).launch s.ev.a = s.launch s.ev.a := by rw [State.launch, hsch]; rfl
    have hwaits := stopOverBudget_held (s := s.snapshot s.ev.a) (k := s.ev.a) (by rw [hsch]; exact hnone) (by rw [hlaunch]; exact hheld)
    show ((s.snapshot s.ev.a).noteOver s.ev.a).stopOverBudget.sch.stopping = _
    rw [hwaits]
    rfl

end Sys2Proof.Machine
end

section
/-! SUPPORT. What the scheduler has is left alone by the accesses of a queue to its own structures (R403): those that are made, and those that wait; one
that faults leaves the expert queues and the batch slots. -/

namespace Sys2Proof.Machine

/-! ### The reads of a walk, and translations used (R71, R76) -/

theorem noteUse_keepsSched (s : State) (c : BitVec 12) (page : Nat) (leaf : Word) : KeepsSched s (s.noteUse c page leaf) := by
  rw [noteUse_outside]
  exact ⟨rfl, rfl, rfl⟩

theorem useEntry_keepsSched (s : State) (who : Waiter) (t : TlbEntry) : KeepsSched s (s.useEntry who t) := by
  rw [useEntry_outside]
  exact ⟨rfl, rfl, rfl⟩

theorem touchTlb_keepsSched (s : State) (who : Waiter) (c : BitVec 12) (va : Word) : KeepsSched s (s.touchTlb who c va) := by
  unfold State.touchTlb
  split
  · exact .rfl s
  · dsimp only
    split
    · exact (setCore_keepsSched ..).trans (noteUse_keepsSched ..)
    · split
      · exact useEntry_keepsSched ..
      · exact .rfl s

theorem cacheTable_keepsSched (s : State) (t : TableEntry) : KeepsSched s (s.cacheTable t) := ⟨rfl, rfl, rfl⟩

theorem readTables_keepsSched (s : State) (c : BitVec 12) (va : Word) (tbl n : Nat) : KeepsSched s (s.readTables c va tbl n) := by
  induction n generalizing s tbl with
  | zero => exact .rfl s
  | succ n ih =>
    have hread (b : Bool) (a : Nat) : KeepsSched s (if b = true then s else s.partHome a 8 false) := by
      split
      · exact .rfl s
      · exact (partHome_keeps ..).sched
    simp only [State.readTables]
    split
    · exact .rfl s
    · split
      · exact hread ..
      · exact (hread ..).trans ((cacheTable_keepsSched ..).trans (ih ..))

theorem walkNow_keepsSched (s : State) (who : Waiter) (c : BitVec 12) (va : Word) : KeepsSched s (s.walkNow who c va) := by
  unfold State.walkNow
  split
  · exact .rfl s
  · split
    · exact touchTlb_keepsSched ..
    · split
      · exact .rfl s
      · dsimp only
        split
        · exact (readTables_keepsSched ..).trans (useEntry_keepsSched ..)
        · exact readTables_keepsSched ..

/-! ### Reads -/

theorem pieceLine_keepsSched (s : State) (who : Waiter) (x : Nat × MType × Bool) : KeepsSched s (s.pieceLine who x).1 := by
  unfold State.pieceLine
  split
  · exact .rfl s
  · exact ((passNow_keeps ..).trans (readAs_keeps ..)).sched

theorem pieceLines_keepsSched (s : State) (who : Waiter) (l : List (Nat × MType × Bool)) : KeepsSched s (s.pieceLines who l).1 := by
  induction l generalizing s with
  | nil => exact .rfl s
  | cons x r ih =>
    simp only [State.pieceLines]
    exact (pieceLine_keepsSched s who x).trans (ih _)

theorem windowLine_keepsSched (s : State) (who : Waiter) (line : Nat) : KeepsSched s (s.windowLine who line).1 := by
  unfold State.windowLine
  split
  · unfold State.apertureLine
    split
    · exact .rfl s
    next a _ =>
      have hread := (pieceLines_keepsSched s who a.lines).trans (pieceLine_keepsSched _ who a.md)
      dsimp only
      split
      · split
        · exact hread
        · exact hread
      · exact hread
  · exact .rfl s

theorem readVa_keepsSched {s t : State} {who : Waiter} {c : BitVec 12} {va : Word} {n v : Nat} (h : s.readVa who c va n = .ok (t, v)) : KeepsSched s t := by
  have hwalk := walkNow_keepsSched s who c va
  unfold State.readVa at h
  dsimp only at h
  split at h
  next pa mt co _ =>
    have hline : KeepsSched (s.walkNow who c va) (if 2 ^ 52 ≤ pa then (s.walkNow who c va).windowLine who (pa / 128)
        else ((s.walkNow who c va).passNow who pa false).readAs mt co (pa / 128)).1 := by
      split
      · exact windowLine_keepsSched ..
      · exact ((passNow_keeps ..).trans (readAs_keeps ..)).sched
    generalize (if 2 ^ 52 ≤ pa then (s.walkNow who c va).windowLine who (pa / 128)
      else ((s.walkNow who c va).passNow who pa false).readAs mt co (pa / 128)) = r at h hline
    split at h
    · cases h
    · cases h
      exact hwalk.trans hline
  · cases h

theorem readVaWords_keepsSched {s t : State} {who : Waiter} {c : BitVec 12} {va : Word} {n : Nat} {l : List Word}
    (h : s.readVaWords who c va n = .ok (t, l)) : KeepsSched s t := by
  induction n generalizing s va l with
  | zero =>
    cases h
    exact .rfl _
  | succ n ih =>
    simp only [State.readVaWords] at h
    split at h
    · cases h
    next u v hread =>
      split at h
      · cases h
      next w r hrest =>
        cases h
        exact (readVa_keepsSched hread).trans (ih hrest)

/-! ### Writes -/

theorem markDirty_keepsSched (s : State) (who : Waiter) (c : BitVec 12) (va : Word) : KeepsSched s (s.markDirty who c va) := by
  unfold State.markDirty
  split
  · split
    · exact .rfl s
    · split
      · exact (writePa_keepsSched ..).trans (useEntry_keepsSched ..)
      · exact .rfl s
  · exact .rfl s

theorem dropWrite_keepsSched (s : State) (c : BitVec 12) (a : Word) : KeepsSched s (s.dropWrite c a) := by
  unfold State.dropWrite
  rw [State.countReg_outside]
  exact ⟨rfl, rfl, rfl⟩

theorem writeVa_keepsSched {s t : State} {who : Waiter} {c : BitVec 12} {va : Word} {n v : Nat} {p : Bool} {ts : BitVec 48}
    (h : s.writeVa who c va n v p = .ok (t, ts)) : KeepsSched s t := by
  have hwalk := walkNow_keepsSched s who c va
  unfold State.writeVa at h
  dsimp only at h
  split at h
  · split at h
    · cases h
      exact hwalk.trans (dropWrite_keepsSched ..)
    · rw [show t = _ from (congrArg Prod.fst (Except.ok.inj h)).symm]
      exact hwalk.trans ((passNow_keeps ..).sched.trans ((markDirty_keepsSched ..).trans (writeAs_keeps ..).sched))
  · cases h

theorem writeVaWords_keepsSched {s t : State} {who : Waiter} {c : BitVec 12} {va : Word} {l : List Word}
    (h : s.writeVaWords who c va l = .ok t) : KeepsSched s t := by
  induction l generalizing s va with
  | nil =>
    cases h
    exact .rfl _
  | cons w r ih =>
    simp only [State.writeVaWords] at h
    split at h
    · cases h
    next u ts hwrite => exact (writeVa_keepsSched hwrite).trans (ih h)

/-! ### Accesses that wait (R78, R203, R204) -/

theorem joinWalk_keepsSched (s : State) (who : Waiter) (c : BitVec 12) (va : Word) (wr fx : Bool) : KeepsSched s (s.joinWalk who c va wr fx) := by
  unfold State.joinWalk
  dsimp only
  split <;> exact ⟨rfl, rfl, rfl⟩

theorem pageRequest_keepsSched (s : State) (who : List Waiter) (c : BitVec 12) (va : Word) (wr fx perm : Bool) :
    KeepsSched s (s.pageRequest who c va wr fx perm) := by
  have hmmu (m : Mmu) : KeepsSched s { s with mmu := m } := ⟨rfl, rfl, rfl⟩
  unfold State.pageRequest
  dsimp only
  split
  · exact hmmu _
  · split
    · exact .rfl s
    · exact KeepsSched.trans (hmmu _) (postEntry_keepsSched _ _ _)

theorem setFilter_keepsSched (s : State) (page : Nat) (f : Filter) : KeepsSched s (s.setFilter page f) := ⟨rfl, rfl, rfl⟩

theorem headSend_keepsSched (s : State) (m : HeadMsg) : KeepsSched s (s.headSend m) := ⟨rfl, rfl, rfl⟩

theorem snoopHeads_keepsSched (s : State) (page : Nat) (v : BitVec 64) (inv : Bool) (f : Filter) : KeepsSched s (s.snoopHeads page v inv f) := by
  have hsent : KeepsSched s ((headsOf v).foldl (fun s h => (List.range 128).foldl (fun s b => s.headSend (.snoop h page b inv)) s) s) :=
    foldl_keepsSched _ (fun u h => foldl_keepsSched _ (fun w b => headSend_keepsSched w (.snoop h page b inv)) _ u) _ s
  exact hsent.trans (setFilter_keepsSched ..)

theorem startLocal_keepsSched (s : State) (who : Waiter) (r : FReq) : KeepsSched s (s.startLocal who r) := by
  unfold State.startLocal
  dsimp only
  split_ifs
  · exact setFilter_keepsSched ..
  · exact setFilter_keepsSched ..
  · exact snoopHeads_keepsSched ..
  · exact snoopHeads_keepsSched ..

theorem askFilter_keepsSched (s : State) (who : Waiter) (pa : Nat) (wr : Bool) : KeepsSched s (s.askFilter who pa wr) := by
  unfold State.askFilter
  dsimp only
  split_ifs
  · exact .rfl s
  · exact .rfl s
  · exact setFilter_keepsSched ..
  · exact (setFilter_keepsSched ..).trans (startLocal_keepsSched ..)
  · exact setFilter_keepsSched ..
  · exact .rfl s

theorem askHalves_keepsSched (s : State) (pa n : Nat) (wr : Bool) : KeepsSched s (s.askHalves pa n wr) := by
  refine foldl_keepsSched _ (fun u p => ?_) _ s
  split
  · exact ⟨rfl, rfl, rfl⟩
  · split
    · exact ⟨rfl, rfl, rfl⟩
    · exact .rfl u
  · exact .rfl u

theorem askNow_keepsSched (s : State) (who : Waiter) (pa n : Nat) (wr co : Bool) : KeepsSched s (s.askNow who pa n wr co) := by
  unfold State.askNow
  split
  · exact .rfl s
  · split
    · exact (askHalves_keepsSched ..).trans (askFilter_keepsSched ..)
    · split
      · unfold State.refuseNow
        split
        · exact .rfl s
        · exact (setHome_keeps ..).sched
      · exact .rfl s

theorem askAt_keepsSched (s : State) (who : Waiter) (pa n : Nat) (wr co : Bool) : KeepsSched s (s.askAt who pa n wr co) := by
  unfold State.askAt
  split
  · split
    · exact askNow_keepsSched ..
    · exact .rfl s
  · split
    · exact .rfl s
    · exact askNow_keepsSched ..

theorem awaitPage_keepsSched (s : State) (who : Waiter) (c : BitVec 12) (va : Word) (k : AccKind) (n : Nat) : KeepsSched s (s.awaitPage who c va k n) := by
  unfold State.awaitPage
  split
  · dsimp only
    split_ifs
    · exact .rfl s
    · exact joinWalk_keepsSched ..
    · split
      · exact walkNow_keepsSched ..
      · exact pageRequest_keepsSched ..
  · exact pageRequest_keepsSched ..
  · exact askAt_keepsSched ..
  · exact .rfl s

theorem awaitX_keepsSched (s : State) (who : Waiter) (c : BitVec 12) (x : Xlat) (n : Nat) : KeepsSched s (s.awaitX who c x n) := by
  unfold State.awaitX
  split
  · exact awaitPage_keepsSched ..
  · exact awaitPage_keepsSched ..
  · exact .rfl s

/-! ### Accesses of a queue (R403) -/

/-- From `s` to `t` no expert queue and no batch slot has changed. -/
structure KeepsQueues (s t : State) : Prop where
  experts : t.sch.experts = s.sch.experts
  batches : t.sch.batches = s.sch.batches

namespace KeepsQueues

theorem rfl (s : State) : KeepsQueues s s := ⟨Eq.refl _, Eq.refl _⟩

theorem trans {s t u : State} (a : KeepsQueues s t) (b : KeepsQueues t u) : KeepsQueues s u :=
  ⟨b.experts.trans a.experts, b.batches.trans a.batches⟩

theorem expert {s t : State} (k : KeepsQueues s t) (c : BitVec 12) (h : BitVec 16) : t.expert? c h = s.expert? c h := by
  rw [State.expert?, k.experts]
  exact Eq.refl _

theorem batch {s t : State} (k : KeepsQueues s t) (c : BitVec 12) (h : Nat) : t.batches c h = s.batches c h := by
  rw [State.batches, k.batches]
  exact Eq.refl _

end KeepsQueues

theorem KeepsSched.queues {s t : State} (k : KeepsSched s t) : KeepsQueues s t := ⟨by rw [k.sch], by rw [k.sch]⟩

theorem consumePoison_keepsQueues (s : State) (c : BitVec 12) (core : BitVec 10) (slot : BitVec 3) : KeepsQueues s (s.consumePoison c core slot) := by
  unfold State.consumePoison
  rw [State.countReg_outside]
  dsimp only
  split <;> exact ⟨rfl, rfl⟩

/-- The access that did not go through, as it waits or faults. -/
def Stall.next : Stall → State
  | .fault s .. => s
  | .wait s => s

theorem stall_keepsQueues (s : State) (who : Waiter) (c : BitVec 12) (va : Word) (x : Xlat) (n : Nat) : KeepsQueues s (s.stall who c va x n).next := by
  unfold State.stall
  split
  · rw [Stall.next]
    split
    · exact consumePoison_keepsQueues ..
    · exact .rfl s
  · exact .rfl s
  · split
    · exact ⟨rfl, rfl⟩
    · exact (awaitX_keepsSched ..).queues

/-- What an access of a queue leaves. -/
def QAcc.next : QAcc → State
  | .ok s .. => s
  | .wait s => s
  | .fault s => s

theorem queueMiss_keepsQueues (s : State) (who : Waiter) (c : BitVec 12) (va : Word) (x : Xlat) (n : Nat) :
    KeepsQueues s (s.queueMiss who c va x n).next := by
  have h := stall_keepsQueues s who c va x n
  unfold State.queueMiss
  split <;> rename_i e <;> rw [e] at h <;> exact h

theorem queueWords_keepsQueues (s : State) (who : Waiter) (c : BitVec 12) (va : Word) (n : Nat) : KeepsQueues s (s.queueWords who c va n).next := by
  unfold State.queueWords
  split
  next h => exact (readVaWords_keepsSched h).queues
  · exact queueMiss_keepsQueues ..

theorem queueWrite_keepsQueues (s : State) (who : Waiter) (c : BitVec 12) (va : Word) (ts : BitVec 48) (l : List Word) :
    KeepsQueues s (s.queueWrite who c va ts l).next := by
  induction l generalizing s va ts with
  | nil => exact .rfl s
  | cons w r ih =>
    unfold State.queueWrite
    split
    next h => exact (writeVa_keepsSched h).queues.trans (ih ..)
    · exact queueMiss_keepsQueues ..

theorem ringTokens_keepsQueues {s t : State} {q : ExpertQ} {k : BitVec 32} {n : Nat} {l : List Token} (h : s.ringTokens q k n = .ok (t, l)) :
    KeepsQueues s t ∧ l.length = n := by
  induction n generalizing s k l with
  | zero =>
    cases h
    exact ⟨.rfl _, rfl⟩
  | succ n ih =>
    have hread := queueWords_keepsQueues s (.queue q.ctx q.qh) q.ctx (q.ringVa k) 5
    simp only [State.ringTokens] at h
    split at h
    next u ws ts hwords =>
      rw [hwords] at hread
      split at h
      next v r hrest =>
        cases h
        obtain ⟨hkeeps, hlen⟩ := ih hrest
        exact ⟨hread.trans hkeeps, congrArg (· + 1) hlen⟩
      · cases h
    · cases h

/-- An append to a task queue that goes through. -/
theorem appendTask_keepsQueues {s t : State} {who : Waiter} {c : BitVec 12} {h : BitVec 16} {rec : List Word}
    (ht : s.appendTask who c h rec 0 = .done t) : KeepsQueues s t := by
  unfold State.appendTask at ht
  split at ht
  · cases ht
  · split at ht
    · cases ht
    · dsimp only at ht
      split at ht
      · split at ht <;> cases ht
      next u hwrite =>
        cases ht
        exact (writeVaWords_keepsSched hwrite).queues.trans ⟨rfl, rfl⟩

end Sys2Proof.Machine
end

section
/-! SUPPORT. Expert queues one by one: what a change of one leaves of the others, and how the resident part is refilled (R151). -/

namespace Sys2Proof.Machine

/-! ### One expert queue -/

theorem expert?_key {s : State} {c : BitVec 12} {h : BitVec 16} {q : ExpertQ} (hq : s.expert? c h = some q) : q.ctx = c ∧ q.qh = h := by
  have hkey := List.find?_some hq
  rwa [Bool.and_eq_true, decide_eq_true_eq, decide_eq_true_eq] at hkey

/-- Every expert queue changed by `f`. -/
def State.mapExperts (s : State) (f : ExpertQ → ExpertQ) : State := { s with sch := { s.sch with experts := s.sch.experts.map f } }

theorem expert?_mapExperts {f : ExpertQ → ExpertQ} (hf : ∀ q, (f q).ctx = q.ctx ∧ (f q).qh = q.qh) (s : State) (c : BitVec 12) (h : BitVec 16) :
    (s.mapExperts f).expert? c h = (s.expert? c h).map f := by
  have hsame : (fun q : ExpertQ => decide (q.ctx = c) && decide (q.qh = h)) ∘ f = fun q => decide (q.ctx = c) && decide (q.qh = h) :=
    funext fun q => by rw [Function.comp, (hf q).1, (hf q).2]
  exact List.find?_map.trans (by rw [hsame]; rfl)

theorem putExpert_eq (s : State) (q : ExpertQ) : s.putExpert q = s.mapExperts fun x => if x.ctx = q.ctx && x.qh = q.qh then q else x := rfl

/-- A queue put in its place is there. -/
theorem expert?_putExpert {s : State} {c : BitVec 12} {h : BitVec 16} {p q : ExpertQ} (hp : s.expert? c h = some p) (hc : q.ctx = c) (hh : q.qh = h) :
    (s.putExpert q).expert? c h = some q := by
  obtain ⟨hpc, hph⟩ := expert?_key hp
  rw [putExpert_eq, expert?_mapExperts (fun x => ?_), hp, Option.map_some]
  · simp [hpc, hph, hc, hh]
  · split
    next hx =>
      rw [Bool.and_eq_true, decide_eq_true_eq, decide_eq_true_eq] at hx
      exact ⟨hx.1.symm, hx.2.symm⟩
    · exact ⟨rfl, rfl⟩

theorem putExpert_batches (s : State) (q : ExpertQ) : (s.putExpert q).sch.batches = s.sch.batches := rfl

/-- An expert queue with ERR set in its entry, where it is the one named. -/
def ExpertQ.withErr (c : BitVec 12) (h : BitVec 16) (q : ExpertQ) : ExpertQ :=
  if q.ctx = c && q.qh = h then { q with entry := q.entry.set 0 (q.entry[0] ||| field 58 1) } else q

theorem setQword_keepsSched (s : State) (c : BitVec 12) (h : BitVec 16) (i : Nat) (w : Word) : KeepsSched s (s.setQword c h i w) :=
  writePa_keepsSched ..

theorem setErr_eq (s : State) (c : BitVec 12) (h : BitVec 16) :
    s.setErr c h = (s.setQword c h 0 (s.qword c h 0 ||| field 58 1)).mapExperts (ExpertQ.withErr c h) := rfl

theorem withErr_eq (c : BitVec 12) (h : BitVec 16) (q : ExpertQ) : ∃ e, ExpertQ.withErr c h q = { q with entry := e } := by
  unfold ExpertQ.withErr
  split
  · exact ⟨_, rfl⟩
  · exact ⟨_, rfl⟩

/-- ERR of a queue changes its entry alone. -/
theorem expert?_setErr {s : State} {c : BitVec 12} {h : BitVec 16} {q : ExpertQ} (hq : s.expert? c h = some q) (d : BitVec 12) (g : BitVec 16) :
    ∃ e, (s.setErr d g).expert? c h = some { q with entry := e } := by
  obtain ⟨e, he⟩ := withErr_eq d g q
  refine ⟨e, ?_⟩
  rw [setErr_eq, expert?_mapExperts (fun x => ?_), (setQword_keepsSched ..).queues.expert, hq, Option.map_some, he]
  obtain ⟨e', hx⟩ := withErr_eq d g x
  rw [hx]
  exact ⟨rfl, rfl⟩

theorem mapExperts_batches (s : State) (f : ExpertQ → ExpertQ) : (s.mapExperts f).sch.batches = s.sch.batches := rfl

theorem setErr_batches (s : State) (c : BitVec 12) (h : BitVec 16) : (s.setErr c h).sch.batches = s.sch.batches := by
  rw [setErr_eq, mapExperts_batches, (setQword_keepsSched s c h 0 _).queues.batches]

/-! ### The resident part refilled (R151) -/

section
variable {s : State} {c : BitVec 12} {h : BitVec 16} {q : ExpertQ}

/-- A full resident part, or an empty ring, leaves it as it is. -/
theorem refill_idle (hq : s.expert? c h = some q) (hfull : q.rcap ≤ q.tokens.length ∨ q.ringCount = 0) (n : Nat) : s.refill c h n = s := by
  cases n with
  | zero => rfl
  | succ n =>
    simp only [State.refill, hq]
    exact if_pos (by rw [Bool.or_eq_true, decide_eq_true_eq, decide_eq_true_eq]; exact hfull)

/-- The queue with the oldest token of its ring behind the resident ones. -/
def ExpertQ.moved (q : ExpertQ) (ws : List Word) : ExpertQ := { q with tokens := q.tokens ++ [tokenOf ws], rrdix := q.rrdix + 1 }

theorem refill_step (hq : s.expert? c h = some q) (hroom : q.tokens.length < q.rcap) (hring : q.ringCount ≠ 0) (n : Nat) :
    s.refill c h (n + 1) = match s.queueWords (.queue c h) c (q.ringVa q.rrdix) 5 with
      | .ok s ws _ => State.refill (s.putExpert (q.moved ws)) c h n
      | .wait s => s
      | .fault s => s.setErr c h := by
  simp only [State.refill, hq]
  rw [if_neg (by simp [Nat.not_le.2 hroom, hring])]
  rfl

theorem refill_moves (hq : s.expert? c h = some q) (hroom : q.tokens.length < q.rcap) (hring : q.ringCount ≠ 0) {u : State} {ws : List Word} {ts : BitVec 48}
    (hread : s.queueWords (.queue c h) c (q.ringVa q.rrdix) 5 = .ok u ws ts) (n : Nat) :
    s.refill c h (n + 1) = (u.putExpert (q.moved ws)).refill c h n := by
  rw [refill_step hq hroom hring, hread]

/-- The last token of the ring moves up alone. -/
theorem refill_last (hq : s.expert? c h = some q) (hroom : q.tokens.length < q.rcap) (hring : q.ringCount = 1) {u : State} {ws : List Word} {ts : BitVec 48}
    (hread : s.queueWords (.queue c h) c (q.ringVa q.rrdix) 5 = .ok u ws ts) (hsame : u.sch.experts = s.sch.experts) :
    (s.refill c h 4096).expert? c h = some (q.moved ws) ∧
    s.refill c h 4096 = { u with sch := { u.sch with experts := (s.refill c h 4096).sch.experts } } := by
  obtain ⟨hc, hh⟩ := expert?_key hq
  have hput : (u.putExpert (q.moved ws)).expert? c h = some (q.moved ws) := expert?_putExpert (by rw [State.expert?, hsame]; exact hq) hc hh
  have hempty : (q.moved ws).ringCount = 0 := by
    have hone : q.rwrix - q.rrdix = 1 := BitVec.eq_of_toNat_eq hring
    rw [ExpertQ.ringCount, ExpertQ.moved, ← BitVec.sub_sub, hone]
    rfl
  rw [refill_moves hq hroom (by rw [hring]; decide) hread, refill_idle hput (.inr hempty)]
  exact ⟨hput, rfl⟩

/-- From `q` to `p` tokens `more` have moved up from the ring. -/
structure MovedUp (q p : ExpertQ) (more : List Token) : Prop where
  tokens : p.tokens = q.tokens ++ more
  rrdix : p.rrdix = q.rrdix + BitVec.ofNat 32 more.length
  rwrix : p.rwrix = q.rwrix
  lastAt : p.lastAt = q.lastAt
  fired : p.fired = q.fired
  none : q.ringCount = 0 → more = []

theorem MovedUp.entry (q : ExpertQ) (e : Vector Word 8) : MovedUp q { q with entry := e } [] :=
  ⟨(List.append_nil _).symm, by simp, rfl, rfl, rfl, fun _ => rfl⟩

theorem MovedUp.after {p : ExpertQ} {ws : List Word} {more : List Token} (hring : q.ringCount ≠ 0) (m : MovedUp (q.moved ws) p more) :
    MovedUp q p (tokenOf ws :: more) := by
  obtain ⟨htokens, hrrdix, hrwrix, hlast, hfired, -⟩ := m
  refine ⟨?_, ?_, hrwrix, hlast, hfired, fun h => absurd h hring⟩
  · rw [htokens, ExpertQ.moved, List.append_assoc]
    rfl
  · rw [hrrdix, ExpertQ.moved, List.length_cons, BitVec.add_assoc, Nat.add_comm, BitVec.ofNat_add]
    rfl

/-- A refill moves tokens up, and changes no batch slot. -/
theorem refill_movedUp (hq : s.expert? c h = some q) (n : Nat) :
    (∃ p more, (s.refill c h n).expert? c h = some p ∧ MovedUp q p more) ∧ (s.refill c h n).sch.batches = s.sch.batches := by
  induction n generalizing s q with
  | zero => exact ⟨⟨q, [], hq, .entry q q.entry⟩, rfl⟩
  | succ n ih =>
    by_cases hidle : q.rcap ≤ q.tokens.length ∨ q.ringCount = 0
    · rw [refill_idle hq hidle]
      exact ⟨⟨q, [], hq, .entry q q.entry⟩, rfl⟩
    · obtain ⟨hroom, hring⟩ := not_or.1 hidle
      have hkeeps := queueWords_keepsQueues s (.queue c h) c (q.ringVa q.rrdix) 5
      rw [refill_step hq (Nat.not_le.1 hroom) hring]
      cases hread : s.queueWords (.queue c h) c (q.ringVa q.rrdix) 5 with
      | ok u ws ts =>
        rw [hread] at hkeeps
        obtain ⟨hc, hh⟩ := expert?_key hq
        have hput : (u.putExpert (q.moved ws)).expert? c h = some (q.moved ws) := expert?_putExpert ((hkeeps.expert c h).trans hq) hc hh
        obtain ⟨⟨p, more, hp, hmoved⟩, hbatches⟩ := ih hput
        exact ⟨⟨p, _, hp, hmoved.after hring⟩, hbatches.trans hkeeps.batches⟩
      | wait u =>
        rw [hread] at hkeeps
        exact ⟨⟨q, [], (hkeeps.expert c h).trans hq, .entry q q.entry⟩, hkeeps.batches⟩
      | fault u =>
        rw [hread] at hkeeps
        obtain ⟨e, he⟩ := expert?_setErr ((hkeeps.expert c h).trans hq) c h
        exact ⟨⟨_, [], he, .entry q e⟩, (setErr_batches ..).trans hkeeps.batches⟩

end

end Sys2Proof.Machine
end

section
/-! SUPPORT. The order of a round (R155). -/

namespace Sys2Proof.Machine

theorem firesBefore_iff (a b : ExpertQ) : firesBefore a b = true ↔ b.pri < a.pri ∨ a.pri = b.pri ∧ (a.headTime < b.headTime ∨ a.headTime = b.headTime ∧
    (a.ctx.toNat < b.ctx.toNat ∨ a.ctx.toNat = b.ctx.toNat ∧ a.qh.toNat ≤ b.qh.toNat)) := by
  simp only [firesBefore, Bool.or_eq_true, Bool.and_eq_true, decide_eq_true_eq, BitVec.lt_def, BitVec.le_def, BitVec.toNat_inj]

theorem firesBefore_trans (a b c : ExpertQ) (hab : firesBefore a b = true) (hbc : firesBefore b c = true) : firesBefore a c = true := by
  rw [firesBefore_iff] at *
  omega

theorem firesBefore_total (a b : ExpertQ) : firesBefore a b = true ∨ firesBefore b a = true := by
  rw [firesBefore_iff, firesBefore_iff]
  omega

end Sys2Proof.Machine
end

section
/-! SUPPORT. A firing (R156, R157). -/

namespace Sys2Proof.Machine

/-- What is appended to the task queue of a firing into batch slot `n` (R157). -/
def fireRecord (q : ExpertQ) (count n : Nat) : List Word :=
  taskRecord q.entry[1] q.entry[2] 0 2 0 q.aff 0 0 (q.slotVa n) (BitVec.ofNat 64 count) (BitVec.ofNat 64 q.qh.toNat) 0 0

/-- What is written to its batch slot. -/
def State.batchWords (s : State) (q : ExpertQ) (l : List Token) : List Word :=
  batchHeader q l.length (!q.filled s.clock127) s.timebase (match l with
    | t :: _ => age s.clock127 t.time
    | [] => 0) ++ l.flatMap fun t => t.words.toList

/-- The queue once `l` has been fired, with `nr` tokens of it from the ring. -/
def ExpertQ.firedOf (q : ExpertQ) (l : List Token) (nr : Nat) : ExpertQ :=
  { q with tokens := q.tokens.drop (l.length - nr), rrdix := q.rrdix + BitVec.ofNat 32 nr, fired := q.fired + 1 }

/-- The batch written, the queue and its batch slot are as after the firing. -/
def State.batchTaken (s : State) (q : ExpertQ) (l : List Token) (nr n : Nat) (ts : BitVec 48) : State :=
  let s := { s with sch := { s.sch with
    partClock := max48 s.sch.partClock ts
    eligible := s.sch.eligible.filter fun x => !(x = (q.ctx, q.qh)) } }
  let s := s.putExpert (q.firedOf l nr)
  s.setBatches q.ctx q.qh.toNat (s.batches q.ctx q.qh.toNat ++ [(n, q.slotVa n)])

/-- A firing on its named parts: the append is tried, the batch written, the queue changed and the append made. -/
theorem fireInto_eq (s : State) (q : ExpertQ) (l : List Token) (nr n : Nat) :
    let append (s : State) := s.appendTask (.queue q.ctx q.qh) q.ctx q.tqh (fireRecord q l.length n) 0
    s.fireInto q l nr n = match append s with
      | .miss | .full => .passed s
      | .wait s => .wait s
      | .fault s .. => .passed s
      | .done _ =>
        match s.queueWrite (.queue q.ctx q.qh) q.ctx (q.slotVa n) 0 (s.batchWords q l) with
        | .wait s => .wait s
        | .fault s => .passed (s.setErr q.ctx q.qh)
        | .ok v _ ts =>
          match append (v.batchTaken q l nr n ts) with
          | .done w => .fired (w.refill q.ctx q.qh 4096)
          | _ => .fired (v.batchTaken q l nr n ts) := rfl

section
variable {s u : State} {c : BitVec 12} {h : BitVec 16} {q : ExpertQ}

/-- A firing into a batch slot takes the batch in a state with the same queues, and then may refill. -/
theorem fireInto_fired {l : List Token} {nr n : Nat} (hf : s.fireInto q l nr n = .fired u) :
    ∃ v ts w, KeepsQueues s v ∧ KeepsQueues (v.batchTaken q l nr n ts) w ∧ (u = w.refill q.ctx q.qh 4096 ∨ u = w) := by
  have hkeeps := queueWrite_keepsQueues s (.queue q.ctx q.qh) q.ctx (q.slotVa n) 0 (s.batchWords q l)
  rw [fireInto_eq] at hf
  split at hf
  · cases hf
  · cases hf
  · cases hf
  · cases hf
  · split at hf
    · cases hf
    · cases hf
    next v _ ts hwrite =>
      rw [hwrite] at hkeeps
      split at hf
      next w hdone => exact ⟨v, ts, w, hkeeps, appendTask_keepsQueues hdone, .inl (Fire.fired.inj hf).symm⟩
      · exact ⟨v, ts, _, hkeeps, .rfl _, .inr (Fire.fired.inj hf).symm⟩

/-- A queue that fires takes `n` tokens, those of the ring after the resident ones, and the lowest batch slot free. -/
theorem fire_fired (hq : s.expert? c h = some q) (hidle : q.rcap ≤ q.tokens.length ∨ q.ringCount = 0) (hf : s.fire c h = .fired u) :
    ∃ v l i, let n := min q.maxBatch (q.count s.clock127)
      n ≠ 0 ∧ s.ringTokens q q.rrdix (n - q.tokens.length) = .ok (v, l) ∧
      (List.range q.batchSlots).find? (fun i => !(i ∈ (s.batches c h.toNat).map Prod.fst)) = some i ∧
      v.fireInto q (q.tokens.take n ++ l) (n - q.tokens.length) i = .fired u := by
  unfold State.fire at hf
  rw [refill_idle hq hidle] at hf
  simp only [hq] at hf
  split_ifs at hf with he hb ht hq hn
  split at hf
  · cases hf
  · cases hf
  · cases hf
  next v l hring =>
    split at hf
    · cases hf
    next i hi => exact ⟨v, l, i, hn, hring, hi, hf⟩

theorem batchTaken_expert (hq : s.expert? c h = some q) (l : List Token) (nr n : Nat) (ts : BitVec 48) :
    (s.batchTaken q l nr n ts).expert? c h = some (q.firedOf l nr) := by
  obtain ⟨hc, hh⟩ := expert?_key hq
  exact expert?_putExpert (s := { s with sch := { s.sch with
    partClock := max48 s.sch.partClock ts, eligible := s.sch.eligible.filter fun x => !(x = (q.ctx, q.qh)) } }) hq hc hh

theorem batchTaken_batches (s : State) (q : ExpertQ) (l : List Token) (nr n : Nat) (ts : BitVec 48) :
    (s.batchTaken q l nr n ts).batches q.ctx q.qh.toNat = s.batches q.ctx q.qh.toNat ++ [(n, q.slotVa n)] := Tab.get_set_same ..

/-- The queue and its batch slots after a firing (R156, R157). -/
theorem fireInto_leaves (hq : s.expert? c h = some q) {l : List Token} {nr n : Nat} (hf : s.fireInto q l nr n = .fired u) :
    (∃ p more, u.expert? c h = some p ∧ MovedUp (q.firedOf l nr) p more) ∧
    u.batches c h.toNat = s.batches c h.toNat ++ [(n, q.slotVa n)] := by
  obtain ⟨v, ts, w, hv, hw, hu⟩ := fireInto_fired hf
  have hexpert := (hw.expert c h).trans (batchTaken_expert ((hv.expert c h).trans hq) l nr n ts)
  obtain ⟨hmoved, hbatches⟩ := refill_movedUp hexpert 4096
  obtain ⟨rfl, rfl⟩ := expert?_key hq
  have hslots : w.batches q.ctx q.qh.toNat = s.batches q.ctx q.qh.toNat ++ [(n, q.slotVa n)] := by
    rw [hw.batch, batchTaken_batches, hv.batch]
  obtain rfl | rfl := hu
  · refine ⟨hmoved, ?_⟩
    rw [State.batches, hbatches]
    exact hslots
  · exact ⟨⟨_, [], hexpert, .entry _ _⟩, hslots⟩

/-- Tokens that are fired: `n` of them, resident ones first. -/
theorem firedTokens_length {n : Nat} {l r : List Token} (hr : r.length = n - l.length) : (l.take n ++ r).length - (n - l.length) = n - (n - l.length) := by
  rw [List.length_append, List.length_take, hr]
  omega

/-- A queue left with no token in its ring has none that move up. -/
theorem firedOf_ringCount {nr : Nat} (h : q.ringCount = nr) (l : List Token) : (q.firedOf l nr).ringCount = 0 := by
  have hnr : BitVec.ofNat 32 nr = q.rwrix - q.rrdix := by rw [← h, ExpertQ.ringCount, BitVec.ofNat_toNat, BitVec.setWidth_eq]
  have hempty : q.rwrix - (q.rrdix + BitVec.ofNat 32 nr) = 0 := by
    rw [hnr]
    bv_omega
  rw [ExpertQ.ringCount, ExpertQ.firedOf, hempty]
  rfl

end

/-- The firing of the queue `q`: how many tokens leave it and its ring, and the batch slot that is taken (R156, R157). -/
theorem fire_leaves {s u : State} {c : BitVec 12} {h : BitVec 16} {q : ExpertQ} (hq : s.expert? c h = some q)
    (hidle : q.rcap ≤ q.tokens.length ∨ q.ringCount = 0) (hf : s.fire c h = .fired u) :
    ∃ n nr, 0 < n ∧ nr ≤ n ∧ n ≤ q.maxBatch ∧ (nr = 0 ∨ n - nr = q.tokens.length) ∧
      (∃ p more, u.expert? c h = some p ∧ p.tokens = q.tokens.drop (n - nr) ++ more ∧
        p.rrdix = q.rrdix + BitVec.ofNat 32 nr + BitVec.ofNat 32 more.length ∧ p.rwrix = q.rwrix ∧ p.lastAt = q.lastAt ∧ p.fired = q.fired + 1 ∧
        (q.ringCount = nr → more = [])) ∧
      ∃ i, i < q.batchSlots ∧ (∀ x ∈ s.batches c h.toNat, x.1 ≠ i) ∧ u.batches c h.toNat = s.batches c h.toNat ++ [(i, q.slotVa i)] := by
  obtain ⟨v, l, i, hn, hring, hslot, hinto⟩ := fire_fired hq hidle hf
  have hmax : min q.maxBatch (q.count s.clock127) ≤ q.maxBatch := Nat.min_le_left ..
  generalize min q.maxBatch (q.count s.clock127) = n at *
  obtain ⟨hkeeps, hlen⟩ := ringTokens_keepsQueues hring
  obtain ⟨⟨p, more, hp, hmoved⟩, hbatches⟩ := fireInto_leaves ((hkeeps.expert c h).trans hq) hinto
  have hfree := List.find?_some hslot
  refine ⟨n, n - q.tokens.length, Nat.pos_of_ne_zero hn, Nat.sub_le .., hmax, by omega, ⟨p, more, hp, ?_, hmoved.rrdix, hmoved.rwrix, hmoved.lastAt,
    hmoved.fired, fun h => hmoved.none (firedOf_ringCount h _)⟩, i, ?_, ?_, ?_⟩
  · rw [hmoved.tokens, ExpertQ.firedOf, firedTokens_length hlen]
  · exact List.mem_range.1 (List.mem_of_find?_eq_some hslot)
  · intro x hx he
    rw [Bool.not_eq_true', decide_eq_false_iff_not] at hfree
    exact hfree (he ▸ List.mem_map_of_mem hx)
  · rw [hbatches, hkeeps.batch]

/-! ### Members of a round -/

theorem fireNext_fired {s u : State} {c : BitVec 12} {h : BitVec 16} (r : List (BitVec 12 × BitVec 16)) (hf : s.fire c h = .fired u) :
    s.fireNext ((c, h) :: r) = { u with sch := { u.sch with round := r } } := by
  simp only [State.fireNext, hf]

theorem fireNext_waits {s u : State} {c : BitVec 12} {h : BitVec 16} (r : List (BitVec 12 × BitVec 16)) (hf : s.fire c h = .wait u) :
    s.fireNext ((c, h) :: r) = { u with sch := { u.sch with round := (c, h) :: r } } := by
  simp only [State.fireNext, hf]

theorem fireNext_passes {s u : State} {c : BitVec 12} {h : BitVec 16} (hf : s.fire c h = .passed u) :
    s.fireNext [(c, h)] = { u with sch := { u.sch with round := [] } } := by
  simp only [State.fireNext, hf]

end Sys2Proof.Machine
end

section
/-! SUPPORT. Residency and age (R136, R153, R154). -/

namespace Sys2Proof.Machine

section
variable {s : State} {c : BitVec 12} {h : BitVec 16} (ha : s.ev.a = c.toNat) (hb : s.ev.b = h.toNat)
include ha hb

theorem evQueue : BitVec.ofNat 12 s.ev.a = c ∧ BitVec.ofNat 16 s.ev.b = h := by
  rw [ha, hb, BitVec.ofNat_toNat, BitVec.ofNat_toNat, BitVec.setWidth_eq, BitVec.setWidth_eq]
  exact ⟨rfl, rfl⟩

theorem exec_ringRefill : exec .ringRefill s = .next (s.refill c h 4096) := by
  obtain ⟨hc, hh⟩ := evQueue ha hb
  rw [← hc, ← hh]
  rfl

theorem exec_queueBringIn_resident (hr : (s.expert? c h).isSome = true ∨ (s.taskQ? c h).isSome = true) : exec .queueBringIn s = .next s := by
  obtain ⟨hc, hh⟩ := evQueue ha hb
  rw [← hc, ← hh] at hr
  exact congrArg Host.Outcome.next (if_pos (by rw [Bool.or_eq_true]; exact hr))

/-- A queue that is not resident is brought in, where nothing is evicted for it. -/
theorem exec_queueBringIn_absent (he : s.expert? c h = none) (ht : s.taskQ? c h = none) (hf : s.ev.flag = false) :
    exec .queueBringIn s = .next (s.bringIn c h) := by
  obtain ⟨hc, hh⟩ := evQueue ha hb
  rw [← hc, ← hh] at he ht ⊢
  refine congrArg Host.Outcome.next ?_
  dsimp only
  rw [he, ht, hf]
  rfl

theorem exec_ageLimitExpiry {q : ExpertQ} (hq : s.expert? c h = some q) : exec .ageLimitExpiry s =
    .next (if s.expertRuns q && q.aged s.clock127 && !decide ((c, h) ∈ s.sch.eligible) then
      { s with sch := { s.sch with eligible := s.sch.eligible ++ [(c, h)] } } else s) := by
  obtain ⟨hc, hh⟩ := evQueue ha hb
  rw [← hc, ← hh] at hq ⊢
  refine congrArg Host.Outcome.next ?_
  dsimp only
  rw [hq]

end

/-- The task queue of an entry. -/
def taskOf (c : BitVec 12) (h : BitVec 16) (w : Vector Word 8) : TaskQ :=
  ⟨c, h, w[1], bits w[2] 63 59, w[4], BitVec.ofNat 32 (bits w[3] 63 32), BitVec.ofNat 32 (bits w[3] 31 0)⟩

/-- The expert queue of an entry. -/
def expertOf (c : BitVec 12) (h : BitVec 16) (w : Vector Word 8) : ExpertQ :=
  ⟨c, h, w, [], BitVec.ofNat 32 (bits w[6] 63 32), BitVec.ofNat 32 (bits w[6] 31 0), BitVec.ofNat 32 (bits w[5] 31 0), none⟩

/-- The expert queue of an entry resident, its entry marked as such. -/
def State.expertAdded (s : State) (c : BitVec 12) (h : BitVec 16) : State :=
  { s.setQword c h 7 ((s.entryWords c h)[7] ||| field 13 1) with
    sch := { s.sch with experts := s.sch.experts ++ [expertOf c h (s.entryWords c h)] } }

/-- Batch slots that its entry says are in use. -/
def State.slotsShown (s : State) (c : BitVec 12) (h : BitVec 16) (w : Vector Word 8) : State :=
  if (s.batches c h.toNat).isEmpty then
    s.setBatches c h.toNat ((List.range (bits w[5] 54 48)).map fun n => (n, (expertOf c h w).slotVa n)) else s

theorem slotsShown_experts (s : State) (c : BitVec 12) (h : BitVec 16) (w : Vector Word 8) : (s.slotsShown c h w).sch.experts = s.sch.experts := by
  unfold State.slotsShown
  split <;> rfl

theorem expertAdded_expert {s : State} {c : BitVec 12} {h : BitVec 16} (hn : s.expert? c h = none) :
    (s.expertAdded c h).expert? c h = some (expertOf c h (s.entryWords c h)) := by
  show (s.sch.experts ++ [expertOf c h (s.entryWords c h)]).find? _ = _
  rw [List.find?_append, show s.sch.experts.find? _ = none from hn]
  simp [expertOf]

section
variable {s : State} {c : BitVec 12} {h : BitVec 16} (hroom : s.sch.taskQs.length + s.sch.experts.length < 512)
include hroom

theorem bringIn_task (ht : Qw.type (s.entryWords c h)[0] = 2) : s.bringIn c h = { s.setQword c h 5 ((s.entryWords c h)[5] ||| field 63 1) with
    sch := { s.sch with taskQs := s.sch.taskQs ++ [taskOf c h (s.entryWords c h)] } } := by
  unfold State.bringIn
  dsimp only
  rw [if_neg (Nat.not_le.2 hroom), if_pos ht]
  rfl

/-- An entry that is neither a task queue's nor a well-formed expert queue's brings nothing in. -/
theorem bringIn_neither (h2 : Qw.type (s.entryWords c h)[0] ≠ 2) (h3 : Qw.type (s.entryWords c h)[0] ≠ 3 ∨ entryMalformed (s.entryWords c h) = true) :
    s.bringIn c h = s := by
  unfold State.bringIn
  dsimp only
  rw [if_neg (Nat.not_le.2 hroom), if_neg h2, if_neg]
  rw [Bool.and_eq_true, decide_eq_true_eq, Bool.not_eq_true', not_and_or, Bool.not_eq_false]
  exact h3

/-- A well-formed expert queue with an empty ring is added as its entry says, where queue SRAM has room. -/
theorem bringIn_expert (hn : s.expert? c h = none) (ht : Qw.type (s.entryWords c h)[0] = 3) (hm : entryMalformed (s.entryWords c h) = false)
    (hr : bits (s.entryWords c h)[6] 63 32 = bits (s.entryWords c h)[6] 31 0)
    (hs : s.queueSram + 64 + 40 * bits (s.entryWords c h)[3] 23 12 ≤ 2 ^ 20) :
    (s.bringIn c h).sch.experts = s.sch.experts ++ [expertOf c h (s.entryWords c h)] := by
  have hadded : s.bringIn c h = ((s.expertAdded c h).slotsShown c h (s.entryWords c h)).refill c h 4096 := by
    unfold State.bringIn
    dsimp only
    rw [if_neg (Nat.not_le.2 hroom), if_neg (by rw [ht]; decide), if_pos (by rw [ht, hm]; rfl)]
    exact if_neg (Nat.not_lt.2 hs)
  have hring : (expertOf c h (s.entryWords c h)).ringCount = 0 := by
    rw [ExpertQ.ringCount, expertOf, hr, BitVec.sub_self]
    rfl
  have hq : ((s.expertAdded c h).slotsShown c h (s.entryWords c h)).expert? c h = some (expertOf c h (s.entryWords c h)) := by
    rw [State.expert?, slotsShown_experts]
    exact expertAdded_expert hn
  rw [hadded, refill_idle hq (.inr hring), slotsShown_experts]
  rfl

end

end Sys2Proof.Machine
end

section

namespace Sys2Proof.Machine

/-- Settles O42, event by event. A firing is followed through the accesses it makes, none of which changes a queue or a batch slot but by the firing itself
and the refill after it. Token times, the order of the unit's turns and what it does at a queue it passes over are the model's choice (log 60). -/
theorem expertQueueEvents : Obligations.ExpertQueueEvents := by
  unfold Obligations.ExpertQueueEvents
  refine ⟨?_, ?_, ?_⟩
  · intro s c h ha hb
    refine ⟨exec_queueBringIn_resident ha hb, fun he ht hf hroom => ?_, fun q hq => ?_⟩
    · rw [exec_queueBringIn_absent ha hb he ht hf]
      refine ⟨fun h2 => ?_, fun h3 hm hr hs => ?_, fun h2 h3 => by rw [bringIn_neither hroom h2 h3]⟩
      · refine ⟨_, taskOf c h (s.entryWords c h), rfl, ?_⟩
        have hcur := (setQword_keepsSched s c h 5 ((s.entryWords c h)[5] ||| field 63 1)).cur
        rw [bringIn_task hroom h2]
        refine ⟨rfl, rfl, rfl, rfl, rfl, rfl, Nat.mod_eq_of_lt (bits_lt ..), Nat.mod_eq_of_lt (bits_lt ..), ?_⟩
        dsimp only
        rw [hcur]
        exact ⟨rfl, rfl, rfl, rfl, rfl, rfl, rfl, rfl, rfl⟩
      · exact ⟨_, expertOf c h (s.entryWords c h), rfl, bringIn_expert hroom he h3 hm hr hs, rfl, rfl, rfl, rfl, rfl, Nat.mod_eq_of_lt (bits_lt ..)⟩
    · rw [exec_ringRefill ha hb, exec_ageLimitExpiry ha hb hq]
      refine ⟨fun hidle => by rw [refill_idle hq hidle], fun u ws ts hroom hring hread hsame => ?_, fun hruns haged hnew => ?_, fun hnot => ?_⟩
      · exact ⟨_, rfl, refill_last hq hroom hring hread hsame⟩
      · exact ⟨_, by rw [hruns, haged, decide_eq_false hnew]; rfl, rfl⟩
      · rw [if_neg]
        obtain hruns | haged := hnot
        · simp [hruns]
        · simp [haged]
  · intro s
    refine ⟨fun h => ?_, fun h => ?_⟩
    · exact congrArg Host.Outcome.next (if_pos (by simpa using h))
    · refine ⟨_, _, congrArg Host.Outcome.next (if_neg (by simp [h])), rfl, List.sortBy_perm firesBefore _,
        List.sortBy_pairwise firesBefore_trans firesBefore_total _, rfl⟩
  · intro s c h r hround
    have hexec : exec .expertFiring s = .next (s.fireNext ((c, h) :: r)) := by
      rw [← hround]
      rfl
    rw [hexec, hround]
    refine ⟨fun u hf => by rw [fireNext_fired r hf], fun u hf => by rw [fireNext_waits r hf], fun u hr hf => by rw [hr, fireNext_passes hf],
      fun q u hq hidle hf => fire_leaves hq hidle hf⟩

end Sys2Proof.Machine
end

section
/-! SUPPORT. What reads and writes at a home do not depend on: the group at the port, the cores but for their L1s, messages that carry no line back, and
acknowledgements that no home has sent. -/

namespace Sys2Proof.Machine

/-- What may stand beside the memory of a state: another group at the port, other cores, messages and acknowledgements behind those under way. -/
structure Beside where
  group : Group → Group
  cores : Tab Core → Tab Core
  msgs : List Msg
  acks : List TargetAck

/-- The state with that beside its memory. -/
def State.beside (s : State) (x : Beside) : State :=
  { s with cur := x.group s.cur, cores := x.cores s.cores, coh := { s.coh with msgs := s.coh.msgs ++ x.msgs, acks := s.coh.acks ++ x.acks } }

/-- None of the messages brings a line back, and no home awaits one of the acknowledgements. -/
structure Beside.Quiet (x : Beside) : Prop where
  msgs : ∀ m ∈ x.msgs, m.kind.isWriteback = false
  acks : ∀ a ∈ x.acks, a.home = false

section
variable (s : State) (x : Beside)

theorem needRun_beside (n : Nat) : (s.beside x).needRun n = (s.needRun n).beside x := by
  simp only [State.needRun, show (s.beside x).islandRuns n = s.islandRuns n from rfl]
  split <;> rfl

theorem needMedia_beside (line : Nat) : (s.beside x).needMedia line = (s.needMedia line).beside x :=
  List.foldl_hom (fun t : State => t.beside x) fun t n => needRun_beside t x n

theorem memWrite_beside (line : Nat) (d : LineData) (m : BitVec 128) (p : BitVec 4) :
    (s.beside x).memWrite line d m p = (s.memWrite line d m p).beside x := by
  rw [State.memWrite, show (s.beside x).memPoison line = s.memPoison line from rfl]
  simp only [State.memPut, State.beside, State.memWrite]

theorem updL2_beside (line : Nat) (f : L2Line → L2Line) : (s.beside x).updL2 line f = (s.updL2 line f).beside x := rfl

theorem putHome_beside (line : Nat) (d : LineData) (m : BitVec 128) (p : BitVec 4) :
    (s.beside x).putHome line d m p = (s.putHome line d m p).beside x := by
  simp only [State.putHome, show (s.beside x).l2? line = s.l2? line from rfl, needMedia_beside, memWrite_beside, updL2_beside]
  split <;> rfl

theorem setHome_beside (line : Nat) (h : Home) : (s.beside x).setHome line h = (s.setHome line h).beside x := rfl

theorem home_beside (line : Nat) : (s.beside x).home line = s.home line := rfl

theorem l2?_beside (line : Nat) : (s.beside x).l2? line = s.l2? line := rfl

theorem memLine_beside (line : Nat) : (s.beside x).memLine line = s.memLine line := rfl

theorem memPoison_beside (line : Nat) : (s.beside x).memPoison line = s.memPoison line := rfl

theorem setL2_beside (l : List L2Line) : (s.beside x).setL2 l = (s.setL2 l).beside x := rfl

theorem stampHome_beside (line : Nat) (ts : BitVec 48) : (s.beside x).stampHome line ts = (s.stampHome line ts).beside x := rfl

theorem markSkim_beside (line : Nat) : (s.beside x).markSkim line = (s.markSkim line).beside x := rfl

theorem shutBy_beside (k : Shut) : (s.beside x).shutBy k = (s.shutBy k).beside x := rfl

theorem takeWriteback_beside (line : Nat) (d : LineData) (m : BitVec 128) (p : BitVec 4) (w r : BitVec 48) :
    (s.beside x).takeWriteback line d m p w r = (s.takeWriteback line d m p w r).beside x := by
  simp only [State.takeWriteback, putHome_beside, home_beside, setHome_beside]

theorem ackWritten_beside (a : TargetAck) : (s.beside x).ackWritten a = (s.ackWritten a).beside x := by
  unfold State.ackWritten
  split
  · exact memWrite_beside ..
  · rfl

variable {x}
variable (hx : x.Quiet)
include hx

/-- The acknowledgements beside the state are none that a home awaits. -/
theorem reachTarget_beside (line : Nat) (p : TargetAck → Bool) : (s.beside x).reachTarget line p = (s.reachTarget line p).beside x := by
  have hno : ∀ a ∈ x.acks, ¬(a.home && (a.write.any fun w => decide (w.1 = line)) && p a) = true := fun a ha => by simp [hx.acks a ha]
  have hkeep : (x.acks.map fun a => if a.home && (a.write.any fun w => decide (w.1 = line)) && p a then { a with write := none } else a) = x.acks :=
    (List.map_congr_left fun a ha => if_neg (hno a ha)).trans (List.map_id _)
  have hfold (l : List TargetAck) : l.foldl State.ackWritten (s.beside x) = (l.foldl State.ackWritten s).beside x :=
    List.foldl_hom (fun t : State => t.beside x) fun t a => ackWritten_beside t x a
  have hacks (t : State) : (t.beside x).coh.acks = t.coh.acks ++ x.acks := rfl
  simp only [reachTarget_eq, hacks, List.filter_append, List.filter_eq_nil_iff.2 hno, List.append_nil, hfold, List.map_append, hkeep]
  rfl

/-- A write-back that is found is one of the state's own messages. -/
theorem findMsg_beside (line : Nat) (o : BitVec 10) : (s.beside x).findMsg line o MsgKind.isWriteback = s.findMsg line o MsgKind.isWriteback := by
  have hnone : x.msgs.findIdx? (fun m => m.line = line && m.core = o && m.kind.isWriteback) = none :=
    List.findIdx?_eq_none_iff.2 fun m hm => by simp [hx.msgs m hm]
  show (s.coh.msgs ++ x.msgs).findIdx? _ = _
  rw [List.findIdx?_append, hnone]
  simp [State.findMsg]

omit hx in
/-- A message that is found is read and dropped as without those behind it. -/
theorem dropMsg_beside {line i : Nat} {o : BitVec 10} (h : s.findMsg line o MsgKind.isWriteback = some i) :
    (s.beside x).dropMsg i = (s.dropMsg i).beside x ∧ (s.beside x).coh.msgs[i]? = s.coh.msgs[i]? := by
  have hi : i < s.coh.msgs.length := (List.findIdx?_eq_some_iff_findIdx_eq.1 h).1
  refine ⟨?_, List.getElem?_append_left hi⟩
  show State.mk .. = State.mk ..
  simp only [State.beside, State.dropMsg, List.eraseIdx_append_of_lt_length hi]

end

/-- `y` stands beside a state whose L1s have lost the line, where `x` stood before. -/
def Beside.Follows (x y : Beside) (s : State) (line : Nat) (o : BitVec 10) : Prop :=
  ∀ u : State, u.cores = s.cores → (u.beside x).dropL1 o line = (u.dropL1 o line).beside y

theorem needRun_cores (s : State) (n : Nat) : (s.needRun n).cores = s.cores := by
  unfold State.needRun
  split <;> rfl

/-- What an owner has of a line goes to its home whatever stands beside the state, if the owner's L1 is the same. -/
theorem takeOwner_beside (s : State) {x y : Beside} (hx : x.Quiet) {line : Nat} {o : BitVec 10} (hl : (s.beside x).l1? o line = s.l1? o line)
    (hxy : x.Follows y s line o) : ∃ z, (z = x ∨ z = y) ∧ (s.beside x).takeOwner line o = (s.takeOwner line o).beside z := by
  unfold State.takeOwner
  rw [hl]
  cases s.l1? o line with
  | some l =>
    refine ⟨y, .inr rfl, ?_⟩
    dsimp only
    rw [needRun_beside, hxy _ (needRun_cores ..), takeWriteback_beside]
    rfl
  | none =>
    refine ⟨x, .inl rfl, ?_⟩
    dsimp only
    rw [findMsg_beside s hx]
    cases hf : s.findMsg line o MsgKind.isWriteback with
    | none => rfl
    | some i =>
      obtain ⟨hdrop, hget⟩ := dropMsg_beside s (x := x) hf
      dsimp only
      rw [hget]
      split
      · rw [hdrop, takeWriteback_beside]
        rfl
      · rfl

end Sys2Proof.Machine
end

section
/-! SUPPORT. A line written at its home (R203, R208): memory afterwards does not depend on messages and acknowledgements that no home takes in. -/

namespace Sys2Proof.Machine

/-- Messages and acknowledgements behind those under way. -/
def Beside.noise (ms : List Msg) (acks : List TargetAck) : Beside := ⟨id, id, ms, acks⟩

/-- A line recalled where its home is in a stable state. -/
def State.recalledStable (s : State) (line : Nat) : State := if (s.home line).st.stable then s.recall line else s

/-- A line of the L2 written out and dropped. -/
def State.writtenOut (s : State) (line : Nat) : State :=
  match s.l2? line with
  | none => s
  | some l => (((s.needMedia l.line).reachTarget l.line fun _ => true).memWrite l.line l.data l.dirty l.poison).dropL2 l.line

/-- An eviction on its named parts (R195). -/
theorem evictL2_eq (s : State) (line : Nat) : s.evictL2 line =
    let ways := s.coh.l2.filter fun l => sameSet l.line line
    if ways.length < 16 then s
    else match ways.reverse.find? fun l => l.locks.isEmpty && !s.commitHolds l.line with
      | none => s
      | some v => (s.recalledStable v.line).writtenOut v.line := rfl

section
variable (s : State) {ms : List Msg} {acks : List TargetAck} (hq : (Beside.noise ms acks).Quiet)

theorem passFilter_noise (ms : List Msg) (acks : List TargetAck) (who : Waiter) (pa : Nat) (wr : Bool) :
    (s.beside (.noise ms acks)).passFilter who pa wr = (s.passFilter who pa wr).beside (.noise ms acks) := by
  simp only [State.passFilter, show (s.beside (.noise ms acks)).filter (pa / 2 ^ 15) = s.filter (pa / 2 ^ 15) from rfl]
  split
  · split <;> rfl
  · rfl

theorem completeAt_noise (ms : List Msg) (acks : List TargetAck) (line : Nat) (b : Bool) :
    (s.beside (.noise ms acks)).completeAt line b = (s.completeAt line b).beside (.noise ms acks) := by
  unfold State.completeAt
  split <;> rfl

theorem servedNow_noise (ms : List Msg) (acks : List TargetAck) (line : Nat) (who : Waiter) :
    (s.beside (.noise ms acks)).servedNow line who = (s.servedNow line who).beside (.noise ms acks) :=
  completeAt_noise (s.clearRsv line (.now who)) ms acks line _

theorem passNow_noise (ms : List Msg) (acks : List TargetAck) (who : Waiter) (pa : Nat) (wr : Bool) :
    (s.beside (.noise ms acks)).passNow who pa wr = (s.passNow who pa wr).beside (.noise ms acks) := by
  rw [State.passNow, servedNow_noise, passFilter_noise]
  rfl

theorem touchL2_noise (ms : List Msg) (acks : List TargetAck) (line : Nat) :
    (s.beside (.noise ms acks)).touchL2 line = (s.touchL2 line).beside (.noise ms acks) := by
  simp only [State.touchL2, show (s.beside (.noise ms acks)).l2? line = s.l2? line from rfl]
  split <;> rfl

theorem sampleMiss_noise (ms : List Msg) (acks : List TargetAck) (pa : Nat) :
    (s.beside (.noise ms acks)).sampleMiss pa = (s.sampleMiss pa).beside (.noise ms acks) := by
  have hpage (m : Mmu) : State.hotPageOf { s.beside (.noise ms acks) with mmu := m } pa = State.hotPageOf { s with mmu := m } pa := rfl
  have hmmu : (s.beside (.noise ms acks)).mmu = s.mmu := rfl
  simp only [State.sampleMiss, hmmu, hpage]
  split
  · rfl
  · split
    · rfl
    · split <;> rfl

include hq

theorem takeOwner_noise (line : Nat) (o : BitVec 10) : (s.beside (.noise ms acks)).takeOwner line o = (s.takeOwner line o).beside (.noise ms acks) := by
  obtain ⟨z, hz, h⟩ := takeOwner_beside s hq (y := .noise ms acks) (line := line) (o := o) rfl fun _ _ => rfl
  rw [h, hz.elim id id]

theorem recall_noise (line : Nat) : (s.beside (.noise ms acks)).recall line = (s.recall line).beside (.noise ms acks) := by
  simp only [State.recall, needRun_beside, home_beside, takeOwner_noise _ hq]
  split <;> rfl

/-- The bytes of an L2 line reach memory, after what is on its way there. -/
theorem written_noise (line : Nat) (d : LineData) (m : BitVec 128) (p : BitVec 4) :
    (((s.beside (.noise ms acks)).needMedia line).reachTarget line fun _ => true).memWrite line d m p =
      (((s.needMedia line).reachTarget line fun _ => true).memWrite line d m p).beside (.noise ms acks) := by
  rw [needMedia_beside, reachTarget_beside _ hq, memWrite_beside]

theorem recalledStable_noise (line : Nat) :
    (s.beside (.noise ms acks)).recalledStable line = (s.recalledStable line).beside (.noise ms acks) := by
  simp only [State.recalledStable, home_beside, recall_noise _ hq]
  split <;> rfl

theorem writtenOut_noise (line : Nat) : (s.beside (.noise ms acks)).writtenOut line = (s.writtenOut line).beside (.noise ms acks) := by
  simp only [State.writtenOut, show (s.beside (.noise ms acks)).l2? line = s.l2? line from rfl, written_noise _ hq]
  split <;> rfl

theorem evictL2_noise (line : Nat) : (s.beside (.noise ms acks)).evictL2 line = (s.evictL2 line).beside (.noise ms acks) := by
  have hl2 : (s.beside (.noise ms acks)).coh.l2 = s.coh.l2 := rfl
  have hholds (n : Nat) : (s.beside (.noise ms acks)).commitHolds n = s.commitHolds n := rfl
  simp only [evictL2_eq, hl2, hholds, recalledStable_noise _ hq, writtenOut_noise _ hq]
  split
  · rfl
  · split <;> rfl

theorem fillL2As_noise (line : Nat) (nc : Bool) : (s.beside (.noise ms acks)).fillL2As line nc = (s.fillL2As line nc).beside (.noise ms acks) := by
  have hl2 (t : State) : (t.beside (.noise ms acks)).coh.l2 = t.coh.l2 := rfl
  simp only [State.fillL2As, needRun_beside, l2?_beside, memWrite_beside, memLine_beside, memPoison_beside, updL2_beside, touchL2_noise,
    needMedia_beside, reachTarget_beside _ hq, evictL2_noise _ hq, sampleMiss_noise, hl2, setL2_beside]
  split
  · split <;> rfl
  · rfl

theorem writeHomeAs_noise (line : Nat) (nc : Bool) (d : LineData) (m : BitVec 128) (p : BitVec 4) :
    ((s.beside (.noise ms acks)).writeHomeAs line nc d m p).1 = (s.writeHomeAs line nc d m p).1.beside (.noise ms acks) := by
  simp only [State.writeHomeAs, recall_noise _ hq, fillL2As_noise _ hq, putHome_beside, home_beside, stampHome_beside, markSkim_beside]

theorem partHome_noise (pa n : Nat) (wr : Bool) : (s.beside (.noise ms acks)).partHome pa n wr = (s.partHome pa n wr).beside (.noise ms acks) := by
  have hheld : (s.beside (.noise ms acks)).heldNow .part pa n wr true = s.heldNow .part pa n wr true := rfl
  simp only [State.partHome, hheld, passNow_noise, State.atHome, recall_noise _ hq, State.fillL2, fillL2As_noise _ hq, shutBy_beside]
  split <;> rfl

theorem writePa_noise (pa n v : Nat) : (s.beside (.noise ms acks)).writePa pa n v = (s.writePa pa n v).beside (.noise ms acks) := by
  simp only [State.writePa, partHome_noise _ hq, State.writeHome, writeHomeAs_noise _ hq]

theorem putLines_noise (pa : Nat) (ws : List Word) (n : Nat) : (s.beside (.noise ms acks)).putLines pa ws n = (s.putLines pa ws n).beside (.noise ms acks) := by
  induction n generalizing s pa ws with
  | zero => exact Eq.refl (s.beside (.noise ms acks))
  | succ n ih =>
    have hline := writePa_noise s hq pa 128 (lineOfWords (ws.take 16))
    exact (congrArg (fun t : State => t.putLines (pa + 128) (ws.drop 16) n) hline).trans (ih ..)

end
end Sys2Proof.Machine
end

section
/-! SUPPORT. What is read as it stands does not depend on the group at the port, nor on the cores but for their L1s: queue entries, tables and rings. -/

namespace Sys2Proof.Machine

/-- Another group at the port, and other cores. -/
def Beside.port (g : Group) (cs : Tab Core) : Beside := ⟨fun _ => g, fun _ => cs, [], []⟩

theorem Beside.port_quiet (g : Group) (cs : Tab Core) : (Beside.port g cs).Quiet := ⟨fun _ h => absurd h List.not_mem_nil, fun _ h => absurd h List.not_mem_nil⟩

section
variable (s : State) (g : Group) (cs : Tab Core)

theorem port_msgs : (s.beside (.port g cs)).coh.msgs = s.coh.msgs := List.append_nil _

theorem findMsg_port (line : Nat) (o : BitVec 10) (f : MsgKind → Bool) : (s.beside (.port g cs)).findMsg line o f = s.findMsg line o f := by
  rw [State.findMsg, port_msgs]
  rfl

variable {cs}
variable (h : ∀ n : BitVec 10, (Tab.get Core.idle cs n.toNat).l1 = (s.core n).l1)
include h

theorem takeOwner_port (line : Nat) (o : BitVec 10) : ∃ cs', (s.beside (.port g cs)).takeOwner line o = (s.takeOwner line o).beside (.port g cs') := by
  have hl : (s.beside (.port g cs)).l1? o line = s.l1? o line := congrArg (List.find? _) (h o)
  obtain ⟨z, hz, heq⟩ := takeOwner_beside s (Beside.port_quiet g cs) (y := .port g ((s.beside (.port g cs)).dropL1 o line).cores) hl fun _ _ => rfl
  rcases hz with rfl | rfl
  · exact ⟨_, heq⟩
  · exact ⟨_, heq⟩

theorem takenIn_port (line : Nat) : ∃ cs', (s.beside (.port g cs)).takenIn line = (s.takenIn line).beside (.port g cs') := by
  simp only [State.takenIn, home_beside, findMsg_port, port_msgs]
  split
  · exact ⟨_, rfl⟩
  · exact takeOwner_port s g h ..
  · split
    · exact takeOwner_port s g h ..
    · exact ⟨_, rfl⟩
  · split
    · exact takeOwner_port s g h ..
    · exact ⟨_, rfl⟩
  · split
    · exact ⟨_, takeWriteback_beside ..⟩
    · exact takeOwner_port s g h ..

theorem freshLine_port (line : Nat) : (s.beside (.port g cs)).freshLine line = s.freshLine line := by
  obtain ⟨cs', htaken⟩ := takenIn_port s g h line
  rw [freshLine_eq, freshLine_eq, htaken, reachTarget_beside _ (Beside.port_quiet g cs'), l2?_beside]
  split <;> rfl

theorem peek_port (a : Nat) : (s.beside (.port g cs)).peek a = s.peek a := by
  unfold State.peek
  rw [freshLine_port s g h]

theorem qword_port (c : BitVec 12) (q : BitVec 16) (i : Nat) : (s.beside (.port g cs)).qword c q i = s.qword c q i :=
  congrArg Prod.fst (peek_port s g h _)

theorem entryAt_port (c : BitVec 12) (va : Word) (level a : Nat) : (s.beside (.port g cs)).entryAt c va level a = s.entryAt c va level a := by
  unfold State.entryAt
  rw [peek_port s g h, show (s.beside (.port g cs)).cached? c va level = s.cached? c va level from rfl]

theorem walk_port (c : BitVec 12) (va : Word) : (s.beside (.port g cs)).walk c va = s.walk c va := by
  have hfrom (n tbl : Nat) : (s.beside (.port g cs)).walkFrom c va tbl n = s.walkFrom c va tbl n := by
    induction n generalizing tbl with
    | zero => simp only [State.walkFrom]
    | succ n ih =>
      simp only [State.walkFrom, ih, entryAt_port s g h, show ∀ l a, (s.beside (.port g cs)).entryFault c va l a = s.entryFault c va l a from fun _ _ => rfl]
  exact hfrom 3 _

theorem ringWord_port (q : TaskQ) (va : Word) : (s.beside (.port g cs)).ringWord q va = s.ringWord q va := by
  have hleaf : (s.beside (.port g cs)).leafNow (.queue q.ctx q.qh) q.ctx va = s.leafNow (.queue q.ctx q.qh) q.ctx va := by
    simp only [State.leafNow, State.leafOf, walk_port s g h]
    rfl
  simp only [State.ringWord, hleaf, peek_port s g h]

theorem affOf_port (q : TaskQ) (i : BitVec 32) : (s.beside (.port g cs)).affOf q i = s.affOf q i := by
  unfold State.affOf
  rw [ringWord_port s g h]

end

/-! ### Records that have waited (R139) -/

/-- The group holds its slot, its place and its carve as another does. -/
structure Group.StandsAs (g h : Group) : Prop where
  core : g.core = h.core
  slot : g.slot = h.slot
  life : g.life = h.life
  launch : g.launch = h.launch
  idx : g.idx = h.idx
  place : g.place = h.place
  mswin : g.mswin = h.mswin

section
variable (s : State) {g : Group} {cs : Tab Core} (hg : g.StandsAs s.cur)
include hg

theorem slotIdle_port (c : BitVec 10) (n : Nat) : (s.beside (.port g cs)).slotIdle c n = s.slotIdle c n := by
  have hat : g.at c (BitVec.ofNat 3 n) = s.cur.at c (BitVec.ofNat 3 n) := by rw [Group.at, hg.core, hg.slot, hg.life]; rfl
  unfold State.slotIdle State.group?
  rw [show (s.beside (.port g cs)).cur = g from rfl, hat]
  split <;> rfl

/-- What is read of the groups is the same where it is the same of the group at the port. -/
theorem groups_port {β : Type} (f : Group → Option β) (hf : f g = f s.cur) : (s.beside (.port g cs)).groups.filterMap f = s.groups.filterMap f := by
  have hlive : Group.ifLive f g = Group.ifLive f s.cur := by rw [Group.ifLive, Group.ifLive, hg.life, hf]
  rw [groups_filterMap, groups_filterMap, List.filterMap_cons, List.filterMap_cons, ← hlive]
  rfl

theorem freePlaces_port (c : BitVec 10) : (s.beside (.port g cs)).freePlaces c = s.freePlaces c := by
  have hused : (s.beside (.port g cs)).usedPlaces c = s.usedPlaces c := by
    unfold State.usedPlaces
    rw [groups_port s hg _ (by rw [hg.core, hg.idx, hg.place])]
    rfl
  rw [State.freePlaces, hused]
  rfl

theorem firstFit_port (c : BitVec 10) (n : Nat) : (s.beside (.port g cs)).firstFit c n = s.firstFit c n := by
  have hcarves : (s.beside (.port g cs)).carves c = s.carves c := by
    unfold State.carves
    rw [groups_port s hg _ (by rw [hg.core, hg.idx, hg.mswin, hg.launch])]
    rfl
  rw [State.firstFit, hcarves]
  rfl

theorem agedRecord_port (c : BitVec 10) : (s.beside (.port g cs)).agedRecord c = s.agedRecord c := by
  unfold State.agedRecord
  simp only [slotIdle_port s hg]
  rfl

theorem agedTask_port (h : ∀ n : BitVec 10, (Tab.get Core.idle cs n.toNat).l1 = (s.core n).l1) (c : BitVec 10) :
    (s.beside (.port g cs)).agedTask c = s.agedTask c := by
  have hlaunch (q : TaskQ) : (s.beside (.port g cs)).taskLaunch c q = s.taskLaunch c q := by
    simp only [State.taskLaunch, qword_port s g h, freePlaces_port s hg, firstFit_port s hg]
    rfl
  unfold State.agedTask
  simp only [slotIdle_port s hg, hlaunch, affOf_port s g h]
  rfl

end
end Sys2Proof.Machine
end

section
/-! SUPPORT. A group that leaves its slot by PHASE (R132), and what its write-combining buffer leaves beside the state (R81). -/

namespace Sys2Proof.Machine

/-! ### A buffer sent for another group -/

theorem noise_nil (s : State) : s.beside (.noise [] []) = s := by
  simp only [State.beside, Beside.noise, List.append_nil, id]

theorem modGroup_parked {s : State} {c : BitVec 10} {k : BitVec 3} (h : s.cur.at c k = false) (f : Group → Group) :
    ∃ p, s.modGroup c k f = { s with parked := p } := ⟨_, if_neg (by rw [h]; decide)⟩

/-- Acknowledgements counted on accesses of a group that is not at the port. -/
theorem modAccesses_parked {c : BitVec 10} {k : BitVec 3} (f : Access → Access) (l : List Nat) {s : State} (h : s.cur.at c k = false) :
    ∃ p, l.foldl (fun s i => s.modAccess c k i f) s = { s with parked := p } := by
  induction l generalizing s with
  | nil => exact ⟨s.parked, rfl⟩
  | cons i r ih =>
    obtain ⟨p, hp⟩ := modGroup_parked h fun g => { g with inflight := g.inflight.map fun a => if a.id = i then f a else a }
    obtain ⟨p', hp'⟩ := ih (s := { s with parked := p }) h
    exact ⟨p', (congrArg (fun t => r.foldl (fun s i => s.modAccess c k i f) t) hp).trans hp'⟩

/-- What the buffer of a slot leaves at a target (R219). -/
def WcBuf.toTarget (b : WcBuf) (c : BitVec 10) (k : BitVec 3) (id : Nat) : TargetAck := ⟨id, c, k, b.ids, some (b.line, b.data, b.mask, 0), false, []⟩

/-- What it sends to a home (R218). -/
def WcBuf.toHome (b : WcBuf) (c : BitVec 10) (k : BitVec 3) (id : Nat) : Msg := ⟨.merge b.data b.mask 0 b.ids true, b.line, 15, c, k, id, 0, 0, false⟩

theorem toTarget_quiet (b : WcBuf) (c : BitVec 10) (k : BitVec 3) (id : Nat) : (Beside.noise [] [b.toTarget c k id]).Quiet :=
  ⟨fun _ h => absurd h List.not_mem_nil, fun a ha => by rw [List.mem_singleton.1 ha]; rfl⟩

theorem toHome_quiet (b : WcBuf) (c : BitVec 10) (k : BitVec 3) (id : Nat) : (Beside.noise [b.toHome c k id] []).Quiet :=
  ⟨fun m hm => by rw [List.mem_singleton.1 hm]; rfl, fun _ h => absurd h List.not_mem_nil⟩

/-- With one acknowledgement more. -/
def State.withAck (s : State) (a : TargetAck) : State := { s with seqCtr := s.seqCtr + 1, coh := { s.coh with acks := s.coh.acks ++ [a] } }

theorem awaitAck_quiet {s : State} {c : BitVec 10} {k : BitVec 3} (hat : s.cur.at c k = false) (b : WcBuf) : ∃ p,
    s.awaitAck c k b.ids b.line b.data b.mask 0 false [] =
      State.beside { s with parked := p, seqCtr := s.seqCtr + 1 } (.noise [] [b.toTarget c k s.seqCtr]) := by
  obtain ⟨p, hp⟩ := modAccesses_parked (c := c) (k := k) (fun a => { a with acks := a.acks + 1 }) b.ids (s := s.withAck (b.toTarget c k s.seqCtr)) hat
  refine ⟨p, Eq.trans hp ?_⟩
  simp only [State.beside, Beside.noise, List.append_nil, id]
  rfl

/-- With no buffer of its own, the group at the port sends at most that of another in its slot: a message with bytes for a home, or a write that no
home awaits. -/
theorem sendWc_quiet {s : State} (hw : s.cur.wc = none) (c : BitVec 10) (k : BitVec 3) : ∃ p n ms acks, (Beside.noise ms acks).Quiet ∧
    s.sendWc c k = State.beside { s with parked := p, seqCtr := n } (.noise ms acks) := by
  have hnothing : s = State.beside { s with parked := s.parked, seqCtr := s.seqCtr } (.noise [] []) := (noise_nil s).symm
  have hquiet : (Beside.noise [] []).Quiet := ⟨fun _ h => absurd h List.not_mem_nil, fun _ h => absurd h List.not_mem_nil⟩
  cases hat : s.cur.at c k with
  | true => exact ⟨_, _, _, _, hquiet, (sendWc_none hat hw).trans hnothing⟩
  | false =>
    unfold State.sendWc
    split
    · exact ⟨_, _, _, _, hquiet, hnothing⟩
    · split
      · exact ⟨_, _, _, _, hquiet, hnothing⟩
      next b _ =>
        obtain ⟨p, hp⟩ := modGroup_parked hat fun g => { g with wc := none }
        rw [hp]
        dsimp only
        split
        · obtain ⟨q, hq⟩ := awaitAck_quiet (s := { s with parked := p }) hat b
          exact ⟨q, _, _, _, toTarget_quiet b c k s.seqCtr, hq⟩
        · refine ⟨p, s.seqCtr + 1, _, [], toHome_quiet b c k s.seqCtr, ?_⟩
          simp only [State.beside, Beside.noise, List.append_nil, id]
          rfl

/-! ### The record written (R129, R132) -/

theorem letGo_outside (s : State) (c : BitVec 10) (k : BitVec 3) : s.letGo c k = { s with cores := (s.letGo c k).cores } := by
  unfold State.letGo
  dsimp only
  split <;> rfl

theorem low64 {n : Nat} (x : BitVec n) : BitVec.ofNat 64 (bits x 63 0) = x.setWidth 64 := by
  apply BitVec.eq_of_toNat_eq
  simp [bits]

theorem high32 (x : Mask) : BitVec.ofNat 64 (bits x 95 64) = (x >>> 64).setWidth 64 := by
  apply BitVec.eq_of_toNat_eq
  have hx := x.isLt
  simp only [bits, BitVec.toNat_ofNat, BitVec.toNat_setWidth, BitVec.toNat_ushiftRight, Nat.shiftRight_eq_div_pow]
  omega

/-- The task record of a group that goes to its place. -/
def Group.phaseRecord (g : Group) (l : Launch) (code : Word) (csi : BitVec 3) (p : BitVec 5) : List Word :=
  taskRecord code (g.sread 59) 0 0 csi.toNat g.core.toNat (if g.idx = 8 then 0 else g.idx.toNat) p.toNat (g.live.setWidth 64)
    ((g.live >>> 64).setWidth 64) 0 l.lseq l.lqh

/-- Its record's entry in the scheduler, ready at `time`. -/
def Group.inPlace (g : Group) (l : Launch) (csi : BitVec 3) (p : BitVec 5) (time : Word) (n : Nat) : RecPlace :=
  ⟨g.core, p, g.launch, g.team, g.idx, csi, (l.cset csi.toNat).1, (l.cset csi.toNat).2, some time, 0, false,
    if decide (g.idx = 8) then some (g.mswin.toNat, l.window + l.slices) else none, g.batch, g.pts, g.tlown,
    BitVec.ofNat 3 (b2n g.dueViral + 2 * b2n g.dueBudget + 4 * b2n g.dueSpill), g.spills, n, false⟩

/-- The record of the group at the port in its place (R129). -/
def State.placeWritten (v : State) (code : Word) (csi : BitVec 3) (p : BitVec 5) : State :=
  let l := v.launch v.cur.launch
  v.putLines (v.placeAddr v.cur.core p.toNat) (v.cur.placeWords (v.cur.phaseRecord l code csi p) (l.cset csi.toNat).1 (l.cset csi.toNat).2) 32

/-- A record ready in its place. -/
def State.addPlace (u : State) (x : RecPlace) : State := { u with seqCtr := u.seqCtr + 1, sch := { u.sch with places := u.sch.places ++ [x] } }

theorem switchOut_eq {v : State} {p : BitVec 5} (hp : v.cur.place = some p) (code : Word) (csi : BitVec 3) :
    let g := v.cur
    let u := v.placeWritten code csi p
    v.switchOut code csi 0 true = ((u.addPlace (g.inPlace (v.launch g.launch) csi p (u.clock g.core) u.seqCtr)).letGo g.core g.slot).setCur
      { Group.blank with core := g.core, slot := g.slot } := by
  have hwords : v.cur.phaseRecord (v.launch v.cur.launch) code csi p = taskRecord code (v.cur.sread 59) 0 0 csi.toNat v.cur.core.toNat
      (if decide (v.cur.idx = 8) then 0 else v.cur.idx.toNat) p.toNat (BitVec.ofNat 64 (bits v.cur.live 63 0)) (BitVec.ofNat 64 (bits v.cur.live 95 64)) 0
      (v.launch v.cur.launch).lseq (v.launch v.cur.launch).lqh := by
    rw [Group.phaseRecord, low64, high32]
    simp only [decide_eq_true_eq]
  have hput : v.putLines (v.placeAddr v.cur.core p.toNat) (v.cur.placeWords (v.cur.phaseRecord (v.launch v.cur.launch) code csi p)
      ((v.launch v.cur.launch).cset csi.toNat).1 ((v.launch v.cur.launch).cset csi.toNat).2) 32 = v.placeWritten code csi p := by
    rw [State.placeWritten]
  simp only [State.switchOut, hp, ← hwords, hput]
  generalize v.placeWritten code csi p = u
  rfl

/-- What a group leaves that goes to its place, ready at once. -/
theorem switchOut_leaves (v : State) {p : BitVec 5} (hp : v.cur.place = some p) (code : Word) (csi : BitVec 3) :
    let g := v.cur
    let t := v.switchOut code csi 0 true
    t.cur = { Group.blank with core := g.core, slot := g.slot } ∧ ∃ time n, let x := g.inPlace (v.launch g.launch) csi p time n
      t.sch.places = v.sch.places ++ [x] ∧ t.mem = (v.placeWritten code csi p).mem := by
  have hplaces : (v.placeWritten code csi p).sch.places = v.sch.places := by
    rw [State.placeWritten, (putLines_keepsControl ..).sch]
  rw [switchOut_eq hp, letGo_outside]
  generalize v.placeWritten code csi p = u at hplaces
  exact ⟨rfl, _, _, congrArg (· ++ _) hplaces, rfl⟩

/-! ### PHASE at the end of its clause (R132) -/

/-- The state in which a group that executes PHASE goes to its place: its switch is no longer due, and it has released at `.dev`. -/
def State.releasing (s : State) (parked : List Group) (n : Nat) : State :=
  (State.setCur { s with parked := parked, seqCtr := n } { s.cur with endSwitch := none, half := [] }).raiseClocks { s.cur with endSwitch := none, half := [] } 3

theorem raiseCore_l1 (s : State) (c : BitVec 10) (t : BitVec 48) (k : BitVec 10) : ((s.raiseCore c t).core k).l1 = (s.core k).l1 := by
  unfold State.raiseCore
  by_cases h : k = c
  · rw [h, State.setCore_core]
  · rw [State.setCore_core_other _ _ h]

theorem phaseOut_zero (s : State) (code : Word) (csi : BitVec 3) : s.phaseOut code csi 0 = s.switchOut code csi 0 true := by
  unfold State.phaseOut
  dsimp only
  rw [if_pos rfl]

/-- The end of a clause with a PHASE of join counter 0. -/
theorem doSwitch_eq {w : State} {succ : Word} {csi : BitVec 3} (he : w.cur.endSwitch = some (succ, csi, 0, true)) :
    let s := w.sendWc w.cur.core w.cur.slot
    let g : Group := { s.cur with endSwitch := none, half := [] }
    w.doSwitch = if !s.cur.inflight.isEmpty then s.pause else ((s.setCur g).raiseClocks g 3).switchOut succ csi 0 true := by
  unfold State.doSwitch
  simp only [he, ← phaseOut_zero]
  rw [if_neg (by simp)]
  simp

/-- With join counter 0 and nothing in flight, the group at the port goes to its place; what stands beside the memory makes no difference there. -/
theorem doSwitch_phase {w : State} {succ : Word} {csi : BitVec 3} (he : w.cur.endSwitch = some (succ, csi, 0, true)) (hi : w.cur.inflight = [])
    (hw : w.cur.wc = none) : ∃ p n ms acks, (Beside.noise ms acks).Quiet ∧
      w.doSwitch = ((w.releasing p n).beside (.noise ms acks)).switchOut succ csi 0 true := by
  obtain ⟨p, n, ms, acks, hquiet, hsent⟩ := sendWc_quiet hw w.cur.core w.cur.slot
  refine ⟨p, n, ms, acks, hquiet, ?_⟩
  rw [doSwitch_eq he, hsent]
  rw [if_neg (by simp [State.beside, Beside.noise, hi])]
  rfl

end Sys2Proof.Machine
end

section
/-! SUPPORT. YIELD and PHASE noted for the end of their clause (R139), and what each refuses (R381, R382). -/

namespace Sys2Proof.Machine

/-! ### A switch that is noted -/

theorem noteSwitch_eq (s : State) (c : Ctl) (e : Word × BitVec 3 × Word × Bool) : s.noteSwitch c e =
    let t := ((s.setCur { s.cur with endSwitch := some e }).spend 1 c).advance .none
    if t.cur.inClause then t else if t.stopping t.cur then t.leave t.cur.core t.cur.slot else t.doSwitch := rfl

section
variable {s t : State} {c : Ctl} {cost : Nat} {leaves : Bool} {g : Group} (m : Moves s t c cost leaves g)
include m

theorem Moves.sch : t.sch = s.sch := by rw [m.outside]

theorem Moves.l1 (n : BitVec 10) : (t.core n).l1 = (s.core n).l1 := by
  by_cases h : n = s.cur.core
  · rw [h, m.port]
  · rw [m.others n h]

/-- No switch is due any more. -/
theorem Moves.switchDone : Moves s (t.setCur { t.cur with endSwitch := none }) c cost leaves { g with endSwitch := none } :=
  ⟨congrArg (fun u : State => { u with cur := { t.cur with endSwitch := none } }) m.outside,
    congrArg (fun h : Group => { h with endSwitch := none }) m.group, m.region, m.port, m.others⟩

theorem Moves.beside : t = s.beside (.port t.cur t.cores) := by
  have h := m.outside
  simp only [State.beside, Beside.port, List.append_nil]
  exact h

/-- A move does not make its launch end. -/
theorem Moves.stopping (hl : g.launch = s.cur.launch) : t.stopping t.cur = s.stopping s.cur := by
  have hlaunch : t.cur.launch = s.cur.launch := by rw [m.group]; exact hl
  rw [State.stopping, State.stopping, hlaunch, State.launch, m.sch]
  rfl

/-- A move makes no record or task wait longer, and no pre-emption begin. -/
theorem Moves.yieldSwitches (hg : g.StandsAs s.cur) (hc : g.ctx = s.cur.ctx) (hstop : s.cur.ctx ∉ s.sch.stopping)
    (hwait : s.cur.place = none ∨ (s.agedRecord s.cur.core = false ∧ s.agedTask s.cur.core = false)) : t.yieldSwitches = false := by
  have hcur := m.group
  have hctx : t.cur.ctx = s.cur.ctx := by rw [hcur]; exact hc
  have hstands : t.cur.StandsAs s.cur := by
    rw [hcur]
    exact ⟨hg.core, hg.slot, hg.life, hg.launch, hg.idx, hg.place, hg.mswin⟩
  have hrecord : t.agedRecord s.cur.core = s.agedRecord s.cur.core := by rw [m.beside]; exact agedRecord_port s hstands _
  have htask : t.agedTask s.cur.core = s.agedTask s.cur.core := by rw [m.beside]; exact agedTask_port s hstands m.l1 _
  rw [State.yieldSwitches, hctx, m.sch, hstands.core, hstands.place, hrecord, htask]
  rcases hwait with hp | ⟨hr, ht⟩
  · simp [hstop, hp]
  · simp [hstop, hr, ht]

end

theorem Moves.of_setCur {s t : State} {c : Ctl} {cost : Nat} {leaves : Bool} {f g : Group} (m : Moves (s.setCur f) t c cost leaves g)
    (hc : f.core = s.cur.core) (hs : f.slot = s.cur.slot) : Moves s t c cost leaves g := by
  obtain ⟨houtside, hgroup, hregion, hport, hothers⟩ := m
  rw [State.setCur_cur, hc, hs] at hport
  rw [State.setCur_cur, hc] at hothers
  exact ⟨houtside, hgroup, hregion, hport, hothers⟩

section
variable (s : State) (c : Ctl) (e : Word × BitVec 3 × Word × Bool)

/-- The group past a YIELD or PHASE, its switch noted. -/
def State.switchNoted (s : State) (c : Ctl) (e : Word × BitVec 3 × Word × Bool) : State := ((s.setCur { s.cur with endSwitch := some e }).spend 1 c).advance .none

theorem moves_switchNoted : Moves s (s.switchNoted c e) c 1 s.cur.atLast { s.cur.stepped .none with dline := s.cur.dline, endSwitch := some e } :=
  moves_advance s c 1 .none { s.cur with endSwitch := some e } rfl rfl

variable {s}

theorem noteSwitch_inside (hin : s.cur.inClause = true) (hl : s.cur.atLast = false) : s.noteSwitch c e = s.switchNoted c e := by
  have hcur : (s.switchNoted c e).cur.inClause = true := by
    rw [(moves_switchNoted s c e).group]
    show (s.cur.inClause && !s.cur.atLast) = true
    rw [hin, hl]
    rfl
  rw [noteSwitch_eq]
  exact if_pos hcur

theorem noteSwitch_last (hl : s.cur.atLast = true) (hend : (s.launch s.cur.launch).ending = none) : s.noteSwitch c e = (s.switchNoted c e).doSwitch := by
  have hcur : (s.switchNoted c e).cur.inClause = false := by
    rw [(moves_switchNoted s c e).group]
    show (s.cur.inClause && !s.cur.atLast) = false
    rw [hl, Bool.not_true, Bool.and_false]
  have hstop : (s.switchNoted c e).stopping (s.switchNoted c e).cur = false := by
    rw [(moves_switchNoted s c e).stopping rfl, State.stopping, hend]
    rfl
  rw [noteSwitch_eq]
  show (if (s.switchNoted c e).cur.inClause then _ else if (s.switchNoted c e).stopping (s.switchNoted c e).cur then _ else _) = _
  rw [hcur, hstop]
  rfl

end

/-- A YIELD that no switch follows. -/
theorem doSwitch_stays {w : State} {e : Word × BitVec 3 × Word} (he : w.cur.endSwitch = some (e.1, e.2.1, e.2.2, false)) (hy : w.yieldSwitches = false) :
    w.doSwitch = w.setCur { w.cur with endSwitch := none } := by
  unfold State.doSwitch
  simp only [he]
  rw [if_pos (by simp [hy])]

/-! ### YIELD (R138, R139, R381) -/

/-- The deadline that YIELD sets. -/
def State.yieldCount (s : State) (w : I16) : Nat := min (w.imm.toNat % 16 + 1) ((s.launch s.cur.launch).ymax + 1) * 256

/-- The state with the deadline that YIELD sets. -/
def State.yielding (s : State) (w : I16) : State := s.setCur { s.cur with dline := BitVec.ofNat 13 (s.yieldCount w) }

theorem moves_yielding (s : State) (w : I16) (c : Ctl) (e : Word × BitVec 3 × Word × Bool) : Moves s ((s.yielding w).switchNoted c e) c 1 s.cur.atLast
    { s.cur.stepped .none with dline := BitVec.ofNat 13 (s.yieldCount w), endSwitch := some e } :=
  Moves.of_setCur (moves_switchNoted (s.yielding w) c e) rfl rfl

/-- The carry set that YIELD names. -/
def yieldSet (w : I16) : Nat := w.imm.toNat / 16 % 8

theorem csOk_iff (s : State) (cs : Nat) : s.csOk cs = true ↔
    cs < (s.launch s.cur.launch).csetn ∨ (cs = 0 ∧ (s.launch s.cur.launch).csetn = 0) := by
  simp [State.csOk]

theorem yieldSet_eq (w : I16) : bits w.imm 6 4 = yieldSet w := by
  rw [bits, Nat.shiftRight_eq_div_pow]
  rfl

theorem yieldDeadline_eq (w : I16) : bits w.imm 3 0 = w.imm.toNat % 16 := rfl

theorem exec_yield_undeclared {s : State} {w : I16} (hcs : s.csOk (yieldSet w) = false) : exec (.yield w) s = .next (s.trap .group 0x11 []) := by
  rw [← yieldSet_eq] at hcs
  refine congrArg Host.Outcome.next ?_
  rw [hcs]
  exact issueChecked_wrong rfl _ (fun hlate => nomatch hlate.2.2) (.inr (.inr rfl))

theorem exec_yield {s : State} {w : I16} (h : issues (.yield w) s = true) (hcs : s.csOk (yieldSet w) = true) : exec (.yield w) s = .next (if s.cur.hmode then (s.spend 1 w.ctl).advance .none
    else (s.yielding w).noteSwitch w.ctl (0, BitVec.ofNat 3 (yieldSet w), 0, false)) := by
  rw [← yieldSet_eq] at hcs ⊢
  refine congrArg Host.Outcome.next ?_
  rw [hcs]
  exact issueChecked_of_issues h _

/-! ### PHASE (R132, R382) -/

theorem target_eq (g : Group) (imm : BitVec 24) : g.target imm = immTarget g imm := by
  rw [Group.target, immTarget, returnAddress, Group.nextHeader, BitVec.ofNat_mul, BitVec.mul_comm (imm.signExtend 64)]
  rfl

theorem guards_of_issues {s : State} {i : Instr} {o : OpInfo} (ho : i.info = some o) (h : issues i s = true) : s.cur.guards o.body.ctl = true := by
  simp only [issues, ho, Bool.and_eq_true] at h
  obtain ⟨⟨⟨⟨-, hguards⟩, -⟩, -⟩, -⟩ := h
  exact hguards

/-- The effect of PHASE where it issues. -/
def State.phaseBody (w : I24) (s : State) : State :=
  if s.cur.hmode then s.illegalInstruction
  else match s.jcaFault (s.cur.srcS w.a) with
    | some r => s.trapLanes [(96, r)]
    | none => s.noteSwitch w.ctl (immTarget s.cur w.imm, BitVec.ofNat 3 (inlineCs w.d), s.cur.srcS w.a, true)

theorem exec_phase_eq (s : State) (w : I24) :
    exec (.phase w) s = .next (issueChecked (.phase w) s (!s.csOk (inlineCs w.d) && !(s.cur.hmode && s.cur.guards w.ctl)) (State.phaseBody w)) := by
  have hbody : State.phaseBody w = fun s =>
      let a := s.cur.srcS w.a
      if s.cur.hmode then s.illegalInstruction
      else match s.jcaFault a with
        | some r => s.trapLanes [(96, r)]
        | none => s.noteSwitch w.ctl (s.cur.target w.imm, BitVec.ofNat 3 (inlineCs w.d), a, true) := by
    funext s
    rw [target_eq]
    rfl
  rw [hbody]
  rfl

section
variable {s : State} {w : I24}

theorem exec_phase_undeclared (hh : s.cur.hmode = false) (hcs : s.csOk (inlineCs w.d) = false) :
    exec (.phase w) s = .next (s.trap .group 0x11 []) := by
  rw [exec_phase_eq, hh, hcs]
  exact congrArg Host.Outcome.next (issueChecked_wrong rfl _ (fun hlate => nomatch hlate.2.2) (.inr (.inr rfl)))

variable (h : issues (.phase w) s = true)
include h

theorem exec_phase_handler (hh : s.cur.hmode = true) : exec (.phase w) s = .next (s.trap .group 0x10 []) := by
  have hguards : s.cur.guards w.ctl = true := by
    have hall := guards_of_issues (i := .phase w) rfl h
    exact hall
  rw [exec_phase_eq, hh, hguards, Bool.and_self, Bool.not_true, Bool.and_false, issueChecked_of_issues h, State.phaseBody, if_pos hh]
  rfl

variable (hh : s.cur.hmode = false) (hcs : s.csOk (inlineCs w.d) = true)
include hh hcs

theorem exec_phase_jca {r : FRec} (hr : s.jcaFault (s.cur.srcS w.a) = some r) : exec (.phase w) s = .next (s.trapLanes [(96, r)]) := by
  rw [exec_phase_eq, hcs, Bool.not_true, Bool.false_and, issueChecked_of_issues h]
  simp only [State.phaseBody, hh, hr]
  rfl

theorem exec_phase (hr : s.jcaFault (s.cur.srcS w.a) = none) : exec (.phase w) s =
    .next (s.noteSwitch w.ctl (immTarget s.cur w.imm, BitVec.ofNat 3 (inlineCs w.d), s.cur.srcS w.a, true)) := by
  rw [exec_phase_eq, hcs, Bool.not_true, Bool.false_and, issueChecked_of_issues h]
  simp only [State.phaseBody, hh, hr]
  rfl

end

/-- The record of an address that names no counter. -/
theorem jcaFault_some (s : State) {a : Word} (h0 : a ≠ 0) (h : a.toNat % 8 ≠ 0 ∨ 2 ^ 32 ≤ a.toNat) :
    ∃ k sub, s.jcaFault a = some ⟨a, k, 2, true, true, sub, 0⟩ ∧ k = if a.toNat % 8 ≠ 0 then 1 else 2 := by
  by_cases h8 : a.toNat % 8 ≠ 0
  · exact ⟨1, 0, by rw [State.jcaFault, if_neg h0, if_pos h8], (if_pos h8).symm⟩
  · have hlarge := h.resolve_left h8
    exact ⟨2, 2, by rw [State.jcaFault, if_neg h0, if_neg h8, if_pos (by rw [Bool.or_eq_true]; exact .inl (decide_eq_true hlarge))], (if_neg h8).symm⟩

/-! ### The place of a group that executes PHASE last in its clause -/

theorem beside_mem (s : State) (x : Beside) : (s.beside x).mem = s.mem := rfl

theorem placeWritten_noise (v : State) {ms : List Msg} {acks : List TargetAck} (hq : (Beside.noise ms acks).Quiet) (code : Word) (csi : BitVec 3) (p : BitVec 5) :
    ((v.beside (.noise ms acks)).placeWritten code csi p).mem = (v.placeWritten code csi p).mem := by
  have hcur : (v.beside (.noise ms acks)).cur = v.cur := rfl
  have hlaunch (k : Nat) : (v.beside (.noise ms acks)).launch k = v.launch k := rfl
  have haddr (c : BitVec 10) (n : Nat) : (v.beside (.noise ms acks)).placeAddr c n = v.placeAddr c n := rfl
  simp only [State.placeWritten, hcur, hlaunch, haddr, putLines_noise v hq, beside_mem]

/-- The place of the group at the port, said of a group with the same registers. -/
theorem placeWritten_eq {u : State} {g : Group} {l : Launch} (hw : ∀ r sm vm, u.cur.placeWords r sm vm = g.placeWords r sm vm)
    (hr : ∀ code csi p, u.cur.phaseRecord l code csi p = g.phaseRecord l code csi p) (hc : u.cur.core = g.core) (hl : u.launch u.cur.launch = l)
    (code : Word) (csi : BitVec 3) (p : BitVec 5) : u.placeWritten code csi p = u.putLines (u.placeAddr g.core p.toNat)
      (g.placeWords (g.phaseRecord l code csi p) (l.cset csi.toNat).1 (l.cset csi.toNat).2) 32 := by
  simp only [State.placeWritten, hl, hr, hw, hc]

section
variable (w : State) (p : List Group) (n : Nat)

theorem releasing_memory : (w.releasing p n).mem = w.mem ∧ (w.releasing p n).coh = w.coh ∧ (w.releasing p n).mgmt = w.mgmt := ⟨rfl, rfl, rfl⟩

theorem releasing_cur : (w.releasing p n).cur = { w.cur with endSwitch := none, half := [] } := rfl

theorem releasing_places : (w.releasing p n).sch.places = w.sch.places := rfl

theorem releasing_launch (k : Nat) : (w.releasing p n).launch k = w.launch k := rfl

theorem releasing_l1 (k : BitVec 10) : ((w.releasing p n).core k).l1 = (w.core k).l1 :=
  raiseCore_l1 (State.setCur { w with parked := p, seqCtr := n } { w.cur with endSwitch := none, half := [] }) w.cur.core w.cur.pts k

end

/-- The group goes to its place as the group before its PHASE would have. -/
theorem noteSwitch_leaves {s : State} (c : Ctl) (succ : Word) (csi : BitVec 3) (hlast : s.cur.atLast = true) (hi : s.cur.inflight = []) (hw : s.cur.wc = none)
    (hend : (s.launch s.cur.launch).ending = none) {p : BitVec 5} (hp : s.cur.place = some p) :
    let l := s.launch s.cur.launch
    let t := s.noteSwitch c (succ, csi, 0, true)
    t.cur = { Group.blank with core := s.cur.core, slot := s.cur.slot } ∧
    ∃ time n, t.sch.places = s.sch.places ++ [s.cur.inPlace l csi p time n] ∧
    ∃ u : State, (u.putLines (u.placeAddr s.cur.core p.toNat)
      (s.cur.placeWords (s.cur.phaseRecord l succ csi p) (l.cset csi.toNat).1 (l.cset csi.toNat).2) 32).mem = t.mem ∧
      u.mem = s.mem ∧ u.coh = s.coh ∧ u.mgmt = s.mgmt ∧ ∀ k, (u.core k).l1 = (s.core k).l1 := by
  have m := moves_switchNoted s c (succ, csi, 0, true)
  rw [noteSwitch_last _ _ hlast hend]
  generalize s.switchNoted c (succ, csi, 0, true) = w at m
  have hcur := m.group
  obtain ⟨q, n, ms, acks, hquiet, hswitch⟩ := doSwitch_phase (w := w) (succ := succ) (csi := csi) (by rw [hcur]) (by rw [hcur]; exact hi)
    (by rw [hcur]; exact hw)
  have hplace : ((w.releasing q n).beside (.noise ms acks)).cur.place = some p := by
    show w.cur.place = some p
    rw [hcur]
    exact hp
  obtain ⟨htcur, time, k, hplaces, hmem⟩ := switchOut_leaves _ hplace succ csi
  have hgroup : (w.releasing q n).cur =
      { s.cur.stepped .none with dline := s.cur.dline, endSwitch := none, half := [], region := w.cur.region } := by
    rw [releasing_cur, hcur]
  have hlaunch : (w.releasing q n).launch (w.releasing q n).cur.launch = s.launch s.cur.launch := by
    rw [hgroup, releasing_launch, State.launch, m.sch]
    rfl
  have hin : (w.releasing q n).cur.inPlace (s.launch s.cur.launch) csi p time k = s.cur.inPlace (s.launch s.cur.launch) csi p time k := by
    rw [hgroup]
    rfl
  have hwritten := placeWritten_eq (u := w.releasing q n) (g := s.cur) (by rw [hgroup]; exact fun _ _ _ => rfl) (by rw [hgroup]; exact fun _ _ _ => rfl)
    (by rw [hgroup]; rfl) hlaunch succ csi p
  obtain ⟨hm, hcoh, hmgmt⟩ := releasing_memory w q n
  obtain ⟨hmem', hcoh', hmgmt'⟩ : w.mem = s.mem ∧ w.coh = s.coh ∧ w.mgmt = s.mgmt := by
    rw [m.outside]
    exact ⟨rfl, rfl, rfl⟩
  rw [hswitch]
  refine ⟨htcur.trans ?_, time, k, hplaces.trans ?_, w.releasing q n, ?_, hm.trans hmem', hcoh.trans hcoh', hmgmt.trans hmgmt', fun c => ?_⟩
  · show { Group.blank with core := (w.releasing q n).cur.core, slot := (w.releasing q n).cur.slot } = _
    rw [hgroup]
    rfl
  · show (w.releasing q n).sch.places ++ [(w.releasing q n).cur.inPlace ((w.releasing q n).launch (w.releasing q n).cur.launch) csi p time k] = _
    rw [hlaunch, hin, releasing_places, m.sch]
  · rw [hmem, placeWritten_noise _ hquiet, hwritten]
  · rw [releasing_l1, m.l1]

end Sys2Proof.Machine
end

section

namespace Sys2Proof.Machine

/-- Settles O36. YIELD and PHASE are noted at their position; at the end of the clause a YIELD finds no reason to switch that the state before it did not
have, and a PHASE puts the group's record into its place. -/
theorem yieldAndPhase : Obligations.YieldAndPhase := by
  unfold Obligations.YieldAndPhase
  refine ⟨?_, ?_⟩
  · intro s w h
    refine ⟨fun hd => ?_, fun hd hh => ?_, fun hd hh hin hlast => ?_, fun hd hh hlast hstop hend hwait => ?_⟩
    · exact exec_yield_undeclared (Bool.eq_false_iff.2 fun hcs => hd ((csOk_iff s _).1 hcs))
    · rw [exec_yield h ((csOk_iff s _).2 hd), if_pos hh]
      have hpaused : { s.cur.stepped .none with dline := s.cur.dline } = s.cur.stepped .none := by simp [Group.stepped, Group.deadlineLess, hh]
      have m := moves_advance s w.ctl 1 .none s.cur rfl rfl
      rw [hpaused] at m
      exact ⟨_, rfl, m⟩
    · have m := moves_yielding s w w.ctl (0, BitVec.ofNat 3 (yieldSet w), 0, false)
      rw [hlast] at m
      rw [exec_yield h ((csOk_iff s _).2 hd), if_neg (by simp [hh]), noteSwitch_inside (s := s.yielding w) _ _ hin hlast]
      exact ⟨_, rfl, m⟩
    · have m := moves_yielding s w w.ctl (0, BitVec.ofNat 3 (yieldSet w), 0, false)
      rw [hlast] at m
      have hdue : ((s.yielding w).switchNoted w.ctl (0, BitVec.ofNat 3 (yieldSet w), 0, false)).cur.endSwitch =
          some (0, BitVec.ofNat 3 (yieldSet w), 0, false) := by rw [m.group]
      rw [exec_yield h ((csOk_iff s _).2 hd), if_neg (by simp [hh]), noteSwitch_last (s := s.yielding w) _ _ hlast hend,
        doSwitch_stays (e := (0, BitVec.ofNat 3 (yieldSet w), 0)) hdue (m.yieldSwitches ⟨rfl, rfl, rfl, rfl, rfl, rfl, rfl⟩ rfl hstop hwait)]
      exact ⟨_, rfl, m.switchDone⟩
  · intro s w h
    refine ⟨exec_phase_handler h, exec_phase_undeclared, fun hh hcs h0 hbad => ?_, fun hh hcs hr => ⟨fun hin hlast => ?_, fun hlast hi hw hend h0 p hp => ?_⟩⟩
    · obtain ⟨k, sub, hr, hk⟩ := jcaFault_some s h0 hbad
      exact ⟨k, sub, exec_phase_jca h hh hcs hr, hk⟩
    · rw [exec_phase h hh hcs hr, noteSwitch_inside _ _ hin hlast]
      have m := moves_switchNoted s w.ctl (immTarget s.cur w.imm, BitVec.ofNat 3 (inlineCs w.d), s.cur.srcS w.a, true)
      rw [hlast] at m
      exact ⟨_, rfl, m⟩
    · obtain ⟨htcur, time, n, hplaces, u, hmem, hkept⟩ :=
        noteSwitch_leaves w.ctl (immTarget s.cur w.imm) (BitVec.ofNat 3 (inlineCs w.d)) hlast hi hw hend hp
      rw [exec_phase h hh hcs hr, h0]
      exact ⟨_, _, rfl, htcur, hplaces, rfl, rfl, rfl, rfl, rfl, BitVec.toNat_ofNat .., rfl, rfl, rfl, u, hmem, hkept⟩

end Sys2Proof.Machine
end

section
/-! SUPPORT. Queue registers (R177 to R179, R357 to R360): what QPUT, QGET and QTRY come to where they issue, what a command accepted leaves, what a word
popped leaves, and the batch slot behind q7 (R158). -/

namespace Sys2Proof.Machine

/-! ### Registers and predicates in the destinations (R168) -/

/-- A predicate result in its destination. -/
def Group.putC (g : Group) (d : Opd) (b : Bool) : Group :=
  match d with
  | .reg n => g.setPred n.toNat b
  | _ => g

theorem putC_outside (g : Group) (d : Opd) (b : Bool) : ∃ p, g.putC d b = { g with preds := p } := by
  unfold Group.putC
  split
  · unfold Group.setPred
    split
    · exact ⟨_, rfl⟩
    · exact ⟨g.preds, rfl⟩
  · exact ⟨g.preds, rfl⟩

/-- The same written on the state, by the form of the destination. -/
theorem setCur_putC (s : State) (d : Opd) (b : Bool) : (match d with
    | .reg n => s.setCur (s.cur.setPred n.toNat b)
    | _ => s) = s.setCur (s.cur.putC d b) := by
  cases d <;> rfl

theorem putS_outside (g : Group) (d : Opd) (w : Word) : ∃ r e, g.putS d w = { g with sregs := r, em := e } := by
  unfold Group.putS
  split
  · exact swrite_outside ..
  · exact ⟨g.sregs, g.em, rfl⟩

/-- A scalar result written by `g`, the group at the port as the instruction has left it so far. -/
theorem retires_doneS (s : State) (c : Ctl) (g : Group) (d : Opd) (x : Word) (hc : g.core = s.cur.core) (hs : g.slot = s.cur.slot) :
    Retires s ((s.setCur g).doneS c d x) c 1 (.s x) (g.putS d x) := by
  obtain ⟨r, e, h⟩ := putS_outside g d x
  exact retires_retire s c 1 (.s x) (g.putS d x) (by rw [h]; exact hc) (by rw [h]; exact hs)

theorem retires_doneS_putC (s : State) (c : Ctl) (g : Group) (p : Opd) (b : Bool) (d : Opd) (x : Word) (hc : g.core = s.cur.core)
    (hs : g.slot = s.cur.slot) : Retires s ((s.setCur (g.putC p b)).doneS c d x) c 1 (.s x) ((g.putC p b).putS d x) := by
  obtain ⟨q, h⟩ := putC_outside g p b
  exact retires_doneS s c _ d x (by rw [h]; exact hc) (by rw [h]; exact hs)

/-! ### A group that is blocked -/

theorem block_outside (s : State) (kind : BitVec 4) (obj expect : Word) (lane : BitVec 8) (pend : Pend) : s.block kind obj expect lane pend =
    { s with
      cur := (s.block kind obj expect lane pend).cur
      cores := (s.block kind obj expect lane pend).cores
      seqCtr := (s.block kind obj expect lane pend).seqCtr } := by
  unfold State.block
  rw [letGo_outside]
  rfl

/-! ### Which registers push and which pop (R177) -/

theorem isPush_iff (q : Nat) : isPush q = true ↔ q ∈ [0, 2, 4, 8] := by
  simp [isPush, or_assoc]

theorem isPop_iff (q : Nat) : isPop q = true ↔ q ∈ [1, 3, 5, 7] := by
  simp [isPop, or_assoc]

theorem pushDepth_eq (q : Nat) : pushDepth q = if q = 0 ∨ q = 2 then 16 else 8 := by
  simp [pushDepth]

/-- A queue register's own check fails (R258): illegal operand. -/
theorem issueChecked_badQueue {i : Instr} {o : OpInfo} {s : State} {ok : Bool} (ho : i.info = some o) (body : State → State) (hd : s.cur.dline ≠ 0)
    (hok : ¬ ok = true) : issueChecked i s (!ok) body = s.trap .group 0x11 [] :=
  issueChecked_wrong ho body (fun hlate => hd hlate.1) (.inr (.inr (by simpa using hok)))

theorem issueChecked_goodQueue {i : Instr} {s : State} {ok : Bool} (h : issues i s = true) (body : State → State) (hok : ok = true) :
    issueChecked i s (!ok) body = body s := by
  rw [hok]
  exact issueChecked_of_issues h body

/-! ### QPUT (R177 to R179, R357, R358) -/

section
variable {s : State} {w : RR} {n : BitVec 6} (hreg : w.d = .reg n)
include hreg

theorem exec_qput_wrong (hd : s.cur.dline ≠ 0) (hn : n.toNat ∉ [0, 2, 4, 8]) : exec (.qput w) s = .next (s.trap .group 0x11 []) := by
  have hq : queueReg w.d = n.toNat := by rw [hreg]; rfl
  exact congrArg Host.Outcome.next (issueChecked_badQueue rfl _ hd (by rw [hq, isPush_iff]; exact hn))

variable (h : issues (.qput w) s = true) (hn : n.toNat ∈ [0, 2, 4, 8])
include h hn

/-- QPUT that issues has its own effect, whatever the check of its register. -/
theorem qput_issues (body : State → State) : issueChecked (.qput w) s (!isPush (queueReg w.d)) body = body s :=
  issueChecked_goodQueue h body (by rw [hreg]; exact (isPush_iff _).2 hn)

theorem exec_qput_full (hfull : pushDepth n.toNat ≤ (s.coreCtx s.cur.core s.cur.ctx).depth n.toNat) : exec (.qput w) s = .next s.hold := by
  have hq : queueReg w.d = n.toNat := by rw [hreg]; rfl
  refine congrArg Host.Outcome.next ((qput_issues hreg h hn _).trans ?_)
  simp only [hq, hfull, if_true]

variable (hroom : (s.coreCtx s.cur.core s.cur.ctx).depth n.toNat < pushDepth n.toNat)
include hroom

theorem exec_qput_first (hhalf : ∀ h ∈ s.cur.half, h.1 ≠ BitVec.ofNat 4 n.toNat) : exec (.qput w) s = .next
    ((s.setCur { s.cur with half := s.cur.half ++ [(BitVec.ofNat 4 n.toNat, s.cur.srcS w.a)] }).doneN w.ctl) := by
  have hq : queueReg w.d = n.toNat := by rw [hreg]; rfl
  have hnone : (s.cur.half.find? fun h => h.1 = BitVec.ofNat 4 n.toNat) = none := by simpa using hhalf
  refine congrArg Host.Outcome.next ((qput_issues hreg h hn _).trans ?_)
  simp only [hq, Nat.not_le.2 hroom, hnone, if_false]

theorem exec_qput_second {w0 : Word} (hhalf : (s.cur.half.find? fun h => h.1 = BitVec.ofNat 4 n.toNat) = some (BitVec.ofNat 4 n.toNat, w0)) :
    exec (.qput w) s = .next (((s.setCur { s.cur with half := s.cur.half.erase (BitVec.ofNat 4 n.toNat, w0) }).acceptCmd n.toNat w0
      (s.cur.srcS w.a)).doneN w.ctl) := by
  have hq : queueReg w.d = n.toNat := by rw [hreg]; rfl
  refine congrArg Host.Outcome.next ((qput_issues hreg h hn _).trans ?_)
  simp only [hq, Nat.not_le.2 hroom, hhalf, if_false]

end

theorem State.setCoreCtx_coreCtx_other (s : State) {c a : BitVec 10} {x b : BitVec 12} (k : CoreCtx) (h : a ≠ c ∨ b ≠ x) :
    (s.setCoreCtx c x k).coreCtx a b = s.coreCtx a b := by
  by_cases hc : a = c
  · have hx : b.toNat ≠ x.toNat := fun e => (h.resolve_left (not_not.2 hc)) (BitVec.eq_of_toNat_eq e)
    subst hc
    rw [State.coreCtx, State.setCoreCtx, State.setCore_core]
    exact Tab.get_set_other _ _ _ hx
  · rw [State.coreCtx, State.setCoreCtx, State.setCore_core_other _ _ hc]
    rfl

/-! ### A command accepted (R179, R358) -/

section
variable (s : State) (q : Nat) (w0 w1 : Word)

/-- The number that the next command of the timeline takes. -/
def State.nextNumber (s : State) (q : Nat) (w0 : Word) : Word :=
  (s.coreCtx s.cur.core s.cur.ctx).accepted.toList.getD (timelineOf q w0) 0 + 1

/-- The command as the queue keeps it. -/
def State.command (s : State) (q : Nat) (w0 w1 : Word) : Cmd :=
  ⟨s.nextNumber q w0, w0, w1, s.cur.core, s.cur.slot, s.cur.ctx, s.cur.launch, s.cur.spbase, s.cur.spbytes, s.clusterIndex s.cur, s.cur.team, false, s.seqCtr⟩

theorem acceptCmd_cur : (s.acceptCmd q w0 w1).cur =
    { s.cur with tlown := put8 s.cur.tlown (timelineOf q w0) (s.nextNumber q w0) } := rfl

theorem acceptCmd_outside : s.acceptCmd q w0 w1 =
    { s with cur := (s.acceptCmd q w0 w1).cur, cores := (s.acceptCmd q w0 w1).cores, seqCtr := s.seqCtr + 1 } := rfl

theorem acceptCmd_coreCtx : (s.acceptCmd q w0 w1).coreCtx s.cur.core s.cur.ctx =
    let k := s.coreCtx s.cur.core s.cur.ctx
    { k with accepted := put8 k.accepted (timelineOf q w0) (s.nextNumber q w0) }.setQueue q (k.queue q ++ [s.command q w0 w1]) :=
  State.setCoreCtx_coreCtx_same ..

theorem acceptCmd_coreCtx_other {a : BitVec 10} {b : BitVec 12} (h : a ≠ s.cur.core ∨ b ≠ s.cur.ctx) :
    (s.acceptCmd q w0 w1).coreCtx a b = s.coreCtx a b :=
  State.setCoreCtx_coreCtx_other _ _ h

end

/-! ### A word popped (R217, R235, R359, R360) -/

/-- The group at the port raises its clock, and its core's highest. -/
theorem raisePts_cur {s : State} {c : BitVec 10} {n : BitVec 3} (h : s.cur.at c n = true) (t : BitVec 48) : s.raisePts c n t =
    (s.setCur { s.cur with pts := max48 s.cur.pts t }).setCore c { s.core c with hiPts := max48 (s.core c).hiPts t } := by
  rw [State.raisePts, State.modGroup, if_pos h]
  rfl

/-- The flags that a status word of a matrix or copy command raises; a word of q5 raises none. -/
def popFlags (q : Nat) (x : Word) : BitVec 5 := if q = 5 then 0 else
  (if x.getLsbD 27 then gsfOF else 0) ||| (if x.getLsbD 26 then gsfUF else 0) ||| (if x.getLsbD 25 then gsfNQ else 0) |||
  (if x.getLsbD 24 then gsfAOV else 0)

/-- Word `p` at place `i` of the queue is out, the clocks are raised to its timestamp, and the flags `f` are raised. -/
def State.popped (s : State) (q i : Nat) (p : PopWord) (f : BitVec 5) : State :=
  let k := s.coreCtx s.cur.core s.cur.ctx
  let u := s.setCoreCtx s.cur.core s.cur.ctx (k.setPop q ((k.popQueue q).eraseIdx i))
  let r := u.core s.cur.core
  (u.setCore s.cur.core { r with hiPts := max48 r.hiPts p.ts }).setCur
    { s.cur with pts := max48 s.cur.pts p.ts, gsf := s.cur.gsf ||| f }

section
variable (s : State) (q i : Nat) (p : PopWord) (f : BitVec 5)

theorem popped_cur : (s.popped q i p f).cur = { s.cur with pts := max48 s.cur.pts p.ts, gsf := s.cur.gsf ||| f } := rfl

theorem popped_outside : s.popped q i p f = { s with cur := (s.popped q i p f).cur, cores := (s.popped q i p f).cores } := rfl

theorem popped_coreCtx : (s.popped q i p f).coreCtx s.cur.core s.cur.ctx =
    (s.coreCtx s.cur.core s.cur.ctx).setPop q (((s.coreCtx s.cur.core s.cur.ctx).popQueue q).eraseIdx i) := by
  simp only [State.popped, State.setCur_coreCtx]
  rw [State.coreCtx, State.setCore_core]
  exact State.setCoreCtx_coreCtx_same ..

end

section
variable {s : State} {q i : Nat} {p : PopWord} (hp : ((s.coreCtx s.cur.core s.cur.ctx).popQueue q)[i]? = some p) (hl : s.cur.life = .running)
include hp hl

theorem popAt_eq (get : Bool) : s.popAt q i get = (s.popped q i p (if get then popFlags q p.word else 0), p.word) := by
  have hat : s.cur.at s.cur.core s.cur.slot = true := by simp [Group.at, hl]
  have hraised := fun k : CoreCtx => raisePts_cur (s := s.setCoreCtx s.cur.core s.cur.ctx k) hat p.ts
  have hflags : (if decide (q = 5) || !get then 0 else (if bit p.word 27 then gsfOF else 0) ||| (if bit p.word 26 then gsfUF else 0) |||
      (if bit p.word 25 then gsfNQ else 0) ||| (if bit p.word 24 then gsfAOV else 0)) = if get then popFlags q p.word else 0 := by
    cases get <;> simp [popFlags, bit]
  simp only [State.popAt, hp, hraised, hflags]
  rfl

end

/-! ### The batch slot (R158) -/

theorem popBatch_none {s : State} (h : s.cur.batch = none ∨ ∃ va m k, s.cur.batch = some (va, m, k) ∧ m ≤ k) : s.popBatch = .none s := by
  rcases h with h | ⟨va, m, k, h, hmk⟩
  · simp only [State.popBatch, h]
  · simp only [State.popBatch, h, hmk, if_true]

theorem popBatch_word {s u : State} {va : Word} {m k x : Nat} (h : s.cur.batch = some (va, m, k)) (hk : k < m)
    (hread : s.readVa s.cur.waiter s.cur.ctx (va + BitVec.ofNat 64 (8 * k)) 8 = .ok (u, x)) (hcur : u.cur = s.cur) :
    s.popBatch = .word ((u.clearVerdicts s.cur.waiter).setCur { s.cur with batch := some (va, m, k + 1) }) (BitVec.ofNat 64 x) := by
  have hcur' : (u.clearVerdicts s.cur.waiter).cur = s.cur := hcur
  simp only [State.popBatch, h, Nat.not_le.2 hk, if_false, hread, hcur]

/-! ### QGET and QTRY (R360) -/

/-- How many words of the queue the waiting QGETs claim ahead of the group: its rank among them, or all of them. -/
def State.popRank (s : State) (q : Nat) : Nat :=
  let waiting := s.qgetters s.cur.core s.cur.ctx q
  (waiting.findIdx? fun x => x = s.cur.slot).getD waiting.length

section
variable {s : State} {w : RR} {n : BitVec 6} (hreg : w.a = .reg n)
include hreg

theorem exec_qget_wrong (hd : s.cur.dline ≠ 0) (hn : n.toNat ∉ [1, 3, 5, 7]) : exec (.qget w) s = .next (s.trap .group 0x11 []) := by
  have hq : queueReg w.a = n.toNat := by rw [hreg]; rfl
  exact congrArg Host.Outcome.next (issueChecked_badQueue rfl _ hd (by rw [hq, isPop_iff]; exact hn))

theorem exec_qtry_wrong (hd : s.cur.dline ≠ 0) (hn : n.toNat ∉ [1, 3, 5, 7]) : exec (.qtry w) s = .next (s.trap .group 0x11 []) := by
  have hq : queueReg w.a = n.toNat := by rw [hreg]; rfl
  exact congrArg Host.Outcome.next (issueChecked_badQueue rfl _ hd (by rw [hq, isPop_iff]; exact hn))

section
variable (hn : n.toNat = 7)
include hn

theorem exec_qget_batch {u : State} {x : Word} (h : issues (.qget w) s = true) (hpop : s.popBatch = .word u x) :
    exec (.qget w) s = .next (u.doneS w.ctl w.d x) := by
  have hq : queueReg w.a = 7 := by rw [hreg, ← hn]; rfl
  refine congrArg Host.Outcome.next ((issueChecked_goodQueue h _ (by rw [hq]; rfl)).trans ?_)
  simp only [hq, hpop, if_true]

theorem exec_qget_noBatch (h : issues (.qget w) s = true) (hpop : s.popBatch = .none s) : exec (.qget w) s = .next (s.doneS w.ctl w.d 0) := by
  have hq : queueReg w.a = 7 := by rw [hreg, ← hn]; rfl
  refine congrArg Host.Outcome.next ((issueChecked_goodQueue h _ (by rw [hq]; rfl)).trans ?_)
  simp only [hq, hpop, if_true]

theorem exec_qtry_batch {u : State} {x : Word} (h : issues (.qtry w) s = true) (hpop : s.popBatch = .word u x) :
    exec (.qtry w) s = .next ((u.setCur (u.cur.putC w.c true)).doneS w.ctl w.d x) := by
  have hq : queueReg w.a = 7 := by rw [hreg, ← hn]; rfl
  refine congrArg Host.Outcome.next ((issueChecked_goodQueue h _ (by rw [hq]; rfl)).trans ?_)
  simp only [hq, hpop, if_true]
  exact congrArg (State.doneS · w.ctl w.d x) (setCur_putC u w.c true)

theorem exec_qtry_noBatch (h : issues (.qtry w) s = true) (hpop : s.popBatch = .none s) :
    exec (.qtry w) s = .next ((s.setCur (s.cur.putC w.c false)).doneS w.ctl w.d 0) := by
  have hq : queueReg w.a = 7 := by rw [hreg, ← hn]; rfl
  refine congrArg Host.Outcome.next ((issueChecked_goodQueue h _ (by rw [hq]; rfl)).trans ?_)
  simp only [hq, hpop, if_true]
  exact congrArg (State.doneS · w.ctl w.d 0) (setCur_putC s w.c false)

end

section
variable (hn : n.toNat ∈ [1, 3, 5])
include hn

theorem queueReg_pops : isPop (queueReg w.a) = true ∧ queueReg w.a = n.toNat ∧ n.toNat ≠ 7 := by
  have hq : queueReg w.a = n.toNat := by rw [hreg]; rfl
  simp only [List.mem_cons, List.not_mem_nil, or_false] at hn
  rw [hq, isPop_iff]
  refine ⟨?_, rfl, by omega⟩
  simp only [List.mem_cons, List.not_mem_nil, or_false]
  omega

/-- A group that finds a word of its rank takes it. -/
theorem exec_qget_takes {p : PopWord} (hl : s.cur.life = .running) (h : issues (.qget w) s = true)
    (hp : ((s.coreCtx s.cur.core s.cur.ctx).popQueue n.toNat)[s.popRank n.toNat]? = some p) : exec (.qget w) s =
      .next ((s.popped n.toNat (s.popRank n.toNat) p (popFlags n.toNat p.word)).doneS w.ctl w.d p.word) := by
  obtain ⟨hpop, hq, h7⟩ := queueReg_pops hreg hn
  obtain ⟨hlt, -⟩ := List.getElem?_eq_some_iff.1 hp
  refine congrArg Host.Outcome.next ((issueChecked_goodQueue h _ hpop).trans ?_)
  rw [hq]
  refine (if_neg h7).trans ((if_pos hlt).trans ?_)
  show (s.popAt n.toNat (s.popRank n.toNat) true).1.doneS w.ctl w.d (s.popAt n.toNat (s.popRank n.toNat) true).2 = _
  rw [popAt_eq hp hl, if_pos rfl]

theorem exec_qget_waits (h : issues (.qget w) s = true)
    (hp : ((s.coreCtx s.cur.core s.cur.ctx).popQueue n.toNat).length ≤ s.popRank n.toNat) : exec (.qget w) s =
      .next (s.block 4 (BitVec.ofNat 64 n.toNat) 0 0xFF (.qget (BitVec.ofNat 4 n.toNat) w.d.toByte)) := by
  obtain ⟨hpop, hq, h7⟩ := queueReg_pops hreg hn
  refine congrArg Host.Outcome.next ((issueChecked_goodQueue h _ hpop).trans ?_)
  rw [hq]
  exact (if_neg h7).trans (if_neg (Nat.not_lt.2 hp))

/-- QTRY takes the first word that no waiting QGET claims, without its flags. -/
theorem exec_qtry_takes {p : PopWord} (hl : s.cur.life = .running) (h : issues (.qtry w) s = true)
    (hp : ((s.coreCtx s.cur.core s.cur.ctx).popQueue n.toNat)[(s.qgetters s.cur.core s.cur.ctx n.toNat).length]? = some p) :
    let u := s.popped n.toNat (s.qgetters s.cur.core s.cur.ctx n.toNat).length p 0
    exec (.qtry w) s = .next ((u.setCur (u.cur.putC w.c true)).doneS w.ctl w.d p.word) := by
  obtain ⟨hpop, hq, h7⟩ := queueReg_pops hreg hn
  obtain ⟨hlt, -⟩ := List.getElem?_eq_some_iff.1 hp
  refine congrArg Host.Outcome.next ((issueChecked_goodQueue h _ hpop).trans ?_)
  rw [hq]
  refine (if_neg h7).trans ((if_pos hlt).trans ?_)
  rw [popAt_eq hp hl]
  exact congrArg (State.doneS · w.ctl w.d p.word) (setCur_putC _ w.c true)

theorem exec_qtry_empty (h : issues (.qtry w) s = true)
    (hp : ((s.coreCtx s.cur.core s.cur.ctx).popQueue n.toNat).length ≤ (s.qgetters s.cur.core s.cur.ctx n.toNat).length) :
    exec (.qtry w) s = .next ((s.setCur (s.cur.putC w.c false)).doneS w.ctl w.d 0) := by
  obtain ⟨hpop, hq, h7⟩ := queueReg_pops hreg hn
  refine congrArg Host.Outcome.next ((issueChecked_goodQueue h _ hpop).trans ?_)
  rw [hq]
  refine (if_neg h7).trans ((if_neg (Nat.not_lt.2 hp)).trans ?_)
  exact congrArg (State.doneS · w.ctl w.d 0) (setCur_putC s w.c false)

end

end

/-- Settles O33: the check of the register, QPUT by what its register and the group hold, then QGET and QTRY by whether a word is left for the group. That
the check comes before the guards is the model's choice (log 41). -/
theorem queueRegisters : Obligations.QueueRegisters := by
  unfold Obligations.QueueRegisters
  refine ⟨fun s w n hd => ⟨fun hw hn => exec_qput_wrong hw hd hn, fun hw hn => ⟨exec_qget_wrong hw hd hn, exec_qtry_wrong hw hd hn⟩⟩, ?_, ?_⟩
  · intro s w n h hw
    refine ⟨fun hn hfull => ?_, fun hn hroom => ⟨fun hhalf => ?_, fun w0 hhalf => ?_⟩⟩
    · exact ⟨_, _, exec_qput_full hw h hn (by rw [pushDepth_eq]; exact hfull), rfl, rfl, rfl, rfl⟩
    · exact ⟨_, exec_qput_first hw h hn (by rw [pushDepth_eq]; exact hroom) hhalf, retires_retire s w.ctl 1 .none _ rfl rfl⟩
    · let v := s.setCur { s.cur with half := s.cur.half.erase (BitVec.ofNat 4 n.toNat, w0) }
      let u := v.acceptCmd n.toNat w0 (s.cur.srcS w.a)
      exact ⟨u, _, v.command n.toNat w0 (s.cur.srcS w.a), exec_qput_second hw h hn (by rw [pushDepth_eq]; exact hroom) hhalf,
        retires_retire u w.ctl 1 .none u.cur rfl rfl, acceptCmd_outside v .., acceptCmd_cur v .., rfl, rfl, rfl, rfl, rfl, rfl, rfl, rfl, rfl,
        acceptCmd_coreCtx v .., fun a b hab => acceptCmd_coreCtx_other v _ _ _ hab⟩
  · intro s w n hw
    refine ⟨fun hn hl h => ⟨fun p hp => ?_, fun hp => ?_⟩, fun hn hl h => ⟨fun p hp => ?_, fun hp => ?_⟩, fun hn hb => ⟨fun h => ?_, fun h => ?_⟩,
      fun va m k u x hn hb hk hread hcur => ⟨fun h => ?_, fun h => ?_⟩⟩
    · exact ⟨_, _, exec_qget_takes hw hn hl h hp, ⟨popped_cur .., popped_outside .., popped_coreCtx ..⟩, retires_doneS _ w.ctl _ w.d p.word rfl rfl⟩
    · obtain ⟨y, hcur, hkind, hobj⟩ := block_cur s 4 (BitVec.ofNat 64 n.toNat) 0 0xFF (.qget (BitVec.ofNat 4 n.toNat) w.d.toByte)
      exact ⟨_, y, exec_qget_waits hw hn h hp, hcur, hkind, hobj, block_outside ..⟩
    · exact ⟨_, _, exec_qtry_takes hw hn hl h hp, ⟨popped_cur .., popped_outside .., popped_coreCtx ..⟩,
        retires_doneS_putC _ w.ctl _ w.c true w.d p.word rfl rfl⟩
    · exact ⟨_, exec_qtry_empty hw hn h hp, retires_doneS_putC s w.ctl s.cur w.c false w.d 0 rfl rfl⟩
    · exact ⟨_, exec_qget_noBatch hw hn h (popBatch_none hb), retires_doneS s w.ctl s.cur w.d 0 rfl rfl⟩
    · exact ⟨_, exec_qtry_noBatch hw hn h (popBatch_none hb), retires_doneS_putC s w.ctl s.cur w.c false w.d 0 rfl rfl⟩
    · exact ⟨_, exec_qget_batch hw hn h (popBatch_word hb hk hread hcur), retires_doneS _ w.ctl _ w.d _ (by rw [← hcur]; rfl) (by rw [← hcur]; rfl)⟩
    · exact ⟨_, exec_qtry_batch hw hn h (popBatch_word hb hk hread hcur),
        retires_doneS_putC _ w.ctl _ w.c true w.d _ (by rw [← hcur]; rfl) (by rw [← hcur]; rfl)⟩

end Sys2Proof.Machine
end

section
/-! SUPPORT. The statement about ENQT fails of the state `slotTwice`: where the port shows a slot empty that a group beside it holds, the release of ENQT
(R216) sends the buffer of that group. -/

namespace Sys2Proof.Machine

/-! ### ENQT with no lane active (R149, R380) -/

/-- With no lane active no token is offered. -/
theorem enqueueLanes_inactive (s : State) (w : RR) (b : Nat) (h : Lanes) (k : Mask) (l : List (Fin 96)) :
    s.enqueueLanes w b h 0 k l = s.enqueueLanes w b h 0 k [] := by
  induction l with
  | nil => rfl
  | cons i r ih =>
    have hoff : (!bit (0 : Mask) i) = true := by simp [bit]
    exact (if_pos hoff).trans ih

theorem enqueueLanes_nil_parked (s : State) (w : RR) (b : Nat) (h : Lanes) (em k : Mask) : (s.enqueueLanes w b h em k []).parked = s.parked := by
  let u := s.clearVerdicts (.group s.cur.core s.cur.slot)
  have m : Retires u (s.enqueueLanes w b h em k []) w.ctl (max 1 u.cur.beats) .none { u.cur with k := k } := retires_retire u w.ctl _ .none _ rfl rfl
  rw [m.outside]
  rfl

theorem raiseClocks_parked (s : State) (g : Group) (n : Nat) : (s.raiseClocks g n).parked = s.parked := by
  unfold State.raiseClocks
  split
  · rfl
  · split <;> split <;> rfl

/-- ENQT of a group with no lane active that nothing holds once the buffer of its slot is sent. -/
theorem enqt_inactive {s u : State} {w : RR} (h : issues (.enqt w) s = true) (hwait : s.cur.wait = none)
    (hsent : s.sendWc s.cur.core s.cur.slot = u) (hrel : u.cur.released 3 = true) (hem : u.cur.em = 0) :
    ∃ t, exec (.enqt w) s = .next t ∧ t.parked = u.parked := by
  have hfrom : s.cur.enqtFrom = (0, 0) := by rw [Group.enqtFrom, hwait]
  have hem' : (u.raiseClocks u.cur 3).cur.em = 0 := hem
  refine ⟨_, congrArg Host.Outcome.next (issue_of_issues h _), ?_⟩
  simp only [hfrom, State.withRelease, hsent, hrel, hem', if_true]
  rw [enqueueLanes_inactive, enqueueLanes_nil_parked, raiseClocks_parked]

/-! ### ENQT where the port shows no group (R216) -/

/-- ENQT, always executed, with its records from v8 and its handles in v6. -/
def enqtAlways : RR := ⟨⟨0, false, 0, 7, 7⟩, .absent, .reg 8, .reg 6, .absent, 0xFF⟩

theorem slotTwice_sendWc : slotTwice.sendWc 0 0 =
    ({ slotTwice with parked := [{ Group.blank with life := .running }], seqCtr := 2 } : State).send ⟨.merge 0 0 0 [] true, 0, 15, 0, 0, 1, 0, 0, false⟩ :=
  sendWc_parked (s := slotTwice) (c := 0) (n := 0) (g := { Group.blank with life := .running, wc := some ⟨0, 0, 0, []⟩ }) (by decide +kernel) rfl
    (by decide +kernel) rfl rfl (secondTier_low (by decide))

/-- Refutes O35: the statement does not ask that the group at the port holds its slot. Where the port shows a slot empty that a group beside it holds, ENQT
with no lane active sends that group's write-combining buffer, and more has changed than the clocks of the scopes. -/
theorem not_enqueueTokens : ¬ Obligations.EnqueueTokens := by
  unfold Obligations.EnqueueTokens
  intro h
  have hissues : issues (.enqt enqtAlways) slotTwice = true := by decide +kernel
  obtain ⟨hoffered, -⟩ := h slotTwice enqtAlways 8 hissues rfl
  obtain ⟨hnone, -⟩ := hoffered rfl rfl rfl
  obtain ⟨u, t, hexec, hclocked, hret⟩ := hnone rfl
  obtain ⟨t', hexec', hsent⟩ := enqt_inactive hissues rfl slotTwice_sendWc rfl rfl
  obtain rfl : t' = t := Host.Outcome.next.inj (hexec'.symm.trans hexec)
  have hkept : t'.parked = slotTwice.parked := by
    rw [hret.outside, hclocked]
    rfl
  cases hkept.symm.trans hsent

end Sys2Proof.Machine
end
